-- ==== Sys2Proof/Word.lean ====
section
/-! DEFINITION. The word types of AE4 (R10, R26, R186): scalar and address words, vector and mask registers, and the
plainest arithmetic on them. -/

namespace Sys2Proof

/-- A byte of storage. -/
abbrev Byte := BitVec 8

/-- A 64-bit scalar or address value (R10). -/
abbrev Word := BitVec 64

/-- A 2048-bit vector register (R186). -/
abbrev VReg := BitVec 2048

/-- A mask register: one bit per byte of a vector register (R186). -/
abbrev KReg := BitVec 256

/-- A guard field G (R143): bit 3 negates, bits 2 to 0 select `g0` to `g7`. -/
abbrev GuardF := BitVec 4

end Sys2Proof
end

