-- ==== Sys2Proof/Syntax.lean ====
section
/-! DEFINITION. The syntax of AE4: one constructor of `Instr` for every row of the opcode table. The first part are the
slot instructions of R152 to R155, with the operands of R148 to R151, R215, R227 and R231. The second part are the
table's rows without an encoding: the operations and events of the order machine, the engines, the scheduler, the
firmware, the host and the links. Their operands say which item moves and what the outside world supplies. -/

namespace Sys2Proof

/-- The type codes of R27. -/
inductive Ty where
  | f32 | bf16 | f16 | e4m3 | e5m2 | e2m1k | i8 | n8 | i16 | n16 | i32 | n32 | i64 | n64 | i4 | n4
deriving DecidableEq, Repr

/-- The type code of a type (R27). -/
def Ty.code : Ty → BitVec 4
  | .f32 => 0 | .bf16 => 1 | .f16 => 2 | .e4m3 => 3 | .e5m2 => 4 | .e2m1k => 5 | .i8 => 6 | .n8 => 7
  | .i16 => 8 | .n16 => 9 | .i32 => 10 | .n32 => 11 | .i64 => 12 | .n64 => 13 | .i4 => 14 | .n4 => 15

/-- The conditions of CMP (R167), in function-code order. -/
inductive CmpCond where
  | eq | ne | lt | le | ltu | leu
deriving DecidableEq, Repr

/-- The conditions of FCMP (R171), in function-code order. -/
inductive FCmpCond where
  | eq | ne | lt | le | uno
deriving DecidableEq, Repr

/-- The scopes of R133 and R147; the wire code is die 0, core 1, cluster 2, package 3, system 4. -/
inductive Scope where
  | die | core | cluster | package | system
deriving DecidableEq, Repr

/-- The access paths of R61. -/
inductive Path where
  | core | copy | tensor | splice | network
deriving DecidableEq, Repr

/-- The modes of an address modifier (R257). -/
inductive MMode where
  | lin | mod | brev | circ
deriving DecidableEq, Repr

/-- The three moves of AMOV (R259). -/
inductive AmovKind where
  /-- `aD := sA` -/
  | aFromS
  /-- `sD := aA` -/
  | sFromA
  /-- `aD := aA` -/
  | aFromA
deriving DecidableEq, Repr

/-- The bases of ALEA (R149, R259). -/
inductive AleaBase where
  | bundle | image | window
deriving DecidableEq, Repr

/-- The qualifiers of LD and LDV (R261, R264). -/
inductive LdQual where
  | plain | fe | fec | acq
deriving DecidableEq, Repr

/-- The qualifiers of ST (R261). -/
inductive StQual where
  | plain | fe | rel
deriving DecidableEq, Repr

/-- The operations of AMO (R269), in function-code order. -/
inductive AmoOp where
  | add | fadd | min | max | and | or | xor | swap
deriving DecidableEq, Repr

/-- The operators of REDUCE (R231). -/
inductive RedOp where
  | sum | max | sexp
deriving DecidableEq, Repr

/-- The stored formats of MLDB (R215). -/
inductive StoredFmt where
  | e2m1k | i4 | e4m3 | bf16
deriving DecidableEq, Repr

/-- The lent byte of an AM access in modes 01 to 11 (R147): scope and stream. -/
structure ScopeStream where
  scope  : Scope
  stream : BitVec 4
deriving DecidableEq, Repr

/-- A memory operand of format AM (R149): the four modes. -/
inductive MemOp where
  /-- mode 00, `[aX+imm]`: die scope, stream 0 -/
  | imm (x : BitVec 4) (off : BitVec 14)
  /-- mode 01, `[aX]+` -/
  | inc (x : BitVec 4) (q : ScopeStream)
  /-- mode 10, `[aX+sN]` -/
  | idx (x : BitVec 4) (n : BitVec 6) (q : ScopeStream)
  /-- mode 11, `[aX]+sN` -/
  | incIdx (x : BitVec 4) (n : BitVec 6) (q : ScopeStream)
deriving DecidableEq, Repr

/-- An address operand of an engine command (R230): `[aX]` or `[aX]+`. -/
structure EAddr where
  x   : BitVec 4
  inc : Bool
deriving DecidableEq, Repr

/-- The length of COPY (R231): sixteenths of the byte count, or a scalar register. -/
inductive CopyLen where
  | imm (units : BitVec 14)
  | reg (s : BitVec 6)
deriving DecidableEq, Repr

/-- The length of COPYM (R231). -/
inductive CopymLen where
  | imm (units : BitVec 8)
  | reg (s : BitVec 6)
deriving DecidableEq, Repr

/-- The second operand of AADD (R259). -/
inductive AOpnd where
  | reg (s : BitVec 6)
  | imm (v : BitVec 14)
deriving DecidableEq, Repr

/-- Format SR (R148): D, A, B, the bit I and the guard. -/
structure SR where
  d : BitVec 6
  a : BitVec 6
  b : BitVec 6
  i : Bool
  g : GuardF
deriving DecidableEq, Repr

/-- Format SR with I = 0 and three register fields (R148). -/
structure SR3 where
  d : BitVec 6
  a : BitVec 6
  b : BitVec 6
  g : GuardF
deriving DecidableEq, Repr

/-- Format VR (R150) with the byte lent by a header (R147): Z, V and the fourth operand C. -/
structure VOp where
  d : BitVec 6
  a : BitVec 6
  b : BitVec 6
  m : BitVec 4
  t : Ty
  z : Bool
  v : Bool
  c : BitVec 6
deriving DecidableEq, Repr

/-- The three handles and the pair of an elementwise or matrix TOP (R231). -/
structure Top3 where
  d : BitVec 8
  a : BitVec 8
  b : BitVec 8
  p : BitVec 6
  g : GuardF
deriving DecidableEq, Repr

/-- The operands of a beat (R215): tile, vector register, row in the tile. -/
structure Beat where
  t : BitVec 6
  a : BitVec 6
  r : BitVec 5
  g : GuardF
deriving DecidableEq, Repr

/-- The answer to an ATS Translation Request (R337): a range, its translation and its permissions, or a failure
(no permission at all, or an Unsupported Request). (DEDUCED: log 127) -/
structure AtsReply where
  pasid : Nat
  va    : Nat
  size  : Nat
  /-- the bus address that the range translates to (R44) -/
  addr  : Nat
  r     : Bool
  w     : Bool
  x     : Bool
deriving DecidableEq, Repr

/-- The kinds of an incoming network request (R368). -/
inductive NetKind where
  | write | read | amo (op : BitVec 4)
deriving DecidableEq, Repr

/-- An incoming network request (R372), as the packets of one message bring it. `whole` is false when a packet of an
unreliable message was lost (R252). (PRESUMED: log 89) (DEDUCED: log 127) -/
structure NetReq where
  /-- of a message in ROD: the flow from its core to this endpoint, and its place in the flow (R250) -/
  rod    : Option (Nat × Nat)
  port   : Nat
  rctx   : Nat
  tvd    : BitVec 2
  kind   : NetKind
  rva    : Nat
  len    : Nat
  bytes  : List Byte
  actr   : BitVec 16
  poison : Bool
  whole  : Bool
deriving DecidableEq, Repr

/-- What a request on BAR0 asks, and whether it came over the function's selective IDE stream (R360, R366). -/
structure Bar0Access where
  ide   : Bool
  write : Bool
deriving DecidableEq, Repr

/-- Where a REGISTER_WRITE goes: a firmware system register of a die, a control-space word (R306, R308), the host's BAR0 of a
function (R44, R366), the mask of one of its vectors (R367), or a sensor's reading in a word of the power manager (R361).
(DEDUCED: log 127) -/
inductive RegTarget where
  | sys (die : BitVec 2) (n : BitVec 12)
  | ctl (addr : Nat)
  | bar0 (pf : BitVec 2)
  | mask (pf : BitVec 2) (vec : BitVec 7)
  | sensor (off : Nat)
deriving DecidableEq, Repr

/-- What a loader writes into a plane, or, as bytes by address, into a sequencer's microprogram store (R334). A preload
descriptor is (offset, length, source); a drain entry is (LO, HI, DPC, RPC), R350. -/
structure PlaneData where
  entry   : Word
  image   : Word
  htab    : Word
  dtab    : Word
  wid     : Word
  widths  : List Nat
  extents : List Nat
  glev    : Nat
  member  : Nat
  gsize   : Nat
  bar     : Nat
  preload : List (Nat × Nat × Nat)
  drains  : List (Word × Word × Word × Word)
  spkeep  : Nat
  micro   : List (Nat × Byte)
deriving DecidableEq, Repr

/-- What a loader's write names (R334): a plane of a core, or the microprogram store of the sequencer of one of the 32 central
arrays of its die (R3). -/
inductive PlaneSel where
  | active | shadow | micro (array : BitVec 5)
deriving DecidableEq, Repr

/-- The TDISP messages that move an interface (R366). -/
inductive TdispKind where
  | lock | start | stop
deriving DecidableEq, Repr

/-- A TDISP message, with the secured SPDM session in which it comes, if any (R377). (PRESUMED: log 121) (DEDUCED: log 127) -/
structure TdispMsg where
  session : Option Nat
  kind    : TdispKind
deriving DecidableEq, Repr

/-- The requests that the root of trust answers over DOE (R377). (PRESUMED: log 121) (DEDUCED: log 127) -/
inductive SpdmReq where
  | openSession (id : Nat)
  | closeSession (id : Nat)
  | identityKey
  | certificateChain
  | measurement (index : Nat)
  | keyTraffic (session : Nat)
deriving DecidableEq, Repr

/-- The storage that a SOFT_ERROR strikes (R218). (DEDUCED: log 127) -/
inductive SoftSite where
  | weightBuffer (byte : Nat)
  | memory (pa : Nat)
deriving DecidableEq, Repr

/-- The rows of the opcode table. -/
inductive Instr where
  -- slot 0: scalar, control, branch (R152)
  | nop
  | add (o : SR) | sub (o : SR) | and (o : SR) | or (o : SR) | xor (o : SR) | andn (o : SR)
  | min (o : SR) | max (o : SR) | minu (o : SR) | maxu (o : SR)
  | shl (o : SR) | shr (o : SR) | sra (o : SR) | rol (o : SR)
  | mul (o : SR) | mulh (o : SR) | mulhu (o : SR)
  | div (o : SR) | divu (o : SR) | rem (o : SR) | remu (o : SR)
  | clz (d a : BitVec 6) (g : GuardF) | ctz (d a : BitVec 6) (g : GuardF) | popc (d a : BitVec 6) (g : GuardF)
  | bfx (o : SR3) | bfi (o : SR3)
  | sel (o : SR3) (c : GuardF)
  | movi (d : BitVec 6) (imm : BitVec 16) (g : GuardF)
  | movhi (d : BitVec 6) (imm : BitVec 16) (q : BitVec 2) (g : GuardF)
  | cmp (cc : CmpCond) (o : SR)
  | fadd (o : SR3) | fsub (o : SR3) | fmul (o : SR3) | fmin (o : SR3) | fmax (o : SR3) | ffma (o : SR3)
  | fcvt (d a : BitVec 6) (tt ss : Ty) (g : GuardF)
  | fcmp (cc : FCmpCond) (o : SR3)
  | fclass (d a : BitVec 6) (g : GuardF)
  | gand (d : BitVec 6) (a b : GuardF) (g : GuardF) | gor (d : BitVec 6) (a b : GuardF) (g : GuardF)
  | gnot (d : BitVec 6) (a : GuardF) (g : GuardF)
  | br (disp : BitVec 22) (g : GuardF) | jmp (a : BitVec 6) (g : GuardF)
  | call (disp : BitVec 22) (g : GuardF) | ret (g : GuardF)
  | loop (n : BitVec 12) (disp : BitVec 10) (g : GuardF) | loopReg (a : BitVec 6) (disp : BitVec 10) (g : GuardF)
  | setfmt (a : BitVec 6) (g : GuardF)
  | getf (d : BitVec 6) (i : BitVec 6) (g : GuardF) | getid (d : BitVec 6) (i : BitVec 6) (g : GuardF)
  | hops (o : SR3)
  | endTask (g : GuardF) | drain (g : GuardF)
  | trap (code : BitVec 6) (g : GuardF) | brk (g : GuardF)
  | mfs (d : BitVec 6) (n : BitVec 12) (g : GuardF) | mts (a : BitVec 6) (n : BitVec 12) (g : GuardF)
  | eret (g : GuardF)
  -- slot 1: address, memory, synchronisation (R153)
  | amov (k : AmovKind) (d a : BitVec 6) (g : GuardF)
  | aadd (d a : BitVec 4) (b : AOpnd) (g : GuardF)
  | alea (d : BitVec 4) (base : AleaBase) (off : BitVec 24) (g : GuardF)
  | asetm (mode : MMode) (d a : BitVec 4) (inc : BitVec 14) (len : BitVec 4) (g : GuardF)
  | ld (sz : BitVec 2) (q : LdQual) (d : BitVec 6) (mem : MemOp) (g : GuardF)
  | st (sz : BitVec 2) (q : StQual) (d : BitVec 6) (mem : MemOp) (g : GuardF)
  | ldv (q : LdQual) (d : BitVec 6) (mem : MemOp) (g : GuardF)
  | stv (k : BitVec 4) (d : BitVec 6) (mem : MemOp) (g : GuardF)
  | ldvs (w : BitVec 2) (d : BitVec 6) (mem : MemOp) (g : GuardF)
  | stvs (w : BitVec 2) (d : BitVec 6) (mem : MemOp) (g : GuardF)
  | ldvx (k : BitVec 4) (d : BitVec 6) (mem : MemOp) (g : GuardF)
  | stvx (k : BitVec 4) (d : BitVec 6) (mem : MemOp) (g : GuardF)
  | pref (mem : MemOp) (g : GuardF)
  | amo (ar : Bool) (op : AmoOp) (d b : BitVec 6) (x : BitVec 4) (g : GuardF)
  | cas (ar : Bool) (wide : Bool) (d b : BitVec 6) (x : BitVec 4) (g : GuardF)
  | fewait (clr : Bool) (len : BitVec 6) (x : BitVec 4) (off : BitVec 14) (g : GuardF)
  | fence (paths : BitVec 6) (scope : Scope) (streams : BitVec 16) (g : GuardF)
  | wait (classes : BitVec 6) (limit : BitVec 6) (g : GuardF)
  | barinit (n : BitVec 10) (cnt : BitVec 14) (g : GuardF) | bararv (n : BitVec 10) (cnt : BitVec 14) (g : GuardF)
  | barwt (n : BitVec 10) (g : GuardF) | bararw (n : BitVec 10) (cnt : BitVec 14) (g : GuardF)
  | snap (g : GuardF)
  -- slot 1: engine commands (R231)
  | copy (d s : EAddr) (len : CopyLen) (g : GuardF)
  | copym (d s : EAddr) (len : CopymLen) (m : BitVec 6) (g : GuardF)
  | relay (t : Bool) (d s : BitVec 8) (lay : BitVec 4) (vc : BitVec 6) (g : GuardF)
  | ewadd (o : Top3) | ewmul (o : Top3) | ewfma (o : Top3) | ewmax (o : Top3)
  | ewcvt (ovn : Bool) (d a : BitVec 8) (p : BitVec 6) (g : GuardF)
  | gemv (o : Top3) | gemm (o : Top3)
  | reduce (op : RedOp) (d s : BitVec 8) (p : BitVec 6) (g : GuardF)
  | placeq (w s : BitVec 6) (g : GuardF)
  | attn (x : EAddr) (p : BitVec 6) (g : GuardF)
  | kvfind (d q : BitVec 6) (l : EAddr) (g : GuardF)
  | kvapp (d : BitVec 6) (x : EAddr) (vc : BitVec 6) (g : GuardF)
  | kvfree (d q b : BitVec 6) (l : EAddr) (g : GuardF)
  | setband (b : BitVec 6) (x l : EAddr) (g : GuardF)
  | splopen (c : BitVec 6) (x : EAddr) (g : GuardF)
  | splopenNb (c : BitVec 6) (k : BitVec 3) (x : EAddr) (g : GuardF)
  | splarv (d e t : BitVec 6) (x : EAddr) (g : GuardF)
  | splclose (d c : BitVec 6) (g : GuardF)
  | splstat (d c : BitVec 6) (sel : BitVec 6) (g : GuardF)
  | nxwr (x : EAddr) (g : GuardF) | nxrd (x : EAddr) (g : GuardF) | nxamo (d : BitVec 6) (x : EAddr) (g : GuardF)
  | nxwait (c v : BitVec 6) (g : GuardF) | nxstat (d p : BitVec 6) (g : GuardF)
  | launch (d : BitVec 6) (x : EAddr) (g : GuardF)
  | sumpcfg (n : BitVec 2) (a : BitVec 6) (g : GuardF)
  -- slot 2: vector, mask, sump (R154, R189)
  | vadd (o : VOp) | vsub (o : VOp) | vmul (o : VOp) | vfma (o : VOp) | vfms (o : VOp)
  | vmin (o : VOp) | vmax (o : VOp) | vabs (o : VOp) | vneg (o : VOp)
  | vrcp (o : VOp) | vrsq (o : VOp) | vfexp2 (o : VOp) | vlog2 (o : VOp) | vrndi (o : VOp) | vscale (o : VOp)
  | vgetexp (o : VOp) | vgetman (o : VOp) | vcvt (o : VOp) | vcvti (o : VOp) | vpackb (o : VOp) | vunpb (o : VOp)
  | vsat (o : VOp) | vcmp (o : VOp) | vsel (o : VOp) | vand (o : VOp) | vor (o : VOp) | vxor (o : VOp) | vnot (o : VOp)
  | vshl (o : VOp) | vshr (o : VOp) | vsra (o : VOp)
  | viota (o : VOp) | vbcast (o : VOp) | vmovs (o : VOp) | vins (o : VOp) | vmov (o : VOp) | vperm (o : VOp)
  | vslide (o : VOp) | vredsum (o : VOp) | vredmax (o : VOp) | vdot4 (o : VOp) | vcompr (o : VOp) | vexpnd (o : VOp)
  | kand (o : VOp) | kor (o : VOp) | kxor (o : VOp) | knot (o : VOp) | kpopc (o : VOp) | kfirst (o : VOp) | kset (o : VOp)
  | sumpin (o : VOp) | sumpout (o : VOp) | sumpcnt (o : VOp)
  -- slot 3: matrix, accumulator, ladder (R155, R215, R227)
  | mnop
  | mldb (f : StoredFmt) (sp : Bool) (a : BitVec 6) (g : GuardF)
  | mwbf (len : BitVec 6) (x : BitVec 4) (b : BitVec 6) (g : GuardF)
  | mpush (o : Beat) | mshift (o : Beat) (n : BitVec 5) | macc (o : Beat) | mdrain (o : Beat)
  | mdrainSwap (g : GuardF)
  | mzero (t : BitVec 6) (g : GuardF)
  | acmovv (v : BitVec 6) (p : BitVec 10) (g : GuardF) | acmova (v : BitVec 6) (p : BitVec 10) (g : GuardF)
  | acld (t : BitVec 6) (x : BitVec 4) (g : GuardF) | acst (t : BitVec 6) (x : BitVec 4) (g : GuardF)
  | ldrcfg (l : BitVec 2) (a b : BitVec 6) (g : GuardF)
  | ldrstep (l : BitVec 2) (t : BitVec 6) (g : GuardF) | ldrread (l : BitVec 2) (t : BitVec 6) (g : GuardF)
  | ldrrung (d : BitVec 6) (gd : BitVec 3) (l : BitVec 2) (lv : BitVec 4) (q : BitVec 4) (g : GuardF)
  | ldrcnt (d : BitVec 6) (l : BitVec 2) (g : GuardF)
  | ldrsave (l : BitVec 2) (x : BitVec 4) (g : GuardF) | ldrload (l : BitVec 2) (x : BitVec 4) (g : GuardF)
  | ldrclr (l : BitVec 2) (g : GuardF)
  -- the order machine (R130) and the core's own events
  | loadPerform (tok : Nat)
  | storeDrain (stream : BitVec 4)
  | atomic (tok : Nat)
  | engineWrite (cmd i : Nat)
  | commandRetire (cmd : Nat)
  | arrive (src dst : BitVec 2)
  | apply (die : BitVec 2) (w : Nat)
  | join (die : BitVec 2) (w : Nat) (p : Path)
  | interlockedLand (tok : Nat)
  | ladderChainEnd (l : BitVec 2)
  -- engines
  | pieceStart (cmd piece : Nat)
  | pieceComplete (cmd piece : Nat)
  | locatorStep (cmd : Nat)
  | spliceArrival (die : BitVec 2)
  | spliceDeadline (die : BitVec 2) (ctx : BitVec 6)
  | networkReceive (r : NetReq)
  | messageComplete (cmd : Nat) (outc : BitVec 8) (done : Nat) (data : List Byte)
  | retransmissionTimeout (part : BitVec 2) (slot : BitVec 6) (ep : BitVec 12) (value : BitVec 4)
  | pathProbe (part : BitVec 2) (slot : BitVec 6) (ep : BitVec 12) (value : BitVec 4)
  | flitCrcFailure (link : Nat) (again : Bool)
  | linkTraining (port : BitVec 7) (lane0 lane1 : Bool)
  -- translation and scheduling
  | claimResidency (die : BitVec 2) (launch : Nat)
  | atsCompletion (die : BitVec 2) (r : AtsReply)
  | pageResponse (die : BitVec 2) (launch : Nat) (page : Nat) (success : Bool)
  | atsInvalidation (pasid va size : Nat)
  | gangPlacement (die : BitVec 2) (cores : List Nat)
  | planeWrite (core : Nat) (plane : PlaneSel) (p : PlaneData)
  | latencyBound (die : BitVec 2) (launch : Nat)
  | taskResume (die : BitVec 2) (save : Nat) (core : Nat)
  | hostLaunch (die : BitVec 2) (slot : BitVec 6) (tail : List Byte)
  | eventCounterSet (die : BitVec 2) (slot : BitVec 6) (ev : BitVec 8) (val : BitVec 32)
  | eventAdd (die : BitVec 2) (slot : BitVec 6) (ev : BitVec 8) (val : BitVec 32)
  -- resets, and the words of the core blocks
  | coreReset (die : BitVec 2) | uncoreReset (die : BitVec 2)
  | drainreq (core : Nat) | resume (core : Nat) | endWord (core : Nat)
  | fpop (die : BitVec 2)
  | snaptrig (die : BitVec 2) | debugPortTrigger (part : BitVec 2)
  | eventEntry (die : BitVec 2)
  | registerWrite (t : RegTarget) (val : Word)
  -- host link, boot, power, security
  | bar0Request (pf : BitVec 2) (access : Bar0Access) (addr : Nat) (len : Nat) (data : List Byte)
  | powerCut (watts : Nat) (tj : Nat) (rates : List (BitVec 4))
  | thermalThrottle (tj : Nat)
  | thermalShutdown (tj : Nat)
  | functionLevelReset (pf : BitVec 2)
  | ideIntegrityFailure (pf : BitVec 2)
  | tdispMessage (pf : BitVec 2) (m : TdispMsg)
  | spdmRequest (pf : BitVec 2) (r : SpdmReq)
  | msixUnmask (pf : BitVec 2) (vec : BitVec 7)
  | msixHoldoff (pf : BitVec 2) (vec : BitVec 7)
  | machineCheckError (die : BitVec 2) (unit : BitVec 8) (sev : BitVec 8) (loc : BitVec 16) (pa : Nat)
  | accumulatorSoftError (row : BitVec 11) (col : BitVec 5)
  | faceUnitRetire (stack : BitVec 3) (unit : Nat)
  | powerCutEnd (watts : Nat) (tj : Nat)
  | packetAcknowledgement (part : BitVec 2) (slot : BitVec 6) (ep : BitVec 12) (value : BitVec 4)
      (rtt : Nat) (ecn : Bool) (probe : Bool)
  | softError (site : SoftSite)
  -- the events that take no operand
  | multicastLand | taskEnd | coreReturn | barrierArrival | weightFillEnd | beatComplete
  | invalidationCompletion | toggleToken | diversion | fullSave | drainComplete
  | load | imageVerification | powerOn | startingDiesDone
  -- commands of the partition mailboxes, of the mailbox whose command is next (R316)
  | create | destroy | swap | swapComplete | mode | retire | revoke | revokeComplete | keyload | keymap
deriving DecidableEq, Repr

end Sys2Proof
end

