-- ==== Sys2Proof/WellFormed.lean ====
section
/-! DEFINITION. Which terms of `Instr` are instructions: the limits of R144, R156, R188, R189, R215, R227, R230, R231 and
of the instructions' own entries, as far as one slot's word and lent byte decide them. What depends on the whole bundle
(two writers of one register) or on the mode stands with the step. -/

namespace Sys2Proof

/-- The width in bits of one element (R27). -/
def Ty.bits : Ty → Nat
  | .f32 | .i32 | .n32 => 32
  | .bf16 | .f16 | .i16 | .n16 => 16
  | .e4m3 | .e5m2 | .i8 | .n8 => 8
  | .i64 | .n64 => 64
  | .e2m1k | .i4 | .n4 => 4

/-- Lanes(type) of R42. -/
def Ty.lanes (t : Ty) : Nat := 2048 / t.bits

/-- The type set F of R189. -/
def Ty.isF : Ty → Bool
  | .f32 | .bf16 | .f16 => true
  | _ => false

/-- The type set F8 of R189. -/
def Ty.isF8 : Ty → Bool
  | .e4m3 | .e5m2 => true
  | _ => false

/-- The floating types, codes 0 to 5 (R27). -/
def Ty.isFloat (t : Ty) : Bool := t.isF || t.isF8 || t == .e2m1k

/-- The integer types, codes 6 to 15: the set I of R189. -/
def Ty.isInt (t : Ty) : Bool := !t.isFloat

/-- The signed types: the set S of R189. -/
def Ty.isSigned : Ty → Bool
  | .i8 | .i16 | .i32 | .i64 | .i4 => true
  | _ => false

/-- A 4-bit type. -/
def Ty.is4 (t : Ty) : Bool := t.bits == 4

/-- A guard destination: `g1` to `g7` (R144). -/
def gdOk (d : BitVec 6) : Bool := 1 ≤ d.toNat && d.toNat ≤ 7

/-- A mask destination: `k1` to `k15` (R144, R188). -/
def kdOk (d : BitVec 6) : Bool := 1 ≤ d.toNat && d.toNat ≤ 15

/-- A mask or address register in a 6-bit field (R144). -/
def r16Ok (d : BitVec 6) : Bool := d.toNat < 16

/-- The system registers that a task reaches (R184, R355). -/
def taskSysReg (n : BitVec 12) : Bool :=
  (0x010 ≤ n.toNat && n.toNat ≤ 0x022) || n == 0x0D0#12

/-- The task-visible system registers with access RO (R184, R355). -/
def taskSysRO (n : BitVec 12) : Bool := n == 0x021#12 || n == 0x022#12

/-- The scope and stream of a memory operand. -/
def MemOp.lent : MemOp → ScopeStream
  | .imm _ _ => ⟨.die, 0⟩
  | .inc _ q => q
  | .idx _ _ q => q
  | .incIdx _ _ q => q

/-- R260: a scope other than die needs `.acq` or `.rel`. -/
def MemOp.scopeOk (m : MemOp) (qualified : Bool) : Bool := qualified || m.lent.scope == .die

/-- Modes 10 and 11 (R265, R266). -/
def MemOp.indexed : MemOp → Bool
  | .idx _ _ _ | .incIdx _ _ _ => true
  | _ => false

/-- The buffer length in bytes of a length code (R149): 0 for code 0. -/
def bufLen (l : BitVec 4) : Nat := if l = 0 then 0 else 2 ^ (l.toNat + 2)

/-- A power of two from 1 to half the buffer (R257, R258). -/
def brevStride (inc : Int) (len : Nat) : Bool :=
  0 < inc && inc ≤ len / 2 && inc.toNat == 2 ^ Nat.log2 inc.toNat

/-- V and C unused (R189). -/
def VOp.noVC (o : VOp) : Bool := !o.v && o.c == 0

/-- M and Z unused. -/
def VOp.noMZ (o : VOp) : Bool := o.m == 0 && !o.z

/-- The source type named by VCVT's B[3:0] (R196). -/
def Ty.ofCode (c : BitVec 4) : Ty :=
  match c with
  | 0#4 => .f32 | 1#4 => .bf16 | 2#4 => .f16 | 3#4 => .e4m3 | 4#4 => .e5m2 | 5#4 => .e2m1k | 6#4 => .i8 | 7#4 => .n8
  | 8#4 => .i16 | 9#4 => .n16 | 10#4 => .i32 | 11#4 => .n32 | 12#4 => .i64 | 13#4 => .n64 | 14#4 => .i4 | _ => .n4

/-- The source type that VCVTI's B[5:3] selects (R197). -/
def cvtiSource (sel : BitVec 3) : Option Ty :=
  match sel with
  | 0#3 => some .f32 | 1#3 => some .bf16 | 2#3 => some .f16 | 3#3 => some .e4m3 | 4#3 => some .e5m2 | _ => none

/-- A rounding selector other than 6 (R190). -/
def selOk (b : BitVec 3) : Bool := b ≠ 6

/-- The limits on C of a VADD or VSUB (R189, R192). -/
def VOp.addOk (o : VOp) : Bool :=
  if o.t.isInt then o.c == 0
  else o.t.isF && (if o.v then o.c.toNat ≤ 5 else o.c == 0)

/-- VCVT's part count r (R196). -/
def cvtRatio (a b : Ty) : Nat := Nat.max a.bits b.bits / Nat.min a.bits b.bits

/-- The limits of VCVT (R196). -/
def VOp.cvtOk (o : VOp) : Bool :=
  let src := Ty.ofCode (o.b.extractLsb' 0 4)
  src != .e2m1k && !o.b.getLsbD 5 && (!o.b.getLsbD 4 || o.t == .e4m3) &&
  (o.c.extractLsb' 3 3).toNat < cvtRatio o.t src &&
  (if o.v then (o.c.extractLsb' 0 3).toNat ≤ 5 else o.c.extractLsb' 0 3 == 0)

/-- The limits of VCVTI (R197). -/
def VOp.cvtiOk (o : VOp) : Bool :=
  o.t.isInt && o.t.bits ≤ 32 && !o.t.is4 && selOk (o.b.extractLsb' 0 3) &&
  match cvtiSource (o.b.extractLsb' 3 3) with
  | some s => s.bits == o.t.bits
  | none => false

/-- The lane index of VMOVS and VINS (R202). -/
def VOp.laneOk (o : VOp) : Bool :=
  if o.v then o.c == 0 else o.c.toNat * 64 + o.b.toNat < o.t.lanes

/-- The limits of a shift (R201). -/
def VOp.shiftOk (o : VOp) : Bool := o.t.isInt && o.c == 0 && (!o.v || o.b.toNat < o.t.bits)

/-- R156 and the limits of each instruction's own entry, for one slot. The table's rows without an encoding have no word
and no limits. -/
def Instr.wf : Instr → Bool
  -- slot 0
  | .movhi _ _ q _ => q ≠ 0
  | .cmp _ o => gdOk o.d
  | .fcvt _ _ tt ss _ => tt != .e2m1k && ss != .e2m1k
  | .fcmp _ o => gdOk o.d
  | .gand d _ _ _ | .gor d _ _ _ | .gnot d _ _ => gdOk d
  | .loop n disp _ => n ≠ 0 && 2 ≤ disp.toNat
  | .loopReg _ disp _ => 2 ≤ disp.toNat
  | .getf _ i _ => i.toNat ≤ 5
  | .getid _ i _ => i.toNat ≤ 6
  | .mfs _ n _ => 0x100 ≤ n.toNat || taskSysReg n
  | .mts _ n _ => 0x100 ≤ n.toNat || (taskSysReg n && !taskSysRO n)
  -- slot 1
  | .amov k d a _ =>
    match k with
    | .aFromS => r16Ok d
    | .sFromA => r16Ok a
    | .aFromA => r16Ok d && r16Ok a
  | .asetm m _ _ inc len _ =>
    match m with
    | .lin => len == 0
    | .mod | .circ => len ≠ 0
    | .brev => len ≠ 0 && brevStride inc.toInt (bufLen len)
  | .ld _ q _ m _ => m.scopeOk (q == .acq)
  | .st _ q _ m _ => m.scopeOk (q == .rel)
  | .ldv q _ m _ => q != .acq && m.scopeOk false
  | .stv _ _ m _ => m.scopeOk false
  | .ldvs _ _ m _ | .stvs _ _ m _ | .ldvx _ _ m _ | .stvx _ _ m _ => m.indexed && m.scopeOk false
  | .pref m _ => m.scopeOk false
  | .fence p _ _ _ => p ≠ 0 && !p.getLsbD 5
  | .wait c _ _ => c ≠ 0
  | .barinit _ c _ | .bararv _ c _ | .bararw _ c _ => 1 ≤ c.toNat && c.toNat ≤ 512
  | .copy _ _ l _ => l != .imm 0
  | .copym _ _ l _ _ => l != .imm 0
  | .ewadd o | .ewmul o | .ewfma o | .ewmax o | .gemv o | .gemm o => o.p ≠ 63
  | .ewcvt _ _ _ p _ => p ≠ 63
  | .reduce _ _ _ p _ => p ≠ 63
  | .attn _ p _ => p ≠ 0 && p ≠ 63
  | .splopenNb _ k _ _ => k ≠ 0
  -- slot 2
  | .vadd o | .vsub o => o.addOk
  | .vmul o => (o.t.isF || o.t.isInt) && o.noVC
  | .vfma o | .vfms o => o.t.isF && (o.v || o.c == 0)
  | .vmin o | .vmax o => o.t != .e2m1k && o.noVC
  | .vabs o | .vneg o => (o.t.isF || o.t.isF8 || o.t.isSigned) && o.b == 0 && o.noVC
  | .vrcp o | .vrsq o | .vlog2 o => o.t.isF && o.b == 0 && o.noVC
  | .vfexp2 o => o.t == .f32 && o.b == 0 && o.noVC
  | .vrndi o => o.t.isF && o.b.toNat < 8 && o.b ≠ 6 && o.noVC
  | .vscale o => o.t.isF && o.noVC
  | .vgetexp o | .vgetman o => o.t.isF && o.b == 0 && o.noVC
  | .vcvt o => o.t != .e2m1k && o.cvtOk
  | .vcvti o => o.cvtiOk && o.noVC
  | .vpackb o => o.t == .f32 && o.b.toNat ≤ 3 && o.noVC && o.noMZ
  | .vunpb o => o.t == .f32 && o.b.toNat ≤ 3 && o.noVC
  | .vsat o => o.t.isInt && 1 ≤ o.b.toNat && o.b.toNat ≤ o.t.bits && o.noVC
  | .vcmp o => !o.t.is4 && o.d.extractLsb' 0 4 ≠ 0 && o.noVC
  | .vsel o => o.t != .e2m1k && o.noVC && !o.z
  | .vand o | .vor o | .vxor o => o.t != .e2m1k && o.noVC
  | .vnot o => o.t != .e2m1k && o.b == 0 && o.noVC
  | .vshl o | .vshr o | .vsra o => o.shiftOk
  | .viota o => (o.t.isInt || o.t == .f32) && o.a == 0 && o.noVC
  | .vbcast o => o.t != .e2m1k && o.b == 0 && o.noVC
  | .vmovs o | .vins o => !o.t.is4 && o.laneOk && o.noMZ
  | .vmov o => o.t != .e2m1k && o.b == 0 && o.noVC
  | .vperm o => !o.t.is4 && o.noVC
  | .vslide o => o.t != .e2m1k
  | .vredsum o => (o.t.isF || o.t.isInt) && !o.t.is4 && o.b == 0 && o.noVC && !o.z
  | .vredmax o => !o.t.is4 && o.b == 0 && o.noVC && !o.z
  | .vdot4 o => (o.t == .i8 || (o.t == .n8 && !o.v)) && o.c == 0
  | .vcompr o => !o.t.is4 && o.b == 0 && o.noVC && !o.z
  | .vexpnd o => !o.t.is4 && o.b == 0 && o.noVC
  | .kand o | .kor o | .kxor o => o.t == .f32 && kdOk o.d && r16Ok o.a && r16Ok o.b && o.noVC && o.noMZ
  | .knot o => o.t == .f32 && kdOk o.d && r16Ok o.a && o.b == 0 && o.noVC && o.noMZ
  | .kpopc o | .kfirst o => o.t != .e2m1k && r16Ok o.a && o.b == 0 && o.noVC && o.noMZ
  | .kset o => o.t != .e2m1k && kdOk o.d && o.b == 0 && o.noVC && o.noMZ
  | .sumpin o =>
    !o.t.is4 && o.d.toNat < 4 && 1 ≤ o.b.toNat && o.b.toNat ≤ 4 && o.a.toNat + o.b.toNat ≤ 64 && o.noVC && !o.z
  | .sumpout o =>
    !o.t.is4 && o.a.toNat < 4 && 1 ≤ o.b.toNat && o.b.toNat ≤ 4 && o.d.toNat + o.b.toNat ≤ 63 && o.noVC &&
    o.m ≠ 0 && !o.z
  | .sumpcnt o => o.t == .f32 && o.a.toNat < 4 && o.b == 0 && o.noVC && o.noMZ
  -- slot 3
  | .mshift o _ => o.a ≠ 63
  | .ldrrung _ gd _ _ _ _ => gd ≠ 0
  | _ => true

/-- A well-formed instruction. -/
abbrev Instr.WellFormed (i : Instr) : Prop := i.wf = true

end Sys2Proof
end

