-- ==== Sys2Proof/Decode.lean ====
section
/-! DEFINITION. Decoding (R140 to R156) and encoding. A word is read by the map of the slot it occupies, with the byte
that a header lends to the slot (R146, R147); every pattern is either an instruction or rejected by name (R156). The
encoder is written from the same tables. -/

namespace Sys2Proof

/-- Why a pattern is no instruction (R156). -/
inductive DecodeErr where
  /-- fewer than 16 bytes were given -/
  | truncated
  /-- opcode 0x00 with a nonzero bit, or a reserved opcode (R152 to R155) -/
  | reservedOpcode
  /-- a reserved function code -/
  | reservedFunction
  /-- a nonzero field that the format or the instruction marks 0 or reserved -/
  | reservedField
  /-- an operand or value out of range (R144, R147) -/
  | outOfRange
  /-- a lent byte that is nonzero where its slot has no use for it (R147), or a header with [25:24] ≠ 00 -/
  | lentByte
  /-- a limit of the instruction's own entry, as `Instr.wf` states it -/
  | limit
deriving DecidableEq, Repr

/-- One slot's encoding: its slot, its word, the byte that a header lends it, and whether it needs the header. -/
structure Enc where
  slot  : Nat
  word  : BitVec 32
  ext   : Byte
  needs : Bool
deriving DecidableEq, Repr

namespace Layout

/-- The common layout of R142: OP, D, A, B, F, G. -/
def common (op d a b : BitVec 6) (f g : BitVec 4) : BitVec 32 := op ++ d ++ a ++ b ++ f ++ g
/-- Format SW (R148). -/
def sw (op d : BitVec 6) (imm : BitVec 16) (g : BitVec 4) : BitVec 32 := op ++ d ++ imm ++ g
/-- Format SB (R148). -/
def sb (op : BitVec 6) (disp : BitVec 22) (g : BitVec 4) : BitVec 32 := op ++ disp ++ g
/-- Format SL (R148). -/
def sl (op : BitVec 6) (n : BitVec 12) (disp : BitVec 10) (g : BitVec 4) : BitVec 32 := op ++ n ++ disp ++ g
/-- Format AW (R149). -/
def aw (op : BitVec 6) (d : BitVec 4) (base : BitVec 2) (off : BitVec 16) (g : BitVec 4) : BitVec 32 :=
  op ++ d ++ base ++ off ++ g
/-- Format AF (R149). -/
def af (op paths : BitVec 6) (scope : BitVec 3) (streams : BitVec 8) (g : BitVec 4) : BitVec 32 :=
  op ++ paths ++ scope ++ 0#1 ++ streams ++ 0#4 ++ g
/-- Format AB (R149). -/
def ab (op : BitVec 6) (n : BitVec 10) (cnt : BitVec 6) (g : BitVec 4) : BitVec 32 :=
  op ++ n ++ 0#2 ++ cnt ++ 0#4 ++ g
/-- Format AE (R149). -/
def ae (op : BitVec 6) (e0 e1 : BitVec 8) (e2 : BitVec 6) (g : BitVec 4) : BitVec 32 := op ++ e0 ++ e1 ++ e2 ++ g
/-- Format MA (R151). -/
def ma (op v : BitVec 6) (p : BitVec 10) (g : BitVec 4) : BitVec 32 := op ++ v ++ 0#1 ++ p ++ 0#1 ++ 0#4 ++ g

/-- The fields of the common layout (R142). -/
def op (w : BitVec 32) : BitVec 6 := w.extractLsb' 26 6
def d (w : BitVec 32) : BitVec 6 := w.extractLsb' 20 6
def a (w : BitVec 32) : BitVec 6 := w.extractLsb' 14 6
def b (w : BitVec 32) : BitVec 6 := w.extractLsb' 8 6
def f (w : BitVec 32) : BitVec 4 := w.extractLsb' 4 4
def g (w : BitVec 32) : BitVec 4 := w.extractLsb' 0 4
/-- The fields of format AE (R149). -/
def e0 (w : BitVec 32) : BitVec 8 := w.extractLsb' 18 8
def e1 (w : BitVec 32) : BitVec 8 := w.extractLsb' 10 8
def e2 (w : BitVec 32) : BitVec 6 := w.extractLsb' 4 6

end Layout

/-! ### Small field codecs -/

/-- A 4-bit register number in a 6-bit field (R144). -/
def reg4 (x : BitVec 6) : Option (BitVec 4) :=
  if x.extractLsb' 4 2 = 0 then some (x.extractLsb' 0 4) else none

/-- A 6-bit register number in an 8-bit field (R230). -/
def reg6 (x : BitVec 8) : Option (BitVec 6) :=
  if x.extractLsb' 6 2 = 0 then some (x.extractLsb' 0 6) else none

/-- The scope codes of R147. -/
def Scope.code : Scope → BitVec 3
  | .die => 0 | .core => 1 | .cluster => 2 | .package => 3 | .system => 4

def Scope.ofCode (c : BitVec 3) : Option Scope :=
  match c with
  | 0#3 => some .die | 1#3 => some .core | 2#3 => some .cluster | 3#3 => some .package | 4#3 => some .system
  | _ => none

/-- The lent byte of AM modes 01 to 11 (R147). -/
def ScopeStream.byte (q : ScopeStream) : Byte := 0#1 ++ q.scope.code ++ q.stream

def ScopeStream.ofByte (e : Byte) : Option ScopeStream :=
  if e.extractLsb' 7 1 = 0 then (Scope.ofCode (e.extractLsb' 4 3)).map fun s => ⟨s, e.extractLsb' 0 4⟩ else none

/-- An immediate of AR, AS or AM mode 00 (R144, R147): 6 bits sign-extended, or 14 bits with a header. -/
def imm14 (low : BitVec 6) (ext : Option Byte) : BitVec 14 :=
  match ext with
  | none => low.signExtend 14
  | some e => e ++ low

/-- Whether an immediate needs the lent byte. -/
def imm14Needs (v : BitVec 14) : Bool := (v.extractLsb' 0 6).signExtend 14 ≠ v

def AleaBase.code : AleaBase → BitVec 2
  | .bundle => 0 | .image => 1 | .window => 2

def AleaBase.ofCode (c : BitVec 2) : Option AleaBase :=
  match c with
  | 0#2 => some .bundle | 1#2 => some .image | 2#2 => some .window | _ => none

/-- ALEA's offset (R147, R149): 16 bits, signed for base 0, or 24 bits with a header. -/
def off24 (base : AleaBase) (low : BitVec 16) (ext : Option Byte) : BitVec 24 :=
  match ext with
  | none => if base = .bundle then low.signExtend 24 else low.setWidth 24
  | some e => e ++ low

def off24Needs (base : AleaBase) (v : BitVec 24) : Bool := off24 base (v.extractLsb' 0 16) none ≠ v

/-- An address operand of an engine command (R230). -/
def EAddr.field (x : EAddr) : BitVec 6 := x.x ++ (if x.inc then 1#2 else 0#2)

def EAddr.ofField (v : BitVec 6) : Option EAddr :=
  match v.extractLsb' 0 2 with
  | 0#2 => some ⟨v.extractLsb' 2 4, false⟩
  | 1#2 => some ⟨v.extractLsb' 2 4, true⟩
  | _ => none

/-- A memory operand's A field, B field and lent byte (R149, R147). -/
def MemOp.aField : MemOp → BitVec 6
  | .imm x _ => x ++ 0#2 | .inc x _ => x ++ 1#2 | .idx x _ _ => x ++ 2#2 | .incIdx x _ _ => x ++ 3#2

def MemOp.bField : MemOp → BitVec 6
  | .imm _ off => off.extractLsb' 0 6 | .inc _ _ => 0 | .idx _ n _ => n | .incIdx _ n _ => n

def MemOp.ext : MemOp → Byte
  | .imm _ off => off.extractLsb' 6 8 | .inc _ q => q.byte | .idx _ _ q => q.byte | .incIdx _ _ q => q.byte

def MemOp.needs : MemOp → Bool
  | .imm _ off => imm14Needs off | .inc _ q => q.byte ≠ 0 | .idx _ _ q => q.byte ≠ 0 | .incIdx _ _ q => q.byte ≠ 0

def MemOp.ofFields (a b : BitVec 6) (ext : Option Byte) : Except DecodeErr MemOp :=
  let x := a.extractLsb' 2 4
  match a.extractLsb' 0 2, ScopeStream.ofByte (ext.getD 0) with
  | 0#2, _ => .ok (.imm x (imm14 b ext))
  | 1#2, some q => if b = 0 then .ok (.inc x q) else .error .reservedField
  | 2#2, some q => .ok (.idx x b q)
  | 3#2, some q => .ok (.incIdx x b q)
  | _, _ => .error .outOfRange

def CmpCond.code : CmpCond → BitVec 3
  | .eq => 0 | .ne => 1 | .lt => 2 | .le => 3 | .ltu => 4 | .leu => 5

def CmpCond.ofCode (c : BitVec 3) : Option CmpCond :=
  match c with
  | 0#3 => some .eq | 1#3 => some .ne | 2#3 => some .lt | 3#3 => some .le | 4#3 => some .ltu | 5#3 => some .leu
  | _ => none

def FCmpCond.code : FCmpCond → BitVec 3
  | .eq => 0 | .ne => 1 | .lt => 2 | .le => 3 | .uno => 4

def FCmpCond.ofCode (c : BitVec 3) : Option FCmpCond :=
  match c with
  | 0#3 => some .eq | 1#3 => some .ne | 2#3 => some .lt | 3#3 => some .le | 4#3 => some .uno | _ => none

def MMode.code : MMode → BitVec 6
  | .lin => 4 | .mod => 5 | .brev => 6 | .circ => 7

def AmovKind.code : AmovKind → BitVec 4
  | .aFromS => 0 | .sFromA => 1 | .aFromA => 2

def LdQual.code : LdQual → BitVec 2
  | .plain => 0 | .fe => 1 | .fec => 2 | .acq => 3

def LdQual.ofCode (c : BitVec 2) : LdQual :=
  match c with
  | 0#2 => .plain | 1#2 => .fe | 2#2 => .fec | _ => .acq

def StQual.code : StQual → BitVec 2
  | .plain => 0 | .fe => 1 | .rel => 2

def StQual.ofCode (c : BitVec 2) : Option StQual :=
  match c with
  | 0#2 => some .plain | 1#2 => some .fe | 2#2 => some .rel | _ => none

def AmoOp.code : AmoOp → BitVec 3
  | .add => 0 | .fadd => 1 | .min => 2 | .max => 3 | .and => 4 | .or => 5 | .xor => 6 | .swap => 7

def AmoOp.ofCode (c : BitVec 3) : AmoOp :=
  match c with
  | 0#3 => .add | 1#3 => .fadd | 2#3 => .min | 3#3 => .max | 4#3 => .and | 5#3 => .or | 6#3 => .xor | _ => .swap

def RedOp.code : RedOp → BitVec 8
  | .sum => 0 | .max => 1 | .sexp => 2

def RedOp.ofCode (c : BitVec 8) : Option RedOp :=
  match c with
  | 0#8 => some .sum | 1#8 => some .max | 2#8 => some .sexp | _ => none

def StoredFmt.code : StoredFmt → BitVec 2
  | .e2m1k => 0 | .i4 => 1 | .e4m3 => 2 | .bf16 => 3

def StoredFmt.ofCode (c : BitVec 2) : StoredFmt :=
  match c with
  | 0#2 => .e2m1k | 1#2 => .i4 | 2#2 => .e4m3 | _ => .bf16

/-- VR's lent byte (R147): Z, V and C. -/
def VOp.byte (o : VOp) : Byte := BitVec.ofBool o.z ++ BitVec.ofBool o.v ++ o.c

/-! ### The decoder -/

/-- Demands a condition, rejecting by name. -/
def demand {α : Type} (c : Bool) (e : DecodeErr) (x : Except DecodeErr α) : Except DecodeErr α :=
  if c then x else .error e

/-- Takes the value of an option, rejecting by name. -/
def take {α β : Type} (x : Option α) (e : DecodeErr) (k : α → Except DecodeErr β) : Except DecodeErr β :=
  match x with
  | some v => k v
  | none => .error e

/-- The three function bits of format SR. -/
def srFn (w : BitVec 32) : BitVec 3 := w.extractLsb' 4 3

/-- Format SR's operands (R148). -/
def srOf (w : BitVec 32) : SR := ⟨Layout.d w, Layout.a w, Layout.b w, w.getLsbD 7, Layout.g w⟩

/-- The operands of SR with I = 0. -/
def sr3Of (w : BitVec 32) : SR3 := ⟨Layout.d w, Layout.a w, Layout.b w, Layout.g w⟩

/-- The slot 0 map (R152). -/
def decode0 (w : BitVec 32) : Except DecodeErr Instr :=
  let d := Layout.d w
  let a := Layout.a w
  let b := Layout.b w
  let f := Layout.f w
  let g := Layout.g w
  let fn := srFn w
  let o := srOf w
  let o3 := sr3Of w
  let i0 := !w.getLsbD 7
  match Layout.op w with
  | 0x00#6 => demand (w = 0) .reservedOpcode (.ok .nop)
  | 0x01#6 =>
    match fn with
    | 0#3 => .ok (.add o) | 1#3 => .ok (.sub o) | 2#3 => .ok (.and o) | 3#3 => .ok (.or o)
    | 4#3 => .ok (.xor o) | 5#3 => .ok (.andn o) | 6#3 => .ok (.min o) | _ => .ok (.max o)
  | 0x02#6 =>
    match fn with
    | 0#3 => .ok (.minu o) | 1#3 => .ok (.maxu o) | 2#3 => .ok (.shl o) | 3#3 => .ok (.shr o)
    | 4#3 => .ok (.sra o) | 5#3 => .ok (.rol o) | _ => .error .reservedFunction
  | 0x03#6 =>
    match fn with
    | 0#3 => .ok (.mul o) | 1#3 => .ok (.mulh o) | 2#3 => .ok (.mulhu o) | 3#3 => .ok (.div o)
    | 4#3 => .ok (.divu o) | 5#3 => .ok (.rem o) | 6#3 => .ok (.remu o) | _ => .error .reservedFunction
  | 0x04#6 => demand (i0 && b = 0) .reservedField <|
    match fn with
    | 0#3 => .ok (.clz d a g) | 1#3 => .ok (.ctz d a g) | 2#3 => .ok (.popc d a g) | _ => .error .reservedFunction
  | 0x05#6 => demand (f = 0) .reservedField (.ok (.bfx o3))
  | 0x06#6 => demand (f = 0) .reservedField (.ok (.bfi o3))
  | 0x07#6 => .ok (.sel o3 f)
  | 0x08#6 => .ok (.movi d (w.extractLsb' 4 16) g)
  | 0x09#6 => .ok (.movhi d (w.extractLsb' 4 16) 1 g)
  | 0x0A#6 => .ok (.movhi d (w.extractLsb' 4 16) 2 g)
  | 0x0B#6 => .ok (.movhi d (w.extractLsb' 4 16) 3 g)
  | 0x0C#6 => take (CmpCond.ofCode fn) .reservedFunction fun cc => .ok (.cmp cc o)
  | 0x0D#6 => demand i0 .reservedField <|
    match fn with
    | 0#3 => .ok (.fadd o3) | 1#3 => .ok (.fsub o3) | 2#3 => .ok (.fmul o3) | 3#3 => .ok (.fmin o3)
    | 4#3 => .ok (.fmax o3) | _ => .error .reservedFunction
  | 0x0E#6 => demand (f = 0) .reservedField (.ok (.ffma o3))
  | 0x0F#6 => demand (b.extractLsb' 4 2 = 0) .reservedField
      (.ok (.fcvt d a (Ty.ofCode f) (Ty.ofCode (b.extractLsb' 0 4)) g))
  | 0x10#6 => demand i0 .reservedField (take (FCmpCond.ofCode fn) .reservedFunction fun cc => .ok (.fcmp cc o3))
  | 0x11#6 => demand (f = 0 && b = 0) .reservedField (.ok (.fclass d a g))
  | 0x12#6 => demand i0 .reservedField <|
    take (reg4 a) .reservedField fun ga => take (reg4 b) .reservedField fun gb =>
      match fn with
      | 0#3 => .ok (.gand d ga gb g) | 1#3 => .ok (.gor d ga gb g)
      | 2#3 => demand (b = 0) .reservedField (.ok (.gnot d ga g)) | _ => .error .reservedFunction
  | 0x13#6 => .ok (.br (w.extractLsb' 4 22) g)
  | 0x14#6 => demand (d = 0 && b = 0 && f = 0) .reservedField (.ok (.jmp a g))
  | 0x15#6 => .ok (.call (w.extractLsb' 4 22) g)
  | 0x16#6 => demand (w.extractLsb' 4 22 = 0) .reservedField (.ok (.ret g))
  | 0x17#6 => .ok (.loop (w.extractLsb' 14 12) (w.extractLsb' 4 10) g)
  | 0x18#6 => demand (d = 0) .reservedField (.ok (.loopReg a (w.extractLsb' 4 10) g))
  | 0x19#6 => demand (d = 0 && b = 0 && f = 0) .reservedField (.ok (.setfmt a g))
  | 0x1A#6 => demand (a = 0 && f = 8) .reservedField (.ok (.getf d b g))
  | 0x1B#6 => demand (a = 0 && f = 8) .reservedField (.ok (.getid d b g))
  | 0x1C#6 => demand (f = 0) .reservedField (.ok (.hops o3))
  | 0x1D#6 => demand (w.extractLsb' 4 22 = 0) .reservedField (.ok (.endTask g))
  | 0x1E#6 => demand (w.extractLsb' 4 22 = 0) .reservedField (.ok (.drain g))
  | 0x1F#6 => demand (d = 0 && a = 0 && f = 8) .reservedField (.ok (.trap b g))
  | 0x20#6 => demand (w.extractLsb' 4 22 = 0) .reservedField (.ok (.brk g))
  | 0x21#6 => demand (f = 0) .reservedField (.ok (.mfs d (w.extractLsb' 8 12) g))
  | 0x22#6 => demand (f = 0) .reservedField (.ok (.mts d (w.extractLsb' 8 12) g))
  | 0x23#6 => demand (w.extractLsb' 4 22 = 0) .reservedField (.ok (.eret g))
  | _ => .error .reservedOpcode

/-- The engine commands of the slot 1 map (R231), with E3 from the lent byte. -/
def decodeEngine (w : BitVec 32) (e3 : Byte) : Except DecodeErr Instr :=
  let e0 := Layout.e0 w
  let e1 := Layout.e1 w
  let e2 := Layout.e2 w
  let g := Layout.g w
  let addr (v : BitVec 6) (k : EAddr → Except DecodeErr Instr) := take (EAddr.ofField v) .outOfRange k
  let addr8 (v : BitVec 8) (k : EAddr → Except DecodeErr Instr) :=
    take (reg6 v) .reservedField fun x => addr x k
  let scal (v : BitVec 8) (k : BitVec 6 → Except DecodeErr Instr) := take (reg6 v) .outOfRange k
  let top : Top3 := ⟨e0, e1, e3, e2, g⟩
  match Layout.op w with
  | 0x20#6 => demand (!e0.getLsbD 6) .reservedField <|
    addr (e0.extractLsb' 0 6) fun dst => addr8 e1 fun src =>
      if e0.getLsbD 7 then demand (e3 = 0) .lentByte (.ok (.copy dst src (.reg e2) g))
      else .ok (.copy dst src (.imm (e3 ++ e2)) g)
  | 0x21#6 => demand (!e0.getLsbD 6) .reservedField <|
    addr (e0.extractLsb' 0 6) fun dst => addr8 e1 fun src =>
      if e0.getLsbD 7 then scal e3 fun l => .ok (.copym dst src (.reg l) e2 g)
      else .ok (.copym dst src (.imm e3) e2 g)
  | 0x22#6 => demand (e3.extractLsb' 1 3 = 0) .reservedField
      (.ok (.relay (e3.getLsbD 0) e0 e1 (e3.extractLsb' 4 4) e2 g))
  | 0x23#6 => .ok (.ewadd top)
  | 0x24#6 => .ok (.ewmul top)
  | 0x25#6 => .ok (.ewfma top)
  | 0x26#6 => .ok (.ewmax top)
  | 0x27#6 => demand (e3.extractLsb' 1 7 = 0) .reservedField (.ok (.ewcvt (e3.getLsbD 0) e0 e1 e2 g))
  | 0x28#6 => .ok (.gemv top)
  | 0x29#6 => .ok (.gemm top)
  | 0x2A#6 => take (RedOp.ofCode e3) .reservedFunction fun op => .ok (.reduce op e0 e1 e2 g)
  | 0x2B#6 => demand (e2 = 0 && e3 = 0) .reservedField (scal e0 fun x => scal e1 fun y => .ok (.placeq x y g))
  | 0x2C#6 => demand (e1 = 0 && e3 = 0) .reservedField (addr8 e0 fun x => .ok (.attn x e2 g))
  | 0x2D#6 => demand (e3 = 0) .lentByte <| scal e0 fun dd => scal e1 fun q => addr e2 fun l => .ok (.kvfind dd q l g)
  | 0x2E#6 => demand (e1 = 0) .reservedField <|
    scal e0 fun dd => addr e2 fun x => scal e3 fun vc => .ok (.kvapp dd x vc g)
  | 0x2F#6 => scal e0 fun dd => scal e1 fun q => addr e2 fun l => scal e3 fun b => .ok (.kvfree dd q b l g)
  | 0x30#6 => demand (e3 = 0) .lentByte <|
    addr8 e0 fun x => scal e1 fun b => addr e2 fun l => .ok (.setband b x l g)
  | 0x31#6 => demand (e1.extractLsb' 3 5 = 0 && e3 = 0) .reservedField <|
    scal e0 fun c => addr e2 fun x =>
      if e1 = 0 then .ok (.splopen c x g) else .ok (.splopenNb c (e1.extractLsb' 0 3) x g)
  | 0x32#6 => scal e0 fun dd => scal e1 fun e => addr e2 fun x => scal e3 fun t => .ok (.splarv dd e t x g)
  | 0x33#6 => demand (e2 = 0 && e3 = 0) .reservedField (scal e0 fun dd => scal e1 fun c => .ok (.splclose dd c g))
  | 0x34#6 => demand (e2 = 0) .reservedField <|
    scal e0 fun dd => scal e1 fun c => scal e3 fun sel => .ok (.splstat dd c sel g)
  | 0x35#6 => demand (e0 = 0 && e1 = 0 && e3 = 0) .reservedField (addr e2 fun x => .ok (.nxwr x g))
  | 0x36#6 => demand (e0 = 0 && e1 = 0 && e3 = 0) .reservedField (addr e2 fun x => .ok (.nxrd x g))
  | 0x37#6 => demand (e1 = 0 && e3 = 0) .reservedField (scal e0 fun dd => addr e2 fun x => .ok (.nxamo dd x g))
  | 0x38#6 => demand (e2 = 0 && e3 = 0) .reservedField (scal e0 fun c => scal e1 fun v => .ok (.nxwait c v g))
  | 0x39#6 => demand (e2 = 0 && e3 = 0) .reservedField (scal e0 fun dd => scal e1 fun p => .ok (.nxstat dd p g))
  | 0x3A#6 => demand (e1 = 0 && e3 = 0) .reservedField (scal e0 fun dd => addr e2 fun x => .ok (.launch dd x g))
  | 0x3B#6 => demand (e0.extractLsb' 2 6 = 0 && e2 = 0 && e3 = 0) .reservedField <|
    scal e1 fun a => .ok (.sumpcfg (e0.extractLsb' 0 2) a g)
  | _ => .error .reservedOpcode

/-- The address, memory and synchronisation part of the slot 1 map (R153). -/
def decodeAddr (w : BitVec 32) (ext : Option Byte) : Except DecodeErr Instr :=
  let d := Layout.d w
  let a := Layout.a w
  let b := Layout.b w
  let f := Layout.f w
  let g := Layout.g w
  let noLent := ext.getD 0 = 0
  let mem (k : MemOp → Except DecodeErr Instr) : Except DecodeErr Instr :=
    match MemOp.ofFields a b ext with
    | .ok m => k m
    | .error e => .error e
  let lo := f.extractLsb' 0 2
  let hi := f.extractLsb' 2 2
  let barN : BitVec 10 := w.extractLsb' 16 10
  let barC : BitVec 14 := (ext.getD 0) ++ b
  let barOk := w.extractLsb' 14 2 = 0 && f = 0
  let setm (m : MMode) : Except DecodeErr Instr :=
    take (reg4 d) .outOfRange fun dd => take (reg4 a) .outOfRange fun aa => .ok (.asetm m dd aa (imm14 b ext) f g)
  match Layout.op w with
  | 0x00#6 => demand (w = 0) .reservedOpcode (demand noLent .lentByte (.ok .nop))
  | 0x01#6 => demand noLent .lentByte <| demand (b = 0) .reservedField <|
    match f with
    | 0#4 => .ok (.amov .aFromS d a g) | 1#4 => .ok (.amov .sFromA d a g) | 2#4 => .ok (.amov .aFromA d a g)
    | _ => .error .reservedFunction
  | 0x02#6 => take (reg4 d) .outOfRange fun dd => take (reg4 a) .outOfRange fun aa =>
      match f with
      | 0#4 => demand noLent .lentByte (.ok (.aadd dd aa (.reg b) g))
      | 8#4 => .ok (.aadd dd aa (.imm (imm14 b ext)) g)
      | _ => .error .reservedFunction
  | 0x03#6 => take (AleaBase.ofCode (w.extractLsb' 20 2)) .outOfRange fun base =>
      .ok (.alea (w.extractLsb' 22 4) base (off24 base (w.extractLsb' 4 16) ext) g)
  | 0x04#6 => setm .lin
  | 0x05#6 => setm .mod
  | 0x06#6 => setm .brev
  | 0x07#6 => setm .circ
  | 0x08#6 => mem fun m => .ok (.ld lo (LdQual.ofCode hi) d m g)
  | 0x09#6 => mem fun m => take (StQual.ofCode hi) .reservedFunction fun q => .ok (.st lo q d m g)
  | 0x0A#6 => mem fun m => demand (hi = 0) .reservedField (.ok (.ldv (LdQual.ofCode lo) d m g))
  | 0x0B#6 => mem fun m => .ok (.stv f d m g)
  | 0x0C#6 => mem fun m => demand (hi = 0) .reservedField (.ok (.ldvs lo d m g))
  | 0x0D#6 => mem fun m => demand (hi = 0) .reservedField (.ok (.stvs lo d m g))
  | 0x0E#6 => mem fun m => .ok (.ldvx f d m g)
  | 0x0F#6 => mem fun m => .ok (.stvx f d m g)
  | 0x10#6 => mem fun m => demand (d = 0 && f = 0) .reservedField (.ok (.pref m g))
  | 0x11#6 => demand noLent .lentByte <| demand (a.extractLsb' 0 2 = 0) .reservedField
      (.ok (.amo (f.getLsbD 3) (AmoOp.ofCode (f.extractLsb' 0 3)) d b (a.extractLsb' 2 4) g))
  | 0x12#6 => demand noLent .lentByte <| demand (a.extractLsb' 0 2 = 0 && f.extractLsb' 1 2 = 0) .reservedField
      (.ok (.cas (f.getLsbD 3) (f.getLsbD 0) d b (a.extractLsb' 2 4) g))
  | 0x13#6 => demand (a.extractLsb' 0 2 = 0 && f.extractLsb' 1 3 = 0) .reservedField
      (.ok (.fewait (f.getLsbD 0) d (a.extractLsb' 2 4) (imm14 b ext) g))
  | 0x14#6 => demand (w.extractLsb' 16 1 = 0 && f = 0) .reservedField <|
    take (Scope.ofCode (w.extractLsb' 17 3)) .outOfRange fun sc =>
      .ok (.fence d sc ((ext.getD 0) ++ (w.extractLsb' 8 8)) g)
  | 0x15#6 => demand noLent .lentByte <| demand (b = 0 && f = 0) .reservedField (.ok (.wait d a g))
  | 0x16#6 => demand barOk .reservedField (.ok (.barinit barN barC g))
  | 0x17#6 => demand barOk .reservedField (.ok (.bararv barN barC g))
  | 0x18#6 => demand (barOk && barC = 0) .reservedField (.ok (.barwt barN g))
  | 0x19#6 => demand barOk .reservedField (.ok (.bararw barN barC g))
  | 0x1A#6 => demand noLent .lentByte <| demand (w.extractLsb' 4 22 = 0) .reservedField (.ok (.snap g))
  | _ => .error .reservedOpcode

/-- The slot 1 map (R153). -/
def decode1 (w : BitVec 32) (ext : Option Byte) : Except DecodeErr Instr :=
  if (Layout.op w).toNat < 0x20 then decodeAddr w ext else decodeEngine w (ext.getD 0)

/-- Format VR's operands (R150) with the lent byte (R147). -/
def vopOf (w : BitVec 32) (e : Byte) : VOp :=
  ⟨Layout.d w, Layout.a w, Layout.b w, Layout.f w, Ty.ofCode (Layout.g w), e.getLsbD 7, e.getLsbD 6, e.extractLsb' 0 6⟩

/-- The slot 2 map (R154). -/
def decode2 (w : BitVec 32) (e : Byte) : Except DecodeErr Instr :=
  let o := vopOf w e
  match Layout.op w with
  | 0x00#6 => demand (w = 0) .reservedOpcode (demand (e = 0) .lentByte (.ok .nop))
  | 0x01#6 => .ok (.vadd o) | 0x02#6 => .ok (.vsub o) | 0x03#6 => .ok (.vmul o) | 0x04#6 => .ok (.vfma o)
  | 0x05#6 => .ok (.vfms o) | 0x06#6 => .ok (.vmin o) | 0x07#6 => .ok (.vmax o) | 0x08#6 => .ok (.vabs o)
  | 0x09#6 => .ok (.vneg o) | 0x0A#6 => .ok (.vrcp o) | 0x0B#6 => .ok (.vrsq o) | 0x0C#6 => .ok (.vfexp2 o)
  | 0x0D#6 => .ok (.vlog2 o) | 0x0E#6 => .ok (.vrndi o) | 0x0F#6 => .ok (.vscale o) | 0x10#6 => .ok (.vgetexp o)
  | 0x11#6 => .ok (.vgetman o) | 0x12#6 => .ok (.vcvt o) | 0x13#6 => .ok (.vcvti o) | 0x14#6 => .ok (.vpackb o)
  | 0x15#6 => .ok (.vunpb o) | 0x16#6 => .ok (.vsat o) | 0x17#6 => .ok (.vcmp o) | 0x18#6 => .ok (.vsel o)
  | 0x19#6 => .ok (.vand o) | 0x1A#6 => .ok (.vor o) | 0x1B#6 => .ok (.vxor o) | 0x1C#6 => .ok (.vnot o)
  | 0x1D#6 => .ok (.vshl o) | 0x1E#6 => .ok (.vshr o) | 0x1F#6 => .ok (.vsra o) | 0x20#6 => .ok (.viota o)
  | 0x21#6 => .ok (.vbcast o) | 0x22#6 => .ok (.vmovs o) | 0x23#6 => .ok (.vins o) | 0x24#6 => .ok (.vmov o)
  | 0x25#6 => .ok (.vperm o) | 0x26#6 => .ok (.vslide o) | 0x27#6 => .ok (.vredsum o) | 0x28#6 => .ok (.vredmax o)
  | 0x29#6 => .ok (.vdot4 o) | 0x2A#6 => .ok (.vcompr o) | 0x2B#6 => .ok (.vexpnd o) | 0x2C#6 => .ok (.kand o)
  | 0x2D#6 => .ok (.kor o) | 0x2E#6 => .ok (.kxor o) | 0x2F#6 => .ok (.knot o) | 0x30#6 => .ok (.kpopc o)
  | 0x31#6 => .ok (.kfirst o) | 0x32#6 => .ok (.kset o) | 0x33#6 => .ok (.sumpin o) | 0x34#6 => .ok (.sumpout o)
  | 0x35#6 => .ok (.sumpcnt o)
  | _ => .error .reservedOpcode

/-- The slot 3 map (R155, R215, R227). -/
def decode3 (w : BitVec 32) (e : Byte) : Except DecodeErr Instr :=
  let d := Layout.d w
  let a := Layout.a w
  let b := Layout.b w
  let f := Layout.f w
  let g := Layout.g w
  let noLent := e = 0
  let beat (k : Beat → Instr) : Except DecodeErr Instr :=
    demand noLent .lentByte <| demand (b.extractLsb' 5 1 = 0 && f = 0) .reservedField
      (.ok (k ⟨d, a, b.extractLsb' 0 5, g⟩))
  let lad (x : BitVec 6) (k : BitVec 2 → Except DecodeErr Instr) : Except DecodeErr Instr :=
    if x.extractLsb' 2 4 = 0 then k (x.extractLsb' 0 2) else .error .outOfRange
  match Layout.op w with
  | 0x00#6 => demand (w = 0) .reservedOpcode (demand noLent .lentByte (.ok .mnop))
  | 0x01#6 => demand noLent .lentByte <| demand (d = 0 && b = 0 && f.extractLsb' 3 1 = 0) .reservedField
      (.ok (.mldb (StoredFmt.ofCode (f.extractLsb' 0 2)) (f.getLsbD 2) a g))
  | 0x02#6 => demand noLent .lentByte <| demand (f = 0) .reservedField <|
    take (reg4 a) .outOfRange fun x => .ok (.mwbf d x b g)
  | 0x03#6 => beat .mpush
  | 0x04#6 => demand (e.extractLsb' 5 3 = 0) .outOfRange <| demand (b.extractLsb' 5 1 = 0 && f = 0) .reservedField
      (.ok (.mshift ⟨d, a, b.extractLsb' 0 5, g⟩ (e.extractLsb' 0 5)))
  | 0x05#6 => beat .macc
  | 0x06#6 =>
    if f = 1 then demand noLent .lentByte <| demand (d = 0 && a = 0 && b = 0) .reservedField (.ok (.mdrainSwap g))
    else beat .mdrain
  | 0x07#6 => demand noLent .lentByte <| demand (a = 0 && b = 0 && f = 0) .reservedField (.ok (.mzero d g))
  | 0x08#6 => demand noLent .lentByte <| demand (w.extractLsb' 19 1 = 0 && w.extractLsb' 8 1 = 0 && f = 0) .reservedField
      (.ok (.acmovv d (w.extractLsb' 9 10) g))
  | 0x09#6 => demand noLent .lentByte <| demand (w.extractLsb' 19 1 = 0 && w.extractLsb' 8 1 = 0 && f = 0) .reservedField
      (.ok (.acmova d (w.extractLsb' 9 10) g))
  | 0x0A#6 => demand noLent .lentByte <| demand (b = 0 && f = 0) .reservedField <|
    take (reg4 a) .outOfRange fun x => .ok (.acld d x g)
  | 0x0B#6 => demand noLent .lentByte <| demand (b = 0 && f = 0) .reservedField <|
    take (reg4 a) .outOfRange fun x => .ok (.acst d x g)
  | 0x10#6 => demand noLent .lentByte <| demand (f = 0) .reservedField <| lad d fun l => .ok (.ldrcfg l a b g)
  | 0x11#6 => demand noLent .lentByte <| demand (a = 0 && f = 0) .reservedField <| lad d fun l => .ok (.ldrstep l b g)
  | 0x12#6 => demand noLent .lentByte <| demand (a = 0 && f = 0) .reservedField <| lad d fun l => .ok (.ldrread l b g)
  | 0x13#6 => demand (e.extractLsb' 4 4 = 0) .outOfRange <| demand (f.extractLsb' 3 1 = 0) .reservedField <|
    lad a fun l => take (reg4 b) .outOfRange fun lv => .ok (.ldrrung d (f.extractLsb' 0 3) l lv (e.extractLsb' 0 4) g)
  | 0x14#6 => demand noLent .lentByte <| demand (b = 0 && f = 0) .reservedField <| lad a fun l => .ok (.ldrcnt d l g)
  | 0x15#6 => demand noLent .lentByte <| demand (b = 0 && f = 0) .reservedField <|
    lad d fun l => take (reg4 a) .outOfRange fun x => .ok (.ldrsave l x g)
  | 0x16#6 => demand noLent .lentByte <| demand (b = 0 && f = 0) .reservedField <|
    lad d fun l => take (reg4 a) .outOfRange fun x => .ok (.ldrload l x g)
  | 0x17#6 => demand noLent .lentByte <| demand (a = 0 && b = 0 && f = 0) .reservedField <| lad d fun l => .ok (.ldrclr l g)
  | _ => .error .reservedOpcode

/-- The fields of one slot, before the limits of the instruction's own entry are checked. -/
def decodeFields (slot : Nat) (w : BitVec 32) (ext : Option Byte) : Except DecodeErr Instr :=
  match slot with
  | 0 => decode0 w
  | 1 => decode1 w ext
  | 2 => decode2 w (ext.getD 0)
  | _ => decode3 w (ext.getD 0)

/-- Decodes one slot (R141, R156). -/
def decodeSlot (slot : Nat) (w : BitVec 32) (ext : Option Byte) : Except DecodeErr Instr :=
  match decodeFields slot w ext with
  | .ok i => demand i.wf .limit (.ok i)
  | .error e => .error e

/-- A decoded bundle (R140, R146): whether slot 0 holds a header, and the four slots. A header's slot 0 does nothing. -/
structure Bundle where
  header : Bool
  i0 : Instr
  i1 : Instr
  i2 : Instr
  i3 : Instr
deriving DecidableEq, Repr

/-- Word i of a bundle (R140). -/
def bundleWord (x : BitVec 128) (i : Nat) : BitVec 32 := x.extractLsb' (32 * i) 32

/-- Decodes a bundle (R140, R146, R156). -/
def decodeBundle (x : BitVec 128) : Except DecodeErr Bundle :=
  let w0 := bundleWord x 0
  let hdr := Layout.op w0 == 0x3F#6
  let ext (lo : Nat) : Option Byte := if hdr then some (w0.extractLsb' lo 8) else none
  if hdr && w0.extractLsb' 24 2 ≠ 0 then .error .lentByte
  else
    match (if hdr then Except.ok Instr.nop else decodeSlot 0 w0 none), decodeSlot 1 (bundleWord x 1) (ext 16),
      decodeSlot 2 (bundleWord x 2) (ext 8), decodeSlot 3 (bundleWord x 3) (ext 0) with
    | .ok i0, .ok i1, .ok i2, .ok i3 => .ok ⟨hdr, i0, i1, i2, i3⟩
    | .error e, _, _, _ => .error e
    | _, .error e, _, _ => .error e
    | _, _, .error e, _ => .error e
    | _, _, _, .error e => .error e

/-- A little-endian number from bytes. -/
def leNat : List Byte → Nat
  | [] => 0
  | b :: bs => b.toNat + 256 * leNat bs

/-- Decodes the first bundle of a list of bytes, and gives the rest. -/
def decodeBytes (bs : List Byte) : Except DecodeErr (Bundle × List Byte) :=
  if bs.length < 16 then .error .truncated
  else match decodeBundle (BitVec.ofNat 128 (leNat (bs.take 16))) with
    | .ok b => .ok (b, bs.drop 16)
    | .error e => .error e

/-! ### The encoder -/

def srWord (op : BitVec 6) (fn : BitVec 3) (o : SR) : BitVec 32 :=
  Layout.common op o.d o.a o.b (BitVec.ofBool o.i ++ fn) o.g

def sr3Word (op : BitVec 6) (f : BitVec 4) (o : SR3) : BitVec 32 := Layout.common op o.d o.a o.b f o.g

/-- A slot 0 encoding: slot 0 never receives a lent byte (R160). -/
def enc0 (w : BitVec 32) : Option Enc := some ⟨0, w, 0, false⟩

def encMem (op d : BitVec 6) (f : BitVec 4) (m : MemOp) (g : GuardF) : Option Enc :=
  some ⟨1, Layout.common op d m.aField m.bField f g, m.ext, m.needs⟩

/-- A slot 1 encoding whose lent byte is read as zero without a header. -/
def enc1 (w : BitVec 32) (e : Byte) : Option Enc := some ⟨1, w, e, e ≠ 0⟩

def encE (op : BitVec 6) (e0 e1 : BitVec 8) (e2 : BitVec 6) (e3 : Byte) (g : GuardF) : Option Enc :=
  enc1 (Layout.ae op e0 e1 e2 g) e3

def encTop (op : BitVec 6) (o : Top3) : Option Enc := encE op o.d o.a o.p o.b o.g

def z8 (x : BitVec 6) : BitVec 8 := 0#2 ++ x

def encV (op : BitVec 6) (o : VOp) : Option Enc :=
  some ⟨2, Layout.common op o.d o.a o.b o.m o.t.code, o.byte, o.byte ≠ 0⟩

def enc3 (w : BitVec 32) (e : Byte) : Option Enc := some ⟨3, w, e, e ≠ 0⟩

def encBeat (op : BitVec 6) (o : Beat) (e : Byte) : Option Enc :=
  enc3 (Layout.common op o.t o.a (0#1 ++ o.r) 0 o.g) e

def z6 (x : BitVec 4) : BitVec 6 := 0#2 ++ x

def l6 (x : BitVec 2) : BitVec 6 := 0#4 ++ x

/-- The encoding of an instruction; the table's rows without an encoding have none. NOP is given in slot 0. -/
def encode : Instr → Option Enc
  | .nop => enc0 0
  | .add o => enc0 (srWord 0x01 0 o)
  | .sub o => enc0 (srWord 0x01 1 o)
  | .and o => enc0 (srWord 0x01 2 o)
  | .or o => enc0 (srWord 0x01 3 o)
  | .xor o => enc0 (srWord 0x01 4 o)
  | .andn o => enc0 (srWord 0x01 5 o)
  | .min o => enc0 (srWord 0x01 6 o)
  | .max o => enc0 (srWord 0x01 7 o)
  | .minu o => enc0 (srWord 0x02 0 o)
  | .maxu o => enc0 (srWord 0x02 1 o)
  | .shl o => enc0 (srWord 0x02 2 o)
  | .shr o => enc0 (srWord 0x02 3 o)
  | .sra o => enc0 (srWord 0x02 4 o)
  | .rol o => enc0 (srWord 0x02 5 o)
  | .mul o => enc0 (srWord 0x03 0 o)
  | .mulh o => enc0 (srWord 0x03 1 o)
  | .mulhu o => enc0 (srWord 0x03 2 o)
  | .div o => enc0 (srWord 0x03 3 o)
  | .divu o => enc0 (srWord 0x03 4 o)
  | .rem o => enc0 (srWord 0x03 5 o)
  | .remu o => enc0 (srWord 0x03 6 o)
  | .clz d a g => enc0 (Layout.common 0x04 d a 0 0 g)
  | .ctz d a g => enc0 (Layout.common 0x04 d a 0 1 g)
  | .popc d a g => enc0 (Layout.common 0x04 d a 0 2 g)
  | .bfx o => enc0 (sr3Word 0x05 0 o)
  | .bfi o => enc0 (sr3Word 0x06 0 o)
  | .sel o c => enc0 (sr3Word 0x07 c o)
  | .movi d imm g => enc0 (Layout.sw 0x08 d imm g)
  | .movhi d imm q g => enc0 (Layout.sw (0x08 + q.setWidth 6) d imm g)
  | .cmp cc o => enc0 (srWord 0x0C cc.code o)
  | .fadd o => enc0 (sr3Word 0x0D 0 o)
  | .fsub o => enc0 (sr3Word 0x0D 1 o)
  | .fmul o => enc0 (sr3Word 0x0D 2 o)
  | .fmin o => enc0 (sr3Word 0x0D 3 o)
  | .fmax o => enc0 (sr3Word 0x0D 4 o)
  | .ffma o => enc0 (sr3Word 0x0E 0 o)
  | .fcvt d a tt ss g => enc0 (Layout.common 0x0F d a (z6 ss.code) tt.code g)
  | .fcmp cc o => enc0 (sr3Word 0x10 (0#1 ++ cc.code) o)
  | .fclass d a g => enc0 (Layout.common 0x11 d a 0 0 g)
  | .gand d a b g => enc0 (Layout.common 0x12 d (z6 a) (z6 b) 0 g)
  | .gor d a b g => enc0 (Layout.common 0x12 d (z6 a) (z6 b) 1 g)
  | .gnot d a g => enc0 (Layout.common 0x12 d (z6 a) 0 2 g)
  | .br disp g => enc0 (Layout.sb 0x13 disp g)
  | .jmp a g => enc0 (Layout.common 0x14 0 a 0 0 g)
  | .call disp g => enc0 (Layout.sb 0x15 disp g)
  | .ret g => enc0 (Layout.sb 0x16 0 g)
  | .loop n disp g => enc0 (Layout.sl 0x17 n disp g)
  | .loopReg a disp g => enc0 (Layout.sl 0x18 (0#6 ++ a) disp g)
  | .setfmt a g => enc0 (Layout.common 0x19 0 a 0 0 g)
  | .getf d i g => enc0 (Layout.common 0x1A d 0 i 8 g)
  | .getid d i g => enc0 (Layout.common 0x1B d 0 i 8 g)
  | .hops o => enc0 (sr3Word 0x1C 0 o)
  | .endTask g => enc0 (Layout.sb 0x1D 0 g)
  | .drain g => enc0 (Layout.sb 0x1E 0 g)
  | .trap c g => enc0 (Layout.common 0x1F 0 0 c 8 g)
  | .brk g => enc0 (Layout.sb 0x20 0 g)
  | .mfs d n g => enc0 (Layout.common 0x21 d (n.extractLsb' 6 6) (n.extractLsb' 0 6) 0 g)
  | .mts a n g => enc0 (Layout.common 0x22 a (n.extractLsb' 6 6) (n.extractLsb' 0 6) 0 g)
  | .eret g => enc0 (Layout.sb 0x23 0 g)
  | .amov k d a g => enc1 (Layout.common 0x01 d a 0 k.code g) 0
  | .aadd d a (.reg b) g => enc1 (Layout.common 0x02 (z6 d) (z6 a) b 0 g) 0
  | .aadd d a (.imm v) g =>
    some ⟨1, Layout.common 0x02 (z6 d) (z6 a) (v.extractLsb' 0 6) 8 g, v.extractLsb' 6 8, imm14Needs v⟩
  | .alea d base off g => some ⟨1, Layout.aw 0x03 d base.code (off.extractLsb' 0 16) g, off.extractLsb' 16 8, off24Needs base off⟩
  | .asetm m d a inc len g =>
    some ⟨1, Layout.common m.code (z6 d) (z6 a) (inc.extractLsb' 0 6) len g, inc.extractLsb' 6 8, imm14Needs inc⟩
  | .ld sz q d m g => encMem 0x08 d (q.code ++ sz) m g
  | .st sz q d m g => encMem 0x09 d (q.code ++ sz) m g
  | .ldv q d m g => encMem 0x0A d (0#2 ++ q.code) m g
  | .stv k d m g => encMem 0x0B d k m g
  | .ldvs w d m g => encMem 0x0C d (0#2 ++ w) m g
  | .stvs w d m g => encMem 0x0D d (0#2 ++ w) m g
  | .ldvx k d m g => encMem 0x0E d k m g
  | .stvx k d m g => encMem 0x0F d k m g
  | .pref m g => encMem 0x10 0 0 m g
  | .amo ar op d b x g => enc1 (Layout.common 0x11 d (x ++ 0#2) b (BitVec.ofBool ar ++ op.code) g) 0
  | .cas ar wide d b x g => enc1 (Layout.common 0x12 d (x ++ 0#2) b (BitVec.ofBool ar ++ 0#2 ++ BitVec.ofBool wide) g) 0
  | .fewait clr len x off g =>
    some ⟨1, Layout.common 0x13 len (x ++ 0#2) (off.extractLsb' 0 6) (0#3 ++ BitVec.ofBool clr) g, off.extractLsb' 6 8,
      imm14Needs off⟩
  | .fence p sc st g => enc1 (Layout.af 0x14 p sc.code (st.extractLsb' 0 8) g) (st.extractLsb' 8 8)
  | .wait c l g => enc1 (Layout.common 0x15 c l 0 0 g) 0
  | .barinit n c g => enc1 (Layout.ab 0x16 n (c.extractLsb' 0 6) g) (c.extractLsb' 6 8)
  | .bararv n c g => enc1 (Layout.ab 0x17 n (c.extractLsb' 0 6) g) (c.extractLsb' 6 8)
  | .barwt n g => enc1 (Layout.ab 0x18 n 0 g) 0
  | .bararw n c g => enc1 (Layout.ab 0x19 n (c.extractLsb' 0 6) g) (c.extractLsb' 6 8)
  | .snap g => enc1 (Layout.sb 0x1A 0 g) 0
  | .copy d s (.imm u) g => encE 0x20 (z8 d.field) (z8 s.field) (u.extractLsb' 0 6) (u.extractLsb' 6 8) g
  | .copy d s (.reg l) g => encE 0x20 (2#2 ++ d.field) (z8 s.field) l 0 g
  | .copym d s (.imm u) m g => encE 0x21 (z8 d.field) (z8 s.field) m u g
  | .copym d s (.reg l) m g => encE 0x21 (2#2 ++ d.field) (z8 s.field) m (z8 l) g
  | .relay t d s lay vc g => encE 0x22 d s vc (lay ++ 0#3 ++ BitVec.ofBool t) g
  | .ewadd o => encTop 0x23 o
  | .ewmul o => encTop 0x24 o
  | .ewfma o => encTop 0x25 o
  | .ewmax o => encTop 0x26 o
  | .ewcvt ovn d a p g => encE 0x27 d a p (0#7 ++ BitVec.ofBool ovn) g
  | .gemv o => encTop 0x28 o
  | .gemm o => encTop 0x29 o
  | .reduce op d s p g => encE 0x2A d s p op.code g
  | .placeq w s g => encE 0x2B (z8 w) (z8 s) 0 0 g
  | .attn x p g => encE 0x2C (z8 x.field) 0 p 0 g
  | .kvfind d q l g => encE 0x2D (z8 d) (z8 q) l.field 0 g
  | .kvapp d x vc g => encE 0x2E (z8 d) 0 x.field (z8 vc) g
  | .kvfree d q b l g => encE 0x2F (z8 d) (z8 q) l.field (z8 b) g
  | .setband b x l g => encE 0x30 (z8 x.field) (z8 b) l.field 0 g
  | .splopen c x g => encE 0x31 (z8 c) 0 x.field 0 g
  | .splopenNb c k x g => encE 0x31 (z8 c) (0#5 ++ k) x.field 0 g
  | .splarv d e t x g => encE 0x32 (z8 d) (z8 e) x.field (z8 t) g
  | .splclose d c g => encE 0x33 (z8 d) (z8 c) 0 0 g
  | .splstat d c sel g => encE 0x34 (z8 d) (z8 c) 0 (z8 sel) g
  | .nxwr x g => encE 0x35 0 0 x.field 0 g
  | .nxrd x g => encE 0x36 0 0 x.field 0 g
  | .nxamo d x g => encE 0x37 (z8 d) 0 x.field 0 g
  | .nxwait c v g => encE 0x38 (z8 c) (z8 v) 0 0 g
  | .nxstat d p g => encE 0x39 (z8 d) (z8 p) 0 0 g
  | .launch d x g => encE 0x3A (z8 d) 0 x.field 0 g
  | .sumpcfg n a g => encE 0x3B (0#6 ++ n) (z8 a) 0 0 g
  | .vadd o => encV 0x01 o
  | .vsub o => encV 0x02 o
  | .vmul o => encV 0x03 o
  | .vfma o => encV 0x04 o
  | .vfms o => encV 0x05 o
  | .vmin o => encV 0x06 o
  | .vmax o => encV 0x07 o
  | .vabs o => encV 0x08 o
  | .vneg o => encV 0x09 o
  | .vrcp o => encV 0x0A o
  | .vrsq o => encV 0x0B o
  | .vfexp2 o => encV 0x0C o
  | .vlog2 o => encV 0x0D o
  | .vrndi o => encV 0x0E o
  | .vscale o => encV 0x0F o
  | .vgetexp o => encV 0x10 o
  | .vgetman o => encV 0x11 o
  | .vcvt o => encV 0x12 o
  | .vcvti o => encV 0x13 o
  | .vpackb o => encV 0x14 o
  | .vunpb o => encV 0x15 o
  | .vsat o => encV 0x16 o
  | .vcmp o => encV 0x17 o
  | .vsel o => encV 0x18 o
  | .vand o => encV 0x19 o
  | .vor o => encV 0x1A o
  | .vxor o => encV 0x1B o
  | .vnot o => encV 0x1C o
  | .vshl o => encV 0x1D o
  | .vshr o => encV 0x1E o
  | .vsra o => encV 0x1F o
  | .viota o => encV 0x20 o
  | .vbcast o => encV 0x21 o
  | .vmovs o => encV 0x22 o
  | .vins o => encV 0x23 o
  | .vmov o => encV 0x24 o
  | .vperm o => encV 0x25 o
  | .vslide o => encV 0x26 o
  | .vredsum o => encV 0x27 o
  | .vredmax o => encV 0x28 o
  | .vdot4 o => encV 0x29 o
  | .vcompr o => encV 0x2A o
  | .vexpnd o => encV 0x2B o
  | .kand o => encV 0x2C o
  | .kor o => encV 0x2D o
  | .kxor o => encV 0x2E o
  | .knot o => encV 0x2F o
  | .kpopc o => encV 0x30 o
  | .kfirst o => encV 0x31 o
  | .kset o => encV 0x32 o
  | .sumpin o => encV 0x33 o
  | .sumpout o => encV 0x34 o
  | .sumpcnt o => encV 0x35 o
  | .mnop => enc3 0 0
  | .mldb f sp a g => enc3 (Layout.common 0x01 0 a 0 (0#1 ++ BitVec.ofBool sp ++ f.code) g) 0
  | .mwbf len x b g => enc3 (Layout.common 0x02 len (z6 x) b 0 g) 0
  | .mpush o => encBeat 0x03 o 0
  | .mshift o n => encBeat 0x04 o (0#3 ++ n)
  | .macc o => encBeat 0x05 o 0
  | .mdrain o => encBeat 0x06 o 0
  | .mdrainSwap g => enc3 (Layout.common 0x06 0 0 0 1 g) 0
  | .mzero t g => enc3 (Layout.common 0x07 t 0 0 0 g) 0
  | .acmovv v p g => enc3 (Layout.ma 0x08 v p g) 0
  | .acmova v p g => enc3 (Layout.ma 0x09 v p g) 0
  | .acld t x g => enc3 (Layout.common 0x0A t (z6 x) 0 0 g) 0
  | .acst t x g => enc3 (Layout.common 0x0B t (z6 x) 0 0 g) 0
  | .ldrcfg l a b g => enc3 (Layout.common 0x10 (l6 l) a b 0 g) 0
  | .ldrstep l t g => enc3 (Layout.common 0x11 (l6 l) 0 t 0 g) 0
  | .ldrread l t g => enc3 (Layout.common 0x12 (l6 l) 0 t 0 g) 0
  | .ldrrung d gd l lv q g => enc3 (Layout.common 0x13 d (l6 l) (z6 lv) (0#1 ++ gd) g) (0#4 ++ q)
  | .ldrcnt d l g => enc3 (Layout.common 0x14 d (l6 l) 0 0 g) 0
  | .ldrsave l x g => enc3 (Layout.common 0x15 (l6 l) (z6 x) 0 0 g) 0
  | .ldrload l x g => enc3 (Layout.common 0x16 (l6 l) (z6 x) 0 0 g) 0
  | .ldrclr l g => enc3 (Layout.common 0x17 (l6 l) 0 0 0 g) 0
  | _ => none

/-! ### The host's view of one table row -/

/-- The lowest-numbered slot whose map reads a word without a header. One word can be an instruction of several slots;
the table does not say which slot a row's word stands in. (DEDUCED: log 15) -/
def slotOfWord (w : BitVec 32) : Option (Nat × Instr) :=
  match decodeSlot 0 w none with
  | .ok i => some (0, i)
  | .error _ =>
    match decodeSlot 1 w none with
    | .ok i => some (1, i)
    | .error _ =>
      match decodeSlot 2 w none with
      | .ok i => some (2, i)
      | .error _ =>
        match decodeSlot 3 w none with
        | .ok i => some (3, i)
        | .error _ => none

/-- The bundle that holds a table word: the word in the slot that reads it, the other slots empty. A number of 128 bits
is a whole bundle. (DEDUCED: log 15) -/
def tableBundle (nbits w : Nat) : BitVec 128 :=
  if nbits ≤ 32 then
    match slotOfWord (BitVec.ofNat 32 w) with
    | some (k, _) => BitVec.ofNat 128 ((w % 2 ^ 32) * 2 ^ (32 * k))
    | none => BitVec.ofNat 128 (w % 2 ^ 32)
  else BitVec.ofNat 128 w

/-- The instruction that the decoder reads from a table row's word. (DEDUCED: log 15) -/
def decodeTableWord (nbits w : Nat) : Option Instr :=
  if nbits ≤ 32 then (slotOfWord (BitVec.ofNat 32 w)).map (·.2)
  else
    match decodeBundle (BitVec.ofNat 128 w) with
    | .ok b =>
      if b.i0 != .nop then some b.i0
      else if b.i1 != .nop then some b.i1
      else if b.i2 != .nop then some b.i2
      else if b.i3 != .mnop then some b.i3
      else some .nop
    | .error _ => none

end Sys2Proof
end

