-- ==== Sys2Proof/Config.lean ====
section
/-! DEFINITION. What one Tirueter 4 fixes (R2, R3, R44, R47) and the free values: opaque functions without a body, for
what the manual leaves open. Nothing in Lean can evaluate a free value. -/

namespace Sys2Proof.Config

/-- The tile cores of the package (R3): 4 dies of 8 clusters of 16 cores. -/
def tileCores : Nat := 512

/-- Base and size of the local window (R47). -/
def localBase : Nat := 0x7FF000000000
def localSize : Nat := 0x100000

/-- The multicast window (R47): 2^36 bytes. -/
def mcastBase : Nat := 0x7FE000000000
def mcastEnd : Nat := 0x7FF000000000

/-- The splice windows: 2^36 bytes for each of the 64 contexts of each of the four virtual dies, at the strides of R122. The
end that R47 prints, 0x6FFF_FFFF_FFFF, holds those of virtual die 0 alone. (DEDUCED: log 144) -/
def spliceBase : Nat := 0x6C0000000000
/-- The end of the windows of virtual die 3 (R122). (DEDUCED: log 144) -/
def spliceEnd : Nat := 0x7C0000000000

/-- The regions of the device physical map (R44). -/
def controlEnd : Nat := 0x1000000000
def poolBase : Nat := 0x1000000000
def poolSize : Nat := 0x06000000
def poolEnd : Nat := 0x1018000000
def spBase : Nat := 0x1100000000
def spEnd : Nat := 0x1120000000
def stackBase : Nat := 0x4000000000
def stackEnd : Nat := 0xE000000000

/-- Host memory is a space of its own (R43): a host bus address `x` is held under the key `hostSpace + x`, above every
device physical address, so that one store holds both. (DESIGN CHOICE: log 9) -/
def hostSpace : Nat := 2 ^ 64

/-- Free value: which of the 32 central arrays of its die run piece `k` of command `id` (R3; R71 makes them not visible to
programs): one of them, and a bit for each other one. (DESIGN CHOICE: log 145) -/
opaque centralArrays : (id k : Nat) → BitVec 5 × BitVec 32

/-- Free value: which of the 16 attention pairs of its die runs the ATTN of command `id` (R3, R91: no program sees which).
(DESIGN CHOICE: log 145) -/
opaque attentionPair : (id : Nat) → BitVec 4

/-- Free value: which of `n` writes a read returns when R131 allows several, for the `k`-th such read. (DESIGN CHOICE: log 10)
(DEDUCED: log 11) -/
opaque readChoice : (k n : Nat) → Nat

/-- Free value: what the round-trip smoothing of NXSTAT gives after the `k`-th acknowledgement (R253 names a smoothed
round trip and gives no formula). (DESIGN CHOICE: log 10, 91) -/
opaque smoothRtt : (old sample k : Nat) → Nat

/-- Free value: into how many packets a message of `len` bytes is cut (R253 gives no packet size). (DESIGN CHOICE: log 91) -/
opaque packetCount : (len : Nat) → Nat

/-- Free value: what the 8-bit field of NXSTAT reads when all of the last 256 acknowledged packets were ECN-marked, so that
the count does not fit (R253). (DESIGN CHOICE: log 91) -/
opaque ecnFull : BitVec 8

/-- Free value: the RCCC credit that an endpoint has granted (R253), at the `k`-th reading. -/
opaque rcccCredit : (ep k : Nat) → BitVec 64

/-- Uninterpreted: AES-XTS (R320, R321). The 16 bytes that an encryption block which was stored under one key, at one 2 KiB
granule, reads as under another key, or at another granule; an empty key stands for key slot 0, plaintext. `block` is the
block's number in its granule. (DESIGN CHOICE: log 12) -/
opaque recrypt : (oldKey newKey : List Byte) → (oldGranule newGranule block : Nat) → List Byte → List Byte

/-- Free value: the writer core and the epoch that a fault record names for a granule tagged *synchronous* by cluster
`c` (R68, R138, R346 name no writer for such a tag). (DEDUCED: log 48) -/
opaque syncTag : (c : Nat) → Nat × BitVec 64

/-- Free value: an INT32 accumulator element of an integer beat against a B that holds values that are no integers, so that
the exact sum of R220 is none: the k-th such element. (DESIGN CHOICE: log 10, 35) -/
opaque freeAcc : (k : Nat) → BitVec 32

/-- Free value: the side-plane bytes of a type-5 block that RELAY gathers from several source blocks (R238 gives no scale
and knot for it): the k-th such block. (DESIGN CHOICE: log 10, 68) -/
opaque freeSide : (k : Nat) → BitVec 16

/-- Free value: the result of a KVFIND or KVFREE that meets an uncorrectable error in the locator (R99 and R101 state none):
the k-th such result. (DESIGN CHOICE: log 10, 80) -/
opaque freeLocator : (k : Nat) → BitVec 64

/-- Uninterpreted: AES-256-GCM decryption of a KEYLOAD record under a session's key (R314): session, IV, additional
data, ciphertext and tag give the plaintext, or none when the tag fails. (DESIGN CHOICE: log 12) (DEDUCED: log 115) -/
opaque gcmOpen : (session : Nat) → (iv aad cipher tag : List Byte) → Option (List Byte)

/-- Uninterpreted: SHA-512 (R375). (DESIGN CHOICE: log 12) -/
opaque sha512 : List Byte → List Byte

/-- Uninterpreted: the RSASSA-PSS check of R375: modulus, signature and digest. (DESIGN CHOICE: log 12) -/
opaque pssVerify : (modulus signature digest : List Byte) → Bool

/-- Free values of the part: the key hash and the minimum SVN in XD0's fuses (R375). (DESIGN CHOICE: log 12) -/
opaque fusedKeyHash : List Byte
/-- (DESIGN CHOICE: log 12) -/
opaque fusedMinSvn : Nat

/-- Free value: the address at which a die controller starts the firmware (R376 names none). (DESIGN CHOICE: log 13) -/
opaque firmwareEntry : BitVec 64

/-- Uninterpreted: the ROM hash, measurement 1 of R377. -/
opaque romHash : List Byte

/-- Uninterpreted: the public identity key of the root of trust, RSA-4096, and its certificate chain (R377). -/
opaque identityKey : List Byte
opaque certificateChain : List Byte

/-- Free value: whether the uncore of a die still works after a fatal error of a unit (R349 states no sign of it): the k-th such
error. (DESIGN CHOICE: log 152) -/
opaque uncoreWorks : (die : BitVec 2) → (unit : BitVec 8) → (k : Nat) → Bool

end Sys2Proof.Config
end

