-- ==== Sys2Proof/Machine/State.lean ====
section
/-! DEFINITION. The state of the module as plain data: one agent's private state (`CoreState`: a tile core or a die
controller), the die's own state (`DieState`), the order machine, the engines' commands, the partition controller, the
host link and the package. INVENTORY.md lists every item with its rule. -/

namespace Sys2Proof.Machine

open Sys2Proof

/-- A register file of `2^w` registers, indexed by a `w`-bit number. -/
abbrev RegFile (w : Nat) (α : Type) := Vector α (2 ^ w)

/-- A modifier register `mN` (R257). -/
structure Modifier where
  mode : MMode
  inc  : BitVec 14
  len  : BitVec 4
  base : Word
deriving DecidableEq, Repr

/-- An exact value: what a floating or integer element stands for (R29, R213, R239). A finite value is
`(-1)^sign * mant * 2^exp`. -/
inductive Num where
  | nan
  | inf (neg : Bool)
  | fin (neg : Bool) (mant : Nat) (exp : Int)
deriving DecidableEq, Repr

/-- The five flags of R35, as a set. -/
abbrev Flags := BitVec 5

/-- A register or sump that an instruction can name or write: what R54 and R156 compare. -/
inductive RegRef where
  | s (i : BitVec 6)
  | a (i : BitVec 4)
  | m (i : BitVec 4)
  | v (i : BitVec 6)
  | k (i : BitVec 4)
  | g (i : BitVec 3)
  | sys (n : BitVec 12)
  | sump (n : BitVec 2)
deriving DecidableEq, Repr

/-- One write of a register. -/
inductive RegWrite where
  | s (i : BitVec 6) (x : Word)
  | a (i : BitVec 4) (x : Word)
  | m (i : BitVec 4) (x : Modifier)
  | v (i : BitVec 6) (x : VReg)
  | k (i : BitVec 4) (x : KReg)
  | g (i : BitVec 3) (x : Bool)
  /-- an MTS write of a system register -/
  | sys (n : BitVec 12) (x : Word)
  /-- flags to OR into `fflags` (R185) -/
  | flags (f : Flags)
deriving DecidableEq, Repr

/-- An exposed write in flight (R52): it lands for the bundle numbered `due`. (DEDUCED: log 129, 131) -/
structure Pend where
  w     : RegWrite
  due   : Nat
  /-- the number of the bundle that issued it (R53) -/
  since : Nat
  /-- a load's value, which `ld` still counts (R275): the cycle from which it counts no longer -/
  ld    : Option Nat := none
deriving DecidableEq, Repr

/-- An interlocked destination (R54): pending until its result is there and INTERLOCKED_LAND writes it. -/
structure Lock where
  tok    : Nat
  regs   : List RegRef
  result : Option (List RegWrite)
  /-- whether the landing lowers the counter `ld` (bit 0) or `sp` (bit 5) of R275 -/
  counts : Option (BitVec 3)
deriving DecidableEq, Repr

/-- The page of a stake entry (R233): PASID, address and size. -/
structure Stake where
  pasid : Nat
  va    : Nat
  size  : Nat
deriving DecidableEq, Repr

/-- A contiguous piece of a translated range: virtual address, physical key (Config.hostSpace holds host memory) and
length. -/
structure Seg where
  va  : Nat
  pa  : Nat
  len : Nat
deriving DecidableEq, Repr

/-- A release's load: who made it, the epoch it carries (R137), its scope and the observed set it carries (R132). -/
structure Release where
  core  : Nat
  epoch : Word
  scope : Scope
  obs   : List Nat
deriving DecidableEq, Repr

/-- One stored byte: physical key, value, and whether it carries a poison mark. -/
structure WByte where
  pa     : Nat
  val    : Byte
  poison : Bool
deriving DecidableEq, Repr

/-- A store that has issued and not drained (R129). -/
structure StoreEntry where
  seq    : Nat
  stream : BitVec 4
  bytes  : List WByte
  /-- `.fe`: the store sets its granule full (R49) -/
  setFe  : Bool
  /-- `.rel`: a release at this scope (R132) -/
  rel    : Option Scope
  /-- whether the store counts in `st` (R275) -/
  counts : Bool
deriving DecidableEq, Repr

/-- A multicast store in flight (R68): target scratchpad bytes of each core of the mask, landing at a cycle. -/
structure McastEntry where
  seq    : Nat
  due    : Nat
  bytes  : List WByte
  rel    : Option Release
  counts : Bool
deriving DecidableEq, Repr

/-- What a read of one byte returns: the byte, its poison mark, and the number of the write (0: the initial write). `own`: a
store of the reader's own store queue, which no release can be read from (R131, R132). -/
structure ReadByte where
  val    : Byte
  poison : Bool
  src    : Nat
  own    : Bool
deriving DecidableEq, Repr

/-- How a load gathers its bytes into a result. -/
inductive LoadShape where
  /-- zero-extended into a scalar register (R262) -/
  | scalar (d : BitVec 6)
  /-- lanes of `w` bytes each, in order, into a vector register; lanes not listed keep `old` (R264 to R266) -/
  | lanes (d : BitVec 6) (w : Nat) (idx : List Nat) (old : VReg)
deriving DecidableEq, Repr

/-- What an atomic does at its home (R269, R270). -/
inductive AtomicOp where
  /-- `sat`: `fmt`.SAT of the bundle, which RoundF32 reads (R37, R42) -/
  | amo (op : AmoOp) (operand : Word) (sat : Bool)
  | cas (size : Nat) (expect new : Word)
deriving DecidableEq, Repr

/-- A core-path read that has issued and not performed: a load, or an atomic (R130). -/
structure LoadEntry where
  tok    : Nat
  seq    : Nat
  stream : BitVec 4
  /-- the bundle, for the record of a poisoned read -/
  pc     : Word
  /-- the bytes still to read, in result order: virtual address, physical key and lane -/
  todo   : List (Nat × Nat × Nat)
  /-- the bytes read so far -/
  got    : List Byte
  /-- the first byte that read uncorrectable -/
  bad    : Option (Nat × Nat × Nat)
  shape  : LoadShape
  acq    : Option Scope
  atomic : Option (AtomicOp × Bool)
  /-- an exposed load's due bundle (R52); none: interlocked, under `tok` -/
  due    : Option Nat
  /-- the cycle of its issue -/
  cycle  : Nat
  /-- the multicast stores that have landed on its bytes since it issued, which it does not see (R68) -/
  hidden : List Nat
deriving DecidableEq, Repr

/-- A ladder's chain (R111): what it does to the ladder when it ends. -/
inductive Chain where
  /-- LDRSTEP: the captured tile (32 rows), and whether it held an error -/
  | step (x : List (BitVec 1024)) (cp : Bool)
  /-- LDRCFG and LDRCLR: +0 to every owned tile -/
  | zero
deriving DecidableEq, Repr

/-- A ladder (R108). -/
structure Ladder where
  cfg   : Bool
  base  : BitVec 6
  n     : BitVec 5
  w     : RegFile 4 (BitVec 32)
  c     : BitVec 32
  occ   : BitVec 16
  pz    : BitVec 16
  sat   : Bool
  chain : Option Chain
deriving DecidableEq, Repr

/-- A sump (R207). -/
structure Sump where
  cfg   : Bool
  base  : BitVec 20
  cap   : BitVec 16
  tl    : BitVec 3
  w     : BitVec 4
  head  : BitVec 16
  count : BitVec 17
deriving DecidableEq, Repr

/-- The loop stack (R174, R184). -/
structure LoopStack where
  depth : BitVec 3
  lcnt  : RegFile 2 Word
  lbeg  : RegFile 2 Word
  lend  : RegFile 2 Word
deriving DecidableEq, Repr

/-- The counters of R275. -/
structure Counters where
  ld : BitVec 16
  st : BitVec 16
  cp : BitVec 16
  tn : BitVec 16
  nx : BitVec 16
  sp : BitVec 16
deriving DecidableEq, Repr

/-- A recorded split arrival (R278). `phase` counts the completions of the record without wrapping: GEN is its residue. -/
structure Split where
  n     : BitVec 10
  gen   : BitVec 16
  phase : Nat
deriving DecidableEq, Repr

/-- An arrival, or a BARINIT, on its way to the record (R277). -/
structure Arrival where
  n      : BitVec 10
  count  : Nat
  init   : Bool
  seq    : Nat
  pc     : Word
deriving DecidableEq, Repr

/-- A claim of a launch (R323). -/
structure Claim where
  base : Nat
  len  : Nat
  r    : Bool
  w    : Bool
deriving DecidableEq, Repr

/-- A drain range (R350). -/
structure DrainRange where
  lo  : Word
  hi  : Word
  dpc : Word
  rpc : Word
deriving DecidableEq, Repr

/-- A preload descriptor (R350). -/
structure Preload where
  off : Nat
  len : Nat
  src : Nat
deriving DecidableEq, Repr

/-- A configuration plane (R334). -/
structure Plane where
  entry   : Word
  image   : Word
  htab    : Word
  dtab    : Word
  wid     : Word
  widths  : List Nat
  extents : List Nat
  glev    : Nat
  member  : Nat
  gsize   : Nat
  bar     : Nat
  preload : List Preload
  drains  : List DrainRange
  spkeep  : Nat
deriving DecidableEq, Repr

/-- What the scheduler knows of the task on a core: its launch, gang and context, and the claims it is checked against
(R339). -/
structure Task where
  launch : Nat
  gang   : Nat
  /-- the die that holds the launch, and the core of member 0 (R14, R326) -/
  home   : BitVec 2
  lead   : Nat
  /-- a number of its own for each stay on a core (R237), and one for the whole life of the task -/
  inst   : Nat
  uid    : Nat
  slot   : Nat
  pasid  : Nat
  vd     : Nat
  claims : List Claim
deriving DecidableEq, Repr

/-- The causes of R307, by code. -/
abbrev Cause := BitVec 8

/-- What a trap hands to firmware (R306, R346). (DEDUCED: log 19) -/
structure TrapInfo where
  cause : Cause
  code  : BitVec 8
  /-- KIND: 0 service, 1 ending, 2 log only -/
  kind  : BitVec 8
  info0 : Word
  info1 : Word
  pa    : Word
  item  : BitVec 16
  sub   : BitVec 8
  out   : BitVec 8
  home  : BitVec 16
  seen  : Word
  /-- the four words of an illegal bundle (R156) -/
  words : BitVec 128 := 0
deriving DecidableEq, Repr

/-- Why a bundle is held (R157), with the FRZ code of R356. -/
inductive Hold where
  | readiness | waitCounters | feWait | barrier | queue | drainOrSave | suspended
  | arrayBusy | fillRunning | chain | fence | consuming | splopen | nxwait | translation | release
deriving DecidableEq, Repr

/-- Who waits for a translation (R337): a core's access or fetch, a launch's residency, the check of a launch's table, or a
network request. -/
inductive Asker where
  | core (k : Nat)
  | fetch (k : Nat)
  | lease (launch : Nat)
  | table (pasid : Nat)
  | network
deriving DecidableEq, Repr

/-- An ATS Translation Request in flight (R337): PASID, page address, whether execute is asked for, and who waits for it. -/
structure AtsReq where
  pasid  : Nat
  page   : Nat
  exec   : Bool
  askers : List Asker
deriving DecidableEq, Repr

/-- What one slot's meaning tells the bundle it stands in. (DESIGN CHOICE: log 2) -/
inductive Signal where
  | none
  /-- the bundle must hold: none of its slots takes effect (R157 stage 5); the ATS requests that it waits for (PASID,
  page, execute), R337 -/
  | held (h : Hold) (ats : List (Nat × Nat × Bool))
  /-- the slot traps: no slot of its bundle takes effect (R157 stage 4) -/
  | trapped (t : TrapInfo)
deriving DecidableEq, Repr

/-- A wait that begins after every slot of its bundle has taken effect (R157); END and DRAIN have their own `Run`.
(DEDUCED: log 25) -/
inductive AfterWait where
  /-- BARARW, the bundle at `pc`, has arrived and waits for its phase (R278) -/
  | barrier (n : BitVec 10) (pc : Word)
  /-- LAUNCH waits for its release, and for the scheduler to enqueue or refuse the record that it captured (none: the record
  address was not aligned, R254); its result goes to the destination `tok`, which is its place in issue order too. -/
  | launch (tok : Nat) (rec : Option (List Byte))
deriving DecidableEq, Repr

/-- What a core is doing. -/
inductive Run where
  /-- no task: returned to the scheduler and zeroed (R50) -/
  | free
  /-- held in reset with its core domain (R319) -/
  | reset
  | running
  /-- END has issued and its waits run (R179) -/
  | ending
  /-- the task has ended and the core is not yet returned (R16, R50) -/
  | ended
  /-- DRAIN has issued and its waits run (R180) -/
  | draining
  /-- a TRAP, BRK or precise trap, taken at `stamp`: suspended to firmware (R305); `queued` once its event has an entry -/
  | suspended (t : TrapInfo) (stamp : Nat) (queued : Bool)
deriving DecidableEq, Repr

/-- One agent's private state: a tile core (R10) or a die controller core (R305). (DEDUCED: log 21) -/
structure CoreState where
  run     : Run
  pc      : Word
  s       : RegFile 6 Word
  a       : RegFile 4 Word
  m       : RegFile 4 Modifier
  v       : RegFile 6 VReg
  k       : RegFile 4 KReg
  g       : RegFile 3 Bool
  fmt     : BitVec 32
  fflags  : BitVec 32
  tstat   : BitVec 32
  loops   : LoopStack
  rsst    : BitVec 32
  /-- bundles issued (R184) -/
  bcnt    : Word
  dpc     : Word
  dbgctl  : BitVec 32
  /-- the target of a transfer that a slot of the current bundle takes (R140, R175) -/
  jump    : Option Word
  /-- a TRAP or BRK of the current bundle, taken after it (R181) -/
  post    : Option TrapInfo
  pend    : List Pend
  locks   : List Lock
  /-- the pages that interlocked instructions without a queue entry have staked, by token: SPLARV and LAUNCH (R233) -/
  staked  : List (Nat × List Stake)
  /-- the next token and issue sequence number -/
  seq     : Nat
  sq      : List StoreEntry
  mcast   : List McastEntry
  loads   : List LoadEntry
  cnt     : Counters
  splits  : List Split
  arrivals : List Arrival
  /-- a barrier fault judged at the record, taken at the next bundle boundary (R277) -/
  deferred : Option TrapInfo
  /-- accumulator rows that are not zero, 32 elements of 32 bits each, column 0 lowest -/
  acc     : List (Nat × BitVec 1024)
  /-- accumulator elements that read uncorrectable (R116): 32 * row + column -/
  accErr  : List Nat
  wbuf    : List Host.Cell
  wbufErr : List Nat
  bActive : Vector Num 1024
  bStaged : Vector Num 1024
  /-- an MLDB fill that runs: the staged B it will write, and its flags (R218) -/
  fill    : Option (Vector Num 1024 × Flags)
  /-- the beat that occupies the array, and its flags (R221) -/
  beat    : Option Flags
  ladders : RegFile 2 Ladder
  sumps   : RegFile 2 Sump
  task    : Option Task
  plane   : Plane
  shadow  : Option (Plane × Task)
  /-- what the shadow plane holds while no task is promised to the core (R334) -/
  spare   : Plane
  /-- seen[W] of R137 -/
  seen    : Vector Word 512
  /-- Obs(c) of R129, as write numbers -/
  obs     : List Nat
  /-- the writes that this core has itself read or written (R131) -/
  own     : List Nat
  /-- a drain of the task is requested (cycle of the request) or in progress (RPC), R351 -/
  drainReq : Option Nat
  drainRpc : Option Word
  /-- a full save was taken within the drain stub, so that its DRAIN does not leave the core (R180, R351) -/
  stay    : Bool
  /-- issue rate in sixteenths (R332) -/
  rate    : BitVec 5
  /-- FRZ of R356: why the last bundle was held, 0 when one issued -/
  frz     : BitVec 8
  /-- the waits that follow the bundle issued last -/
  after   : List AfterWait
deriving DecidableEq, Repr

/-! ### The order machine -/

/-- A write that has taken its coherence place (R129, R130): the bytes of one step, within one granule, or of a scalar store all
those of one home. (DEDUCED: log 49, 126) -/
structure Write where
  id      : Nat
  path    : Path
  die     : BitVec 2
  core    : Nat
  /-- the task that made it (R21, R135); 0 for none -/
  task    : Nat
  bytes   : List WByte
  /-- the dies at which the write is applied -/
  applied : List (BitVec 2)
  /-- the (die, path) pairs to which it is joined -/
  joined  : List (BitVec 2 × Path)
  /-- bytes whose granules become full where the write is applied at their own die (R49) -/
  full    : List Nat
  /-- bytes that some die does not take from this write, since it held a coherence-later one (R130 APPLY) -/
  passed  : List (BitVec 2 × Nat)
  rel     : Option Release
  /-- the producer's sequence of R136: an engine command, a splice context or a message -/
  prod    : Nat
deriving DecidableEq, Repr

/-- A writer tag (R137, R68). (DEDUCED: log 48) -/
inductive Tag where
  | by (core : Nat) (epoch : Word)
  | sync (cluster : Nat)
deriving DecidableEq, Repr

/-- A barrier record (R277). `who` lists the arrived members with the releases that they carried; `phase` counts
completions without wrapping, and `done` keeps the releases of completed phases by it. -/
structure BarRec where
  isOpen : Bool
  cnt    : Nat
  gen    : BitVec 16
  phase  : Nat
  who    : List (Nat × Release)
  done   : List (Nat × List Release)
deriving DecidableEq, Repr

/-! ### Engine commands -/

/-- A shape record as captured (R63), with the translation of the ranges that its command touches. -/
structure Shape where
  handle : BitVec 8
  base   : Nat
  ty     : Ty
  rank   : Nat
  lay    : Nat
  enc    : Bool
  kv     : Bool
  spl    : Bool
  ext    : List Nat
  stride : List Nat
  segs   : List Seg
deriving DecidableEq, Repr

/-- The TOP kinds of R69. -/
inductive TopKind where
  | ewadd | ewmul | ewfma | ewmax | ewcvt (ovn : Bool) | gemv | gemm | reduce (op : RedOp)
deriving DecidableEq, Repr

/-- A write that an engine still has to make (R130). -/
structure EngWrite where
  bytes : List WByte
  /-- whether the write sets the granules that it completes full (R49) -/
  setFe : Bool
  /-- the piece that it belongs to; for a copy, the number of its 2 KiB destination block -/
  piece : Nat
  /-- virtual address of its first byte -/
  va    : Nat
  /-- the target core and the residency of the task that it held when the command was issued (R237) -/
  guard : Option (Nat × Option Nat)
deriving DecidableEq, Repr

/-- The sites of R79. -/
inductive Site where
  | face | pool | central
deriving DecidableEq, Repr

/-- A piece of a TOP (R72 to R80). -/
structure Piece where
  /-- linear indices of the elements that define the piece -/
  elems   : List Nat
  /-- home 0 to 259, 0x1FF for the central site -/
  home    : Nat
  /-- the home of the piece's largest-source elements: the landing entry of a REDUCE -/
  srcHome : Nat
  site    : Site
  /-- the face units that it needs: 128 * die + 4 * channel + bank group (R82, R86) -/
  units   : List Nat
  /-- bytes shipped to the site, and bytes written back -/
  shipped : Nat
  back    : Nat
  started : Bool
  /-- OUT of R79, once the piece has completed or failed -/
  out     : Option (BitVec 2)
  /-- flags of a piece whose writes are still to be made -/
  flags   : Flags
  /-- when the reads of the piece are made: OUT and the failing address that the piece will report -/
  fate    : BitVec 2
  failPa  : Nat
  /-- whether a write of the piece has been made: from then on it completes (R75, R80) -/
  wrote   : Bool
deriving DecidableEq, Repr

/-- A locator descriptor as captured (R97). -/
structure Locator where
  desc  : Nat
  table : Nat
  p     : Nat
  ovcnt : Nat
  ovfl  : Nat
  turnt : Nat
  bandt : Nat
  segs  : List Seg
deriving DecidableEq, Repr

/-- An ATTN with what it captured (R91, R107, R245), and the blocks that its lookups have found. `turn` and `bset` are the
class of the sequence, once its first block is found; before that `bset` is the band set that its issue has captured. -/
structure Attn where
  q      : Shape
  kp     : Shape
  vp     : Shape
  o      : Shape
  ml     : Option Shape
  loc    : Locator
  seq    : BitVec 32
  n      : Nat
  cofs   : Word
  c      : BitVec 32
  norm   : Bool
  sat    : Bool
  /-- the band table that it has captured, and the address of its first byte that read uncorrectable -/
  band   : Option (List Byte × Option Nat)
  /-- HM and ENC of its status word (R78) -/
  hm     : Bool
  enc    : Bool
  status : Option (List Seg)
  blocks : List Nat
  turn   : Nat
  bset   : Nat
deriving DecidableEq, Repr

/-- A message descriptor as captured (R249), with the endpoint entry that it names (R370). -/
structure Message where
  desc   : Nat
  ep     : BitVec 12
  aop    : BitVec 4
  dlv    : BitVec 2
  eset   : BitVec 6
  emask  : BitVec 16
  actr   : BitVec 16
  rva    : Nat
  lva    : Word
  len    : Nat
  proto  : BitVec 2
  segs   : List Seg
  /-- the ports of the endpoint, and the 16 values of the entropy set as captured (R371) -/
  port0   : Nat
  nport   : Nat
  entropy : List (BitVec 16)
deriving DecidableEq, Repr

/-- The bodies of engine commands. -/
inductive CmdBody where
  /-- `held`: the stay of the task on each other core that a copy aims at, at its issue (R237) -/
  | copy (dst src : List Seg) (len : Nat) (held : List (Nat × Option Nat))
  | copym (src : List Seg) (off len : Nat) (mask : BitVec 16) (held : List (Nat × Option Nat))
  | relay (d s : Shape) (lay : Nat) (t : Bool) (vc : Option Nat) (recPa : List Seg) (held : List (Nat × Option Nat))
  | top (k : TopKind) (d : Shape) (srcs : List Shape) (vc : Option Nat) (status : Option (List Seg))
      (rnd : BitVec 3) (sat : Bool) (hm enc cen : Bool)
  | placeq (status : List Seg) (word : List Byte)
  | attn (a : Attn)
  | kvfind (loc : Locator) (seq lblk : BitVec 32)
  | kvapp (loc : Locator) (seq : BitVec 32) (cls bset : BitVec 8) (pos0 : Word) (rows : Nat) (sat : Bool)
      (kp vp ks vs : Shape) (next : Nat)
  | kvfree (loc : Locator) (seq lo hi : BitVec 32) (next : Nat) (freed : Nat) (err : Bool)
  | setband (dst : List Seg) (src : List Byte)
  | nxwr (m : Message) | nxrd (m : Message) | nxamo (m : Message)
deriving DecidableEq, Repr

/-- A shipped copy that has arrived at a site's staging buffer (R75): its home, virtual address and bytes, the device physical
address of its first byte, and whether it arrived poisoned. -/
structure Ship where
  home   : Nat
  va     : Nat
  bytes  : List Byte
  pa     : Nat
  poison : Bool
deriving DecidableEq, Repr

/-- An engine command that has issued and not retired (R229 to R234). -/
structure Cmd where
  id      : Nat
  core    : Nat
  launch  : Nat
  /-- the issuing task: the number of its life, and its wid; 0 for none -/
  task    : Nat
  wid     : Word
  slot    : Nat
  pasid   : Nat
  die     : BitVec 2
  path    : Path
  pc      : Word
  epoch   : Word
  body    : CmdBody
  pages   : List Stake
  /-- whether its engine has started it (it has left its queue, R232) -/
  started : Bool
  tok     : Option Nat
  pieces  : List Piece
  /-- shipped copies that have arrived (R75) -/
  ships   : List Ship
  /-- writes still to be made, in order -/
  out     : List EngWrite
  /-- bytes written so far into splice windows, by virtual address (R122) -/
  spl     : List Host.Cell
  /-- whether the reads have been made (copies), or the last item has completed -/
  readDone : Bool
  finished : Bool
  flags   : Flags
  result  : Option Word
  /-- read handles and written handle of a TOP (R243) -/
  reads   : List (BitVec 8)
  writes  : Option (BitVec 8)
  /-- whether the issuing core's counter has counted it (R232) -/
  counted : Bool
deriving DecidableEq, Repr

/-! ### Splice contexts -/

/-- One token of a splice context (R121 to R126). -/
structure Token where
  /-- routing entries that have arrived, and those of them that arrived poisoned -/
  arrived : BitVec 8
  poison  : BitVec 8
  rows    : List (Nat × List Byte)
  dup     : Bool
  timed   : Bool
  released : Bool
deriving DecidableEq, Repr

/-- An open splice context (R119 to R128). -/
structure SplCtx where
  /-- its number as a producer of writes (R136) -/
  id      : Nat
  owner   : Nat
  core    : Nat
  /-- the task that opened it, and the epoch of its core then (R51) -/
  launch  : Nat
  task    : Nat
  wid     : Word
  slot    : Nat
  epoch   : Word
  tbase   : Nat
  tcount  : Nat
  kk      : Nat
  norm    : Bool
  tokOrder : Bool
  policy  : Nat
  afmt    : Nat
  d       : Nat
  /-- `fmt`.SAT of the opening bundle, which RoundF32 reads (R37, R42) -/
  sat     : Bool
  deadline : Nat
  gates   : List (List (BitVec 32))
  ids     : List (List (BitVec 8))
  outSh   : Shape
  fbSh    : Option Shape
  /-- offset of the status area in the opener's scratchpad -/
  status  : Nat
  tokens  : List Token
  /-- the release order: tokens that have entered it and are not released yet, while the opener is away too (R123, R127) -/
  held    : List Nat
  late    : BitVec 32
  stray   : BitVec 32
  dups    : BitVec 32
  passed  : Bool
  pages   : Nat
  /-- pages of the output and fallback rows that are staked while it is open -/
  stakes  : List Stake
deriving DecidableEq, Repr

/-- A row on its way to a splice unit, from a TOP (the command's number) or a network write (0), (R122). `token` is the
token row i. -/
structure Row where
  cmd    : Nat
  ctx    : BitVec 6
  pasid  : Nat
  expert : Nat
  token  : Nat
  bytes  : List Byte
  poison : Bool
deriving DecidableEq, Repr

/-! ### Translation, launches, contexts -/

/-- A cached translation (R337). -/
structure TlbEntry where
  pasid : Nat
  va    : Nat
  size  : Nat
  pa    : Nat
  r     : Bool
  w     : Bool
  x     : Bool
deriving DecidableEq, Repr

/-- A wait entry (R323). -/
structure WaitEntry where
  ev  : BitVec 8
  tgt : BitVec 32
deriving DecidableEq, Repr

/-- Page requests for one page (R340): how many, and whether the last one waits for its response. -/
structure PageReq where
  page    : Nat
  count   : Nat
  pending : Bool
deriving DecidableEq, Repr

/-- A host record whose check waits for pages of its drain and preload table (R350). -/
structure HostCheck where
  slot  : Nat
  /-- SEQ of the record (R327) -/
  seq   : BitVec 16
  bytes : List Byte
deriving DecidableEq, Repr

/-- A stored suspension record (R345): wid, PASID, the suspended PC, RPC, the kind and the save slot. (DEDUCED: log 58) -/
structure SuspRec where
  wid   : Word
  pasid : Nat
  pc    : Word
  rpc   : Word
  kind  : BitVec 8
  slot  : Nat
deriving DecidableEq, Repr

/-- An ATS invalidation that is not complete (R342): its range, and the accesses in flight that use a removed entry, each by
its agent, the task's stay there and its place in issue order. -/
structure Inval where
  pasid : Nat
  va    : Nat
  size  : Nat
  uses  : List (Nat × Nat × Nat)
deriving DecidableEq, Repr

/-- An event counter (R328), with the releases of the signals that it has counted. -/
structure EvCtr where
  val  : BitVec 32
  rels : List Release
deriving DecidableEq, Repr

/-- A launch that the die holds (R329), with its progress. Its number grows with its age. -/
structure Launch where
  id       : Nat
  slot     : Nat
  pasid    : Nat
  prio     : Nat
  plane    : Plane
  claims   : List Claim
  waits    : List WaitEntry
  sig      : Option (BitVec 8 × Bool)
  /-- pages of the lease, once the claims are resident (R340) -/
  lease    : Option (List Stake)
  /-- the translations that make its claims resident (R72, R340) -/
  held     : List Seg
  eligible : Bool
  /-- cycle at which it became eligible (R333) -/
  since    : Nat
  bypass   : Nat
  /-- gangs placed, and tasks ended -/
  placed   : Nat
  ended    : Nat
  /-- drained gangs that wait to be placed again -/
  drained  : List Nat
  /-- page requests of this residency (R340) -/
  pri      : List PageReq
  cancelled : Bool
  /-- the releases that its tasks acquire at their start: of the LAUNCH (R20), and of signals (R21) -/
  rels     : List Release
  sigs     : List Release
  /-- what its ended tasks release (R21) -/
  done     : List Release
  /-- the translations that a residency in progress has found (R340) -/
  found    : List TlbEntry
deriving DecidableEq, Repr

/-- A placed gang (R14 to R16): the cores of its members that are on one, how many members have not ended, and whether
firmware has ended one, so that its barrier records are broken (R279). -/
structure Gang where
  launch : Nat
  index  : Nat
  cores  : List Nat
  left   : Nat
  broken : Bool
  /-- its barrier records while member 0 is in a save slot, by number (R353, R317) -/
  bars   : List (Nat × BarRec)
deriving DecidableEq, Repr

/-- A context record (R311). -/
structure Ctx where
  pasid : Nat
  vdt   : List (Option (BitVec 2))
  /-- the socket fields of the bytes that bind nothing, as written -/
  idle  : List (BitVec 4)
  ept   : Word
  epn   : Nat
  est   : Word
  /-- broken by the loss of a die (R349) -/
  broken : Bool
deriving DecidableEq, Repr

/-- A context bank (R317): what a SWAP moves. -/
structure Bank where
  ctxs     : List (Nat × Ctx)
  /-- what a DESTROY left of a record, with VAL cleared (R314) -/
  stale    : List (Nat × Ctx)
  /-- arrival counters, by 1024 * slot + counter -/
  arr      : List (Nat × BitVec 32)
  /-- the messages that each arrival counter has counted, by their numbers as producers of writes (R252) -/
  arrMsgs  : List (Nat × List Nat)
  launches : List Launch
  gangs    : List Gang
  /-- the suspension record that each core's block shows last (R345, R317) -/
  susp     : List (Nat × SuspRec)
deriving DecidableEq, Repr

/-- A saved task (R353, R354). -/
structure Save where
  /-- false: drained by its stub; true: full save -/
  full  : Bool
  core  : CoreState
  home  : Nat
  rpc   : Word
  /-- kept ranges of the scratchpad (offset and length); their bytes that are not 0 or that are poisoned, by offset; their
  full granules, by offset div 16, and the write that set each -/
  keep  : List (Nat × Nat)
  bytes : List WByte
  fe    : List (Nat × Nat)
deriving DecidableEq, Repr

/-- An event in a die's queue (R305). -/
structure DieEvent where
  info    : TrapInfo
  core    : Nat
  pasid   : Nat
  wid     : Word
  stamp   : Nat
  handled : Bool
deriving DecidableEq, Repr

/-- A fault record (R346), with its number on the die. -/
structure FaultRec where
  ev  : DieEvent
  seq : BitVec 32
deriving DecidableEq, Repr

/-- A machine-check entry (R348). -/
structure McEntry where
  unit  : BitVec 8
  sev   : BitVec 8
  loc   : BitVec 16
  count : BitVec 32
  pa    : Nat
  stamp : Nat
deriving DecidableEq, Repr

/-- A host launch page's window (R326, R327). -/
structure LaunchPage where
  window : List Byte
  seq    : BitVec 16
  code   : BitVec 8
deriving DecidableEq, Repr

/-- One compute die's uncore state and its controller's registers (R305 to R310). -/
structure DieState where
  fstat   : Word
  fepc    : Word
  fvec    : Word
  fcore   : Word
  fsaveb  : Word
  snapctl : Word
  einj    : Word
  events  : List DieEvent
  /-- log-only events that found the queue full, oldest first (R296, R305) -/
  late    : List DieEvent
  up      : Bool
  retired : Bool
  urst    : Bool
  crst    : Bool
  /-- reset requests written to DCTL: core, uncore (R318) -/
  dctl    : BitVec 2
  acsel   : BitVec 6
  flprod  : BitVec 32
  flcons  : BitVec 32
  fllost  : BitVec 32
  flog    : List (Nat × FaultRec)
  mcprod  : BitVec 32
  mclog   : List (Nat × McEntry)
  mccount : List (Nat × BitVec 32)
  active  : Bank
  shadow  : Bank
  pages   : List (Nat × LaunchPage)
  /-- the three levels of R337: the shared cache, and the caches of its tile cores and engines by number; and the image cache
  (R338) -/
  tlb     : List TlbEntry
  upper   : List (Nat × List TlbEntry)
  icache  : List TlbEntry
  /-- ATS Translation Requests in flight -/
  ats     : List AtsReq
  /-- ATS failures that their askers have not yet taken (R337): asker, PASID, page address -/
  atsFail : List (Asker × Nat × Nat)
  iq      : List Nat
  splices : List (Nat × SplCtx)
  rows    : List Row
  saves   : List (Nat × Save)
  /-- page requests and host records of launch checks (R350): the first by PASID -/
  prqs    : List (Nat × PageReq)
  checks  : List HostCheck
  /-- the microprogram stores of the sequencers of the die's 32 central arrays (R3), bytes that are not 0 by address (R334) -/
  micro   : Vector (List Host.Cell) 32
deriving DecidableEq, Repr

/-! ### The partition controller, boot, power and the host link -/

/-- A partition mailbox (R314). -/
structure Mailbox where
  cmd : BitVec 32
  lat : BitVec 32
  arg : Word
  res : BitVec 32
deriving DecidableEq, Repr

/-- A command that the partition controller has still to take, or is carrying out (R316). -/
inductive MbCmd where
  | mailbox (p : BitVec 2) (cmd : BitVec 32) (arg : Word)
  | load
deriving DecidableEq, Repr

/-- The TDISP states (R366). -/
inductive Tdi where
  | unlocked | locked | run | error
deriving DecidableEq, Repr

/-- A physical function (R364 to R367). (DESIGN CHOICE: log 139) -/
structure Pf where
  active  : Bool
  /-- the base of the 1 TiB window, as the host has set it (R44) -/
  bar0    : Nat
  tdi     : Tdi
  mask    : BitVec 80
  pending : BitVec 80
  /-- the cycle of each vector's last message, and the vectors with an event within a microsecond of it (R367) -/
  sent    : List (Nat × Nat)
  again   : BitVec 80
  sessions : List Nat
  /-- a Function Level Reset that waits for drains (R364) -/
  flr     : Bool
  /-- the last SPDM answer: none for UnexpectedRequest -/
  spdm    : Option (List Byte)
deriving DecidableEq, Repr

/-- The state of one entropy value's path (R253, R371), keyed by
`((64 * partition + slot) * 4096 + endpoint) * 16 + value`. (DEDUCED: log 128) -/
structure PathState where
  rtt      : BitVec 16
  inflight : BitVec 16
  /-- marks of the last acknowledged packets, newest first, at most 256 -/
  ecn      : List Bool
  timeouts : Nat
  dead     : Bool
  /-- the cycle at which it died, or its last probe left, and the probes in flight (R371) -/
  probed   : Nat
  probes   : Nat
  /-- the local port and the UDP source port of the last packet on it (R371) -/
  port     : Nat
  source   : BitVec 16
deriving DecidableEq, Repr

/-- The state of one interposer link (R359): how often its flit has been sent again, and whether it is down. Link
`2 (6 y + x)` runs from stop (x, y) to (x + 1, y), the next number to (x, y + 1). (DESIGN CHOICE: log 123) -/
structure LinkState where
  retries : Nat
  down    : Bool
deriving DecidableEq, Repr

/-- XD0's own state: partition mode, mailboxes, keys, boot and power words (R308, R313, R320, R361, R374). -/
structure Xd0 where
  lat0     : BitVec 16
  mode     : BitVec 2
  mailboxes : RegFile 2 Mailbox
  queue    : List MbCmd
  /-- a SWAP or REVOKE that has been accepted and not completed -/
  busy     : Bool
  /-- a REVOKE that runs: context slot, base and length (R343) -/
  revoke   : Option (Nat × Nat × Nat)
  keys     : List (Nat × List Byte)
  keymap   : List (Nat × BitVec 10)
  phase    : BitVec 4
  err      : BitVec 8
  svn      : BitVec 8
  baddr    : Word
  blen     : Word
  image    : List Byte
  pwrnow   : BitVec 32
  pwrcap   : BitVec 32
  tinlet   : BitVec 32
  tjmax    : BitVec 32
  cutting  : Bool
  /-- the issue rate of each die's cores that power management sets, in sixteenths (R332, R361) -/
  rates    : RegFile 2 (BitVec 5)
  /-- above 110.0 °C, and since when (R362) -/
  hot      : Bool
  hotAt    : Nat
  /-- dies in the retirement record (R319) -/
  retire   : List (BitVec 2)
deriving DecidableEq, Repr

/-- A move that the outside world, or the schedule of the module's parallel parts, makes. (DESIGN CHOICE: log 3) -/
inductive Move where
  /-- a row of the opcode table without an encoding, with its operands -/
  | event (i : Instr)
  /-- the same, of a given agent -/
  | on (core : Nat) (i : Instr)
  /-- the agent issues its next bundle -/
  | issueOn (core : Nat)
  /-- a splice context makes its next release (R123, R125), an event of the unit that has no row in the table -/
  | release (die : BitVec 2) (ctx : BitVec 6)
  /-- the shared cache refills a cache above it (R337) -/
  | refill (die : BitVec 2) (cache : Nat) (e : TlbEntry)
deriving DecidableEq, Repr

/-- The state of the module. -/
structure State where
  /-- the active agent's private state and number: tile core 128d + 16c + k, or 512 + d for the controller of die d -/
  core    : CoreState
  coreId  : Nat
  /-- every other agent that is not in its reset state, by number -/
  parked  : List (Nat × CoreState)
  /-- what each byte holds before the writes in `writes`; an unlisted address reads as 0 -/
  mem     : List Host.Cell
  /-- bytes of `mem` that read uncorrectable -/
  poison  : List Nat
  /-- the release that the write of a byte of `mem` was, where it was one (R132) -/
  baseRel : List (Nat × Release)
  /-- the writes that some reader may still tell from `mem`, in coherence order -/
  writes  : List Write
  nextId  : Nat
  /-- full granules (address div 16) and the write that set each -/
  fe      : List (Nat × Nat)
  tags    : List (Nat × Tag)
  /-- barrier records that are not idle and fresh, by 1024 * core + number -/
  bars    : List (Nat × BarRec)
  /-- E(W) of R137 -/
  epochs  : Vector Word 512
  cmds    : List Cmd
  /-- core snapshot registers that are not 0 (R356) -/
  snaps   : List (Nat × BitVec 512)
  dies    : RegFile 2 DieState
  xd0     : Xd0
  pfs     : RegFile 2 Pf
  /-- event counters of R328, by (64 * partition + slot) * 256 + event: active and shadow bank -/
  events  : List (Nat × EvCtr)
  eventsSh : List (Nat × EvCtr)
  paths   : List (Nat × PathState)
  links   : List (Nat × LinkState)
  /-- Ethernet ports that are up (R373) -/
  ports   : List Nat
  /-- face units retired by repair, and those whose retirement waits for a piece: stack * 4096 + unit (R90, R348) -/
  faceOut : List Nat
  faceReq : List Nat
  /-- each stack's piece queue (R86): stack, command, piece -/
  faceQ   : List (Nat × Nat × Nat)
  /-- ATS invalidations not yet completed (R342) -/
  invals  : List Inval
  /-- MSI-X messages sent, newest first: function and vector (R367) -/
  msix    : List (Nat × Nat)
  /-- the last answer to a BAR0 read: none is an Unsupported Request -/
  bar0    : Option (List Byte)
  /-- whether that answer is poisoned data (R359) -/
  bar0Bad : Bool
  /-- the last answer to a network request: none is a refusal (R372) -/
  netOut  : Option (List Byte)
  /-- whether that answer is poisoned data (R256, R359) -/
  netBad  : Bool
  /-- the next message of each incoming flow in ROD (R250, R372) -/
  flows   : List (Nat × Nat)
  /-- whether the loader answered DROPPED to its last write (R334) -/
  dropped : Bool
  powered : Bool
  /-- the common time base (R356) -/
  time    : Nat
  /-- how many free values have been taken -/
  choice  : Nat
  /-- what the last slot's meaning signals to its bundle -/
  sig     : Signal
  /-- what the captures of a command that is being issued have read: pages that it stakes (R233) -/
  caught  : List Seg
  /-- the moves to come: which part moves next, and what the outside world does -/
  agenda  : List Move
deriving DecidableEq, Repr

/-- Why a step can stop. -/
inductive Fault where
  /-- The module is without power (R362): no part can move until POWER_ON. Raised by `step`. Safe: the manual gives nothing to
  run. -/
  | poweredOff
deriving DecidableEq, Repr

/-- Why a step has no meaning. -/
inductive Refusal where
  /-- An instruction that the model does not give a meaning to. Raised by `exec`'s arms alone. Safe. -/
  | notModelled (mnemonic : String)
  /-- An operation or event of the opcode table whose enabling condition (R130 and the rule of its row) does not hold in
  this state, so that the machine cannot take that step. Raised by the events' meanings. Safe: such a step does not
  exist. -/
  | notEnabled (mnemonic : String)
deriving DecidableEq, Repr

/-! ### Reset values -/

/-- (DESIGN CHOICE: log 5) -/
def Modifier.zero : Modifier := ⟨.lin, 0, 0, 0⟩

/-- +0. -/
def Num.zero : Num := .fin false 0 0

/-- (DESIGN CHOICE: log 5) -/
def Ladder.zero : Ladder := ⟨false, 0, 0, Vector.replicate _ 0, 0, 0, 0, false, none⟩

def Sump.zero : Sump := ⟨false, 0, 0, 0, 0, 0, 0⟩

def LoopStack.zero : LoopStack := ⟨0, Vector.replicate _ 0, Vector.replicate _ 0, Vector.replicate _ 0⟩

def Counters.zero : Counters := ⟨0, 0, 0, 0, 0, 0⟩

def Plane.zero : Plane := ⟨0, 0, 0, 0, 0, [0, 0, 0, 0, 0, 0], [1, 1, 1, 1, 1, 1], 0, 0, 1, 0, [], [], 0⟩

def BTile.zero : Vector Num 1024 := Vector.replicate _ Num.zero

/-- A core with no task: every register as R6 gives it, every store as R50 leaves it. The LFSR holds 1, its least legal
value (R36, R184). `g0` and `k0` are fixed by their readers (R145). (DESIGN CHOICE: log 5) -/
def CoreState.fresh (r : Run) : CoreState where
  run := r
  pc := 0
  s := Vector.replicate _ 0
  a := Vector.replicate _ 0
  m := Vector.replicate _ Modifier.zero
  v := Vector.replicate _ 0
  k := Vector.replicate _ 0
  g := Vector.replicate _ false
  fmt := 0
  fflags := 0
  tstat := 0
  loops := LoopStack.zero
  rsst := 1
  bcnt := 0
  dpc := 0
  dbgctl := 0
  jump := none
  post := none
  pend := []
  locks := []
  staked := []
  seq := 0
  sq := []
  mcast := []
  loads := []
  cnt := Counters.zero
  splits := []
  arrivals := []
  deferred := none
  acc := []
  accErr := []
  wbuf := []
  wbufErr := []
  bActive := BTile.zero
  bStaged := BTile.zero
  fill := none
  beat := none
  ladders := Vector.replicate _ Ladder.zero
  sumps := Vector.replicate _ Sump.zero
  task := none
  plane := Plane.zero
  shadow := none
  spare := Plane.zero
  seen := Vector.replicate _ 0
  obs := []
  own := []
  drainReq := none
  drainRpc := none
  stay := false
  rate := 16
  frz := 0
  after := []

def Bank.empty : Bank := ⟨[], [], [], [], [], [], []⟩

/-- A die before its firmware runs (R309): its core domain is held in reset. (DESIGN CHOICE: log 5) -/
def DieState.reset : DieState where
  fstat := 0
  fepc := 0
  fvec := 0
  fcore := 0
  fsaveb := 0
  snapctl := 0
  einj := 0
  events := []
  late := []
  up := false
  retired := false
  urst := false
  crst := true
  dctl := 0
  acsel := 0
  flprod := 0
  flcons := 0
  fllost := 0
  flog := []
  mcprod := 0
  mclog := []
  mccount := []
  active := Bank.empty
  shadow := Bank.empty
  pages := []
  tlb := []
  upper := []
  icache := []
  ats := []
  atsFail := []
  iq := []
  splices := []
  rows := []
  saves := []
  prqs := []
  checks := []
  micro := Vector.replicate 32 []

/-- XD0 at reset. (DESIGN CHOICE: log 5, 125) -/
def Xd0.reset : Xd0 where
  lat0 := 0x0FA0
  mode := 0
  mailboxes := Vector.replicate _ ⟨0, 0, 0, 0⟩
  queue := []
  busy := false
  revoke := none
  keys := []
  keymap := []
  phase := 0
  err := 0
  svn := 0
  baddr := 0
  blen := 0
  image := []
  pwrnow := 0
  pwrcap := 4400
  tinlet := 0
  tjmax := 0
  cutting := false
  rates := Vector.replicate _ 16
  hot := false
  hotAt := 0
  retire := []

/-- A function at power-on; in mode 0 PF0 is active and PF1 to PF3 are dormant (R364, R376). (DEDUCED: log 120) -/
def Pf.reset (active : Bool) : Pf := ⟨active, 0, .unlocked, BitVec.allOnes 80, 0, [], 0, [], false, none⟩

/-- The module right after power is applied, while XD0's ROM runs (R376 step 1). Every core is held in reset; the
registers read as R6 and the reset columns of the spec's tables give them. (DESIGN CHOICE: log 5, 6) (DEDUCED: log 7) -/
def State.reset : State where
  core := CoreState.fresh .reset
  coreId := 0
  parked := []
  mem := []
  poison := []
  baseRel := []
  writes := []
  nextId := 1
  fe := []
  tags := []
  bars := []
  epochs := Vector.replicate _ 1
  cmds := []
  snaps := []
  dies := Vector.replicate _ DieState.reset
  xd0 := Xd0.reset
  pfs := #v[Pf.reset true, Pf.reset false, Pf.reset false, Pf.reset false]
  events := []
  eventsSh := []
  paths := []
  links := []
  ports := []
  faceOut := []
  faceReq := []
  faceQ := []
  invals := []
  msix := []
  bar0 := none
  bar0Bad := false
  netOut := none
  netBad := false
  flows := []
  dropped := false
  powered := true
  time := 0
  choice := 0
  sig := .none
  caught := []
  agenda := []

/-- The canonical form of a memory: addresses strictly rising, and no entry equal to the 0 that an unlisted address
reads as. (DESIGN CHOICE: log 6) -/
def Memory.wf : List Host.Cell → Bool
  | [] => true
  | [(_, b)] => b ≠ 0
  | (x, b) :: (y, c) :: r => b ≠ 0 && decide (x < y) && Memory.wf ((y, c) :: r)

end Sys2Proof.Machine
end

