-- ==== Sys2Proof/Machine/Fp.lean ====
section
/-! DEFINITION. Number formats and rounding (R26 to R39): exact values, the six rounding modes with the stochastic
mode's LFSR, the conversions with their flags, and E2M1K blocks. Exact values are integers times powers of two; every
result is computed exactly and rounded once. -/

namespace Sys2Proof.Machine

open Sys2Proof

/-! ### Flags and the rounding environment -/

def Flags.nx : Flags := 1
def Flags.uf : Flags := 2
def Flags.ovf : Flags := 4
def Flags.dz : Flags := 8
def Flags.nv : Flags := 16

/-- What a rounding reads and writes: the mode (R36), SAT (R32), the LFSR state S and the flags raised so far (R35). -/
structure Env where
  rnd  : BitVec 3
  sat  : Bool
  lfsr : BitVec 32
  fl   : Flags
deriving DecidableEq, Repr

/-- RNE with no saturation, for roundings that cannot overflow or that R39 and R193 send to infinity. -/
def Env.rne : Env := ⟨0, false, 1, 0⟩

/-- RNE under SAT, the rounding of RoundF32 (R37, R42). -/
def Env.rneSat (sat : Bool) : Env := ⟨0, sat, 1, 0⟩

def Env.raise (e : Env) (f : Flags) : Env := { e with fl := e.fl ||| f }

/-- Raises `f` when `c`. -/
def Env.raiseIf (e : Env) (c : Bool) (f : Flags) : Env := if c then e.raise f else e

/-- One step of the LFSR (R36). -/
def lfsrStep (s : BitVec 32) : BitVec 32 :=
  let b := (s.getLsbD 31 ^^ s.getLsbD 21) ^^ (s.getLsbD 1 ^^ s.getLsbD 0)
  (s <<< 1) ||| (BitVec.ofBool b).setWidth 32

/-! ### Exact arithmetic on values -/

/-- The value of an integer. -/
def Num.ofInt (i : Int) : Num := .fin (decide (i < 0)) i.natAbs 0

def Num.neg : Num → Num
  | .nan => .nan
  | .inf n => .inf !n
  | .fin n m e => .fin (!n) m e

def Num.abs : Num → Num
  | .nan => .nan
  | .inf _ => .inf false
  | .fin _ m e => .fin false m e

def Num.isNan : Num → Bool
  | .nan => true
  | _ => false

def Num.isInf : Num → Bool
  | .inf _ => true
  | _ => false

def Num.isZero : Num → Bool
  | .fin _ 0 _ => true
  | _ => false

/-- A signed integer times a power of two, aligned to exponent `e0 ≤ e`. -/
def scaleTo (neg : Bool) (m : Nat) (e e0 : Int) : Int :=
  let v : Int := (m <<< (e - e0).toNat : Nat)
  if neg then -v else v

/-- The exact product, and whether it makes a NaN from operands that are none (0 times infinity). -/
def Num.mulX : Num → Num → Num × Bool
  | .nan, _ | _, .nan => (.nan, false)
  | .inf a, .inf b => (.inf (a != b), false)
  | .inf a, .fin b m _ => if m = 0 then (.nan, true) else (.inf (a != b), false)
  | .fin a m _, .inf b => if m = 0 then (.nan, true) else (.inf (a != b), false)
  | .fin a m e, .fin b n f => (.fin (a != b) (m * n) (e + f), false)

/-- The exact sum, and whether it makes a NaN from operands that are none. `rd`: an exact zero of operands with unlike
signs is negative under RD and positive under every other mode (IEEE 754-2019). -/
def Num.addX (rd : Bool) : Num → Num → Num × Bool
  | .nan, _ | _, .nan => (.nan, false)
  | .inf a, .inf b => if a = b then (.inf a, false) else (.nan, true)
  | .inf a, .fin _ _ _ => (.inf a, false)
  | .fin _ _ _, .inf b => (.inf b, false)
  | .fin a m e, .fin b n f =>
    let e0 := min e f
    let s := scaleTo a m e e0 + scaleTo b n f e0
    if s = 0 then (.fin (if m = 0 && n = 0 && a = b then a else rd) 0 0, false)
    else (.fin (decide (s < 0)) s.natAbs e0, false)

/-- The exact order of two values that are not NaN: `a < b`. Zeros of either sign are equal. -/
def Num.ltX : Num → Num → Bool
  | .nan, _ | _, .nan => false
  | .inf a, .inf b => a && !b
  | .inf a, .fin _ _ _ => a
  | .fin _ _ _, .inf b => !b
  | .fin a m e, .fin b n f =>
    let e0 := min e f
    decide (scaleTo a m e e0 < scaleTo b n f e0)

/-- Numeric equality; a NaN equals nothing. -/
def Num.eqX (a b : Num) : Bool := !a.isNan && !b.isNan && !a.ltX b && !b.ltX a

def Num.signBit : Num → Bool
  | .nan => false
  | .inf n => n
  | .fin n _ _ => n

/-- The max operator of R88: a NaN in either gives NaN, and −0 is less than +0. -/
def Num.maxX (a b : Num) : Num :=
  if a.isNan || b.isNan then .nan
  else if a.ltX b then b
  else if b.ltX a then a
  else if a.signBit then b else a

/-- The mirror of the max operator (R169, R192). -/
def Num.minX (a b : Num) : Num :=
  if a.isNan || b.isNan then .nan
  else if a.ltX b then a
  else if b.ltX a then b
  else if a.signBit then a else b

/-- ⌊x⌋ of a finite value. -/
def floorInt (neg : Bool) (m : Nat) (e : Int) : Int :=
  if 0 ≤ e then scaleTo neg m e 0
  else
    let k := (-e).toNat
    if neg then -((m + (1 <<< k) - 1) >>> k : Nat) else (m >>> k : Nat)

/-! ### Rounding a magnitude -/

/-- The outcome of rounding the magnitude `m * 2^e` to a multiple of `2^u`: the multiple, whether a nonzero part was
discarded, and the LFSR afterwards (R36). -/
structure Rounded where
  q       : Nat
  inexact : Bool
  lfsr    : BitVec 32
deriving DecidableEq, Repr

/-- R36's ⌊(discarded part ÷ unit) × 2^32⌋ for the remainder `r` of a unit `2^k`. (DEDUCED: log 29) -/
def draw (r k : Nat) : Nat := (r <<< 32) >>> k

/-- Whether a discarded remainder rounds the magnitude up, in a mode and with the LFSR state already stepped. -/
def roundsUp (rnd : BitVec 3) (neg : Bool) (q r k : Nat) (s : BitVec 32) : Bool :=
  let half := 1 <<< (k - 1)
  match rnd with
  | 0#3 => r > half || (r == half && q % 2 == 1)
  | 1#3 => false
  | 2#3 => neg
  | 3#3 => !neg
  | 4#3 => r ≥ half
  | _ => s.toNat < draw r k

/-- Rounds `m * 2^e` to a multiple of `2^u`. Under RS an inexact rounding first steps S, once. -/
def roundMag (rnd : BitVec 3) (neg : Bool) (m : Nat) (e u : Int) (s : BitVec 32) : Rounded :=
  if u ≤ e then ⟨m <<< (e - u).toNat, false, s⟩
  else
    let k := (u - e).toNat
    let q := m >>> k
    let r := m - (q <<< k)
    if r = 0 then ⟨q, false, s⟩
    else
      let s' := if rnd = 5 then lfsrStep s else s
      ⟨if roundsUp rnd neg q r k s' then q + 1 else q, true, s'⟩

/-! ### Floating formats -/

/-- A floating format of R26: exponent width, mantissa width, bias, and whether it has infinities. -/
structure Fmt where
  eb     : Nat
  mb     : Nat
  bias   : Nat
  hasInf : Bool
deriving DecidableEq, Repr

def Fmt.f32 : Fmt := ⟨8, 23, 127, true⟩
def Fmt.bf16 : Fmt := ⟨8, 7, 127, true⟩
def Fmt.f16 : Fmt := ⟨5, 10, 15, true⟩
def Fmt.e4m3 : Fmt := ⟨4, 3, 7, false⟩
def Fmt.e5m2 : Fmt := ⟨5, 2, 15, true⟩

/-- The format of a floating type; the types without one never reach it. -/
def tyFmt : Ty → Fmt
  | .bf16 => .bf16
  | .f16 => .f16
  | .e4m3 => .e4m3
  | .e5m2 => .e5m2
  | _ => .f32

/-- The largest exponent field of a finite value, and the exponent of the smallest normal value. -/
def Fmt.emin (f : Fmt) : Int := 1 - f.bias
def Fmt.expMax (f : Fmt) : Nat := if f.hasInf then 2 ^ f.eb - 2 else 2 ^ f.eb - 1
/-- The largest mantissa at the largest exponent: E4M3 keeps its last code for NaN. -/
def Fmt.mantMax (f : Fmt) : Nat := if f.hasInf then 2 ^ f.mb - 1 else 2 ^ f.mb - 2
def Fmt.maxBits (f : Fmt) : Nat := f.expMax <<< f.mb ||| f.mantMax
/-- The canonical NaN (R28). -/
def Fmt.nanBits (f : Fmt) : Nat :=
  if f.hasInf then (2 ^ f.eb - 1) <<< f.mb ||| 1 <<< (f.mb - 1) else 2 ^ (f.eb + f.mb) - 1
def Fmt.infBits (f : Fmt) (neg : Bool) : Nat :=
  (2 ^ f.eb - 1) <<< f.mb ||| (if neg then 1 <<< (f.eb + f.mb) else 0)
def Fmt.signBits (f : Fmt) (neg : Bool) : Nat := if neg then 1 <<< (f.eb + f.mb) else 0

/-- The value of an encoding (R26). -/
def Fmt.decode (f : Fmt) (b : Nat) : Num :=
  let neg := b.testBit (f.eb + f.mb)
  let ex := (b >>> f.mb) % 2 ^ f.eb
  let mt := b % 2 ^ f.mb
  if f.hasInf && ex = 2 ^ f.eb - 1 then (if mt = 0 then .inf neg else .nan)
  else if !f.hasInf && ex = 2 ^ f.eb - 1 && mt = 2 ^ f.mb - 1 then .nan
  else if ex = 0 then .fin neg mt (f.emin - f.mb)
  else .fin neg (mt + 2 ^ f.mb) ((ex : Int) - f.bias - f.mb)

/-- The encoding of `q * 2^u`, a value that the format holds: `u` is at least the subnormal unit and `q` has at most
`mb + 1` significant bits, or is the power of two above them. -/
def Fmt.encodeExact (f : Fmt) (neg : Bool) (q : Nat) (u : Int) : Nat :=
  let (q, u) := if q = 2 ^ (f.mb + 1) then (2 ^ f.mb, u + 1) else (q, u)
  let ex : Nat := if q < 2 ^ f.mb then 0 else (u + f.mb + f.bias).toNat
  f.signBits neg ||| ex <<< f.mb ||| (q % 2 ^ f.mb)

/-- What overflow delivers (R37): with infinities, by the mode and SAT; E4M3 saturates, or gives NaN in the `.ovfnan`
form. `up` tells whether the magnitude was rounded up, which decides under RS. (DEDUCED: log 29) -/
def Fmt.overflow (f : Fmt) (ovfnan neg up : Bool) (e : Env) : Nat :=
  if f.hasInf then
    let toInf := !e.sat && (match e.rnd with
      | 0#3 | 4#3 => true
      | 1#3 => false
      | 2#3 => neg
      | 3#3 => !neg
      | _ => up)
    if toInf then f.infBits neg else f.signBits neg ||| f.maxBits
  else if ovfnan then f.nanBits
  else f.signBits neg ||| f.maxBits

/-- Rounds a finite magnitude into the format (R36, R37), raising OF, UF and NX (R35). (DEDUCED: log 29) -/
def Fmt.roundFin (f : Fmt) (ovfnan neg : Bool) (m : Nat) (e : Int) (env : Env) : Nat × Env :=
  if m = 0 then (f.signBits neg, env)
  else
    let top : Int := (Nat.log2 m : Int) + e
    let u := max top f.emin - f.mb
    let r := roundMag env.rnd neg m e u env.lfsr
    let env' := { env with lfsr := r.lfsr }
    let maxMag : Nat := f.mantMax + 2 ^ f.mb
    let umax : Int := (f.expMax : Int) - f.bias - f.mb
    if umax < u || (u = umax && maxMag < r.q) then
      let up := decide (m <<< (e - u).toNat < r.q <<< (u - e).toNat)
      (f.overflow ovfnan neg up env, env'.raise (Flags.ovf ||| Flags.nx))
    else
      -- tininess after rounding: the same value rounded with an unbounded exponent and the same S
      let u2 := top - f.mb
      let k2 := (u2 - e).toNat
      let q2 := m >>> k2
      let r2 := m - (q2 <<< k2)
      let q2' := if u2 ≤ e then m <<< (e - u2).toNat
        else if r2 ≠ 0 && roundsUp env.rnd neg q2 r2 k2 r.lfsr then q2 + 1 else q2
      let tiny := decide (top < f.emin) && !(decide (top + 1 = f.emin) && q2' == 2 ^ (f.mb + 1))
      let env' := env'.raiseIf r.inexact Flags.nx
      let env' := env'.raiseIf (r.inexact && tiny) Flags.uf
      (f.encodeExact neg r.q u, env')

/-- Round(f, x, rnd) of R42 for a floating format. -/
def Fmt.round (f : Fmt) (ovfnan : Bool) (x : Num) (env : Env) : Nat × Env :=
  match x with
  | .nan => (f.nanBits, env)
  | .inf n =>
    if f.hasInf then (f.infBits n, env)
    else ((if ovfnan then f.nanBits else f.signBits n ||| f.maxBits), env.raise Flags.ovf)
  | .fin n m e => f.roundFin ovfnan n m e env

/-! ### Integers -/

/-- Least and greatest value of an integer type. -/
def tyLeast (t : Ty) : Int := if t.isSigned then -(2 ^ (t.bits - 1) : Nat) else 0
def tyGreatest (t : Ty) : Int := if t.isSigned then (2 ^ (t.bits - 1) - 1 : Nat) else (2 ^ t.bits - 1 : Nat)

/-- The integer that the bits of an integer type read as. -/
def tyToInt (t : Ty) (b : Nat) : Int :=
  let v := b % 2 ^ t.bits
  if t.isSigned && v.testBit (t.bits - 1) then (v : Int) - (2 ^ t.bits : Nat) else v

/-- The low `w` bits of an integer in two's complement. -/
def intBits (w : Nat) (i : Int) : Nat := (i % ((2 ^ w : Nat) : Int)).toNat

/-- The integral value that a mode gives, judged against a unit of 1. -/
def roundToInt (neg : Bool) (m : Nat) (e : Int) (env : Env) : Int × Bool × Env :=
  let r := roundMag env.rnd neg m e 0 env.lfsr
  (if neg then -(r.q : Int) else r.q, r.inexact, { env with lfsr := r.lfsr })

/-- Clamps to a range. -/
def clampInt (lo hi x : Int) : Int := if x < lo then lo else if hi < x then hi else x

/-- A conversion to an integer type (R37). (DEDUCED: log 32) -/
def cvtInt (t : Ty) (x : Num) (env : Env) : Nat × Env :=
  match x with
  | .nan => (0, env.raise Flags.nv)
  | .inf n => (intBits t.bits (if n then tyLeast t else tyGreatest t), env.raise Flags.nv)
  | .fin n m e =>
    let (i, inexact, env') := roundToInt n m e env
    if i < tyLeast t || tyGreatest t < i then
      (intBits t.bits (clampInt (tyLeast t) (tyGreatest t) i), env'.raise Flags.nv)
    else (intBits t.bits i, env'.raiseIf inexact Flags.nx)

/-! ### Types -/

/-- The value of the bits of a type other than e2m1k. -/
def tyNum (t : Ty) (b : Nat) : Num :=
  if t.isInt then Num.ofInt (tyToInt t b) else (tyFmt t).decode b

/-- Round(type, x, rnd) for any type other than e2m1k (R37). -/
def tyRound (t : Ty) (ovfnan : Bool) (x : Num) (env : Env) : Nat × Env :=
  if t.isInt then cvtInt t x env else (tyFmt t).round ovfnan x env

/-- RoundF32 (R42), which is Round(FP32, x, RNE): its value and the flags it raises. `sat` is the SAT of the `fmt` that
the instruction sees (R37). (DEDUCED: log 31) -/
def roundF32 (sat : Bool) (x : Num) : Num × Flags :=
  let (b, e) := Fmt.f32.round false x (Env.rneSat sat)
  (Fmt.f32.decode b, e.fl)

def f32Num (b : BitVec 32) : Num := Fmt.f32.decode b.toNat

/-- The FP32 code of a value that operators have rounded to FP32; a lone or picked E2M1K leaf of a REDUCE beyond FP32 becomes the
infinity of its sign. (DEDUCED: log 74) -/
def f32Bits (x : Num) : BitVec 32 := BitVec.ofNat 32 (Fmt.f32.round false x Env.rne).1

/-! ### Sums and fused operations, each rounded once to FP32 under RNE -/

/-- RoundF32(a + b), with the flags. (DEDUCED: log 31) -/
def addF32 (sat : Bool) (a b : Num) : Num × Flags :=
  let (s, nv) := Num.addX false a b
  let (r, f) := roundF32 sat s
  (r, if nv then f ||| Flags.nv else f)

/-- RoundF32(a × b). -/
def mulF32 (sat : Bool) (a b : Num) : Num × Flags :=
  let (p, nv) := Num.mulX a b
  let (r, f) := roundF32 sat p
  (r, if nv then f ||| Flags.nv else f)

/-- RoundF32(a × b + c), one FMA. (DEDUCED: log 28) -/
def fmaF32 (sat : Bool) (a b c : Num) : Num × Flags :=
  let (p, nv1) := Num.mulX a b
  let (s, nv2) := Num.addX false p c
  let (r, f) := roundF32 sat s
  (r, if nv1 || nv2 then f ||| Flags.nv else f)

/-- An exact sum of products as R39 takes it: the running sum of the finite products, and which infinities, NaNs and
0 × ∞ products stood among them. `negz`: every product so far is −0. (DEDUCED: log 27) -/
structure RunSum where
  sum   : Num
  pinf  : Bool
  ninf  : Bool
  nan   : Bool
  made  : Bool
deriving DecidableEq, Repr

def RunSum.start : RunSum := ⟨.fin true 0 0, false, false, false, false⟩

def RunSum.add (r : RunSum) (a b : Num) : RunSum :=
  match Num.mulX a b with
  | (.nan, true) => { r with nan := true, made := true }
  | (.nan, false) => { r with nan := true }
  | (.inf false, _) => { r with pinf := true }
  | (.inf true, _) => { r with ninf := true }
  | (p, _) => { r with sum := (Num.addX false r.sum p).1 }

/-- The s of R39 and whether the run raises NV. (DEDUCED: log 27) -/
def RunSum.result (r : RunSum) : Num × Bool :=
  let both := r.pinf && r.ninf
  if r.nan || both then (.nan, r.made || both)
  else if r.pinf then (.inf false, false)
  else if r.ninf then (.inf true, false)
  else (r.sum, false)

/-- The exact sum of the products of two lists. -/
def runSum (l : List (Num × Num)) : RunSum := l.foldl (fun r p => r.add p.1 p.2) RunSum.start

/-! ### E2M1K blocks (R29 to R31) -/

/-- The E2M1 magnitudes, doubled: codes 0 to 7. -/
def e2m1Twice (c : Nat) : Nat :=
  match c with
  | 0 => 0 | 1 => 1 | 2 => 2 | 3 => 3 | 4 => 4 | 5 => 6 | 6 => 8 | _ => 12

/-- An element of a block (R29): its value and whether it is a reserved code, which reads as NaN and sets NV. -/
def e2m1kNum (scale knot code : Nat) : Num × Bool :=
  if scale = 0xFF then (.nan, false)
  else if code = 8 then
    match Fmt.e4m3.decode knot with
    | .fin n m e => (.fin n m (e + scale - 127), false)
    | _ => (.nan, true)
  else (.fin (decide (8 < code)) (e2m1Twice (code % 8)) ((scale : Int) - 128), false)

/-- A block of 32 elements: codes, scale and knot. -/
structure Block where
  codes : List Nat
  scale : Nat
  knot  : Nat
deriving DecidableEq, Repr

/-- The pivot of R31: the value of largest magnitude, of equals the first. -/
def pivot (xs : List Num) : Num :=
  xs.foldl (fun p x => if p.abs.ltX x.abs then x else p) (.fin false 0 0)

/-- ⌊log2⌋ of a finite nonzero magnitude. -/
def Num.log2Floor : Num → Int
  | .fin _ m e => (Nat.log2 m : Int) + e
  | _ => 0

def Num.scale (x : Num) (k : Int) : Num :=
  match x with
  | .fin n m e => .fin n m (e + k)
  | y => y

/-- The candidates of R31 step 3 with their codes: the fifteen E2M1 values other than −0, and the knot. The E2M1 value
comes first, so that it wins a tie. -/
def e2m1Candidates (knot : Nat) : List (Num × Nat) :=
  ([0, 1, 2, 3, 4, 5, 6, 7, 9, 10, 11, 12, 13, 14, 15].map fun c => ((e2m1kNum 127 knot c).1, c)) ++
    [(Fmt.e4m3.decode knot, 8)]

/-- |a − b| of finite values. -/
def Num.dist (a b : Num) : Num := (Num.addX false a b.neg).1.abs

/-- Of two candidates at equal distance: an E2M1 value before the knot; of two E2M1 values, the even code under RNE and
the larger magnitude under RNA (R31). -/
def tiePrefers (rna : Bool) (old new : Num × Nat) : Bool :=
  if new.2 = 8 then false
  else if old.2 = 8 then true
  else if rna then old.1.abs.ltX new.1.abs
  else new.2 % 2 = 0 && old.2 % 2 = 1

/-- The nearest candidate. -/
def nearest (rna : Bool) (y : Num) : List (Num × Nat) → Option (Num × Nat)
  | [] => none
  | c :: cs => some (cs.foldl (fun b x =>
      if (x.1.dist y).ltX (b.1.dist y) then x
      else if (b.1.dist y).ltX (x.1.dist y) then b
      else if tiePrefers rna b x then x else b) c)

/-- The candidate nearest below (or equal), and above (or equal). -/
def candBelow (y : Num) (cs : List (Num × Nat)) : Option (Num × Nat) := nearest false y (cs.filter fun c => !y.ltX c.1)
def candAbove (y : Num) (cs : List (Num × Nat)) : Option (Num × Nat) := nearest false y (cs.filter fun c => !c.1.ltX y)

/-- The candidate of largest magnitude with the sign of `y` (R31). -/
def candEdge (y : Num) (cs : List (Num × Nat)) : Num × Nat :=
  (cs.filter fun c => c.1.signBit == y.signBit).foldl (fun b c => if b.1.abs.ltX c.1.abs then c else b)
    (if y.signBit then (.fin true 1 (-1), 9) else (.fin false 0 0, 0))

/-- ⌊(a ÷ b) × 2^32⌋ of finite magnitudes, `b` not zero. -/
def ratio32 (a b : Num) : Nat :=
  match a, b with
  | .fin _ m e, .fin _ n f =>
    let e0 := min e f
    (m <<< (e - e0).toNat <<< 32) / (n <<< (f - e0).toNat)
  | _, _ => 0

/-- Encodes one scaled element against a block's candidates (R31 steps 3 to 6). -/
def e2m1Encode (knot : Nat) (y : Num) (env : Env) : Nat × Env :=
  let cs := e2m1Candidates knot
  if y.isZero then (0, env)
  else
    let edge := candEdge y cs
    let beyond := edge.1.abs.ltX y.abs
    if beyond then (edge.2, env.raise (Flags.ovf ||| Flags.nx))
    else
      let pick (c : Option (Num × Nat)) : Nat × Env :=
        match c with
        | some c => (c.2, env.raiseIf (!c.1.eqX y) Flags.nx)
        | none => (edge.2, env.raiseIf (!edge.1.eqX y) Flags.nx)
      match env.rnd with
      | 0#3 => pick (nearest false y cs)
      | 4#3 => pick (nearest true y cs)
      | 1#3 => pick (if y.signBit then candAbove y cs else candBelow y cs)
      | 2#3 => pick (candBelow y cs)
      | 3#3 => pick (candAbove y cs)
      | _ =>
        match candBelow y cs, candAbove y cs with
        | some lo, some hi =>
          if lo.1.eqX y then (lo.2, env)
          else if hi.1.eqX y then (hi.2, env)
          else
            let s := lfsrStep env.lfsr
            let env := { env with lfsr := s }.raise Flags.nx
            let (near, far) := if y.signBit then (hi, lo) else (lo, hi)
            if s.toNat < ratio32 (y.dist near.1) (hi.1.dist lo.1) then (far.2, env) else (near.2, env)
        | some c, none | none, some c => pick (some c)
        | none, none => pick none

/-- The conversion of 32 values to one block (R31). (DEDUCED: log 150) -/
def packBlock (xs : List Num) (env : Env) : Block × Env :=
  if xs.any fun x => x.isNan || x.isInf then (⟨xs.map fun _ => 0, 0xFF, 0⟩, env.raise Flags.nv)
  else
    let p := pivot xs
    if p.isZero then (⟨xs.map fun _ => 0, 0x7F, 0⟩, env)
    else
      let s := clampInt 0 254 (p.log2Floor - 2 + 127)
      let (k, env) := Fmt.e4m3.round false (p.scale (127 - s)) env
      let (codes, env) := xs.foldl (fun (acc : List Nat × Env) x =>
        let (c, e) := e2m1Encode k (x.scale (127 - s)) acc.2
        (acc.1 ++ [c], e)) ([], env)
      (⟨codes, s.toNat, k⟩, env)

end Sys2Proof.Machine
end

