-- ==== Sys2Proof/Machine/Mem.lean ====
section
/-! DEFINITION. Memory: sorted stores by key, the device physical map (R44, R45), the order machine's reads and writes
(R129 to R132), full-empty bits (R49) and writer tags (R137, R138). -/

namespace Sys2Proof.Machine

open Sys2Proof

/-! ### Lists sorted by key -/

/-- The value at a key, or a default. -/
def kget {α : Type} (d : α) : List (Nat × α) → Nat → α
  | [], _ => d
  | (k, v) :: r, x => if k = x then v else kget d r x

/-- The value at a key, if it is listed. -/
def kfind {α : Type} : List (Nat × α) → Nat → Option α
  | [], _ => none
  | (k, v) :: r, x => if k = x then some v else kfind r x

/-- Sets the value at a key, keeping the keys rising. -/
def kset {α : Type} : List (Nat × α) → Nat → α → List (Nat × α)
  | [], x, v => [(x, v)]
  | (k, w) :: r, x, v =>
    if x < k then (x, v) :: (k, w) :: r
    else if x = k then (x, v) :: r
    else (k, w) :: kset r x v

/-- Removes a key. -/
def kdel {α : Type} : List (Nat × α) → Nat → List (Nat × α)
  | [], _ => []
  | (k, w) :: r, x => if k = x then kdel r x else (k, w) :: kdel r x

/-- Sets a value, listing nothing where it equals the default. -/
def kput {α : Type} [DecidableEq α] (d : α) (l : List (Nat × α)) (x : Nat) (v : α) : List (Nat × α) :=
  if v = d then kdel l x else kset l x v

/-- Adds a number to a rising list of numbers. -/
def sinsert : List Nat → Nat → List Nat
  | [], x => [x]
  | k :: r, x => if x < k then x :: k :: r else if x = k then k :: r else k :: sinsert r x

/-- A byte of a memory: an unlisted address reads as 0 (R50, R318, R376). (DESIGN CHOICE: log 6) -/
def memGet (m : List Host.Cell) (a : Nat) : Byte := kget 0 m a

/-- Writes a byte, keeping the canonical form. -/
def memSet (m : List Host.Cell) (a : Nat) (b : Byte) : List Host.Cell := kput 0 m a b

/-! ### Little-endian bytes -/

def natOfBytes (l : List Byte) : Nat := l.foldr (fun b n => b.toNat + 256 * n) 0

def bytesOfNat : Nat → Nat → List Byte
  | 0, _ => []
  | n + 1, v => BitVec.ofNat 8 v :: bytesOfNat n (v / 256)

/-- Bytes [lo, lo + n) of a list as a number. -/
def fieldNat (l : List Byte) (lo n : Nat) : Nat := natOfBytes ((l.drop lo).take n)

/-! ### Cores and dies -/

/-- The die of an agent: a tile core 128d + 16c + k, or the controller 512 + d. -/
def dieOf (core : Nat) : BitVec 2 := BitVec.ofNat 2 (if core < 512 then core / 128 else core - 512)

/-- The cluster of a tile core; a die controller stands in a cluster of its own. -/
def clusterOf (core : Nat) : Nat := if core < 512 then core / 16 else core

def isController (core : Nat) : Bool := 512 ≤ core

def allDies : List (BitVec 2) := [0, 1, 2, 3]
def allPaths : List Path := [.core, .copy, .tensor, .splice, .network]

def State.die (s : State) (d : BitVec 2) : DieState := s.dies.get d.toFin

def State.setDie (s : State) (d : BitVec 2) (x : DieState) : State := { s with dies := s.dies.set d.toNat x d.isLt }

def State.mapDie (s : State) (d : BitVec 2) (f : DieState → DieState) : State := s.setDie d (f (s.die d))

/-! ### The device physical map -/

/-- The regions of R44, and host memory. -/
inductive Region where
  | control | pool (d : BitVec 2) | sp (core : Nat) | stack | none | host
deriving DecidableEq, Repr

/-- The region of a physical address (R44). (DESIGN CHOICE: log 9) -/
def regionOf (pa : Nat) : Region :=
  if Config.hostSpace ≤ pa then .host
  else if pa < Config.controlEnd then .control
  else if Config.poolBase ≤ pa && pa < Config.poolEnd then .pool (BitVec.ofNat 2 ((pa - Config.poolBase) / Config.poolSize))
  else if Config.spBase ≤ pa && pa < Config.spEnd then .sp ((pa - Config.spBase) / Config.localSize)
  else if Config.stackBase ≤ pa && pa < Config.stackEnd then .stack
  else .none

/-- On-die SRAM: scratchpads and pools (R138). -/
def onDie (pa : Nat) : Bool :=
  match regionOf pa with
  | .pool _ | .sp _ => true
  | _ => false

def inScratch (pa : Nat) : Bool :=
  match regionOf pa with
  | .sp _ => true
  | _ => false

/-- The physical address of a byte of a core's scratchpad. -/
def spAddr (core off : Nat) : Nat := Config.spBase + core * Config.localSize + off

/-- The size of a partition's part of stack memory (R45). -/
def partSize (mode : BitVec 2) : Nat :=
  match mode with
  | 0#2 => 0xA000000000
  | 1#2 => 0x5000000000
  | _ => 0x2800000000

/-- Stack, channel, bank group and die within the stack of a stack offset (R45). -/
structure StackPlace where
  stack : Nat
  chan  : Nat
  bg    : Nat
  die   : Nat
deriving DecidableEq, Repr

def stackPlace (mode : BitVec 2) (o : Nat) : StackPlace :=
  match mode with
  | 0#2 => ⟨o / 2 ^ 16 % 8, o / 2 ^ 11 % 32, o / 2 ^ 19 % 4, o / 2 ^ 21 % 20⟩
  | 1#2 =>
    let p := o / partSize 1
    let o' := o % partSize 1
    let i := o' / 2 ^ 16 % 4
    ⟨(if p = 0 then [0, 1, 4, 5] else [2, 3, 6, 7]).getD i 0, o' / 2 ^ 11 % 32, o' / 2 ^ 18 % 4, o' / 2 ^ 20 % 20⟩
  | _ =>
    let p := o / partSize 2
    let o' := o % partSize 2
    ⟨p + 4 * (o' / 2 ^ 16 % 2), o' / 2 ^ 11 % 32, o' / 2 ^ 17 % 4, o' / 2 ^ 19 % 20⟩

/-- Home(pa) of R45: 0 to 255 for a stack, 256 + d for a pool; a scratchpad, host memory and everything else have
none. -/
def homeOf (mode : BitVec 2) (pa : Nat) : Option Nat :=
  match regionOf pa with
  | .stack =>
    let p := stackPlace mode (pa - Config.stackBase)
    some (p.stack * 32 + p.chan)
  | .pool d => some (256 + d.toNat)
  | _ => none

/-- The pool unit that serves a pool address (R45). -/
def poolUnit (pa : Nat) : Nat := (pa - Config.poolBase) % Config.poolSize / 2 ^ 11 % 16

/-- The dies of a partition (R313). -/
def partOfDie (mode : BitVec 2) (d : BitVec 2) : Nat :=
  match mode with
  | 0#2 => 0
  | 1#2 => d.toNat / 2
  | _ => d.toNat

def partDies (mode : BitVec 2) (p : Nat) : List (BitVec 2) := allDies.filter fun d => partOfDie mode d == p

def partCount (mode : BitVec 2) : Nat :=
  match mode with
  | 0#2 => 1
  | 1#2 => 2
  | _ => 4

/-- Whether a partition may reach a physical address (R313). -/
def partOwns (mode : BitVec 2) (p : Nat) (pa : Nat) : Bool :=
  match regionOf pa with
  | .stack => (pa - Config.stackBase) / partSize mode == p
  | .pool d => partOfDie mode d == p
  | .sp c => partOfDie mode (dieOf c) == p
  | .host => true
  | _ => false

/-- The function of a partition (R313). -/
def pfOf (part : Nat) : BitVec 2 := BitVec.ofNat 2 part

def State.pf (s : State) (p : BitVec 2) : Pf := s.pfs.get p.toFin

/-! ### The interposer mesh (R2, R358, R359) -/

/-- The mesh stop of a socket. -/
def stopOf (k : Nat) : Nat × Nat :=
  if k < 4 then (k + 1, 1) else if k < 8 then (k - 3, 0) else if k < 12 then (k - 7, 2) else if k = 12 then (0, 1) else (5, 1)

/-- The links along x at row `y`, and along y at column `x`. (DESIGN CHOICE: log 123) -/
def linksX (y a b : Nat) : List Nat := (List.range (max a b - min a b)).map fun i => 2 * (6 * y + (min a b + i))
/-- (DESIGN CHOICE: log 123) -/
def linksY (x a b : Nat) : List Nat := (List.range (max a b - min a b)).map fun i => 2 * (6 * (min a b + i) + x) + 1

/-- The route of R358 between two sockets, and the detour of R359. -/
def xFirst (a b : Nat) : List Nat :=
  let (xa, ya) := stopOf a
  let (xb, yb) := stopOf b
  linksX ya xa xb ++ linksY xb ya yb
def yFirst (a b : Nat) : List Nat :=
  let (xa, ya) := stopOf a
  let (xb, yb) := stopOf b
  linksY xa ya yb ++ linksX yb xa xb

/-- Whether two sockets have a route left. (DEDUCED: log 51) -/
def reachable (links : List (Nat × LinkState)) (a b : Nat) : Bool :=
  let up (l : List Nat) : Bool := links.all fun x => !(x.2.down && l.contains x.1)
  up (xFirst a b) || up (yFirst a b)

/-- The socket that holds an address. The blocks of sockets 14 and 15, and control space above them, belong to no socket: the
interposer refuses them, whatever links are up (R2, R360). -/
def socketOf (mode : BitVec 2) (pa : Nat) : Option Nat :=
  match regionOf pa with
  | .stack => some (4 + (stackPlace mode (pa - Config.stackBase)).stack)
  | .pool d => some d.toNat
  | .sp c => some (dieOf c).toNat
  | .host => some 12
  | .control => if pa / 0x40000000 < 14 then some (pa / 0x40000000) else none
  | .none => none

/-- Whether a route leads from a socket to an address. (DEDUCED: log 51) -/
def linked (s : State) (a pa : Nat) : Bool :=
  match socketOf s.xd0.mode pa with
  | some k => reachable s.links a k
  | none => true

/-- Whether an address is out of use at a die: a scratchpad of a retired die, whose core domain is held in reset (R319, R349), or
host memory while the interface of the die's function is in ERROR (R366). (DEDUCED: log 142) -/
def outOfUse (s : State) (d : BitVec 2) (pa : Nat) : Bool :=
  match regionOf pa with
  | .sp k => (s.die (dieOf k)).retired
  | .host => (s.pf (pfOf (partOfDie s.xd0.mode d))).tdi == .error
  | _ => false

/-- Whether a die reaches an address. (DEDUCED: log 51, 142) -/
def reaches (s : State) (d : BitVec 2) (pa : Nat) : Bool := linked s d.toNat pa && !outOfUse s d pa

/-! ### MSI-X (R367) -/

def State.setPf (s : State) (p : BitVec 2) (x : Pf) : State := { s with pfs := s.pfs.set p.toNat x p.isLt }

/-- A microsecond at 1.3 GHz. -/
def microsecond : Nat := 1300

/-- Whether a vector has sent a message within the last microsecond. (DEDUCED: log 120) -/
def heldOff (s : State) (f : Pf) (v : Nat) : Bool := (kfind f.sent v).any fun t => decide (s.time < t + microsecond)

/-- Sends a vector's message, unless the function is dormant, the vector is masked or its message was sent within the
last microsecond. (DEDUCED: log 120) -/
def raiseVector (s : State) (p : BitVec 2) (v : Nat) : State :=
  let f := s.pf p
  let bit : BitVec 80 := 1#80 <<< v
  if !f.active then s
  else if f.mask.getLsbD v || f.tdi == .error then s.setPf p { f with pending := f.pending ||| bit }
  else if heldOff s f v then s.setPf p { f with again := f.again ||| bit }
  else { (s.setPf p { f with pending := f.pending &&& ~~~bit, sent := kset f.sent v s.time }) with msix := (p.toNat, v) :: s.msix }

/-! ### The machine-check log (R348) -/

/-- Logs a machine-check entry of a die; COUNT is that of the corrected errors at LOC. -/
def logCheck (s : State) (d : BitVec 2) (unit sev : BitVec 8) (loc : BitVec 16) (pa : Nat) : State :=
  let x := s.die d
  let key := 65536 * unit.toNat + loc.toNat
  let n := kget 0 x.mccount key
  let n := if sev = 0 && n != BitVec.allOnes 32 then n + 1 else n
  let e : McEntry := ⟨unit, sev, loc, n, pa, s.time⟩
  let log := kset x.mclog (x.mcprod.toNat % 256) e
  raiseVector (s.setDie d { x with mclog := log, mcprod := x.mcprod + 1, mccount := kput 0 x.mccount key n })
    (pfOf (partOfDie s.xd0.mode d)) (5 + d.toNat)

/-- The socket of XD0, which holds the host link. -/
def hostSocket : Nat := 12

/-- A host write that no route carries is dropped, and the drop is logged (R359). (DEDUCED: log 51) -/
def hostDropped (s : State) (a : Nat) : State :=
  logCheck s (BitVec.ofNat 2 0) 3 1 (BitVec.ofNat 16 ((socketOf s.xd0.mode a).getD 0)) a

/-! ### Writes and reads of the order machine -/

/-- The bytes of one write at an address. (DEDUCED: log 26) -/
def Write.at (w : Write) (pa : Nat) : Option WByte := w.bytes.find? fun b => b.pa == pa

/-- Whether die `d` takes byte `pa` from this write. -/
def Write.heldAt (w : Write) (d : BitVec 2) (pa : Nat) : Bool :=
  w.applied.contains d && (w.at pa).isSome && !w.passed.contains (d, pa)

/-- Whether a write binds readers of path `q` at die `d` (R131). (DEDUCED: log 49) -/
def Write.binds (w : Write) (d : BitVec 2) (q : Path) : Bool := w.path == q || w.joined.contains (d, q)

/-- One write's part in what a read of `pa` may return: a write that binds the reader, or that the reader has already read or
written, ends the claim of every older one (R131). -/
def candidateStep (d : BitVec 2) (q : Path) (own : List Nat) (pa : Nat) (acc : List (Option Write)) (w : Write) :
    List (Option Write) :=
  if w.heldAt d pa then (if w.binds d q || own.contains w.id then [some w] else acc ++ [some w])
  else if own.contains w.id && (w.at pa).isSome then []
  else acc

/-- The writes that a read of `pa` on path `q` at die `d` may return, oldest first; `none` is the initial write. `own`
are the writes that the same reader has already read or written (R131). The list is empty while a write that the reader has
read, at its home, is not yet applied at the die. (DEDUCED: log 11, 126) -/
def candidates (s : State) (d : BitVec 2) (q : Path) (own : List Nat) (pa : Nat) : List (Option Write) :=
  s.writes.foldl (candidateStep d q own pa) [none]

/-- Whether a read of some bytes can be made at a die (R131). (DEDUCED: log 11) -/
def readable (s : State) (d : BitVec 2) (q : Path) (own : List Nat) (pas : List Nat) : Bool :=
  pas.all fun pa => candidates s d q own pa != []

/-- Reads one byte (R131). Where several writes may be returned, a free value picks. A read to a socket that no route reaches
returns poisoned data (R359). (DEDUCED: log 11, 51) -/
def readByte (s : State) (d : BitVec 2) (q : Path) (own : List Nat) (pa : Nat) : ReadByte × State :=
  let pick (w : Option Write) : ReadByte :=
    match w with
    | some w =>
      match w.at pa with
      | some b => ⟨b.val, b.poison, w.id, false⟩
      | none => ⟨memGet s.mem pa, s.poison.contains pa, 0, false⟩
    | none => ⟨memGet s.mem pa, s.poison.contains pa, 0, false⟩
  if !reaches s d pa then (⟨0, true, 0, false⟩, s) else
  match candidates s d q own pa with
  | [w] => (pick w, s)
  | cs => (pick (cs.getD (Config.readChoice s.choice cs.length % cs.length) none), { s with choice := s.choice + 1 })

/-- Reads bytes in order; a read of a later byte is bound by the writes already read (R131). -/
def readBytes (d : BitVec 2) (q : Path) : List Nat → List Nat → State → List ReadByte × List Nat × State
  | _, [], s => ([], [], s)
  | own, pa :: r, s =>
    let (b, s1) := readByte s d q own pa
    let (bs, seen, s2) := readBytes d q (if b.src = 0 then own else b.src :: own) r s1
    (b :: bs, if b.src = 0 then seen else b.src :: seen, s2)

/-- The granule of an address. -/
def granule (pa : Nat) : Nat := pa / 16

/-- Bytes, cut at the multiples of a size, in order of first appearance. -/
def bySize (size : Nat) : Nat → List WByte → List (List WByte)
  | 0, _ => []
  | _, [] => []
  | n + 1, b :: r =>
    let g := b.pa / size
    (b :: r.filter fun x => x.pa / size == g) :: bySize size n (r.filter fun x => x.pa / size != g)

/-- The bytes of a write, cut into granules in order of first appearance. -/
def byGranule : Nat → List WByte → List (List WByte) := bySize 16

/-- The bytes of a scalar store, cut at 2 KiB: each part has one home, and is written in one step (R58, R130). -/
def byHome : Nat → List WByte → List (List WByte) := bySize 2048

/-- The granules of a scratchpad of die `d` that the bytes at `pas` complete become full, by write `id` (R49), in place of
an earlier one that filled them. (DEDUCED: log 41) -/
def fillAt (fe : List (Nat × Nat)) (d : BitVec 2) (id : Nat) (pas : List Nat) : List (Nat × Nat) :=
  pas.foldl (fun l pa => match regionOf pa with
    | .sp k => if dieOf k = d then kset l (granule pa) id else l
    | _ => l) fe

/-- Places one write at the end of the coherence order, applied at its die (R130). `full` lists bytes
whose granules it completes (R49). -/
def placeOne (s : State) (d : BitVec 2) (path : Path) (core task prod : Nat) (rel : Option Release) (full : List Nat)
    (bytes : List WByte) : State :=
  { s with
    writes := s.writes ++ [⟨s.nextId, path, d, core, task, bytes, [d], [], full, [], rel, prod⟩]
    fe := fillAt s.fe d s.nextId full
    nextId := s.nextId + 1 }

/-- The bytes that a die can write: those to a socket that no route reaches are dropped, and the drop is logged (R359). -/
def routed (s : State) (d : BitVec 2) (bytes : List WByte) : List WByte × State :=
  (bytes.filter fun b => reaches s d b.pa,
    match bytes.find? fun b => !linked s d.toNat b.pa with
    | some b => logCheck s d 3 1 (BitVec.ofNat 16 ((socketOf s.xd0.mode b.pa).getD 0)) b.pa
    | none => s)

/-- Places the granules of a write in order; those of the bytes in `full` become full where the write is applied at their own
die (R49). Bytes that no route takes are dropped. (DEDUCED: log 49) -/
def place (s : State) (d : BitVec 2) (path : Path) (core task prod : Nat) (rel : Option Release) (full : List Nat)
    (bytes : List WByte) : State :=
  let (go, s) := routed s d bytes
  (byGranule go.length go).foldl (fun s g =>
    placeOne s d path core task prod rel ((g.map (·.pa)).filter full.contains) g) s

/-- Tags the on-die granules that a write touches (R137). -/
def tagBytes (s : State) (t : Tag) (bytes : List WByte) : State :=
  { s with tags := bytes.foldl (fun l b => if onDie b.pa then kset l (granule b.pa) t else l) s.tags }

def isFull (s : State) (pa : Nat) : Bool := (kfind s.fe (granule pa)).isSome

/-- Empties granules together. -/
def clearFull (s : State) (gs : List Nat) : State := { s with fe := gs.foldl kdel s.fe }

/-- Whether a write has arrived at a die: applied there or in its IQ. A write that is no longer listed has arrived
everywhere. -/
def arrivedAt (s : State) (d : BitVec 2) (w : Write) : Bool := w.applied.contains d || (s.die d).iq.contains w.id

/-- Whether every write of a set has arrived at every die (R132). -/
def allArrived (s : State) (ids : List Nat) : Bool :=
  s.writes.all fun w => !ids.contains w.id || allDies.all fun d => arrivedAt s d w

/-- Whether every write of a set is applied at every die (R134). -/
def allApplied (s : State) (ids : List Nat) : Bool :=
  s.writes.all fun w => !ids.contains w.id || allDies.all fun d => w.applied.contains d

/-- Whether a later write of the coherence order already gives die `d` this byte. -/
def laterHeld (d : BitVec 2) (id pa : Nat) (ws : List Write) : Bool :=
  ws.any fun w => id < w.id && w.heldAt d pa

/-- Applies a write at a die (R130 APPLY). -/
def applyAt (s : State) (d : BitVec 2) (id : Nat) : State :=
  let ws := s.writes
  let s := s.mapDie d fun x => { x with iq := x.iq.filter (· != id) }
  let s := match ws.find? fun w => w.id == id with
    | some w => if w.applied.contains d then s else { s with fe := fillAt s.fe d id w.full }
    | none => s
  { s with writes := ws.map fun w =>
      if w.id = id then
        { w with applied := if w.applied.contains d then w.applied else w.applied ++ [d],
                 passed := w.passed ++ ((w.bytes.filter fun b => laterHeld d id b.pa ws).map fun b => (d, b.pa)) }
      else w }

/-- Empties IQ(d) by APPLY steps, in arrival order (R132). -/
def drainIq (s : State) (d : BitVec 2) : State := ((s.die d).iq).foldl (fun s id => applyAt s d id) s

/-- Joins to every path of `ps` every write applied at `d` that `sel` selects (R134, R135). (DEDUCED: log 97) -/
def joinAt (s : State) (d : BitVec 2) (ps : List Path) (sel : Write → Bool) : State :=
  { s with writes := s.writes.map fun w =>
      if w.applied.contains d && sel w then
        { w with joined := w.joined ++ ((ps.filter fun q => !w.binds d q).map fun q => (d, q)) }
      else w }

/-- A write that every reader at every die is bound to. -/
def Write.settled (w : Write) : Bool :=
  w.passed.isEmpty && allDies.all fun d => w.applied.contains d && allPaths.all fun q => w.binds d q

/-- Writes bytes into the base memory, with their poison marks and the release that the write was. Of a byte listed twice
the first counts, as in `Write.at`. -/
def baseWrite (s : State) (rel : Option Release) (bytes : List WByte) : State :=
  { s with
    mem := bytes.foldr (fun b m => memSet m b.pa b.val) s.mem
    baseRel := match rel with
      | some r => bytes.foldl (fun l b => kset l b.pa r) s.baseRel
      | none => if s.baseRel = [] then [] else bytes.foldl (fun l b => kdel l b.pa) s.baseRel
    poison := bytes.foldr (fun b p => if b.poison then sinsert p b.pa else p.filter (· != b.pa)) s.poison }

/-- Bytes that appear at once for every reader at every die, as the latest of the coherence order: the older writes still listed
give these addresses no longer. -/
def pokeBytes (s : State) (bytes : List WByte) : State :=
  let gone (pa : Nat) : Bool := bytes.any fun b => b.pa == pa
  let s := { s with writes := s.writes.map fun w => { w with bytes := w.bytes.filter fun b => !gone b.pa } }
  baseWrite s none bytes

/-- Whether a load in flight does not see a write (R68). -/
def hides (s : State) (id : Nat) : Bool :=
  let by_ (c : CoreState) : Bool := c.loads.any fun e => e.hidden.contains id
  by_ s.core || s.parked.any fun a => by_ a.2

/-- Moves the settled writes at the head of the coherence order into the base memory: no reader can tell. -/
def settleN : Nat → State → State
  | 0, s => s
  | n + 1, s =>
    match s.writes with
    | w :: r => if w.settled && !hides s w.id then settleN n (baseWrite { s with writes := r } w.rel w.bytes) else s
    | [] => s

/-- What every path has joined becomes the base contents (R129, R134). (DEDUCED: log 126) -/
def settle (s : State) : State := settleN s.writes.length s

/-- The state without some writes, for a load that does not see them (R68). -/
def State.without (s : State) (ids : List Nat) : State := { s with writes := s.writes.filter fun w => !ids.contains w.id }

/-! ### Writer tags -/

/-- The tag of a granule that a plain access by `core` may not pass, if there is one (R138): the granule's first byte,
the writer and its epoch. (DEDUCED: log 47) -/
def raceAt (s : State) (core : Nat) (seen : Vector Word 512) (pa : Nat) : Option (Nat × Nat × Word) :=
  if onDie pa then
    match kfind s.tags (granule pa) with
    | some (.by w e) => if w ≠ core && (seen[w]?.getD 0).toNat < e.toNat then some (16 * granule pa, w, e) else none
    | some (.sync c) => if clusterOf core = c then none else some (16 * granule pa, (Config.syncTag c).1, (Config.syncTag c).2)
    | none => none
  else none

/-- The first granule that fails the race check. (DEDUCED: log 47) -/
def raceOf (s : State) (core : Nat) (seen : Vector Word 512) : List Nat → Option (Nat × Nat × Word)
  | [] => none
  | pa :: r =>
    match raceAt s core seen pa with
    | some t => some t
    | none => raceOf s core seen r

end Sys2Proof.Machine
end

