-- ==== Sys2Proof/Machine/Ops.lean ====
section
/-! DEFINITION. The operations that the meanings share: register reads with the fixed registers of R145, exposed and
interlocked writes (R52 to R54), system registers (R184, R306), traps and their entry (R157, R181, R305) with the return
from them (R182), the loop stack (R175), and translation with its checks (R47, R339, R341). -/

namespace Sys2Proof.Machine

open Sys2Proof

/-- What a meaning answers. -/
abbrev Res := Host.Outcome State Fault Refusal

/-- The slot takes effect. -/
def ok (s : State) : Res := .next { s with sig := .none }

/-! ### Registers -/

def CoreState.rs (c : CoreState) (i : BitVec 6) : Word := if i = 0 then 0 else c.s.get i.toFin
def CoreState.ra (c : CoreState) (i : BitVec 4) : Word := c.a.get i.toFin
def CoreState.rm (c : CoreState) (i : BitVec 4) : Modifier := c.m.get i.toFin
def CoreState.rv (c : CoreState) (i : BitVec 6) : VReg := c.v.get i.toFin
def CoreState.rk (c : CoreState) (i : BitVec 4) : KReg := if i = 0 then BitVec.allOnes 256 else c.k.get i.toFin
def CoreState.rg (c : CoreState) (i : BitVec 3) : Bool := if i = 0 then true else c.g.get i.toFin

/-- A guard field's value (R143): bit 3 negates. -/
def CoreState.guard (c : CoreState) (g : GuardF) : Bool := c.rg (g.extractLsb' 0 3) != g.getLsbD 3

/-- The low four bits of a 6-bit field that names an `a`, `m` or `k` register (R144). -/
def lo4 (x : BitVec 6) : BitVec 4 := x.extractLsb' 0 4
def lo3 (x : BitVec 6) : BitVec 3 := x.extractLsb' 0 3
def lo2 (x : BitVec 6) : BitVec 2 := x.extractLsb' 0 2

def State.setCore (s : State) (c : CoreState) : State := { s with core := c }

/-- The active agent's die. -/
def State.here (s : State) : BitVec 2 := dieOf s.coreId

/-- A write that is never outstanding: a write of `s0` is discarded (R145), and raising no flag is no write. -/
def RegWrite.dropped : RegWrite → Bool
  | .s i _ => i == 0
  | .flags f => f == 0
  | _ => false

/-- An exposed write with latency `lat`, issued by the current bundle (R52). (DEDUCED: log 129) -/
def later (s : State) (lat : Nat) (w : RegWrite) : State :=
  if w.dropped then s
  else
    let n := s.core.bcnt.toNat
    { s with core := { s.core with pend := s.core.pend ++ [{ w := w, due := n + lat, since := n }] } }

/-- Flags that fall due with an exposed result (R185). -/
def laterFlags (s : State) (lat : Nat) (f : Flags) : State := later s lat (.flags f)

/-- An interlocked destination (R54): the registers are pending until INTERLOCKED_LAND writes `res`. `s0` never becomes
pending. -/
def lock (s : State) (regs : List RegRef) (res : Option (List RegWrite)) (counts : Option (BitVec 3)) : Nat × State :=
  let tok := s.core.seq
  (tok, { s with core := { s.core with
      seq := tok + 1
      locks := s.core.locks ++ [⟨tok, regs.filter (· != .s 0), res, counts⟩] } })

/-- The result of an interlocked destination that is a scalar register. -/
def CoreState.answer (c : CoreState) (tok : Nat) (v : Word) : CoreState :=
  let scalar (r : RegRef) : Option RegWrite :=
    match r with
    | .s d => some (.s d v)
    | _ => none
  { c with locks := c.locks.map fun l => if l.tok = tok then { l with result := some (l.regs.filterMap scalar) } else l }

/-! ### Counters (R275) -/

def Counters.get (c : Counters) (i : BitVec 3) : BitVec 16 :=
  match i with
  | 0#3 => c.ld | 1#3 => c.st | 2#3 => c.cp | 3#3 => c.tn | 4#3 => c.nx | _ => c.sp

/-- A completion counter plus a count (R275). (DEDUCED: log 39) -/
def Counters.add (c : Counters) (i : BitVec 3) (d : BitVec 16) : Counters :=
  match i with
  | 0#3 => { c with ld := c.ld + d }
  | 1#3 => { c with st := c.st + d }
  | 2#3 => { c with cp := c.cp + d }
  | 3#3 => { c with tn := c.tn + d }
  | 4#3 => { c with nx := c.nx + d }
  | _ => { c with sp := c.sp + d }

def CoreState.count (c : CoreState) (i : BitVec 3) (d : BitVec 16) : CoreState := { c with cnt := c.cnt.add i d }

def CoreState.countersZero (c : CoreState) : Bool := c.cnt == Counters.zero

/-! ### Flags into fflags -/

def CoreState.orFlags (c : CoreState) (f : Flags) : CoreState := { c with fflags := c.fflags ||| f.setWidth 32 }

/-! ### System registers (R184, R306, R355) -/

/-- A system register of the tile core. -/
def CoreState.sysRead (c : CoreState) (n : BitVec 12) : Word :=
  match n with
  | 0x010#12 => c.fmt.setWidth 64
  | 0x011#12 => c.fflags.setWidth 64
  | 0x012#12 => c.tstat.setWidth 64
  | 0x013#12 => c.loops.depth.setWidth 64
  | 0x014#12 => c.loops.lcnt.get 0 | 0x015#12 => c.loops.lcnt.get 1
  | 0x016#12 => c.loops.lcnt.get 2 | 0x017#12 => c.loops.lcnt.get 3
  | 0x018#12 => c.loops.lbeg.get 0 | 0x019#12 => c.loops.lbeg.get 1
  | 0x01A#12 => c.loops.lbeg.get 2 | 0x01B#12 => c.loops.lbeg.get 3
  | 0x01C#12 => c.loops.lend.get 0 | 0x01D#12 => c.loops.lend.get 1
  | 0x01E#12 => c.loops.lend.get 2 | 0x01F#12 => c.loops.lend.get 3
  | 0x020#12 => c.rsst.setWidth 64
  | 0x021#12 => c.bcnt
  | 0x022#12 => c.dpc
  | 0x0D0#12 => c.dbgctl.setWidth 64
  | _ => 0

/-- Clears bits [3:0]. (DEDUCED: log 107) -/
def align16 (x : Word) : Word := x &&& ~~~15#64

/-- What an MTS write of a tile core's register does when it lands (R32, R35, R55, R80, R184). (DEDUCED: log 36) -/
def CoreState.sysWrite (c : CoreState) (n : BitVec 12) (x : Word) : CoreState :=
  let lcnt (i : Fin 4) := { c with loops := { c.loops with lcnt := c.loops.lcnt.set i x } }
  let lbeg (i : Fin 4) := { c with loops := { c.loops with lbeg := c.loops.lbeg.set i (align16 x) } }
  let lend (i : Fin 4) := { c with loops := { c.loops with lend := c.loops.lend.set i (align16 x) } }
  match n with
  | 0x010#12 => { c with fmt := x.setWidth 32 &&& 0xFFFFF#32 }
  | 0x011#12 => { c with fflags := x.setWidth 32 &&& 0x1F#32 }
  | 0x012#12 => { c with tstat := c.tstat &&& ~~~(x.setWidth 32) }
  | 0x013#12 => { c with loops := { c.loops with depth := x.setWidth 3 } }
  | 0x014#12 => lcnt 0 | 0x015#12 => lcnt 1 | 0x016#12 => lcnt 2 | 0x017#12 => lcnt 3
  | 0x018#12 => lbeg 0 | 0x019#12 => lbeg 1 | 0x01A#12 => lbeg 2 | 0x01B#12 => lbeg 3
  | 0x01C#12 => lend 0 | 0x01D#12 => lend 1 | 0x01E#12 => lend 2 | 0x01F#12 => lend 3
  | 0x020#12 => { c with rsst := if x.setWidth 32 = 0#32 then 1 else x.setWidth 32 }
  | 0x0D0#12 => { c with dbgctl := x.setWidth 32 &&& 1#32 }
  | _ => c

/-- FCAUSE of the event at the head of the queue (R306); 0 when the queue is empty. -/
def DieState.fcause (x : DieState) : Word :=
  match x.events.head? with
  | none => 0
  | some e =>
    let core : BitVec 8 := if e.core < 512 then BitVec.ofNat 8 (e.core % 128) else 0xFF
    (0#24 ++ e.info.code ++ e.info.kind ++ 0#8 ++ core ++ e.info.cause)

/-- The firmware-mode register numbers of R306 and R295. -/
def firmwareReg (n : BitVec 12) : Bool :=
  n ∈ [0x100#12, 0x101#12, 0x102#12, 0x103#12, 0x104#12, 0x105#12, 0x106#12, 0x110#12, 0x111#12, 0x1E0#12, 0x1F0#12]

/-- Firmware registers that MTS may not write, and that MFS may not read (R306). (DEDUCED: log 106) -/
def firmwareRO (n : BitVec 12) : Bool := n ∈ [0x103#12, 0x104#12, 0x105#12]
/-- The write-only registers of R306. (DEDUCED: log 106) -/
def firmwareWO (n : BitVec 12) : Bool := n = 0x106#12

/-- A firmware register (R295, R306). -/
def DieState.sysRead (x : DieState) (n : BitVec 12) : Word :=
  match n with
  | 0x100#12 => x.fstat
  | 0x101#12 => x.fepc
  | 0x102#12 => x.fvec
  | 0x103#12 => x.fcause
  | 0x104#12 => (x.events.head?.map fun e => e.info.info0).getD 0
  | 0x105#12 => (x.events.head?.map fun e => e.info.info1).getD 0
  | 0x110#12 => x.fcore
  | 0x111#12 => x.fsaveb
  | 0x1E0#12 => x.einj
  | 0x1F0#12 => x.snapctl
  | _ => 0

/-- EINJ's writable fields; ARM does not stay with COUNT 0 (R295). -/
def einjStore (x : Word) : Word := x &&& 0xFF01FF07#64

/-- A write of a firmware register (R295, R306), FPOP aside. (DEDUCED: log 105) -/
def DieState.sysWrite (d : DieState) (n : BitVec 12) (x : Word) : DieState :=
  match n with
  | 0x100#12 => { d with fstat := (x &&& 5#64) ||| (d.fstat &&& 2#64) }
  | 0x101#12 => { d with fepc := x }
  | 0x102#12 => { d with fvec := align16 x }
  | 0x110#12 => { d with fcore := x &&& 0x7F#64 }
  | 0x111#12 => { d with fsaveb := x &&& ~~~0x1FFFFF#64 }
  | 0x1E0#12 => { d with einj := einjStore x }
  | 0x1F0#12 => { d with snapctl := x &&& 1#64 }
  | _ => d

/-! ### Agents -/

/-- The state in which an agent that is not listed stands. -/
def State.idle (s : State) (core : Nat) : CoreState :=
  CoreState.fresh (if (s.die (dieOf core)).crst || isController core then .reset else .free)

/-- Every agent that has a state of its own, with its number. -/
def State.agents (s : State) : List (Nat × CoreState) := (s.coreId, s.core) :: s.parked

/-- The private state of any agent. (DESIGN CHOICE: log 8) -/
def State.agent (s : State) (core : Nat) : CoreState :=
  if core = s.coreId then s.core else (kfind s.parked core).getD (s.idle core)

/-- The number of the active task's life; 0 where there is none. -/
def State.uid (s : State) : Nat := (s.core.task.map (·.uid)).getD 0

/-- Whether a write, or a command, of task `task` of core `core` is the active agent's own: a controller has no task. -/
def State.owns (s : State) (task core : Nat) : Bool :=
  match s.core.task with
  | some t => t.uid == task
  | none => task == 0 && core == s.coreId

/-- The epoch of a core advances (R137). (DEDUCED: log 140) -/
def State.stepEpoch (s : State) (k : Nat) : State :=
  { s with epochs := if h : k < 512 then s.epochs.set k (s.epochs[k] + 1) else s.epochs }

/-- Replaces the private state of any agent. (DESIGN CHOICE: log 8) -/
def State.setAgent (s : State) (core : Nat) (c : CoreState) : State :=
  if core = s.coreId then { s with core := c } else { s with parked := kset s.parked core c }

def State.mapAgent (s : State) (core : Nat) (f : CoreState → CoreState) : State := s.setAgent core (f (s.agent core))

/-- Makes an agent the active one. (DESIGN CHOICE: log 8) -/
def State.switchTo (s : State) (core : Nat) : State :=
  if core = s.coreId then s
  else
    let c := s.agent core
    { s with core := c, coreId := core, parked := kset (kdel s.parked core) s.coreId s.core }

/-! ### Traps -/

/-- A trap with the fields that most causes fill (R346). -/
def TrapInfo.mk0 (cause : Cause) (kind : BitVec 8) (info0 info1 : Word) : TrapInfo :=
  ⟨cause, 0, kind, info0, info1, 0, 0, 0, 0, 0, 0, 0⟩

/-- An ending trap at the bundle of the active agent (R157, R307). (DEDUCED: log 19) -/
def endTrap (s : State) (cause : Cause) (info1 : Word) : TrapInfo := TrapInfo.mk0 cause 1 s.core.pc info1

/-- The slot traps: its bundle takes no effect, and the bundle's step takes the trap (R157 stage 4). -/
def trap (s : State) (t : TrapInfo) : Res := .next { s with sig := .trapped t }

/-- The slot holds its bundle (R157 stage 5). -/
def hold (s : State) (h : Hold) : Res := .next { s with sig := .held h [] }

def holdAts (s : State) (reqs : List (Nat × Nat × Bool)) : Res := .next { s with sig := .held .translation reqs }

/-- Puts an event into a die's queue, if it has room (R305). Answers whether it had. -/
def pushEvent (s : State) (d : BitVec 2) (e : DieEvent) : State × Bool :=
  if (s.die d).events.length < 1024 then (s.mapDie d fun x => { x with events := x.events ++ [e] }, true) else (s, false)

/-- The wid and PASID that an event of an agent carries. -/
def eventOf (core : Nat) (c : CoreState) (t : TrapInfo) (stamp : Nat) : DieEvent :=
  ⟨t, core, (c.task.map (·.pasid)).getD 0, if c.task.isSome then c.plane.wid else 0, stamp, false⟩

/-- The block of a core shows a suspension record (R345). (DEDUCED: log 58) -/
def noteSuspension (s : State) (k : Nat) (c : CoreState) (pc rpc : Word) (kind : BitVec 8) (slot : Nat) : State :=
  match c.task with
  | some t => s.mapDie (dieOf k) fun d => { d with active := { d.active with
      susp := kset d.active.susp k ⟨c.plane.wid, t.pasid, pc, rpc, kind, slot⟩ } }
  | none => s

/-- TAKING A TRAP (R181, R305): the task of the active core is suspended to its die's controller with the PC at which it
would go on, and the event enters the die's queue; a full queue freezes the suspension until an entry frees. (DEDUCED: log 23) -/
def takeTrap (s : State) (t : TrapInfo) (pc : Word) : State :=
  let c := s.core
  let (s, queued) := pushEvent (noteSuspension s s.coreId c pc (c.drainRpc.getD 0) 0 0) s.here (eventOf s.coreId c t s.time)
  { s with core := { c with run := .suspended t s.time queued, pc := pc, jump := none, post := none, after := [] }, sig := .none }

/-- THE RETURN FROM A TRAP (R181): the suspended task goes on at its saved PC. -/
def resumeTrap (c : CoreState) : CoreState := { c with run := .running }

/-- EVENT ENTRY at the die's controller (R305): FEPC saves the next PC, FSTAT.PL the level; the level becomes handler
and the controller jumps to FVEC. (DESIGN CHOICE: log 103) -/
def enterHandler (d : DieState) (pc : Word) : DieState × Word :=
  let lv := d.fstat.getLsbD 1
  ({ d with fepc := pc, fstat := (d.fstat &&& 1#64) ||| 2#64 ||| (if lv then 4#64 else 0#64) }, d.fvec)

/-- ERET's RETURN (R305): the level comes back from FSTAT.PL and the PC from FEPC. The PC's bits [3:0] are always zero
(R140). (DEDUCED: log 107) -/
def leaveHandler (d : DieState) : DieState × Word :=
  ({ d with fstat := (d.fstat &&& 5#64) ||| (if d.fstat.getLsbD 2 then 2#64 else 0#64) }, align16 d.fepc)

/-- A log-only event of a die (R307); where the queue is full it waits for an entry to free, and none is lost (R296).
(DEDUCED: log 104) -/
def logEvent (s : State) (d : BitVec 2) (core pasid : Nat) (wid : Word) (t : TrapInfo) : State :=
  let e : DieEvent := ⟨t, core, pasid, wid, s.time, false⟩
  match pushEvent s d e with
  | (s, true) => s
  | (s, false) => s.mapDie d fun x => { x with late := x.late ++ [e] }

/-- The frozen suspension of the die's lowest waiting core enters the queue (R305). -/
def admitTrap (s : State) (d : BitVec 2) : State :=
  let waits (k : Nat) : Option (TrapInfo × Nat) :=
    match (s.agent k).run with
    | .suspended t n false => some (t, n)
    | _ => none
  match ((List.range 128).map fun i => 128 * d.toNat + i).find? fun k => (waits k).isSome with
  | none => s
  | some k =>
    match waits k with
    | none => s
    | some (t, n) =>
      let c := s.agent k
      let (s, queued) := pushEvent s d (eventOf k c t n)
      s.setAgent k { c with run := .suspended t n queued }

/-- A write of FPOP drops the event at the head of the queue (R306); the entry that it frees takes in a log-only event that
waits for one, else a frozen suspension (R305). -/
def popEvent (s : State) (d : BitVec 2) : State :=
  let s := s.mapDie d fun x => { x with events := x.events.tail }
  match (s.die d).late with
  | e :: r => (pushEvent (s.mapDie d fun x => { x with late := r }) d e).1
  | [] => admitTrap s d

/-- A write of a firmware register lands (R306). -/
def firmwareWrite (s : State) (d : BitVec 2) (n : BitVec 12) (x : Word) : State :=
  if n = 0x106 then popEvent s d else s.mapDie d fun y => y.sysWrite n x

/-! ### Landing (R52, R53, R185) -/

/-- Writes one register of the active agent. (DEDUCED: log 129) -/
def landOne (s : State) (w : RegWrite) : State :=
  let c := s.core
  match w with
  | .s i x => if i = 0 then s else { s with core := { c with s := c.s.set i.toNat x i.isLt } }
  | .a i x => { s with core := { c with a := c.a.set i.toNat x i.isLt } }
  | .m i x => { s with core := { c with m := c.m.set i.toNat x i.isLt } }
  | .v i x => { s with core := { c with v := c.v.set i.toNat x i.isLt } }
  | .k i x => if i = 0 then s else { s with core := { c with k := c.k.set i.toNat x i.isLt } }
  | .g i x => if i = 0 then s else { s with core := { c with g := c.g.set i.toNat x i.isLt } }
  | .sys n x =>
    if n.toNat < 0x100 then { s with core := c.sysWrite n x }
    else firmwareWrite s s.here n x
  | .flags f => { s with core := c.orFlags f }

/-- Whether a write is one of fflags. (DEDUCED: log 16) -/
def RegWrite.isFlags : RegWrite → Bool
  | .flags _ => true
  | _ => false

/-- How many of some exposed writes are values of loads that `ld` still counts. -/
def loadCount (ps : List Pend) : BitVec 16 := BitVec.ofNat 16 (ps.filter fun p => p.ld.isSome).length

/-- Lands every exposed write due for bundle `n` or earlier: in issue order, the flags after the MTS writes; `ld` counts the
loads among them no longer (R275). (DEDUCED: log 20, 129, 131) -/
def landDue (s : State) (n : Nat) : State :=
  let due := s.core.pend.filter fun p => p.due ≤ n
  let c := { s.core with pend := s.core.pend.filter fun p => n < p.due }
  let s := { s with core := c.count 0 (-loadCount due) }
  let s := (due.filter fun p => !p.w.isFlags).foldl (fun s p => landOne s p.w) s
  (due.filter fun p => p.w.isFlags).foldl (fun s p => landOne s p.w) s

/-- Whether a load's value has been delivered long enough that `ld` counts it no longer. -/
def Pend.aged (p : Pend) (now : Nat) : Bool :=
  match p.ld with
  | some t => decide (t ≤ now)
  | none => false

/-- `ld` stops counting the loads whose latency has passed in cycles, also in a core that freezes (R275, R276). (DEDUCED: log 131) -/
def ageLoads (s : State) : State :=
  let old := s.core.pend.filter fun (p : Pend) => p.aged s.time
  if old = [] then s
  else
    let c := { s.core with pend := s.core.pend.map fun (p : Pend) => if p.aged s.time then { p with ld := none } else p }
    { s with core := c.count 0 (-loadCount old) }

/-! ### The guard -/

/-- A slot with a guard (R143): when it is false, the slot has no effect at all. -/
def guarded (g : GuardF) (s : State) (k : State → Res) : Res :=
  if s.core.guard g then k s else ok s

/-! ### The loop stack (R174, R175) -/

/-- The innermost entry's index, if the stack is not empty. -/
def LoopStack.top (l : LoopStack) : Option (Fin 4) :=
  if l.depth = 0 then none else some ⟨(l.depth.toNat - 1) % 4, Nat.mod_lt _ (by decide)⟩

def inBody (l : LoopStack) (i : Fin 4) (pc : Word) : Bool :=
  (l.lbeg.get i).toNat ≤ pc.toNat && pc.toNat < (l.lend.get i).toNat

/-- A transfer by BR or JMP leaves every loop whose body holds the branch and not the target (R175). -/
def leaveLoops : Nat → LoopStack → (pc target : Word) → LoopStack
  | 0, l, _, _ => l
  | n + 1, l, pc, target =>
    match l.top with
    | some i => if inBody l i pc && !inBody l i target then leaveLoops n { l with depth := l.depth - 1 } pc target else l
    | none => l

/-- The next PC of a bundle that takes no transfer, with the loop stack after it (R175). -/
def fallThrough : Nat → LoopStack → (pc next : Word) → LoopStack × Word
  | 0, l, _, next => (l, next)
  | n + 1, l, pc, next =>
    match l.top with
    | some i =>
      if pc = l.lend.get i - 16 then
        if 1 < (l.lcnt.get i).toNat then ({ l with lcnt := l.lcnt.set i (l.lcnt.get i - 1) }, l.lbeg.get i)
        else fallThrough n { l with depth := l.depth - 1 } pc next
      else (l, next)
    | none => (l, next)

/-- Where the bundle at `pc` goes: its own transfer, or the loop rule of R175. -/
def nextPc (c : CoreState) : LoopStack × Word :=
  match c.jump with
  | some t => (c.loops, t)
  | none => fallThrough 8 c.loops c.pc (c.pc + 16)

/-- A transfer of slot 0 to `target`; `pops` for BR, JMP and the zero-count LOOP. -/
def jumpTo (s : State) (target : Word) (pops : Bool) : State :=
  let c := s.core
  { s with core := { c with
      jump := some target
      loops := if pops then leaveLoops 8 c.loops c.pc target else c.loops } }

/-! ### Windows (R47, R68, R122) -/

/-- What a virtual range names. -/
inductive Window where
  | loc (off : Nat)
  | mcast (mask off : Nat)
  | splice (v c off : Nat)
  | plain
  /-- partly inside a window and partly outside -/
  | straddle
deriving DecidableEq, Repr

/-- The window in which a range lies (R47). The splice window has the strides of R122. (DEDUCED: log 144) -/
def windowOf (va len : Nat) : Window :=
  let e := va + (if len = 0 then 1 else len)
  let meets (lo hi : Nat) : Bool := decide (va < hi) && decide (lo < e)
  let within (lo hi : Nat) : Bool := decide (lo ≤ va) && decide (e ≤ hi)
  let lb := Config.localBase
  if within lb (lb + Config.localSize) then .loc (va - lb)
  else if meets lb (lb + Config.localSize) then .straddle
  else if Config.mcastBase ≤ va && va < Config.mcastEnd then
    .mcast ((va - Config.mcastBase) / 2 ^ 20) ((va - Config.mcastBase) % 2 ^ 20)
  else if meets Config.mcastBase Config.mcastEnd then .straddle
  else if within Config.spliceBase Config.spliceEnd then
    let o := va - Config.spliceBase
    .splice (o / 2 ^ 42) (o / 2 ^ 36 % 64) (o % 2 ^ 36)
  else if meets Config.spliceBase Config.spliceEnd then .straddle
  else .plain

/-! ### Claims and translation (R337 to R341) -/

/-- Rights that an access needs. -/
structure Need where
  r : Bool
  w : Bool
deriving DecidableEq, Repr

def Claim.has (c : Claim) (va : Nat) : Bool := decide (c.base ≤ va) && decide (va < c.base + c.len)
def Claim.grants (c : Claim) (n : Need) : Bool := (!n.r || c.r) && (!n.w || c.w)

/-- How far from `va` onward the bytes lie in claims that grant the need, at most to `va + len`. -/
def claimReach (cs : List Claim) (n : Need) : Nat → Nat → Nat → Nat
  | 0, va, _ => va
  | k + 1, va, stop =>
    if stop ≤ va then va
    else
      match cs.find? fun c => c.has va && c.grants n with
      | some c => claimReach cs n k (c.base + c.len) stop
      | none => va

/-- How far a range lies in claims, each byte in one that grants all the rights that the access needs (R339). -/
def claimedTo (cs : List Claim) (n : Need) (va len : Nat) : Nat :=
  min (claimReach cs n (cs.length + 1) va (va + len)) (va + len)

/-- The claim check (R339, R341): nothing, or the first failing byte and the subcode. -/
def claimFault (cs : List Claim) (n : Need) (va len : Nat) : Option (Nat × Nat) :=
  let e := claimedTo cs n va len
  if va + len ≤ e then none else some (e, if cs.any fun c => c.has e then 1 else 0)

/-- The cached translation of a byte. -/
def tlbFind (l : List TlbEntry) (pasid va : Nat) : Option TlbEntry :=
  l.find? fun e => e.pasid == pasid && decide (e.va ≤ va) && decide (va < e.va + e.size)

/-- The 4 KiB page address that a request names. -/
def pageOf (va : Nat) : Nat := va / 4096 * 4096

/-- The outcome of translating a range. -/
inductive Xlate where
  | ok (segs : List Seg)
  /-- the pieces before the first byte that no cache holds, and the pages that are missing from there on -/
  | miss (segs : List Seg) (pages : List Nat)
  /-- ATS failure or a missing permission: the pieces before the first failing byte, that byte and its translation, or 0 -/
  | fail (segs : List Seg) (va pa : Nat)
deriving DecidableEq, Repr

/-- A piece in front of what the rest of a range translates to. -/
def Xlate.push (g : Seg) : Xlate → Xlate
  | .ok segs => .ok (g :: segs)
  | .miss segs ps => .miss (g :: segs) ps
  | .fail segs v p => .fail (g :: segs) v p

/-- The pages that a rest of a range lacks. -/
def Xlate.pages : Xlate → List Nat
  | .miss _ ps => ps
  | _ => []

/-- The numbers of a die's translation caches above the shared one: 0 to 127 of its tile cores, then those of its engines.
(DESIGN CHOICE: log 138) -/
def cacheOf (k : Nat) : Path → Nat
  | .core => k % 128
  | .copy => 128
  | .tensor => 129
  | .splice => 130
  | .network => 131
def schedulerCache : Nat := 132

/-- The entries that serve an access through one of those caches: its own and the shared ones (R337). (DESIGN CHOICE: log 138) -/
def DieState.cached (d : DieState) (cache : Nat) : List TlbEntry := kget [] d.upper cache ++ d.tlb

/-- The entries of every level. -/
def DieState.translations (d : DieState) : List TlbEntry := d.upper.flatMap (·.2) ++ d.tlb

/-- Entries leave every level. -/
def DieState.forget (d : DieState) (hit : TlbEntry → Bool) : DieState :=
  let stay (l : List TlbEntry) : List TlbEntry := l.filter fun e => !hit e
  { d with tlb := stay d.tlb, upper := d.upper.map fun l => (l.1, stay l.2) }

/-- Xlate (R42, R337): translates a range piece by piece through the cached translations of one of the die's caches, a miss at
every level being one. The first byte that is missing or fails decides (R341); the failures of another asker's requests are no
concern of this one. -/
def xlate (d : DieState) (cache : Nat) (who : Asker) (pasid : Nat) (n : Need) : Nat → Nat → Nat → Xlate
  | 0, _, _ => .ok []
  | k + 1, va, len =>
    if len = 0 then .ok []
    else
      match tlbFind (d.cached cache) pasid va with
      | some e =>
        if (n.r && !e.r) || (n.w && !e.w) then .fail [] va (e.pa + (va - e.va))
        else
          let m := min len (e.va + e.size - va)
          (xlate d cache who pasid n k (va + m) (len - m)).push ⟨va, e.pa + (va - e.va), m⟩
      | none =>
        if d.atsFail.contains (who, pasid, pageOf va) then .fail [] va 0
        else
          let m := min len (pageOf va + 4096 - va)
          .miss [] (pageOf va :: (xlate d cache who pasid n k (va + m) (len - m)).pages)

/-- The most pieces that a range can take. -/
def pieceFuel (len : Nat) : Nat := len / 4096 + 2

/-- The physical byte addresses of translated pieces, in order. -/
def segAddrs (segs : List Seg) : List Nat := segs.flatMap fun g => (List.range g.len).map fun i => g.pa + i

/-- The physical address of a virtual byte in captured pieces. -/
def segAt (segs : List Seg) (va : Nat) : Option Nat :=
  (segs.find? fun g => decide (g.va ≤ va) && decide (va < g.va + g.len)).map fun g => g.pa + (va - g.va)

/-- Whether a task of the active core may reach a translated address; answers the cause otherwise: control space is an
access fault (R308), a hole of the map or memory of another partition is unmapped (R44, R313), and so, for a core's own
access, is a scratchpad of another die (R47). While the interface of the partition's function is in ERROR, host memory counts as
not translated (R366). (DEDUCED: log 142) -/
def physFault (s : State) (coreAccess : Bool) (pa : Nat) : Option Cause :=
  match regionOf pa with
  | .control => some 0x08
  | .none => some 0x15
  | .host => if outOfUse s s.here pa then some 0x14 else none
  | .sp c =>
    if coreAccess && dieOf c ≠ s.here then some 0x15
    else if partOwns s.xd0.mode (partOfDie s.xd0.mode s.here) pa then none else some 0x15
  | _ => if partOwns s.xd0.mode (partOfDie s.xd0.mode s.here) pa then none else some 0x15

/-- What checking one range gives: its pieces, pages that are missing, or the trap. -/
inductive Checked where
  | ok (segs : List Seg)
  | miss (reqs : List (Nat × Nat × Bool))
  | bad (t : TrapInfo)
deriving DecidableEq, Repr

/-- A trap of cause 0x14 (R341, R346). (DEDUCED: log 59) -/
def claimTrap (s : State) (sub va pa lane : Nat) : TrapInfo :=
  { endTrap s 0x14 (BitVec.ofNat 64 va) with
    sub := BitVec.ofNat 8 sub, pa := BitVec.ofNat 64 pa, item := BitVec.ofNat 16 lane }

/-- The first offset of a piece at `pa` at which `physFault` refuses, looked for at the 1 MiB blocks of the map, which no
region and no partition cuts. -/
def blockFault (s : State) (coreAccess : Bool) (pa len : Nat) : Nat → Nat → Option (Cause × Nat)
  | 0, _ => none
  | k + 1, o =>
    if len ≤ o then none
    else
      match physFault s coreAccess (pa + o) with
      | some c => some (c, o)
      | none => blockFault s coreAccess pa len k (((pa + o) / 2 ^ 20 + 1) * 2 ^ 20 - pa)

/-- The first byte of some pieces that `physFault` refuses: the cause, its virtual and its physical address. -/
def segsFault (s : State) (coreAccess : Bool) : List Seg → Option (Cause × Nat × Nat)
  | [] => none
  | g :: r =>
    match blockFault s coreAccess g.pa g.len (g.len / 2 ^ 20 + 2) 0 with
    | some (c, o) => some (c, g.va + o, g.pa + o)
    | none => segsFault s coreAccess r

/-- The trap of the first byte that `physFault` refuses, or `k`. -/
def segsChecked (s : State) (coreAccess : Bool) (segs : List Seg) (lane : Nat) (k : Checked) : Checked :=
  match segsFault s coreAccess segs with
  | some (c, v, p) =>
    .bad { endTrap s c (BitVec.ofNat 64 v) with
      sub := if c = 0x14 then 2 else 0, pa := BitVec.ofNat 64 p, item := BitVec.ofNat 16 lane }
  | none => k

/-- Checks and translates an ordinary range against the task's claims (R339, R341): the bytes in order, each against the
claims, its translation and the map; the first that fails decides, or holds where its translation is missing. A controller
reaches device physical addresses directly. (DEDUCED: log 45) -/
def checkPlain (s : State) (coreAccess : Bool) (p : Path) (n : Need) (va len lane : Nat) : Checked :=
  match s.core.task with
  | none => let m := min len (2 ^ 64 - va); .ok [⟨va, va, m⟩, ⟨va + m, 0, len - m⟩]
  | some t =>
    let e := claimedTo t.claims n va len
    match xlate (s.die s.here) (cacheOf s.coreId p) (.core s.coreId) t.pasid n (pieceFuel (e - va)) va (e - va) with
    | .miss segs ps => segsChecked s coreAccess segs lane (.miss (ps.map fun p => (t.pasid, p, false)))
    | .fail segs v p => segsChecked s coreAccess segs lane (.bad (claimTrap s 2 v p lane))
    | .ok segs =>
      segsChecked s coreAccess segs lane
        (match claimFault t.claims n va len with
          | some (e, sub) => .bad (claimTrap s sub e 0 lane)
          | none => .ok segs)

/-- Trap(access) (R47, R68). -/
def accessTrap (s : State) (va : Nat) : TrapInfo := endTrap s 0x08 (BitVec.ofNat 64 va)

/-- Checks one core-path range of a load, store or atomic (R260): the windows first, then claims and translation.
A multicast range is the caller's. A die controller's addresses are device physical addresses, so that it meets no
window. (DEDUCED: log 45, 50) -/
def checkRange (s : State) (n : Need) (va len lane : Nat) : Checked :=
  if isController s.coreId then checkPlain s true .core n va len lane else
  match windowOf va len with
  | .loc off => .ok [⟨va, spAddr s.coreId off, len⟩]
  | .plain => checkPlain s true .core n va len lane
  | _ => .bad (accessTrap s va)

/-- The translations that a check lacks. -/
def Checked.misses : Checked → List (Nat × Nat × Bool)
  | .miss reqs => reqs
  | _ => []

/-- Checks several ranges in order: the first that fails decides, or, where it only lacks translations, holds the rest;
the missing translations of all add up. -/
def checkAll {α : Type} (f : α → Checked) : List α → Checked
  | [] => .ok []
  | x :: r =>
    match f x with
    | .bad t => .bad t
    | .miss a => .miss (a ++ (checkAll f r).misses)
    | .ok a =>
      match checkAll f r with
      | .ok b => .ok (a ++ b)
      | y => y

/-- Goes on with a checked range, or traps, or holds for its translations. (DEDUCED: log 45) -/
def withChecked (s : State) (c : Checked) (k : List Seg → Res) : Res :=
  match c with
  | .ok segs => k segs
  | .miss reqs => holdAts s reqs
  | .bad t => trap s t

end Sys2Proof.Machine
end

