-- ==== Sys2Proof/Machine/Operands.lean ====
section
/-! DEFINITION. Operand forms: the second operand of format SR (R148, R160), effective addresses and post-increments (R257,
R258), the address operands of engine commands (R230), and which registers an instruction reads and writes (R54, R55,
R141, R156, R187). -/

namespace Sys2Proof

open Machine

/-! ### Slot 0 -/

/-- The second operand b: `sB`, or the 6-bit immediate, sign-extended (R160). -/
def SR.opB (o : SR) (c : CoreState) : Word := if o.i then o.b.signExtend 64 else c.rs o.b

/-- The amount of a shift or rotate: an immediate is zero-extended (R160). -/
def SR.amount (o : SR) (c : CoreState) : Nat := if o.i then o.b.toNat else ((c.rs o.b).extractLsb' 0 6).toNat

/-! ### Addresses (R258) -/

/-- Rev_n: the low `n` bits in reverse order. -/
def revBits : Nat → Nat → Nat
  | 0, _ => 0
  | n + 1, v => (v % 2) * 2 ^ n + revBits n (v / 2)

/-- The buffer mask, len − 1. -/
def Machine.Modifier.mask (m : Modifier) : Word := BitVec.ofNat 64 (bufLen m.len - 1)

/-- EA of an access with offset `off`. -/
def Machine.Modifier.ea (m : Modifier) (a off : Word) : Word :=
  match m.mode with
  | .circ => m.base ||| ((a + off) &&& m.mask)
  | _ => a + off

/-- PostInc of `aX` by `inc`. -/
def Machine.Modifier.postInc (m : Modifier) (a inc : Word) : Word :=
  match m.mode with
  | .lin => a + inc
  | .mod | .circ => m.base ||| ((a + inc) &&& m.mask)
  | .brev =>
    let o := ((a - m.base) &&& m.mask).toNat
    let b := Nat.log2 inc.toNat
    let n := Nat.log2 (bufLen m.len / inc.toNat)
    let i := revBits n ((o >>> b) % 2 ^ n)
    m.base + BitVec.ofNat 64 (revBits n ((i + 1) % 2 ^ n) <<< b) + BitVec.ofNat 64 (o % inc.toNat)

/-- An `sN` that brev mode 11 accepts (R258). -/
def Machine.Modifier.stepOk (m : Modifier) (inc : Word) : Bool :=
  m.mode != .brev || brevStride inc.toInt (bufLen m.len)

/-- What an AM operand names: its EA, and the new `aX` when it post-increments. -/
structure Access where
  ea   : Word
  post : Option (BitVec 4 × Word)
deriving DecidableEq, Repr

def incWord (i : BitVec 14) : Word := i.signExtend 64

/-- The register `aX` of an AM operand. -/
def MemOp.base : MemOp → BitVec 4
  | .imm x _ | .inc x _ | .idx x _ _ | .incIdx x _ _ => x

/-- The access of LD, ST, LDV, STV, PREF and FEWAIT (R258); none: the precise address trap of brev mode 11. -/
def MemOp.access (mo : MemOp) (c : CoreState) : Option Access :=
  match mo with
  | .imm x off => some ⟨(c.rm x).ea (c.ra x) (off.signExtend 64), none⟩
  | .inc x _ => some ⟨(c.rm x).ea (c.ra x) 0, some (x, (c.rm x).postInc (c.ra x) (incWord (c.rm x).inc))⟩
  | .idx x n _ => some ⟨(c.rm x).ea (c.ra x) (c.rs n), none⟩
  | .incIdx x n _ =>
    if (c.rm x).stepOk (c.rs n) then
      some ⟨(c.rm x).ea (c.ra x) 0, some (x, (c.rm x).postInc (c.ra x) (c.rs n))⟩
    else none

/-- The base address and post-increment of a strided, gather or scatter access: lanes lie at `aX` plus their own offset,
and mode 11 post-increments by INC (R265, R266). -/
def MemOp.lanesAt (mo : MemOp) (c : CoreState) : Access :=
  let x := mo.base
  match mo with
  | .incIdx _ _ _ | .inc _ _ => ⟨c.ra x, some (x, (c.rm x).postInc (c.ra x) (incWord (c.rm x).inc))⟩
  | _ => ⟨c.ra x, none⟩

/-- The index register field of modes 10 and 11. -/
def MemOp.index : MemOp → BitVec 6
  | .idx _ n _ | .incIdx _ n _ => n
  | _ => 0

/-- An access's post-increment, with exposed latency 1 (R258). -/
def Access.done (x : Access) (s : State) : State :=
  match x.post with
  | some (r, v) => later s 1 (.a r v)
  | none => s

/-- The access of an engine command's address operand (R230). -/
def EAddr.access (e : EAddr) (c : CoreState) : Access :=
  ⟨c.ra e.x, if e.inc then some (e.x, (c.rm e.x).postInc (c.ra e.x) (incWord (c.rm e.x).inc)) else none⟩

/-! ### Registers read and written -/

def gRef (g : GuardF) : RegRef := .g (g.extractLsb' 0 3)

def fmtRef : RegRef := .sys 0x010

def SR.reads (o : SR) : List RegRef := if o.i then [gRef o.g, .s o.a] else [gRef o.g, .s o.a, .s o.b]
def SR3.reads (o : SR3) : List RegRef := [gRef o.g, .s o.a, .s o.b]

def MemOp.reads : MemOp → List RegRef
  | .imm x _ | .inc x _ => [.a x, .m x]
  | .idx x n _ | .incIdx x n _ => [.a x, .m x, .s n]

/-- The registers of a gather or scatter operand: B names an index vector. -/
def MemOp.readsX (mo : MemOp) : List RegRef := [.a mo.base, .m mo.base, .v mo.index]

/-- A post-increment is a write of `aX` (R156). -/
def MemOp.writes : MemOp → List RegRef
  | .inc x _ | .incIdx x _ _ => [.a x]
  | _ => []

def EAddr.reads (e : EAddr) : List RegRef := if e.inc then [.a e.x, .m e.x] else [.a e.x]
def EAddr.writes (e : EAddr) : List RegRef := if e.inc then [.a e.x] else []

def countReads (n : BitVec 6) : List RegRef := if n = 0 then [] else [.s n]
def pairReads (n : BitVec 6) : List RegRef := if n = 0 then [] else [.s n, .s (n + 1)]

def Top3.reads (o : Top3) : List RegRef := gRef o.g :: fmtRef :: pairReads o.p

/-- The lane mask, and vD where disabled lanes keep its value (R187). -/
def VOp.maskReads (o : VOp) : List RegRef :=
  if o.m = 0 then [] else if o.z then [.k o.m] else [.k o.m, .v o.d]
def VOp.reads1 (o : VOp) : List RegRef := .v o.a :: o.maskReads
def VOp.reads2 (o : VOp) : List RegRef := .v o.a :: .v o.b :: o.maskReads

def tuple (r : BitVec 6) (n : Nat) : List RegRef := (List.range n).map fun i => .v (r + BitVec.ofNat 6 i)

/-- The guard field of an instruction; slot 2 and the NOPs have none (R143). -/
def Instr.guardF : Instr → GuardF
  | .add o | .sub o | .and o | .or o | .xor o | .andn o | .min o | .max o | .minu o | .maxu o | .shl o | .shr o
  | .sra o | .rol o | .mul o | .mulh o | .mulhu o | .div o | .divu o | .rem o | .remu o | .cmp _ o => o.g
  | .clz _ _ g | .ctz _ _ g | .popc _ _ g | .movi _ _ g | .movhi _ _ _ g | .fcvt _ _ _ _ g | .fclass _ _ g
  | .gand _ _ _ g | .gor _ _ _ g | .gnot _ _ g | .br _ g | .jmp _ g | .call _ g | .ret g | .loop _ _ g
  | .loopReg _ _ g | .setfmt _ g | .getf _ _ g | .getid _ _ g | .endTask g | .drain g | .trap _ g | .brk g
  | .mfs _ _ g | .mts _ _ g | .eret g => g
  | .bfx o | .bfi o | .sel o _ | .fadd o | .fsub o | .fmul o | .fmin o | .fmax o | .ffma o | .fcmp _ o
  | .hops o => o.g
  | .amov _ _ _ g | .aadd _ _ _ g | .alea _ _ _ g | .asetm _ _ _ _ _ g | .ld _ _ _ _ g | .st _ _ _ _ g
  | .ldv _ _ _ g | .stv _ _ _ g | .ldvs _ _ _ g | .stvs _ _ _ g | .ldvx _ _ _ g | .stvx _ _ _ g | .pref _ g
  | .amo _ _ _ _ _ g | .cas _ _ _ _ _ g | .fewait _ _ _ _ g | .fence _ _ _ g | .wait _ _ g | .barinit _ _ g
  | .bararv _ _ g | .barwt _ g | .bararw _ _ g | .snap g => g
  | .copy _ _ _ g | .copym _ _ _ _ g | .relay _ _ _ _ _ g | .ewcvt _ _ _ _ g | .reduce _ _ _ _ g
  | .placeq _ _ g | .attn _ _ g | .kvfind _ _ _ g | .kvapp _ _ _ g | .kvfree _ _ _ _ g | .setband _ _ _ g
  | .splopen _ _ g | .splopenNb _ _ _ g | .splarv _ _ _ _ g | .splclose _ _ g | .splstat _ _ _ g | .nxwr _ g
  | .nxrd _ g | .nxamo _ _ g | .nxwait _ _ g | .nxstat _ _ g | .launch _ _ g | .sumpcfg _ _ g => g
  | .ewadd o | .ewmul o | .ewfma o | .ewmax o | .gemv o | .gemm o => o.g
  | .mldb _ _ _ g | .mwbf _ _ _ g | .mdrainSwap g | .mzero _ g | .acmovv _ _ g | .acmova _ _ g | .acld _ _ g
  | .acst _ _ g | .ldrcfg _ _ _ g | .ldrstep _ _ g | .ldrread _ _ g | .ldrrung _ _ _ _ _ g | .ldrcnt _ _ g
  | .ldrsave _ _ g | .ldrload _ _ g | .ldrclr _ g => g
  | .mpush o | .mshift o _ | .macc o | .mdrain o => o.g
  | _ => 0

/-- The registers that an instruction reads, `fmt` among them where it rounds or takes formats by it (R33). -/
def Instr.reads : Instr → List RegRef
  | .add o | .sub o | .and o | .or o | .xor o | .andn o | .min o | .max o | .minu o | .maxu o | .shl o | .shr o
  | .sra o | .rol o | .mul o | .mulh o | .mulhu o | .div o | .divu o | .rem o | .remu o | .cmp _ o => o.reads
  | .clz _ a g | .ctz _ a g | .popc _ a g | .fclass _ a g | .jmp a g | .loopReg a _ g | .setfmt a g
  | .mts a _ g => [gRef g, .s a]
  | .fcvt _ a _ _ g => [gRef g, .s a, fmtRef]
  | .movi _ _ g | .br _ g | .call _ g | .loop _ _ g | .getf _ _ g | .getid _ _ g | .endTask g | .drain g
  | .trap _ g | .brk g | .eret g => [gRef g]
  | .movhi d _ _ g => [gRef g, .s d]
  | .ret g => [gRef g, .s 63]
  | .mfs _ n g => [gRef g, .sys n]
  | .bfx o | .hops o | .fmin o | .fmax o | .fcmp _ o => o.reads
  | .fadd o | .fsub o | .fmul o => fmtRef :: o.reads
  | .sel o c => gRef c :: o.reads
  | .bfi o => .s o.d :: o.reads
  | .ffma o => .s o.d :: fmtRef :: o.reads
  | .gand _ a b g | .gor _ a b g => [gRef g, gRef a, gRef b]
  | .gnot _ a g => [gRef g, gRef a]
  | .amov k _ a g => [gRef g, match k with | .aFromS => .s a | _ => .a (lo4 a)]
  | .aadd _ a b g => gRef g :: .a a :: (match b with | .reg r => [.s r] | .imm _ => [])
  | .alea _ _ _ g => [gRef g]
  | .asetm _ _ a _ _ g => [gRef g, .a a]
  | .ld _ _ _ m g | .ldv _ _ m g | .ldvs _ _ m g | .pref m g => gRef g :: m.reads
  | .st _ _ d m g => gRef g :: .s d :: m.reads
  | .stv k d m g => gRef g :: .v d :: .k k :: m.reads
  | .stvs _ d m g => gRef g :: .v d :: m.reads
  | .ldvx k d m g => gRef g :: (if k = 0 then m.readsX else .k k :: .v d :: m.readsX)
  | .stvx k d m g => gRef g :: .v d :: .k k :: m.readsX
  | .amo _ _ _ b x g => [gRef g, .s b, .a x, .m x]
  | .cas _ _ d b x g => [gRef g, .s d, .s b, .a x, .m x]
  | .fewait _ _ x _ g => [gRef g, .a x, .m x]
  | .fence _ _ _ g | .wait _ _ g | .barinit _ _ g | .bararv _ _ g | .barwt _ g | .bararw _ _ g | .snap g => [gRef g]
  | .copy d a l g => gRef g :: (d.reads ++ a.reads ++ (match l with | .reg r => [.s r] | .imm _ => []))
  | .copym d a l m g => gRef g :: .s m :: (d.reads ++ a.reads ++ (match l with | .reg r => [.s r] | .imm _ => []))
  | .relay _ _ _ _ vc g => gRef g :: countReads vc
  | .ewadd o | .ewmul o | .ewfma o | .ewmax o | .gemv o | .gemm o => o.reads
  | .ewcvt _ _ _ p g | .reduce _ _ _ p g => gRef g :: fmtRef :: pairReads p
  | .placeq w a g => [gRef g, .s w, .s a]
  | .attn x p g => gRef g :: fmtRef :: (x.reads ++ pairReads p)
  | .kvfind _ q l g => gRef g :: .s q :: l.reads
  | .kvapp _ x vc g => gRef g :: fmtRef :: (x.reads ++ countReads vc)
  | .kvfree _ q b l g => gRef g :: .s q :: .s b :: l.reads
  | .setband b x l g => gRef g :: .s b :: (x.reads ++ l.reads)
  | .splopen c x g | .splopenNb c _ x g => gRef g :: .s c :: x.reads
  | .splarv _ e t x g => gRef g :: .s e :: .s t :: x.reads
  | .splclose _ c g | .splstat _ c _ g => [gRef g, .s c]
  | .nxwr x g | .nxrd x g | .nxamo _ x g | .launch _ x g => gRef g :: x.reads
  | .nxwait c v g => [gRef g, .s c, .s v]
  | .nxstat _ p g => [gRef g, .s p]
  | .sumpcfg _ a g => [gRef g, .s a]
  | .vadd o | .vsub o | .vmul o => if o.t.isInt then o.reads2 else fmtRef :: o.reads2
  | .vfma o | .vfms o => fmtRef :: (if o.v then .v o.c else .v o.d) :: o.reads2
  | .vcmp o => [.v o.a, .v o.b] ++ (if o.m = 0 then [] else if o.z then [.k o.m] else [.k o.m, .k (lo4 o.d)])
  | .vmin o | .vmax o | .vand o | .vor o | .vxor o | .vperm o => o.reads2
  | .vabs o | .vneg o | .vrcp o | .vrsq o | .vfexp2 o | .vlog2 o | .vgetexp o | .vgetman o | .vsat o | .vnot o
  | .vmov o | .vexpnd o => o.reads1
  | .vrndi o => fmtRef :: o.reads1
  | .vcvti o => fmtRef :: o.reads1
  | .vscale o => fmtRef :: o.reads2
  | .vcvt o => fmtRef :: .v o.d :: o.reads1
  | .vpackb o => [fmtRef, .v o.a, .v o.d]
  | .vunpb o => o.reads1
  | .vsel o => [.v o.a, .v o.b, .k o.m]
  | .vshl o | .vshr o | .vsra o => if o.v then o.reads1 else o.reads2
  | .viota o => o.maskReads
  | .vbcast o => .s o.a :: o.maskReads
  | .vmovs o => if o.v then [.v o.a, .s o.b] else [.v o.a]
  | .vins o => if o.v then [.s o.a, .v o.d, .s o.b] else [.s o.a, .v o.d]
  | .vslide o => if o.v then .s o.c :: o.reads2 else o.reads2
  | .vredsum o | .vredmax o | .vcompr o => [.v o.a, .k o.m]
  | .vdot4 o => fmtRef :: .v o.d :: o.reads2
  | .kand o | .kor o | .kxor o => [.k (lo4 o.a), .k (lo4 o.b)]
  | .knot o | .kpopc o | .kfirst o => [.k (lo4 o.a)]
  | .kset o => [.s o.a]
  | .sumpin o => .k o.m :: tuple o.a o.b.toNat
  | .mldb _ _ a g => [gRef g, .s a, fmtRef]
  | .mwbf _ x b g => [gRef g, .a x, .s b]
  | .mpush o | .macc o | .mdrain o => [gRef o.g, .v o.a, fmtRef]
  | .mshift o _ => [gRef o.g, .v o.a, .v (o.a + 1), fmtRef]
  | .mdrainSwap g | .mzero _ g | .ldrstep _ _ g | .ldrread _ _ g | .ldrrung _ _ _ _ _ g | .ldrcnt _ _ g
  | .ldrclr _ g => [gRef g]
  | .acmovv _ _ g => [gRef g, fmtRef]
  | .acmova v _ g => [gRef g, .v v]
  | .acld _ x g | .acst _ x g | .ldrsave _ x g | .ldrload _ x g => [gRef g, .a x]
  | .ldrcfg _ a b g => [gRef g, .s a, .v b]
  | _ => []

/-- The registers and sumps that an instruction names as destinations (R156, R188). A SUMPIN's sump is not listed: it may stand
beside a SUMPCFG of the same sump (R158). -/
def Instr.writes : Instr → List RegRef
  | .add o | .sub o | .and o | .or o | .xor o | .andn o | .min o | .max o | .minu o | .maxu o | .shl o | .shr o
  | .sra o | .rol o | .mul o | .mulh o | .mulhu o | .div o | .divu o | .rem o | .remu o => [.s o.d]
  | .clz d _ _ | .ctz d _ _ | .popc d _ _ | .movi d _ _ | .movhi d _ _ _ | .fcvt d _ _ _ _ | .fclass d _ _
  | .getf d _ _ | .getid d _ _ | .mfs d _ _ => [.s d]
  | .bfx o | .bfi o | .sel o _ | .fadd o | .fsub o | .fmul o | .fmin o | .fmax o | .ffma o | .hops o => [.s o.d]
  | .cmp _ o => [.g (lo3 o.d)]
  | .fcmp _ o => [.g (lo3 o.d)]
  | .gand d _ _ _ | .gor d _ _ _ | .gnot d _ _ => [.g (lo3 d)]
  | .call _ _ => [.s 63]
  | .setfmt _ _ => [fmtRef]
  | .mts _ n _ => [.sys n]
  | .amov k d _ _ => (match k with | .sFromA => [.s d] | _ => [.a (lo4 d)])
  | .aadd d _ _ _ | .alea d _ _ _ => [.a d]
  | .asetm _ d _ _ _ _ => [.m d]
  | .ld _ _ d m _ => .s d :: m.writes
  | .ldv _ d m _ | .ldvs _ d m _ | .ldvx _ d m _ => .v d :: m.writes
  | .st _ _ _ m _ | .stv _ _ m _ | .stvs _ _ m _ | .stvx _ _ m _ | .pref m _ => m.writes
  | .amo _ _ d _ _ _ | .cas _ _ d _ _ _ => [.s d]
  | .copy d a _ _ | .copym d a _ _ _ => d.writes ++ a.writes
  | .attn x _ _ | .splopen _ x _ | .nxwr x _ | .nxrd x _ => x.writes
  | .kvfind d _ l _ | .kvfree d _ _ l _ => .s d :: l.writes
  | .kvapp d x _ _ | .splarv d _ _ x _ | .nxamo d x _ | .launch d x _ => .s d :: x.writes
  | .setband _ x l _ => x.writes ++ l.writes
  | .splopenNb _ k x _ => .g k :: x.writes
  | .splclose d _ _ | .splstat d _ _ _ | .nxstat d _ _ => [.s d]
  | .vadd o | .vsub o | .vmul o | .vfma o | .vfms o | .vmin o | .vmax o | .vabs o | .vneg o | .vrcp o | .vrsq o
  | .vfexp2 o | .vlog2 o | .vrndi o | .vscale o | .vgetexp o | .vgetman o | .vcvt o | .vcvti o | .vpackb o | .vunpb o
  | .vsat o | .vsel o | .vand o | .vor o | .vxor o | .vnot o | .vshl o | .vshr o | .vsra o | .viota o | .vbcast o
  | .vins o | .vmov o | .vperm o | .vslide o | .vredsum o | .vredmax o | .vdot4 o | .vcompr o | .vexpnd o => [.v o.d]
  | .vcmp o => [.k (o.d.extractLsb' 0 4)]
  | .vmovs o | .kpopc o | .kfirst o | .sumpcnt o => [.s o.d]
  | .kand o | .kor o | .kxor o | .knot o | .kset o => [.k (lo4 o.d)]
  | .sumpcfg n _ _ => [.sump n]
  | .sumpout o => .sump (o.a.extractLsb' 0 2) :: .k o.m :: tuple o.d (o.b.toNat + 1)
  | .acmovv v _ _ => [.v v]
  | .ldrrung d gd _ _ _ _ => [.v d, .g gd]
  | .ldrcnt d _ _ => [.s d]
  | _ => []

/-- Destinations that count: `s0` does not (R145). -/
def Instr.dests (i : Instr) : List RegRef := i.writes.filter (· != .s 0)

/-- Two slots of a bundle that name one register or sump as a destination (R156). Two operands of one slot that both
post-increment one `aX` name it once. (DEDUCED: log 26) -/
def clash (is : List Instr) : Bool :=
  match is with
  | [] => false
  | i :: r => (i.dests.any fun x => r.any fun j => j.dests.contains x) || clash r

end Sys2Proof
end

