-- ==== Sys2Proof/Machine/Flags.lean ====
section
/-! DEFINITION. What instructions take from `fmt` (R32 to R34) and from the RS state, and how their flags leave (R35,
R185). -/

namespace Sys2Proof.Machine

open Sys2Proof

def CoreState.rnd (c : CoreState) : BitVec 3 := c.fmt.extractLsb' 16 3
def CoreState.sat (c : CoreState) : Bool := c.fmt.getLsbD 19
def CoreState.outf (c : CoreState) : BitVec 4 := c.fmt.extractLsb' 12 4
def CoreState.accf (c : CoreState) : BitVec 4 := c.fmt.extractLsb' 8 4
def CoreState.bf (c : CoreState) : BitVec 4 := c.fmt.extractLsb' 4 4
def CoreState.af (c : CoreState) : BitVec 4 := c.fmt.extractLsb' 0 4

/-- A reserved rounding code (R36). -/
def rndReserved (r : BitVec 3) : Bool := 6 ≤ r.toNat

/-- The environment of an instruction that rounds under mode `rnd` on the active core. -/
def State.env (s : State) (rnd : BitVec 3) : Env := ⟨rnd, s.core.sat, s.core.rsst, 0⟩

/-- Puts the LFSR state back after an instruction (R36). -/
def State.stepRs (s : State) (e : Env) : State := { s with core := { s.core with rsst := e.lfsr } }

/-- The illegal-format fault of R33. -/
def formatFault (s : State) : Res := trap s (endTrap s 0x12 0)

/-- Goes on with the rounding environment of `fmt`, or takes the illegal-format fault on a reserved RND (R33). -/
def withRnd (s : State) (k : Env → Res) : Res :=
  if rndReserved s.core.rnd then formatFault s else k (s.env s.core.rnd)

/-- A rounding selector (R190): 0 to 5 name a mode, 7 names `fmt`.RND. -/
def withSel (s : State) (sel : BitVec 3) (k : Env → Res) : Res :=
  if sel = 7 then withRnd s k else k (s.env sel)

/-- An exposed result with its flags, and the RS state stepped. -/
def laterEnv (s : State) (lat : Nat) (w : RegWrite) (e : Env) : State :=
  laterFlags (later (s.stepRs e) lat w) lat e.fl

/-! ### Fused operations, each rounded once under the environment's mode -/

/-- Round(f, a + b, rnd). -/
def fltAdd (f : Fmt) (a b : Num) (env : Env) : Nat × Env :=
  let (x, nv) := Num.addX (env.rnd == 2) a b
  f.round false x (env.raiseIf nv Flags.nv)

/-- Round(f, a × b, rnd). -/
def fltMul (f : Fmt) (a b : Num) (env : Env) : Nat × Env :=
  let (x, nv) := Num.mulX a b
  f.round false x (env.raiseIf nv Flags.nv)

/-- Round(f, a × b + c, rnd). (DEDUCED: log 28) -/
def fltFma (f : Fmt) (a b c : Num) (env : Env) : Nat × Env :=
  let (p, nv1) := Num.mulX a b
  let (x, nv2) := Num.addX (env.rnd == 2) p c
  f.round false x (env.raiseIf (nv1 || nv2) Flags.nv)

end Sys2Proof.Machine
end

