-- ==== Sys2Proof/Machine/Address.lean ====
section
/-! DEFINITION. Slot 1: address registers and modifiers (R257, R259). -/

namespace Sys2Proof.Machine

open Sys2Proof

/-- AMOV (R259): moves a value between address and scalar registers. -/
def execAmov (k : AmovKind) (d a : BitVec 6) (g : GuardF) (s : State) : Res :=
  guarded g s fun s =>
    ok (later s 1 (match k with
      | .aFromS => .a (lo4 d) (s.core.rs a)
      | .sFromA => .s d (s.core.ra (lo4 a))
      | .aFromA => .a (lo4 d) (s.core.ra (lo4 a))))

/-- The second operand of AADD: `sB`, or an immediate of 6 or 14 bits, sign-extended. -/
def AOpnd.value (c : CoreState) : AOpnd → Word
  | .reg r => c.rs r
  | .imm v => v.signExtend 64

/-- AADD (R259): writes aA plus b to aD. -/
def execAadd (d a : BitVec 4) (b : AOpnd) (g : GuardF) (s : State) : Res :=
  guarded g s fun s => ok (later s 1 (.a d (s.core.ra a + AOpnd.value s.core b)))

/-- base + offset of ALEA. -/
def aleaValue (c : CoreState) (base : AleaBase) (off : BitVec 24) : Word :=
  match base with
  | .bundle => c.pc + off.signExtend 64
  | .image => c.plane.image + off.setWidth 64
  | .window => BitVec.ofNat 64 Config.localBase + off.setWidth 64

/-- ALEA (R259): writes a base plus an offset to aD. -/
def execAlea (d : BitVec 4) (base : AleaBase) (off : BitVec 24) (g : GuardF) (s : State) : Res :=
  guarded g s fun s => ok (later s 1 (.a d (aleaValue s.core base off)))

/-- The four fields that ASETM writes (R257). -/
def newModifier (mode : MMode) (a : Word) (inc : BitVec 14) (len : BitVec 4) : Modifier :=
  ⟨mode, inc, len, if mode = .lin then 0 else a &&& ~~~(BitVec.ofNat 64 (bufLen len - 1))⟩

/-- ASETM (R257): sets the mode, increment, length and base of a modifier. -/
def execAsetm (mode : MMode) (d a : BitVec 4) (inc : BitVec 14) (len : BitVec 4) (g : GuardF) (s : State) : Res :=
  guarded g s fun s => ok (later s 1 (.m d (newModifier mode (s.core.ra a) inc len)))

end Sys2Proof.Machine
end

