-- ==== Sys2Proof/Machine/Scalar.lean ====
section
/-! DEFINITION. Slot 0: integer arithmetic and logic, moves, compares and guards, and scalar floating point (R160 to
R172). -/

namespace Sys2Proof.Machine

open Sys2Proof

/-! ### Shared shapes -/

/-- A scalar result with exposed latency `lat`. -/
def scalarOut (g : GuardF) (lat : Nat) (d : BitVec 6) (f : CoreState → Word) (s : State) : Res :=
  guarded g s fun s => ok (later s lat (.s d (f s.core)))

/-- Format SR: sD := f(sA, b). -/
def srOut (o : SR) (lat : Nat) (f : Word → Word → Word) (s : State) : Res :=
  scalarOut o.g lat o.d (fun c => f (c.rs o.a) (o.opB c)) s

/-- A shift or rotate: sD := f(sA, amount). -/
def shiftOut (o : SR) (f : Word → Nat → Word) (s : State) : Res :=
  scalarOut o.g 1 o.d (fun c => f (c.rs o.a) (o.amount c)) s

/-- An interlocked scalar result of format SR (R162). -/
def divOut (o : SR) (f : Word → Word → Word) (s : State) : Res :=
  guarded o.g s fun s => ok (lock s [.s o.d] (some [.s o.d (f (s.core.rs o.a) (o.opB s.core))]) none).2

/-- A guard result, exposed 1. -/
def guardOut (g : GuardF) (d : BitVec 6) (f : CoreState → Bool) (s : State) : Res :=
  guarded g s fun s => ok (later s 1 (.g (lo3 d) (f s.core)))

/-! ### Integer arithmetic and logic (R161 to R166) -/

/-- The all-zero slot word (R183). -/
def execNop (s : State) : Res := ok s

/-- ADD (R161): writes sA plus b, modulo 2^64, to sD. -/
def execAdd (o : SR) (s : State) : Res := srOut o 1 (· + ·) s
/-- SUB (R161): writes sA minus b to sD. -/
def execSub (o : SR) (s : State) : Res := srOut o 1 (· - ·) s
/-- AND (R161): writes sA AND b to sD. -/
def execAnd (o : SR) (s : State) : Res := srOut o 1 (· &&& ·) s
/-- OR (R161): writes sA OR b to sD. -/
def execOr (o : SR) (s : State) : Res := srOut o 1 (· ||| ·) s
/-- XOR (R161): writes sA XOR b to sD. -/
def execXor (o : SR) (s : State) : Res := srOut o 1 (· ^^^ ·) s
/-- ANDN (R161): writes sA AND NOT b to sD. -/
def execAndn (o : SR) (s : State) : Res := srOut o 1 (fun a b => a &&& ~~~b) s
/-- MIN (R161): writes the signed minimum of sA and b to sD. -/
def execMin (o : SR) (s : State) : Res := srOut o 1 (fun a b => if a.slt b then a else b) s
/-- MAX (R161): writes the signed maximum of sA and b to sD. -/
def execMax (o : SR) (s : State) : Res := srOut o 1 (fun a b => if a.slt b then b else a) s
/-- MINU (R161): writes the unsigned minimum of sA and b to sD. -/
def execMinu (o : SR) (s : State) : Res := srOut o 1 (fun a b => if a.ult b then a else b) s
/-- MAXU (R161): writes the unsigned maximum of sA and b to sD. -/
def execMaxu (o : SR) (s : State) : Res := srOut o 1 (fun a b => if a.ult b then b else a) s
/-- SHL (R161): shifts sA left by b[5:0] into sD. -/
def execShl (o : SR) (s : State) : Res := shiftOut o (fun a n => a <<< n) s
/-- SHR (R161): shifts sA right by b[5:0], zero-filled, into sD. -/
def execShr (o : SR) (s : State) : Res := shiftOut o (fun a n => a >>> n) s
/-- SRA (R161): shifts sA right by b[5:0], sign-filled, into sD. -/
def execSra (o : SR) (s : State) : Res := shiftOut o (fun a n => a.sshiftRight n) s
/-- ROL (R161): rotates sA left by b[5:0] into sD. -/
def execRol (o : SR) (s : State) : Res := shiftOut o (fun a n => (a <<< n) ||| (a >>> (64 - n))) s

/-- MUL (R162): writes the low 64 bits of sA times b to sD, with exposed latency 3. -/
def execMul (o : SR) (s : State) : Res := srOut o 3 (· * ·) s

/-- Bits [127:64] of the signed product. -/
def execMulh (o : SR) (s : State) : Res :=
  srOut o 3 (fun a b => ((a.signExtend 128) * (b.signExtend 128)).extractLsb' 64 64) s

/-- Bits [127:64] of the unsigned product. -/
def execMulhu (o : SR) (s : State) : Res :=
  srOut o 3 (fun a b => ((a.setWidth 128) * (b.setWidth 128)).extractLsb' 64 64) s

/-- The signed quotient with the special cases of R162. -/
def quotS (a b : Word) : Word := if b = 0 then BitVec.allOnes 64 else BitVec.ofInt 64 (a.toInt.tdiv b.toInt)
def quotU (a b : Word) : Word := if b = 0 then BitVec.allOnes 64 else a / b
def remS (a b : Word) : Word := if b = 0 then a else BitVec.ofInt 64 (a.toInt.tmod b.toInt)
def remU (a b : Word) : Word := if b = 0 then a else a % b

/-- DIV (R162): starts a signed division whose interlocked quotient lands 40 cycles later. -/
def execDiv (o : SR) (s : State) : Res := divOut o quotS s
/-- DIVU (R162): starts an unsigned division whose interlocked quotient lands 40 cycles later. -/
def execDivu (o : SR) (s : State) : Res := divOut o quotU s
/-- REM (R162): starts a signed remainder whose interlocked result lands 40 cycles later. -/
def execRem (o : SR) (s : State) : Res := divOut o remS s
/-- REMU (R162): starts an unsigned remainder whose interlocked result lands 40 cycles later. -/
def execRemu (o : SR) (s : State) : Res := divOut o remU s

/-- The number of leading zero bits. -/
def clzWord (x : Word) : Word := if x = 0 then 64 else BitVec.ofNat 64 (63 - Nat.log2 x.toNat)
/-- The number of trailing zero bits: those of the lowest one bit. -/
def ctzWord (x : Word) : Word := if x = 0 then 64 else BitVec.ofNat 64 (Nat.log2 (x &&& -x).toNat)
/-- The number of one bits among the low `n`. -/
def popNat : Nat → Nat → Nat
  | 0, _ => 0
  | n + 1, x => x % 2 + popNat n (x / 2)

/-- CLZ (R163): writes the count of leading zero bits of sA to sD. -/
def execClz (d a : BitVec 6) (g : GuardF) (s : State) : Res := scalarOut g 1 d (fun c => clzWord (c.rs a)) s
/-- CTZ (R163): writes the count of trailing zero bits of sA to sD. -/
def execCtz (d a : BitVec 6) (g : GuardF) (s : State) : Res := scalarOut g 1 d (fun c => ctzWord (c.rs a)) s
/-- POPC (R163): writes the count of one bits of sA to sD. -/
def execPopc (d a : BitVec 6) (g : GuardF) (s : State) : Res :=
  scalarOut g 1 d (fun c => BitVec.ofNat 64 (popNat 64 (c.rs a).toNat)) s

/-- p, w′ and the field mask of R164. -/
def bfPos (b : Word) : Nat := (b.extractLsb' 0 6).toNat
def bfMask (b : Word) : Word := BitVec.ofNat 64 (2 ^ min (b.extractLsb' 8 7).toNat (64 - bfPos b) - 1)

/-- BFX (R164): extracts a bit field of sA, selected by sB, into sD. -/
def execBfx (o : SR3) (s : State) : Res :=
  scalarOut o.g 1 o.d (fun c => (c.rs o.a >>> bfPos (c.rs o.b)) &&& bfMask (c.rs o.b)) s
/-- BFI (R164): inserts a bit field of sA into sD at the position and width given by sB. -/
def execBfi (o : SR3) (s : State) : Res :=
  scalarOut o.g 1 o.d (fun c =>
    let m := bfMask (c.rs o.b) <<< bfPos (c.rs o.b)
    (c.rs o.d &&& ~~~m) ||| ((c.rs o.a <<< bfPos (c.rs o.b)) &&& m)) s

/-- SEL (R165): writes sA or sB to sD according to a selecting guard. -/
def execSel (o : SR3) (c : GuardF) (s : State) : Res :=
  scalarOut o.g 1 o.d (fun k => if k.guard c then k.rs o.a else k.rs o.b) s

/-- MOVI (R166): writes a sign-extended 16-bit immediate to sD. -/
def execMovi (d : BitVec 6) (imm : BitVec 16) (g : GuardF) (s : State) : Res :=
  scalarOut g 1 d (fun _ => imm.signExtend 64) s

/-- MOVHI: chunk `q` replaced, every other bit kept (R166). -/
def execMovhi (d : BitVec 6) (imm : BitVec 16) (q : BitVec 2) (g : GuardF) (s : State) : Res :=
  scalarOut g 1 d (fun c =>
    let n := 16 * q.toNat
    (c.rs d &&& ~~~(0xFFFF#64 <<< n)) ||| (imm.setWidth 64 <<< n)) s

/-! ### Compares and guards (R167, R168) -/

def cmpHolds (cc : CmpCond) (a b : Word) : Bool :=
  match cc with
  | .eq => a == b
  | .ne => a != b
  | .lt => a.slt b
  | .le => a.sle b
  | .ltu => a.ult b
  | .leu => a.ule b

/-- CMP (R167): compares sA with b under a condition and writes a guard. -/
def execCmp (cc : CmpCond) (o : SR) (s : State) : Res :=
  guardOut o.g o.d (fun c => cmpHolds cc (c.rs o.a) (o.opB c)) s

/-- GAND (R168): writes the AND of two guards to a guard. -/
def execGand (d : BitVec 6) (a b : GuardF) (g : GuardF) (s : State) : Res :=
  guardOut g d (fun c => c.guard a && c.guard b) s
/-- GOR (R168): writes the OR of two guards to a guard. -/
def execGor (d : BitVec 6) (a b : GuardF) (g : GuardF) (s : State) : Res :=
  guardOut g d (fun c => c.guard a || c.guard b) s
/-- GNOT (R168): writes the negation of a guard to a guard. -/
def execGnot (d : BitVec 6) (a : GuardF) (g : GuardF) (s : State) : Res := guardOut g d (fun c => !c.guard a) s

/-! ### Scalar floating point (R169 to R172) -/

/-- The FP32 value in bits [31:0]. -/
def CoreState.rf (c : CoreState) (i : BitVec 6) : Num := f32Num ((c.rs i).setWidth 32)

/-- An FP32 operation under `fmt`.RND, exposed 4. -/
def floatOut (o : SR3) (f : CoreState → Env → Nat × Env) (s : State) : Res :=
  guarded o.g s fun s => withRnd s fun env =>
    let (b, e) := f s.core env
    ok (laterEnv s 4 (.s o.d (BitVec.ofNat 64 b)) e)

/-- FADD (R169): adds two FP32 values under fmt.RND into sD. -/
def execFadd (o : SR3) (s : State) : Res := floatOut o (fun c => fltAdd .f32 (c.rf o.a) (c.rf o.b)) s
/-- FSUB (R169): subtracts two FP32 values under fmt.RND into sD. -/
def execFsub (o : SR3) (s : State) : Res := floatOut o (fun c => fltAdd .f32 (c.rf o.a) (c.rf o.b).neg) s
/-- FMUL (R169): multiplies two FP32 values under fmt.RND into sD. -/
def execFmul (o : SR3) (s : State) : Res := floatOut o (fun c => fltMul .f32 (c.rf o.a) (c.rf o.b)) s
/-- FFMA (R169): computes sA times sB plus sD, rounded once, into sD. -/
def execFfma (o : SR3) (s : State) : Res := floatOut o (fun c => fltFma .f32 (c.rf o.a) (c.rf o.b) (c.rf o.d)) s
/-- FMIN (R169): writes the smaller of two FP32 values to sD. -/
def execFmin (o : SR3) (s : State) : Res :=
  scalarOut o.g 4 o.d (fun c => (f32Bits (Num.minX (c.rf o.a) (c.rf o.b))).setWidth 64) s
/-- FMAX (R169): writes the larger of two FP32 values to sD. -/
def execFmax (o : SR3) (s : State) : Res :=
  scalarOut o.g 4 o.d (fun c => (f32Bits (Num.maxX (c.rf o.a) (c.rf o.b))).setWidth 64) s

/-- A result of type `t` in a scalar register: signed integers sign-extended, all others zero-extended. -/
def extendTy (t : Ty) (b : Nat) : Word :=
  if t.isInt && t.isSigned then BitVec.ofInt 64 (tyToInt t b) else BitVec.ofNat 64 (b % 2 ^ t.bits)

/-- FCVT (R170): converts sA from a source type to a target type into sD. -/
def execFcvt (d a : BitVec 6) (tt ss : Ty) (g : GuardF) (s : State) : Res :=
  guarded g s fun s => withRnd s fun env =>
    let (b, e) := tyRound tt false (tyNum ss ((s.core.rs a).toNat % 2 ^ ss.bits)) env
    ok (laterEnv s 4 (.s d (extendTy tt b)) e)

def fcmpHolds (cc : FCmpCond) (a b : Num) : Bool :=
  match cc with
  | .eq => a.eqX b
  | .ne => !a.eqX b
  | .lt => a.ltX b
  | .le => a.ltX b || a.eqX b
  | .uno => a.isNan || b.isNan

/-- FCMP (R171): compares two FP32 values and writes a guard. -/
def execFcmp (cc : FCmpCond) (o : SR3) (s : State) : Res :=
  guardOut o.g o.d (fun c => fcmpHolds cc (c.rf o.a) (c.rf o.b)) s

/-- The class bit of R172. -/
def fclassBit (b : BitVec 32) : Nat :=
  let ex := b.extractLsb' 23 8
  let mt := b.extractLsb' 0 23
  let neg := b.getLsbD 31
  if ex = 0xFF#8 then (if mt ≠ 0#23 then 8 else if neg then 0 else 7)
  else if ex = 0#8 then
    if mt = 0#23 then (if neg then 3 else 4) else (if neg then 2 else 5)
  else if neg then 1 else 6

/-- FCLASS (R172): writes a one-hot class of the FP32 value in sA to sD. -/
def execFclass (d a : BitVec 6) (g : GuardF) (s : State) : Res :=
  scalarOut g 4 d (fun c => 1#64 <<< fclassBit ((c.rs a).setWidth 32)) s

end Sys2Proof.Machine
end

