-- ==== Sys2Proof/Machine/Control.lean ====
section
/-! DEFINITION. Slot 0: transfers of control and hardware loops (R140, R173 to R176), task identity (R177, R178), the
ends of a task, traps (R179 to R182) and system registers (R184, R306). -/

namespace Sys2Proof.Machine

open Sys2Proof

/-! ### Transfers (R173 to R175) -/

/-- own address + 16 × disp. -/
def dispTarget (pc : Word) (disp : BitVec 22) : Word := pc + (disp.signExtend 64 <<< 4)

/-- BR (R173): branches by a signed bundle displacement when its guard is true. -/
def execBr (disp : BitVec 22) (g : GuardF) (s : State) : Res :=
  guarded g s fun s => ok (jumpTo s (dispTarget s.core.pc disp) true)

/-- A JMP or RET target must be a bundle address (R140). -/
def indirect (s : State) (target : Word) (pops : Bool) : Res :=
  if target.extractLsb' 0 4 = 0 then ok (jumpTo s target pops) else trap s (endTrap s 0x03 target)

/-- JMP (R173): jumps to the address in sA when its guard is true. -/
def execJmp (a : BitVec 6) (g : GuardF) (s : State) : Res :=
  guarded g s fun s => indirect s (s.core.rs a) true

/-- CALL (R173): branches and writes the return address to s63. -/
def execCall (disp : BitVec 22) (g : GuardF) (s : State) : Res :=
  guarded g s fun s => ok (jumpTo (later s 1 (.s 63 (s.core.pc + 16))) (dispTarget s.core.pc disp) false)

/-- RET (R173): jumps to the address in s63. -/
def execRet (g : GuardF) (s : State) : Res :=
  guarded g s fun s => indirect s (s.core.rs 63) false

/-- A LOOP of `n` passes (R174). -/
def openLoop (s : State) (n : Word) (disp : BitVec 10) : Res :=
  let c := s.core
  let lend := c.pc + (disp.setWidth 64 <<< 4)
  if n = 0 then ok (jumpTo s lend true)
  else
    let last := match c.loops.top with
      | some i => c.pc == c.loops.lend.get i - 16
      | none => false
    if 4 ≤ c.loops.depth.toNat || last then trap s (endTrap s 0x05 0)
    else
      let i : Fin 4 := ⟨c.loops.depth.toNat % 4, Nat.mod_lt _ (by decide)⟩
      ok { s with core := { c with loops :=
        { depth := c.loops.depth + 1, lcnt := c.loops.lcnt.set i n, lbeg := c.loops.lbeg.set i (c.pc + 16),
          lend := c.loops.lend.set i lend } } }

/-- LOOP (R174): opens a hardware loop with an immediate pass count. -/
def execLoop (n : BitVec 12) (disp : BitVec 10) (g : GuardF) (s : State) : Res :=
  guarded g s fun s => openLoop s (n.setWidth 64) disp

/-- LOOP_REG (R174): opens a hardware loop with its pass count read from sA, or skips the body when it reads 0. -/
def execLoopReg (a : BitVec 6) (disp : BitVec 10) (g : GuardF) (s : State) : Res :=
  guarded g s fun s => openLoop s (s.core.rs a) disp

/-! ### Identity (R12, R18, R19, R178) -/

/-- The shadow of a write of `fmt` is 4 bundles (R34). -/
def execSetfmt (a : BitVec 6) (g : GuardF) (s : State) : Res :=
  guarded g s fun s =>
    let x := s.core.rs a
    if x.extractLsb' 20 44 = 0 then ok (later s 4 (.sys 0x010 x)) else trap s (endTrap s 0x12 x)

/-- Field i of the wid (R12). -/
def widField (p : Plane) (i : Nat) : Word :=
  let o := (p.widths.take i).sum
  BitVec.ofNat 64 (p.wid.toNat / 2 ^ o % 2 ^ (p.widths.getD i 0))

/-- GETF (R178): writes a field of the task's wid to sD. -/
def execGetf (d : BitVec 6) (i : BitVec 6) (g : GuardF) (s : State) : Res :=
  scalarOut g 1 d (fun c => widField c.plane i.toNat) s

/-- The identifiers of R19. -/
def taskId (core : Nat) (c : CoreState) (sel : Nat) : Word :=
  match sel with
  | 0 => BitVec.ofNat 64 (core % 16)
  | 1 => BitVec.ofNat 64 (core / 16 % 8)
  | 2 => BitVec.ofNat 64 ((c.task.map (·.vd)).getD 0)
  | 3 => BitVec.ofNat 64 c.plane.member
  | 4 => BitVec.ofNat 64 c.plane.gsize
  | 5 => c.plane.wid
  | _ => BitVec.ofNat 64 (c.plane.extents.foldl (· * ·) 1)

/-- GETID (R178): writes a selected identifier of the running task to sD. -/
def execGetid (d : BitVec 6) (i : BitVec 6) (g : GuardF) (s : State) : Res :=
  guarded g s fun s => ok (later s 1 (.s d (taskId s.coreId s.core i.toNat)))

/-- The context of the active core's task. -/
def State.context (s : State) : Option Ctx :=
  match s.core.task with
  | some t => kfind (s.die s.here).active.ctxs t.slot
  | none => none

/-- The socket of a virtual die, if it is bound (R18). -/
def boundDie (c : Option Ctx) (v : Word) : Option (BitVec 2) :=
  match c with
  | some x => if v.toNat < 4 then (x.vdt.getD v.toNat none) else none
  | none => none

/-- The hop distance of two virtual dies (R18). -/
def hopsOf (c : Option Ctx) (a b : Word) : Word :=
  match boundDie c a, boundDie c b with
  | some x, some y => BitVec.ofNat 64 (max x.toNat y.toNat - min x.toNat y.toNat)
  | _, _ => BitVec.allOnes 64

/-- HOPS (R178): writes the hop distance between two virtual dies to sD. -/
def execHops (o : SR3) (s : State) : Res :=
  guarded o.g s fun s => ok (later s 1 (.s o.d (hopsOf s.context (s.core.rs o.a) (s.core.rs o.b))))

/-! ### END, DRAIN, TRAP, BRK, ERET (R179 to R182) -/

/-- END: its waits begin after its bundle; TASK_END ends the task. -/
def execEndTask (g : GuardF) (s : State) : Res :=
  guarded g s fun s => ok { s with core := { s.core with run := .ending } }

/-- DRAIN: legal only while a drain of the task is in progress; DRAIN_COMPLETE follows its waits. -/
def execDrain (g : GuardF) (s : State) : Res :=
  guarded g s fun s =>
    if s.core.drainRpc.isSome then ok { s with core := { s.core with run := .draining } }
    else trap s (endTrap s 0x06 0)

/-- A service trap, taken after its bundle (R181). (DEDUCED: log 58) -/
def softTrap (s : State) (cause : Cause) (code : BitVec 8) : Res :=
  ok { s with core := { s.core with
    post := some { TrapInfo.mk0 cause 0 s.core.pc (code.setWidth 64) with code := code } } }

/-- TRAP (R181): suspends the task to firmware after its bundle with a software trap code. -/
def execTrap (code : BitVec 6) (g : GuardF) (s : State) : Res :=
  guarded g s fun s => softTrap s 0x01 (code.setWidth 8)

/-- BRK (R181): suspends the task to firmware after its bundle with cause breakpoint. -/
def execBrk (g : GuardF) (s : State) : Res := guarded g s fun s => softTrap s 0x02 0

/-- The privilege trap of a task (R182, R184). -/
def privilege (s : State) : Res := trap s (endTrap s 0x04 0)

/-- ERET (R182): returns from a firmware handler to the saved PC and level. -/
def execEret (g : GuardF) (s : State) : Res :=
  guarded g s fun s =>
    if isController s.coreId then
      let (d, pc) := leaveHandler (s.die s.here)
      ok { (s.setDie s.here d) with core := { s.core with jump := some pc } }
    else privilege s

/-! ### System registers (R184, R306) -/

/-- A system register of the active agent. -/
def State.sysReg (s : State) (n : BitVec 12) : Word :=
  if n.toNat < 0x100 then s.core.sysRead n else (s.die s.here).sysRead n

def CoreState.chains (c : CoreState) : Bool := c.ladders.toList.any fun l => l.chain.isSome

/-- In firmware mode a number that R306 and R295 do not list, or an access against the register's own, is illegal.
(DEDUCED: log 106) -/
def firmwareIllegal (n : BitVec 12) (write : Bool) : Bool :=
  0x100 ≤ n.toNat && (!firmwareReg n || (if write then firmwareRO n else firmwareWO n))

/-- Whether the number of an MFS or MTS makes its bundle illegal at the active agent, whatever the guard (R143, R306). -/
def illegalNumber (s : State) (i : Instr) : Bool :=
  isController s.coreId && (match i with
    | .mfs _ n _ => firmwareIllegal n false
    | .mts _ n _ => firmwareIllegal n true
    | _ => false)

/-- MFS (R184): reads a system register into sD. (DEDUCED: log 106) -/
def execMfs (d : BitVec 6) (n : BitVec 12) (g : GuardF) (s : State) : Res :=
  guarded g s fun s =>
    if illegalNumber s (.mfs d n g) then trap s (endTrap s 0x03 0)
    else if 0x100 ≤ n.toNat && !isController s.coreId then privilege s
    else if n = 0x011 && s.core.chains then hold s .chain
    else ok (later s 1 (.s d (s.sysReg n)))

/-- MTS: a system register takes the value of a scalar (R184, R306). (DEDUCED: log 36, 106) -/
def execMts (a : BitVec 6) (n : BitVec 12) (g : GuardF) (s : State) : Res :=
  guarded g s fun s =>
    let x := s.core.rs a
    if illegalNumber s (.mts a n g) then trap s (endTrap s 0x03 0)
    else if 0x100 ≤ n.toNat && !isController s.coreId then privilege s
    else if n = 0x010 then
      if x.extractLsb' 20 12 = 0 then ok (later s 4 (.sys n x)) else trap s (endTrap s 0x12 x)
    else if n = 0x013 && 5 ≤ (x.extractLsb' 0 3).toNat then trap s (endTrap s 0x05 x)
    else ok (later s 1 (.sys n x))

end Sys2Proof.Machine
end

