-- ==== Sys2Proof/Machine/Ctl.lean ====
section
/-! DEFINITION. What control space reads as (R308 to R314, R320, R326, R327, R345 to R348, R356, R361, R374): the bytes of
every register, record and table of the compute-die blocks and of XD0's block. -/

namespace Sys2Proof.Machine

open Sys2Proof

/-! ### Tables that control space shows -/

def eventKey (part slot ev : Nat) : Nat := (64 * part + slot) * 256 + ev

def EvCtr.zero : EvCtr := ⟨0, []⟩

def State.event (s : State) (part slot : Nat) (ev : BitVec 8) : EvCtr := kget .zero s.events (eventKey part slot ev.toNat)

def LaunchPage.empty : LaunchPage := ⟨List.replicate 256 0, 0, 0⟩

def State.page (s : State) (d : BitVec 2) (slot : Nat) : LaunchPage := kget .empty (s.die d).pages slot

/-- The base of XD0's block, and the end of control space that holds blocks (R308). -/
def xd0Base : Nat := 0x300000000
def blockSize : Nat := 0x40000000

/-- DSTAT (R309) of a die in partition `part`. -/
def DieState.dstat (x : DieState) (part : Nat) : Nat :=
  x.up.toNat + 2 * x.retired.toNat + 4 * x.urst.toNat + 8 * x.crst.toNat + 16 * part

/-- The 256 bytes of a context record (R311); `val` is its VAL bit. -/
def Ctx.bytes (c : Ctx) (val : Bool) : List Byte :=
  let vdt := (List.range 4).map fun v => match c.vdt.getD v none with
    | some d => BitVec.ofNat 8 (0x80 + d.toNat)
    | none => ((c.idle.getD v 0).setWidth 8 : Byte)
  bytesOfNat 4 (c.pasid + if val then 2 ^ 31 else 0) ++ vdt ++ bytesOfNat 8 c.ept.toNat ++ bytesOfNat 2 c.epn ++ bytesOfNat 6 0 ++
    bytesOfNat 8 c.est.toNat ++ List.replicate 224 0

/-- A record of a bank: a context, what a DESTROY left, or 0. -/
def Bank.record (b : Bank) (slot : Nat) : List Byte :=
  match kfind b.ctxs slot, kfind b.stale slot with
  | some c, _ => c.bytes true
  | none, some c => c.bytes false
  | none, none => List.replicate 256 0

/-- CORE of a fault record (R346). (DEDUCED: log 105) -/
def coreField (core : Nat) : Nat := if core < 512 then core % 128 else 0xFFFF

/-- The 64 bytes of a fault record (R346). -/
def FaultRec.bytes (f : FaultRec) : List Byte :=
  let t := f.ev.info
  let race := t.cause == 0x11
  let seen (lo n : Nat) : Nat := t.seen.toNat / 2 ^ lo % 2 ^ n
  [t.cause, t.kind] ++ bytesOfNat 2 (coreField f.ev.core) ++ bytesOfNat 4 f.ev.pasid ++ bytesOfNat 8 f.ev.wid.toNat ++
    bytesOfNat 8 t.info0.toNat ++ bytesOfNat 8 t.info1.toNat ++ bytesOfNat 8 t.pa.toNat ++ bytesOfNat 2 t.item.toNat ++
    [t.sub, t.out] ++ bytesOfNat 2 (if race then seen 0 16 else t.home.toNat) ++ bytesOfNat 2 (if race then seen 16 16 else 0) ++
    bytesOfNat 8 f.ev.stamp ++ bytesOfNat 4 f.seq.toNat ++ bytesOfNat 4 (if race then seen 32 32 else 0)

/-- The 32 bytes of a machine-check entry (R348). -/
def McEntry.bytes (m : McEntry) : List Byte :=
  [m.unit, m.sev] ++ bytesOfNat 2 m.loc.toNat ++ bytesOfNat 4 m.count.toNat ++ bytesOfNat 8 m.pa ++ bytesOfNat 8 m.stamp ++
    bytesOfNat 8 0

/-- The 64 bytes of a suspension record (R345). -/
def SuspRec.recBytes (r : SuspRec) : List Byte :=
  bytesOfNat 8 r.wid.toNat ++ bytesOfNat 8 r.pasid ++ bytesOfNat 8 r.pc.toNat ++ bytesOfNat 8 r.rpc.toNat ++
    bytesOfNat 2 r.kind.toNat ++ bytesOfNat 2 r.slot ++ List.replicate 28 0

/-- The suspension record that a core's block shows: the last of that core, while FCORE names it (R306, R345).
(DEDUCED: log 58, 105) -/
def suspension (s : State) (k : Nat) : List Byte :=
  let x := s.die (dieOf k)
  match kfind x.active.susp k with
  | some r => if x.fcore.toNat = k % 128 then r.recBytes else List.replicate 64 0
  | none => List.replicate 64 0

/-- The register of a compute-die block at an offset below 0x1000: its base and its bytes, if it can be read. -/
def dieWord (x : DieState) (part o : Nat) : Option (Nat × List Byte) :=
  match o / 4 with
  | 0 => some (0, bytesOfNat 4 (x.dstat part))
  | 2 => some (8, bytesOfNat 4 x.dctl.toNat)
  | 4 => some (16, bytesOfNat 4 x.flprod.toNat)
  | 5 => some (20, bytesOfNat 4 x.flcons.toNat)
  | 6 => some (24, bytesOfNat 4 x.fllost.toNat)
  | 8 => some (32, bytesOfNat 4 x.mcprod.toNat)
  | 12 => some (48, bytesOfNat 4 x.acsel.toNat)
  | _ => none

/-- The register, record or table entry that holds an offset of a compute-die block: its base and its bytes, if it can be
read. -/
def dieItem (s : State) (d : BitVec 2) (o : Nat) : Option (Nat × List Byte) :=
  let x := s.die d
  if o < 0x1000 then dieWord x (partOfDie s.xd0.mode d) o
  else if o < 0x9000 then
    let k := 128 * d.toNat + (o - 0x1000) / 0x100
    let b := (o - 0x1000) % 0x100
    if b < 0x40 then some (o - b, suspension s k)
    else if 0x80 ≤ b && b < 0xC0 then some (o - b + 0x80, bytesOfNat 64 (kget 0 s.snaps k).toNat)
    else none
  else if 0x10000 ≤ o && o < 0x14000 then some (o - o % 256, x.active.record ((o - 0x10000) / 256))
  else if 0x20000 ≤ o && o < 0x24000 then some (o - o % 256, x.shadow.record ((o - 0x20000) / 256))
  else if 0x30000 ≤ o && o < 0x31000 then
    let n := 1024 * x.acsel.toNat + (o - 0x30000) / 4
    let v : BitVec 32 := if (kfind x.active.ctxs x.acsel.toNat).isSome then kget 0 x.active.arr n else 0
    some (o - o % 4, bytesOfNat 4 v.toNat)
  else if 0x40000 ≤ o && o < 0x80000 then
    let slot := (o - 0x40000) / 0x1000
    let b := o % 0x1000
    if 0x100 ≤ b && b < 0x104 then
      let p := s.page d slot
      some (o - o % 4, [p.code, 0] ++ bytesOfNat 2 p.seq.toNat)
    else if 0x400 ≤ b && b < 0x800 then
      some (o - o % 4, bytesOfNat 4 (s.event (partOfDie s.xd0.mode d) slot (BitVec.ofNat 8 ((b - 0x400) / 4))).val.toNat)
    else none
  else if 0x80000 ≤ o && o < 0x90000 then
    some (o - o % 64, ((kfind x.flog ((o - 0x80000) / 64)).map FaultRec.bytes).getD (List.replicate 64 0))
  else if 0x90000 ≤ o && o < 0x92000 then
    some (o - o % 32, ((kfind x.mclog ((o - 0x90000) / 32)).map McEntry.bytes).getD (List.replicate 32 0))
  else none

/-- PMODE and BSTAT (R313, R374). -/
def Xd0.pmode (x : Xd0) : Nat := x.mode.toNat + 4 * x.lat0.toNat
def Xd0.bstat (x : Xd0) : Nat := x.phase.toNat + 256 * x.err.toNat + 65536 * x.svn.toNat

/-- The number of key-map entries (R320). -/
def keyMapSize : Nat := 327872

/-- The register or table entry that holds an offset of XD0's block. -/
def xd0Item (x : Xd0) (o : Nat) : Option (Nat × List Byte) :=
  if o < 4 then some (0, bytesOfNat 4 x.pmode)
  else if 0x100 ≤ o && o < 0x200 then
    (x.mailboxes[(o - 0x100) / 0x40]?).map fun m =>
      (o - o % 0x40, bytesOfNat 4 m.cmd.toNat ++ bytesOfNat 4 m.lat.toNat ++ bytesOfNat 8 m.arg.toNat ++ bytesOfNat 4 m.res.toNat ++
        List.replicate 44 0)
  else if 0x200 ≤ o && o < 0x204 then some (0x200, bytesOfNat 4 x.bstat)
  else if 0x208 ≤ o && o < 0x210 then some (0x208, bytesOfNat 8 x.baddr.toNat)
  else if 0x210 ≤ o && o < 0x218 then some (0x210, bytesOfNat 8 x.blen.toNat)
  else if 0x300 ≤ o && o < 0x310 then
    some (0x300, bytesOfNat 4 x.pwrnow.toNat ++ bytesOfNat 4 x.pwrcap.toNat ++ bytesOfNat 4 x.tinlet.toNat ++ bytesOfNat 4 x.tjmax.toNat)
  else if 0x10000 ≤ o && o < 0x20000 then some (o - o % 64, List.replicate 64 0)
  else if 0x100000 ≤ o && o < 0x100000 + 2 * keyMapSize then
    some (o - o % 2, bytesOfNat 2 (kget 0 x.keymap ((o - 0x100000) / 2)).toNat)
  else none

/-- A byte of control space, where a register, record or table that can be read holds it. -/
def ctlByte (s : State) (a : Nat) : Option Byte :=
  let o := a % blockSize
  let item := if a < 4 * blockSize then (dieItem s (BitVec.ofNat 2 (a / blockSize)) o).map fun i => (i.2, o - i.1)
    else if xd0Base ≤ a && a < xd0Base + blockSize then (xd0Item s.xd0 o).map fun i => (i.2, o - i.1)
    else none
  item.bind fun i => i.1[i.2]?

/-- What a die controller's own read of an address outside device memory gives: the byte of control space, or, where the
interposer refuses the access, all ones (R360). None: the address lies in device memory. (DEDUCED: log 50) -/
def controllerByte (s : State) (pa : Nat) : Option Byte :=
  match regionOf pa with
  | .control => some ((ctlByte s pa).getD 0xFF)
  | .none | .host => some 0xFF
  | _ => none

end Sys2Proof.Machine
end

