-- ==== Sys2Proof/Machine/Access.lean ====
section
/-! DEFINITION. Core-path accesses that loads, stores, atomics and the scratchpad moves of slots 2 and 3 share: checks (R138,
R260, R267), reads with store forwarding (R131), full-empty hand-offs (R49, R51, R136), and the store queues (R129,
R68). -/

namespace Sys2Proof.Machine

open Sys2Proof

/-! ### Checks -/

/-- Trap(alignment), naming the address (R260). -/
def alignTrap (s : State) (va lane : Nat) : TrapInfo :=
  { endTrap s 0x09 (BitVec.ofNat 64 va) with item := BitVec.ofNat 16 lane }

/-- Trap(address) (R258, R261, R272). -/
def addressTrap (s : State) (x : Word) : TrapInfo := endTrap s 0x0A x

/-- Trap(memory-model) (R138): the granule, the tag and seen[W]. (DEDUCED: log 48) -/
def raceTrap (s : State) (g w : Nat) (e : Word) : TrapInfo :=
  { endTrap s 0x11 e with
    pa := BitVec.ofNat 64 g, item := BitVec.ofNat 16 w, seen := (s.core.seen[w]?).getD 0 }

/-- Trap(early-read) (R55). -/
def earlyTrap (s : State) : TrapInfo := endTrap s 0x07 0

/-- Trap(data-poison). (DEDUCED: log 59) -/
def poisonTrap (s : State) (va pa lane : Nat) : TrapInfo :=
  { endTrap s 0x10 (BitVec.ofNat 64 va) with pa := BitVec.ofNat 64 pa, item := BitVec.ofNat 16 lane }

/-- A multicast store in flight to a scratchpad word: the word has an exposed write outstanding (R55, R68). -/
def mcastPending (s : State) (pas : List Nat) : Bool :=
  let hit (c : CoreState) := c.mcast.any fun e => e.bytes.any fun b => pas.any fun pa => pa / 4 == b.pa / 4
  hit s.core || s.parked.any fun p => hit p.2

/-- The race check of a plain access; a die controller's accesses are not checked. (DEDUCED: log 45, 47) -/
def withRace (s : State) (pas : List Nat) (k : Unit → Res) : Res :=
  if isController s.coreId then k () else
  match raceOf s s.coreId s.core.seen pas with
  | some (g, w, e) => trap s (raceTrap s g w e)
  | none => k ()

/-- The early-read check of a load (R55). -/
def withEarly (s : State) (pas : List Nat) (k : Unit → Res) : Res :=
  if s.core.dbgctl.getLsbD 0 && mcastPending s pas then trap s (earlyTrap s) else k ()

/-- The bytes of checked pieces: virtual address and physical key. -/
def segBytes (segs : List Seg) : List (Nat × Nat) :=
  segs.flatMap fun g => (List.range g.len).map fun i => (g.va + i, g.pa + i)

/-- Checks every range (address, length, lane) of one access; the first that fails in lane order decides (R267). -/
def withBytes (s : State) (n : Need) (ranges : List (Nat × Nat × Nat)) (k : List (Nat × Nat) → Res) : Res :=
  withChecked s (checkAll (fun r => checkRange s n r.1 r.2.1 r.2.2) ranges) fun segs => k (segBytes segs)

/-- Whether a physical address lies in the active core's own scratchpad. -/
def ownScratch (s : State) (pa : Nat) : Bool := regionOf pa == .sp s.coreId

/-! ### Reads with forwarding (R131) -/

/-- The youngest store to a byte in SQ(c, stream) that issued before `limit`. -/
def sqFind (c : CoreState) (stream : BitVec 4) (limit pa : Nat) : Option WByte :=
  (c.sq.reverse.filter fun e => e.stream == stream && decide (e.seq < limit)).findSome? fun e =>
    e.bytes.reverse.find? fun b => b.pa == pa

/-- One byte as the active core reads it on the core path: the youngest store of its own stream, else control space for a die
controller (R308), else the order machine. -/
def coreByte (stream : BitVec 4) (limit : Nat) (s : State) (pa : Nat) : ReadByte × State :=
  match sqFind s.core stream limit pa with
  | some b => (⟨b.val, b.poison, 0, true⟩, s)
  | none =>
    match if isController s.coreId && reaches s s.here pa then controllerByte s pa else none with
    | some v => (⟨v, false, 0, false⟩, s)
    | none => readByte s s.here .core s.core.own pa

/-- A write that the active core has read enters Obs(c) (R130). -/
def observe (s : State) (src : Nat) : State :=
  if src = 0 then s
  else { s with core := { s.core with own := sinsert s.core.own src, obs := sinsert s.core.obs src } }

/-- Reads bytes on the core path of the active core; the writes read enter Obs(c) (R130, R131). -/
def coreRead (stream : BitVec 4) (limit : Nat) : List Nat → State → List ReadByte × State
  | [], s => ([], s)
  | pa :: r, s =>
    let (b, s) := coreByte stream limit s pa
    let (bs, s) := coreRead stream limit r (observe s b.src)
    (b :: bs, s)

/-- Whether the bytes that a core-path read names can be read now (R131). (DEDUCED: log 11) -/
def coreReadable (s : State) (stream : BitVec 4) (limit : Nat) (pas : List Nat) : Bool :=
  readable s s.here .core s.core.own (pas.filter fun pa => (sqFind s.core stream limit pa).isNone)

/-- Whether every load issued before `limit` in a stream has performed, and every earlier acquire and atomic of any
stream (R130 LOAD). (DEDUCED: log 42) -/
def CoreState.loadsBefore (c : CoreState) (stream : BitVec 4) (limit : Nat) : Bool :=
  c.loads.all fun e => decide (limit ≤ e.seq) || !(e.stream == stream || e.acq.isSome || e.atomic.isSome)

/-- Whether every acquire of any stream issued before `limit` has performed, atomics with AR among them (R132). -/
def CoreState.acquiresBefore (c : CoreState) (limit : Nat) : Bool :=
  c.loads.all fun e => decide (limit ≤ e.seq) || !(e.acq.isSome || (match e.atomic with
    | some (_, ar) => ar
    | none => false))

/-- What a store waits for (R60, R130 DRAIN, R132): the loads and atomics of its own stream that issued before it, and the
acquires before it in any stream. (DEDUCED: log 42) -/
def CoreState.storeBefore (c : CoreState) (stream : BitVec 4) (limit : Nat) : Bool :=
  c.loads.all fun e => decide (limit ≤ e.seq) || !(e.stream == stream || e.acq.isSome || (match e.atomic with
    | some (_, ar) => ar
    | none => false))

/-- A read that acts at its bundle in the order of stream 0 (R114, R212, R216, R225): the early-read check (R55), then the
earlier loads of its stream have performed, else the bundle holds. -/
def withRead0 (s : State) (pas : List Nat) (k : List ReadByte → State → Res) : Res :=
  withEarly s pas fun _ =>
    if s.core.loadsBefore 0 s.core.seq && coreReadable s 0 s.core.seq pas then
      let (bs, s') := coreRead 0 s.core.seq pas s
      k bs s'
    else hold s .readiness

/-! ### Full-empty hand-offs (R49, R51, R136) -/

def raiseSeen (v : Vector Word 512) (w : Nat) (e : Word) : Vector Word 512 :=
  if h : w < 512 then v.set w (if (v[w]).toNat < e.toNat then e else v[w]) else v

/-- What finding a granule full does for the active core: the write that set the bit is joined for this reader, it and its
predecessors in its producer's sequence enter Obs(c), and seen rises to the tag's epoch. (DEDUCED: log 41) -/
def handOff (s : State) (gr : Nat) : State :=
  let id := (kfind s.fe gr).getD 0
  let prod := ((s.writes.find? fun w => w.id == id).map fun w => w.prod).getD 0
  let before := (s.writes.filter fun w =>
    prod ≠ 0 && w.prod == prod && decide (w.id < id) && w.applied.contains s.here).map (·.id)
  let c := s.core
  let seen := match kfind s.tags gr with
    | some (.by w e) => raiseSeen c.seen w e
    | _ => c.seen
  { s with core := { c with
      seen := seen
      own := if id = 0 then c.own else sinsert c.own id
      obs := before.foldl sinsert (if id = 0 then c.obs else sinsert c.obs id) } }

/-- The granules of an access, each once, in rising order. -/
def granulesOf (pas : List Nat) : List Nat := pas.foldl (fun l pa => sinsert l (granule pa)) []

/-- Goes on once every granule is full, after the hand-offs; `clr` empties them all in one step. (DEDUCED: log 41) -/
def withFull (s : State) (pas : List Nat) (clr : Bool) (k : State → Res) : Res :=
  let gs := granulesOf pas
  if gs.all fun gr => (kfind s.fe gr).isSome then
    let s := gs.foldl handOff s
    k (if clr then clearFull s gs else s)
  else hold s .feWait

/-! ### Stores -/

/-- One element of a store: address, bytes and lane. -/
structure Piece1 where
  va   : Nat
  data : List Byte
  lane : Nat
deriving DecidableEq, Repr

/-- Checks one element of a store: the multicast window takes bytes of one scratchpad offset range (R68). -/
def checkStore (s : State) (p : Piece1) : Checked :=
  match if isController s.coreId then .plain else windowOf p.va p.data.length with
  | .mcast _ off =>
    if off + p.data.length ≤ 2 ^ 20 then .ok [] else .bad { accessTrap s p.va with item := BitVec.ofNat 16 p.lane }
  | _ => checkRange s ⟨false, true⟩ p.va p.data.length p.lane

/-- The bytes of an element that go to the store queue, and those that a multicast store lands in its targets. -/
def storeBytes (s : State) (p : Piece1) : List WByte × List WByte :=
  match if isController s.coreId then .plain else windowOf p.va p.data.length with
  | .mcast mask off =>
    ([], ((List.range 16).filter fun k => mask.testBit k).flatMap fun k =>
      p.data.zipIdx.map fun b => ⟨spAddr (16 * clusterOf s.coreId + k) (off + b.2), b.1, false⟩)
  | _ =>
    match checkRange s ⟨false, true⟩ p.va p.data.length p.lane with
    | .ok segs => ((segAddrs segs).zip p.data |>.map fun x => ⟨x.1, x.2, false⟩, [])
    | _ => ([], [])

/-- Puts writes at the tail of SQ(c, stream), in order; the last one is counted. -/
def enqueue (s : State) (stream : BitVec 4) (gs : List (List WByte)) (setFe : Bool) (rel : Option Scope) (counts : Bool) :
    State :=
  let n := gs.length
  let es := gs.zipIdx.map fun g => (⟨s.core.seq, stream, g.1, setFe, rel, counts && g.2 + 1 == n⟩ : StoreEntry)
  { s with core := { s.core with sq := s.core.sq ++ es, seq := s.core.seq + 1 } }

/-- Whether a completion counter can take no further count (R275). (DEDUCED: log 39) -/
def CoreState.atLimit (c : CoreState) (i : BitVec 3) : Bool := c.cnt.get i == BitVec.allOnes 16

/-- Obs(c) and the epoch that a release of the active core carries now; the epoch advances (R132, R137). (DEDUCED: log 43) -/
def releaseNow (s : State) (scope : Scope) : Release × State :=
  (⟨s.coreId, (s.epochs[s.coreId]?).getD 0, scope, s.core.obs⟩, s.stepEpoch s.coreId)

/-- Whether the writes of an agent to host memory have completed at the host's ordering point, which lies behind every die's
view (R133). (DESIGN CHOICE: log 132) -/
def hostDone (s : State) (core : Nat) : Bool :=
  allApplied s ((s.writes.filter fun w => w.core == core && w.bytes.any fun b => regionOf b.pa == .host).map (·.id))

/-- R132's precondition of a release by the active core whose place in issue order is `limit`: its earlier accesses on the
core path, multicast stores among them, have performed, drained or landed. (DESIGN CHOICE: log 132) -/
def releaseReady (s : State) (scope : Scope) (limit : Nat) : Bool :=
  (s.core.sq.all fun e => decide (limit ≤ e.seq)) && (s.core.loads.all fun e => decide (limit ≤ e.seq)) &&
  (s.core.mcast.all fun e => decide (limit ≤ e.seq)) &&
  (match scope with
    | .package => allArrived s s.core.obs
    | .system => allArrived s s.core.obs && hostDone s s.coreId
    | _ => true)

/-- A store of the active core: every element is checked, then its writes join the store queue, and multicast bytes land 8 cycles
later (R68, R263 to R267). `cut` cuts the bytes of an element into writes: a scalar store is one write for each home (R58), and
a vector store one for each granule. A multicast store, which passes no queue, waits at issue for the acquires before it
(R132). Elements go in ascending lane order, so of a byte listed twice in one multicast store the last listed counts. `plain`
stores take the race check, at the targets of a multicast store as well; `fin` is the
post-increment. A store of both kinds counts in `st` until both have ended (R275). (DEDUCED: log 46) -/
def storeOut (s : State) (cut : Nat → List WByte → List (List WByte)) (stream : BitVec 4) (ps : List Piece1)
    (plain setFe : Bool) (rel : Option Scope) (fin : State → State) : Res :=
  withChecked s (checkAll (checkStore s) ps) fun _ =>
    let parts := ps.map (storeBytes s)
    let qs := parts.map (·.1)
    let ms := (parts.flatMap (·.2)).reverse
    let race (k : Unit → Res) : Res := if plain then withRace s (parts.flatMap fun p => (p.1 ++ p.2).map (·.pa)) k else k ()
    race fun _ =>
      if s.core.atLimit 1 then hold s .queue
      else if ms ≠ [] && rel.isSome && !releaseReady s (rel.getD .die) s.core.seq then hold s .release
      else if ms ≠ [] && !s.core.acquiresBefore s.core.seq then hold s .readiness
      else
        let gs := qs.flatMap fun q => cut q.length q
        let s1 := fin s
        let s1 := if gs = [] && ms = [] then s1 else { s1 with core := s1.core.count 1 1 }
        let seq := s1.core.seq
        let s1 := if gs = [] then s1 else enqueue s1 stream gs setFe rel true
        if ms = [] then ok s1
        else
          let (r, s2) := match rel with
            | some sc => let (r, t) := releaseNow s1 sc; (some r, t)
            | none => (none, s1)
          ok { s2 with core := { s2.core with
            mcast := s2.core.mcast ++ [⟨seq, s2.time + 8, ms, r, true⟩]
            seq := seq + 1 } }

end Sys2Proof.Machine
end

