-- ==== Sys2Proof/Machine/Func.lean ====
section
/-! DEFINITION. The functions whose steps or results the architecture fixes: E2X and the VFEXP2 core (R40, R41), the
reciprocals and the logarithm of R193, correctly rounded division, and the cosine and sine of R104. -/

namespace Sys2Proof.Machine

open Sys2Proof

/-! ### Integer roots and quotients -/

/-- Digit by digit: the largest `r` with `r * r ≤ n`, given the bits of `r` above bit `k` in `acc`. -/
def isqrtBits (n : Nat) : Nat → Nat → Nat
  | 0, acc => acc
  | k + 1, acc =>
    let t := acc ||| 1 <<< k
    isqrtBits n k (if t * t ≤ n then t else acc)

/-- ⌊√n⌋ for `n < 2^(2*k)`. -/
def isqrt (k n : Nat) : Nat := isqrtBits n k 0

/-- A magnitude that is `q` or lies strictly between `q` and `q + 1`, in units of `2^e`: the sticky bit makes every
rounding of it the rounding of the exact value. -/
def sticky (neg : Bool) (q : Nat) (exact : Bool) (e : Int) : Num :=
  .fin neg (2 * q + (if exact then 0 else 1)) (e - 1)

/-- Exact enough a quotient of finite values, `b` not zero: 96 bits beyond the operands' width. -/
def quotient (a b : Num) : Num :=
  match a, b with
  | .fin n m e, .fin k p f =>
    let sh := 96 + Nat.log2 p
    let t := m <<< sh
    sticky (n != k) (t / p) (t % p == 0) (e - f - sh)
  | _, _ => .nan

/-- a ÷ b with the specials of IEEE 754-2019, and whether it raises NV. -/
def Num.divX (a b : Num) : Num × Bool :=
  match a, b with
  | .nan, _ | _, .nan => (.nan, false)
  | .inf _, .inf _ => (.nan, true)
  | .inf n, .fin k _ _ => (.inf (n != k), false)
  | .fin n _ _, .inf k => (.fin (n != k) 0 0, false)
  | .fin n m _, .fin k p _ =>
    if p = 0 then (if m = 0 then (.nan, true) else (.inf (n != k), false))
    else if m = 0 then (.fin (n != k) 0 0, false)
    else (quotient a b, false)

/-- RoundF32(a ÷ b). -/
def divF32 (sat : Bool) (a b : Num) : Num × Flags :=
  let (q, nv) := Num.divX a b
  let (r, f) := roundF32 sat q
  (r, if nv then f ||| Flags.nv else f)

/-! ### The base-2 exponential -/

/-- T[j] of R41, as the table prints it. (DEDUCED: log 30) -/
def exp2Table : List Nat :=
  [0x3F800000, 0x3F8164D2, 0x3F82CD87, 0x3F843A29, 0x3F85AAC3, 0x3F871F62, 0x3F88980F, 0x3F8A14D5, 0x3F8B95C2, 0x3F8D1ADF, 0x3F8EA43A, 0x3F9031DC, 0x3F91C3D3, 0x3F935A2B, 0x3F94F4F0, 0x3F96942D] ++
   [0x3F9837F0, 0x3F99E046, 0x3F9B8D3A, 0x3F9D3EDA, 0x3F9EF532, 0x3FA0B051, 0x3FA27043, 0x3FA43516, 0x3FA5FED7, 0x3FA7CD94, 0x3FA9A15B, 0x3FAB7A3A, 0x3FAD583F, 0x3FAF3B79, 0x3FB123F6, 0x3FB311C4] ++
   [0x3FB504F3, 0x3FB6FD92, 0x3FB8FBAF, 0x3FBAFF5B, 0x3FBD08A4, 0x3FBF179A, 0x3FC12C4D, 0x3FC346CD, 0x3FC5672A, 0x3FC78D75, 0x3FC9B9BE, 0x3FCBEC15, 0x3FCE248C, 0x3FD06334, 0x3FD2A81E, 0x3FD4F35B] ++
   [0x3FD744FD, 0x3FD99D16, 0x3FDBFBB8, 0x3FDE60F5, 0x3FE0CCDF, 0x3FE33F89, 0x3FE5B907, 0x3FE8396A, 0x3FEAC0C7, 0x3FED4F30, 0x3FEFE4BA, 0x3FF28177, 0x3FF5257D, 0x3FF7D0DF, 0x3FFA83B3, 0x3FFD3E0A]

/-- The value of T[j] (R41). (DEDUCED: log 30) -/
def exp2T (j : Nat) : Num := Fmt.f32.decode (exp2Table.getD j 0)

/-- c1, c2 and c3 of R40. -/
def exp2C1 : Num := Fmt.f32.decode 0x3F317218
def exp2C2 : Num := Fmt.f32.decode 0x3E75FDF0
def exp2C3 : Num := Fmt.f32.decode 0x3D635847

/-- The VFEXP2 core of R40 on a fraction f in [0, 1); none of its roundings can overflow. -/
def exp2Core (f : Num) : Num :=
  match f with
  | .fin n m e =>
    let j := (floorInt n m (e + 6)).toNat
    let d := (Num.addX false f (Num.ofInt (-(j : Int)) |>.scale (-6))).1
    let q := (fmaF32 false d exp2C3 exp2C2).1
    let q := (fmaF32 false d q exp2C1).1
    let q := (fmaF32 false d q (Num.ofInt 1)).1
    (mulF32 false (exp2T j) q).1
  | _ => .nan

/-- x − ⌊x⌋ rounded to FP32 toward zero (R40, R194). -/
def fracRz (x : Num) : Num :=
  match x with
  | .fin n m e =>
    let d := (Num.addX false x (Num.ofInt (-(floorInt n m e)))).1
    Fmt.f32.decode (Fmt.f32.round false d { Env.rne with rnd := 1 }).1
  | _ => .nan

/-- E2X of R40, with the flags of its last step. Exponents beyond ±1024 round as ±1024 does. -/
def e2x (sat : Bool) (x : Num) : Num × Flags :=
  match x with
  | .nan => (.nan, 0)
  | .inf false => (.inf false, 0)
  | .inf true => (.fin false 0 0, 0)
  | .fin n m e =>
    let p := exp2Core (fracRz x)
    roundF32 sat (p.scale (clampInt (-1024) 1024 (floorInt n m e)))

/-! ### VRCP, VRSQ, VLOG2 (R193) -/

/-- RNE into a format, dropping the flags that R193 does not raise. -/
def rneBits (f : Fmt) (x : Num) : Nat := (f.round false x Env.rne).1

/-- 1/x for a finite nonzero x. -/
def rcpNum (x : Num) : Num := quotient (Num.ofInt 1) x

/-- 1/√x for a finite positive x: 96 bits of the root of 2^(2k) ÷ m. -/
def rsqNum (x : Num) : Num :=
  match x with
  | .fin _ m e =>
    let (m, e) := if e % 2 = 0 then (m, e) else (2 * m, e - 1)
    let k := 96 + Nat.log2 m
    let t := 1 <<< (2 * k)
    let r := isqrt (k + 1) (t / m)
    sticky false r (r * r * m == t) (-(e / 2) - k)
  | _ => .nan

/-- The next `n` fraction bits of log2 of `m ÷ 2^p`, 1 ≤ m ÷ 2^p < 2, by repeated squaring. -/
def log2Bits (p : Nat) : Nat → Nat → Nat → Nat
  | 0, _, acc => acc
  | n + 1, m, acc =>
    let s := (m * m) >>> p
    if s < 1 <<< (p + 1) then log2Bits p n s (2 * acc) else log2Bits p n (s >>> 1) (2 * acc + 1)

/-- log2 x for a finite positive x: exact for a power of two, otherwise 160 fraction bits and a sticky bit. -/
def log2Num (x : Num) : Num :=
  match x with
  | .fin _ m e =>
    let t := Nat.log2 m
    let ex : Int := t + e
    if m = 1 <<< t then Num.ofInt ex
    else
      let frac := log2Bits 400 160 (m <<< (400 - t)) 0
      let v : Int := 2 * (ex * (1 <<< 160 : Nat) + frac) + 1
      .fin (decide (v < 0)) v.natAbs (-161)
  | _ => .nan

/-- VRCP of R193: the result's bits and the flags. -/
def rcpFn (f : Fmt) (x : Num) : Nat × Flags :=
  match x with
  | .nan => (f.nanBits, 0)
  | .inf n => (f.signBits n, 0)
  | .fin n m _ => if m = 0 then (f.infBits n, Flags.dz) else (rneBits f (rcpNum x), 0)

/-- VRSQ of R193. -/
def rsqFn (f : Fmt) (x : Num) : Nat × Flags :=
  match x with
  | .nan => (f.nanBits, 0)
  | .inf n => if n then (f.nanBits, Flags.nv) else (0, 0)
  | .fin n m _ =>
    if m = 0 then (f.infBits n, Flags.dz)
    else if n then (f.nanBits, Flags.nv) else (rneBits f (rsqNum x), 0)

/-- VLOG2 of R193. -/
def log2Fn (f : Fmt) (x : Num) : Nat × Flags :=
  match x with
  | .nan => (f.nanBits, 0)
  | .inf n => if n then (f.nanBits, Flags.nv) else (f.infBits false, 0)
  | .fin n m _ =>
    if m = 0 then (f.infBits true, Flags.dz)
    else if n then (f.nanBits, Flags.nv) else (rneBits f (log2Num x), 0)

/-- VFEXP2 of R194. -/
def fexp2Fn (x : Num) : Nat × Flags :=
  match x with
  | .nan => (Fmt.f32.nanBits, 0)
  | .inf _ => (Fmt.f32.nanBits, Flags.nv)
  | x => (rneBits Fmt.f32 (exp2Core (fracRz x)), 0)

/-! ### Turns (R104, R105) -/

/-- RNE(sin(2πj/256)) for j = 0 to 64, from the definition of R104. -/
def sinQuarter : List Nat :=
  [0x00000000, 0x3CC90AB0, 0x3D48FB30, 0x3D96A905, 0x3DC8BD36, 0x3DFAB273, 0x3E164083, 0x3E2F10A2, 0x3E47C5C2, 0x3E605C13, 0x3E78CFCC, 0x3E888E93, 0x3E94A031, 0x3EA09AE5, 0x3EAC7CD4, 0x3EB8442A] ++
   [0x3EC3EF15, 0x3ECF7BCA, 0x3EDAE880, 0x3EE63375, 0x3EF15AEA, 0x3EFC5D27, 0x3F039C3D, 0x3F08F59B, 0x3F0E39DA, 0x3F13682A, 0x3F187FC0, 0x3F1D7FD1, 0x3F226799, 0x3F273656, 0x3F2BEB4A, 0x3F3085BB] ++
   [0x3F3504F3, 0x3F396842, 0x3F3DAEF9, 0x3F41D870, 0x3F45E403, 0x3F49D112, 0x3F4D9F02, 0x3F514D3D, 0x3F54DB31, 0x3F584853, 0x3F5B941A, 0x3F5EBE05, 0x3F61C598, 0x3F64AA59, 0x3F676BD8, 0x3F6A09A7] ++
   [0x3F6C835E, 0x3F6ED89E, 0x3F710908, 0x3F731447, 0x3F74FA0B, 0x3F76BA07, 0x3F7853F8, 0x3F79C79D, 0x3F7B14BE, 0x3F7C3B28, 0x3F7D3AAC, 0x3F7E1324, 0x3F7EC46D, 0x3F7F4E6D, 0x3F7FB10F, 0x3F7FEC43] ++
   [0x3F800000]

/-- St[j] of R104. -/
def turnSin (j : Nat) : Num :=
  let j := j % 256
  if j ≤ 64 then Fmt.f32.decode (sinQuarter.getD j 0)
  else if j ≤ 128 then Fmt.f32.decode (sinQuarter.getD (128 - j) 0)
  else if j ≤ 192 then (Fmt.f32.decode (sinQuarter.getD (j - 128) 0)).neg
  else (Fmt.f32.decode (sinQuarter.getD (256 - j) 0)).neg

/-- Ct[j] of R104. -/
def turnCos (j : Nat) : Num := turnSin (j + 64)

/-- s1, s3 and c2 of R104, rounded from their definitions. -/
def turnS1 : Num := Fmt.f32.decode 0x40C90FDB
def turnS3 : Num := Fmt.f32.decode 0xC2255DE7
def turnC2 : Num := Fmt.f32.decode 0xC19DE9E6

/-- The cosine and sine of a phase (R104), with the flags of their roundings, none of which can overflow. -/
def turnPhase (phi : Word) : Num × Num × Flags :=
  let j := (phi.extractLsb' 56 8).toNat
  let u : Num := .fin false (phi.extractLsb' 32 24).toNat (-32)
  let (u2, f1) := mulF32 false u u
  let (t, f2) := fmaF32 false u2 turnS3 turnS1
  let (sn, f3) := mulF32 false u t
  let (cs, f4) := fmaF32 false u2 turnC2 (Num.ofInt 1)
  let ct := turnCos j
  let st := turnSin j
  let (p, f5) := mulF32 false st.neg sn
  let (co, f6) := fmaF32 false ct cs p
  let (q, f7) := mulF32 false ct sn
  let (si, f8) := fmaF32 false st cs q
  (co, si, f1 ||| f2 ||| f3 ||| f4 ||| f5 ||| f6 ||| f7 ||| f8)

/-- The rotation of a pair (R105). -/
def rotatePair (sat : Bool) (co si x y : Num) : Num × Num × Flags :=
  let (p, f1) := mulF32 sat y.neg si
  let (x', f2) := fmaF32 sat x co p
  let (q, f3) := mulF32 sat x si
  let (y', f4) := fmaF32 sat y co q
  (x', y', f1 ||| f2 ||| f3 ||| f4)

end Sys2Proof.Machine
end

