-- ==== Sys2Proof/Machine/Vector.lean ====
section
/-! DEFINITION. Slot 2: vector instructions (R186 to R205). -/

namespace Sys2Proof.Machine

open Sys2Proof

/-! ### Lanes (R186, R187) -/

/-- Lane i of a register, at width w. -/
def laneAt (w : Nat) (v : VReg) (i : Nat) : Nat := (v.extractLsb' (w * i) w).toNat

/-- A register made of lanes of width w, lane 0 first. -/
def ofLanes (w : Nat) (xs : List Nat) : VReg := BitVec.ofNat 2048 (xs.foldr (fun x n => x % 2 ^ w + (n <<< w)) 0)

/-- The governing bit of lane i in a mask. -/
def governed (w : Nat) (k : KReg) (i : Nat) : Bool := k.getLsbD (w * i / 8)

/-- Runs a lane function over lane numbers in ascending order, threading the rounding environment. -/
def mapLanes (f : Nat → Env → Nat × Env) : List Nat → Env → List Nat × Env
  | [], e => ([], e)
  | i :: r, e =>
    let (x, e) := f i e
    let (xs, e) := mapLanes f r e
    (x :: xs, e)

/-- What a disabled lane takes (R187). -/
def VOp.kept (o : VOp) (c : CoreState) (i : Nat) : Nat := if o.z then 0 else laneAt o.t.bits (c.rv o.d) i

def VOp.on (o : VOp) (c : CoreState) (i : Nat) : Bool := governed o.t.bits (c.rk o.m) i

/-- A lane-by-lane result: f on each enabled lane, with exposed latency `lat` and the flags of the enabled lanes. -/
def laneOut (o : VOp) (lat : Nat) (env : Env) (f : Nat → Env → Nat × Env) (s : State) : Res :=
  let (xs, e) := mapLanes (fun i e => if VOp.on o s.core i then f i e else (VOp.kept o s.core i, e)) (List.range o.t.lanes) env
  ok (laterEnv s lat (.v o.d (ofLanes o.t.bits xs)) e)

/-- The same for operations that neither round nor raise flags. -/
def plainLanes (o : VOp) (lat : Nat) (f : Nat → Nat) (s : State) : Res := laneOut o lat (s.env 0) (fun i e => (f i, e)) s

/-! ### Arithmetic (R191, R192) -/

/-- An integer lane operation on two sources. -/
def intLanes (o : VOp) (lat : Nat) (f : Int → Int → Int) (s : State) : Res :=
  let w := o.t.bits
  plainLanes o lat (fun i =>
    intBits w (f (tyToInt o.t (laneAt w (s.core.rv o.a) i)) (tyToInt o.t (laneAt w (s.core.rv o.b) i)))) s

/-- A floating lane operation on two sources. -/
def floatLanes (o : VOp) (lat : Nat) (env : Env) (f : Num → Num → Env → Nat × Env) (s : State) : Res :=
  let w := o.t.bits
  let val (r : BitVec 6) (i : Nat) := (tyFmt o.t).decode (laneAt w (s.core.rv r) i)
  laneOut o lat env (fun i e => f (val o.a i) (val o.b i) e) s

/-- A floating lane operation with a third source: vC, or vD. -/
def fusedLanes (o : VOp) (f : Num → Num → Num → Env → Nat × Env) (s : State) : Res :=
  let w := o.t.bits
  let val (r : BitVec 6) (i : Nat) := (tyFmt o.t).decode (laneAt w (s.core.rv r) i)
  withRnd s fun env => laneOut o 4 env (fun i e => f (val o.a i) (val o.b i) (val (if o.v then o.c else o.d) i) e) s

def satInt (o : VOp) (x : Int) : Int := if o.v then clampInt (tyLeast o.t) (tyGreatest o.t) x else x

/-- VADD and VSUB: `sub` negates b. -/
def addLanes (o : VOp) (sub : Bool) (s : State) : Res :=
  if o.t.isInt then intLanes o 2 (fun a b => satInt o (if sub then a - b else a + b)) s
  else
    withSel s (if o.v then o.c.extractLsb' 0 3 else 7) fun env =>
      floatLanes o 4 env (fun a b => fltAdd (tyFmt o.t) a (if sub then b.neg else b)) s

/-- VADD (R191): adds vector lanes, integer or floating. -/
def execVadd (o : VOp) (s : State) : Res := addLanes o false s
/-- VSUB (R191): subtracts vector lanes, integer or floating. -/
def execVsub (o : VOp) (s : State) : Res := addLanes o true s

/-- VMUL (R192): multiplies vector lanes. -/
def execVmul (o : VOp) (s : State) : Res :=
  if o.t.isInt then intLanes o 2 (· * ·) s
  else withRnd s fun env => floatLanes o 4 env (fun a b => fltMul (tyFmt o.t) a b) s

/-- VFMA (R192): fused multiply-add of floating lanes. -/
def execVfma (o : VOp) (s : State) : Res := fusedLanes o (fun a b c => fltFma (tyFmt o.t) a b c) s
/-- VFMS (R192): fused multiply-subtract of floating lanes. -/
def execVfms (o : VOp) (s : State) : Res := fusedLanes o (fun a b c => fltFma (tyFmt o.t) a b c.neg) s

/-- The exact encoding of a value that a format holds. (DEDUCED: log 34) -/
def exactBits (f : Fmt) (x : Num) : Nat := (f.round false x Env.rne).1

/-- VMIN and VMAX. -/
def pickLanes (o : VOp) (fi : Int → Int → Int) (ff : Num → Num → Num) (s : State) : Res :=
  if o.t.isInt then intLanes o 2 fi s
  else floatLanes o 2 (s.env 0) (fun a b e => (exactBits (tyFmt o.t) (ff a b), e)) s

/-- VMIN (R192): lane-wise minimum. -/
def execVmin (o : VOp) (s : State) : Res := pickLanes o min Num.minX s
/-- VMAX (R192): lane-wise maximum. -/
def execVmax (o : VOp) (s : State) : Res := pickLanes o max Num.maxX s
/-- VABS (R192): lane-wise absolute value. -/
def execVabs (o : VOp) (s : State) : Res := pickLanes o (fun a _ => a.natAbs) (fun a _ => a.abs) s
/-- VNEG (R192): lane-wise negation. -/
def execVneg (o : VOp) (s : State) : Res := pickLanes o (fun a _ => -a) (fun a _ => a.neg) s

/-! ### Functions (R193 to R195) -/

/-- A lane function of one floating source that brings its own flags. -/
def fnLanes (o : VOp) (lat : Nat) (f : Num → Nat × Flags) (s : State) : Res :=
  floatLanes o lat (s.env 0) (fun a _ e => let (b, fl) := f a; (b, e.raise fl)) s

/-- VRCP (R193): lane-wise reciprocal rounded RNE. -/
def execVrcp (o : VOp) (s : State) : Res := fnLanes o 6 (rcpFn (tyFmt o.t)) s
/-- VRSQ (R193): lane-wise reciprocal square root rounded RNE. -/
def execVrsq (o : VOp) (s : State) : Res := fnLanes o 6 (rsqFn (tyFmt o.t)) s
/-- VLOG2 (R193): lane-wise base-2 logarithm rounded RNE. -/
def execVlog2 (o : VOp) (s : State) : Res := fnLanes o 6 (log2Fn (tyFmt o.t)) s
/-- VFEXP2 (R194): lane-wise base-2 exponential core of the fractional part. -/
def execVfexp2 (o : VOp) (s : State) : Res := fnLanes o 6 fexp2Fn s

/-- The integral value of VRNDI; a zero result keeps the input's sign, and no flag is raised (R195). -/
def roundIntegral (f : Fmt) (x : Num) (env : Env) : Nat × Env :=
  match x with
  | .fin n m e =>
    let r := roundMag env.rnd n m e 0 env.lfsr
    (exactBits f (.fin n r.q 0), { env with lfsr := r.lfsr })
  | x => (exactBits f x, env)

/-- VRNDI (R195): rounds lanes to integral values under a rounding selector. -/
def execVrndi (o : VOp) (s : State) : Res :=
  withSel s (o.b.extractLsb' 0 3) fun env => floatLanes o 4 env (fun a _ e => roundIntegral (tyFmt o.t) a e) s

/-- VSCALE of R195. -/
def scaleFn (f : Fmt) (a n : Num) (env : Env) : Nat × Env :=
  match n with
  | .nan => (f.nanBits, env)
  | .inf false => (f.infBits false, env)
  | .inf true => (0, env)
  | .fin neg m e =>
    match a with
    | .nan => (f.nanBits, env)
    | a => f.round false (a.scale (clampInt (-1024) 1024 (floorInt neg m e))) env

/-- VSCALE (R196). (DEDUCED: log 31) -/
def execVscale (o : VOp) (s : State) : Res := floatLanes o 4 (s.env 0) (scaleFn (tyFmt o.t)) s

/-- VGETEXP of R195. -/
def getexpFn (f : Fmt) (x : Num) : Nat × Flags :=
  match x with
  | .nan => (f.nanBits, 0)
  | .inf _ => (f.infBits false, 0)
  | .fin _ m _ => if m = 0 then (f.infBits true, 0) else (exactBits f (Num.ofInt x.log2Floor), 0)

/-- VGETMAN of R195. -/
def getmanFn (f : Fmt) (x : Num) : Nat × Flags :=
  match x with
  | .nan => (f.nanBits, 0)
  | .inf _ => (f.nanBits, Flags.nv)
  | .fin n m _ => if m = 0 then (f.signBits n, 0) else (exactBits f (x.scale (-x.log2Floor)), 0)

/-- VGETEXP (R195): writes the exponent of each lane as a value. -/
def execVgetexp (o : VOp) (s : State) : Res := fnLanes o 2 (getexpFn (tyFmt o.t)) s
/-- VGETMAN (R195): writes the mantissa of each lane scaled into [1, 2). -/
def execVgetman (o : VOp) (s : State) : Res := fnLanes o 2 (getmanFn (tyFmt o.t)) s

/-! ### Conversions (R196 to R199) -/

/-- Which source lane a destination lane of VCVT takes, or none where it lies outside the written range. -/
def cvtSource (tt ss : Ty) (p j : Nat) : Option Nat :=
  let n := min tt.lanes ss.lanes
  if tt.bits < ss.bits then (if p * n ≤ j && j < p * n + n then some (j - p * n) else none) else some (p * n + j)

/-- VCVT (R196): converts lanes between types, by parts. -/
def execVcvt (o : VOp) (s : State) : Res :=
  let ss := Ty.ofCode (o.b.extractLsb' 0 4)
  let p := (o.c.extractLsb' 3 3).toNat
  withSel s (if o.v then o.c.extractLsb' 0 3 else 7) fun env =>
    let f (i : Nat) (e : Env) : Nat × Env :=
      match cvtSource o.t ss p i with
      | none => (laneAt o.t.bits (s.core.rv o.d) i, e)
      | some j =>
        if VOp.on o s.core i then tyRound o.t (o.b.getLsbD 4) (tyNum ss (laneAt ss.bits (s.core.rv o.a) j)) e
        else (VOp.kept o s.core i, e)
    let (xs, e) := mapLanes f (List.range o.t.lanes) env
    ok (laterEnv s 3 (.v o.d (ofLanes o.t.bits xs)) e)

/-- VCVTI (R197): converts floating lanes to integer lanes of the same width. -/
def execVcvti (o : VOp) (s : State) : Res :=
  let ss := (cvtiSource (o.b.extractLsb' 3 3)).getD .f32
  withSel s (o.b.extractLsb' 0 3) fun env =>
    laneOut o 3 env (fun i e => tyRound o.t false (tyNum ss (laneAt o.t.bits (s.core.rv o.a) i)) e) s

/-- Block b of a register in packed-block layout: codes, scale and knot (R199). -/
def packedBlock (v : VReg) (b : Nat) : Block :=
  ⟨(List.range 32).map fun i => laneAt 4 v (32 * b + i), laneAt 8 v (128 + 2 * b), laneAt 8 v (129 + 2 * b)⟩

/-- Replaces block b. -/
def putBlock (v : VReg) (b : Nat) (x : Block) : VReg :=
  let put (v : VReg) (w pos n : Nat) : VReg :=
    (v &&& ~~~(BitVec.ofNat 2048 ((2 ^ w - 1) <<< pos))) ||| BitVec.ofNat 2048 ((n % 2 ^ w) <<< pos)
  let code := x.codes.foldr (fun c n => c % 16 + 16 * n) 0
  put (put v 128 (128 * b) code) 16 (1024 + 16 * b) (x.scale % 256 + 256 * x.knot)

/-- VPACKB (R199): converts FP32 lanes into two E2M1K blocks of a register. -/
def execVpackb (o : VOp) (s : State) : Res :=
  withRnd s fun env =>
    let q := o.b.toNat
    let xs (h : Nat) := (List.range 32).map fun i => Fmt.f32.decode (laneAt 32 (s.core.rv o.a) (32 * h + i))
    let (b0, e) := packBlock (xs 0) env
    let (b1, e) := packBlock (xs 1) e
    ok (laterEnv s 3 (.v o.d (putBlock (putBlock (s.core.rv o.d) (2 * q) b0) (2 * q + 1) b1)) e)

/-- VUNPB (R199): expands two E2M1K blocks into FP32 lanes. -/
def execVunpb (o : VOp) (s : State) : Res :=
  laneOut o 3 (s.env 0) (fun i e =>
    let b := packedBlock (s.core.rv o.a) (2 * o.b.toNat + i / 32)
    let (x, nv) := e2m1kNum b.scale b.knot (b.codes.getD (i % 32) 0)
    let (bits, e') := Fmt.f32.round false x { Env.rne with lfsr := e.lfsr }
    (bits, (e.raise e'.fl).raiseIf nv Flags.nv)) s

/-- VSAT (R198): clamps integer lanes to n bits. -/
def execVsat (o : VOp) (s : State) : Res :=
  let n := o.b.toNat
  let lo : Int := if o.t.isSigned then -((2 ^ (n - 1) : Nat) : Int) else 0
  let hi : Int := if o.t.isSigned then (2 ^ (n - 1) : Nat) - 1 else (2 ^ n : Nat) - 1
  let w := o.t.bits
  plainLanes o 3 (fun i => intBits w (clampInt lo hi (tyToInt o.t (laneAt w (s.core.rv o.a) i)))) s

/-! ### Compares, selects, logic and shifts (R200, R201) -/

/-- A condition of VCMP on values of type t. -/
def vcmpHolds (t : Ty) (cc : Nat) (a b : Nat) : Bool :=
  let x := tyNum t a
  let y := tyNum t b
  match cc with
  | 0 => x.eqX y
  | 1 => !x.eqX y
  | 2 => x.ltX y
  | _ => x.ltX y || x.eqX y

/-- A mask made of one bit per byte. -/
def ofBits (f : Nat → Bool) : KReg := BitVec.ofNat 256 ((List.range 256).foldr (fun j n => (if f j then 1 else 0) + 2 * n) 0)

/-- VCMP (R200): compares lanes and writes a mask. -/
def execVcmp (o : VOp) (s : State) : Res :=
  let w := o.t.bits
  let kd := o.d.extractLsb' 0 4
  let old := s.core.rk kd
  let cc := (o.d.extractLsb' 4 2).toNat
  let res := (List.range o.t.lanes).map fun i =>
    vcmpHolds o.t cc (laneAt w (s.core.rv o.a) i) (laneAt w (s.core.rv o.b) i)
  ok (later s 2 (.k kd (ofBits fun j =>
    let i := 8 * j / w
    if VOp.on o s.core i then res.getD i false else !o.z && old.getLsbD j)))

/-- VSEL (R201): selects lanes of two registers by a mask. -/
def execVsel (o : VOp) (s : State) : Res :=
  let w := o.t.bits
  ok (later s 2 (.v o.d (ofLanes w ((List.range o.t.lanes).map fun i =>
    laneAt w (s.core.rv (if governed w (s.core.rk o.m) i then o.a else o.b)) i))))

/-- A bitwise operation on lanes. -/
def logicLanes (o : VOp) (f : VReg → VReg → VReg) (s : State) : Res :=
  plainLanes o 2 (laneAt o.t.bits (f (s.core.rv o.a) (s.core.rv o.b))) s

/-- VAND (R201): lane-wise AND. -/
def execVand (o : VOp) (s : State) : Res := logicLanes o (· &&& ·) s
/-- VOR (R201): lane-wise OR. -/
def execVor (o : VOp) (s : State) : Res := logicLanes o (· ||| ·) s
/-- VXOR (R201): lane-wise XOR. -/
def execVxor (o : VOp) (s : State) : Res := logicLanes o (· ^^^ ·) s
/-- VNOT (R201): lane-wise NOT. -/
def execVnot (o : VOp) (s : State) : Res := logicLanes o (fun a _ => ~~~a) s
/-- VMOV (R202): copies lanes of a vector. -/
def execVmov (o : VOp) (s : State) : Res := logicLanes o (fun a _ => a) s

/-- A shift: each lane's amount is B, or u(vB[i]) mod w. -/
def shiftLanes (o : VOp) (f : (w x n : Nat) → Nat) (s : State) : Res :=
  let w := o.t.bits
  plainLanes o 2 (fun i =>
    f w (laneAt w (s.core.rv o.a) i) (if o.v then o.b.toNat else laneAt w (s.core.rv o.b) i % w)) s

/-- VSHL (R201): lane-wise left shift. -/
def execVshl (o : VOp) (s : State) : Res := shiftLanes o (fun w x n => (x <<< n) % 2 ^ w) s
/-- VSHR (R201): lane-wise logical right shift. -/
def execVshr (o : VOp) (s : State) : Res := shiftLanes o (fun _ x n => x >>> n) s
/-- VSRA (R201): lane-wise arithmetic right shift. -/
def execVsra (o : VOp) (s : State) : Res :=
  shiftLanes o (fun w x n => (x >>> n) ||| (if x.testBit (w - 1) then 2 ^ w - 2 ^ (w - n) else 0)) s

/-! ### Moving lanes (R202) -/

/-- VIOTA (R202): writes an immediate plus the lane index to each lane. -/
def execViota (o : VOp) (s : State) : Res :=
  let base := o.b.toInt
  plainLanes o 2 (fun i =>
    if o.t.isInt then intBits o.t.bits (base + i) else exactBits .f32 (Num.ofInt (base + i))) s

/-- VBCAST (R202): broadcasts a scalar into every lane. -/
def execVbcast (o : VOp) (s : State) : Res := plainLanes o 3 (fun _ => (s.core.rs o.a).toNat % 2 ^ o.t.bits) s

/-- The lane index of VMOVS and VINS. -/
def VOp.lane (o : VOp) (c : CoreState) : Nat :=
  if o.v then (c.rs o.b).toNat % o.t.lanes else o.c.toNat * 64 + o.b.toNat

/-- VMOVS (R202): moves one lane of a vector to a scalar register. -/
def execVmovs (o : VOp) (s : State) : Res :=
  ok (later s 3 (.s o.d
    (let b := laneAt o.t.bits (s.core.rv o.a) (VOp.lane o s.core)
     if o.t.isInt && o.t.isSigned then BitVec.ofInt 64 (tyToInt o.t b) else BitVec.ofNat 64 b)))

/-- VINS (R202): inserts a scalar into one lane of a vector. -/
def execVins (o : VOp) (s : State) : Res :=
  let w := o.t.bits
  let x := VOp.lane o s.core
  ok (later s 3 (.v o.d (ofLanes w ((List.range o.t.lanes).map fun i =>
    if i = x then (s.core.rs o.a).toNat % 2 ^ w else laneAt w (s.core.rv o.d) i))))

/-- VPERM (R202): permutes lanes through an index vector. -/
def execVperm (o : VOp) (s : State) : Res :=
  let w := o.t.bits
  plainLanes o 3 (fun i => laneAt w (s.core.rv o.a) (laneAt w (s.core.rv o.b) i % o.t.lanes)) s

/-- VSLIDE (R202): slides lanes across two concatenated registers. -/
def execVslide (o : VOp) (s : State) : Res :=
  let w := o.t.bits
  let l := o.t.lanes
  let n := if o.v then (s.core.rs o.c).toNat else o.c.toNat
  plainLanes o 3 (fun i =>
    if i + n < l then laneAt w (s.core.rv o.a) (i + n)
    else if i + n < 2 * l then laneAt w (s.core.rv o.b) (i + n - l) else 0) s

/-! ### Reductions (R203) -/

/-- One level of the tree. -/
def pairUp {α : Type} (f : α → α → α) : List (Option α) → List (Option α)
  | some a :: some b :: r => some (f a b) :: pairUp f r
  | some a :: none :: r => some a :: pairUp f r
  | none :: x :: r => x :: pairUp f r
  | l => l

/-- Nine levels reduce the 512 leaves of the narrowest type. -/
def treeFold {α : Type} (f : α → α → α) : Nat → List (Option α) → Option α
  | 0, l => (l.head?).join
  | n + 1, l => treeFold f n (pairUp f l)

/-- The leaves of the enabled lanes. -/
def leaves {α : Type} (o : VOp) (c : CoreState) (f : Nat → α) : List (Option α) :=
  (List.range o.t.lanes).map fun i => if VOp.on o c i then some (f (laneAt o.t.bits (c.rv o.a) i)) else none

/-- Nodes of a floating sum carry their flags; RoundF32 takes SAT (R37, R42). -/
def addNode (sat : Bool) (a b : Num × Flags) : Num × Flags :=
  let (x, f) := addF32 sat a.1 b.1
  (x, a.2 ||| b.2 ||| f)

/-- VREDSUM (R203): sums enabled lanes in a fixed binary tree. -/
def execVredsum (o : VOp) (s : State) : Res :=
  if o.t.isInt then
    let x := (treeFold (· + ·) 9 (leaves o s.core fun b => tyToInt o.t b)).getD 0
    ok (later s 6 (.v o.d (BitVec.ofNat 2048 (intBits 64 x))))
  else
    let (x, f) := (treeFold (addNode s.core.sat) 9 (leaves o s.core fun b => ((tyFmt o.t).decode b, (0 : Flags)))).getD (.fin false 0 0, 0)
    ok (laterFlags (later s 6 (.v o.d (BitVec.ofNat 2048 (exactBits .f32 x)))) 6 f)

/-- VREDMAX (R203). (DEDUCED: log 34) -/
def execVredmax (o : VOp) (s : State) : Res :=
  let w := o.t.bits
  let bits : Nat :=
    if o.t.isInt then intBits w ((treeFold max 9 (leaves o s.core fun b => tyToInt o.t b)).getD (tyLeast o.t))
    else
      match treeFold Num.maxX 9 (leaves o s.core fun b => (tyFmt o.t).decode b) with
      | some x => exactBits (tyFmt o.t) x
      | none => if o.t = .e4m3 then 0xFE else (tyFmt o.t).infBits true
  ok (later s 6 (.v o.d (BitVec.ofNat 2048 bits)))

/-! ### VDOT4, VCOMPR, VEXPND (R204, R205) -/

/-- VDOT4 (R204): accumulates four-byte dot products into 32-bit lanes. -/
def execVdot4 (o : VOp) (s : State) : Res :=
  let ta := if o.v then Ty.n8 else o.t
  let f (i : Nat) (e : Env) : Nat × Env :=
    let d := laneAt 32 (s.core.rv o.d) i
    if governed 32 (s.core.rk o.m) i then
      let p (j : Nat) : Int :=
        tyToInt ta (laneAt 8 (s.core.rv o.a) (4 * i + j)) * tyToInt o.t (laneAt 8 (s.core.rv o.b) (4 * i + j))
      let x := tyToInt .i32 d + (p 0 + p 1 + p 2 + p 3)
      if e.sat && (x < tyLeast .i32 || tyGreatest .i32 < x) then
        (intBits 32 (clampInt (tyLeast .i32) (tyGreatest .i32) x), e.raise Flags.ovf)
      else (intBits 32 x, e)
    else (if o.z then 0 else d, e)
  let (xs, e) := mapLanes f (List.range 64) (s.env 0)
  ok (laterEnv s 4 (.v o.d (ofLanes 32 xs)) e)

/-- VCOMPR (R205): packs enabled lanes to the low lanes. -/
def execVcompr (o : VOp) (s : State) : Res :=
  let w := o.t.bits
  let xs := ((List.range o.t.lanes).filter (VOp.on o s.core)).map (laneAt w (s.core.rv o.a))
  ok (later s 3 (.v o.d (ofLanes w xs)))

/-- VEXPND: `c` counts the enabled lanes below. -/
def expand (o : VOp) (c : CoreState) : List Nat → Nat → List Nat
  | [], _ => []
  | i :: r, n =>
    if VOp.on o c i then laneAt o.t.bits (c.rv o.a) n :: expand o c r (n + 1) else VOp.kept o c i :: expand o c r n

/-- VEXPND (R205): spreads low lanes into the enabled lanes. -/
def execVexpnd (o : VOp) (s : State) : Res :=
  ok (later s 3 (.v o.d (ofLanes o.t.bits (expand o s.core (List.range o.t.lanes) 0))))

end Sys2Proof.Machine
end

