-- ==== Sys2Proof/Machine/Matrix.lean ====
section
/-! DEFINITION. Slot 3: the weight buffer, the B registers, beats and accumulator moves (R56, R57, R213 to R226). -/

namespace Sys2Proof.Machine

open Sys2Proof

/-! ### The accumulator store (R56, R115, R116) -/

abbrev AccRow := BitVec 1024

def CoreState.accRow (c : CoreState) (r : Nat) : AccRow := kget 0 c.acc r

/-- Writes a row anew: errors in its elements go (R116), whichever instruction writes it. (DEDUCED: log 151) -/
def CoreState.setRow (c : CoreState) (r : Nat) (x : AccRow) : CoreState :=
  { c with acc := kput 0 c.acc r x, accErr := c.accErr.filter fun e => e / 32 != r }

def rowElem (x : AccRow) (j : Nat) : BitVec 32 := x.extractLsb' (32 * j) 32

def ofElems (xs : List (BitVec 32)) : AccRow := BitVec.ofNat 1024 (xs.foldr (fun x n => x.toNat + n * 2 ^ 32) 0)

/-- Whether a row holds an uncorrectable element. -/
def CoreState.rowBad (c : CoreState) (r : Nat) : Bool := c.accErr.any fun e => e / 32 == r

def Ladder.owns (l : Ladder) (tile : Nat) : Bool :=
  l.cfg && decide (l.base.toNat ≤ tile) && decide (tile < l.base.toNat + l.n.toNat)

/-- Whether a configured ladder owns a tile, and whether its chain is changing it. -/
def CoreState.owned (c : CoreState) (tile : Nat) : Bool := c.ladders.toList.any fun l => l.owns tile
def CoreState.changing (c : CoreState) (tile : Nat) : Bool := c.ladders.toList.any fun l => l.owns tile && l.chain.isSome

/-- The ladder fault (R109), the matrix fault (R214) naming its value, and the poisoned element (R226). -/
def ladderTrap (s : State) : TrapInfo := endTrap s 0x0D 0
def matrixTrap (s : State) (x : Word) : TrapInfo := endTrap s 0x0E x
def accTrap (s : State) : TrapInfo := endTrap s 0x10 0

/-- The offset of a range that lies wholly in the local window. -/
def localOff (s : State) (va len : Nat) : Option Nat :=
  match windowOf va len with
  | .loc off => if isController s.coreId then none else some off
  | _ => none

/-- The scratchpad bytes of a range. -/
def localBytes (s : State) (off len : Nat) : List Nat := (List.range len).map fun i => spAddr s.coreId (off + i)

/-! ### MWBF and MLDB (R216 to R218) -/

/-- MWBF (R216): copies scratchpad bytes into the weight buffer. -/
def execMwbf (len : BitVec 6) (x : BitVec 4) (b : BitVec 6) (g : GuardF) (s : State) : Res :=
  guarded g s fun s =>
    let n := 64 * (len.toNat + 1)
    let va := (s.core.ra x).toNat
    let off := (s.core.rs b).toNat
    match localOff s va n with
    | none => trap s (matrixTrap s (s.core.ra x))
    | some o =>
      if va % 64 ≠ 0 then trap s (matrixTrap s (s.core.ra x))
      else if off % 64 ≠ 0 || 131072 < off + n then trap s (matrixTrap s (s.core.rs b))
      else
        let pas := localBytes s o n
        withRace s pas fun _ => withRead0 s pas fun rs s' =>
          match (rs.zip pas.zipIdx).find? fun r => r.1.poison with
          | some (_, pa, i) => trap s (poisonTrap s (va + i) pa 0)
          | none =>
            let c := s'.core
            ok { s' with core := { c with
              wbuf := rs.zipIdx.foldl (fun m r => memSet m (off + r.2) r.1.val) c.wbuf
              wbufErr := c.wbufErr.filter fun e => e < off || off + n ≤ e } }

/-- The bytes of a tile (R217). -/
def tileBytes (f : StoredFmt) (sp : Bool) : Nat :=
  match f, sp with
  | .e4m3, false => 1024
  | .e4m3, true => 640
  | .bf16, false => 2048
  | .bf16, true => 1152
  | .i4, false => 512
  | .i4, true => 384
  | .e2m1k, false => 576
  | .e2m1k, true => 448

/-- The pairing of stored format and BF (R218). -/
def bfAccepts (f : StoredFmt) (bf : BitVec 4) : Bool :=
  match f with
  | .e2m1k => bf == 5
  | .i4 => bf == 7 || bf == 6
  | .e4m3 => bf == 3 || bf == 0 || bf == 1 || bf == 2
  | .bf16 => bf == 1 || bf == 0

/-- Value v of column j of a tile whose columns hold `cnt` values: the value, and whether it is a reserved code. -/
def storedValue (f : StoredFmt) (cnt : Nat) (t : List Byte) (j v : Nat) : Num × Bool :=
  let nib (pos : Nat) : Nat := ((t.getD pos 0).toNat >>> (4 * (v % 2))) % 16
  match f with
  | .e4m3 => (Fmt.e4m3.decode (fieldNat t (cnt * j + v) 1), false)
  | .bf16 => (Fmt.bf16.decode (fieldNat t (2 * cnt * j + 2 * v) 2), false)
  | .i4 => (Num.ofInt (tyToInt .i4 (nib (cnt / 2 * j + v / 2))), false)
  | .e2m1k =>
    let side := cnt / 2 * 32 + 2 * j
    e2m1kNum (fieldNat t side 1) (fieldNat t (side + 1) 1) (nib (cnt / 2 * j + v / 2))

/-- Where the metadata words of a 2:4 tile start. -/
def metaAt (f : StoredFmt) : Nat :=
  match f with
  | .e4m3 => 512
  | .bf16 => 1024
  | .i4 => 256
  | .e2m1k => 320

/-- Element B[k][j] of a tile (R217). -/
def tileElem (f : StoredFmt) (sp : Bool) (t : List Byte) (k j : Nat) : Num × Bool :=
  if !sp then storedValue f 32 t j k
  else
    let m := fieldNat t (metaAt f + 4 * j) 4
    let gr := k / 4
    let p0 := m >>> (4 * gr) % 4
    let p1 := m >>> (4 * gr + 2) % 4
    if p1 = k % 4 then storedValue f 16 t j (2 * gr + 1)
    else if p0 = k % 4 then storedValue f 16 t j (2 * gr)
    else (Num.zero, false)

/-- The reserved codes among the stored values of a tile (R35). (DESIGN CHOICE: log 35) -/
def tileReserved (f : StoredFmt) (sp : Bool) (t : List Byte) : Bool :=
  let cnt := if sp then 16 else 32
  (List.range 32).any fun j => (List.range cnt).any fun v => (storedValue f cnt t j v).2

/-- MLDB (R218): starts an 8-cycle fill that expands a weight-buffer tile into the staged B. -/
def execMldb (f : StoredFmt) (sp : Bool) (a : BitVec 6) (g : GuardF) (s : State) : Res :=
  guarded g s fun s =>
    let off := (s.core.rs a).toNat
    let n := tileBytes f sp
    if !bfAccepts f s.core.bf then formatFault s
    else if off % 64 ≠ 0 || 131072 < off + n then trap s (matrixTrap s (s.core.rs a))
    else if s.core.wbufErr.any fun e => off ≤ e && e < off + n then trap s (accTrap s)
    else if s.core.fill.isSome then hold s .fillRunning
    else
      let t := (List.range n).map fun i => memGet s.core.wbuf (off + i)
      let b : Vector Num 1024 := Vector.ofFn fun x => (tileElem f sp t (x.val / 32) (x.val % 32)).1
      ok { s with core := { s.core with fill := some (b, if tileReserved f sp t then Flags.nv else 0) } }

/-- The fill ends: the staged B holds the expanded tile (R218). -/
def execWeightFillEnd (s : State) : Res :=
  match s.core.fill with
  | none => notEnabledFill
  | some (b, f) => ok { s with core := { s.core with bStaged := b, fill := none }.orFlags f }
where notEnabledFill : Res := .refused (.notEnabled "WEIGHT_FILL_END")

/-! ### Beats (R219 to R221) -/

def is4Code (x : BitVec 4) : Bool := x == 5 || x == 7

/-- The well-formed combinations of AF, BF and ACCF (R33). -/
def beatFormed (c : CoreState) : Bool :=
  (c.af.toNat ≤ 5 && c.bf.toNat ≤ 5 && c.accf == 0) ||
  ((c.af == 6 || c.af == 7) && (c.bf == 6 || c.bf == 7) && c.accf == 8)

/-- The type of a format code of `fmt` (R32). -/
def codeTy (x : BitVec 4) : Ty :=
  match x with
  | 0#4 => .f32 | 1#4 => .bf16 | 2#4 => .f16 | 3#4 => .e4m3 | 4#4 => .e5m2 | 5#4 => .e2m1k | 6#4 => .i8 | 7#4 => .i4
  | _ => .i32

/-- Element k of an A row: row `h` of the register, at the width of AF (R219). -/
def aElem (af : BitVec 4) (v : VReg) (h k : Nat) : Num × Bool :=
  if af = 5 then
    let b := packedBlock v h
    e2m1kNum b.scale b.knot (b.codes.getD k 0)
  else (tyNum (codeTy af) (laneAt (codeTy af).bits v (32 * h + k)), false)

/-- An integer value, if it is one. (DESIGN CHOICE: log 35) -/
def Num.toInt? : Num → Option Int
  | .fin n m e =>
    if 0 ≤ e then some (scaleTo n m e 0)
    else if m % 2 ^ (-e).toNat = 0 then some (if n then -((m / 2 ^ (-e).toNat : Nat) : Int) else (m / 2 ^ (-e).toNat : Nat))
    else if m = 0 then some 0 else none
  | _ => none

/-- The column j of the active B, as products with an A row. -/
def column (b : Vector Num 1024) (a : List Num) (j : Nat) : List (Num × Num) :=
  a.zipIdx.map fun x => (x.1, (b.toArray[32 * x.2 + j]?).getD Num.zero)

/-- A floating element of a beat: its new bits and the flags NV and OF. A run that overflows gives an infinity whatever SAT (R39);
the sum with the accumulator takes SAT (R37, R42). -/
def beatFloat (push sat : Bool) (old : BitVec 32) (ps : List (Num × Num)) : BitVec 32 × Flags :=
  let (x, nv) := (runSum ps).result
  let (r, f1) := roundF32 false x
  let (y, f2) := if push then (r, (0 : Flags)) else addF32 sat (f32Num old) r
  (f32Bits y, (f1 ||| f2 ||| (if nv then Flags.nv else 0)) &&& (Flags.nv ||| Flags.ovf))

/-- An integer element of a beat; `free` stands for an exact sum that is no integer. (DESIGN CHOICE: log 35) -/
def beatInt (push sat : Bool) (old free : BitVec 32) (ps : List (Num × Num)) : BitVec 32 × Flags :=
  match (ps.foldl (fun x p => (Num.addX false x (Num.mulX p.1 p.2).1).1) Num.zero).toInt? with
  | none => (free, 0)
  | some v =>
    let x := if push then v else old.toInt + v
    if sat && (x < tyLeast .i32 || tyGreatest .i32 < x) then
      (BitVec.ofInt 32 (clampInt (tyLeast .i32) (tyGreatest .i32) x), Flags.ovf)
    else (BitVec.ofInt 32 x, 0)

/-- One row of a beat. -/
def beatRow (s : State) (push : Bool) (r : Nat) (a : List Num) : AccRow × Flags :=
  let c := s.core
  let old := c.accRow r
  let es := (List.range 32).map fun j =>
    if c.accf = 8 then
      beatInt push c.sat (rowElem old j) (Config.freeAcc (64 * s.choice + 32 * (r % 2) + j)) (column c.bActive a j)
    else beatFloat push c.sat (rowElem old j) (column c.bActive a j)
  (ofElems (es.map (·.1)), es.foldl (fun f e => f ||| e.2) 0)

/-- The A rows of a beat, each with its accumulator row, and whether they hold a reserved code. -/
def beatRows (s : State) (o : Beat) (shift : Option Nat) : List (Nat × List Num) × Bool :=
  let c := s.core
  let r := 32 * o.t.toNat + o.r.toNat
  let el (h k : Nat) : Num × Bool :=
    match shift with
    | none => aElem c.af (c.rv o.a) h k
    | some n => if k + n < 32 then aElem c.af (c.rv o.a) 0 (k + n) else aElem c.af (c.rv (o.a + 1)) 0 (k + n - 32)
  let row (h : Nat) := (List.range 32).map (el h)
  let hs := if is4Code c.af && is4Code c.bf then [0, 1] else [0]
  (hs.map fun h => (r + h, (row h).map (·.1)), hs.any fun h => (row h).any (·.2))

/-- The shared body of the four beats (R220). -/
def beatOut (o : Beat) (push drain : Bool) (shift : Option Nat) (s : State) : Res :=
  guarded o.g s fun s =>
    let c := s.core
    let pair := is4Code c.af && is4Code c.bf
    if !beatFormed c then formatFault s
    else if (pair && o.r.getLsbD 0) || (shift.isSome && is4Code c.af) then formatFault s
    else if c.owned o.t.toNat then trap s (ladderTrap s)
    else
      let (rows, res) := beatRows s o shift
      if !push && rows.any fun r => c.rowBad r.1 then trap s (accTrap s)
      else if c.beat.isSome then hold s .arrayBusy
      else if drain && c.fill.isSome then hold s .fillRunning
      else
        let outs := rows.map fun r => (r.1, beatRow s push r.1 r.2)
        let c := outs.foldl (fun c r => c.setRow r.1 r.2.1) c
        let f := outs.foldl (fun f r => f ||| r.2.2) (if res then Flags.nv else 0)
        ok { s with
          core := { c with beat := some f, bActive := if drain then c.bStaged else c.bActive }
          choice := s.choice + 1 }

/-- MPUSH (R220): beat that writes the run result into an accumulator row. -/
def execMpush (o : Beat) (s : State) : Res := beatOut o true false none s
/-- MSHIFT (R220): accumulating beat over a shifted window of two registers. -/
def execMshift (o : Beat) (n : BitVec 5) (s : State) : Res := beatOut o false false (some n.toNat) s
/-- MACC (R220): accumulating beat. -/
def execMacc (o : Beat) (s : State) : Res := beatOut o false false none s
/-- MDRAIN (R220): accumulating beat that then copies the staged B into the active B. -/
def execMdrain (o : Beat) (s : State) : Res := beatOut o false true none s

/-- The swap-only form: no beat. -/
def execMdrainSwap (g : GuardF) (s : State) : Res :=
  guarded g s fun s =>
    if s.core.fill.isSome then hold s .fillRunning
    else ok { s with core := { s.core with bActive := s.core.bStaged } }

/-- A beat completes: its flags are ORed and the array is free (R220, R221). -/
def execBeatComplete (s : State) : Res :=
  match s.core.beat with
  | none => .refused (.notEnabled "BEAT_COMPLETE")
  | some f => ok { s with core := { s.core with beat := none }.orFlags f }

/-- The all-zero slot-3 word. -/
def execMnop (s : State) : Res := ok s

/-! ### Accumulator moves (R222 to R225) -/

def CoreState.setTile (c : CoreState) (tile : Nat) (rows : List AccRow) : CoreState :=
  rows.zipIdx.foldl (fun c r => c.setRow (32 * tile + r.2) r.1) c

def CoreState.tile (c : CoreState) (tile : Nat) : List AccRow := (List.range 32).map fun i => c.accRow (32 * tile + i)

def zeroTile : List AccRow := List.replicate 32 0

/-- MZERO (R222): writes zero to every element of an accumulator tile. -/
def execMzero (t : BitVec 6) (g : GuardF) (s : State) : Res :=
  guarded g s fun s =>
    if s.core.owned t.toNat then trap s (ladderTrap s)
    else ok { s with core := s.core.setTile t.toNat zeroTile }

/-- The conversion of one accumulator element to a type other than e2m1k. -/
def moveElem (acc8 : Bool) (t : Ty) (x : BitVec 32) (env : Env) : Nat × Env :=
  if acc8 && t == .i32 then (x.toNat, env)
  else tyRound t false (if acc8 then Num.ofInt x.toInt else f32Num x) env

/-- The register that ACMOVV writes: row r in the first 32 elements, row r + 1 in the next (R223). -/
def moveRows (acc8 : Bool) (t : Ty) (r0 r1 : AccRow) (env : Env) : VReg × Env :=
  if t = .e2m1k then
    let xs (r : AccRow) := (List.range 32).map fun j =>
      if acc8 then Num.ofInt (rowElem r j).toInt else f32Num (rowElem r j)
    let (b0, e) := packBlock (xs r0) env
    let (b1, e) := packBlock (xs r1) e
    (putBlock (putBlock 0 0 b0) 1 b1, e)
  else
    let (xs, e) := mapLanes (fun i e => moveElem acc8 t (rowElem (if i < 32 then r0 else r1) (i % 32)) e) (List.range 64) env
    (ofLanes t.bits xs, e)

/-- ACMOVV (R223): converts two accumulator rows into a vector register. -/
def execAcmovv (v : BitVec 6) (p : BitVec 10) (g : GuardF) (s : State) : Res :=
  guarded g s fun s =>
    let c := s.core
    let r := 2 * p.toNat
    let acc8 := c.accf == 8
    let t := codeTy c.outf
    if !(c.accf == 0 || acc8) || 8 < c.outf.toNat then formatFault s
    else if rndReserved c.rnd && !(acc8 && t == .i32) then formatFault s
    else if !c.owned (r / 32) && (c.rowBad r || c.rowBad (r + 1)) then trap s (accTrap s)
    else if c.changing (r / 32) then hold s .chain
    else
      let (x, e) := moveRows acc8 t (c.accRow r) (c.accRow (r + 1)) (s.env c.rnd)
      ok (laterEnv s 4 (.v v x) e)

/-- ACMOVA (R224): writes the raw bits of a vector into two accumulator rows. -/
def execAcmova (v : BitVec 6) (p : BitVec 10) (g : GuardF) (s : State) : Res :=
  guarded g s fun s =>
    let r := 2 * p.toNat
    if s.core.owned (r / 32) then trap s (ladderTrap s)
    else
      let x := s.core.rv v
      ok { s with core := (s.core.setRow r (x.extractLsb' 0 1024)).setRow (r + 1) (x.extractLsb' 1024 1024) }

def rowsOfBytes (bs : List Byte) : List AccRow :=
  (List.range (bs.length / 128)).map fun i => BitVec.ofNat 1024 (fieldNat bs (128 * i) 128)

def bytesOfRows (rows : List AccRow) : List Byte := rows.flatMap fun r => bytesOfNat 128 r.toNat

/-- ACLD (R225): loads an accumulator tile from the scratchpad. -/
def execAcld (t : BitVec 6) (x : BitVec 4) (g : GuardF) (s : State) : Res :=
  guarded g s fun s =>
    let va := (s.core.ra x).toNat
    match localOff s va 4096 with
    | none => trap s (matrixTrap s (s.core.ra x))
    | some o =>
      if va % 16 ≠ 0 then trap s (matrixTrap s (s.core.ra x))
      else if s.core.owned t.toNat then trap s (ladderTrap s)
      else
        let pas := localBytes s o 4096
        withRace s pas fun _ => withRead0 s pas fun rs s' =>
          match (rs.zip pas.zipIdx).find? fun r => r.1.poison with
          | some (_, pa, i) => trap s (poisonTrap s (va + i) pa 0)
          | none => ok { s' with core := s'.core.setTile t.toNat (rowsOfBytes (rs.map (·.val))) }

/-- A scratchpad image joins SQ(c, 0) (R114, R225). -/
def storeLocal (s : State) (off : Nat) (bytes : List (Byte × Bool)) : State :=
  let ws := bytes.zipIdx.map fun b => (⟨spAddr s.coreId (off + b.2), b.1.1, b.1.2⟩ : WByte)
  enqueue s 0 (byGranule ws.length ws) false none false

/-- ACST (R225): stores an accumulator tile to the scratchpad. -/
def execAcst (t : BitVec 6) (x : BitVec 4) (g : GuardF) (s : State) : Res :=
  guarded g s fun s =>
    let va := (s.core.ra x).toNat
    match localOff s va 4096 with
    | none => trap s (matrixTrap s (s.core.ra x))
    | some o =>
      let c := s.core
      if va % 16 ≠ 0 then trap s (matrixTrap s (s.core.ra x))
      else if !c.owned t.toNat && (List.range 32).any fun i => c.rowBad (32 * t.toNat + i) then trap s (accTrap s)
      else withRace s (localBytes s o 4096) fun _ =>
        if c.changing t.toNat then hold s .chain
        else ok (storeLocal s o ((bytesOfRows (c.tile t.toNat)).map fun b => (b, false)))

end Sys2Proof.Machine
end

