-- ==== Sys2Proof/Machine/Ladder.lean ====
section
/-! DEFINITION. Slot 3: ladders (R108 to R118, R227). -/

namespace Sys2Proof.Machine

open Sys2Proof

def CoreState.ladder (c : CoreState) (l : BitVec 2) : Ladder := c.ladders.get l.toFin

def CoreState.setLadder (c : CoreState) (l : BitVec 2) (x : Ladder) : CoreState :=
  { c with ladders := c.ladders.set l.toNat x l.isLt }

/-- A ladder instruction waits for the ladder's chain (R111). -/
def withChain (s : State) (l : BitVec 2) (k : Unit → Res) : Res :=
  if (s.core.ladder l).chain.isSome then hold s .chain else k ()

/-- Flags of merges and reads: NV, OF and NX (R117). -/
def ladderFlags (f : Flags) : Flags := f &&& (Flags.nv ||| Flags.ovf ||| Flags.nx)

/-! ### LDRCFG, LDRCLR (R109, R113) -/

/-- LDRCFG: a ladder takes its shape, and its tiles are cleared (R109). (DEDUCED: log 53) -/
def execLdrcfg (l : BitVec 2) (a b : BitVec 6) (g : GuardF) (s : State) : Res :=
  guarded g s fun s =>
    let x := s.core.rs a
    let base := x.extractLsb' 0 6
    let n := x.extractLsb' 8 5
    let others := (List.range 4).filter fun i => i ≠ l.toNat
    let clash := (List.range n.toNat).any fun i => others.any fun j =>
      (s.core.ladder (BitVec.ofNat 2 j)).owns (base.toNat + i)
    if x &&& ~~~0x1F3F#64 ≠ 0 || 16 < n.toNat || 64 < base.toNat + n.toNat || clash then trap s (ladderTrap s)
    else withChain s l fun _ =>
      let v := s.core.rv b
      let w : RegFile 4 (BitVec 32) := Vector.ofFn fun i => BitVec.ofNat 32 (laneAt 32 v i.val)
      let new : Ladder := ⟨n ≠ 0, base, n, w, 0, 0, 0, false, if n = 0 then none else some .zero⟩
      ok (s.setCore (s.core.setLadder l new))

/-- LDRCLR (R113): empties a configured ladder. (DEDUCED: log 53) -/
def execLdrclr (l : BitVec 2) (g : GuardF) (s : State) : Res :=
  guarded g s fun s => withChain s l fun _ =>
    let x := s.core.ladder l
    if x.cfg then
      let new : Ladder := { x with c := 0, occ := 0, pz := 0, sat := false, chain := some .zero }
      ok (s.setCore (s.core.setLadder l new))
    else ok s

/-! ### Steps (R110, R111) -/

/-- LDRSTEP (R110): adds a tile to a ladder as one contribution, starting a merge chain. -/
def execLdrstep (l : BitVec 2) (t : BitVec 6) (g : GuardF) (s : State) : Res :=
  guarded g s fun s =>
    let c := s.core
    if !(c.ladder l).cfg || c.owned t.toNat then trap s (ladderTrap s)
    else withChain s l fun _ =>
      let cp := (List.range 32).any fun i => c.rowBad (32 * t.toNat + i)
      let new : Ladder := { c.ladder l with chain := some (.step (c.tile t.toNat) cp) }
      ok (s.setCore (c.setLadder l new))

/-- RoundF32(a + b) elementwise; no `fmt` field applies to rungs (R108). (DEDUCED: log 31) -/
def addRows (a b : AccRow) : AccRow × Flags :=
  let es := (List.range 32).map fun j => addF32 false (f32Num (rowElem a j)) (f32Num (rowElem b j))
  (ofElems (es.map fun e => f32Bits e.1), es.foldl (fun f e => f ||| e.2) 0)

def addTiles (a b : List AccRow) : List AccRow × Flags :=
  let rs := (a.zip b).map fun x => addRows x.1 x.2
  (rs.map (·.1), rs.foldl (fun f r => f ||| r.2) 0)

/-- The while loop of R110 from rung L on, then the absorption or the placing of the carry. -/
def climb : Nat → CoreState → BitVec 2 → Nat → List AccRow → Bool → Flags → CoreState × Flags
  | 0, c, _, _, _, _, f => (c, f)
  | k + 1, c, l, lv, carry, cp, f =>
    let x := c.ladder l
    let tile := x.base.toNat + lv
    let last := decide (x.n.toNat ≤ lv + 1)
    let bit : BitVec 16 := 1#16 <<< lv
    if x.occ.getLsbD lv then
      let (sum, f1) := addTiles (c.tile tile) carry
      let cp' := cp || x.pz.getLsbD lv
      if last then
        ((c.setTile tile sum).setLadder l { x with pz := if cp' then x.pz ||| bit else x.pz, sat := true }, f ||| f1)
      else
        climb k ((c.setTile tile zeroTile).setLadder l { x with occ := x.occ &&& ~~~bit, pz := x.pz &&& ~~~bit }) l (lv + 1)
          sum cp' (f ||| f1)
    else
      ((c.setTile tile carry).setLadder l
        { x with occ := x.occ ||| bit, pz := if cp then x.pz ||| bit else x.pz &&& ~~~bit }, f)

/-- +0 to every owned tile. -/
def clearRungs (c : CoreState) (x : Ladder) : CoreState :=
  (List.range x.n.toNat).foldl (fun c i => c.setTile (x.base.toNat + i) zeroTile) c

/-- A core once the chain of a ladder has ended: the step's merges, or the zeroing of LDRCFG and LDRCLR, are done, and its flags are
ORed; without a chain, the core as it is. -/
def chainEnd (core : CoreState) (l : BitVec 2) : CoreState :=
  let x := core.ladder l
  match x.chain with
  | none => core
  | some .zero => (clearRungs core x).setLadder l { x with chain := none }
  | some (.step t cp) =>
    let c := core.setLadder l { x with chain := none, c := x.c + 1 }
    let (c, f) := climb 17 c l 0 t cp 0
    c.orFlags (ladderFlags f)

/-- LADDER_CHAIN_END: the chain of a ladder ends. (DEDUCED: log 53) -/
def execLadderChainEnd (l : BitVec 2) (s : State) : Res :=
  if (s.core.ladder l).chain.isNone then .refused (.notEnabled "LADDER_CHAIN_END") else ok { s with core := chainEnd s.core l }

/-! ### Reading (R112, R113) -/

/-- acc := RoundF32(W × rung + acc) elementwise; no `fmt` field applies to rungs (R108). (DEDUCED: log 31) -/
def fmaRows (w : Num) (r acc : AccRow) : AccRow × Flags :=
  let es := (List.range 32).map fun j => fmaF32 false w (f32Num (rowElem r j)) (f32Num (rowElem acc j))
  (ofElems (es.map fun e => f32Bits e.1), es.foldl (fun f e => f ||| e.2) 0)

def fmaTile (w : Num) (r acc : List AccRow) : List AccRow × Flags :=
  let rs := (r.zip acc).map fun x => fmaRows w x.1 x.2
  (rs.map (·.1), rs.foldl (fun f r => f ||| r.2) 0)

/-- The weighted sum of the occupied rungs, from the top rung down. (DEDUCED: log 53) -/
def readRungs (c : CoreState) (x : Ladder) : List AccRow × Flags :=
  ((List.range x.n.toNat).reverse.filter fun i => x.occ.getLsbD i).foldl (fun (p : List AccRow × Flags) i =>
    let (t, f) := fmaTile (f32Num ((x.w.toArray[i]?).getD 0)) (c.tile (x.base.toNat + i)) p.1
    (t, p.2 ||| f)) (zeroTile, 0)

/-- LDRREAD: a tile takes the weighted sum of the occupied rungs (R112), its elements written anew. (DEDUCED: log 53, 151) -/
def execLdrread (l : BitVec 2) (t : BitVec 6) (g : GuardF) (s : State) : Res :=
  guarded g s fun s =>
    let x := s.core.ladder l
    if !x.cfg || s.core.owned t.toNat then trap s (ladderTrap s)
    else withChain s l fun _ =>
      if x.occ &&& x.pz ≠ 0 then trap s (accTrap s)
      else
        let (rows, f) := readRungs s.core x
        ok (laterFlags { s with core := s.core.setTile t.toNat rows } 1 (ladderFlags f))

/-- LDRRUNG (R113): reads two rows of a rung into a vector and its occupancy into a guard. -/
def execLdrrung (d : BitVec 6) (gd : BitVec 3) (l : BitVec 2) (lv : BitVec 4) (q : BitVec 4) (g : GuardF) (s : State) : Res :=
  guarded g s fun s =>
    let x := s.core.ladder l
    if !x.cfg || x.n.toNat ≤ lv.toNat then trap s (ladderTrap s)
    else withChain s l fun _ =>
      if x.pz.getLsbD lv.toNat then trap s (accTrap s)
      else
        let r := 32 * (x.base.toNat + lv.toNat) + 2 * q.toNat
        let occ := x.occ.getLsbD lv.toNat
        let v : VReg := if occ then s.core.accRow (r + 1) ++ s.core.accRow r else 0
        ok (lock s [.v d, .g gd] (some [.v d v, .g gd occ]) none).2

/-- LDRCNT (R113): reads a ladder's counter and occupancy into sD. -/
def execLdrcnt (d : BitVec 6) (l : BitVec 2) (g : GuardF) (s : State) : Res :=
  guarded g s fun s => withChain s l fun _ =>
    let x := s.core.ladder l
    let v : Word := if x.cfg then
        0#14 ++ BitVec.ofBool (x.pz ≠ 0) ++ BitVec.ofBool x.sat ++ x.occ ++ x.c
      else 0
    ok (lock s [.s d] (some [.s d v]) none).2

/-! ### LDRSAVE, LDRLOAD (R114) -/

/-- The image of a ladder: bytes with their poison marks. -/
def ladderImage (c : CoreState) (x : Ladder) : List (Byte × Bool) :=
  let head := bytesOfNat 4 x.c.toNat ++ bytesOfNat 2 x.occ.toNat ++ bytesOfNat 2 x.pz.toNat ++
    [x.n.setWidth 8, (BitVec.ofBool x.sat).setWidth 8] ++ List.replicate 6 0
  let rung (i : Nat) := (bytesOfRows (c.tile (x.base.toNat + i))).map fun b => (b, x.pz.getLsbD i)
  head.map (fun b => (b, false)) ++ ((List.range 16).filter fun i => x.occ.getLsbD i).flatMap rung

/-- LDRSAVE (R114): saves a ladder image to the scratchpad. Its faults, which come before any wait (R157), go by the image that the
ladder has once its chain has ended. (DEDUCED: log 151) -/
def execLdrsave (l : BitVec 2) (x : BitVec 4) (g : GuardF) (s : State) : Res :=
  guarded g s fun s =>
    let va := (s.core.ra x).toNat
    let c := chainEnd s.core l
    let img := ladderImage c (c.ladder l)
    match localOff s va img.length with
    | none => trap s (ladderTrap s)
    | some o =>
      if va % 16 ≠ 0 then trap s (ladderTrap s)
      else withRace s (localBytes s o img.length) fun _ => withChain s l fun _ => ok (storeLocal s o img)

/-- The occupied rungs of an image, at their bytes after the header. -/
def imageRungs (occ : BitVec 16) : List (Nat × Nat) := ((List.range 16).filter fun i => occ.getLsbD i).zipIdx

/-- The fields of an image's header that a ladder of `n` rungs accepts: C, OCC, PZ and SAT. -/
def imageHead (h : List Byte) (n : BitVec 5) : Option (BitVec 32 × BitVec 16 × BitVec 16 × Bool) :=
  let occ := BitVec.ofNat 16 (fieldNat h 4 2)
  let pz := BitVec.ofNat 16 (fieldNat h 6 2)
  let b9 := fieldNat h 9 1
  if fieldNat h 8 1 ≠ n.toNat || 1 < b9 || fieldNat h 10 6 ≠ 0 || occ.toNat >>> n.toNat ≠ 0 ||
    pz.toNat >>> n.toNat ≠ 0 || pz &&& ~~~occ ≠ 0 then none
  else some (BitVec.ofNat 32 (fieldNat h 0 4), occ, pz, b9 == 1)

/-- LDRLOAD (R114): restores a ladder image from the scratchpad; a header that reads uncorrectable takes the data-poison trap.
(DEDUCED: log 151) -/
def execLdrload (l : BitVec 2) (x : BitVec 4) (g : GuardF) (s : State) : Res :=
  guarded g s fun s =>
    let va := (s.core.ra x).toNat
    let lad := s.core.ladder l
    match localOff s va 16 with
    | none => trap s (ladderTrap s)
    | some o =>
      if va % 16 ≠ 0 || !lad.cfg then trap s (ladderTrap s)
      else
        let hp := localBytes s o 16
        withRace s hp fun _ => withRead0 s hp fun hs s1 =>
          if hs.any (·.poison) then trap s (poisonTrap s va (spAddr s.coreId o) 0)
          else
            match imageHead (hs.map (·.val)) lad.n with
            | none => trap s (ladderTrap s)
            | some (cc, occ, pz, sat) =>
              let rs := imageRungs occ
              let len := 4096 * rs.length
              match localOff s va (16 + len) with
              | none => trap s (ladderTrap s)
              | some _ =>
                let pas := localBytes s (o + 16) len
                withRace s pas fun _ => withRead0 s1 pas fun bs s2 => withChain s l fun _ =>
                  let c := clearRungs s2.core lad
                  let part (i : Nat) := (bs.drop (4096 * i)).take 4096
                  let c := rs.foldl (fun c r => c.setTile (lad.base.toNat + r.1) (rowsOfBytes ((part r.2).map (·.val)))) c
                  let bad := rs.foldl (fun (p : BitVec 16) r => if (part r.2).any (·.poison) then p ||| (1#16 <<< r.1) else p) pz
                  ok { s2 with core := c.setLadder l { lad with c := cc, occ := occ, pz := bad, sat := sat } }

end Sys2Proof.Machine
end

