-- ==== Sys2Proof/Machine/LoadStore.lean ====
section
/-! DEFINITION. Slot 1: loads, stores, vector accesses, prefetch, atomics and FEWAIT (R260 to R273). A load or atomic that
performs later is a `LoadEntry`; LOAD_PERFORM and ATOMIC perform it. -/

namespace Sys2Proof.Machine

open Sys2Proof

/-! ### Results of loads -/

/-- Puts lanes of `w` bytes each into a vector register; the lanes not listed keep `old`. -/
def fillLanes (w : Nat) : List Nat → List Byte → VReg → VReg
  | [], _, old => old
  | i :: r, bs, old =>
    let n := 8 * w
    let m : VReg := BitVec.ofNat 2048 ((2 ^ n - 1) <<< (n * i))
    let x : VReg := BitVec.ofNat 2048 (natOfBytes (bs.take w) <<< (n * i))
    fillLanes w r (bs.drop w) ((old &&& ~~~m) ||| x)

/-- The register write of a load that has read all its bytes (R262, R264 to R266). -/
def LoadShape.result (x : LoadShape) (bs : List Byte) : RegWrite :=
  match x with
  | .scalar d => .s d (BitVec.ofNat 64 (natOfBytes bs))
  | .lanes d w idx old => .v d (fillLanes w idx bs old)

def LoadShape.dest (x : LoadShape) : RegRef :=
  match x with
  | .scalar d => .s d
  | .lanes d _ _ _ => .v d

/-- A load becomes pending (R130 ISSUE): exposed 6 when it is plain and every byte lies in the core's own scratchpad,
else interlocked (R54). (DEDUCED: log 40) -/
def issueLoad (s : State) (stream : BitVec 4) (todo : List (Nat × Nat × Nat)) (shape : LoadShape) (acq : Option Scope)
    (atomic : Option (AtomicOp × Bool)) : State :=
  let exposed := acq.isNone && atomic.isNone && todo.all fun b => ownScratch s b.2.1
  let c := s.core
  let e : LoadEntry :=
    ⟨c.seq, c.seq, stream, c.pc, todo, [], none, shape, acq, atomic,
      if exposed then some (c.bcnt.toNat + 6) else none, s.time, []⟩
  let s := if exposed then { s with core := { c with seq := c.seq + 1 } } else (lock s [shape.dest] none (some 0)).2
  { s with core := { s.core with loads := s.core.loads ++ [e] }.count 0 1 }

/-- The common end of every load: the ranges are checked, then the load is made by its qualifier (R260, R261). `lanes`
gives the record lane of each range of `w` bytes. -/
def loadOut (s : State) (q : LdQual) (stream : BitVec 4) (scope : Scope) (ranges : List (Nat × Nat × Nat)) (ea : Nat)
    (shape : LoadShape) (fin : State → State) : Res :=
  withBytes s ⟨true, false⟩ ranges fun bs =>
    let lanes := ranges.flatMap fun r => List.replicate r.2.1 r.2.2
    let todo := (bs.zip lanes).map fun x => (x.1.1, x.1.2, x.2)
    let pas := bs.map (·.2)
    match q with
    | .plain =>
      withRace s pas fun _ => withEarly s pas fun _ =>
        if s.core.atLimit 0 then hold s .queue else ok (fin (issueLoad s stream todo shape none none))
    | .acq =>
      withEarly s pas fun _ =>
        if s.core.atLimit 0 then hold s .queue else ok (fin (issueLoad s stream todo shape (some scope) none))
    | .fe | .fec =>
      if !pas.all inScratch then trap s (addressTrap s (BitVec.ofNat 64 ea))
      else withEarly s pas fun _ =>
        if s.core.atLimit 0 || !s.core.loadsBefore stream s.core.seq then hold s .readiness
        else withFull s pas (q == .fec) fun t =>
          if !coreReadable t stream t.core.seq pas then hold s .readiness
          else
          let (rs, t) := coreRead stream t.core.seq pas t
          match (rs.zip todo).find? fun x => x.1.poison with
          | some (_, va, pa, lane) => trap s (poisonTrap s va pa lane)
          | none =>
            let t := (lock t [shape.dest] (some [shape.result (rs.map (·.val))]) (some 0)).2
            ok (fin { t with core := t.core.count 0 1 })

/-- An access by an AM operand, or the address trap of brev mode 11. (DEDUCED: log 45) -/
def withAccess (s : State) (m : MemOp) (k : Access → Res) : Res :=
  match m.access s.core with
  | some x => k x
  | none => trap s (addressTrap s (s.core.rs m.index))

/-! ### LD, ST, LDV, STV -/

/-- LD (R261): loads 1 to 8 bytes into sD, plain, consuming or acquiring. -/
def execLd (sz : BitVec 2) (q : LdQual) (d : BitVec 6) (mem : MemOp) (g : GuardF) (s : State) : Res :=
  guarded g s fun s => withAccess s mem fun x =>
    let n := 2 ^ sz.toNat
    let ea := x.ea.toNat
    if q != .plain && ea % n != 0 then trap s (alignTrap s ea 0)
    else loadOut s q mem.lent.stream mem.lent.scope [(ea, n, 0)] ea (.scalar d) x.done

/-- ST (R263): stores the low bytes of sD, plain, full-setting or releasing. -/
def execSt (sz : BitVec 2) (q : StQual) (d : BitVec 6) (mem : MemOp) (g : GuardF) (s : State) : Res :=
  guarded g s fun s => withAccess s mem fun x =>
    let n := 2 ^ sz.toNat
    let ea := x.ea.toNat
    let data := bytesOfNat n (s.core.rs d).toNat
    if q != .plain && ea % n != 0 then trap s (alignTrap s ea 0)
    else
      match q, checkStore s ⟨ea, data, 0⟩ with
      | .fe, .ok segs =>
        if (segAddrs segs).all inScratch then storeOut s byHome mem.lent.stream [⟨ea, data, 0⟩] false true none x.done
        else trap s (addressTrap s x.ea)
      | .rel, _ => storeOut s byHome mem.lent.stream [⟨ea, data, 0⟩] false false (some mem.lent.scope) x.done
      | _, _ => storeOut s byHome mem.lent.stream [⟨ea, data, 0⟩] true false none x.done

/-- LDV (R264): loads 256 bytes into a vector register. -/
def execLdv (q : LdQual) (d : BitVec 6) (mem : MemOp) (g : GuardF) (s : State) : Res :=
  guarded g s fun s => withAccess s mem fun x =>
    let ea := x.ea.toNat
    if ea % 16 ≠ 0 then trap s (alignTrap s ea 0)
    else loadOut s q mem.lent.stream .die [(ea, 256, 0)] ea (.lanes d 256 [0] 0) x.done

/-- The enabled bytes of a masked row as runs (address, bytes). -/
def maskRuns (k : KReg) (base : Nat) (bs : List Byte) : List Piece1 :=
  let add (acc : List Piece1) (x : Byte × Nat) : List Piece1 :=
    if k.getLsbD x.2 then
      match acc with
      | p :: r => if p.va + p.data.length = base + x.2 then ⟨p.va, p.data ++ [x.1], 0⟩ :: r
        else ⟨base + x.2, [x.1], 0⟩ :: acc
      | [] => [⟨base + x.2, [x.1], 0⟩]
    else acc
  (bs.zipIdx.foldl add []).reverse

/-- Whether the enabled runs of a row lie where one access may: in a row that starts in the multicast window, before the end of
the scratchpads that it names (R68); else all in one window, or all outside every window (R47). -/
def rowInWindow (ea : Nat) (ps : List Piece1) : Bool :=
  match windowOf ea 1 with
  | .mcast _ off => ps.all fun p => decide (p.va + p.data.length ≤ ea - off + 2 ^ 20)
  | _ =>
    let kind (p : Piece1) : Nat := match windowOf p.va p.data.length with
      | .loc _ => 1
      | .mcast _ _ => 2
      | .splice _ _ _ => 3
      | .plain => 0
      | .straddle => 4
    match ps with
    | [] => true
    | p :: r => kind p != 4 && r.all fun q => kind q == kind p

/-- STV (R264): stores 256 bytes of a vector register under a byte mask. -/
def execStv (k : BitVec 4) (d : BitVec 6) (mem : MemOp) (g : GuardF) (s : State) : Res :=
  guarded g s fun s => withAccess s mem fun x =>
    let ea := x.ea.toNat
    let ps := maskRuns (s.core.rk k) ea (bytesOfNat 256 (s.core.rv d).toNat)
    if ea % 16 ≠ 0 then trap s (alignTrap s ea 0)
    else if !isController s.coreId && !rowInWindow ea ps then trap s (accessTrap s ea)
    else storeOut s byGranule mem.lent.stream ps true false none x.done

/-! ### Strided accesses, gathers and scatters (R265 to R267) -/

/-- The address of lane i: the base plus a 64-bit offset, modulo 2^64. (DEDUCED: log 38) -/
def laneAddr (base off : Word) : Nat := (base + off).toNat

/-- The lanes of LDVS and STVS: lane number and address. (DEDUCED: log 38) -/
def stridedLanes (x : Access) (sigma : Word) (w : Nat) : List (Nat × Nat) :=
  (List.range (256 / w)).map fun i => (i, laneAddr x.ea (BitVec.ofNat 64 i * sigma))

/-- The enabled lanes of LDVX and STVX. (DEDUCED: log 38) -/
def indexedLanes (x : Access) (v : VReg) (k : KReg) : List (Nat × Nat) :=
  ((List.range 64).filter fun i => k.getLsbD (4 * i)).map fun i =>
    (i, laneAddr x.ea ((v.extractLsb' (32 * i) 32).setWidth 64))

/-- Checks one lane of a vector access: its alignment, then its range (R267). (DEDUCED: log 59) -/
def checkLane (s : State) (w : Nat) (k : Nat × Nat → Checked) (l : Nat × Nat) : Checked :=
  if l.2 % w ≠ 0 then .bad (alignTrap s l.2 l.1) else k l

/-- Goes on when every lane passes; the lowest failing lane decides. -/
def withLanes (s : State) (w : Nat) (k : Nat × Nat → Checked) (ls : List (Nat × Nat)) (f : Unit → Res) : Res :=
  withChecked s (checkAll (checkLane s w k) ls) fun _ => f ()

def loadLanes (s : State) (d : BitVec 6) (w : Nat) (ls : List (Nat × Nat)) (stream : BitVec 4) (old : VReg)
    (x : Access) : Res :=
  withLanes s w (fun l => checkRange s ⟨true, false⟩ l.2 w l.1) ls fun _ =>
    loadOut s .plain stream .die (ls.map fun l => (l.2, w, l.1)) x.ea.toNat (.lanes d w (ls.map (·.1)) old) x.done

def storeLanes (s : State) (v : VReg) (w : Nat) (ls : List (Nat × Nat)) (stream : BitVec 4) (x : Access) : Res :=
  let ps := ls.map fun l => (⟨l.2, bytesOfNat w (v.toNat >>> (8 * w * l.1)), l.1⟩ : Piece1)
  withLanes s w (fun l => checkStore s ⟨l.2, bytesOfNat w 0, l.1⟩) ls fun _ => storeOut s byGranule stream ps true false none x.done

/-- LDVS (R265): loads a vector from strided addresses. -/
def execLdvs (w : BitVec 2) (d : BitVec 6) (mem : MemOp) (g : GuardF) (s : State) : Res :=
  guarded g s fun s =>
    let x := mem.lanesAt s.core
    loadLanes s d (2 ^ w.toNat) (stridedLanes x (s.core.rs mem.index) (2 ^ w.toNat)) mem.lent.stream 0 x

/-- STVS (R265): stores a vector to strided addresses. -/
def execStvs (w : BitVec 2) (d : BitVec 6) (mem : MemOp) (g : GuardF) (s : State) : Res :=
  guarded g s fun s =>
    let x := mem.lanesAt s.core
    storeLanes s (s.core.rv d) (2 ^ w.toNat) (stridedLanes x (s.core.rs mem.index) (2 ^ w.toNat)) mem.lent.stream x

/-- LDVX (R266): gathers 32-bit elements through an index vector. -/
def execLdvx (k : BitVec 4) (d : BitVec 6) (mem : MemOp) (g : GuardF) (s : State) : Res :=
  guarded g s fun s =>
    let x := mem.lanesAt s.core
    loadLanes s d 4 (indexedLanes x (s.core.rv mem.index) (s.core.rk k)) mem.lent.stream (s.core.rv d) x

/-- STVX (R266): scatters 32-bit elements through an index vector. -/
def execStvx (k : BitVec 4) (d : BitVec 6) (mem : MemOp) (g : GuardF) (s : State) : Res :=
  guarded g s fun s =>
    let x := mem.lanesAt s.core
    storeLanes s (s.core.rv d) 4 (indexedLanes x (s.core.rv mem.index) (s.core.rk k)) mem.lent.stream x

/-- PREF: nothing that programs see, but its post-increment (R268). -/
def execPref (mem : MemOp) (g : GuardF) (s : State) : Res :=
  guarded g s fun s => withAccess s mem fun x => ok (x.done s)

/-! ### Atomics (R269 to R271) -/

/-- Issues an atomic of `n` bytes at [aX]. (DEDUCED: log 50) -/
def atomicOut (s : State) (ar : Bool) (op : AtomicOp) (d : BitVec 6) (x : BitVec 4) (n : Nat) : Res :=
  let ea := ((s.core.rm x).ea (s.core.ra x) 0).toNat
  if ea % n ≠ 0 then trap s (alignTrap s ea 0)
  else withBytes s ⟨true, true⟩ [(ea, n, 0)] fun bs =>
    match bs.find? fun b => regionOf b.2 == .host with
    | some b => trap s { accessTrap s ea with pa := BitVec.ofNat 64 b.2 }
    | none =>
      withEarly s (bs.map (·.2)) fun _ =>
        if s.core.atLimit 0 then hold s .queue
        else ok (issueLoad s 0 (bs.map fun b => (b.1, b.2, 0)) (.scalar d) none (some (op, ar)))

/-- AMO (R269): issues an 8-byte atomic operation and returns the old value. -/
def execAmo (ar : Bool) (op : AmoOp) (d b : BitVec 6) (x : BitVec 4) (g : GuardF) (s : State) : Res :=
  guarded g s fun s => atomicOut s ar (.amo op (s.core.rs b) s.core.sat) d x 8

/-- CAS (R270): issues a compare-and-swap and returns the old value. -/
def execCas (ar : Bool) (wide : Bool) (d b : BitVec 6) (x : BitVec 4) (g : GuardF) (s : State) : Res :=
  guarded g s fun s =>
    let n := if wide then 8 else 4
    atomicOut s ar (.cas n (s.core.rs d) (s.core.rs b)) d x n

/-! ### FEWAIT (R272) -/

/-- FEWAIT: waits until a range is full, and may empty it (R49, R272). (DEDUCED: log 41) -/
def execFewait (clr : Bool) (len : BitVec 6) (x : BitVec 4) (off : BitVec 14) (g : GuardF) (s : State) : Res :=
  guarded g s fun s =>
    let ea := (s.core.rm x).ea (s.core.ra x) (off.signExtend 64)
    let n := 16 * (len.toNat + 1)
    if ea.toNat % 16 ≠ 0 then trap s (alignTrap s ea.toNat 0)
    else withBytes s ⟨true, false⟩ [(ea.toNat, n, 0)] fun bs =>
      if !bs.all fun b => inScratch b.2 then trap s (addressTrap s ea)
      else if !s.core.loadsBefore 0 s.core.seq then hold s .readiness
      else withFull s (bs.map (·.2)) clr fun s => ok s

end Sys2Proof.Machine
end

