-- ==== Sys2Proof/Machine/Order.lean ====
section
/-! DEFINITION. The steps of the order machine (R130): LOAD, DRAIN, ATOMIC, ARRIVE, APPLY and JOIN, with releases and
acquires (R132, R133), the landing of interlocked results (R54) and of multicast stores (R68). -/

namespace Sys2Proof.Machine

open Sys2Proof

/-- The event that a move names cannot happen in this state. (DESIGN CHOICE: log 2) -/
def notEnabled (mn : String) : Res := .refused (.notEnabled mn)

/-- The end of an order-machine step. -/
def stepped (s : State) : Res := ok (settle s)

/-! ### Acquires (R132, R133, R137) -/

/-- Whether a scope covers two agents. -/
def covers (sc : Scope) (a b : Nat) : Bool :=
  match sc with
  | .core => a == b
  | .cluster => clusterOf a == clusterOf b
  | .die => dieOf a == dieOf b
  | .package | .system => true

/-- The active core acquires a release: its carried set enters Obs(c), seen rises, and at package scope IQ(d) empties. An
acquire that does not cover the releasing party adds nothing. -/
def acquire (scope : Scope) (s : State) (r : Release) : State :=
  if covers scope s.coreId r.core && covers r.scope r.core s.coreId then
    let c := s.core
    let s := { s with core := { c with
      obs := r.obs.foldl sinsert c.obs, seen := raiseSeen c.seen r.core r.epoch } }
    match scope with
    | .package | .system => drainIq s s.here
    | _ => s
  else s

/-- The release that the write a byte was read from carries, if it is one. (DEDUCED: log 43) -/
def releaseOf (s : State) (pa src : Nat) : Option Release :=
  if src = 0 then kfind s.baseRel pa
  else
    match s.writes.find? fun w => w.id == src with
    | some w => w.rel
    | none => none

/-! ### LOAD -/

/-- The bytes that one LOAD step reads, in order: of a scalar load those of one home (R58), of a vector load those of one lane
in one granule, since its accesses are not atomic together (R267). (DEDUCED: log 40) -/
def firstAccess (x : LoadShape) : List (Nat × Nat × Nat) → List (Nat × Nat × Nat)
  | [] => []
  | b :: r => b :: r.takeWhile fun y => match x with
    | .scalar _ => y.1 / 2048 == b.1 / 2048
    | .lanes _ _ _ _ => y.2.2 == b.2.2 && granule y.2.1 == granule b.2.1

/-- A fault found after its bundle has issued, taken at the next bundle boundary: firmware ends the task (R277, R237). -/
def CoreState.defer (c : CoreState) (t : TrapInfo) : CoreState :=
  { c with deferred := match c.deferred with
    | some d => some d
    | none => some t }

/-- Such a fault of the active core. (DEDUCED: log 22) -/
def deferTrap (s : State) (t : TrapInfo) : State := { s with core := s.core.defer t }

/-- Puts exposed writes into the list of those in flight, in issue order (R53). -/
def insertPend (ps : List Pend) (l : List Pend) (since : Nat) : List Pend :=
  (l.takeWhile fun p => p.since ≤ since) ++ ps ++ l.dropWhile fun p => p.since ≤ since

/-- A load whose bytes are all read performs: its value lands at its due bundle, where `ld` falls with it, or waits for
INTERLOCKED_LAND. (DEDUCED: log 40) -/
def performLoad (s : State) (e : LoadEntry) (w : List RegWrite) : State :=
  let c := { s.core with loads := s.core.loads.filter fun x => x.tok != e.tok }
  match e.due with
  | some n =>
    let ps := (w.filter fun x => !x.dropped).map fun x =>
      ({ w := x, due := n, since := n - 6, ld := some (e.cycle + 6) } : Pend)
    let c := if ps = [] then c.count 0 (-1) else c
    { s with core := { c with pend := insertPend ps c.pend (n - 6) } }
  | none =>
    { s with core := { c with locks := c.locks.map fun l => if l.tok = e.tok then { l with result := some w } else l } }

/-- LOAD(c, ld): reads the next granule of the load; after the last one the load performs. (DEDUCED: log 22, 40) -/
def execLoadPerform (tok : Nat) (s : State) : Res :=
  match s.core.loads.find? fun e => e.tok == tok && e.atomic.isNone with
  | none => notEnabled "LOAD_PERFORM"
  | some e =>
    let now := firstAccess e.shape e.todo
    let seen := s.without e.hidden
    if !s.core.loadsBefore e.stream e.seq || !coreReadable seen e.stream e.seq (now.map (·.2.1)) then notEnabled "LOAD_PERFORM"
    else
      let (rs, t) := coreRead e.stream e.seq (now.map (·.2.1)) seen
      let s := { t with writes := s.writes }
      let bad := match e.bad with
        | some b => some b
        | none => ((rs.zip now).find? fun x => x.1.poison).map (·.2)
      let e' := { e with todo := e.todo.drop now.length, got := e.got ++ rs.map (·.val), bad := bad }
      if e'.todo ≠ [] then
        stepped { s with core := { s.core with loads := s.core.loads.map fun x => if x.tok = tok then e' else x } }
      else
        let s := performLoad s e' [e'.shape.result e'.got]
        let s := match bad with
          | some (va, pa, lane) => deferTrap s { poisonTrap s va pa lane with info0 := e.pc }
          | none => s
        match e.acq with
        | none => stepped s
        | some sc =>
          let rels := (rs.zip now).filterMap fun x => if x.1.own then none else releaseOf s x.2.2.1 x.1.src
          stepped (rels.foldl (acquire sc) s)

/-! ### DRAIN -/

/-- A write of the active core takes its coherence place and is applied at its die, with the core's tag (R130, R137). A
release first takes its epoch and observed set. (DEDUCED: log 43) -/
def coreWrite (s : State) (rel : Option Scope) (setFe : Bool) (bytes : List WByte) : State :=
  let e := (s.epochs[s.coreId]?).getD 0
  let (r, s) := match rel with
    | some sc => let (r, t) := releaseNow s sc; (some r, t)
    | none => (none, s)
  let n := s.nextId
  let (go, s) := routed s s.here bytes
  let s := if go = [] then s else placeOne s s.here .core s.coreId s.uid 0 r (if setFe then go.map (·.pa) else []) go
  let ids := (List.range (s.nextId - n)).map fun i => n + i
  let s := tagBytes s (.by s.coreId e) bytes
  { s with core := { s.core with obs := ids.foldl sinsert s.core.obs, own := ids.foldl sinsert s.core.own } }

/-- Whether the head of a store queue may drain: the loads of its stream that issued before it have performed (R60), so
have the acquires before it in any stream (R132), and a release's precondition holds. (DEDUCED: log 42) -/
def drainReady (s : State) (e : StoreEntry) : Bool :=
  s.core.storeBefore e.stream e.seq &&
  (match e.rel with
    | some sc => releaseReady s sc e.seq
    | none => true)

/-! ### ATOMIC (R269 to R271) -/

/-- The coherence-latest value of a byte at its home, its poison mark and its write. -/
def homeByte (s : State) (pa : Nat) : ReadByte :=
  match s.writes.reverse.find? fun w => (w.at pa).isSome with
  | some w => match w.at pa with
    | some b => ⟨b.val, b.poison, w.id, false⟩
    | none => ⟨memGet s.mem pa, s.poison.contains pa, 0, false⟩
  | none => ⟨memGet s.mem pa, s.poison.contains pa, 0, false⟩

/-- RoundF32 of the sum on bits [31:0]; bits [63:32] are kept. -/
def faddWord (sat : Bool) (old x : Word) : Word × Flags :=
  let (b, e) := fltAdd .f32 (f32Num (old.setWidth 32)) (f32Num (x.setWidth 32)) (Env.rneSat sat)
  (old.extractLsb' 32 32 ++ BitVec.ofNat 32 b, e.fl)

/-- The new value of an AMO and its flags (R269). -/
def amoValue (op : AmoOp) (sat : Bool) (old x : Word) : Word × Flags :=
  match op with
  | .add => (old + x, 0)
  | .fadd => faddWord sat old x
  | .min => (if old.slt x then old else x, 0)
  | .max => (if old.slt x then x else old, 0)
  | .and => (old &&& x, 0)
  | .or => (old ||| x, 0)
  | .xor => (old ^^^ x, 0)
  | .swap => (x, 0)

/-- What an atomic writes, if it writes, and its flags. -/
def AtomicOp.apply (op : AtomicOp) (old : Word) : Option Word × Flags :=
  match op with
  | .amo o x sat => let (v, f) := amoValue o sat old x; (some v, f)
  | .cas n e x =>
    let m := 2 ^ (8 * n)
    (if old.toNat % m = e.toNat % m then some x else none, 0)

/-- ATOMIC(c, op): one step at the home of its bytes. A controller's atomic on control space, which has no home (R45), is
refused as R360 says. -/
def execAtomic (tok : Nat) (s : State) : Res :=
  match s.core.loads.find? fun e => e.tok == tok && e.atomic.isSome with
  | none => notEnabled "ATOMIC"
  | some e =>
    match e.atomic with
    | none => notEnabled "ATOMIC"
    | some (op, ar) =>
      let sqEmpty := s.core.sq.all fun x => x.stream != e.stream || decide (e.seq ≤ x.seq)
      if !(sqEmpty && s.core.loadsBefore e.stream e.seq && (!ar || releaseReady s .die e.seq)) then notEnabled "ATOMIC"
      else
        let pas := e.todo.map (·.2.1)
        let refused := isController s.coreId && pas.any fun pa => reaches s s.here pa && (controllerByte s pa).isSome
        let rs : List ReadByte := pas.map fun pa =>
          if refused then ⟨0xFF, false, 0, false⟩ else if !reaches s s.here pa then ⟨0, true, 0, false⟩ else homeByte s pa
        let old : Word := BitVec.ofNat 64 (natOfBytes (rs.map (·.val)))
        let ids := (rs.map (·.src)).filter (· ≠ 0)
        let (new, fl) := op.apply old
        let d := match e.shape with
          | .scalar d => d
          | .lanes _ _ _ _ => 0
        let s := { s with core := { s.core with
          obs := ids.foldl sinsert s.core.obs, own := ids.foldl sinsert s.core.own } }
        match (rs.zip e.todo).find? fun x => x.1.poison with
        | some (_, va, pa, lane) =>
          stepped (deferTrap (performLoad s e [.s d old]) { poisonTrap s va pa lane with info0 := e.pc })
        | none =>
          let rels := (rs.zip pas).filterMap fun x => releaseOf s x.2 x.1.src
          let s := match if refused then none else new with
            | some v =>
              coreWrite s (if ar then some .die else none) false
                ((pas.zip (bytesOfNat pas.length v.toNat)).map fun x => ⟨x.1, x.2, false⟩)
            | none => if ar then (releaseNow s .die).2 else s
          let s := performLoad s e (if fl = 0 then [.s d old] else [.s d old, .flags fl])
          stepped (if ar then rels.foldl (acquire .die) s else s)

/-! ### Landings -/

/-- An interlocked result lands: its destination is pending no longer (R54), and its counter falls (R275). -/
def execInterlockedLand (tok : Nat) (s : State) : Res :=
  match s.core.locks.find? fun l => l.tok == tok with
  | none => notEnabled "INTERLOCKED_LAND"
  | some l =>
    match l.result with
    | none => notEnabled "INTERLOCKED_LAND"
    | some ws =>
      let s := { s with core := { s.core with
        locks := s.core.locks.erase l, staked := s.core.staked.filter (·.1 != l.tok) } }
      let s := ws.foldl landOne s
      ok (match l.counts with
        | some i => { s with core := s.core.count i (-1) }
        | none => s)

/-- The loads that an agent has issued and not performed do not see a multicast store that lands on their bytes: one made before
that cycle reads what it would read without the store (R68). (DEDUCED: log 40) -/
def CoreState.hide (pas ids : List Nat) (c : CoreState) : CoreState :=
  { c with loads := c.loads.map fun e =>
      if e.todo.any fun b => pas.contains b.2.1 then { e with hidden := e.hidden ++ ids } else e }

/-- The same for every core of a cluster: R68 speaks of no other. (DEDUCED: log 40, 46) -/
def hideMcast (s : State) (cluster : Nat) (pas ids : List Nat) : State :=
  ((s.coreId :: s.parked.map (·.1)).filter fun k => clusterOf k == cluster).foldl
    (fun s k => s.mapAgent k (CoreState.hide pas ids)) s

/-- Whether another core of the cluster has a multicast store to land first: one of an earlier cycle, or of the same cycle by a
lower-numbered core, since the higher-numbered core's bytes are the ones that stay (R68). (DEDUCED: log 46) -/
def mcastBefore (s : State) (due : Nat) : Bool :=
  s.parked.any fun a => clusterOf a.1 == clusterOf s.coreId && a.2.mcast.any fun e =>
    decide (e.due < due) || (e.due == due && decide (a.1 < s.coreId))

/-- A multicast store of the active core lands in all its targets at once, at its cycle (R68). Its granules are tagged
synchronous; full-empty bits do not change. (DEDUCED: log 46) -/
def execMulticastLand (s : State) : Res :=
  match s.core.mcast with
  | [] => notEnabled "MULTICAST_LAND"
  | e :: r =>
    if s.time < e.due || mcastBefore s e.due then notEnabled "MULTICAST_LAND"
    else
      let everywhere := allDies.flatMap fun d => allPaths.map fun p => (d, p)
      let put (s : State) (g : List WByte) : State :=
        { s with
          writes := s.writes ++ [⟨s.nextId, .core, s.here, s.coreId, s.uid, g, allDies, everywhere, [], [], e.rel, 0⟩]
          nextId := s.nextId + 1 }
      let gs := byGranule e.bytes.length e.bytes
      let s := hideMcast s (clusterOf s.coreId) (e.bytes.map (·.pa)) ((List.range gs.length).map fun i => s.nextId + i)
      let s := gs.foldl put s
      let s := tagBytes s (.sync (clusterOf s.coreId)) e.bytes
      let c := { s.core with mcast := r }
      let more := c.sq.any fun x => x.seq == e.seq
      stepped { s with core := if e.counts && !more then c.count 1 (-1) else c }

/-! ### ARRIVE, APPLY, JOIN -/

/-- The oldest write in Ch(src, dst). -/
def channelHead (s : State) (src dst : BitVec 2) : Option Write :=
  s.writes.find? fun w => w.die == src && !arrivedAt s dst w

/-- ARRIVE (R130): the oldest write in a die-to-die channel enters the destination die's incoming queue. -/
def execArrive (src dst : BitVec 2) (s : State) : Res :=
  if src = dst then notEnabled "ARRIVE"
  else
    match channelHead s src dst with
    | none => notEnabled "ARRIVE"
    | some w => stepped (s.mapDie dst fun d => { d with iq := d.iq ++ [w.id] })

/-- Whether no write to a byte of w's granules is ahead of it in IQ(d). -/
def applyReady (s : State) (die : BitVec 2) (id : Nat) : Bool :=
  let grans (i : Nat) : List Nat := match s.writes.find? fun w => w.id == i with
    | some w => w.bytes.map fun b => granule b.pa
    | none => []
  let iq := (s.die die).iq
  iq.contains id && (iq.takeWhile (· != id)).all fun i => (grans i).all fun g => !(grans id).contains g

/-- APPLY (R130): A write in a die's incoming queue is applied in that die's view. -/
def execApply (die : BitVec 2) (w : Nat) (s : State) : Res :=
  if applyReady s die w then stepped (applyAt s die w) else notEnabled "APPLY"

/-- JOIN (R130): an applied write is joined to another path at a die. -/
def execJoin (die : BitVec 2) (w : Nat) (p : Path) (s : State) : Res :=
  match s.writes.find? fun x => x.id == w with
  | none => notEnabled "JOIN"
  | some x =>
    if x.applied.contains die && !x.binds die p then stepped (joinAt s die [p] fun y => y.id == w)
    else notEnabled "JOIN"

end Sys2Proof.Machine
end

