-- ==== Sys2Proof/Machine/Sync.lean ====
section
/-! DEFINITION. Slot 1: fences, counters, named barriers and snapshots (R134, R135, R274 to R280, R356), with the arrival of
a barrier operation at its record (R277). -/

namespace Sys2Proof.Machine

open Sys2Proof

/-! ### FENCE (R134, R274) -/

/-- The paths of a path mask. -/
def pathsOf (m : BitVec 6) : List Path := (allPaths.zipIdx.filter fun p => m.getLsbD p.2).map (·.1)

/-- Whether a fence's streams have drained, every load has performed and every multicast store has landed. -/
def fenceReady (c : CoreState) (streams : BitVec 16) : Bool :=
  (c.sq.all fun e => streams ≠ 0 && !streams.getLsbD e.stream.toNat) && c.loads.isEmpty && c.mcast.isEmpty

/-- The joins of a fence (R134 steps 2 to 4). -/
def fenceJoin (s : State) (ps : List Path) (scope : Scope) : State :=
  match scope with
  | .core => s
  | .cluster | .die => joinAt s s.here ps fun w => ps.contains w.path
  | .package | .system =>
    let s := drainIq s s.here
    allDies.foldl (fun s d => joinAt s d ps fun w => ps.contains w.path) s

/-- FENCE (R134): orders and joins the named paths and streams at a scope. -/
def execFence (paths : BitVec 6) (scope : Scope) (streams : BitVec 16) (g : GuardF) (s : State) : Res :=
  guarded g s fun s =>
    let sc := match scope with
      | .package | .system => true
      | _ => false
    if !fenceReady s.core streams then hold s .fence
    -- the step empties IQ(d) itself, so a write that waits there alone does not hold it back
    else if sc && !allApplied (drainIq s s.here) s.core.obs then hold s .fence
    else stepped (fenceJoin s (pathsOf paths) scope)

/-! ### WAIT (R135, R276) -/

/-- The path of a counter class: `cp`, `tn` and `nx`. (DEDUCED: log 44) -/
def classPath (i : Nat) : Option Path :=
  match i with
  | 2 => some .copy
  | 3 => some .tensor
  | 4 => some .network
  | _ => none

/-- The writes of the task's retired operations of a path. (DEDUCED: log 44) -/
def retiredWrites (s : State) (p : Path) : List Nat :=
  (s.writes.filter fun w =>
    w.path == p && s.owns w.task w.core && w.prod ≠ 0 && !(s.cmds.any fun c => c.id == w.prod)).map (·.id)

/-- Joins writes to the core path at the die and adds them to Obs(c). (DEDUCED: log 44) -/
def joinCore (s : State) (ids : List Nat) : State :=
  let s := joinAt s s.here [.core] fun w => ids.contains w.id
  { s with core := { s.core with obs := ids.foldl sinsert s.core.obs } }

/-- WAIT (R276). (DEDUCED: log 44) -/
def execWait (classes : BitVec 6) (limit : BitVec 6) (g : GuardF) (s : State) : Res :=
  guarded g s fun s =>
    let named := (List.range 6).filter fun i => classes.getLsbD i
    if named.all fun i => (s.core.cnt.get (BitVec.ofNat 3 i)).toNat ≤ limit.toNat then
      stepped ((named.filterMap classPath).foldl (fun s p => joinCore s (retiredWrites s p)) s)
    else hold s .waitCounters

/-! ### Barriers (R9, R277 to R279) -/

def barKey (core : Nat) (n : BitVec 10) : Nat := 1024 * core + n.toNat

def BarRec.idle : BarRec := ⟨false, 0, 0, 0, [], []⟩

/-- The core whose barrier file the active core's gang uses: member 0's. -/
def State.lead (s : State) : Nat := (s.core.task.map (·.lead)).getD s.coreId

def State.bar (s : State) (n : BitVec 10) : BarRec := kget .idle s.bars (barKey s.lead n)

def State.setBar (s : State) (n : BitVec 10) (r : BarRec) : State :=
  { s with bars := kput .idle s.bars (barKey s.lead n) r }

/-- Whether firmware has ended a member of the active core's gang, so that every barrier record of it is broken (R279). -/
def State.gangBroken (s : State) : Bool :=
  match s.core.task with
  | some t => (s.die t.home).active.gangs.any fun g => g.launch == t.launch && g.index == t.gang && g.broken
  | none => false

/-- A barrier acts at gang scope (R133). -/
def State.gangScope (s : State) : Scope := if 128 < s.core.plane.gsize then .package else .die

/-- Trap(barrier), FINFO1 naming the record. -/
def barrierTrap (s : State) (n : BitVec 10) : TrapInfo := endTrap s 0x0B (n.setWidth 64)

/-- A barrier operation of the active core goes to the record. -/
def sendArrival (s : State) (n : BitVec 10) (count : Nat) (init : Bool) : State :=
  { s with core := { s.core with
    arrivals := s.core.arrivals ++ [⟨n, count, init, s.core.seq, s.core.pc⟩], seq := s.core.seq + 1 } }

/-- BARINIT (R278): opens a barrier phase of count c on an idle record. -/
def execBarinit (n : BitVec 10) (cnt : BitVec 14) (g : GuardF) (s : State) : Res :=
  guarded g s fun s =>
    if s.core.plane.gsize < cnt.toNat then trap s (barrierTrap s n) else ok (sendArrival s n cnt.toNat true)

/-- Recorded split arrivals, with those still on their way. -/
def CoreState.splitCount (c : CoreState) : Nat := c.splits.length + (c.arrivals.filter fun a => !a.init).length

/-- BARARV (R278): arrives at a barrier as a release without waiting. -/
def execBararv (n : BitVec 10) (cnt : BitVec 14) (g : GuardF) (s : State) : Res :=
  guarded g s fun s =>
    if s.core.plane.gsize < cnt.toNat || 8 ≤ s.core.splitCount then trap s (barrierTrap s n)
    else ok (sendArrival s n cnt.toNat false)

/-- The releases of the phase of a recorded arrival, once it has completed. (DEDUCED: log 54) -/
def phaseDone (s : State) (x : Split) : Option (List Release) :=
  ((s.bar x.n).done.find? fun d => d.1 == x.phase).map (·.2)

/-- Barrier completion: an acquire at gang scope of every participant's release (R132, R137). -/
def finishPhase (s : State) (x : Split) (rels : List Release) : State :=
  let s := rels.foldl (acquire s.gangScope) s
  { s with core := { s.core with splits := s.core.splits.erase x } }

/-- BARWT (R278). (DEDUCED: log 54) -/
def execBarwt (n : BitVec 10) (g : GuardF) (s : State) : Res :=
  guarded g s fun s =>
    if s.gangBroken then trap s (barrierTrap s n)
    else
      match s.core.splits.find? fun x => x.n == n with
      | some x =>
        match phaseDone s x with
        | some rels => stepped (finishPhase s x rels)
        | none => hold s .barrier
      | none => if s.core.arrivals.any fun a => a.n == n && !a.init then hold s .barrier else ok s

/-- BARARW arrives; its wait begins after its bundle (R157, R278). (DEDUCED: log 54) -/
def execBararw (n : BitVec 10) (cnt : BitVec 14) (g : GuardF) (s : State) : Res :=
  guarded g s fun s =>
    if s.core.plane.gsize < cnt.toNat then trap s (barrierTrap s n)
    else
      let s := sendArrival s n cnt.toNat false
      ok { s with core := { s.core with after := s.core.after ++ [.barrier n s.core.pc] } }

/-- The wait of BARARW: over when the phase of its arrival, the last recorded one, has completed; a broken record traps
the member that waits there. (DEDUCED: log 21) -/
def wakeBarrier (s : State) (n : BitVec 10) (pc : Word) : Option State :=
  if s.gangBroken then some (takeTrap s { barrierTrap s n with info0 := pc } s.core.pc)
  else if s.core.arrivals.any fun a => a.n == n && !a.init then none
  else
    match s.core.splits.reverse.find? fun x => x.n == n with
    | none => none
    | some x =>
      (phaseDone s x).map fun rels =>
        let s := finishPhase s x rels
        settle { s with core := { s.core with after := s.core.after.erase (.barrier n pc) } }

/-- The oldest barrier operation of the active core reaches the record (R9, R277): an arrival once its release's
precondition holds. A fault judged here is deferred; it changes no field of the record. (DEDUCED: log 22, 54) -/
def execBarrierArrival (s : State) : Res :=
  match s.core.arrivals with
  | [] => notEnabled "BARRIER_ARRIVAL"
  | a :: rest =>
    let r := s.bar a.n
    let fault (s : State) : Res := ok (deferTrap s { barrierTrap s a.n with info0 := a.pc })
    let gone (s : State) : State := { s with core := { s.core with arrivals := rest } }
    if a.init then
      if s.gangBroken || r.isOpen then fault (gone s)
      else ok ((gone s).setBar a.n { r with isOpen := true, cnt := a.count, who := [] })
    else if !releaseReady s s.gangScope a.seq then notEnabled "BARRIER_ARRIVAL"
    else
      let (rel, s) := releaseNow (gone s) s.gangScope
      let me := s.core.plane.member
      if s.gangBroken || (r.isOpen && (r.cnt != a.count || r.who.any fun w => w.1 == me)) then fault s
      else
        let who := r.who ++ [(me, rel)]
        let r' : BarRec :=
          if who.length = a.count then
            { r with
              isOpen := false, cnt := 0, who := [], gen := r.gen + 1, phase := r.phase + 1
              done := r.done ++ [(r.phase, who.map (·.2))] }
          else { r with isOpen := true, cnt := a.count, who := who }
        let s := s.setBar a.n r'
        ok { s with core := { s.core with splits := s.core.splits ++ [⟨a.n, r.gen, r.phase⟩] } }

/-! ### Snapshots (R280, R356) -/

/-- The core snapshot of one core. (DEDUCED: log 18, 55) -/
def snapOf (time : Nat) (c : CoreState) : BitVec 512 :=
  let frz : BitVec 8 := match c.run, c.after with
    | .suspended _ _ _, _ => 7
    | .draining, [] => 6
    | _, .barrier _ _ :: _ => 4
    | _, .launch _ _ :: _ => 5
    | _, [] => c.frz
  BitVec.ofNat 64 time ++ c.pc ++ c.bcnt ++
    (c.cnt.sp ++ c.cnt.nx ++ c.cnt.tn ++ c.cnt.cp ++ c.cnt.st ++ c.cnt.ld) ++ frz ++ c.loops.depth ++ 0#212 ++ 1#1

/-- The tile cores of a partition. -/
def partCores (mode : BitVec 2) (p : Nat) : List Nat :=
  (partDies mode p).flatMap fun d => (List.range 128).map fun i => 128 * d.toNat + i

/-- A snapshot trigger of a partition: it latches every core, unless one holds VALID = 1. -/
def snapTrigger (s : State) (p : Nat) : State :=
  let cs := partCores s.xd0.mode p
  if s.snaps.any fun x => cs.contains x.1 && x.2.getLsbD 0 then s
  else { s with snaps := cs.foldl (fun l k => kset l k (snapOf s.time (s.agent k))) s.snaps }

/-- SNAP (R356). (DEDUCED: log 55) -/
def execSnap (g : GuardF) (s : State) : Res :=
  guarded g s fun s =>
    if (s.die s.here).snapctl.getLsbD 0 then ok (snapTrigger s (partOfDie s.xd0.mode s.here)) else ok s

end Sys2Proof.Machine
end

