-- ==== Sys2Proof/Machine/Engine.lean ====
section
/-! DEFINITION. What engine commands share: capture at issue (R229), ranges and stakes (R233), queues and counters (R232), the
writes of an engine (R49, R51, R130, R237), and retirement. -/

namespace Sys2Proof.Machine

open Sys2Proof

/-- Trap(shape or lay), cause 0x13 (R65). -/
def shapeTrap (s : State) (va : Nat) : TrapInfo := endTrap s 0x13 (BitVec.ofNat 64 va)

/-- A range of a command of an engine (R233): the local window is the own scratchpad; the multicast and splice windows take the
access trap (R47, R68). -/
def checkEngine (s : State) (p : Path) (n : Need) (va len : Nat) : Checked :=
  if len = 0 then .ok []
  else
    match windowOf va len with
    | .loc off => if isController s.coreId then .bad (accessTrap s va) else .ok [⟨va, spAddr s.coreId off, len⟩]
    | .plain => checkPlain s false p n va len 0
    | _ => .bad (accessTrap s va)

/-- Several ranges of a command. -/
def checkEngines (s : State) (p : Path) (n : Need) (rs : List (Nat × Nat)) : Checked :=
  checkAll (fun r => checkEngine s p n r.1 r.2) rs

/-- Captures `len` bytes at `va` on the core path, under the task's claims (R62, R229 step 2). (DEDUCED: log 60, 61) -/
def capture (s : State) (va len : Nat) (k : List Byte → State → Res) : Res :=
  withChecked s (checkEngine s .core ⟨true, false⟩ va len) fun segs =>
    withRead0 s (segAddrs segs) fun bs s1 =>
      let s' := { s1 with caught := s1.caught ++ segs }
      match (bs.zip (segBytes segs)).find? fun x => x.1.poison with
      | some (_, v, p) => trap s (poisonTrap s v p 0)
      | none => k (bs.map (·.val)) s'

/-! ### Stakes (R233, R340) -/

/-- The pages of a PASID's translated pieces, each once. (DEDUCED: log 63) -/
def pagesOf (d : DieState) (pasid : Nat) (segs : List Seg) : List Stake :=
  (segs.filterMap fun g => (tlbFind d.translations pasid g.va).map fun e => (⟨pasid, e.va, e.size⟩ : Stake)).eraseDups

/-- The pages that a command of the active task stakes. (DEDUCED: log 63) -/
def stakePages (s : State) (segs : List Seg) : List Stake :=
  match s.core.task with
  | none => []
  | some t =>
    pagesOf (s.die s.here) t.pasid (segs.filter fun g => match windowOf g.va g.len with
      | .plain => true
      | _ => false)

/-- The stakes of the commands that enter no queue: those of an agent's SPLARVs and LAUNCHes, until their outcomes land. -/
def CoreState.stakes (c : CoreState) : List Stake := c.staked.flatMap (·.2)

/-- Entries of a die's stake table in use: one for each page of each command, queued or not, of each lease and of each open splice
context. -/
def stakesUsed (s : State) (d : BitVec 2) : Nat :=
  let cs := (s.cmds.filter fun c => c.die == d).map fun c => c.pages.length
  let as := (s.agents.filter fun a => dieOf a.1 == d).map fun a => a.2.stakes.length
  let x := s.die d
  let ls := (x.active.launches ++ x.shadow.launches).map fun l => (l.lease.getD []).length
  let os := x.splices.map fun c => c.2.stakes.length
  cs.sum + as.sum + ls.sum + os.sum

def stakeEntries : Nat := 16384

/-- Whether a command of the active core finds too few free stake entries for its pages. (DEDUCED: log 63) -/
def stakesFull (s : State) (pages : List Stake) : Bool :=
  pages != [] && decide (stakeEntries < stakesUsed s s.here + pages.length)

/-- An interlocked instruction that enters no queue stakes its pages until its destination lands (R233). (DEDUCED: log 63) -/
def stakeFor (s : State) (tok : Nat) (pages : List Stake) : State :=
  { s with core := { s.core with staked := s.core.staked ++ [(tok, pages)] } }

/-! ### Issue (R229 step 5, R232) -/

/-- The depth of a path's queue; SPLARV has none. -/
def queueDepth : Path → Option Nat
  | .copy | .network => some 16
  | .tensor => some 32
  | _ => none

/-- The counter class of a path's commands (R231, R275). -/
def pathClass : Path → BitVec 3
  | .copy => 2
  | .tensor => 3
  | .network => 4
  | _ => 5

def queueFull (s : State) (p : Path) : Bool :=
  match queueDepth p with
  | some n => decide (n ≤ (s.cmds.filter fun c => s.owns c.task c.core && c.path == p && !c.started).length)
  | none => false

/-- The command that the active core issues, with nothing done yet. -/
def newCmd (s : State) (p : Path) (body : CmdBody) (pages : List Stake) : Cmd where
  id := s.nextId
  core := s.coreId
  launch := (s.core.task.map (·.launch)).getD 0
  task := s.uid
  wid := s.core.plane.wid
  slot := (s.core.task.map (·.slot)).getD 0
  pasid := (s.core.task.map (·.pasid)).getD 0
  die := s.here
  path := p
  pc := s.core.pc
  epoch := (s.epochs[s.coreId]?).getD 0
  body := body
  pages := pages
  started := false
  tok := none
  pieces := []
  ships := []
  out := []
  spl := []
  readDone := false
  finished := false
  flags := 0
  result := none
  reads := []
  writes := none
  counted := true

/-- A command enters its queue and its counter rises, unless the queue, the counter or the stake table is full. It stakes the
pages of `segs` and of what it captured. `dest` is its interlocked destination; `fin` its post-increments. -/
def submit (s : State) (p : Path) (body : CmdBody) (segs : List Seg) (dest : Option (BitVec 6)) (f : Cmd → Cmd)
    (fin : State → State) : Res :=
  let pages := stakePages s (s.caught ++ segs)
  if queueFull s p || s.core.atLimit (pathClass p) || stakesFull s pages then hold s .queue
  else
    let c := f (newCmd s p body pages)
    let c := { c with tok := dest.map fun _ => s.core.seq }
    let s := match dest with
      | some d => (lock s [.s d] none (if p == Path.splice then some 5 else none)).2
      | none => s
    let s := { s with
      cmds := s.cmds ++ [c], nextId := s.nextId + 1, caught := [], core := s.core.count (pathClass p) 1 }
    ok (fin s)

/-! ### The issuing task, wherever it is -/

/-- Whether an agent holds the task that issued a command. -/
def Cmd.of (c : Cmd) (id : Nat) (x : CoreState) : Bool :=
  match x.task with
  | some t => t.uid == c.task
  | none => isController c.core && c.task == 0 && id == c.core

/-- The agent on which the issuing task stands. -/
def Cmd.agent (c : Cmd) (s : State) : Option Nat :=
  if c.of s.coreId s.core then some s.coreId else (s.parked.find? fun p => c.of p.1 p.2).map (·.1)

/-- Changes the issuing task's state, on its core or in its save slot (R234). -/
def mapTask (s : State) (c : Cmd) (f : CoreState → CoreState) : State :=
  match c.agent s with
  | some a => s.mapAgent a f
  | none => s.mapDie c.die fun d =>
      { d with saves := d.saves.map fun v => if c.of v.2.home v.2.core then (v.1, { v.2 with core := f v.2.core }) else v }

/-! ### Commands in the list -/

def findCmd (s : State) (id : Nat) : Option Cmd := s.cmds.find? fun c => c.id == id

def setCmd (s : State) (c : Cmd) : State := { s with cmds := s.cmds.map fun x => if x.id = c.id then c else x }

/-- Whether two commands are of one task, which owns its queues (R10); a controller's are its own. -/
def Cmd.sameTask (c x : Cmd) : Bool := x.task == c.task && (c.task != 0 || x.core == c.core)

/-- The commands of the same task that issued before. (DEDUCED: log 66) -/
def earlier (s : State) (c : Cmd) : List Cmd := s.cmds.filter fun x => c.sameTask x && decide (x.id < c.id)

/-! ### Engine writes -/

/-- An engine's write takes its coherence place on its path at the issuing die, with the issuer's tag (R51, R130). `full` lists
the bytes whose granules it completes (R49). -/
def engineWrite (s : State) (c : Cmd) (full : List Nat) (bytes : List WByte) : State :=
  tagBytes (place s c.die c.path c.core c.task c.id none full bytes) (.by c.core c.epoch) bytes

/-- The bytes among `bytes` to whose granules no later write of the command adds. -/
def completed (rest : List EngWrite) (bytes : List WByte) : List Nat :=
  (bytes.map (·.pa)).filter fun pa => !(rest.any fun w => w.bytes.any fun x => granule x.pa == granule pa)

/-- Whether a guarded block may land: the target core still holds the task, in the same stay (R237). (DEDUCED: log 65) -/
def guardHolds (s : State) (g : Nat × Option Nat) : Bool :=
  match g.2, (s.agent g.1).task with
  | some i, some t => t.inst == i && (s.agent g.1).run != .ended
  | _, _ => false

/-- The stays of the tasks on the other cores whose scratchpads a copy aims at. (DEDUCED: log 65) -/
def heldBy (s : State) (segs : List Seg) : List (Nat × Option Nat) :=
  (segs.filterMap fun g =>
    match regionOf g.pa with
    | .sp k => if k = s.coreId then none else some (k, (s.agent k).task.map (·.inst))
    | _ => none).eraseDups

/-- The guard of a destination byte: none for the own scratchpad and for everything that is no scratchpad. (DEDUCED: log 65) -/
def guardOf (held : List (Nat × Option Nat)) (core pa : Nat) : Option (Nat × Option Nat) :=
  match regionOf pa with
  | .sp k => if k = core then none else some (k, (kfind held k).getD none)
  | _ => none

/-- A log-only record of a command (R346). -/
def logCmd (s : State) (c : Cmd) (t : TrapInfo) : State :=
  logEvent s c.die c.core c.pasid c.wid { t with kind := 2, info0 := c.pc }

/-- Performs one of a command's writes, `rest` being the others, or refuses it and logs cause 0x23 (R237). -/
def performWrite (s : State) (c : Cmd) (w : EngWrite) (rest : List EngWrite) : State :=
  let s := setCmd s { c with out := rest }
  let free := match w.guard with
    | some g => guardHolds s g
    | none => true
  if free then
    engineWrite s c (if w.setFe then completed rest w.bytes else []) w.bytes
  else
    logCmd s c { TrapInfo.mk0 0x23 2 0 (BitVec.ofNat 64 w.va) with
      pa := BitVec.ofNat 64 ((w.bytes.head?.map (·.pa)).getD 0), item := BitVec.ofNat 16 w.piece }

/-! ### Retirement (R130 RETIRE, R232) -/

/-- The command leaves its queue, its stakes end, its counter falls, its flags and result reach its task. -/
def retire (s : State) (c : Cmd) : State :=
  let s := mapTask s c fun x =>
    let x := if c.path == Path.splice then x else x.count (pathClass c.path) (-1)
    let x := x.orFlags c.flags
    match c.tok, c.result with
    | some t, some v => x.answer t v
    | _, _ => x
  settle { s with cmds := s.cmds.filter fun x => x.id != c.id }

end Sys2Proof.Machine
end

