-- ==== Sys2Proof/Machine/Tensor.lean ====
section
/-! DEFINITION. Tensors in memory: handles and shape records (R62 to R65, R96), the places of elements (R30, R63), the ranges
that a command checks (R22, R65, R233), and the values of elements (R27, R29, R239). -/

namespace Sys2Proof.Machine

open Sys2Proof

/-! ### Elements -/

def Shape.count (h : Shape) : Nat := h.ext.foldl (· * ·) 1

/-- The indices of the element with linear index `l`, dimension 0 first. -/
def unlinear : List Nat → Nat → List Nat
  | [], _ => []
  | e :: r, l => l % e :: unlinear r (l / e)

/-- The linear index of an element. -/
def linear : List Nat → List Nat → Nat
  | e :: es, i :: is => i + e * linear es is
  | _, _ => 0

def Shape.index (h : Shape) (l : Nat) : List Nat := unlinear h.ext l

def Shape.blocks (h : Shape) : Nat := (h.count + 31) / 32

/-- The side plane of a lay-4 tensor (R30). (DEDUCED: log 67) -/
def Shape.side (h : Shape) : Nat := (h.base + 16 * h.blocks + 2047) / 2048 * 2048

/-- The address of an element's first byte (R30, R63). -/
def Shape.addr (h : Shape) (l : Nat) : Nat :=
  match h.ty with
  | .e2m1k => (h.base + 16 * (l / 32) + l % 32 / 2) % 2 ^ 64
  | t =>
    let i := h.index l
    let s := if t.is4 then 0 :: h.stride.tail else h.stride
    (h.base + ((i.zip s).map fun x => x.1 * x.2).sum + if t.is4 then i.headD 0 / 2 else 0) % 2 ^ 64

/-- The ranges that hold an element: its bytes, and for type 5 the side-plane bytes of its block. -/
def Shape.ranges (h : Shape) (l : Nat) : List (Nat × Nat) :=
  match h.ty with
  | .e2m1k => [(h.addr l, 1), ((h.side + 2 * (l / 32)) % 2 ^ 64, 2)]
  | t => [(h.addr l, if t.is4 then 1 else t.bits / 8)]

/-- Whether an element lies in the high nibble of its byte. -/
def Shape.high (h : Shape) (l : Nat) : Bool :=
  h.ty.is4 && (if h.ty == .e2m1k then l % 2 == 1 else (h.index l).headD 0 % 2 == 1)

/-- The bytes that R71 counts. (DEDUCED: log 67) -/
def Shape.bytes (h : Shape) : Nat := if h.ty == .e2m1k then 18 * h.blocks else h.count * h.ty.bits / 8

/-- Rows: the lines of dimension 0. -/
def Shape.rows (h : Shape) : Nat := h.count / h.ext.headD 1

/-- The row of an element. -/
def Shape.row (h : Shape) (l : Nat) : Nat := l / h.ext.headD 1

/-- Whether a row is within a valid count (R22). -/
def within (vc : Option Nat) (row : Nat) : Bool :=
  match vc with
  | some v => decide (row < v)
  | none => true

/-! ### Records (R63 to R65, R96) -/

/-- The bytes that a row of dimension 0 spans. -/
def Shape.rowBytes (h : Shape) : Nat :=
  let e := h.ext.headD 1
  if h.ty.is4 then e / 2 else (e - 1) * h.stride.headD 0 + h.ty.bits / 8

/-- The lay-0 condition (R64), in half bytes, over the dimensions below the rank. (DEDUCED: log 61) -/
def Shape.lay0 (h : Shape) : Bool :=
  let s k := 2 * h.stride.getD k 0
  let s0 := if h.ty.is4 then 1 else s 0
  decide (h.ty.bits / 4 ≤ s0) && (List.range h.rank).all fun k =>
    k == 0 || decide (h.ext.getD (k - 1) 1 * (if k = 1 then s0 else s (k - 1)) ≤ s k)

/-- The conditions of a lay (R64, R96), the lay-0 condition aside. -/
def Shape.layOk (h : Shape) : Bool :=
  let e k := h.ext.getD k 1
  let s k := h.stride.getD k 0
  match h.lay with
  | 0 => true
  | 1 => s 1 % 64 == 0 && (List.range h.rows).all fun r =>
      let o := h.addr (r * e 0) % 2048
      o == 0 || decide (o + h.rowBytes ≤ 2048)
  | 2 => decide ((e 0 * h.ty.bits + 7) / 8 ≤ 256) && s 1 == 256 && s 2 % 8192 == 0
  | 3 => h.rank == 3 && e 0 % 2 == 0 && e 1 == 64 && 1 ≤ h.ty.code.toNat && h.ty.code.toNat ≤ 4 && h.kv &&
      h.base % 2048 == 0 && s 1 == (e 0 * (h.ty.bits / 8) + 63) / 64 * 64 && s 2 % 2048 == 0 && decide (64 * s 1 ≤ s 2)
  | 4 => h.base % 16 == 0
  | _ => false

/-- Numbers of `w` bytes each, `n` of them. -/
def fieldsNat (b : List Byte) (lo w n : Nat) : List Nat := (List.range n).map fun i => fieldNat b (lo + w * i) w

/-- The shape that a record's 64 bytes give, or none where it has a shape fault (R65). (DEDUCED: log 61) -/
def parseShape (h : BitVec 8) (b : List Byte) : Option Shape :=
  let ty := Ty.ofCode (BitVec.ofNat 4 (fieldNat b 8 1))
  let rank := fieldNat b 9 1
  let lay := fieldNat b 10 1
  let fl := fieldNat b 11 1
  let ext := fieldsNat b 12 4 5
  let x : Shape := ⟨h, fieldNat b 0 8, ty, rank, lay, fl.testBit 2, fl.testBit 1, fl.testBit 0, ext, fieldsNat b 32 6 5, []⟩
  if fieldNat b 8 1 < 16 && 1 ≤ rank && rank ≤ 5 && lay ≤ 4 && fl < 8 && fieldNat b 62 2 == 0 && ext.all (· ≠ 0) &&
    (ext.drop rank).all (· == 1) && ((lay == 4) == (ty == .e2m1k)) && (!ty.is4 || ext.headD 0 % 2 == 0) && x.layOk
  then some x else none

/-! ### Capture (R62) -/

/-- What stands behind a handle: its record's address, and the record's bytes unless the handle is null or its entry is
not 64-byte aligned. -/
structure RawRec where
  handle : BitVec 8
  va     : Nat
  bytes  : Option (List Byte)
deriving DecidableEq, Repr

/-- Captures a handle's table entry and its record. An HTAB of 0 gives no handles (R322). (DEDUCED: log 60) -/
def captureHandle (s : State) (h : BitVec 8) (k : RawRec → State → Res) : Res :=
  let t := s.core.plane.htab.toNat
  if t = 0 then k ⟨h, 0, none⟩ s
  else capture s (t + 8 * h.toNat) 8 fun b s =>
    let va := natOfBytes b
    if va % 64 ≠ 0 || va = 0 then k ⟨h, va, none⟩ s
    else capture s va 64 fun r s => k ⟨h, va, some r⟩ s

/-- Captures the records of several handles, in order (R229). (DEDUCED: log 60) -/
def captureHandles : List (BitVec 8) → State → (List RawRec → State → Res) → Res
  | [], s, k => k [] s
  | h :: r, s, k => captureHandle s h fun x s => captureHandles r s fun xs s => k (x :: xs) s

def RawRec.shape (r : RawRec) : Option Shape := r.bytes.bind (parseShape r.handle)

/-- Goes on with the shapes of all records, or takes the shape fault of the first that has one (R65). -/
def withShapes (s : State) : List RawRec → (List Shape → Res) → Res
  | [], k => k []
  | r :: rs, k =>
    match r.shape with
    | some x => withShapes s rs fun xs => k (x :: xs)
    | none => trap s (shapeTrap s r.va)

/-! ### Ranges -/

/-- Joins ranges that follow each other or repeat. -/
def mergeRanges : List (Nat × Nat) → List (Nat × Nat)
  | [] => []
  | (a, n) :: r =>
    match mergeRanges r with
    | (b, m) :: t =>
      if a = b && n ≤ m then (b, m) :: t
      else if a + n = b then (a, n + m) :: t
      else (a, n) :: (b, m) :: t
    | [] => [(a, n)]

/-- The ranges of elements: the code bytes, then the side planes. -/
def Shape.rangesOf (h : Shape) (els : List Nat) : List (Nat × Nat) :=
  mergeRanges (els.filterMap fun l => (h.ranges l).head?) ++ mergeRanges (els.flatMap fun l => (h.ranges l).tail)

/-- A tensor operand may lie in no scratchpad (R65): the trap that an element's window gives, if it gives one. An element that
itself crosses an end of a window takes R47's trap. (DEDUCED: log 62) -/
def tensorWindow (s : State) (spl : Bool) (va len : Nat) : Option TrapInfo :=
  match windowOf va len with
  | .loc _ | .mcast _ _ => some (shapeTrap s va)
  | .straddle => some (accessTrap s va)
  | .splice _ _ _ => if spl then none else some (accessTrap s va)
  | .plain => none

/-- Refuses translated pieces in a scratchpad (R65). (DEDUCED: log 62) -/
def noScratch (s : State) (c : Checked) : Checked :=
  match c with
  | .ok segs =>
    match segs.find? fun g => inScratch g.pa || inScratch (g.pa + g.len - 1) with
    | some g => .bad (shapeTrap s g.va)
    | none => .ok segs
  | c => c

/-- Checks and translates the elements of a tensor operand (R65, R233): each element's window, then the ranges. A splice
destination's ranges are not translated (R47). -/
def checkTensor (s : State) (n : Need) (h : Shape) (els : List Nat) : Checked :=
  let rs := h.rangesOf els
  match (els.flatMap h.ranges).findSome? fun r => tensorWindow s h.spl r.1 r.2 with
  | some t => .bad t
  | none =>
    let plain := rs.filter fun r => windowOf r.1 r.2 == .plain
    noScratch s (checkAll (fun r => checkPlain s false .tensor n r.1 r.2 0) plain)

/-! ### Values -/

/-- Bytes that an engine item has read: virtual address, the byte, and its physical address. -/
abbrev ReadMap := List (Nat × ReadByte × Nat)

def ReadMap.byte (m : ReadMap) (va : Nat) : Nat :=
  match m.find? fun x => x.1 == va with
  | some x => x.2.1.val.toNat
  | none => 0

/-- Reads virtual bytes under captured pieces, as a part of an engine item that has read the writes `own` (R131); answers what
the item has then read. The local window was resolved when the pieces were made. -/
def readVasOwn (d : BitVec 2) (q : Path) (segs : List Seg) (own : List Nat) (vas : List Nat) (s : State) :
    ReadMap × List Nat × State :=
  let ps := vas.filterMap fun v => (segAt segs v).map fun p => (v, p)
  let (bs, seen, s) := readBytes d q own (ps.map (·.2)) s
  ((ps.zip bs).map fun x => (x.1.1, x.2, x.1.2), seen ++ own, s)

/-- The reads of an item that reads once. -/
def readVas (d : BitVec 2) (q : Path) (segs : List Seg) (vas : List Nat) (s : State) : ReadMap × State :=
  let (m, _, s) := readVasOwn d q segs [] vas s
  (m, s)

/-- The bytes of ranges, in order. -/
def rangeList (rs : List (Nat × Nat)) : List Nat := rs.flatMap fun r => (List.range r.2).map fun i => r.1 + i

/-- The bytes of ranges, each once. -/
def rangeBytes (rs : List (Nat × Nat)) : List Nat := (rangeList rs).eraseDups

/-- The stored bits of an element. -/
def Shape.bits (h : Shape) (m : ReadMap) (l : Nat) : Nat :=
  let a := h.addr l
  if h.ty.is4 then (m.byte a) / (if h.high l then 16 else 1) % 16
  else natOfBytes ((List.range (h.ty.bits / 8)).map fun i => BitVec.ofNat 8 (m.byte (a + i)))

/-- The exact value of an element, with the NV that a type-5 element may raise as it is read (R29). -/
def Shape.value (h : Shape) (m : ReadMap) (l : Nat) : Num × Bool :=
  match h.ty with
  | .e2m1k =>
    let sd := (h.side + 2 * (l / 32)) % 2 ^ 64
    e2m1kNum (m.byte sd) (m.byte (sd + 1)) (h.bits m l)
  | t => (tyNum t (h.bits m l), false)

/-- Whether a floating TOP may take the type (types 0 to 5). -/
def Shape.floating (h : Shape) : Bool := h.ty.isFloat

/-! ### Writing elements -/

/-- Bytes to write: virtual address and value; a later entry for an address replaces an earlier one (R67). -/
abbrev OutMap := List (Nat × Byte)

/-- Puts the bits of an element into an output map; the other nibble of a shared byte comes from the map or from what was
read, until the write is made. (DEDUCED: log 76) -/
def Shape.put (h : Shape) (m : ReadMap) (o : OutMap) (l bits : Nat) : OutMap :=
  let a := h.addr l
  if h.ty.is4 then
    let old := ((kfind o a).map (·.toNat)).getD (m.byte a)
    kset o a (BitVec.ofNat 8 (if h.high l then old % 16 + 16 * bits else old / 16 * 16 + bits % 16))
  else (bytesOfNat (h.ty.bits / 8) bits).zipIdx.foldl (fun o b => kset o (a + b.2) b.1) o

/-- Cuts bytes with their virtual addresses into runs that lie in one 2 KiB granule of memory each. (DEDUCED: log 63) -/
def cutBlocks : Nat → List (WByte × Nat) → List (List WByte × Nat)
  | 0, _ => []
  | _, [] => []
  | n + 1, x :: r =>
    let same := (x :: r).takeWhile fun y => y.1.pa / 2048 == x.1.pa / 2048
    (same.map (·.1), x.2) :: cutBlocks n ((x :: r).drop same.length)

/-- The writes that an output map makes; `bad` says which bytes carry poison marks. -/
def outWrites (segs : List Seg) (bad : Nat → Bool) (o : OutMap) : List (List WByte × Nat) :=
  let bs := o.filterMap fun b => (segAt segs b.1).map fun p => ((⟨p, b.2, bad b.1⟩ : WByte), b.1)
  cutBlocks bs.length bs

end Sys2Proof.Machine
end

