-- ==== Sys2Proof/Machine/Place.lean ====
section
/-! DEFINITION. Where a tensor operation runs: the least-bytes rule (R69 to R76), and the face units of a piece (R82). -/

namespace Sys2Proof.Machine

open Sys2Proof

/-- Where a range of an operand lies. -/
structure Spot where
  va   : Nat
  len  : Nat
  pa   : Option Nat
  home : Option Nat
  host : Bool
  key  : Bool
deriving DecidableEq, Repr

/-- The key-map entry of a device physical address (R320). -/
def keyEntry (pa : Nat) : Option Nat :=
  match regionOf pa with
  | .stack => some ((pa - Config.stackBase) / 2 ^ 21)
  | .pool _ => some (327680 + (pa - Config.poolBase) / 2 ^ 21)
  | _ => none

/-- Whether the page of an address is mapped with a key slot (R70, R320). -/
def keyed (s : State) (pa : Nat) : Bool :=
  match keyEntry pa with
  | some e => kget 0 s.xd0.keymap e ≠ 0
  | none => false

/-- Whether some claims cover a range, whatever their rights (R72). -/
def covered (cs : List Claim) (va len : Nat) : Bool :=
  decide (va + len ≤ claimReach cs ⟨false, false⟩ (cs.length + 1) va (va + len))

/-- The device physical address of a byte of the active task: by its die's cached translations, or by those that made its
claims resident (R72). -/
def residentAt (s : State) (va : Nat) : Option Nat :=
  match s.core.task with
  | none => some va
  | some t =>
    match tlbFind (s.die s.here).translations t.pasid va with
    | some e => some (e.pa + (va - e.va))
    | none => ((s.die t.home).active.launches.find? fun l => l.id == t.launch).bind fun l => segAt l.held va

/-- The spot of a range: the home of its first byte, and whether any page that it touches is keyed (R70). A
range that no claim covers, or that no translation reaches, lies nowhere (R72). (DEDUCED: log 133) -/
def spotOf (s : State) (va len : Nat) : Spot :=
  let nowhere : Spot := ⟨va, len, none, none, false, false⟩
  match windowOf va len with
  | .plain =>
    if !covered ((s.core.task.map (·.claims)).getD [⟨0, 2 ^ 64, true, true⟩]) va len then nowhere
    else
      match residentAt s va with
      | some pa =>
        let more := match residentAt s (va + len - 1) with
          | some p => keyed s p
          | none => false
        ⟨va, len, some pa, homeOf s.xd0.mode pa, regionOf pa == .host, keyed s pa || more⟩
      | none => nowhere
  | _ => nowhere

/-- An operand with the spots of its elements. -/
structure Operand where
  sh    : Shape
  elems : List (List Spot)
deriving DecidableEq, Repr

def Operand.at (o : Operand) (l : Nat) : List Spot := o.elems.getD l []
def Operand.home (o : Operand) (l : Nat) : Option Nat := ((o.at l).head?).bind (·.home)
def Operand.keyed (o : Operand) : Bool := o.elems.any fun e => e.any (·.key)

/-- The spot of an element's code bytes, its side-plane bytes aside: those reach a face unit by the input-vector store (R84). -/
def Operand.code (o : Operand) (l : Nat) : List Spot := (o.at l).take 1

/-- The spots of an operand's elements. -/
def operandOf (s : State) (h : Shape) : Operand :=
  ⟨h, (List.range h.count).map fun l => (h.ranges l).map fun r => spotOf s r.1 r.2⟩

/-! ### What each destination element reads (R240, R241) -/

/-- The source element that a destination element reads after broadcast. -/
def broadcast (d a : Shape) (l : Nat) : Nat :=
  linear a.ext (((d.index l).zip a.ext).map fun x => if x.2 = 1 then 0 else x.1)

/-- The elements of each source that destination element `l` reads, in source order. (DEDUCED: log 72) -/
def readsOf (k : TopKind) (d : Shape) (srcs : List Shape) (l : Nat) : List (List Nat) :=
  let i := d.index l
  let line (h : Shape) (r : Nat) : List Nat := (List.range (h.ext.headD 1)).map fun t => t + h.ext.headD 1 * r
  match k, srcs with
  | .gemv, [a, b] => [line a (i.getD 0 0), line b (i.getD 1 0)]
  | .gemm, [a, b] => [line a (i.getD 1 0), line b (i.getD 0 0)]
  | _, ss => ss.map fun a => [broadcast d a l]

def isMatrix : TopKind → Bool
  | .gemv | .gemm => true
  | _ => false

def isReduce : TopKind → Bool
  | .reduce _ => true
  | _ => false

/-- The elements of the landing tensor that hold the partial of an entry (R89). -/
def landingElems (k : TopKind) (e : Nat) : List Nat :=
  match k with
  | .reduce .sexp => [2 * e, 2 * e + 1]
  | _ => [e]

/-- The landing entry of a home: 260 for elements homed nowhere. -/
def entryOf (h : Nat) : Nat := if h < 260 then h else 260

/-- The number that stands for the central site and for elements homed nowhere (R79). -/
def nowhere : Nat := 0x1FF

/-! ### The rule -/

/-- The MAC count of R69. -/
def macs (k : TopKind) (d : Shape) (srcs : List Shape) : Nat :=
  match k, srcs with
  | .gemv, [a, b] | .gemm, [a, b] => a.count * b.ext.getD 1 1
  | .reduce _, a :: _ => a.count
  | _, _ => d.count

/-- The largest source: the most bytes, of equals the earliest (R72). -/
def largest (srcs : List Shape) : Nat :=
  (srcs.zipIdx.foldl (fun (b : Nat × Nat) x => if b.2 < x.1.bytes then (x.2, x.1.bytes) else b) (0, 0)).1

/-- What a piece touches: its source spots, its destination spots, the home that defines it, and the home of its first
destination element. -/
structure Draft where
  elems : List Nat
  home  : Nat
  src   : List Spot
  dest  : List Spot
  first : Option Nat
deriving DecidableEq, Repr

/-- moved(H) of R73: each distinct source range once, and the destination ranges. (DEDUCED: log 70) -/
def moved (x : Draft) (h : Nat) : Nat :=
  let off (l : List Spot) := ((l.filter fun r => r.home ≠ some h).map (·.len)).sum
  off x.src + off x.dest

/-- Home choice (R73), the stack homes removed where an operand is encrypted (R70). -/
def chooseHome (enc : Bool) (x : Draft) : Option Nat :=
  let cs := (((x.src ++ x.dest).filterMap (·.home)).filter fun h => !enc || 256 ≤ h).eraseDups
  let rank (h : Nat) : List Nat := [moved x h, if h = x.home then 0 else 1, if some h = x.first then 0 else 1, h]
  cs.foldl (fun (b : Option Nat) h =>
    match b with
    | none => some h
    | some g => if rank h < rank g then some h else b) none

/-- The landing entries of source elements (R89). (DEDUCED: log 74) -/
def entriesOf (o : Operand) (els : List Nat) : List Nat := (els.map fun l => entryOf ((o.home l).getD nowhere)).eraseDups

/-- The elements of each source operand that the elements of a piece read, each once. (DEDUCED: log 134) -/
def sourcesOf (k : TopKind) (d : Operand) (srcs : List Operand) (els : List Nat) : List (Operand × List Nat) :=
  if isReduce k then (srcs.take 1).map fun o => (o, els)
  else srcs.zipIdx.map fun x =>
    (x.1, (els.flatMap fun l => (readsOf k d.sh (srcs.map (·.sh)) l).getD x.2 []).eraseDups)

/-- The spots of a piece: its distinct source ranges, and its destination ranges. -/
def draftOf (k : TopKind) (d : Operand) (srcs : List Operand) (home : Nat) (els : List Nat) : Draft :=
  let src := (sourcesOf k d srcs els).flatMap fun x => x.2.flatMap x.1.at
  let dl := if isReduce k then (entriesOf (srcs.headD d) els).flatMap (landingElems k) else els
  ⟨els, home, src.eraseDups, (dl.flatMap d.at).eraseDups, (dl.head?).bind d.home⟩

/-- The homes of a source in the order of the lowest linear element index that each holds. (DEDUCED: log 71) -/
def homesOf (o : Operand) : List Nat :=
  ((List.range o.sh.count).map fun l => (o.home l).getD nowhere).eraseDups

/-- The pieces of R72, before their homes are chosen. (DEDUCED: log 71) -/
def drafts (k : TopKind) (d : Operand) (srcs : List Operand) : List Draft :=
  let li := largest (srcs.map (·.sh))
  let big := srcs.getD li d
  let shapes := srcs.map (·.sh)
  let key (l : Nat) : Nat :=
    if isReduce k then (big.home l).getD nowhere
    else ((((readsOf k d.sh shapes l).getD li []).head?).bind big.home).getD nowhere
  let n := if isReduce k then big.sh.count else d.sh.count
  let keys := (List.range n).map fun l => (l, key l)
  ((homesOf big).map fun h => draftOf k d srcs h ((keys.filter fun x => x.2 == h).map (·.1))).filter fun x => x.elems ≠ []

/-- Ranges in ascending address order. (DEDUCED: log 73) -/
def sortRanges (l : List Spot) : List Spot :=
  l.foldl (fun acc x =>
    let lo := acc.takeWhile fun y => decide (y.va < x.va) || (y.va == x.va && decide (y.len ≤ x.len))
    lo ++ x :: acc.drop lo.length) []

/-- Joins sorted spots of one home that follow each other. (DEDUCED: log 134) -/
def joinSpots : List Spot → List Spot
  | [] => []
  | x :: r =>
    match joinSpots r with
    | y :: t =>
      if x.home = y.home && x.va + x.len = y.va && (x.pa.map (· + x.len)) = y.pa then { x with len := x.len + y.len } :: t
      else x :: y :: t
    | [] => [x]

/-- The ranges of one operand that travel, or are read, as one (R75, R296). (DEDUCED: log 134) -/
def rangesAt (l : List Spot) : List Spot := joinSpots (sortRanges l.eraseDups)

/-- Whether a TOP runs whole at the central site (R71). (DEDUCED: log 75) -/
def isCentral (k : TopKind) (d : Operand) (srcs : List Operand) : Bool :=
  let shapes := srcs.map (·.sh)
  let big := srcs.getD (largest shapes) d
  decide (32 * ((shapes.map (·.bytes)).sum + d.sh.bytes) ≤ macs k d.sh shapes) ||
    (big.elems.any fun e => e.any (·.host)) || !d.sh.lay0

/-- The elements of a piece that a valid count leaves (R22). (DEDUCED: log 70) -/
def liveElems (k : TopKind) (d : Shape) (srcs : List Shape) (vc : Option Nat) (els : List Nat) : List Nat :=
  els.filter fun l => within vc (if isReduce k then ((srcs.head?).map fun a => a.row l).getD 0 else d.row l)

/-! ### Face units (R74, R82) -/

/-- The face unit of a stack address: 128 * die + 4 * channel + bank group. (DEDUCED: log 78) -/
def faceUnit (mode : BitVec 2) (pa : Nat) : Nat :=
  let p := stackPlace mode (pa - Config.stackBase)
  128 * p.die + 4 * p.chan + p.bg

/-- The units of a piece at a stack home: those that hold its elements of the largest source there, else those that hold
any of its elements there, else those of any of its bytes there. (DEDUCED: log 78) -/
def unitsOf (mode : BitVec 2) (home : Nat) (big codes all : List Spot) : List Nat :=
  let at_ (l : List Spot) := ((l.filter fun r => r.home == some home).filterMap (·.pa)).map (faceUnit mode) |>.eraseDups
  if home < 256 then (([at_ big, at_ codes].find? (· ≠ [])).getD (at_ all)) else []

/-! ### Placement -/

/-- The result of placing a TOP. -/
structure Plan where
  pieces : List Piece
  enc    : Bool
  hm     : Bool
  cen    : Bool
deriving DecidableEq, Repr

/-- The destination elements whose values a piece computes: into type 5 those of whole blocks. -/
def blockElems (k : TopKind) (d : Shape) (own : List Nat) : List Nat :=
  if d.ty == .e2m1k && !isReduce k then
    ((own.map (· / 32)).eraseDups).flatMap fun b => (List.range 32).map fun i => 32 * b + i
  else own

/-- Gives every piece the bytes that it ships and writes back: identical ranges bound for one site travel once (R75), and count
in MOVED of the lowest-numbered piece that needs them; the d of an EWFMA is no source of the count. (DEDUCED: log 70, 134) -/
def countShips (k : TopKind) (d : Operand) (srcs : List Operand) (vc : Option Nat) :
    List (Draft × Nat) → List (Nat × Nat × Nat) → List (Nat × Nat)
  | [], _ => []
  | (x, h) :: r, sent =>
    let els := liveElems k d.sh (srcs.map (·.sh)) vc x.elems
    let live := draftOf k d srcs x.home els
    let src := ((sourcesOf k d srcs (blockElems k d.sh els)).flatMap fun y => rangesAt (y.2.flatMap y.1.at)).eraseDups
    let new := (src.filter fun p => p.home ≠ some h).filter fun p => !sent.contains (h, p.va, p.len)
    let back := if live.elems = [] then 0 else ((live.dest.filter fun p => p.home ≠ some h).map (·.len)).sum
    ((new.map (·.len)).sum, back) :: countShips k d srcs vc r (sent ++ new.map fun p => (h, p.va, p.len))

/-- Place(top) (R76): a function of the kind, the records, the homes and the key slots. (DEDUCED: log 71, 75) -/
def placeTop (s : State) (k : TopKind) (d : Operand) (srcs : List Operand) (vc : Option Nat) : Plan :=
  let ops := d :: srcs
  let enc := ops.any (·.keyed)
  let hm := ops.any fun o => o.sh.enc != o.keyed
  let n := if isReduce k then (srcs.headD d).sh.count else d.sh.count
  let whole : List (Draft × Nat) := [(draftOf k d srcs nowhere (List.range n), nowhere)]
  let cut := (drafts k d srcs).map fun x => (x, if x.home = nowhere then some nowhere else chooseHome enc x)
  let placed : List (Draft × Nat) :=
    if isCentral k d srcs || (cut.any fun x => x.2.isNone) then whole else cut.map fun x => (x.1, x.2.getD nowhere)
  let big := srcs.getD (largest (srcs.map (·.sh))) d
  let li := largest (srcs.map (·.sh))
  let bigSpots (x : Draft) : List Spot :=
    if isReduce k then x.elems.flatMap big.code
    else x.elems.flatMap fun l => ((readsOf k d.sh (srcs.map (·.sh)) l).getD li []).flatMap big.code
  let codes (x : Draft) : List Spot :=
    ((sourcesOf k d srcs x.elems).flatMap fun y => y.2.flatMap y.1.code) ++
      (if isReduce k then x.dest else x.elems.flatMap d.code)
  let ships := countShips k d srcs vc placed []
  let pieces := (placed.zip ships).map fun x =>
    let h := x.1.2
    (⟨x.1.1.elems, h, x.1.1.home, if h < 256 then .face else if h < 260 then .pool else .central,
      unitsOf s.xd0.mode h (bigSpots x.1.1) (codes x.1.1) (x.1.1.src ++ x.1.1.dest), x.2.1, x.2.2, false, none, 0, 0, 0, false⟩ : Piece)
  ⟨pieces, enc, hm, pieces.all fun p => p.site == .central⟩

end Sys2Proof.Machine
end

