-- ==== Sys2Proof/Machine/Copy.lean ====
section
/-! DEFINITION. The copy engine: COPY, COPYM and RELAY (R235 to R238), and what a copy does when its engine starts it. -/

namespace Sys2Proof.Machine

open Sys2Proof

/-- The length of COPY (R235). (DEDUCED: log 64) -/
def CopyLen.bytes (l : CopyLen) (c : CoreState) : Nat :=
  match l with
  | .imm u => 16 * u.toNat
  | .reg r => ((c.rs r).extractLsb' 0 32).toNat

/-- The length of COPYM (R236). -/
def CopymLen.bytes (l : CopymLen) (c : CoreState) : Nat :=
  match l with
  | .imm u => 16 * u.toNat
  | .reg r => ((c.rs r).extractLsb' 0 32).toNat

/-- COPY in its two forms (R231). (DEDUCED: log 64) -/
def execCopy (d a : EAddr) (len : CopyLen) (g : GuardF) (s : State) : Res :=
  guarded g s fun s =>
    let n := CopyLen.bytes len s.core
    let da := d.access s.core
    let sa := a.access s.core
    withChecked s (checkEngine s .copy ⟨true, false⟩ sa.ea.toNat n) fun src =>
      withChecked s (checkEngine s .copy ⟨false, true⟩ da.ea.toNat n) fun dst =>
        submit s .copy (.copy dst src n (heldBy s dst)) (src ++ dst) none id fun s => sa.done (da.done s)

/-- The cores of the cluster that a multicast mask names. -/
def maskCores (core : Nat) (mask : BitVec 16) : List Nat :=
  ((List.range 16).filter fun k => mask.getLsbD k).map fun k => 16 * clusterOf core + k

/-- COPYM (R236): queues a copy into the scratchpads of the masked cores of the cluster. -/
def execCopym (d a : EAddr) (len : CopymLen) (m : BitVec 6) (g : GuardF) (s : State) : Res :=
  guarded g s fun s =>
    let n := CopymLen.bytes len s.core
    let da := d.access s.core
    let sa := a.access s.core
    let mask := (s.core.rs m).extractLsb' 0 16
    match windowOf da.ea.toNat n with
    | .loc off =>
      if isController s.coreId then trap s (accessTrap s da.ea.toNat)
      else
        withChecked s (checkEngine s .copy ⟨true, false⟩ sa.ea.toNat n) fun src =>
          let held := heldBy s ((maskCores s.coreId mask).map fun k => ⟨0, spAddr k off, 1⟩)
          submit s .copy (.copym src off n mask held) src none id fun s => sa.done (da.done s)
    | _ => trap s (accessTrap s da.ea.toNat)

/-! ### RELAY (R238) -/

/-- Exchanges the first two of a list. (DESIGN CHOICE: log 68) -/
def swap01 {α : Type} (t : Bool) (l : List α) : List α :=
  match t, l with
  | true, a :: b :: r => b :: a :: r
  | _, l => l

/-- The source element of a destination element, or none for padding. -/
def relaySource (d a : Shape) (t : Bool) (l : Nat) : Option Nat :=
  let i := swap01 t (d.index l)
  if (i.zip a.ext).all fun x => x.1 < x.2 then some (linear a.ext i) else none

/-- The conditions of R238 on the two shapes and the new lay. -/
def relayOk (d a : Shape) (lay : Nat) (t : Bool) : Bool :=
  let n : Shape := { d with lay := lay }
  a.ty == d.ty && (!t || 2 ≤ a.rank) && lay ≤ 4 && ((lay == 4) == (d.ty == .e2m1k)) && !(t && d.ty == .e2m1k) &&
    ((swap01 t a.ext).zip d.ext).all (fun x => x.1 ≤ x.2) && n.layOk && (lay ≠ 0 || n.lay0)

/-- RELAY (R238): queues a re-tiling of one tensor into another layout. -/
def execRelay (t : Bool) (d a : BitVec 8) (lay : BitVec 4) (vc : BitVec 6) (g : GuardF) (s : State) : Res :=
  guarded g s fun s =>
    let v : Option Nat := if vc = 0 then none else some (s.core.rs vc).toNat
    captureHandles [d, a] s fun raw s =>
      withShapes s raw fun shs =>
        match shs, raw with
        | [dh, ah], r :: _ =>
          if !relayOk dh ah lay.toNat t then trap s (shapeTrap s r.va)
          else
            let n : Shape := { dh with lay := lay.toNat }
            let els := (List.range n.count).filter fun l => within v (n.row l)
            let src := els.filterMap (relaySource n ah t)
            withChecked s (checkEngines s .copy ⟨false, true⟩ [(r.va + 10, 1)]) fun rp =>
              withChecked s (checkEngines s .copy ⟨true, false⟩ (ah.rangesOf src)) fun sp =>
                withChecked s (checkEngines s .copy ⟨false, true⟩ (n.rangesOf els)) fun dp =>
                  submit s .copy
                    (.relay { n with segs := dp } { ah with segs := sp } lay.toNat t v rp (heldBy s dp))
                    (rp ++ sp ++ dp) none id id
        | _, _ => trap s (shapeTrap s 0)

/-! ### Carrying copies out -/

/-- The 2 KiB source blocks that read uncorrectable, each with its first failing byte (R237). (DEDUCED: log 65) -/
def badBlocks : List (Nat × ReadByte) → List (Nat × Nat)
  | [] => []
  | (pa, b) :: r =>
    let rest := badBlocks r
    if b.poison then (pa / 2048, pa) :: rest.filter fun x => x.1 != pa / 2048 else rest

/-- Logs every uncorrectable source block (cause 0x22). -/
def logBad (s : State) (c : Cmd) (bad : List (Nat × Nat)) : State :=
  bad.foldl (fun s b => logCmd s c { TrapInfo.mk0 0x22 2 0 0 with pa := BitVec.ofNat 64 b.2 }) s

/-- Numbers the blocks of a copy. (DEDUCED: log 66) -/
def numbered (held : List (Nat × Option Nat)) (core : Nat) (bs : List (List WByte × Nat)) : List EngWrite :=
  bs.zipIdx.map fun b => ⟨b.1.1, true, b.2, b.1.2, guardOf held core ((b.1.1.head?.map (·.pa)).getD 0)⟩

/-- Reads the source of a COPY or COPYM: every byte, with the mark of its block. A controller's copy reads control space as its
loads do (R360). (DEDUCED: log 63) -/
def copyRead (s : State) (c : Cmd) (src : List Seg) : List (Byte × Bool) × State :=
  let pas := segAddrs src
  let (bs, _, s) := readBytes c.die .copy [] pas s
  let own (pa : Nat) : Option Byte := if isController c.core && reaches s c.die pa then controllerByte s pa else none
  let bs := (pas.zip bs).map fun x => match own x.1 with
    | some v => ⟨v, false, 0, false⟩
    | none => x.2
  let bad := badBlocks (pas.zip bs)
  ((pas.zip bs).map fun x => (x.2.val, bad.any fun b => b.1 == x.1 / 2048), logBad s c bad)

/-- The bytes that a RELAY writes, with the free values that it takes. A block of type 5 of which one row at least lies within a
valid count has its side-plane bytes written, and all its elements count for where they come from. (DESIGN CHOICE: log 68)
(DEDUCED: log 69) -/
def relayOut (d a : Shape) (t : Bool) (els : List Nat) (m : ReadMap) (s : State) : OutMap × State :=
  let codes := els.foldl (fun o l => d.put m o l (match relaySource d a t l with
    | some x => a.bits m x
    | none => 0)) []
  if d.ty != .e2m1k then (codes, s)
  else
    (els.map (· / 32)).eraseDups.foldl (fun (p : OutMap × State) b =>
      let from_ := ((List.range 32).filterMap fun i => if 32 * b + i < d.count then relaySource d a t (32 * b + i) else none)
      let (v, s) := match (from_.map (· / 32)).eraseDups with
        | [] => (0, p.2)
        | [x] => (m.byte (a.side + 2 * x) + 256 * m.byte (a.side + 2 * x + 1), p.2)
        | _ => ((Config.freeSide p.2.choice).toNat, { p.2 with choice := p.2.choice + 1 })
      ((bytesOfNat 2 v).zipIdx.foldl (fun o y => kset o (d.side + 2 * b + y.2) y.1) p.1, s)) (codes, s)

/-- The destination bytes that come from an uncorrectable source block. -/
def relayBad (d a : Shape) (t : Bool) (els : List Nat) (m : ReadMap) (bad : List (Nat × Nat)) : List Nat :=
  let hit (va : Nat) : Bool := m.any fun x => x.1 == va && bad.any fun b => b.1 == x.2.2 / 2048
  els.flatMap fun l =>
    match relaySource d a t l with
    | some x => if (rangeBytes (a.ranges x)).any hit then rangeBytes (d.ranges l) else []
    | none => []

/-- A copy starts: it reads its whole source, at one moment, and its writes become pending. A RELAY of no row writes nothing
(R22). (DESIGN CHOICE: log 153) -/
def startCopy (s : State) (c : Cmd) : State :=
  match c.body with
  | .copy dst src _ held =>
    let (bs, s) := copyRead s c src
    let ws := ((segBytes dst).zip bs).map fun x => ((⟨x.1.2, x.2.1, x.2.2⟩ : WByte), x.1.1)
    setCmd s { c with started := true, readDone := true, out := numbered held c.core (cutBlocks ws.length ws) }
  | .copym src off _ mask held =>
    let (bs, s) := copyRead s c src
    let blocks := (maskCores c.core mask).flatMap fun k =>
      let ws := bs.zipIdx.map fun x => ((⟨spAddr k (off + x.2), x.1.1, x.1.2⟩ : WByte), Config.localBase + off + x.2)
      cutBlocks ws.length ws
    setCmd s { c with started := true, readDone := true, out := numbered held c.core blocks }
  | .relay d a lay t vc rp held =>
    let els := (List.range d.count).filter fun l => within vc (d.row l)
    let src := els.filterMap (relaySource d a t)
    let (m, s) := readVas c.die .copy a.segs (rangeBytes (a.rangesOf src)) s
    let bad := badBlocks (m.map fun x => (x.2.2, x.2.1))
    let s := logBad s c bad
    let (o, s) := relayOut d a t els m s
    let marks := relayBad d a t els m bad
    let ws := numbered held c.core (outWrites d.segs (fun v => marks.contains v) o)
    let last : List EngWrite := if els = [] then [] else rp.map fun g =>
      ⟨[⟨g.pa, BitVec.ofNat 8 lay, false⟩], true, ws.length, g.va, guardOf held c.core g.pa⟩
    setCmd s { c with started := true, readDone := true, out := ws ++ last }
  | _ => s

/-- Copies of one core start in issue order (R237). -/
def copyMayStart (s : State) (c : Cmd) : Bool := (earlier s c).all fun x => x.path != .copy || x.started

/-- Of two copies of one core, the later one's value of a byte remains; RELAY's last write follows its data (R237, R238). -/
def copyMayWrite (s : State) (c : Cmd) (i : Nat) (w : EngWrite) : Bool :=
  let last := match c.body with
    | .relay _ _ _ _ _ _ _ => decide (i + 1 < c.out.length) || c.out.length == 1
    | _ => true
  last && (earlier s c).all fun x => x.path != .copy ||
    !(x.out.any fun y => y.bytes.any fun b => w.bytes.any fun e => e.pa == b.pa)

end Sys2Proof.Machine
end

