-- ==== Sys2Proof/Machine/Top.lean ====
section
/-! DEFINITION. The TOP family and PLACEQ: issue (R229, R239 to R244), pieces (R77 to R86), the hoist tree (R87 to R89) and
retirement (R78 to R81). -/

namespace Sys2Proof.Machine

open Sys2Proof

/-! ### Shapes (R88, R89, R239 to R242) -/

/-- A lay that a kind accepts; operands of type 5 are lay 4 (R239). -/
def layIn (h : Shape) (lays : List Nat) : Bool := if h.ty == .e2m1k then h.lay == 4 else lays.contains h.lay

def elementwiseOk (k : TopKind) (d : Shape) (srcs : List Shape) : Bool :=
  let cvt := match k with
    | .ewcvt ovn => some ovn
    | _ => none
  (match cvt with
    | some ovn => !ovn || d.ty == .e4m3
    | none => srcs.all fun a => a.floating == d.floating) &&
  (d :: srcs).all (fun h => layIn h [0, 1]) &&
  srcs.all (fun a => a.rank ≤ d.rank && (a.ext.zip d.ext).all fun x => x.1 == x.2 || x.1 == 1) &&
  (d.ty != .e2m1k || d.ext.headD 0 % 32 == 0)

def matrixOk (gemm : Bool) (d a b : Shape) : Bool :=
  let e (h : Shape) k := h.ext.getD k 1
  let small (h : Shape) : Bool := h.ty == .i8 || h.ty == .n8 || h.ty == .i4 || h.ty == .n4
  d.rank == 2 && a.rank == 2 && b.rank == 2 && layIn a [0, 1, 2] && layIn b [0, 1, 2] && layIn d [0, 1] &&
  (if a.floating then b.floating && d.ty.isF else small a && small b && d.ty == .i32) &&
  e a 0 == e b 0 && (if gemm then e d 0 == e b 1 && e d 1 == e a 1 else e d 0 == e a 1 && e d 1 == e b 1)

def reduceOk (op : RedOp) (d a : Shape) : Bool :=
  layIn a [0, 1] && d.lay == 0 &&
  (match op with
    | .sexp => a.floating && d.ty == .f32 && d.rank == 2 && d.ext == [2, 261, 1, 1, 1]
    | _ => d.ty == (if a.floating then .f32 else .i32) && d.rank == 1 && d.ext == [261, 1, 1, 1, 1])

def topOk (k : TopKind) (d : Shape) (srcs : List Shape) : Bool :=
  match k, srcs with
  | .gemv, [a, b] => matrixOk false d a b
  | .gemm, [a, b] => matrixOk true d a b
  | .reduce op, [a] => reduceOk op d a
  | k, ss => elementwiseOk k d ss

/-! ### Splice destinations (R122) -/

/-- The element size of an arrival format (R119). -/
def afmtTy (f : Nat) : Ty :=
  match f with
  | 0 => .bf16
  | 1 => .f32
  | _ => .e4m3

/-- The socket of virtual die `v` of the active task's context. -/
def State.socket (s : State) (v : Nat) : Option (BitVec 2) := boundDie s.context (BitVec.ofNat 64 v)

/-- The context that a splice window names: die and number. -/
def spliceAt (s : State) (v c : Nat) : Option SplCtx :=
  match s.socket v with
  | some d => kfind (s.die d).splices c
  | none => none

/-- Whether a destination row is an arrival at an open context of the issuing PASID, one element of the record's size beside the
other (R122). (DEDUCED: log 149) -/
def rowArrives (s : State) (d : Shape) (row : Nat) : Bool :=
  let va := d.addr (row * d.ext.headD 1)
  let n := d.ext.headD 1 * (d.ty.bits / 8)
  match windowOf va n with
  | .splice v c off =>
    match spliceAt s v c with
    | some x => x.owner == (s.core.task.map (·.pasid)).getD 0 && x.d == d.ext.headD 1 && afmtTy x.afmt == d.ty &&
        decide (off + n ≤ 2 ^ 36) && off % 2 ^ 28 % n == 0 && d.stride.headD 0 * 8 == d.ty.bits
    | none => false
  | _ => false

/-! ### Issue -/

/-- The operands of a TOP as its instruction names them. -/
structure TopCmd where
  kind   : TopKind
  d      : BitVec 8
  srcs   : List (BitVec 8)
  vc     : Option Nat
  /-- status area address; 0 for none -/
  status : Nat
  plan   : Bool
deriving DecidableEq, Repr

/-- The pair operand of R230. -/
def pairOf (c : CoreState) (p : BitVec 6) : Option Nat × Nat :=
  if p = 0 then (none, 0) else (some (c.rs p).toNat, (c.rs (p + 1)).toNat)

/-- The status word and piece entries (R78, R79). -/
def statusBytes (ps : List Piece) (hm enc cen : Bool) (kind : Nat) : List Byte :=
  let failed := (ps.filter fun p => (p.out.getD 0) ≠ 0).length
  let word := ps.length * 2 ^ 48 + failed * 2 ^ 32 + (if hm then 16 else 0) + (if enc then 8 else 0) +
    (if cen then 4 else 0) + kind
  let entry (p : Piece) : Nat :=
    let o := (p.out.getD 0).toNat
    let site := match p.site with
      | .face => 0
      | .pool => 1
      | .central => 2
    (p.shipped + if o = 0 then p.back else 0) % 2 ^ 32 * 2 ^ 32 + site * 2 ^ 26 + o * 2 ^ 24 + p.home
  bytesOfNat 8 word ++ ps.flatMap fun p => bytesOfNat 8 (entry p)

/-- The destination elements that a TOP writes within a valid count. -/
def destElems (k : TopKind) (d : Shape) (srcs : List Shape) (vc : Option Nat) (srcOp : Operand) : List Nat :=
  if isReduce k then (entriesOf srcOp (liveElems k d srcs vc (List.range (srcOp.sh.count)))).flatMap (landingElems k)
  else liveElems k d srcs vc (List.range d.count)

/-- The source elements that the rows within the count read (R22). -/
def srcElems (k : TopKind) (d : Shape) (srcs : List Shape) (vc : Option Nat) (i : Nat) : List Nat :=
  if isReduce k then liveElems k d srcs vc (List.range ((srcs.headD d).count))
  else ((liveElems k d srcs vc (List.range d.count)).flatMap fun l => (readsOf k d srcs l).getD i []).eraseDups

/-- The right that a TOP needs on its destination: EWFMA reads it too (R240). -/
def destNeed (k : TopKind) : Need :=
  match k with
  | .ewfma => ⟨true, true⟩
  | _ => ⟨false, true⟩

/-- Checks the source operands of a TOP in order. -/
def withSources (s : State) (k : TopKind) (d : Shape) (srcs : List Shape) (vc : Option Nat) :
    Nat → List Shape → (List Shape → Res) → Res
  | _, [], f => f []
  | i, a :: r, f =>
    withChecked s (checkTensor s ⟨true, false⟩ { a with spl := false } (srcElems k d srcs vc i)) fun segs =>
      withSources s k d srcs vc (i + 1) r fun xs => f ({ a with segs := segs } :: xs)

/-- A TOP or PLACEQ at its bundle (R229, R81): format, records, ranges, placement, status area, queue. The rows that a valid
count skips are not translated (R22); they take their homes from the resident translations (R72). (DEDUCED: log 62) -/
def issueTop (x : TopCmd) (s : State) : Res :=
  let k := x.kind
  if 5 ≤ s.core.rnd.toNat then formatFault s
  else
    captureHandles (x.d :: x.srcs) s fun raw s => withShapes s raw fun shs =>
      match shs with
      | [] => trap s (shapeTrap s 0)
      | d :: srcs =>
        let recVa := (raw.head?.map (·.va)).getD 0
        let rows := (List.range d.rows).filter (within (if isReduce k then none else x.vc))
        if !topOk k d srcs || (d.spl && !(rows.all (rowArrives s d))) then trap s (shapeTrap s recVa)
        else if x.status % 8 ≠ 0 then trap s (shapeTrap s x.status)
        else
          withSources s k d srcs x.vc 0 srcs fun srcs' =>
            let ops := srcs.map (operandOf s)
            let dOp := operandOf s d
            withChecked s (checkTensor s (destNeed k) d (destElems k d srcs x.vc (ops.headD dOp))) fun dseg =>
              let pl := placeTop s k dOp ops x.vc
              let area := if x.status = 0 then 0 else 8 + 8 * pl.pieces.length
              withChecked s (checkEngine s .tensor ⟨false, true⟩ x.status area) fun sseg =>
                let all := dseg ++ srcs'.flatMap (·.segs) ++ sseg
                if x.plan then
                  submit s .tensor (.placeq sseg (statusBytes pl.pieces pl.hm pl.enc pl.cen 2)) all none id id
                else
                  submit s .tensor
                    (.top k { d with segs := dseg } srcs' x.vc (if x.status = 0 then none else some sseg) s.core.rnd
                      s.core.sat pl.hm pl.enc pl.cen)
                    all none
                    (fun c => { c with
                      pieces := pl.pieces
                      reads := x.srcs ++ (match k with | .ewfma => [x.d] | _ => [])
                      writes := some x.d })
                    id

/-- A TOP with three handles and a pair. -/
def top3 (k : TopKind) (o : Top3) (s : State) : Res :=
  guarded o.g s fun s =>
    let (vc, st) := pairOf s.core o.p
    issueTop ⟨k, o.d, [o.a, o.b], vc, st, false⟩ s

/-- EWADD (R240): queues an elementwise addition TOP. -/
def execEwadd (o : Top3) (s : State) : Res := top3 .ewadd o s
/-- EWMUL (R240): queues an elementwise multiplication TOP. -/
def execEwmul (o : Top3) (s : State) : Res := top3 .ewmul o s
/-- EWFMA (R240): queues an elementwise fused multiply-add TOP. -/
def execEwfma (o : Top3) (s : State) : Res := top3 .ewfma o s
/-- EWMAX (R240): queues an elementwise maximum TOP. -/
def execEwmax (o : Top3) (s : State) : Res := top3 .ewmax o s
/-- GEMV (R241): queues a matrix-vector TOP. -/
def execGemv (o : Top3) (s : State) : Res := top3 .gemv o s
/-- GEMM (R241): queues a matrix-matrix TOP. -/
def execGemm (o : Top3) (s : State) : Res := top3 .gemm o s

/-- EWCVT (R240): queues an elementwise conversion TOP. -/
def execEwcvt (ovn : Bool) (d a : BitVec 8) (p : BitVec 6) (g : GuardF) (s : State) : Res :=
  guarded g s fun s =>
    let (vc, st) := pairOf s.core p
    issueTop ⟨.ewcvt ovn, d, [a], vc, st, false⟩ s

/-- REDUCE (R242): queues a reduction TOP into a landing tensor. -/
def execReduce (op : RedOp) (d a : BitVec 8) (p : BitVec 6) (g : GuardF) (s : State) : Res :=
  guarded g s fun s =>
    let (vc, st) := pairOf s.core p
    issueTop ⟨.reduce op, d, [a], vc, st, false⟩ s

/-- The TOP that an instruction is, its valid count and status area aside. -/
def topOf (i : Instr) (status : Nat) : Option TopCmd :=
  match i with
  | .ewadd o => some ⟨.ewadd, o.d, [o.a, o.b], none, status, true⟩
  | .ewmul o => some ⟨.ewmul, o.d, [o.a, o.b], none, status, true⟩
  | .ewfma o => some ⟨.ewfma, o.d, [o.a, o.b], none, status, true⟩
  | .ewmax o => some ⟨.ewmax, o.d, [o.a, o.b], none, status, true⟩
  | .gemv o => some ⟨.gemv, o.d, [o.a, o.b], none, status, true⟩
  | .gemm o => some ⟨.gemm, o.d, [o.a, o.b], none, status, true⟩
  | .ewcvt ovn d a _ _ => some ⟨.ewcvt ovn, d, [a], none, status, true⟩
  | .reduce op d a _ _ => some ⟨.reduce op, d, [a], none, status, true⟩
  | _ => none

/-- The TOP that a PLACEQ word describes (R244): its guard and E2 are ignored. -/
def placeqTop (x : Word) (status : Nat) : Option TopCmd :=
  if x.extractLsb' 40 24 ≠ 0 then none
  else
    match decodeSlot 1 (x.extractLsb' 10 22 ++ 0#10) (some (x.extractLsb' 32 8)) with
    | .ok i => topOf i status
    | .error _ => none

/-- PLACEQ: where a TOP would run and what it would ship (R73). (DEDUCED: log 70) -/
def execPlaceq (w a : BitVec 6) (g : GuardF) (s : State) : Res :=
  guarded g s fun s =>
    let st := (s.core.rs a).toNat
    match placeqTop (s.core.rs w) st with
    | none => trap s (endTrap s 0x03 (s.core.rs w))
    | some x => if st = 0 then trap s (shapeTrap s 0) else issueTop x s

/-! ### The arithmetic of a piece -/

/-- The exact result of a floating elementwise kind, and whether it raises NV. -/
def ewExact (k : TopKind) (rd : Bool) (xs : List Num) (old : Num) : Num × Bool :=
  match k, xs with
  | .ewadd, [a, b] => Num.addX rd a b
  | .ewmul, [a, b] => Num.mulX a b
  | .ewfma, [a, b] =>
    let (p, n1) := Num.mulX a b
    let (r, n2) := Num.addX rd p old
    (r, n1 || n2)
  | .ewmax, [a, b] => (a.maxX b, false)
  | _, xs => (xs.headD .nan, false)

/-- The exact result of an integer elementwise kind. -/
def ewInt (k : TopKind) (xs : List Int) (old : Int) : Int :=
  match k, xs with
  | .ewadd, [a, b] => a + b
  | .ewmul, [a, b] => a * b
  | .ewfma, [a, b] => a * b + old
  | .ewmax, [a, b] => max a b
  | _, xs => xs.headD 0

/-- Element values that destination element `l` reads, with their NV. -/
def valuesAt (k : TopKind) (d : Shape) (srcs : List Shape) (m : ReadMap) (l : Nat) : List (List (Num × Bool)) :=
  ((readsOf k d srcs l).zip srcs).map fun x => x.1.map (x.2.value m)

/-- The exact value of a floating elementwise destination element; `dm` holds the destination's own bytes. -/
def ewValue (k : TopKind) (rd : Bool) (d : Shape) (srcs : List Shape) (m dm : ReadMap) (l : Nat) : Num × Bool :=
  let vs := (valuesAt k d srcs m l).map fun x => x.headD (.nan, false)
  let old := match k with
    | .ewfma => d.value dm l
    | _ => (Num.zero, false)
  let (x, nv) := ewExact k rd (vs.map (·.1)) old.1
  (x, nv || old.2 || vs.any (·.2))

/-- A block of 32 results into type 5 (R31, R240): codes of the piece's own elements, scale and knot. (DEDUCED: log 76) -/
def putBlock5 (d : Shape) (b : Nat) (own : List Nat) (x : Block) (m : ReadMap) (o : OutMap) : OutMap :=
  let o := (own.filter fun l => l / 32 == b).foldl (fun o l => d.put m o l (x.codes.getD (l % 32) 0)) o
  let sd := (d.side + 2 * b) % 2 ^ 64
  kset (kset o sd (BitVec.ofNat 8 x.scale)) (sd + 1) (BitVec.ofNat 8 x.knot)

/-- Elementwise results (R240). Integer results of the arithmetic kinds raise no flag; EWCVT converts, with the flags of R37. A
reserved element code read on the way into type 5 is a NaN of R37, so that its block has scale 0xFF. `dm` holds the destination's
own bytes. (DEDUCED: log 32, 76, 150) -/
def ewOut (k : TopKind) (d : Shape) (srcs : List Shape) (m dm : ReadMap) (own : List Nat) (env : Env) : OutMap × Flags :=
  let rd := env.rnd == 2
  let cvt := match k with
    | .ewcvt ovn => some ovn
    | _ => none
  if d.ty == .e2m1k then
    (own.map (· / 32)).eraseDups.foldl (fun (p : OutMap × Flags) b =>
      let xs := (List.range 32).map fun i => ewValue k rd d srcs m dm (32 * b + i)
      let (x, e) := packBlock (xs.map (·.1)) { env with fl := if xs.any (·.2) then Flags.nv else 0 }
      (putBlock5 d b own x dm p.1, p.2 ||| e.fl)) ([], 0)
  else if d.ty.isInt && cvt.isNone then
    (own.foldl (fun o l =>
      let is := ((readsOf k d srcs l).zip srcs).map fun x => tyToInt x.2.ty (x.2.bits m (x.1.headD 0))
      let v := ewInt k is (tyToInt d.ty (d.bits dm l))
      let v := if env.sat then clampInt (tyLeast d.ty) (tyGreatest d.ty) v else v
      d.put dm o l (intBits d.ty.bits v)) [], 0)
  else
    own.foldl (fun (p : OutMap × Flags) l =>
      let (x, nv) := ewValue k rd d srcs m dm l
      let (b, e) := tyRound d.ty (cvt.getD false) x { env with fl := if nv then Flags.nv else 0 }
      (d.put dm p.1 l b, p.2 ||| e.fl)) ([], 0)

/-- Runs of at most 32 terms. (DEDUCED: log 33) -/
def runsOf {α : Type} : Nat → List α → List (List α)
  | 0, _ => []
  | _, [] => []
  | n + 1, l => l.take 32 :: runsOf n (l.drop 32)

/-- Matrix results (R39, R241). (DEDUCED: log 33) -/
def matrixOut (k : TopKind) (d : Shape) (srcs : List Shape) (m dm : ReadMap) (own : List Nat) (env : Env) : OutMap × Flags :=
  own.foldl (fun (p : OutMap × Flags) l =>
    match valuesAt k d srcs m l with
    | [as, bs] =>
      let terms := (as.zip bs).map fun x => (x.1.1, x.2.1)
      let nv : Flags := if (as ++ bs).any (·.2) then Flags.nv else 0
      let runs := runsOf terms.length terms
      if d.ty.isInt then
        let (v, f) := runs.foldl (fun (a : BitVec 32 × Flags) r =>
          let (v, f) := beatInt false env.sat a.1 0 r
          (v, a.2 ||| f)) (0, 0)
        (d.put dm p.1 l v.toNat, p.2 ||| f)
      else
        let (v, f) := runs.foldl (fun (a : BitVec 32 × Flags) r =>
          let (v, f) := beatFloat false env.sat a.1 r
          (v, a.2 ||| f)) (0, 0)
        let (b, e) := tyRound d.ty false (f32Num v) { env with fl := f ||| nv }
        (d.put dm p.1 l b, p.2 ||| e.fl)
    | _ => p) ([], 0)

/-! ### The hoist tree (R87, R88) -/

/-- a ⊕ b where either may be missing. (DEDUCED: log 74) -/
def hoist {α : Type} (f : α → α → α × Flags) (a b : Option α × Flags) : Option α × Flags :=
  match a.1, b.1 with
  | some x, some y => let (z, e) := f x y; (some z, a.2 ||| b.2 ||| e)
  | some x, none => (some x, a.2 ||| b.2)
  | none, y => (y, a.2 ||| b.2)

/-- A left fold in the order of the list. (DEDUCED: log 74) -/
def hoistAll {α : Type} (f : α → α → α × Flags) (l : List (Option α × Flags)) : Option α × Flags :=
  l.foldl (hoist f) (none, 0)

/-- The partial of one home: its leaves with the physical addresses of their elements, in element order. Elements homed nowhere
are folded in ascending index. (DEDUCED: log 74) -/
def hoistHome {α : Type} (f : α → α → α × Flags) (mode : BitVec 2) (entry : Nat) (leaves : List (Nat × α)) :
    Option α × Flags :=
  let fold (sel : Nat → Bool) := hoistAll f ((leaves.filter fun x => sel x.1).map fun x => (some x.2, 0))
  if entry < 256 then
    let bg (die b : Nat) := fold fun pa =>
      let p := stackPlace mode (pa - Config.stackBase)
      p.die == die && p.bg == b
    hoistAll f ((List.range 20).map fun die => hoist f (hoist f (bg die 0) (bg die 1)) (hoist f (bg die 2) (bg die 3)))
  else if entry < 260 then hoistAll f ((List.range 16).map fun u => fold fun pa => poolUnit pa == u)
  else fold fun _ => true

/-- The sexp operator of R88. -/
def sexpOp (sat : Bool) (a b : Num × Num) : (Num × Num) × Flags :=
  let m := a.1.maxX b.1
  if m.isNan then ((.nan, .nan), 0)
  else
    let diff (x : Num) : Num × Flags := if x.eqX m then (Num.zero, 0) else addF32 sat x m.neg
    let (da, f1) := diff a.1
    let (db, f2) := diff b.1
    let (ea, f3) := e2x sat da
    let (eb, f4) := e2x sat db
    let (p, f5) := mulF32 sat a.2 ea
    let (r, f6) := fmaF32 sat b.2 eb p
    ((m, r), ((f1 ||| f2 ||| f5 ||| f6) &&& (Flags.nv ||| Flags.ovf ||| Flags.nx)) ||| f3 ||| f4)

/-- The results of a REDUCE piece: a partial for each landing entry of its elements, the entries in ascending order (R67). An
E2M1K element beyond FP32's range stays exact as a leaf: the first operator, or the landing write, rounds it. (DEDUCED: log 74) -/
def reduceOut (sat : Bool) (op : RedOp) (d a : Shape) (m : ReadMap) (mode : BitVec 2) (own : List Nat) (home : Nat → Option Nat) :
    OutMap × Flags :=
  let pa (l : Nat) : Nat := ((m.find? fun x => x.1 == a.addr l).map (·.2.2)).getD 0
  let put (o : OutMap) (l : Nat) (b : BitVec 32) : OutMap := d.put m o l b.toNat
  ((own.map fun l => entryOf ((home l).getD nowhere)).foldl sinsert []).foldl (fun (p : OutMap × Flags) e =>
    let els := own.filter fun l => entryOf ((home l).getD nowhere) == e
    let nv : Flags := if els.any fun l => (a.value m l).2 then Flags.nv else 0
    match op with
    | .sexp =>
      match hoistHome (sexpOp sat) mode e (els.map fun l => (pa l, ((a.value m l).1, Num.ofInt 1))) with
      | (some x, f) => (put (put p.1 (2 * e) (f32Bits x.1)) (2 * e + 1) (f32Bits x.2), p.2 ||| f ||| nv)
      | (none, _) => p
    | op =>
      if a.floating then
        let f := match op with
          | .sum => fun x y => let (z, e) := addF32 sat x y; (z, e &&& (Flags.nv ||| Flags.ovf ||| Flags.nx))
          | _ => fun x y => (Num.maxX x y, (0 : Flags))
        match hoistHome f mode e (els.map fun l => (pa l, (a.value m l).1)) with
        | (some x, f) => (put p.1 e (f32Bits x), p.2 ||| f ||| nv)
        | (none, _) => p
      else
        let f := match op with
          | .sum => fun (x y : Int) => (x + y, (0 : Flags))
          | _ => fun (x y : Int) => (max x y, (0 : Flags))
        match hoistHome f mode e (els.map fun l => (pa l, tyToInt a.ty (a.bits m l))) with
        | (some x, _) => (put p.1 e (BitVec.ofInt 32 x), p.2)
        | (none, _) => p) ([], 0)

/-! ### Running a piece -/

/-- The spots of a captured operand: its translation is that of its issue. -/
def capturedSpots (mode : BitVec 2) (h : Shape) (l : Nat) : List Spot :=
  (h.ranges l).map fun r =>
    let pa := segAt h.segs r.1
    ⟨r.1, r.2, pa, pa.bind (homeOf mode), false, false⟩

/-- An injection of EINJ consumed (R295). (DEDUCED: log 73) -/
def useEinj (x : Word) : Word :=
  let n := x.extractLsb' 24 8 - 1
  (x &&& ~~~0xFF000001#64) ||| (n.setWidth 64 <<< 24) ||| (if n = 0 then 0 else 1)

/-- Whether EINJ is armed for a home, and its kind. (DEDUCED: log 73) -/
def einjKind (x : Word) (home : Nat) : Option Nat :=
  if x.getLsbD 0 && (x.extractLsb' 24 8) ≠ 0 && home < 260 && (x.extractLsb' 8 9).toNat == home then
    some (x.extractLsb' 1 2).toNat
  else none

/-- The elements of each source that a piece reads within the valid count. (DEDUCED: log 72) -/
def pieceReads (k : TopKind) (d : Shape) (srcs : List Shape) (own : List Nat) : List (Shape × List Nat) :=
  let els := blockElems k d own
  if isReduce k then srcs.map fun a => (a, own)
  else srcs.zipIdx.map fun x => (x.1, (els.flatMap fun l => (readsOf k d srcs l).getD x.2 []).eraseDups)

/-- The source ranges of the elements `els`, within the valid count, each as it travels or is read (R75). (DEDUCED: log 134) -/
def pieceSpots (mode : BitVec 2) (k : TopKind) (d : Shape) (srcs : List Shape) (vc : Option Nat) (els : List Nat) : List Spot :=
  ((pieceReads k d srcs (liveElems k d srcs vc els)).flatMap fun x => rangesAt (x.2.flatMap (capturedSpots mode x.1))).eraseDups

/-- Whether a range reads uncorrectable. -/
def badRange (m : ReadMap) (r : Spot) : Bool := m.any fun x => decide (r.va ≤ x.1) && decide (x.1 < r.va + r.len) && x.2.1.poison

/-- The first byte of a range that reads uncorrectable. -/
def firstBad (m : ReadMap) (r : Spot) : Option Nat :=
  (m.find? fun x => decide (r.va ≤ x.1) && decide (x.1 < r.va + r.len) && x.2.1.poison).map (·.2.2)

/-- What a piece's reads decide: OUT and the failing address (R75, R79, R295, R296), the copies that arrive, and EINJ. -/
structure PieceFate where
  out   : BitVec 2
  pa    : Nat
  ships : List Ship
  einj  : Word
deriving DecidableEq, Repr

/-- The copy of a range at a site, where it has arrived. -/
def shipOf (l : List Ship) (home : Nat) (r : Spot) : Option Ship :=
  l.find? fun x => x.home == home && x.va == r.va && x.bytes.length == r.len

/-- The ranges, of some that travel or are read in turn, that EINJ hits, with EINJ after them (R295). (DEDUCED: log 73) -/
def injected (kind home : Nat) : Word → List Spot → List Spot × Word
  | e, [] => ([], e)
  | e, r :: rs =>
    if einjKind e home = some kind then
      let (hs, e) := injected kind home (useEinj e) rs
      (r :: hs, e)
    else injected kind home e rs

/-- What becomes of a piece that reads the ranges `all`, an EWFMA's d among them: its OUT and PA, what it has shipped, and EINJ
after it (R75, R295, R296). (DEDUCED: log 72, 73, 154) -/
def fateOf (einj : Word) (c : Cmd) (home : Nat) (all : List Spot) (m : ReadMap) : PieceFate :=
  let far := sortRanges (all.filter fun r => r.home ≠ some home)
  let near := sortRanges (all.filter fun r => r.home = some home)
  let fresh := far.filter fun r => (shipOf c.ships home r).isNone
  let (lost, e) := injected 0 home einj fresh
  let (hit, e) := injected 1 home e near
  let ships := c.ships ++ fresh.map fun r =>
    (⟨home, r.va, (List.range r.len).map fun i => BitVec.ofNat 8 (m.byte (r.va + i)), r.pa.getD 0,
      badRange m r || lost.contains r⟩ : Ship)
  let spoiled (r : Spot) : Bool := match shipOf ships home r with
    | some x => x.poison
    | none => badRange m r
  match far.find? spoiled with
  | some r => ⟨1, r.pa.getD 0, ships, e⟩
  | none =>
    match near.findSome? fun r => if hit.contains r then r.pa else firstBad m r with
    | some p => ⟨2, p, ships, e⟩
    | none => ⟨0, 0, ships, e⟩

/-- The bytes of shipped copies, as a piece reads them. -/
def shipBytes (l : List Ship) : ReadMap :=
  l.flatMap fun x => x.bytes.zipIdx.map fun b => (x.va + b.2, ⟨b.1, x.poison, 0, false⟩, x.pa + b.2)

/-- A key above every physical one stands for a byte of a splice window: such a byte is delivered, not stored (R122). -/
def spliceKey (va : Nat) : Nat := 2 ^ 66 + va

/-- The writes of a piece. -/
def pieceWrites (d : Shape) (n : Nat) (o : OutMap) : List EngWrite :=
  if d.spl then
    let ws := o.map fun b => ((⟨spliceKey b.1, b.2, false⟩ : WByte), b.1)
    (cutBlocks ws.length ws).map fun w => ⟨w.1, false, n, w.2, none⟩
  else (outWrites d.segs (fun _ => false) o).map fun w => ⟨w.1, false, n, w.2, none⟩

/-- The socket of a piece's site: its stack, the die of its pool, or the issuing die (R2, R74). (DEDUCED: log 154) -/
def siteSocket (c : Cmd) (home : Nat) : Nat :=
  if home < 256 then 4 + home / 32 else if home < 260 then home - 256 else c.die.toNat

/-- Reads bytes for a piece at its site: those to whose socket no route leads from there arrive poisoned (R75, R359).
(DEDUCED: log 154) -/
def readAtSite (s : State) (c : Cmd) (home : Nat) (segs : List Seg) (vas : List Nat) : ReadMap × State :=
  let (m, t) := readVas c.die .tensor segs vas { s with links := [] }
  (m.map fun x => if linked s (siteSocket c home) x.2.2 then x else (x.1, ⟨0, true, 0, false⟩, x.2.2), { t with links := s.links })

/-- The drop of a site's write to a socket that no route reaches, logged (R359). -/
def siteDropped (s : State) (c : Cmd) (socket pa : Nat) : State := logCheck s c.die 3 1 (BitVec.ofNat 16 socket) pa

/-- Writes bytes from a piece's site: those to whose socket no route leads from there are dropped (R75, R359). (DEDUCED: log 154) -/
def writeFromSite (s : State) (c : Cmd) (w : EngWrite) (go : State → EngWrite → State) : State :=
  let site := siteSocket c (((c.pieces[w.piece]?).map (·.home)).getD nowhere)
  let s := match w.bytes.find? fun b => !linked s site b.pa with
    | some b => siteDropped s c ((socketOf s.xd0.mode b.pa).getD 0) b.pa
    | none => s
  let t := go { s with links := [] } { w with bytes := w.bytes.filter fun b => linked s site b.pa }
  { t with links := s.links }

/-- A write of 4-bit elements as it stands when it is made: a nibble that is no element of the piece keeps the value that the
byte's home has then, so that two pieces may share a byte (R63, R77). (DEDUCED: log 76) -/
def shareNibbles (s : State) (c : Cmd) (k : TopKind) (d : Shape) (srcs : List Shape) (vc : Option Nat) (w : EngWrite) : EngWrite :=
  let own := liveElems k d srcs vc (((c.pieces[w.piece]?).map (·.elems)).getD [])
  let has (pa : Nat) (high : Bool) : Bool := own.any fun l => d.high l == high && segAt d.segs (d.addr l) == some pa
  let mix (b : WByte) : WByte :=
    let old := (homeByte s b.pa).val
    match has b.pa false, has b.pa true with
    | true, false => { b with val := old.extractLsb' 4 4 ++ b.val.extractLsb' 0 4 }
    | false, true => { b with val := b.val.extractLsb' 4 4 ++ old.extractLsb' 0 4 }
    | _, _ => b
  { w with bytes := w.bytes.map mix }

def setPiece (ps : List Piece) (n : Nat) (f : Piece → Piece) : List Piece :=
  ps.zipIdx.map fun x => if x.2 = n then f x.1 else x.1

/-- The bytes of the poisoned copies that piece `n` has received and that its MOVED does not count yet, since a lower-numbered
piece of the site counts them, or since they are an EWFMA's d: R296 has MOVED include them. (DEDUCED: log 134) -/
def poisonedExtra (mode : BitVec 2) (c : Cmd) (n : Nat) (p : Piece) (k : TopKind) (d : Shape) (srcs : List Shape)
    (vc : Option Nat) (far : List Spot) (ships : List Ship) : Nat :=
  let lower := (c.pieces.zipIdx.filter fun q => q.2 < n && q.1.home = p.home).flatMap fun q =>
    pieceSpots mode k d srcs vc q.1.elems
  let own := pieceSpots mode k d srcs vc p.elems
  ((far.filter fun r => ((shipOf ships p.home r).any (·.poison)) && (lower.contains r || !own.contains r)).map (·.len)).sum

/-- A piece of a TOP runs: it makes its reads, those of a copy that has arrived for an earlier piece aside (R75), decides its
outcome and computes its writes. All of its reads are made here, at one moment (log 11). An EWFMA into a splice window reads
its d there as 0. (DEDUCED: log 72, 149) (DESIGN CHOICE: log 153) -/
def runPiece (s : State) (c : Cmd) (n : Nat) (p : Piece) (k : TopKind) (d : Shape) (srcs : List Shape) (vc : Option Nat)
    (rnd : BitVec 3) (sat : Bool) : State :=
  let mode := s.xd0.mode
  let own := liveElems k d srcs vc p.elems
  let spots := pieceSpots mode k d srcs vc p.elems
  let dspots := match k with
    | .ewfma => rangesAt ((blockElems k d own).flatMap (capturedSpots mode d))
    | _ => []
  let segs := d.segs ++ srcs.flatMap (·.segs)
  let under := if d.ty.is4 && !d.spl then own.flatMap d.ranges else []
  let here := spots.filter fun r => r.home = some p.home || (shipOf c.ships p.home r).isNone
  let vas := rangeBytes ((here ++ dspots).map (fun r => (r.va, r.len)) ++ under)
  let (dm, s) := readAtSite s c p.home segs vas
  let all := (spots ++ dspots).eraseDups
  let ft := fateOf (s.die c.die).einj c p.home all dm
  let s := s.mapDie c.die fun x => { x with einj := ft.einj }
  let far (l : List Spot) := l.filter fun r => r.home ≠ some p.home
  let m := shipBytes ((far spots).filterMap (shipOf ft.ships p.home)) ++ dm
  let extra := if ft.out = 1 then poisonedExtra mode c n p k d srcs vc (far all) ft.ships else 0
  let env : Env := ⟨rnd, sat, 1, 0⟩
  let (o, fl) :=
    if ft.out ≠ 0 then ([], 0)
    else if isMatrix k then matrixOut k d srcs m dm own env
    else
      match k, srcs with
      | .reduce op, [a] => reduceOut sat op d a m mode own fun l => ((capturedSpots mode a l).head?).bind (·.home)
      | k, ss => ewOut k d ss m dm own env
  setCmd s { c with
    started := true
    ships := ft.ships
    out := c.out ++ pieceWrites d n o
    pieces := setPiece c.pieces n fun p =>
      { p with started := true, shipped := p.shipped + extra, fate := ft.out, failPa := ft.pa, flags := fl } }

/-! ### Events of TOPs -/

/-- R243: no earlier TOP of the eight kinds of the same core shares a handle number that either writes. -/
def topMayStart (s : State) (c : Cmd) : Bool :=
  (earlier s c).all fun x =>
    match x.writes with
    | some w => !(c.reads.contains w) && c.writes ≠ some w &&
        (match c.writes with
          | some v => !x.reads.contains v
          | none => true)
    | none => true

/-- Puts a starting TOP's face pieces into their stacks' queues, in piece order (R86): all together, so that the arrivals of two
TOPs never interleave. (DEDUCED: log 135) -/
def queueFaces (s : State) (c : Cmd) : State :=
  { s with faceQ := s.faceQ ++ (c.pieces.zipIdx.filter fun x => x.1.site == .face).map fun x => (x.1.home / 32, c.id, x.2) }

/-- The pieces that are active on a stack's face units. -/
def activeFaces (s : State) (stack : Nat) : List Piece :=
  s.cmds.flatMap fun c => c.pieces.filter fun p => p.site == .face && p.home / 32 == stack && p.started && p.out.isNone

/-- Whether the activation budget and the units let a face piece start (R86). (DEDUCED: log 135) -/
def faceReady (s : State) (c n : Nat) (p : Piece) : Bool :=
  let st := p.home / 32
  let busy := activeFaces s st
  (match s.faceQ.find? fun x => x.1 == st with
    | some x => x.2 == (c, n)
    | none => false) &&
  decide ((busy.map (·.units.length)).sum + p.units.length ≤ 640) &&
  p.units.all fun u => !s.faceReq.contains (4096 * st + u) && busy.all fun q => !q.units.contains u

/-- PIECE_START of a TOP's piece: the TOP starts if it has not, and the piece runs once its site takes it. -/
def startTopPiece (s : State) (c : Cmd) (n : Nat) (p : Piece) (k : TopKind) (d : Shape) (srcs : List Shape)
    (vc : Option Nat) (rnd : BitVec 3) (sat : Bool) : Option State :=
  if p.started || !(c.started || topMayStart s c) then none
  else
    let s1 := if c.started then s else queueFaces (setCmd s { c with started := true }) c
    let c1 := { c with started := true }
    if p.site == .face then
      if faceReady s1 c.id n p then
        some (runPiece { s1 with faceQ := s1.faceQ.erase (p.home / 32, c.id, n) } c1 n p k d srcs vc rnd sat)
      else if c.started then none else some s1
    else some (runPiece s1 c1 n p k d srcs vc rnd sat)

/-- TF and the record of a failed piece (R80, R296). (DEDUCED: log 77) -/
def failPiece (s : State) (c : Cmd) (n : Nat) (p : Piece) : State :=
  let s := mapTask s c fun x => { x with tstat := x.tstat ||| 1 }
  logCmd s c { TrapInfo.mk0 0x20 2 0 0 with
    pa := BitVec.ofNat 64 p.failPa, item := BitVec.ofNat 16 n, out := p.fate.setWidth 8, home := BitVec.ofNat 16 p.home }

/-- PIECE_COMPLETE: the piece's writes are made; it has completed, or failed. -/
def finishPiece (s : State) (c : Cmd) (n : Nat) (p : Piece) : State :=
  let s := setCmd s { c with
    pieces := setPiece c.pieces n fun q => { q with out := some q.fate }
    flags := if p.fate = 0 then c.flags ||| p.flags else c.flags }
  if p.fate = 0 then s else failPiece s c n p

/-- Whether a TOP or ATTN may retire: every piece has an outcome and every row has entered its context's order. -/
def topDone (s : State) (c : Cmd) : Bool :=
  c.pieces.all (fun p => p.out.isSome) && c.out = [] && allDies.all fun d => (s.die d).rows.all fun r => r.cmd != c.id

/-- The status area is written on the tensor path before the command retires (R78). (DEDUCED: log 75) -/
def writeStatus (s : State) (c : Cmd) (segs : List Seg) (bytes : List Byte) : State :=
  let ws := (segAddrs segs).zip bytes |>.map fun x => (⟨x.1, x.2, false⟩ : WByte)
  engineWrite s c [] ws

/-- Delivers a row of a splice window once every byte of it is written (R122). (DEDUCED: log 149) -/
def deliverRows (s : State) (c : Cmd) (d : Shape) : State :=
  let n := d.ext.headD 1 * (d.ty.bits / 8)
  (List.range d.rows).foldl (fun s r =>
    let va := d.addr (r * d.ext.headD 1)
    match findCmd s c.id with
    | none => s
    | some c =>
      let bs := (List.range n).map fun i => kfind c.spl (va + i)
      if bs.all (·.isSome) then
        match windowOf va n with
        | .splice v x off =>
          let ctx := kfind (s.die c.die).active.ctxs c.slot
          match boundDie ctx (BitVec.ofNat 64 v) with
          | some die =>
            let s := setCmd s { c with spl := (List.range n).foldl (fun l i => kdel l (va + i)) c.spl }
            s.mapDie die fun y => { y with rows := y.rows ++
              [⟨c.id, BitVec.ofNat 6 x, c.pasid, off / 2 ^ 28, off % 2 ^ 28 / n, bs.map (·.getD 0), false⟩] }
          | none => s
        | _ => s
      else s) s

end Sys2Proof.Machine
end

