-- ==== Sys2Proof/Machine/Kv.lean ====
section
/-! DEFINITION. Attention and the block locator: ATTN, KVFIND, KVAPP, KVFREE and SETBAND (R91 to R107, R245 to R247), with
their locator steps (R102). -/

namespace Sys2Proof.Machine

open Sys2Proof

/-! ### Capture (R97, R107) -/

/-- The locator that a descriptor's bytes give, or none for a shape fault (R97), which a TABLE that is not 16-byte aligned takes
too. (DEDUCED: log 61) -/
def parseLocator (va : Nat) (b : List Byte) : Option Locator :=
  let x : Locator := ⟨va, fieldNat b 0 8, fieldNat b 8 4, fieldNat b 12 4, fieldNat b 16 8, fieldNat b 24 8, fieldNat b 32 8, []⟩
  if x.table % 16 == 0 && 1 ≤ x.p && x.p ≤ 2 ^ 24 && x.ovcnt ≤ 4096 && fieldNat b 40 24 == 0 then some x else none

/-- Captures a locator descriptor, under a claim with both rights (R97), and takes its own shape fault. (DEDUCED: log 61) -/
def captureLocator (s : State) (va : Nat) (k : Locator → State → Res) : Res :=
  if va % 64 ≠ 0 then trap s (shapeTrap s va)
  else
    withChecked s (checkEngine s .tensor ⟨true, true⟩ va 64) fun dseg =>
      capture s va 64 fun b s =>
        match parseLocator va b with
        | none => trap s (shapeTrap s va)
        | some x => k { x with segs := dseg } s

/-- Checks the ranges of a locator that a command will touch (R233): its whole table with the rights `need`, and `ovs` overflow
records. -/
def withTable (s : State) (l : Locator) (need : Need) (ovs : Nat) (k : Locator → Res) : Res :=
  withChecked s (checkEngine s .tensor need l.table (16 * l.p)) fun tseg =>
    withChecked s (checkEngine s .tensor need l.ovfl (16 * ovs)) fun oseg => k { l with segs := l.segs ++ tseg ++ oseg }

/-- The ranges of the elements of one token row of a block pool: slot `k` of block `b` (R63, R96). -/
def poolRow (h : Shape) (b k : Nat) : List (Nat × Nat) :=
  (List.range (h.ext.headD 1)).flatMap fun i => h.ranges (i + h.ext.headD 1 * (k + 64 * b))

/-- The rows of some blocks, one for each token slot. (DEDUCED: log 136) -/
def blockRows (h : Shape) (blocks : List Nat) : List (List (Nat × Nat)) :=
  blocks.flatMap fun b => (List.range 64).map fun k => poolRow h b k

def poolRanges (h : Shape) : List (Nat × Nat) :=
  mergeRanges ((blockRows h (List.range (h.ext.getD 2 1))).flatMap mergeRanges)

/-- Checks a pool's ranges; no operand lies in a scratchpad (R65). -/
def checkPool (s : State) (n : Need) (h : Shape) : Checked :=
  match ((blockRows h (List.range (h.ext.getD 2 1))).flatMap id).findSome? fun r => tensorWindow s false r.1 r.2 with
  | some t => .bad t
  | none => noScratch s (checkAll (fun r => checkPlain s false .tensor n r.1 r.2 0) (poolRanges h))

def poolOk (h : Shape) : Bool := h.lay == 3

/-! ### Locator entries (R98) -/

/-- A table entry. -/
structure Entry where
  seq   : Nat
  lblk  : Nat
  owner : Nat
  val   : Bool
  ovf   : Bool
  turn  : Nat
  fill  : Nat
  bset  : Nat
deriving DecidableEq, Repr

def Entry.ofBytes (b : List Byte) : Entry :=
  let f := fieldNat b 11 1
  ⟨fieldNat b 0 4, fieldNat b 4 4, fieldNat b 8 3 % 2 ^ 20, f.testBit 7, f.testBit 6, f / 16 % 4, fieldNat b 12 1 % 128,
    fieldNat b 13 1⟩

def Entry.toBytes (e : Entry) : List Byte :=
  bytesOfNat 4 e.seq ++ bytesOfNat 4 e.lblk ++ bytesOfNat 3 (e.owner % 2 ^ 20) ++
    bytesOfNat 1 ((if e.val then 128 else 0) + (if e.ovf then 64 else 0) + 16 * (e.turn % 4)) ++
    bytesOfNat 1 (e.fill % 128) ++ bytesOfNat 1 e.bset ++ [0, 0]

/-- The physical address of a byte that no issue has captured: by the die's cached translation, or by one that keeps the launch's
claims resident (R340). (DESIGN CHOICE: log 147) -/
def latePlace (s : State) (c : Cmd) (va : Nat) : Option Nat :=
  match tlbFind (s.die c.die).translations c.pasid va with
  | some e => some (e.pa + (va - e.va))
  | none => allDies.findSome? fun d =>
      ((s.die d).active.launches.find? fun x => x.id == c.launch).bind fun x => segAt x.held va

/-- The state as an access of a command's die is judged. -/
def atDie (s : State) (c : Cmd) : State := { s with coreId := 128 * c.die.toNat }

/-- The same, where the task may reach it (R308, R313). (DESIGN CHOICE: log 147) -/
def lateAddr (s : State) (c : Cmd) (va : Nat) : Option Nat :=
  (latePlace s c va).filter fun p => (physFault (atDie s c) false p).isNone

/-- The trap of the first of some bytes that no issue has captured and that the task may not reach: control space, a hole of the
map, or memory of another partition (R308, R313). (DESIGN CHOICE: log 147) -/
def lateTrap (s : State) (c : Cmd) (l : Locator) (va n : Nat) : Option TrapInfo :=
  if isController c.core then none
  else
    (List.range n).findSome? fun i =>
      if (segAt l.segs (va + i)).isSome then none
      else (latePlace s c (va + i)).bind fun p => (physFault (atDie s c) false p).map fun x =>
        { endTrap s x (BitVec.ofNat 64 (va + i)) with
          info0 := c.pc, sub := if x = 0x14 then 2 else 0, pa := BitVec.ofNat 64 p }

/-- Such bytes end the issuing task, at its next bundle boundary. (DESIGN CHOICE: log 147) -/
def lateFault (s : State) (c : Cmd) (l : Locator) (va n : Nat) : State :=
  match lateTrap s c l va n with
  | some t => mapTask s c fun x => x.defer t
  | none => s

/-- The physical address of a byte of a locator: by the captured pieces, else as above; a controller's addresses are physical.
(DESIGN CHOICE: log 147) -/
def locAddr (s : State) (c : Cmd) (l : Locator) (va : Nat) : Option Nat :=
  match segAt l.segs va with
  | some p => some p
  | none => if isController c.core then some va else lateAddr s c va

/-- Bytes that a locator step reads: the steps of one locator form a single order (R102), so each byte is read at its home.
Answers the bytes, and the address of the first that read uncorrectable, or 0 for one that no translation reaches.
(DESIGN CHOICE: log 147) -/
def locRead (s : State) (c : Cmd) (l : Locator) (va n : Nat) : List Byte × Option Nat :=
  let ps := (List.range n).map fun i => locAddr s c l (va + i)
  let bs : List ReadByte := ps.map fun p => match p with
    | some p => homeByte s p
    | none => ⟨0, true, 0, false⟩
  (bs.map (·.val), ((ps.zip bs).find? fun x => x.2.poison).map fun x => x.1.getD 0)

/-- A locator step's write, on the tensor path. -/
def locWrite (s : State) (c : Cmd) (l : Locator) (va : Nat) (bs : List Byte) : State :=
  engineWrite s c [] (bs.zipIdx.filterMap fun b => (locAddr s c l (va + b.2)).map fun p => ⟨p, b.1, false⟩)

def entryAt (s : State) (c : Cmd) (l : Locator) (e : Nat) : Entry × Option Nat :=
  let (b, bad) := locRead s c l (l.table + 16 * e) 16
  (Entry.ofBytes b, bad)

/-- The number of overflow records now; a number above 4,096, which a plain store has left, counts as 4,096.
(DESIGN CHOICE: log 148) -/
def liveOv (s : State) (c : Cmd) (l : Locator) : Nat × Option Nat :=
  let (b, bad) := locRead s c l (l.desc + 12) 4
  (min (natOfBytes b) 4096, bad)

/-- An overflow record: SEQ, LBLK and PBLK. -/
def overAt (s : State) (c : Cmd) (l : Locator) (r : Nat) : (Nat × Nat × Nat) × Option Nat :=
  let (b, bad) := locRead s c l (l.ovfl + 16 * r) 16
  ((fieldNat b 0 4, fieldNat b 4 4, fieldNat b 8 4), bad)

/-! ### Lookup (R99) -/

/-- The first entry of the probe window. -/
def probeStart (l : Locator) (seq lblk : Nat) : Nat :=
  (seq * 0x9E3779B1 % 2 ^ 32 ^^^ lblk * 0x85EBCA77 % 2 ^ 32) % l.p

/-- What a lookup finds: the block, with the overflow record that named it; or that it is absent; or an uncorrectable
error, at a device physical address. -/
inductive Found where
  | block (pblk : Nat) (record : Option Nat)
  | absent
  | error (pa : Nat)
deriving DecidableEq, Repr

def lookWindow (s : State) (c : Cmd) (l : Locator) (seq lblk i0 : Nat) : List Nat → Option Found
  | [] => none
  | j :: r =>
    let e := (i0 + j) % l.p
    match entryAt s c l e with
    | (_, some pa) => some (.error pa)
    | (x, none) =>
      if x.val && !x.ovf && x.seq == seq && x.lblk == lblk && x.owner == c.pasid % 2 ^ 20 then some (.block e none)
      else lookWindow s c l seq lblk i0 r

def lookOver (s : State) (c : Cmd) (l : Locator) (seq lblk : Nat) : List Nat → Found
  | [] => .absent
  | r :: rs =>
    match overAt s c l r with
    | (_, some pa) => .error pa
    | ((sq, lb, pb), none) =>
      if sq == seq && lb == lblk && decide (pb < l.p) then
        match entryAt s c l pb with
        | (_, some pa) => .error pa
        | (x, none) =>
          if x.val && x.ovf && x.owner == c.pasid % 2 ^ 20 then .block pb (some r)
          else lookOver s c l seq lblk rs
      else lookOver s c l seq lblk rs

def lookup (s : State) (c : Cmd) (l : Locator) (seq lblk : Nat) : Found :=
  match lookWindow s c l seq lblk (probeStart l seq lblk) (List.range 8) with
  | some f => f
  | none =>
    match liveOv s c l with
    | (_, some pa) => .error pa
    | (n, none) => lookOver s c l seq lblk (List.range n)

/-! ### KVFIND, KVFREE -/

/-- KVFIND (R246): looks up a KV block through the locator and returns its number. -/
def execKvfind (d q : BitVec 6) (l : EAddr) (g : GuardF) (s : State) : Res :=
  guarded g s fun s =>
    let x := s.core.rs q
    let la := l.access s.core
    captureLocator s la.ea.toNat fun loc s =>
      withTable s loc ⟨true, false⟩ loc.ovcnt fun loc =>
        submit s .tensor (.kvfind loc (x.extractLsb' 0 32) (x.extractLsb' 32 32)) loc.segs (some d) id la.done

/-- KVFREE (R246): frees a range of a sequence's blocks. -/
def execKvfree (d q b : BitVec 6) (l : EAddr) (g : GuardF) (s : State) : Res :=
  guarded g s fun s =>
    let x := s.core.rs q
    let y := s.core.rs b
    let la := l.access s.core
    captureLocator s la.ea.toNat fun loc s =>
      if x.extractLsb' 32 32 ≠ 0 then trap s (shapeTrap s x.toNat)
      else
        let lo := y.extractLsb' 0 32
        let hi := y.extractLsb' 32 32
        let go (loc : Locator) : Res :=
          submit s .tensor (.kvfree loc (x.extractLsb' 0 32) lo hi lo.toNat 0 false) loc.segs (some d) id la.done
        if hi.toNat < lo.toNat then go loc else withTable s loc ⟨true, true⟩ loc.ovcnt go

/-- Frees a found block (R101), or answers none where the last overflow record reads uncorrectable. -/
def freeBlock (s : State) (c : Cmd) (l : Locator) (pblk : Nat) (record : Option Nat) : Option State :=
  let (x, _) := entryAt s c l pblk
  let s1 := locWrite s c l (l.table + 16 * pblk) { x with val := false }.toBytes
  match record with
  | none => some s1
  | some r =>
    let (n, _) := liveOv s c l
    if r + 1 = n then some (locWrite s1 c l (l.desc + 12) (bytesOfNat 4 (n - 1)))
    else
      match locRead s c l (l.ovfl + 16 * (n - 1)) 16 with
      | (_, some _) => none
      | (b, none) => some (locWrite (locWrite s1 c l (l.ovfl + 16 * r) b) c l (l.desc + 12) (bytesOfNat 4 (n - 1)))

/-! ### KVAPP (R100, R247) -/

def sourceOk (d : Nat) (h : Shape) : Bool := h.lay == 0 && h.rank == 2 && h.ext == [d, 64, 1, 1, 1] && h.ty.code.toNat ≤ 4

/-- KVAPP at its bundle (R244). (DEDUCED: log 79) -/
def execKvapp (d : BitVec 6) (x : EAddr) (vc : BitVec 6) (g : GuardF) (s : State) : Res :=
  guarded g s fun s =>
    let xa := x.access s.core
    let va := xa.ea.toNat
    let rows := if vc = 0 then 64 else min (s.core.rs vc).toNat 64
    capture s va 64 fun b s =>
      let hs := (List.range 4).map fun i => BitVec.ofNat 8 (fieldNat b i 1)
      let cls := fieldNat b 4 1
      let bset := fieldNat b 5 1
      captureHandles hs s fun raw s => withShapes s raw fun shs =>
        match shs with
        | [kp, vp, ks, vs] =>
          let dd := kp.ext.headD 1
          let good := (cls == 1 || cls == 2) && (cls == 2 || bset == 0) && fieldNat b 6 2 == 0 && fieldNat b 12 4 == 0 &&
            fieldNat b 32 32 == 0 && poolOk kp && poolOk vp && vp.ext.headD 1 == dd && sourceOk dd ks && sourceOk dd vs
          if !good then trap s (shapeTrap s va)
          else
            captureLocator s (fieldNat b 24 8) fun loc s =>
              let go (loc : Locator) : Res :=
                let els := List.range (dd * rows)
                let tl := if cls == 1 && rows ≠ 0 then 8 * (dd / 2) else 0
                withChecked s (checkEngine s .tensor ⟨true, false⟩ loc.turnt tl) fun tseg =>
                  withChecked s (checkTensor s ⟨true, false⟩ { ks with spl := false } els) fun kss =>
                    withChecked s (checkTensor s ⟨true, false⟩ { vs with spl := false } els) fun vss =>
                      withChecked s (if rows = 0 then .ok [] else checkPool s ⟨false, true⟩ kp) fun kps =>
                        withChecked s (if rows = 0 then .ok [] else checkPool s ⟨false, true⟩ vp) fun vps =>
                          let loc := { loc with segs := loc.segs ++ tseg }
                          submit s .tensor
                            (.kvapp loc (BitVec.ofNat 32 (fieldNat b 8 4)) (BitVec.ofNat 8 cls) (BitVec.ofNat 8 bset)
                              (BitVec.ofNat 64 (fieldNat b 16 8)) rows s.core.sat { kp with segs := kps }
                              { vp with segs := vps } { ks with segs := kss } { vs with segs := vss } 0)
                            (loc.segs ++ kss ++ vss ++ kps ++ vps) (some d) id xa.done
              if kp.ext.getD 2 1 < loc.p || vp.ext.getD 2 1 < loc.p then trap s (shapeTrap s va)
              else if rows = 0 then go loc
              else withTable s loc ⟨true, true⟩ 4096 go
        | _ => trap s (shapeTrap s va)

/-- The turn table's values, and the address of the first byte that read uncorrectable, or 0 where no translation reaches one;
`own` are the writes that the item has read (R131). -/
def turnsOf (s : State) (c : Cmd) (l : Locator) (own : List Nat) (n : Nat) : (List Word × Option Nat) × State :=
  let qs := (List.range (8 * n)).map fun i => locAddr s c l (l.turnt + i)
  if qs.any (·.isNone) then (([], some 0), s)
  else
    let ps := qs.filterMap id
    let (bs, _, s) := readBytes c.die .tensor own ps s
    (((List.range n).map fun i => BitVec.ofNat 64 (fieldNat (bs.map (·.val)) (8 * i) 8),
      ((ps.zip bs).find? fun x => x.2.poison).map (·.1)), s)

/-- Rotates pairs of a row by the given frequencies at a position (R103 to R105). -/
def rotateRow (sat : Bool) (pos : Word) : List Word → List Num → List Num × Flags
  | f :: fs, x :: y :: r =>
    let (co, si, f1) := turnPhase (pos * f)
    let (x', y', f2) := rotatePair sat co si x y
    let (t, f3) := rotateRow sat pos fs r
    (x' :: y' :: t, f1 ||| f2 ||| f3)
  | _, xs => (xs, 0)

/-- The bytes of a row of values in a pool's type, RNE (R37, R100), and the flags. -/
def rowToBytes (t : Ty) (sat : Bool) (xs : List Num) : List Byte × Flags :=
  let ys := xs.map fun x => tyRound t false x (Env.rneSat sat)
  (ys.flatMap fun y => bytesOfNat (t.bits / 8) y.1, ys.foldl (fun f y => f ||| y.2.fl) 0)

/-- Row `t` of a source: its values, and whether one read uncorrectable; with what the item has then read (R131). -/
def sourceRow (s : State) (c : Cmd) (h : Shape) (own : List Nat) (t : Nat) : (List Num × Bool) × List Nat × State :=
  let els := (List.range (h.ext.headD 1)).map fun i => i + h.ext.headD 1 * t
  let (m, own, s) := readVasOwn c.die .tensor h.segs own (rangeBytes (els.flatMap h.ranges)) s
  ((els.map fun l => (h.value m l).1, m.any fun x => x.2.1.poison), own, s)

/-- Writes a token row of a pool, element by element; of a byte that two elements share the later one's value stays. -/
def poolWrite (s : State) (c : Cmd) (h : Shape) (pblk slot : Nat) (bs : List Byte) : State :=
  let o := ((rangeList (poolRow h pblk slot)).zip bs).foldl (fun (o : OutMap) x => kset o x.1 x.2) []
  engineWrite s c [] (o.filterMap fun b => (segAt h.segs b.1).map fun p => ⟨p, b.2, false⟩)

/-- The first of some entries that is free, or none; an entry that reads uncorrectable on the way ends the search. -/
def firstFree (s : State) (c : Cmd) (l : Locator) : List Nat → Sum (Option Nat) Unit
  | [] => .inl none
  | e :: r =>
    match entryAt s c l e with
    | (_, some _) => .inr ()
    | (x, none) => if x.val then firstFree s c l r else .inl (some e)

/-- The entry that an allocation takes: the first free one of the probe window, else the lowest free one of the table,
which goes through the overflow list; or code 1 or 3. -/
def freeEntry (s : State) (c : Cmd) (l : Locator) (i0 : Nat) : Sum (Nat × Bool) Nat :=
  match firstFree s c l ((List.range 8).map fun j => (i0 + j) % l.p) with
  | .inr _ => .inr 3
  | .inl (some e) => .inl (e, false)
  | .inl none =>
    match firstFree s c l (List.range l.p) with
    | .inr _ => .inr 3
    | .inl (some e) => .inl (e, true)
    | .inl none => .inr 1

/-- Allocates a block of a sequence, or answers code 1 or 3. -/
def allocate (s : State) (c : Cmd) (l : Locator) (seq lblk turn bset : Nat) : Sum (State × Nat) Nat :=
  match freeEntry s c l (probeStart l seq lblk), liveOv s c l with
  | .inr code, _ => .inr code
  | .inl (e, ovs), (n, bad) =>
    if ovs && bad.isSome then .inr 3
    else if ovs && 4096 ≤ n then .inr 1
    else
      let x : Entry := ⟨seq, lblk, c.pasid, true, ovs, turn, 0, bset⟩
      let s := locWrite s c l (l.table + 16 * e) x.toBytes
      let s := if ovs then
          let s := locWrite s c l (l.ovfl + 16 * n) (bytesOfNat 4 seq ++ bytesOfNat 4 lblk ++ bytesOfNat 8 e)
          locWrite s c l (l.desc + 12) (bytesOfNat 4 (n + 1))
        else s
      .inl (s, e)

/-- Writes a row into slot `slot` of block `e` (R100 step 3): the key rotated where the entry's TURN is 1. Answers the new state
with the flags; or code 3, and then nothing of the row stays but its reads: `s0` is the state before its allocation. -/
def putRow (s0 s : State) (c : Cmd) (l : Locator) (own : List Nat) (e slot : Nat) (pos : Word) (sat : Bool) (kp vp : Shape)
    (kr vr : List Num) : State × Sum Flags Nat :=
  let x := (entryAt s c l e).1
  let ((fs, bad), s) := if x.turn = 1 then turnsOf s c l own (kr.length / 2) else (([], none), s)
  if bad.isSome then (lateFault { s0 with choice := s.choice } c l l.turnt (8 * (kr.length / 2)), .inr 3)
  else
    let (k', f1) := if x.turn = 1 then rotateRow sat pos fs kr else (kr, 0)
    let (kb, f2) := rowToBytes kp.ty sat k'
    let (vb, f3) := rowToBytes vp.ty sat vr
    let s := poolWrite (poolWrite s c kp e slot kb) c vp e slot vb
    (locWrite s c l (l.table + 16 * e) { x with fill := max x.fill (slot + 1) }.toBytes, .inl (f1 ||| f2 ||| f3))

/-- One row of a KVAPP: the new state, with the row's flags or the code that stops the command (R100). The logical block of a
position beyond 2^38 is cut to the 32 bits of LBLK. (DEDUCED: log 79) (DESIGN CHOICE: log 148) -/
def appendRow (s : State) (c : Cmd) (l : Locator) (seq : BitVec 32) (cls bset : BitVec 8) (pos : Word) (t : Nat) (sat : Bool)
    (kp vp ks vs : Shape) : State × Sum Flags Nat :=
  let lblk := (pos.toNat / 64) % 2 ^ 32
  let slot := pos.toNat % 64
  let ((kr, b1), own, s) := sourceRow s c ks [] t
  let ((vr, b2), own, s) := sourceRow s c vs own t
  let differs (e : Nat) : Bool := let x := (entryAt s c l e).1; x.turn != cls.toNat || x.bset != bset.toNat
  let put (s' : State) (e : Nat) := putRow s s' c l own e slot pos sat kp vp kr vr
  let stop (code : Nat) : State × Sum Flags Nat := (s, .inr code)
  let fresh : State × Sum Flags Nat :=
    match allocate s c l seq.toNat lblk cls.toNat bset.toNat with
    | .inl (s', e) => put s' e
    | .inr code => stop code
  if b1 || b2 then stop 3
  else
    match lookup s c l seq.toNat 0, lookup s c l seq.toNat lblk with
    | .error _, _ => stop 3
    | .block e0 _, .error _ => if differs e0 then stop 2 else stop 3
    | .block e0 _, .block e _ => if differs e0 then stop 2 else put s e
    | .block e0 _, .absent => if differs e0 then stop 2 else fresh
    | .absent, .error _ => stop 3
    | .absent, .block e _ => put s e
    | .absent, .absent => fresh

/-! ### SETBAND (R106, R107) -/

/-- A band table's bytes: no reserved byte set, LO ≤ HI, a factor finite and positive. -/
def bandOk (b : List Byte) : Bool :=
  fieldNat b 4 12 == 0 && (List.range 16).all fun i =>
    let o := 16 + 8 * i
    decide (fieldNat b o 1 ≤ fieldNat b (o + 1) 1) && fieldNat b (o + 2) 2 == 0 &&
    (match f32Num (BitVec.ofNat 32 (fieldNat b (o + 4) 4)) with
      | .fin false m _ => decide (0 < m)
      | _ => false)

/-- The table and the locator are captured, then judged, and the band set is all that SETBAND touches (R107, R246).
(DEDUCED: log 81) -/
def execSetband (b : BitVec 6) (x l : EAddr) (g : GuardF) (s : State) : Res :=
  guarded g s fun s =>
    let n := s.core.rs b
    let xa := x.access s.core
    let la := l.access s.core
    captureLocator s la.ea.toNat fun loc s =>
      capture s xa.ea.toNat 144 fun src s =>
        if n.extractLsb' 8 56 ≠ 0 then trap s (shapeTrap s n.toNat)
        else if !bandOk src then trap s (shapeTrap s xa.ea.toNat)
        else
          withChecked s (checkEngine s .tensor ⟨true, true⟩ (loc.bandt + 256 * n.toNat) 144) fun dst =>
            submit s .tensor (.setband dst src) (loc.segs ++ dst) none id fun s => la.done (xa.done s)

/-- SETBAND's one write, as it stands when it is made: the table with VER one more than before (R107). (DEDUCED: log 81) -/
def bandWrite (s : State) (dst : List Seg) (src : List Byte) : EngWrite :=
  let pas := segAddrs dst
  let ver := natOfBytes ((pas.take 4).map fun p => (homeByte s p).val)
  let bs := bytesOfNat 4 ((ver + 1) % 2 ^ 32) ++ src.drop 4
  ⟨(pas.zip bs).map fun x => ⟨x.1, x.2, false⟩, false, 0, (dst.head?.map (·.va)).getD 0, none⟩

/-! ### ATTN (R91 to R94, R245) -/

def attnOk (q kp vp o : Shape) (ml : Option Shape) (norm : Bool) : Bool :=
  let d := q.ext.headD 1
  let nq := q.ext.getD 1 1
  let t (h : Shape) := h.ty.code.toNat
  q.lay == 2 && 1 ≤ t q && t q ≤ 4 && q.rank == 2 && 1 ≤ nq && nq ≤ 256 &&
  2 ≤ d && d ≤ (if q.ty.isF8 then 256 else 128) && d % 2 == 0 &&
  poolOk kp && poolOk vp && kp.ext.headD 1 == d && vp.ext.headD 1 == d &&
  o.lay == 0 && o.rank == 2 && o.ext == [d, nq, 1, 1, 1] && (if norm then t o ≤ 2 else t o == 0) &&
  (match ml with
    | some h => h.lay == 0 && t h == 0 && h.rank == 2 && h.ext == [2, nq, 1, 1, 1]
    | none => norm)

/-- What a command that is still to run makes of a sequence's class, as TURN and BSET of its first block: a free of that block
takes it away, and the first append after it gives it anew (R100, R101). (DEDUCED: log 81) -/
def classStep (l : Locator) (seq : Nat) (x : Option (Nat × Nat)) (b : CmdBody) : Option (Nat × Nat) :=
  match b with
  | .kvfree k q lo _ next _ _ => if k.desc == l.desc && q.toNat == seq && lo == 0 && next == 0 then none else x
  | .kvapp k q cls bset _ rows _ _ _ _ _ next =>
    if k.desc == l.desc && q.toNat == seq && decide (next < rows) && x.isNone then some (cls.toNat, bset.toNat) else x
  | _ => x

/-- The band set that an ATTN of a sequence will use, as its issue can tell (R107): that of the sequence's first block, after what
the earlier commands of the same task are still to make of it, in their order (R95). (DEDUCED: log 81) -/
def bandSet (s : State) (c : Cmd) (l : Locator) (seq : Nat) : Option Nat :=
  let now : Option (Nat × Nat) := match lookup s c l seq 0 with
    | .block e _ => let x := (entryAt s c l e).1; some (x.turn, x.bset)
    | _ => none
  match (s.cmds.filter fun y => c.sameTask y && decide (y.id < c.id)).foldl (fun x y => classStep l seq x y.body) now with
  | some (2, n) => some n
  | _ => none

/-- A band set's table, captured whole (R107), and the address of its first byte that read uncorrectable: the table that an
earlier SETBAND of the same task has still to write (R95), else what stands at its home. (DEDUCED: log 81) (DESIGN CHOICE: log 148) -/
def captureBand (s : State) (c : Cmd) (l : Locator) (n : Nat) : List Byte × Option Nat :=
  let va := l.bandt + 256 * n
  let newer := s.cmds.reverse.findSome? fun y =>
    match y.body with
    | .setband dst src =>
      if c.sameTask y && decide (y.id < c.id) && (dst.head?.map (·.va)) == some va && !(y.finished && y.out == []) then
        some (src, none) else none
    | _ => none
  newer.getD (locRead s c l va 144)

/-- The band table that an ATTN must have translated at issue. -/
def bandRange (l : Locator) (n : Option Nat) : List (Nat × Nat) :=
  match n with
  | some n => [(l.bandt + 256 * n, 144)]
  | none => []

/-- The kinds of R95: they start in issue order. -/
def isKv (b : CmdBody) : Bool :=
  match b with
  | .attn _ | .kvfind _ _ _ | .kvapp _ _ _ _ _ _ _ _ _ _ _ _ | .kvfree _ _ _ _ _ _ _ | .setband _ _ => true
  | _ => false

/-- The bytes that an ATTN ships to its central site (R71, R79): Q, and the K and V rows of its blocks, identical ranges once
(R75). (DEDUCED: log 136) -/
def attnShipped (a : Attn) : Nat :=
  let q := (List.range a.q.rows).map fun r => mergeRanges ((List.range (a.q.ext.headD 1)).flatMap fun i =>
    a.q.ranges (i + a.q.ext.headD 1 * r))
  let kv := (blockRows a.kp a.blocks ++ blockRows a.vp a.blocks).map mergeRanges
  (((q ++ kv).flatMap id).eraseDups.map (·.2)).sum

/-- Whether any page of some ranges is mapped with a key slot (R70). -/
def rangesKeyed (s : State) (rs : List (Nat × Nat)) : Bool :=
  rs.any fun r => (List.range ((r.1 % 4096 + r.2 + 4095) / 4096)).any fun i =>
    match residentAt s (max r.1 (pageOf r.1 + 4096 * i)) with
    | some p => keyed s p
    | none => false

/-- An ATTN whose descriptor and records are in order: its ranges, its band table and its queue. -/
def issueAttn (s : State) (xa : Access) (st : Nat) (a : Attn) : Res :=
  let q := a.q
  let c := newCmd s .tensor (.kvfind a.loc a.seq 0) []
  let pl (h : Shape) := if a.n = 0 then .ok [] else checkPool s ⟨true, false⟩ h
  let all (h : Shape) := List.range h.count
  let band := if a.n = 0 then none else bandSet s c a.loc a.seq.toNat
  withChecked s (checkEngine s .tensor ⟨true, false⟩ a.loc.turnt (if a.n = 0 then 0 else 8 * (q.ext.headD 1 / 2))) fun tseg =>
  withChecked s (checkEngines s .tensor ⟨true, false⟩ (bandRange a.loc band)) fun bseg =>
  withChecked s (checkTensor s ⟨true, false⟩ { q with spl := false } (all q)) fun qs =>
  withChecked s (pl a.kp) fun ks =>
  withChecked s (pl a.vp) fun vs =>
  withChecked s (checkTensor s ⟨false, true⟩ { a.o with spl := false } (all a.o)) fun os =>
  withChecked s (match a.ml with
    | some m => checkTensor s ⟨false, true⟩ { m with spl := false } (all m)
    | none => .ok []) fun ms =>
  withChecked s (checkEngine s .tensor ⟨false, true⟩ st (if st = 0 then 0 else 16)) fun sseg =>
    let loc := { a.loc with segs := a.loc.segs ++ tseg ++ bseg }
    let whole (h : Shape) : Shape × Bool := (h, rangesKeyed s (h.rangesOf (all h)))
    let recs := whole q :: whole a.o :: ((a.ml.map whole).toList ++
      [(a.kp, rangesKeyed s (poolRanges a.kp)), (a.vp, rangesKeyed s (poolRanges a.vp))])
    let a : Attn := { a with
      q := { q with segs := qs }, kp := { a.kp with segs := ks }, vp := { a.vp with segs := vs }, o := { a.o with segs := os }
      ml := a.ml.map fun m => { m with segs := ms }
      loc := loc
      band := band.map (captureBand s c loc)
      bset := band.getD 0
      enc := recs.any (·.2)
      hm := recs.any fun x => x.1.enc != x.2
      status := if st = 0 then none else some sseg }
    let piece : Piece := ⟨[], nowhere, nowhere, .central, [], 0,
      a.o.bytes + (a.ml.map (·.bytes)).getD 0, false, none, 0, 0, 0, false⟩
    submit s .tensor (.attn a) (loc.segs ++ qs ++ ks ++ vs ++ os ++ ms ++ sseg) none
      (fun c => { c with pieces := [piece] }) xa.done

/-- ATTN at its bundle (R91, R245). (DEDUCED: log 136) -/
def execAttn (x : EAddr) (p : BitVec 6) (g : GuardF) (s : State) : Res :=
  guarded g s fun s =>
    let xa := x.access s.core
    let va := xa.ea.toNat
    let (vc, st) := pairOf s.core p
    let n := vc.getD 0
    if va % 64 ≠ 0 then trap s (shapeTrap s va)
    else capture s va 64 fun b s =>
      let hs := (List.range 5).map fun i => BitVec.ofNat 8 (fieldNat b i 1)
      captureHandles hs s fun raw s =>
        let mlNull := match raw.getLast? with
          | some r => r.va == 0
          | none => true
        withShapes s (if mlNull then raw.dropLast else raw) fun shs =>
          match shs with
          | q :: kp :: vp :: o :: r =>
            let norm := (fieldNat b 5 1).testBit 0
            if 2 ≤ fieldNat b 5 1 || fieldNat b 6 2 ≠ 0 || fieldNat b 32 32 ≠ 0 || !attnOk q kp vp o r.head? norm then
              trap s (shapeTrap s va)
            else
              captureLocator s (fieldNat b 24 8) fun loc s =>
                if kp.ext.getD 2 1 < loc.p || vp.ext.getD 2 1 < loc.p then trap s (shapeTrap s va)
                else if st % 8 ≠ 0 then trap s (shapeTrap s st)
                else if n = 0 then issueAttn s xa st ⟨q, kp, vp, o, r.head?, loc, BitVec.ofNat 32 (fieldNat b 8 4), 0,
                  BitVec.ofNat 64 (fieldNat b 16 8), BitVec.ofNat 32 (fieldNat b 12 4), norm, s.core.sat, none, false, false,
                  none, [], 0, 0⟩
                else
                  withTable s loc ⟨true, false⟩ loc.ovcnt fun loc =>
                    issueAttn s xa st ⟨q, kp, vp, o, r.head?, loc, BitVec.ofNat 32 (fieldNat b 8 4), n,
                      BitVec.ofNat 64 (fieldNat b 16 8), BitVec.ofNat 32 (fieldNat b 12 4), norm, s.core.sat, none, false, false,
                      none, [], 0, 0⟩
          | _ => trap s (shapeTrap s va)

/-- The band factor of a pair: the lowest-numbered band that holds it, else 1 (R106). -/
def bandFactor (b : List Byte) (i : Nat) : Num :=
  match (List.range 16).find? fun k => decide (fieldNat b (16 + 8 * k) 1 ≤ i) && decide (i ≤ fieldNat b (17 + 8 * k) 1) with
  | some k => f32Num (BitVec.ofNat 32 (fieldNat b (20 + 8 * k) 4))
  | none => Num.ofInt 1

/-- f′ of R106: ⌊f × FACTOR⌋ mod 2^64, exactly, also for a negative factor that a plain store has put there; a factor that is no
number or infinite, which SETBAND refuses, leaves f as it is. (DESIGN CHOICE: log 148) -/
def bandTurn (f : Word) (x : Num) : Word :=
  match x with
  | .fin n m e => BitVec.ofInt 64 (floorInt n (f.toNat * m) e)
  | _ => f

/-- The state of one query row (R92): m, l, O, its flags, and whether it has stopped at a NaN. -/
structure AttnRow where
  m    : Num
  l    : Num
  o    : List Num
  fl   : Flags
  dead : Bool
deriving DecidableEq, Repr

/-- The value of the exact sum of a run (R39), without SAT. -/
def runF32 (ps : List (Num × Num)) : Num × Flags :=
  let (x, nv) := (runSum ps).result
  let (y, f) := roundF32 false x
  (y, if nv then f ||| Flags.nv else f)

/-- s[j] by R39. -/
def score (sat : Bool) (q k : List Num) : Num × Flags :=
  let ts := q.zip k
  (runsOf ts.length ts).foldl (fun (a : Num × Flags) r =>
    let (x, f) := runF32 r
    let (y, g) := addF32 sat a.1 x
    (y, a.2 ||| f ||| g)) (Num.zero, 0)

/-- One block of R92: `slots` lists the unmasked slots, each with its slot number, its score and its value row. -/
def attnBlock (vty : Ty) (sat : Bool) (r : AttnRow) (slots : List (Nat × Num × List Num)) : AttnRow :=
  if r.dead then r
  else
    let mn := slots.foldl (fun m x => m.maxX x.2.1) r.m
    if mn.isNan then { r with dead := true }
    else if mn == .inf true then r
    else
      let (a, f0) : Num × Flags := if r.m.eqX mn then (Num.ofInt 1, 0)
        else let (d, f) := addF32 sat r.m mn.neg; let (e, g) := e2x sat d; (e, f ||| g)
      let ps := slots.map fun x =>
        let (d, f) : Num × Flags := if x.2.1.eqX mn then (Num.zero, 0) else addF32 sat x.2.1 mn.neg
        let (e, g) := e2x sat d
        let (b, env) := tyRound vty false e ⟨0, sat, 1, 0⟩
        (x.1, tyNum vty b, x.2.2, f ||| g ||| env.fl)
      let f1 := ps.foldl (fun f x => f ||| x.2.2.2) f0
      let (l0, f2) := mulF32 sat a r.l
      let os := r.o.map fun x => mulF32 sat a x
      let f3 := os.foldl (fun f x => f ||| x.2) (f1 ||| f2)
      let runs := [ps.filter fun x => x.1 < 32, ps.filter fun x => 32 ≤ x.1]
      let (l, o, fl) := runs.foldl (fun (t : Num × List Num × Flags) run =>
        let (ls, g1) := runF32 (run.map fun x => (x.2.1, Num.ofInt 1))
        let (l', g2) := addF32 sat t.1 ls
        let o' := t.2.1.zipIdx.map fun x =>
          let (y, h1) := runF32 (run.map fun p => (p.2.1, p.2.2.1.getD x.2 Num.zero))
          let (z, h2) := addF32 sat x.1 y
          (z, h1 ||| h2)
        (l', o'.map (·.1), o'.foldl (fun f x => f ||| x.2) (t.2.2 ||| g1 ||| g2))) (l0, os.map (·.1), f3)
      ⟨mn, l, o, fl, false⟩

/-- The frequencies that the feed rotates by, for queries and for keys, or none (R103); a TURN of 0 or 3, which is never written
(R98), rotates nothing. (DESIGN CHOICE: log 148) -/
def feedTurns (a : Attn) (turns : List Word) : List Word × List Word :=
  let banded := turns.zipIdx.map fun x => bandTurn x.1 (bandFactor ((a.band.map (·.1)).getD []) x.2)
  match a.turn with
  | 1 => (turns, [])
  | 2 => (banded, banded)
  | _ => ([], [])

/-- A row of values in a type, after a rotation. -/
def feedRow (t : Ty) (sat : Bool) (pos : Word) (fs : List Word) (xs : List Num) : List Num × Flags :=
  if fs = [] then (xs, 0)
  else
    let (ys, f) := rotateRow sat pos fs xs
    let zs := ys.map fun y => tyRound t false y ⟨0, sat, 1, 0⟩
    (zs.map fun z => tyNum t z.1, zs.foldl (fun g z => g ||| z.2.fl) f)

/-- What an ATTN's piece reads: Q, the key and value rows of every block, and the turn table; with its OUT and failing address. -/
structure AttnData where
  q     : List (List Num)
  keys  : List (List (List Num))
  vals  : List (List (List Num))
  turns : List Word
  out   : BitVec 2
  pa    : Nat
deriving DecidableEq, Repr

/-- The values of the elements at some ranges. -/
def rowValues (h : Shape) (m : ReadMap) (row : List (Nat × Nat)) : List Num :=
  row.map fun r => tyNum h.ty (natOfBytes ((List.range r.2).map fun j => BitVec.ofNat 8 (m.byte (r.1 + j))))

/-- The blocks of a pool that an ATTN reads: their rows, the address of the first byte that read uncorrectable, and what the item
has then read (R131). -/
def attnPool (c : Cmd) (blocks : List Nat) (h : Shape) (own : List Nat) (s : State) :
    List (List (List Num)) × Option Nat × List Nat × State :=
  blocks.foldl (fun (t : List (List (List Num)) × Option Nat × List Nat × State) b =>
    let rows := blockRows h [b]
    let (m, own, s) := readVasOwn c.die .tensor h.segs t.2.2.1 (rangeList (rows.flatMap id)) t.2.2.2
    (t.1 ++ [rows.map (rowValues h m)],
      t.2.1 <|> (m.find? fun x => x.2.1.poison).map (·.2.2), own, s)) ([], none, own, s)

/-- The reads of an ATTN's piece, one item (R131). Q is shipped to the central site (R71): where it arrives poisoned the piece
fails with OUT 1; an uncorrectable block, turn table or band table gives OUT 2 (R79, R94). (DEDUCED: log 73)
(DESIGN CHOICE: log 148, 153) -/
def attnData (s : State) (c : Cmd) (a : Attn) : AttnData × State :=
  let d := a.q.ext.headD 1
  let all := List.range a.q.count
  let (qm, own, s) := readVasOwn c.die .tensor a.q.segs [] (rangeBytes (a.q.rangesOf all)) s
  let (ks, kBad, own, s) := attnPool c a.blocks a.kp own s
  let (vs, vBad, own, s) := attnPool c a.blocks a.vp own s
  let ((turns, tBad), s) := turnsOf s c a.loc own (d / 2)
  let qs := (List.range (a.q.ext.getD 1 1)).map fun i => (List.range d).map fun e => (a.q.value qm (e + d * i)).1
  let spoiled := (rangesAt (all.flatMap (capturedSpots s.xd0.mode a.q))).find? (badRange qm)
  let bandBad := if a.turn = 2 then a.band.bind (·.2) else none
  let (out, pa) : BitVec 2 × Nat := match spoiled, kBad <|> vBad <|> tBad <|> bandBad with
    | some r, _ => (1, r.pa.getD 0)
    | none, some p => (2, p)
    | none, none => (0, 0)
  (⟨qs, ks, vs, turns, out, pa⟩, s)

/-- One query row of R92: masked positions add nothing. qp wraps at 64 bits. (DEDUCED: log 137) -/
def attnQuery (a : Attn) (x : AttnData) (i : Nat) (q : List Num) : AttnRow :=
  let qp := a.cofs + BitVec.ofNat 64 i
  let (fq, fk) := feedTurns a x.turns
  let (q, f) := feedRow a.q.ty a.sat qp fq q
  let start : AttnRow := ⟨.inf true, Num.zero, q.map fun _ => Num.zero, f, false⟩
  ((x.keys.zip x.vals).zipIdx).foldl (fun r b =>
    let live := (List.range 64).filter fun k =>
      let j := 64 * b.2 + k
      decide (j < a.n) && decide ((j : Int) ≤ qp.toInt)
    let ss := live.map fun k =>
      let (key, f1) := feedRow a.kp.ty a.sat (BitVec.ofNat 64 (64 * b.2 + k)) fk (b.1.1.getD k [])
      let (sc, f2) := score a.sat q key
      let (t, f3) := mulF32 a.sat (f32Num a.c) sc
      ((k, t, b.1.2.getD k []), f1 ||| f2 ||| f3)
    let r := if r.dead then r else { r with fl := ss.foldl (fun f y => f ||| y.2) r.fl }
    attnBlock a.vp.ty a.sat r (ss.map (·.1))) start

/-- The output bits of a finished row (R93): O, m and l. Where nothing contributed, m is -inf in either mode. (DEDUCED: log 137) -/
def attnResult (a : Attn) (r : AttnRow) : List Nat × Nat × Nat × Flags :=
  let f32 (x : Num) : Nat := (f32Bits x).toNat
  if r.dead then
    let nan := (tyRound a.o.ty false .nan ⟨0, a.sat, 1, 0⟩).1
    (r.o.map fun _ => nan, f32 .nan, f32 .nan, r.fl)
  else if !a.norm then (r.o.map f32, f32 r.m, f32 r.l, r.fl)
  else if r.l.isZero then (r.o.map fun _ => 0, f32 r.m, f32 r.l, 0)
  else
    let os := r.o.map fun x =>
      let (y, nv) := Num.divX x r.l
      let (b, e) := tyRound a.o.ty false y ⟨0, a.sat, 1, if nv then Flags.nv else 0⟩
      (b, e.fl)
    (os.map (·.1), f32 r.m, f32 r.l, os.foldl (fun f x => f ||| x.2) r.fl)

/-- The piece of an ATTN runs, once its lookups are made; with n = 0 every row takes the empty result, and nothing is read
(R94). (DESIGN CHOICE: log 153) -/
def runAttn (s : State) (c : Cmd) (a : Attn) : State :=
  let d := a.q.ext.headD 1
  let empty : AttnRow := ⟨.inf true, Num.zero, List.replicate d Num.zero, 0, false⟩
  let (x, s) := if a.n = 0 then (⟨[], [], [], [], 0, 0⟩, s) else attnData s c a
  let rows :=
    if x.out ≠ 0 then []
    else if a.n = 0 then List.replicate (a.q.ext.getD 1 1) (attnResult a empty)
    else x.q.zipIdx.map fun q => attnResult a (attnQuery a x q.2 q.1)
  let o := rows.zipIdx.foldl (fun (o : OutMap) r => r.1.1.zipIdx.foldl (fun o e => a.o.put [] o (e.2 + d * r.2) e.1) o) []
  let ws := (outWrites a.o.segs (fun _ => false) o).map fun w => (⟨w.1, false, 0, w.2, none⟩ : EngWrite)
  let ws2 := match a.ml with
    | none => []
    | some h =>
      let o := rows.zipIdx.foldl (fun (o : OutMap) r => h.put [] (h.put [] o (2 * r.2) r.1.2.1) (1 + 2 * r.2) r.1.2.2.1) []
      (outWrites h.segs (fun _ => false) o).map fun w => (⟨w.1, false, 0, w.2, none⟩ : EngWrite)
  let fl := rows.foldl (fun f r => f ||| r.2.2.2) (0 : Flags)
  setCmd s { c with
    started := true
    out := c.out ++ ws ++ ws2
    pieces := setPiece c.pieces 0 fun p =>
      { p with
        started := true, shipped := attnShipped a, fate := x.out, failPa := x.pa, flags := fl } }

/-! ### Locator steps (R102) -/

/-- These start in issue order, each after every earlier one of the same core has retired (R95). -/
def kvMayStart (s : State) (c : Cmd) : Bool := (earlier s c).all fun x => !isKv x.body

def attnBlocks (a : Attn) : Nat := (a.n + 63) / 64

/-- The next locator step of a command, or none where it has none left. An ATTN that fails in its lookups has read no key and
shipped nothing (R94). (DEDUCED: log 79, 136) (DESIGN CHOICE: log 80) -/
def locatorStep (s : State) (c : Cmd) : Option State :=
  let c := { c with started := true }
  match c.body with
  | .kvfind l seq lblk =>
    if c.finished then none
    else
      match lookup s c l seq.toNat lblk.toNat with
      | .block e _ => some (setCmd s { c with finished := true, result := some (BitVec.ofNat 64 e) })
      | .absent => some (setCmd s { c with finished := true, result := some (BitVec.allOnes 64) })
      | .error _ => some (setCmd { s with choice := s.choice + 1 }
          { c with finished := true, result := some (Config.freeLocator s.choice) })
  | .kvfree l seq lo hi next freed err =>
    if hi.toNat < next then none
    else
      match lookup s c l seq.toNat next with
      | .block e r =>
        (match freeBlock s c l e r with
          | some s => some (setCmd s { c with body := .kvfree l seq lo hi (next + 1) (freed + 1) err })
          | none => some (setCmd s { c with body := .kvfree l seq lo hi (next + 1) freed true }))
      | .absent => some (setCmd s { c with body := .kvfree l seq lo hi (next + 1) freed err })
      | .error _ => some (setCmd s { c with body := .kvfree l seq lo hi (next + 1) freed true })
  | .kvapp l seq cls bset pos0 rows sat kp vp ks vs next =>
    if c.finished || rows ≤ next then none
    else
      match appendRow s c l seq cls bset (pos0 + BitVec.ofNat 64 next) next sat kp vp ks vs with
      | (s, .inl f) => some (setCmd s { c with
          flags := c.flags ||| f
          body := .kvapp l seq cls bset pos0 rows sat kp vp ks vs (next + 1)
          result := some (BitVec.ofNat 64 (next + 1)) })
      | (s, .inr code) => some (setCmd s { c with finished := true, result := some (BitVec.ofNat 64 (code * 2 ^ 56 + next)) })
  | .attn a =>
    let k := a.blocks.length
    match c.pieces with
    | [p] =>
      if p.started || attnBlocks a ≤ k then none
      else
        let fail (f : BitVec 2) (pa : Nat) : Option State :=
          some (setCmd s { c with pieces := [{ p with started := true, shipped := 0, fate := f, failPa := pa }] })
        match lookup s c a.loc a.seq.toNat k with
        | .absent => fail 3 0
        | .error pa => fail 2 pa
        | .block e _ =>
          let x := (entryAt s c a.loc e).1
          let known : Bool := x.turn != 2 || (a.bset == x.bset && a.band.isSome)
          let s := if k = 0 && !known then lateFault s c a.loc (a.loc.bandt + 256 * x.bset) 144 else s
          let a := if k = 0 then
              { a with turn := x.turn, bset := x.bset
                       band := if x.turn ≠ 2 then none else if known then a.band else some (captureBand s c a.loc x.bset) }
            else a
          some (setCmd s { c with body := .attn { a with blocks := a.blocks ++ [e] } })
    | _ => none
  | _ => none

/-- Whether a KV command has made all its locator steps, and its result. -/
def kvDone (c : Cmd) : Bool :=
  match c.body with
  | .kvfind _ _ _ => c.finished
  | .kvfree _ _ _ hi next _ _ => decide (hi.toNat < next)
  | .kvapp _ _ _ _ _ rows _ _ _ _ _ next => c.finished || decide (rows ≤ next)
  | .setband _ _ => c.finished && c.out = []
  | _ => true

/-- The result that a KV command leaves at its retirement. (DEDUCED: log 79) (DESIGN CHOICE: log 80) -/
def kvResult (s : State) (c : Cmd) : Cmd :=
  match c.body with
  | .kvfree _ _ _ _ _ freed err =>
    { c with result := some (if err then Config.freeLocator s.choice else BitVec.ofNat 64 freed) }
  | .kvapp _ _ _ _ _ _ _ _ _ _ _ _ => { c with result := some (c.result.getD 0) }
  | _ => c

end Sys2Proof.Machine
end

