-- ==== Sys2Proof/Machine/Splice.lean ====
section
/-! DEFINITION. The splice unit (R119 to R128, R248): contexts, arrivals, combining, release and the deadline. -/

namespace Sys2Proof.Machine

open Sys2Proof

/-! ### The opener -/

/-- Whether an agent holds the task that opened a context. -/
def SplCtx.of (x : SplCtx) (c : CoreState) : Bool :=
  match c.task with
  | some t => t.uid == x.task
  | none => false

/-- The agent on which the opening task is resident (R127). (DEDUCED: log 87) -/
def SplCtx.agent (x : SplCtx) (s : State) : Option Nat :=
  if x.of s.core then some s.coreId else (s.parked.find? fun p => x.of p.2).map (·.1)

/-! ### Tokens -/

def Token.empty : Token := ⟨0, 0, [], false, false, false⟩

def SplCtx.tok (x : SplCtx) (i : Nat) : Token := x.tokens.getD i Token.empty

def SplCtx.setTok (x : SplCtx) (i : Nat) (f : Token → Token) : SplCtx :=
  { x with tokens := x.tokens.zipIdx.map fun t => if t.2 = i then f t.1 else t.1 }

/-- The bits of the routing entries of a token. -/
def SplCtx.mask (x : SplCtx) : BitVec 8 := BitVec.ofNat 8 (2 ^ x.kk - 1)

def SplCtx.complete (x : SplCtx) (t : Token) : Bool := t.arrived == x.mask

/-- Tokens not yet released; a held release is not yet made (R127), but after the deadline every token counts as released (R126).
(DEDUCED: log 84) -/
def SplCtx.outstanding (x : SplCtx) : Nat := if x.passed then 0 else (x.tokens.filter fun t => !t.released).length

def setSplice (s : State) (die : BitVec 2) (n : Nat) (x : SplCtx) : State :=
  s.mapDie die fun d => { d with splices := kset d.splices n x }

def findSplice (s : State) (die : BitVec 2) (n : Nat) : Option SplCtx := kfind (s.die die).splices n

/-! ### Combining (R124) -/

/-- A present entry of a token. -/
structure SplEntry where
  id   : Nat
  gate : Num
  row  : List Num
  bad  : Bool
deriving DecidableEq, Repr

/-- The values of a row of arrival bytes. -/
def rowNums (x : SplCtx) (b : List Byte) : List Num :=
  let t := afmtTy x.afmt
  (fieldsNat b 0 (t.bits / 8) x.d).map fun v => tyNum t v

def insertEntry (e : SplEntry) : List SplEntry → List SplEntry
  | [] => [e]
  | a :: r => if e.id < a.id then e :: a :: r else a :: insertEntry e r

/-- P: the present entries of token row `i` in ascending expert id; `fb` is the fallback row and whether it read
uncorrectable. -/
def presentOf (x : SplCtx) (i : Nat) (t : Token) (fb : List Num × Bool) : List SplEntry :=
  ((List.range x.kk).filterMap fun k =>
    let id := ((x.ids.getD i []).getD k 0).toNat
    let g := f32Num ((x.gates.getD i []).getD k 0)
    if t.arrived.getLsbD k then some (⟨id, g, rowNums x (kget [] t.rows k), t.poison.getLsbD k⟩ : SplEntry)
    else if t.timed && x.policy == 2 then some ⟨id, g, fb.1, fb.2⟩
    else none).foldr insertEntry []

/-- The sum over the present entries, before the rounding to the output type. (DEDUCED: log 85) -/
def combineRows (sat norm : Bool) (d : Nat) (ps : List SplEntry) : List Num × Flags :=
  let (gs, f) : List Num × Flags :=
    if norm then
      let (t, f1) := ps.foldl (fun (a : Num × Flags) p => let (y, g) := addF32 sat a.1 p.gate; (y, a.2 ||| g)) (Num.zero, 0)
      let qs := ps.map fun p => divF32 sat p.gate t
      (qs.map (·.1), qs.foldl (fun f q => f ||| q.2) f1)
    else (ps.map (·.gate), 0)
  (gs.zip ps).foldl (fun (a : List Num × Flags) x =>
    let ys := (a.1.zip x.2.row).map fun v => fmaF32 sat x.1 v.2 v.1
    (ys.map (·.1), ys.foldl (fun f y => f ||| y.2) a.2)) (List.replicate d Num.zero, f)

/-- The output row's bits and the token's flags. (DEDUCED: log 85) -/
def combine (x : SplCtx) (timed : Bool) (ps : List SplEntry) : List Nat × Flags :=
  let (acc, f) := combineRows x.sat (x.norm || (timed && x.policy == 1)) x.d ps
  let os := acc.map fun v => tyRound x.outSh.ty false v (Env.rneSat x.sat)
  (os.map (·.1), ladderFlags (os.foldl (fun f o => f ||| o.2.fl) f))

/-! ### Release (R125 to R127) -/

/-- A write of the splice unit, with the opener's tag (R51); it sets the granules that it writes full (R49). -/
def spliceWrite (s : State) (die : BitVec 2) (x : SplCtx) (bytes : List WByte) : State :=
  tagBytes (place s die .splice x.core x.task x.id none (bytes.map (·.pa)) bytes) (.by x.core x.epoch) bytes

/-- The fallback row of a token row. (DEDUCED: log 85) -/
def fallbackRow (s : State) (die : BitVec 2) (x : SplCtx) (i : Nat) : (List Num × Bool) × State :=
  match x.fbSh with
  | none => (([], false), s)
  | some h =>
    let els := (List.range x.d).map fun e => e + x.d * i
    let (m, s) := readVas die .splice h.segs (rangeBytes (els.flatMap h.ranges)) s
    ((els.map fun l => (h.value m l).1, m.any fun b => b.2.1.poison), s)

/-- The flags half word of a status granule. (DEDUCED: log 85) -/
def statusFlags (dup subst tout poison : Bool) (f : Flags) : Nat :=
  (if dup then 64 else 0) + (if subst then 32 else 0) + (if tout then 16 else 0) + (if poison then 8 else 0) +
    (if f.getLsbD 4 then 4 else 0) + (if f.getLsbD 2 then 2 else 0) + (if f.getLsbD 0 then 1 else 0)

/-- The pieces of a record that the opener captured, with those of its local window resolved to the core on which it now runs
(R127). -/
def atCore (core : Nat) (segs : List Seg) : List Seg :=
  segs.map fun g => if !isController core && decide (Config.localBase ≤ g.va) && decide (g.va < Config.localBase + Config.localSize) then
    { g with pa := spAddr core (g.va - Config.localBase) } else g

/-- The release of one token: its output row, where it has one, then its status granule in the scratchpad of the core on
which the opener stands (R125, R127). -/
def releaseToken (s : State) (die : BitVec 2) (n i core : Nat) : State :=
  match findSplice s die n with
  | none => s
  | some x =>
    let t := x.tok i
    let subst := t.timed && x.policy == 2
    let x := { x with
      outSh := { x.outSh with segs := atCore core x.outSh.segs }
      fbSh := x.fbSh.map fun h => { h with segs := atCore core h.segs } }
    let (fb, s) := if subst then fallbackRow s die x i else (([], false), s)
    let ps := presentOf x i t fb
    let bad := ps.any (·.bad)
    let wr := !bad && !(t.timed && (x.policy == 0 || ps.isEmpty))
    let (row, fl) := if wr then combine x t.timed ps else ([], 0)
    let o := row.zipIdx.foldl (fun o e => x.outSh.put [] o (e.2 + x.d * i) e.1) []
    let s := (outWrites x.outSh.segs (fun _ => false) o).foldl (fun s w => spliceWrite s die x w.1) s
    let miss : BitVec 8 := if t.timed then x.mask &&& ~~~t.arrived else 0
    let st := bytesOfNat 4 (x.tbase + i) ++ [t.arrived, miss] ++
      bytesOfNat 2 (statusFlags t.dup subst t.timed bad fl) ++ bytesOfNat 8 0
    let s := spliceWrite s die x (st.zipIdx.map fun b => ⟨spAddr core (x.status + 16 * i + b.2), b.1, false⟩)
    setSplice s die n { (x.setTok i fun t => { t with released := true }) with held := x.held.filter (· != i) }

/-- A token enters the release order; its release is an event of its own in the order of the context (R123). (DEDUCED: log 84) -/
def orderToken (s : State) (die : BitVec 2) (n i : Nat) : State :=
  match findSplice s die n with
  | none => s
  | some x => setSplice s die n { x with held := x.held ++ [i] }

/-- The next release of a context, or none where it has none to make, or while its opener is not resident (R127). (DEDUCED: log 84) -/
def releaseNext (s : State) (die : BitVec 2) (n : Nat) : Option State :=
  match findSplice s die n with
  | none => none
  | some x =>
    match x.agent s, x.held with
    | some a, i :: _ => some (settle (releaseToken s die n i a))
    | _, _ => none

/-- Makes every release that a context has still to make, where the opener is resident: at its resume (R355), and when the deadline
is handled (R126). (DEDUCED: log 84) -/
def releaseHeld (s : State) (die : BitVec 2) (n : Nat) : State :=
  match findSplice s die n with
  | none => s
  | some x =>
    match x.agent s with
    | some a => x.held.foldl (fun s i => releaseToken s die n i a) s
    | none => s

/-- Whether a token has entered the release order. -/
def SplCtx.ordered (x : SplCtx) (i : Nat) : Bool := (x.tok i).released || (x.tok i).timed || x.held.contains i

/-- Token-order mode: releases complete tokens while the one before has entered the order. -/
def advance (die : BitVec 2) (n : Nat) : List Nat → State → State
  | [], s => s
  | i :: r, s =>
    match findSplice s die n with
    | none => s
    | some x =>
      if x.ordered i then advance die n r s
      else if x.complete (x.tok i) then advance die n r (orderToken s die n i)
      else s

/-- The deadline (R126): every token that has not entered the release order does so now, in ascending order, and they are released,
after those which entered it before. (DEDUCED: log 83, 84) -/
def expire (s : State) (die : BitVec 2) (n : Nat) : State :=
  match findSplice s die n with
  | none => s
  | some x =>
    let todo := (List.range x.tcount).filter fun i => !x.ordered i
    let s := setSplice s die n { x with passed := true }
    let s := todo.foldl (fun s i =>
      match findSplice s die n with
      | none => s
      | some x =>
        let x := if x.complete (x.tok i) then x else x.setTok i fun t => { t with timed := true }
        orderToken (setSplice s die n x) die n i) s
    releaseHeld s die n

/-- The deadline takes its place in the context's order before anything that enters at its cycle (R123). (DEDUCED: log 83) -/
def expireDue (s : State) (die : BitVec 2) (n : Nat) : State :=
  match findSplice s die n with
  | none => s
  | some x => if !x.passed && decide (x.deadline ≤ s.time) then expire s die n else s

/-- SPLICE_DEADLINE: the deadline of a context has come (R126). (DEDUCED: log 83) -/
def execSpliceDeadline (die : BitVec 2) (ctx : BitVec 6) (s : State) : Res :=
  match findSplice s die ctx.toNat with
  | none => notEnabled "SPLICE_DEADLINE"
  | some x =>
    if x.passed || s.time < x.deadline then notEnabled "SPLICE_DEADLINE" else stepped (expire s die ctx.toNat)

/-! ### Arrivals (R122, R123) -/

/-- Tests 1 to 5: the outcome code, 0 for none of them, with the token row and the routing entry. -/
def classify (s : State) (die : BitVec 2) (n pasid token expert : Nat) : Nat × Nat × Nat :=
  match findSplice s die n with
  | none => (5, 0, 0)
  | some x =>
    if x.owner ≠ pasid then (5, 0, 0)
    else if token < x.tbase || x.tbase + x.tcount ≤ token then (6, 0, 0)
    else
      let i := token - x.tbase
      match (List.range x.kk).find? fun k => ((x.ids.getD i []).getD k 0).toNat == expert with
      | none => (2, i, 0)
      | some k =>
        let t := x.tok i
        if x.passed || t.released || t.timed then (3, i, k)
        else if t.arrived.getLsbD k then (1, i, k)
        else (0, i, k)

/-- A 32-bit counter that saturates. -/
def bump (c : BitVec 32) : BitVec 32 := if c = BitVec.allOnes 32 then c else c + 1

/-- The effect of an arrival whose tests gave `cl`, with its row's bytes. -/
def takeRow (s : State) (die : BitVec 2) (n : Nat) (cl : Nat × Nat × Nat) (bytes : List Byte) (poison : Bool) : State :=
  match findSplice s die n with
  | none => s
  | some x =>
    let (code, i, k) := cl
    match code with
    | 2 => setSplice s die n { x with stray := bump x.stray }
    | 3 => setSplice s die n { x with late := bump x.late }
    | 1 => setSplice s die n { (x.setTok i fun t => { t with dup := true }) with dups := bump x.dups }
    | 0 =>
      let x := x.setTok i fun t => { t with
        arrived := t.arrived ||| (1#8 <<< k)
        poison := if poison then t.poison ||| (1#8 <<< k) else t.poison
        rows := kset t.rows k bytes }
      let s := setSplice s die n x
      if !x.complete (x.tok i) then s
      else if x.tokOrder then advance die n (List.range x.tcount) s
      else orderToken s die n i
    | _ => s

/-- A row from a TOP or a network write enters its context's order. -/
def execSpliceArrival (die : BitVec 2) (s : State) : Res :=
  match (s.die die).rows with
  | [] => notEnabled "SPLICE_ARRIVAL"
  | r :: rest =>
    let n := r.ctx.toNat
    let s := s.mapDie die fun d => { d with rows := rest }
    let s := expireDue s die n
    match findSplice s die n with
    | none => stepped s
    | some x => stepped (takeRow s die n (classify s die n r.pasid (x.tbase + r.token) r.expert) r.bytes r.poison)

/-- The PASID of the active core's task. -/
def State.pasid (s : State) : Nat := (s.core.task.map (·.pasid)).getD 0

/-- SPLARV: an arrival with its row (R123), which stays staked until the outcome lands (R233). (DEDUCED: log 82) -/
def execSplarv (d e t : BitVec 6) (x : EAddr) (g : GuardF) (s : State) : Res :=
  guarded g s fun s =>
    let se := s.core.rs e
    let n := (se.extractLsb' 0 6).toNat
    let xa := x.access s.core
    let finish (u : State) (pages : List Stake) (code : Nat) : Res :=
      if s.core.atLimit 5 || stakesFull s pages then hold s .queue
      else
        let (tok, u) := lock u [.s d] (some [.s d (BitVec.ofNat 64 code)]) (some 5)
        stepped (stakeFor (xa.done { u with core := u.core.count 5 1 }) tok pages)
    let s0 := expireDue s s.here n
    let cl := classify s0 s0.here n s.pasid (s.core.rs t).toNat (se.extractLsb' 8 8).toNat
    match cl.1, findSplice s0 s0.here n with
    | 5, _ | _, none => finish s0 [] 5
    | code, some c =>
      withChecked s (checkEngine s .splice ⟨true, false⟩ xa.ea.toNat (c.d * ((afmtTy c.afmt).bits / 8))) fun segs =>
        let (bs, _, s1) := readBytes s.here .splice [] (segAddrs segs) s0
        let bad := bs.any (·.poison)
        finish (takeRow s1 s1.here n cl (bs.map (·.val)) bad) (stakePages s segs) (if code = 0 && bad then 4 else code)

/-! ### Open (R119 to R121) -/

/-- A descriptor's fields. -/
structure SplDesc where
  tbase : Nat
  tcount : Nat
  kk : Nat
  norm : Bool
  tokOrder : Bool
  policy : Nat
  afmt : Nat
  d : Nat
  deadline : Nat
  route : Nat
  rpitch : Nat
  outh : BitVec 8
  fbh : BitVec 8
  status : Nat
deriving DecidableEq, Repr

/-- The descriptor that 64 bytes give, or none when a field is out of range. -/
def parseSplice (b : List Byte) : Option SplDesc :=
  let f := fieldNat b 9 1
  let x : SplDesc := ⟨fieldNat b 0 4, fieldNat b 4 4, fieldNat b 8 1, f.testBit 5, f.testBit 4, f / 4 % 4, f % 4,
    fieldNat b 10 2, fieldNat b 12 4, fieldNat b 16 8, fieldNat b 24 4, BitVec.ofNat 8 (fieldNat b 32 1),
    BitVec.ofNat 8 (fieldNat b 33 1), fieldNat b 40 8⟩
  let local_ := match windowOf x.status (16 * x.tcount) with
    | .loc _ => true
    | _ => false
  if 1 ≤ x.tcount && x.tcount ≤ 8192 && 1 ≤ x.kk && x.kk ≤ 8 && f < 64 && x.policy ≤ 2 && x.afmt ≤ 2 && 1 ≤ x.d &&
    x.d ≤ 8192 && 1 ≤ x.deadline && x.rpitch % 4 == 0 && 4 * x.tcount ≤ x.rpitch && fieldNat b 28 4 == 0 &&
    fieldNat b 34 6 == 0 && fieldNat b 48 16 == 0 && x.status % 16 == 0 && local_
  then some x else none

/-- The planes of the routing table (R120). -/
def SplDesc.planes (x : SplDesc) : List (Nat × Nat) :=
  (List.range (2 * x.kk)).map fun k => (x.route + k * x.rpitch, 4 * x.tcount)

/-- Entry `i` of plane `k` among the bytes read. -/
def SplDesc.word (x : SplDesc) (bs : List Byte) (k i : Nat) : Nat := fieldNat bs (k * 4 * x.tcount + 4 * i) 4

def SplDesc.idsOk (x : SplDesc) (bs : List Byte) : Bool :=
  (List.range x.tcount).all fun i =>
    let ids := (List.range x.kk).map fun k => x.word bs (x.kk + k) i
    ids.all (· < 256) && ids.eraseDups.length == ids.length

/-- Whether the output record is as R119 requires. -/
def SplDesc.outOk (x : SplDesc) (h : Shape) : Bool :=
  h.lay == 0 && h.rank == 2 && h.ext == [x.d, x.tcount, 1, 1, 1] &&
    (h.ty == .f32 || h.ty == .bf16 || h.ty == .f16 || h.ty == .e4m3)

/-- The fallback record: R119's extents and type, with lay 0 and rank 2 as of the output. (DEDUCED: log 86) -/
def SplDesc.fbOk (x : SplDesc) (h : Shape) : Bool :=
  h.lay == 0 && h.rank == 2 && h.ext == [x.d, x.tcount, 1, 1, 1] && h.ty == afmtTy x.afmt

/-- Pages of the store that the context takes (R121). -/
def SplDesc.pages (x : SplDesc) : Nat :=
  x.tcount * ((4 * x.d + (x.kk - 1) * x.d * ((afmtTy x.afmt).bits / 8) + 4095) / 4096)

/-- The splice fault (R121). -/
def spliceTrap (s : State) (n : Nat) : TrapInfo :=
  endTrap s 0x0F (BitVec.ofNat 64 n)

/-- Checks the elements of a record that parses; a record that does not is a fault of a later kind. -/
def checkRecord (s : State) (n : Need) (r : RawRec) : Checked :=
  match r.shape with
  | some h => checkEngines s .splice n (h.rangesOf (List.range h.count))
  | none => .ok []

/-- The shape of a record that passes its test. -/
def RawRec.good (r : RawRec) (f : Shape → Bool) : Option Shape := r.shape.filter f

/-- Slots and pages in use at a die. -/
def spliceUse (s : State) (die : BitVec 2) : Nat × Nat :=
  let l := (s.die die).splices
  ((l.map fun x => x.2.tcount).sum, (l.map fun x => x.2.pages).sum)

/-- A new context. (DEDUCED: log 86) -/
def newContext (s : State) (x : SplDesc) (bs : List Byte) (out : Shape) (fb : Option Shape) (stakes : List Stake) :
    SplCtx where
  id := s.nextId
  owner := s.pasid
  core := s.coreId
  launch := (s.core.task.map (·.launch)).getD 0
  task := s.uid
  wid := s.core.plane.wid
  slot := (s.core.task.map (·.slot)).getD 0
  epoch := (s.epochs[s.coreId]?).getD 0
  tbase := x.tbase
  tcount := x.tcount
  kk := x.kk
  norm := x.norm
  tokOrder := x.tokOrder
  policy := x.policy
  afmt := x.afmt
  d := x.d
  sat := s.core.sat
  deadline := s.time + x.deadline
  gates := (List.range x.tcount).map fun i => (List.range x.kk).map fun k => BitVec.ofNat 32 (x.word bs k i)
  ids := (List.range x.tcount).map fun i => (List.range x.kk).map fun k => BitVec.ofNat 8 (x.word bs (x.kk + k) i)
  outSh := out
  fbSh := fb
  status := x.status - Config.localBase
  tokens := List.replicate x.tcount Token.empty
  held := []
  late := 0
  stray := 0
  dups := 0
  passed := false
  pages := x.pages
  stakes := stakes

/-- SPLOPEN, with the faults in R121's order. `nb` names the guard of the `.nb` form. (DEDUCED: log 61, 85) -/
def openSplice (nb : Option (BitVec 3)) (c : BitVec 6) (x : EAddr) (s : State) : Res :=
  let n := ((s.core.rs c).extractLsb' 0 6).toNat
  let xa := x.access s.core
  let va := xa.ea.toNat
  let answer (s : State) (b : Bool) : State :=
    match nb with
    | some k => (lock s [.g k] (some [.g k b]) none).2
    | none => s
  if va % 64 ≠ 0 then trap s (shapeTrap s va)
  else capture s va 64 fun b s =>
    match parseSplice b with
    | none => trap s (shapeTrap s va)
    | some p =>
      withChecked s (checkEngines s .splice ⟨true, false⟩ p.planes) fun rseg =>
        captureHandles (p.outh :: (if p.policy = 2 then [p.fbh] else [])) s fun raw s =>
          let out := raw.headD ⟨0, 0, none⟩
          let fbs := raw.tail
          withChecked s (checkRecord s ⟨false, true⟩ out) fun oseg =>
            withChecked s (checkAll (checkRecord s ⟨true, false⟩) fbs) fun fseg =>
              let (rs, _, s1) := readBytes s.here .splice [] (segAddrs rseg) s
              match (rs.zip (segBytes rseg)).find? fun y => y.1.poison with
              | some (_, v, pa) => trap s (poisonTrap s v pa 0)
              | none =>
                let bs := rs.map (·.val)
                let stakes := stakePages s (oseg ++ fseg)
                let all := stakePages s (s.caught ++ rseg ++ oseg ++ fseg)
                let need := p.pages
                let (us, up) := spliceUse s s.here
                match p.idsOk bs, out.good p.outOk, fbs.map fun r => r.good p.fbOk with
                | false, _, _ => trap s (shapeTrap s va)
                | true, none, _ => trap s (shapeTrap s out.va)
                | true, some _, [none] => trap s (shapeTrap s ((fbs.map (·.va)).headD 0))
                | true, some oh, fb =>
                  if (findSplice s s.here n).isSome || 8192 < need then trap s (spliceTrap s n)
                  else if 8192 < us + p.tcount || 8192 < up + need then
                    match nb with
                    | some _ => ok (xa.done (answer { s1 with caught := [] } false))
                    | none => hold s .splopen
                  else if stakesFull s all then hold s .queue
                  else
                    let f := (fb.headD none).map fun h => { h with segs := fseg }
                    let s2 := setSplice s1 s1.here n (newContext s1 p bs { oh with segs := oseg } f stakes)
                    ok (xa.done (answer { s2 with nextId := s2.nextId + 1, caught := [] } true))

/-- SPLOPEN without an answer: it freezes until the die has room (R121). (DEDUCED: log 86) -/
def execSplopen (c : BitVec 6) (x : EAddr) (g : GuardF) (s : State) : Res :=
  guarded g s fun s => openSplice none c x s

/-- SPLOPEN_NB (R121): tries to open a splice context without freezing and writes a guard. -/
def execSplopenNb (c : BitVec 6) (k : BitVec 3) (x : EAddr) (g : GuardF) (s : State) : Res :=
  guarded g s fun s => openSplice (some k) c x s

/-! ### Close and status (R128) -/

/-- The context that a command of the active core sees under a number: its own die's, if its PASID owns it. -/
def State.ownSplice (s : State) (n : Nat) : Option SplCtx :=
  (findSplice s s.here n).filter fun x => x.owner == s.pasid

/-- A context leaves its die. (DEDUCED: log 82, 84) -/
def closeSplice (s : State) (die : BitVec 2) (n : Nat) : State := s.mapDie die fun d => { d with splices := kdel d.splices n }

/-- SPLCLOSE (R128). (DEDUCED: log 82) -/
def execSplclose (d c : BitVec 6) (g : GuardF) (s : State) : Res :=
  guarded g s fun s =>
    let n := ((s.core.rs c).extractLsb' 0 6).toNat
    let s := expireDue s s.here n
    match s.ownSplice n with
    | none => stepped (lock s [.s d] (some [.s d 0]) none).2
    | some x => stepped (closeSplice (lock s [.s d] (some [.s d (BitVec.ofNat 64 x.outstanding)]) none).2 s.here n)

/-- SPLSTAT's word. -/
def spliceStat (s : State) (x : SplCtx) (sel : Nat) : Nat :=
  match sel with
  | 0 => (x.tcount - x.outstanding) + x.outstanding * 2 ^ 16 + 2 ^ 32 + if x.passed then 2 ^ 33 else 0
  | 1 => x.late.toNat
  | 2 => x.stray.toNat
  | 3 => x.dups.toNat
  | 4 => x.deadline - s.time
  | _ => 0

/-- SPLSTAT (R128): reads a selected status value of a splice context. -/
def execSplstat (d c : BitVec 6) (sel : BitVec 6) (g : GuardF) (s : State) : Res :=
  guarded g s fun s =>
    let n := ((s.core.rs c).extractLsb' 0 6).toNat
    let s := expireDue s s.here n
    let v := match s.ownSplice n with
      | some x => spliceStat s x sel.toNat
      | none => 0
    stepped (lock s [.s d] (some [.s d (BitVec.ofNat 64 v)]) none).2

/-- The contexts that the task of a core's state has open, at every die. -/
def taskSplices (s : State) (c : CoreState) : List (BitVec 2 × Nat × SplCtx) :=
  allDies.flatMap fun d => ((s.die d).splices.filter fun x => x.2.of c).map fun x => (d, x.1, x.2)

/-- A closure that firmware logs (R127, R346). (DEDUCED: log 87) -/
def closeLogged (s : State) (die : BitVec 2) (n : Nat) (x : SplCtx) : State :=
  let t := { TrapInfo.mk0 0x21 2 0 (BitVec.ofNat 64 x.outstanding) with item := BitVec.ofNat 16 n }
  logEvent (closeSplice s die n) die x.core x.owner x.wid t

/-- When a task ends, its open contexts close as by SPLCLOSE, a deadline that is due taking its place before (R123, R127). -/
def closeTask (s : State) (c : CoreState) : State :=
  (taskSplices s c).foldl (fun s x =>
    let s := expireDue s x.1 x.2.1
    match findSplice s x.1 x.2.1 with
    | some y => closeLogged s x.1 x.2.1 y
    | none => s) s

end Sys2Proof.Machine
end

