-- ==== Sys2Proof/Machine/Network.lean ====
section
/-! DEFINITION. The network: NXWR, NXRD, NXAMO, NXWAIT and NXSTAT (R249 to R253, R369, R370), the paths of entropy values
(R371), and incoming requests (R372). -/

namespace Sys2Proof.Machine

open Sys2Proof

/-! ### Requests for translations (R337) -/

/-- One ATS Translation Request for an asker; a request already in flight serves it too. -/
def askAts (l : List AtsReq) (who : Asker) (r : Nat × Nat × Bool) : List AtsReq :=
  let same (q : AtsReq) : Bool := q.pasid == r.1 && q.page == r.2.1 && q.exec == r.2.2
  if l.any same then l.map fun q => if same q && !q.askers.contains who then { q with askers := q.askers ++ [who] } else q
  else l ++ [⟨r.1, r.2.1, r.2.2, [who]⟩]

/-- Sends ATS Translation Requests for an asker. -/
def addAts (s : State) (d : BitVec 2) (who : Asker) (reqs : List (Nat × Nat × Bool)) : State :=
  if reqs = [] then s else s.mapDie d fun x => { x with ats := reqs.foldl (fun l r => askAts l who r) x.ats }

/-- Whether an asker waits for all of some translations. -/
def asked (s : State) (d : BitVec 2) (who : Asker) (reqs : List (Nat × Nat × Bool)) : Bool :=
  reqs.all fun r => (s.die d).ats.any fun q =>
    q.pasid == r.1 && q.page == r.2.1 && q.exec == r.2.2 && q.askers.contains who

/-- An asker has taken the failures of its requests: none is cached (R337). -/
def forgetAsker (s : State) (d : BitVec 2) (who : Asker) : State :=
  if (s.die d).atsFail.any (·.1 == who) then s.mapDie d fun x => { x with atsFail := x.atsFail.filter (·.1 != who) } else s

/-! ### Partitions' ports -/

/-- The partition that owns a port (R313). -/
def portPart (mode : BitVec 2) (port : Nat) : Nat :=
  match mode with
  | 0#2 => 0
  | 1#2 => port / 64
  | _ => port / 32

/-- The partition of the active agent's die. -/
def State.part (s : State) : Nat := partOfDie s.xd0.mode s.here

/-! ### Descriptors and endpoints (R249, R369, R370) -/

/-- An endpoint entry. -/
structure Endpoint where
  proto : Nat
  tvd   : Nat
  port0 : Nat
  nport : Nat
  rctx  : Nat
deriving DecidableEq, Repr

/-- The entry that 64 bytes give, or none where it breaks R370. -/
def parseEndpoint (mode : BitVec 2) (part : Nat) (b : List Byte) : Option Endpoint :=
  let x : Endpoint := ⟨fieldNat b 0 1, fieldNat b 1 1, fieldNat b 2 1, fieldNat b 3 1, fieldNat b 24 3⟩
  if x.proto ≤ 1 && x.tvd ≤ 3 && 1 ≤ x.nport && x.nport ≤ 32 && fieldNat b 4 4 == 0 && fieldNat b 27 1 == 0 &&
    (x.proto == 1 || fieldNat b 28 4 == 0) && fieldNat b 32 32 == 0 && x.port0 + x.nport ≤ 128 &&
    (List.range x.nport).all fun i => portPart mode (x.port0 + i) == part
  then some x else none

/-- The kinds of network commands. -/
inductive NxKind where
  | wr | rd | amo
deriving DecidableEq, Repr

/-- The message that a descriptor's 32 bytes give, or none where a field lies outside R249's table. (DEDUCED: log 90) -/
def parseMessage (k : NxKind) (off : Nat) (b : List Byte) : Option Message :=
  let aop := fieldNat b 2 1 / 16
  let dlv := fieldNat b 2 1 % 4
  let actr := fieldNat b 6 2
  let rva := fieldNat b 8 8
  let len := fieldNat b 24 4
  let good := fieldNat b 0 2 < 4096 && fieldNat b 2 1 / 4 % 4 == 0 && fieldNat b 3 1 < 64 &&
    (actr < 1024 || actr == 0xFFFF) && fieldNat b 28 4 == 0 &&
    (match k with
      | .amo => aop < 8 && dlv ≤ 1 && len == 8 && rva % 8 == 0
      | _ => aop == 0)
  if good then
    some ⟨off, BitVec.ofNat 12 (fieldNat b 0 2), BitVec.ofNat 4 aop, BitVec.ofNat 2 dlv, BitVec.ofNat 6 (fieldNat b 3 1),
      BitVec.ofNat 16 (fieldNat b 4 2), BitVec.ofNat 16 actr, rva, BitVec.ofNat 64 (fieldNat b 16 8), len, 0, [], 0, 1, []⟩
  else none

/-- What RoCEv2 does not carry (R369). -/
def roceOk (m : Message) : Bool := m.dlv == 0 && m.aop == 0 && m.emask == 1

/-- Reads a range of a table of the active task's context on the network path, as a range of the command: checked against the
task's claims, and staked (R233). (DEDUCED: log 90) -/
def withCtxTable (s : State) (va len : Nat) (k : List Byte → State → Res) : Res :=
  withChecked s (checkEngine s .network ⟨true, false⟩ va len) fun segs =>
    let (bs, _, s1) := readBytes s.here .network [] (segAddrs segs) s
    if bs.any (·.poison) then trap s (poisonTrap s va 0 0)
    else k (bs.map (·.val)) { s1 with caught := s1.caught ++ segs }

/-- Reads the endpoint entry that a message names in the table of the active task's context (R311, R370). (DEDUCED: log 90) -/
def withEndpoint (s : State) (va : Nat) (ep : BitVec 12) (k : Endpoint → State → Res) : Res :=
  match s.context with
  | none => trap s (shapeTrap s va)
  | some c =>
    if c.epn ≤ ep.toNat then trap s (shapeTrap s va)
    else
      withCtxTable s ((c.ept.toNat + 64 * ep.toNat) % 2 ^ 64) 64 fun b s =>
        match parseEndpoint s.xd0.mode s.part b with
        | none => trap s (shapeTrap s va)
        | some e => k e s

/-- The 16 values of an entropy set that its 32 bytes give (R371). -/
def entropyValues (b : List Byte) : List (BitVec 16) :=
  (List.range 16).map fun v => BitVec.ofNat 16 (fieldNat b (2 * v) 2)

/-- Reads the entropy set that a message names in the table of the active task's context (R311, R371). (DEDUCED: log 90) -/
def withEntropy (s : State) (set : BitVec 6) (k : List (BitVec 16) → State → Res) : Res :=
  match s.context with
  | none => k [] s
  | some c => withCtxTable s ((c.est.toNat + 32 * set.toNat) % 2 ^ 64) 32 fun b s => k (entropyValues b) s

/-- The port on which a packet of a message with value `v` leaves (R371). -/
def Message.portOf (m : Message) (v : Nat) : Nat := m.port0 + v % m.nport

/-- The UDP source port of a packet of a message with value `v` (R371). -/
def Message.sourceOf (m : Message) (v : Nat) : BitVec 16 := m.entropy.getD v 0

/-- A network command at its bundle. The descriptor lies in the local window: plain memory takes the shape fault of a bad
descriptor, and another window the access trap (R68). (DEDUCED: log 90) -/
def issueMessage (k : NxKind) (d : Option (BitVec 6)) (x : EAddr) (s : State) : Res :=
  let xa := x.access s.core
  let va := xa.ea.toNat
  if va % 16 ≠ 0 || isController s.coreId then trap s (shapeTrap s va)
  else
  match windowOf va 48 with
  | .loc off =>
    capture s va 32 fun b s =>
      match parseMessage k off b with
      | none => trap s (shapeTrap s va)
      | some m =>
        withEndpoint s va m.ep fun e s =>
          if e.proto = 1 && !roceOk m then trap s (shapeTrap s va)
          else withEntropy s m.eset fun vs s =>
            let m := { m with proto := BitVec.ofNat 2 e.proto, port0 := e.port0, nport := e.nport, entropy := vs }
            let data := match k with
              | .wr => checkEngine s .network ⟨true, false⟩ m.lva.toNat m.len
              | .rd => checkEngine s .network ⟨false, true⟩ m.lva.toNat m.len
              | .amo => .ok []
            withChecked s data fun segs =>
              let m := { m with segs := segs }
              let body := match k with
                | .wr => CmdBody.nxwr m
                | .rd => CmdBody.nxrd m
                | .amo => CmdBody.nxamo m
              submit s .network body segs d id xa.done
  | .plain => trap s (shapeTrap s va)
  | _ => trap s (accessTrap s va)

/-- NXWR (R250): queues a network write message. -/
def execNxwr (x : EAddr) (g : GuardF) (s : State) : Res := guarded g s fun s => issueMessage .wr none x s
/-- NXRD (R250): queues a network read message. -/
def execNxrd (x : EAddr) (g : GuardF) (s : State) : Res := guarded g s fun s => issueMessage .rd none x s
/-- NXAMO (R251): queues a remote 8-byte atomic and returns the old value. -/
def execNxamo (d : BitVec 6) (x : EAddr) (g : GuardF) (s : State) : Res :=
  guarded g s fun s => issueMessage .amo (some d) x s

/-! ### Paths (R253, R371) -/

def PathState.zero : PathState := ⟨0, 0, [], 0, false, 0, 0, 0, 0⟩

def pathKey (part slot ep v : Nat) : Nat := ((64 * part + slot) * 4096 + ep) * 16 + v

def State.path (s : State) (part slot ep v : Nat) : PathState := kget .zero s.paths (pathKey part slot ep v)

def State.mapPath (s : State) (part slot ep v : Nat) (f : PathState → PathState) : State :=
  { s with paths := kput .zero s.paths (pathKey part slot ep v) (f (s.path part slot ep v)) }

/-- The values that a message's packets take in turn: the enabled live ones, or every live value of the set when every
enabled one is dead. A RoCEv2 message does not spray: it keeps the lowest value of the set (R369). -/
def liveValues (s : State) (part slot : Nat) (m : Message) : List Nat :=
  if m.proto = 1 then [0]
  else
  let live := (List.range 16).filter fun v => !(s.path part slot m.ep.toNat v).dead
  let en := live.filter fun v => m.emask == 0 || m.emask.getLsbD v
  if en = [] then live else en

/-- A packet of a message leaves with value `v`: on its port, with the value of the set in its UDP source port (R371).
(DEDUCED: log 128) -/
def sendPacket (s : State) (part slot : Nat) (m : Message) (v : Nat) : State :=
  s.mapPath part slot m.ep.toNat v fun p =>
    { p with inflight := p.inflight + 1, port := m.portOf v, source := m.sourceOf v }

/-- A message's packets leave, each with the next value. (DESIGN CHOICE: log 91) -/
def sendPackets (s : State) (part slot : Nat) (m : Message) : State :=
  let vs := liveValues s part slot m
  if vs = [] then s
  else (List.range (Config.packetCount m.len)).foldl (fun s i => sendPacket s part slot m (vs.getD (i % vs.length) 0)) s

def messageOf (b : CmdBody) : Option (NxKind × Message) :=
  match b with
  | .nxwr m => some (.wr, m)
  | .nxrd m => some (.rd, m)
  | .nxamo m => some (.amo, m)
  | _ => none

/-- The network engine starts a message: it reads the local bytes of an NXWR on the network path, and sends its packets
unless one read uncorrectable (`finished` then says so). -/
def startMessage (s : State) (c : Cmd) (k : NxKind) (m : Message) : State :=
  match k with
  | .wr =>
    let (bs, _, s) := readBytes c.die .network [] (segAddrs m.segs) s
    if bs.any (·.poison) then setCmd s { c with started := true, readDone := true, finished := true }
    else sendPackets (setCmd s { c with started := true, readDone := true }) (partOfDie s.xd0.mode c.die) c.slot m
  | _ => sendPackets (setCmd s { c with started := true }) (partOfDie s.xd0.mode c.die) c.slot m

/-- Messages of one core start in issue order. -/
def messageMayStart (s : State) (c : Cmd) : Bool := (earlier s c).all fun x => x.path != .network || x.started

/-- Overwrites kept bytes of a save slot and sets their granules full. (DEDUCED: log 94) -/
def Save.patch (v : Save) (off : Nat) (bs : List Byte) : Save :=
  let kept (o : Nat) : Bool := v.keep.any fun r => decide (r.1 ≤ o) && decide (o < r.1 + r.2)
  let new := (bs.zipIdx.filter fun b => kept (off + b.2)).map fun b => (⟨off + b.2, b.1, false⟩ : WByte)
  { v with
    bytes := (v.bytes.filter fun w => !(new.any fun n => n.pa == w.pa)) ++ new.filter fun n => n.val != 0
    fe := new.foldl (fun l n => kset l (n.pa / 16) 0) v.fe }

/-- Bytes into the local window of a command's task: into the scratchpad of the core on which it stands, or into its save
slot's kept bytes (R234, R353). (DEDUCED: log 93, 94) -/
def localWrite (s : State) (c : Cmd) (off : Nat) (bs : List Byte) : State :=
  match c.agent s with
  | some a =>
    let ws := bs.zipIdx.map fun b => (⟨spAddr a (off + b.2), b.1, false⟩ : WByte)
    engineWrite s c (ws.map (·.pa)) ws
  | none =>
    let put (v : Nat × Save) : Nat × Save := if c.of v.2.home v.2.core then (v.1, v.2.patch off bs) else v
    s.mapDie c.die fun d => { d with saves := d.saves.map put }

/-- An outcome that a message may report (R250, R251, R256): an acknowledged message has moved all its bytes, and an atomic
answers eight bytes when it succeeds. -/
def outcomeOk (k : NxKind) (m : Message) (outc : BitVec 8) (done : Nat) (data : List Byte) : Bool :=
  (outc == 0 || outc == 1 || outc == 2 || outc == 4) && done ≤ m.len &&
  (match k with
    | .wr => data.isEmpty && (outc != 0 || m.dlv == 3 || done == m.len)
    | .rd => data.length == done && (outc != 0 || m.dlv == 3 || done == m.len)
    | .amo => if outc == 0 || outc == 4 then data.length == 8 && done == 8 else data.isEmpty && done == 0)

/-- A piece of a scratchpad is reached only while a task of the context is resident there (R353). -/
def scratchHeld (s : State) (pasid pa : Nat) : Bool :=
  match regionOf pa with
  | .sp k => (match (s.agent k).task with
    | some t => t.pasid == pasid && (s.agent k).run != .ended
    | none => false)
  | _ => true

/-- Whether a message would write a scratchpad, not its own core's, whose task is not resident (R353). -/
def strays (s : State) (c : Cmd) (m : Message) : Bool :=
  m.segs.any fun g => regionOf g.pa != .sp c.core && !(scratchHeld s c.pasid g.pa && scratchHeld s c.pasid (g.pa + g.len - 1))

/-- Whether a message needs the scratchpad of a die that has been lost (R349): one that has read its source does not. -/
def needsLost (s : State) (c : Cmd) (k : NxKind) (m : Message) : Bool :=
  !(k == .wr && c.started) && m.segs.any fun g =>
    match regionOf g.pa with
    | .sp x => (s.die (dieOf x)).retired
    | _ => false

/-- MESSAGE_COMPLETE: what an NXRD brought is written, then the completion granule, and the command retires. (DEDUCED: log 93, 94) -/
def execMessageComplete (cmd : Nat) (outc : BitVec 8) (done : Nat) (data : List Byte) (s : State) : Res :=
  match findCmd s cmd with
  | none => notEnabled "MESSAGE_COMPLETE"
  | some c0 =>
    match messageOf c0.body with
    | none => notEnabled "MESSAGE_COMPLETE"
    | some (k, m) =>
      if !outcomeOk k m outc done data || !(c0.started || messageMayStart s c0) then notEnabled "MESSAGE_COMPLETE"
      else
        let s := if c0.started then s else startMessage s c0 k m
        let c := (findCmd s cmd).getD c0
        let (outc, done, data) :=
          if needsLost s c0 k m then ((2 : BitVec 8), 0, [])
          else if c.finished then (3, 0, [])
          else if k == .rd && data ≠ [] && strays s c m then (1, 0, [])
          else (outc, done, data)
        let s := match k with
          | .rd =>
            let ws := ((segAddrs m.segs).zip data).map fun x => (⟨x.1, x.2, outc == 4⟩ : WByte)
            engineWrite s c (ws.map (·.pa)) ws
          | _ => s
        let s := localWrite s c (m.desc + 32) (outc :: bytesOfNat 3 0 ++ bytesOfNat 4 done ++ bytesOfNat 8 0)
        let result := match k with
          | .amo => some (BitVec.ofNat 64 (natOfBytes data))
          | _ => none
        stepped (retire s { c with result := result })

/-- A millisecond at 1.3 GHz. (DEDUCED: log 92) -/
def millisecond : Nat := 1300000

/-- Three timeouts in a row on a value mark it dead; only a packet in flight times out. (DEDUCED: log 92) -/
def execRetransmissionTimeout (part : BitVec 2) (slot : BitVec 6) (ep : BitVec 12) (value : BitVec 4) (s : State) : Res :=
  if (s.path part.toNat slot.toNat ep.toNat value.toNat).inflight = 0 then notEnabled "RETRANSMISSION_TIMEOUT"
  else ok (s.mapPath part.toNat slot.toNat ep.toNat value.toNat fun p =>
    { p with
      timeouts := p.timeouts + 1, dead := p.dead || decide (3 ≤ p.timeouts + 1)
      probed := if !p.dead && 3 ≤ p.timeouts + 1 then s.time else p.probed })

/-- A probe leaves on a dead value, on the port and with the source port of its last packet, a millisecond after it died or after
the last probe. (DEDUCED: log 92) -/
def execPathProbe (part : BitVec 2) (slot : BitVec 6) (ep : BitVec 12) (value : BitVec 4) (s : State) : Res :=
  let p := s.path part.toNat slot.toNat ep.toNat value.toNat
  if p.dead && p.probed + millisecond ≤ s.time then
    ok (s.mapPath part.toNat slot.toNat ep.toNat value.toNat fun p =>
      { p with inflight := p.inflight + 1, probed := s.time, probes := p.probes + 1 })
  else notEnabled "PATH_PROBE"

/-- An acknowledgement of a packet in flight, a probe or another: the smoothed round trip is a free value, saturating at 16 bits.
(DEDUCED: log 92) -/
def execPacketAcknowledgement (part : BitVec 2) (slot : BitVec 6) (ep : BitVec 12) (value : BitVec 4) (rtt : Nat)
    (ecn probe : Bool) (s : State) : Res :=
  let p := s.path part.toNat slot.toNat ep.toNat value.toNat
  if p.inflight = 0 || (probe && p.probes = 0) then notEnabled "PACKET_ACKNOWLEDGEMENT"
  else
    let r := min (Config.smoothRtt p.rtt.toNat rtt s.choice) 0xFFFF
    let s := { s with choice := s.choice + 1 }
    ok (s.mapPath part.toNat slot.toNat ep.toNat value.toNat fun p =>
      { p with
        rtt := BitVec.ofNat 16 r, inflight := p.inflight - 1, ecn := (ecn :: p.ecn).take 256, timeouts := 0,
        dead := p.dead && !probe, probes := if probe then p.probes - 1 else p.probes })

/-! ### NXWAIT, NXSTAT (R252, R253) -/

/-- The slot of the active task's context. -/
def State.slot (s : State) : Nat := (s.core.task.map (·.slot)).getD 0

/-- An arrival counter of the issuing die. -/
def State.arrival (s : State) (n : Nat) : BitVec 32 := kget 0 (s.die s.here).active.arr (1024 * s.slot + n)

/-- The wait test of R252 and R328. -/
def reached (counter target : BitVec 32) : Bool := (counter - target).toNat < 2 ^ 31

/-- NXWAIT (R252): waits until an arrival counter reaches a target and joins the counted writes. -/
def execNxwait (c v : BitVec 6) (g : GuardF) (s : State) : Res :=
  guarded g s fun s =>
    let n := (s.core.rs c).toNat
    if 1024 ≤ n then trap s (shapeTrap s n)
    else if !reached (s.arrival n) ((s.core.rs v).setWidth 32) then hold s .nxwait
    else
      let msgs := kget [] (s.die s.here).active.arrMsgs (1024 * s.slot + n)
      stepped (joinCore s ((s.writes.filter fun w => w.path == .network && msgs.contains w.prod).map (·.id)))

/-- The path word of NXSTAT. (DESIGN CHOICE: log 91) -/
def pathWord (p : PathState) : Word :=
  let n := p.ecn.countP id
  let ecn : BitVec 8 := if 256 ≤ n then Config.ecnFull else BitVec.ofNat 8 n
  (0#23 ++ (if p.dead then 1#1 else 0#1) ++ ecn ++ p.inflight ++ p.rtt)

/-- NXSTAT: the state of a path of an endpoint (R253, R371). (DESIGN CHOICE: log 91) -/
def execNxstat (d p : BitVec 6) (g : GuardF) (s : State) : Res :=
  guarded g s fun s =>
    let x := s.core.rs p
    let ep := (x.extractLsb' 0 12).toNat
    if x.extractLsb' 18 46 ≠ 0 then trap s (shapeTrap s x.toNat)
    else
      let (v, s) : Word × State := match x.extractLsb' 16 2 with
        | 0#2 => (pathWord (s.path s.part s.slot ep (x.extractLsb' 12 4).toNat), s)
        | 1#2 => ((s.arrival (x.extractLsb' 0 10).toNat).setWidth 64, s)
        | 2#2 =>
          let c := Config.rcccCredit ep s.choice
          (if c.getLsbD 63 then 0x7FFFFFFFFFFFFFFF else c, { s with choice := s.choice + 1 })
        | _ => (0, s)
      ok (lock s [.s d] (some [.s d v]) none).2

/-! ### Incoming requests (R372) -/

/-- Writes of a message from outside have no issuing core of this package. -/
def noCore : Nat := 1023

/-- The context that a request names in a partition: that of its PASID. (PRESUMED: log 89) -/
def ctxByPasid (s : State) (part pasid : Nat) : Option (Nat × Ctx) :=
  ((partDies s.xd0.mode part).head?).bind fun d => (s.die d).active.ctxs.find? fun x => x.2.pasid == pasid

/-- The claims of a context's launches whose lease is held. -/
def heldClaims (s : State) (part slot : Nat) : List Claim :=
  (partDies s.xd0.mode part).flatMap fun d =>
    ((s.die d).active.launches.filter fun l => l.slot == slot && l.lease.isSome).flatMap (·.claims)

/-- The rows that a write into a splice window covers whole (R122). -/
def wholeRows (off len n : Nat) : List (Nat × Nat) :=
  if n = 0 || len = 0 then []
  else
    (List.range ((off + len - 1) / 2 ^ 28 + 1 - off / 2 ^ 28)).flatMap fun j =>
      let e := off / 2 ^ 28 + j
      let lo := max off (e * 2 ^ 28) - e * 2 ^ 28
      let hi := min (off + len) ((e + 1) * 2 ^ 28) - e * 2 ^ 28
      let i0 := (lo + n - 1) / n
      (List.range (hi / n - i0)).map fun i => (e, i0 + i)

/-- What a request finds at its target. -/
inductive NetTarget where
  | refused
  /-- translations that are missing -/
  | miss (pages : List Nat)
  | rows (die : BitVec 2) (ctx off : Nat)
  | bytes (segs : List Seg)
deriving DecidableEq, Repr

/-- (DEDUCED: log 93) -/
def netTarget (s : State) (die : BitVec 2) (part slot : Nat) (c : Ctx) (n : Need) (va len : Nat) : NetTarget :=
  if len = 0 then .bytes []
  else
    match windowOf va len with
    | .splice v x off =>
      (match boundDie (some c) (BitVec.ofNat 64 v) with
        | some d => if n.r || 2 ^ 36 < off + len then .refused else .rows d x off
        | none => .refused)
    | .plain =>
      if (claimFault (heldClaims s part slot) n va len).isSome then .refused
      else
        (match xlate (s.die die) (cacheOf 0 .network) .network c.pasid n (pieceFuel len) va len with
          | .fail _ _ _ => .refused
          | .miss _ ps => .miss ps
          | .ok segs =>
            if (segsFault { s with coreId := 128 * die.toNat } false segs).isSome ||
              segs.any fun g => !(scratchHeld s c.pasid g.pa && scratchHeld s c.pasid (g.pa + g.len - 1))
            then .refused else .bytes segs)
    | _ => .refused

/-- The operation of a network atomic (R251). -/
def netAmo (op : BitVec 4) : Option AmoOp :=
  match op with
  | 0#4 => some .add | 1#4 => some .min | 2#4 => some .max | 3#4 => some .and
  | 4#4 => some .or | 5#4 => some .xor | 6#4 => some .swap | 7#4 => some .fadd
  | _ => none

/-- A whole message counts at its arrival counter. -/
def countArrival (s : State) (die : BitVec 2) (slot prod : Nat) (r : NetReq) : State :=
  if r.actr.toNat < 1024 && r.whole then
    let key := 1024 * slot + r.actr.toNat
    s.mapDie die fun d =>
      let msgs := (kget [] d.active.arrMsgs key).filter fun p => s.writes.any fun w => w.prod == p
      { d with active := { d.active with
        arr := kput 0 d.active.arr key (kget 0 d.active.arr key + 1)
        arrMsgs := kset d.active.arrMsgs key (msgs ++ [prod]) } }
  else s

/-- A write of network receive: it sets the granules that it writes full, and leaves their tags. -/
def netWrite (s : State) (die : BitVec 2) (prod : Nat) (ws : List WByte) : State :=
  place s die .network noCore 0 prod none (ws.map (·.pa)) ws

/-- The socket of the exchange die that holds a port (R2). -/
def portSocket (port : Nat) : Nat := 12 + port / 64

/-- Whether a message may be applied: in ROD, every earlier one of its flow has been (R250, R372). (DEDUCED: log 93) -/
def flowReady (s : State) (r : NetReq) : Bool :=
  match r.rod with
  | none => true
  | some (f, n) => n == kget 0 s.flows f

/-- A message has been taken, and its flow goes on. (DEDUCED: log 93) -/
def flowNext (s : State) (r : NetReq) : State :=
  match r.rod with
  | none => s
  | some (f, n) => { s with flows := kput 0 s.flows f (n + 1) }

/-- What a network request is answered. -/
def netAnswer (s : State) (bs : Option (List Byte)) (bad : Bool) : State := { s with netOut := bs, netBad := bad }

/-- A request for a die that no route from the port's exchange die reaches: a write is dropped and logged, a read returns
poisoned data (R359). -/
def netUnreachable (s : State) (die : BitVec 2) (r : NetReq) : State :=
  match r.kind with
  | .write => netAnswer (logCheck s die 3 1 (BitVec.ofNat 16 die.toNat) 0) (some []) false
  | .read => netAnswer s (some (List.replicate r.len 0)) true
  | .amo _ => netAnswer s none false

/-- NETWORK_RECEIVE. A request whose translation misses asks for it and is taken when it comes again. (PRESUMED: log 89)
(DEDUCED: log 93) -/
def execNetworkReceive (r : NetReq) (s0 : State) : Res :=
  let part := portPart s0.xd0.mode r.port
  let s := flowNext s0 r
  let refuse : Res := ok (netAnswer s none false)
  if !s.ports.contains r.port || !flowReady s0 r then notEnabled "NETWORK_RECEIVE"
  else
    match ctxByPasid s part r.rctx with
    | none => refuse
    | some (slot, c) =>
      match boundDie (some c) (r.tvd.setWidth 64) with
      | none => refuse
      | some die =>
        let need : Need := match r.kind with
          | .write => ⟨false, true⟩
          | .read => ⟨true, false⟩
          | .amo _ => ⟨true, true⟩
        if !reachable s.links (portSocket r.port) die.toNat then ok (netUnreachable s die r)
        else if (s.die die).urst || c.broken then refuse
        else
          match netTarget s die part slot c need r.rva r.len with
          | .refused => ok (netAnswer (forgetAsker s die .network) none false)
          | .miss ps => ok (addAts s0 die .network (ps.map fun p => (c.pasid, p, false)))
          | .rows d x off =>
            let prod := s.nextId
            let s := netAnswer { s with nextId := s.nextId + 1 } (some []) false
            (match kfind (s.die d).splices x with
              | none => stepped (countArrival s die slot prod r)
              | some sc =>
                let n := sc.d * ((afmtTy sc.afmt).bits / 8)
                let rows := (wholeRows off r.bytes.length n).map fun e =>
                  (⟨0, BitVec.ofNat 6 x, c.pasid, e.1, e.2, (r.bytes.drop (e.1 * 2 ^ 28 + e.2 * n - off)).take n, r.poison⟩ : Row)
                stepped (countArrival (s.mapDie d fun y => { y with rows := y.rows ++ rows }) die slot prod r))
          | .bytes segs =>
            let prod := s.nextId
            let s := { s with nextId := s.nextId + 1 }
            match r.kind with
            | .write =>
              let ws := ((segAddrs segs).zip r.bytes).map fun x => (⟨x.1, x.2, r.poison⟩ : WByte)
              stepped (countArrival (netAnswer (netWrite s die prod ws) (some []) false) die slot prod r)
            | .read =>
              let (bs, _, s) := readBytes die .network [] (segAddrs segs) s
              stepped (countArrival (netAnswer s (some (bs.map (·.val))) (bs.any (·.poison))) die slot prod r)
            | .amo op =>
              match netAmo op with
              | none => refuse
              | some o =>
                if r.rva % 8 ≠ 0 || r.len ≠ 8 then refuse
                else
                  let pas := segAddrs segs
                  let old := pas.map fun pa => if reaches s die pa then homeByte s pa else ⟨0, true, 0, false⟩
                  if old.any (·.poison) then refuse
                  else
                    let v : Word := BitVec.ofNat 64 (natOfBytes (old.map (·.val)))
                    let new := (amoValue o false v (BitVec.ofNat 64 (natOfBytes (r.bytes.take 8)))).1
                    let ws := (pas.zip (bytesOfNat 8 new.toNat)).map fun x => (⟨x.1, x.2, false⟩ : WByte)
                    stepped (countArrival (netAnswer (netWrite s die prod ws) (some (old.map (·.val))) false) die slot prod r)

end Sys2Proof.Machine
end

