-- ==== Sys2Proof/Machine/Launch.lean ====
section
/-! DEFINITION. Launches: the record and its check (R254, R322 to R325, R350), claims and leases (R340), events (R328), the
queues and the placement of gangs (R13 to R16, R329 to R332), and host launches (R326, R327). -/

namespace Sys2Proof.Machine

open Sys2Proof

/-! ### The record (R322, R323, R325) -/

/-- A launch record's fields. -/
structure LaunchRec where
  entry  : Word
  image  : Word
  htab   : Word
  dtab   : Word
  widths : List Nat
  exts   : List Nat
  glev   : Nat
  prio   : Nat
  waits  : List WaitEntry
  sig    : Option (BitVec 8 × Bool)
  claims : List Claim
  /-- a nonzero reserved field -/
  bad    : Bool
deriving DecidableEq, Repr

/-- The extent that a stored field gives: 0 at width 32 stands for 2^32. -/
def storedExtent (w e : Nat) : Nat := if e = 0 && w = 32 then 2 ^ 32 else e

/-- Events and claims: bytes 64 to 255, the last byte read as `last`. -/
def parseTail (b : List Byte) (last : Nat) : List WaitEntry × Option (BitVec 8 × Bool) × List Claim × Bool :=
  let wait (i : Nat) : Option WaitEntry × Bool :=
    let o := 64 + 6 * i
    let v := fieldNat b (o + 1) 1
    (if v % 2 = 1 then some ⟨BitVec.ofNat 8 (fieldNat b o 1), BitVec.ofNat 32 (fieldNat b (o + 2) 4)⟩ else none, 2 ≤ v)
  let ws := (List.range 4).map wait
  let sv := fieldNat b 89 1
  let sig := if sv % 2 = 1 then some (BitVec.ofNat 8 (fieldNat b 88 1), sv.testBit 1) else none
  let claim (i : Nat) : Option Claim × Bool :=
    let o := 96 + 16 * i
    let n := fieldNat b (o + 8) 6
    let r := fieldNat b (o + 14) 1
    let z := if i = 9 then last else fieldNat b (o + 15) 1
    (if n = 0 then none else some ⟨fieldNat b o 8, n, r.testBit 0, r.testBit 1⟩, 4 ≤ r || z != 0 || (n != 0 && r == 0))
  let cs := (List.range 10).map claim
  (ws.filterMap (·.1), sig, cs.filterMap (·.1),
    ws.any (·.2) || 4 ≤ sv || sv == 2 || fieldNat b 90 6 != 0 || cs.any (·.2))

/-- The record that 256 bytes give, or none for a faulty AE3 task count (code 1). -/
def parseLaunch (b : List Byte) : Option LaunchRec :=
  let fmt := fieldNat b 255 1
  let w64 (o : Nat) : Word := BitVec.ofNat 64 (fieldNat b o 8)
  if fmt = 0xA3 then
    let n := fieldNat b 24 4
    let g := fieldNat b 28 1
    if n = 0 || 7 < g || n % 2 ^ g ≠ 0 then none
    else
      let (ws, sg, cs, bad) := parseTail b 0
      some ⟨w64 0, w64 8, w64 16, 0, [g, 32 - g, 0, 0, 0, 0], [2 ^ g, n / 2 ^ g, 1, 1, 1, 1], 1, fieldNat b 29 1, ws, sg, cs,
        bad || fieldNat b 30 34 != 0⟩
  else
    let (ws, sg, cs, bad) := parseTail b fmt
    let widths := fieldsNat b 32 1 6
    let exts := (widths.zip (fieldsNat b 40 4 6)).map fun x => storedExtent x.1 x.2
    some ⟨w64 0, w64 8, w64 16, w64 24, widths, exts, fieldNat b 38 1, fieldNat b 39 1, ws, sg, cs, bad⟩

/-- The conditions of R12. -/
def LaunchRec.fields (r : LaunchRec) : Bool :=
  r.widths.all (· ≤ 32) && decide (r.widths.sum ≤ 64) && (r.widths.zip r.exts).all (fun x => 1 ≤ x.2 && decide (x.2 ≤ 2 ^ x.1)) &&
    r.glev ≤ 6

/-- Gang size, gangs and tasks (R14). -/
def LaunchRec.gsize (r : LaunchRec) : Nat := (r.exts.take r.glev).foldl (· * ·) 1
def Plane.gangs (p : Plane) : Nat := (p.extents.drop p.glev).foldl (· * ·) 1
def Plane.tasks (p : Plane) : Nat := p.extents.foldl (· * ·) 1

/-- The wid of member `m` of gang `g` (R12, R14). -/
def Plane.widOf (p : Plane) (g m : Nat) : Word :=
  let fs := unlinear (p.extents.take p.glev) m ++ unlinear (p.extents.drop p.glev) g
  BitVec.ofNat 64 ((fs.zipIdx.map fun f => f.1 * 2 ^ (p.widths.take f.2).sum).sum)

/-- The virtual die of a context that a die is, and how many are bound. -/
def vdOf (c : Option Ctx) (d : BitVec 2) : Option Nat :=
  (List.range 4).find? fun v => boundDie c (BitVec.ofNat 64 v) == some d
def boundCount (c : Option Ctx) : Nat := ((List.range 4).filter fun v => (boundDie c (BitVec.ofNat 64 v)).isSome).length

/-- The refusal code of a record, the table aside (R324). -/
def recordCode (c : Option Ctx) (d : BitVec 2) (b : List Byte) : Nat × Option LaunchRec :=
  match parseLaunch b with
  | none => (1, none)
  | some r =>
    if !r.fields then (1, none)
    else if 512 < r.gsize || (128 < r.gsize && 128 * boundCount c < r.gsize) || (vdOf c d).isNone then (2, none)
    else if r.bad || 7 < r.prio || r.entry.toNat % 16 ≠ 0 || r.htab.toNat % 2048 ≠ 0 || r.dtab.toNat % 16 ≠ 0 then (3, none)
    else (0, some r)

/-! ### The drain and preload table (R350) -/

/-- What the check of a table finds. -/
inductive TabCheck where
  | ok (spkeep : Nat) (drains : List DrainRange) (preload : List Preload)
  | bad
  | miss (pages : List Nat)
  /-- pages that do not translate -/
  | fail (pages : List Nat)
deriving DecidableEq, Repr

/-- Whether two of a list of ranges overlap. -/
def overlapping : List (Nat × Nat) → Bool
  | [] => false
  | (a, n) :: r => (r.any fun x => decide (a < x.1 + x.2) && decide (x.1 < a + n)) || overlapping r

def drainsOk (l : List DrainRange) : Bool :=
  l.all (fun d => d.lo.toNat < d.hi.toNat && [d.lo, d.hi, d.dpc, d.rpc].all fun x => x.toNat % 16 == 0) &&
    !overlapping (l.map fun d => (d.lo.toNat, d.hi.toNat - d.lo.toNat))

/-- The SRC bytes of each descriptor lie within one claim that grants R. -/
def preloadOk (cs : List Claim) (l : List Preload) : Bool :=
  l.all (fun p => p.off % 16 == 0 && 16 ≤ p.len && p.len % 16 == 0 && decide (p.off + p.len ≤ 2 ^ 20) && p.src % 16 == 0 &&
    cs.any fun c => c.r && decide (c.base ≤ p.src) && decide (p.src + p.len ≤ c.base + c.len)) && !overlapping (l.map fun p => (p.off, p.len))

/-- The pages of a range whose translation failed for a check of a PASID's table. -/
def failedPages (d : DieState) (pasid va len : Nat) : List Nat :=
  ((List.range (pieceFuel len)).map fun i => pageOf va + 4096 * i).filter fun p =>
    decide (p < va + len) && (tlbFind (d.cached schedulerCache) pasid p).isNone && d.atsFail.contains (.table pasid, pasid, p)

/-- What a part of the table reads as, or the outcome of its check; with what the check has then read (R131), and the state
after. -/
abbrev TabRead := Sum (List Byte) TabCheck × List Nat × State

/-- Reads a part of the table on the core path at the enqueueing die, under the claims of the record. (DEDUCED: log 95) -/
def tablePart (s : State) (d : BitVec 2) (pasid : Nat) (own : List Nat) (cs : List Claim) (va len : Nat) : TabRead :=
  let no (x : TabCheck) : TabRead := (.inr x, own, s)
  if (claimFault cs ⟨true, false⟩ va len).isSome then no .bad
  else
    match xlate (s.die d) schedulerCache (.table pasid) pasid ⟨true, false⟩ (pieceFuel len) va len with
    | .miss _ ps => no (.miss ps)
    | .fail _ _ _ =>
      match failedPages (s.die d) pasid va len with
      | [] => no .bad
      | ps => no (.fail ps)
    | .ok segs =>
      if (segsFault { s with coreId := 128 * d.toNat } false segs).isSome then no .bad
      else
        let (bs, seen, s) := readBytes d .core own (segAddrs segs) s
        (if bs.any (·.poison) then .inr .bad else .inl (bs.map (·.val)), seen ++ own, s)

/-- Reads and checks the table of a record (R350); the state after is that of its reads. -/
def checkTable (s : State) (d : BitVec 2) (pasid : Nat) (own : List Nat) (r : LaunchRec) : TabCheck × State :=
  let t := r.dtab.toNat
  if t = 0 then (.ok 0 [] [], s)
  else
    match tablePart s d pasid own r.claims t 16 with
    | (.inr x, _, s) => (x, s)
    | (.inl h, own, s) =>
      let keep := fieldNat h 0 4
      let nent := fieldNat h 4 2
      let npre := fieldNat h 6 2
      if keep % 4096 ≠ 0 || 2 ^ 20 < keep || 256 < nent || 64 < npre || fieldNat h 8 8 ≠ 0 then (.bad, s)
      else
        let n := 32 * nent + 16 * npre
        match tablePart s d pasid own r.claims (t + 16) n with
        | (.inr x, _, s) => (x, s)
        | (.inl b, _, s) =>
          let w64 (o : Nat) : Word := BitVec.ofNat 64 (fieldNat b o 8)
          let ds := (List.range nent).map fun i =>
            (⟨w64 (32 * i), w64 (32 * i + 8), w64 (32 * i + 16), w64 (32 * i + 24)⟩ : DrainRange)
          let ps := (List.range npre).map fun j =>
            let o := 32 * nent + 16 * j
            (⟨fieldNat b o 4, fieldNat b (o + 4) 4, fieldNat b (o + 8) 8⟩ : Preload)
          (if preloadOk r.claims ps then .ok keep (if drainsOk ds then ds else []) ps else .bad, s)

/-! ### Requests for pages (R337, R340) -/

/-- Requests a page: a first time, or again after a retry that failed. -/
def askPage (l : List PageReq) (p : Nat) : List PageReq :=
  if l.any fun q => q.page == p then
    l.map fun q => if q.page = p && !q.pending then { q with count := q.count + 1, pending := true } else q
  else l ++ [⟨p, 1, true⟩]

/-- Whether a page has failed for good: its last request, the eighth, was answered and the retry failed. -/
def pageDead (l : List PageReq) (p : Nat) : Bool := l.any fun q => q.page == p && !q.pending && 8 ≤ q.count

/-- The page requests of a PASID's launch checks at a die. -/
def DieState.reqsOf (d : DieState) (pasid : Nat) : List PageReq := (d.prqs.filter fun q => q.1 == pasid).map (·.2)

/-- The page requests of a partition's function that are outstanding, those of launches that a SWAP has moved out among them; it
may have 512 (R365). -/
def pageRequests (s : State) (part : Nat) : Nat :=
  ((partDies s.xd0.mode part).map fun d =>
    let x := s.die d
    (x.prqs.filter fun q => q.2.pending).length +
      ((x.active.launches ++ x.shadow.launches).map fun l => (l.pri.filter (·.pending)).length).sum).sum

def mayAskPage (s : State) (d : BitVec 2) : Bool :=
  let part := partOfDie s.xd0.mode d
  decide (pageRequests s part < 512)

/-- Sends a page request of a launch check, unless the function has all of its requests outstanding. -/
def addPri1 (pasid : Nat) (d : BitVec 2) (s : State) (p : Nat) : State :=
  if mayAskPage s d then
    s.mapDie d fun x => { x with prqs :=
      (x.prqs.filter fun q => q.1 != pasid) ++ (askPage (x.reqsOf pasid) p).map fun q => (pasid, q) }
  else s

def addPri (s : State) (d : BitVec 2) (pasid : Nat) (pages : List Nat) : State := pages.foldl (addPri1 pasid d) s

/-- The requests of a check have served their purpose. -/
def endPri (s : State) (d : BitVec 2) (pasid : Nat) : State :=
  (forgetAsker s d (.table pasid)).mapDie d fun x => { x with prqs := x.prqs.filter fun q => q.1 != pasid }

/-! ### Events (R328) -/

def State.setEvent (s : State) (part slot : Nat) (ev : BitVec 8) (x : EvCtr) : State :=
  { s with events := kput .zero s.events (eventKey part slot ev.toNat) x }

/-- Whether a claim overlaps a range. -/
def Claim.overlaps (c : Claim) (base len : Nat) : Bool := decide (c.base < base + len) && decide (base < c.base + c.len)

/-- Whether every wait entry of a launch is satisfied. (DEDUCED: log 97) -/
def waitsMet (s : State) (part : Nat) (l : Launch) : Bool := l.waits.all fun w => reached (s.event part l.slot w.ev).val w.tgt

def mapLaunch (s : State) (d : BitVec 2) (id : Nat) (f : Launch → Launch) : State :=
  let upd (l : Launch) : Launch := if l.id = id then f l else l
  s.mapDie d fun x => { x with active := { x.active with launches := x.active.launches.map upd } }

/-- Whether a running REVOKE of a partition takes a launch's claims back (R343). -/
def revoked (s : State) (part : Nat) (l : Launch) : Bool :=
  match s.xd0.revoke, s.xd0.queue.head? with
  | some (slot, base, len), some (.mailbox p _ _) => p.toNat == part && l.slot == slot && l.claims.any fun c => c.overlaps base len
  | _, _ => false

/-- A launch is eligible while its claims are resident and its waits are satisfied; at each time that it becomes so it acquires
the signals that its counters have counted (R328, R329). A REVOKE leaves it not eligible (R343). (DEDUCED: log 95) -/
def refreshDie (s : State) (d : BitVec 2) : State :=
  let part := partOfDie s.xd0.mode d
  let upd (l : Launch) : Launch :=
    let good := l.lease.isSome && !l.cancelled && waitsMet s part l && !revoked s part l
    if good && !l.eligible then
      let new := (l.waits.flatMap fun w => (s.event part l.slot w.ev).rels).filter fun r => !l.sigs.contains r
      { l with eligible := true, since := s.time, sigs := l.sigs ++ new }
    else { l with eligible := good }
  s.mapDie d fun x => { x with active := { x.active with launches := x.active.launches.map upd } }

/-- Every die judges its launches anew (R329). (DEDUCED: log 95) -/
def refresh (s : State) : State := allDies.foldl refreshDie s

/-- The address of an offset in the launch page of a slot on a die (R326). -/
def pageAddr (die : BitVec 2) (slot : BitVec 6) (off : Nat) : Nat :=
  die.toNat * blockSize + 0x40000 + 0x1000 * slot.toNat + off

/-- Whether a function's BAR0 answers at all: it is not dormant, its interface is not in ERROR, and in RUN the request came over
its selective IDE stream (R364, R366). (DEDUCED: log 116) -/
def barOpen (s : State) (p : BitVec 2) (ide : Bool) : Bool :=
  (s.pf p).active && (s.pf p).tdi != .error && (ide || (s.pf p).tdi != .run)

/-- What a BAR0 request is answered. -/
def barAnswer (s : State) (x : Option (List (Byte × Bool))) : State :=
  { s with bar0 := x.map fun l => l.map (·.1), bar0Bad := (x.getD []).any (·.2) }

/-- A host write to an address of a partition's launch pages, through its function's BAR0: an Unsupported Request where that does
not answer (R364, R366), dropped and logged where no route from XD0 leads there (R359). (DEDUCED: log 51) -/
def hostWrite (s : State) (part a : Nat) (f : State → State) : Res :=
  ok (if !barOpen s (pfOf part) true then barAnswer s none else if linked s hostSocket a then f s else hostDropped s a)

/-- EVENT_COUNTER_SET (R326): A host write sets an event counter. (DEDUCED: log 116) -/
def execEventCounterSet (die : BitVec 2) (slot : BitVec 6) (ev : BitVec 8) (val : BitVec 32) (s : State) : Res :=
  let p := partOfDie s.xd0.mode die
  hostWrite s p (pageAddr die slot (0x400 + 4 * ev.toNat)) fun s =>
    refresh (s.setEvent p slot.toNat ev { s.event p slot.toNat ev with val := val })

/-- EVENT_ADD (R326): A host write to an add port adds to an event counter. -/
def execEventAdd (die : BitVec 2) (slot : BitVec 6) (ev : BitVec 8) (val : BitVec 32) (s : State) : Res :=
  let p := partOfDie s.xd0.mode die
  let x := s.event p slot.toNat ev
  hostWrite s p (pageAddr die slot (0x800 + 4 * ev.toNat)) fun s =>
    refresh (s.setEvent p slot.toNat ev { x with val := x.val + val })

/-! ### Enqueueing (R329) -/

/-- Launches that count against a die's 4,096: those with gangs still to place. -/
def queuedLaunches (d : DieState) : Nat := (d.active.launches.filter fun l => l.placed < l.plane.gangs).length

/-- A launch joins a die's queue (R329). (DEDUCED: log 95) -/
def enqueueLaunch (s : State) (d : BitVec 2) (slot pasid : Nat) (r : LaunchRec) (keep : Nat) (drains : List DrainRange)
    (preload : List Preload) (rels : List Release) : State :=
  let plane : Plane := ⟨r.entry, r.image, r.htab, r.dtab, 0, r.widths, r.exts, r.glev, 0, r.gsize, 0, preload, drains, keep⟩
  let l : Launch := ⟨s.nextId, slot, pasid, r.prio, plane, r.claims, r.waits, r.sig, none, [], false, 0, 0, 0, 0, [], [], false,
    rels, [], [], []⟩
  let s := s.mapDie d fun x => { x with active := { x.active with launches := x.active.launches ++ [l] } }
  { s with nextId := s.nextId + 1 }

/-- LAUNCH captures its record as it stands; the release, the check and the enqueueing follow the bundle (R157, R254).
(DEDUCED: log 25) -/
def execLaunch (d : BitVec 6) (x : EAddr) (g : GuardF) (s : State) : Res :=
  guarded g s fun s =>
    let xa := x.access s.core
    let va := xa.ea.toNat
    let go (rec : Option (List Byte)) (pages : List Stake) (s : State) : Res :=
      let (tok, s) := lock s [.s d] none none
      let s := stakeFor (xa.done s) tok pages
      ok { s with core := { s.core with after := s.core.after ++ [.launch tok rec] }, caught := [] }
    if va % 64 ≠ 0 then go none [] s
    else capture s va 256 fun b s =>
      let pages := stakePages s s.caught
      if stakesFull s pages then hold s .queue else go (some b) pages s

/-- What the wait of a LAUNCH comes to: it waits on, or the scheduler has answered it. -/
inductive Waited where
  | waits (s : State)
  | over (s : State)

/-- The wait of LAUNCH: its release is made once R132 allows it and the die has a place, and the record is then enqueued or
refused; a check that needs pages waits for them (R254, R324, R329, R350). (DEDUCED: log 25) -/
def wakeLaunch (s : State) (tok : Nat) (rec : Option (List Byte)) : Waited :=
  let d := s.here
  let p := s.pasid
  let finish (s : State) (f : Release → State → State) (code : Nat) : Waited :=
    let (r, s) := releaseNow s .package
    let s := f r s
    .over (settle { s with core :=
      { s.core.answer tok (BitVec.ofNat 64 code) with after := s.core.after.erase (.launch tok rec) } })
  if !releaseReady s .package tok || 4096 ≤ queuedLaunches (s.die d) then .waits s
  else
    match (rec.map (recordCode s.context d)).getD (3, none) with
    | (0, some r) =>
      match checkTable s d p s.core.own r with
      | (.bad, s) => finish (endPri s d p) (fun _ s => s) 3
      | (.miss ps, s) => .waits (addAts s d (.table p) (ps.map fun v => (p, v, false)))
      | (.fail ps, s) =>
        if ps.any (pageDead ((s.die d).reqsOf p)) then finish (endPri s d p) (fun _ s => s) 3 else .waits (addPri s d p ps)
      | (.ok keep drains preload, s) =>
        finish (endPri s d p) (fun rel s => refresh (enqueueLaunch s d s.slot p r keep drains preload [rel])) 0
    | (code, _) => finish s (fun _ s => s) code

/-! ### Host launches (R326, R327) -/

def State.setPage (s : State) (d : BitVec 2) (slot : Nat) (p : LaunchPage) : State :=
  s.mapDie d fun x => { x with pages := kset x.pages slot p }

/-- Sets CODE, which is the outcome of the window's latest record. -/
def setCode (s : State) (d : BitVec 2) (slot : Nat) (seq : BitVec 16) (code : Nat) : State :=
  if (s.page d slot).seq = seq then s.setPage d slot { s.page d slot with code := BitVec.ofNat 8 code } else s

/-- A host record is checked, and enqueued or refused; a check that waits for pages leaves 0xFF. -/
def takeRecord (s : State) (d : BitVec 2) (slot : Nat) (seq : BitVec 16) (b : List Byte) : State :=
  let code (s : State) (n : Nat) : State := setCode s d slot seq n
  match kfind (s.die d).active.ctxs slot with
  | none => code s 5
  | some c =>
    if c.broken then code s 5
    else if 4096 ≤ queuedLaunches (s.die d) then code s 4
    else
      match recordCode (some c) d b with
      | (0, some r) =>
        let later (s : State) : State := code (s.mapDie d fun x => { x with checks := x.checks ++ [⟨slot, seq, b⟩] }) 0xFF
        (match checkTable s d c.pasid [] r with
          | (.bad, s) => code (endPri s d c.pasid) 3
          | (.miss ps, s) => later (addAts s d (.table c.pasid) (ps.map fun p => (c.pasid, p, false)))
          | (.fail ps, s) =>
            if ps.any (pageDead ((s.die d).reqsOf c.pasid)) then code (endPri s d c.pasid) 3
            else later (addPri s d c.pasid ps)
          | (.ok keep drains preload, s) =>
            code (refresh (enqueueLaunch (endPri s d c.pasid) d slot c.pasid r keep drains preload [])) 0)
      | (n, _) => code s n

/-- Takes up the checks that wait, in order. -/
def recheck (s : State) (d : BitVec 2) : State :=
  let cs := (s.die d).checks
  let s := s.mapDie d fun x => { x with checks := [] }
  cs.foldl (fun s c => takeRecord s d c.slot c.seq c.bytes) s

/-- Whether a SWAP of a partition runs (R317). -/
def swapping (s : State) (part : Nat) : Bool :=
  s.xd0.busy && s.xd0.revoke.isNone && (match s.xd0.queue.head? with
    | some (.mailbox p _ _) => p.toNat == part
    | _ => false)

/-- HOST_LAUNCH: the write of window bytes 0xC0 to 0xFF lands. During a SWAP it is held. (DEDUCED: log 116) -/
def execHostLaunch (die : BitVec 2) (slot : BitVec 6) (tail : List Byte) (s : State) : Res :=
  let part := partOfDie s.xd0.mode die
  if swapping s part || tail.length ≠ 64 then notEnabled "HOST_LAUNCH"
  else
    let p := s.page die slot.toNat
    let b := p.window.take 192 ++ tail
    hostWrite s part (pageAddr die slot 0xC0) fun s =>
      takeRecord (s.setPage die slot.toNat { p with window := b, seq := p.seq + 1 }) die slot.toNat (p.seq + 1) b

/-! ### Claim residency (R340) -/

/-- The parts of a claim that lie outside the reserved windows (R47): nothing in a window is translated, so residency asks
for no page there. (DEDUCED: log 96) -/
def claimParts (c : Claim) : List (Nat × Nat) :=
  [(0, Config.spliceBase), (Config.spliceEnd, Config.mcastBase), (Config.localBase + Config.localSize, 2 ^ 64)].filterMap
    fun (lo, hi) =>
      let a := max c.base lo
      let b := min (c.base + c.len) hi
      if a < b then some (a, b - a) else none

/-- The translations of a launch's claims that a residency has found: those that it holds from before, and those that the
scheduler's caches hold now (R337, R340). -/
def foundPages (d : DieState) (l : Launch) : List TlbEntry :=
  let mine (e : TlbEntry) : Bool := e.pasid == l.pasid &&
    (l.claims.flatMap claimParts).any fun p => decide (p.1 < e.va + e.size) && decide (e.va < p.1 + p.2)
  l.found ++ (d.cached schedulerCache).filter fun e => mine e && !l.found.contains e

/-- A die's caches with what a residency has found. (DEDUCED: log 96) -/
def withFound (d : DieState) (l : Launch) : DieState := { d with tlb := l.found ++ d.tlb }

/-- The ranges of a launch's claims, translated at its die: the pages, or what is missing. (DEDUCED: log 96) -/
def claimPages (d : DieState) (l : Launch) : Checked :=
  checkAll (fun (p : Nat × Nat) =>
    match xlate (withFound d l) schedulerCache (.lease l.id) l.pasid ⟨false, false⟩ (pieceFuel p.2) p.1 p.2 with
    | .ok segs => .ok segs
    | .miss _ ps => .miss (ps.map fun q => (l.pasid, q, false))
    | .fail _ v _ => .bad (TrapInfo.mk0 0x14 1 0 (BitVec.ofNat 64 (pageOf v)))) (l.claims.flatMap claimParts)

/-- Removes a launch from its die's list. -/
def dropLaunch (s : State) (d : BitVec 2) (id : Nat) : State :=
  s.mapDie d fun x => { x with active := { x.active with launches := x.active.launches.filter fun l => l.id != id } }

/-! ### Gangs, and the cancelling of launches -/

def mapGang (s : State) (t : Task) (f : Gang → Gang) : State :=
  let upd (g : Gang) : Gang := if g.launch = t.launch && g.index = t.gang then f g else g
  s.mapDie t.home fun x => { x with active := { x.active with gangs := x.active.gangs.map upd } }

def findGang (s : State) (t : Task) : Option Gang :=
  (s.die t.home).active.gangs.find? fun g => g.launch == t.launch && g.index == t.gang

/-- The gang of a task in either bank of its home die, while its launch is there: a SWAP moves both (R317). (DEDUCED: log 99) -/
def heldGang (s : State) (t : Task) : Option Gang :=
  let find (b : Bank) : Option Gang :=
    if b.launches.any fun l => l.id == t.launch then b.gangs.find? fun g => g.launch == t.launch && g.index == t.gang else none
  (find (s.die t.home).active).or (find (s.die t.home).shadow)

def findLaunch (s : State) (d : BitVec 2) (id : Nat) : Option Launch := (s.die d).active.launches.find? fun l => l.id == id

/-- Whether every task that a launch will run has ended. -/
def Launch.over (l : Launch) : Bool :=
  l.ended == if l.cancelled then l.placed * l.plane.gsize else l.plane.tasks

/-- The gangs of a launch that hold no core and have no member left go. (DEDUCED: log 102) -/
def sweepGangs (s : State) (d : BitVec 2) (id : Nat) : State :=
  s.mapDie d fun x => { x with active := { x.active with
    gangs := x.active.gangs.filter fun g => g.launch != id || g.left != 0 || g.cores != [] } }

/-- A launch all of whose tasks have ended leaves its die. (DEDUCED: log 102) -/
def dropOver (s : State) (d : BitVec 2) (id : Nat) : State :=
  match findLaunch s d id with
  | some l => if l.over then dropLaunch s d id else s
  | none => s

/-- The saved tasks of a launch will not resume: they count as ended, and their splice contexts close (R127). (DEDUCED: log 101) -/
def discardSaves (s : State) (d : BitVec 2) (l : Launch) : State :=
  let mine (v : Save) : Bool := v.core.task.any fun t => t.launch == l.id && t.home == d
  let drop (s : State) (e : BitVec 2) : State :=
    ((s.die e).saves.filter fun v => mine v.2).foldl (fun s v =>
      let s := closeTask (s.mapDie e fun x => { x with saves := kdel x.saves v.1 }) v.2.core
      match v.2.core.task with
      | some t =>
        let s := mapGang s t fun g => { g with left := g.left - 1 }
        mapLaunch s d l.id fun l => { l with ended := l.ended + 1 }
      | none => s) s
  mapLaunch (sweepGangs (allDies.foldl drop s) d l.id) d l.id fun l => { l with drained := [] }

/-- A launch is cancelled, with a record of the die (R346): no further task of it starts, its saved tasks are given up, and its
signal does not fire. (DEDUCED: log 101) -/
def cancelRunning (s : State) (d : BitVec 2) (l : Launch) (t : TrapInfo) : State :=
  let s := logEvent s d 0xFFFF l.pasid 0 t
  let s := mapLaunch s d l.id fun l => { l with cancelled := true }
  dropOver (discardSaves s d l) d l.id

/-- A launch whose claims do not become resident is cancelled, also one that was drained (R340, R343, R346). (DEDUCED: log 101) -/
def cancelLaunch (s : State) (d : BitVec 2) (l : Launch) (cause : Cause) (sub : Nat) (info1 : Word) : State :=
  cancelRunning s d l { TrapInfo.mk0 cause 1 0 info1 with sub := BitVec.ofNat 8 sub }

/-- CLAIM_RESIDENCY (R340): the scheduler translates and stakes a launch's claims into a lease. What it has found of the claims it
keeps until the lease stands, so that a lease may take more pages than a cache has entries. (DEDUCED: log 96) -/
def execClaimResidency (die : BitVec 2) (launch : Nat) (s : State) : Res :=
  let part := partOfDie s.xd0.mode die
  let asks (l : Launch) : Bool := l.id == launch && l.lease.isNone && !l.cancelled && !revoked s part l && !swapping s part
  match (s.die die).active.launches.find? asks with
  | none => notEnabled "CLAIM_RESIDENCY"
  | some l =>
    let found := foundPages (s.die die) l
    match claimPages (s.die die) l with
    | .ok segs =>
      let pages := pagesOf (withFound (s.die die) l) l.pasid segs
      if stakeEntries < stakesUsed s die + pages.length then notEnabled "CLAIM_RESIDENCY"
      else
        let s := forgetAsker s die (.lease launch)
        ok (refresh (mapLaunch s die launch fun l => { l with lease := some pages, held := segs, pri := [], found := [] }))
    | .miss reqs =>
      if asked s die (.lease launch) reqs && found == l.found then notEnabled "CLAIM_RESIDENCY"
      else ok (mapLaunch (addAts s die (.lease launch) reqs) die launch fun l => { l with found := found })
    | .bad t =>
      let p := t.info1.toNat
      if pageDead l.pri p then ok (cancelLaunch (forgetAsker s die (.lease launch)) die l 0x14 2 t.info1)
      else if (l.pri.any fun q => q.page == p && q.pending) || !mayAskPage s die then notEnabled "CLAIM_RESIDENCY"
      else ok (mapLaunch s die launch fun l => { l with pri := askPage l.pri p })

/-- The answer to a page request: Success leads to a retry of the translation. -/
def answerPage (l : List PageReq) (p : Nat) (success : Bool) : List PageReq :=
  l.map fun q => if q.page = p then { q with pending := false, count := if success then q.count else 8 } else q

/-- The failed translation is forgotten and asked for again. -/
def retryPage (s : State) (d : BitVec 2) (who : Asker) (pasid p : Nat) : State :=
  addAts (s.mapDie d fun x => { x with atsFail := x.atsFail.filter (· != (who, pasid, p)) }) d who [(pasid, p, false)]

/-- PAGE_RESPONSE to a launch's request, or, where no launch of that number waits, to one of a record's check. -/
def execPageResponse (die : BitVec 2) (launch : Nat) (page : Nat) (success : Bool) (s : State) : Res :=
  let waiting (q : PageReq) : Bool := q.page == page && q.pending
  match (s.die die).active.launches.find? fun l => l.id == launch && l.pri.any waiting with
  | some l =>
    if success then
      ok (retryPage (mapLaunch s die launch fun l => { l with pri := answerPage l.pri page true }) die (.lease launch) l.pasid page)
    else ok (cancelLaunch (forgetAsker s die (.lease launch)) die l 0x14 2 (BitVec.ofNat 64 page))
  | none =>
    match (s.die die).prqs.find? fun q => waiting q.2 with
    | none => notEnabled "PAGE_RESPONSE"
    | some (pasid, _) =>
      let upd (q : Nat × PageReq) : Nat × PageReq :=
        if q.1 = pasid && q.2.page = page then
          (q.1, { q.2 with pending := false, count := if success then q.2.count else 8 }) else q
      let s := s.mapDie die fun x => { x with prqs := x.prqs.map upd }
      ok (recheck (if success then retryPage s die (.table pasid) pasid page else s) die)

/-! ### ATS (R337, R338, R342) -/

/-- The range sizes that ATS returns. -/
def atsSizes : List Nat := [4096, 65536, 2097152, 1073741824, 2147483648]

/-- Puts an entry into a cache of `n` entries, in place of one of the same page; of more the oldest leaves.
(DESIGN CHOICE: log 138) -/
def cacheEntry (n : Nat) (l : List TlbEntry) (e : TlbEntry) : List TlbEntry :=
  let l := (l.filter fun x => !(x.pasid == e.pasid && x.va == e.va && x.size == e.size)) ++ [e]
  l.drop (l.length - n)

/-- How many entries a cache above the shared one holds (R337). -/
def cacheSize (cache : Nat) : Nat := if cache < 128 then 64 else 256

/-- An entry of the shared cache refills the cache of a core or an engine (R337). (DESIGN CHOICE: log 138) -/
def refillCache (s : State) (die : BitVec 2) (cache : Nat) (e : TlbEntry) : Option State :=
  let d := s.die die
  if cache ≤ schedulerCache && d.tlb.contains e then
    some (s.setDie die { d with upper := kset d.upper cache (cacheEntry (cacheSize cache) (kget [] d.upper cache) e) })
  else none

/-- The physical key of a bus address: in the window of BAR0 an offset into the device, elsewhere host memory (R44).
(DESIGN CHOICE: log 139) -/
def busKey (s : State) (part addr : Nat) : Nat :=
  let b := (s.pf (pfOf part)).bar0
  if b ≤ addr && addr < b + 2 ^ 40 then addr - b else Config.hostSpace + addr

/-- The answer to a request enters the caches, or counts as a failure for whoever asked: R = W = 0 is one whatever X (R337), and a
fetch needs Execute permission. (DESIGN CHOICE: log 138) -/
def DieState.atsAnswer (x : DieState) (q : AtsReq) (e : TlbEntry) : DieState :=
  let x := { x with ats := x.ats.erase q }
  let x := if e.r || e.w then { x with tlb := cacheEntry 8192 x.tlb e } else x
  if q.exec && e.x && (e.r || e.w) then { x with icache := cacheEntry 8192 x.icache e }
  else if q.exec || !(e.r || e.w) then { x with atsFail := x.atsFail ++ q.askers.map fun a => (a, q.pasid, q.page) }
  else x

/-- ATS_COMPLETION: the answer to a request in flight. (DESIGN CHOICE: log 138, 139) -/
def execAtsCompletion (die : BitVec 2) (r : AtsReply) (s : State) : Res :=
  let covers (q : AtsReq) : Bool := q.pasid == r.pasid && decide (r.va ≤ q.page) && decide (q.page < r.va + r.size)
  if !(atsSizes.contains r.size) || r.va % r.size ≠ 0 || r.addr % r.size ≠ 0 then notEnabled "ATS_COMPLETION"
  else
    match (s.die die).ats.find? covers with
    | none => notEnabled "ATS_COMPLETION"
    | some q =>
      let e : TlbEntry := ⟨r.pasid, r.va, r.size, busKey s (partOfDie s.xd0.mode die) r.addr, r.r, r.w, r.x⟩
      ok (recheck (s.mapDie die fun x => x.atsAnswer q e) die)

/-- Whether a translation overlaps a range of a PASID (R342). (DEDUCED: log 100) -/
def TlbEntry.meets (e : TlbEntry) (pasid va size : Nat) : Bool :=
  e.pasid == pasid && decide (e.va < va + size) && decide (va < e.va + e.size)

/-- The accesses in flight of an agent that use one of some physical ranges. -/
def usesOf (ranges : List (Nat × Nat)) (k : Nat) (c : CoreState) : List (Nat × Nat × Nat) :=
  let hit (pa : Nat) : Bool := ranges.any fun r => decide (r.1 ≤ pa) && decide (pa < r.1 + r.2)
  let inst := (c.task.map (·.inst)).getD 0
  ((c.loads.filter fun e => e.todo.any fun b => hit b.2.1).map fun e => (k, inst, e.tok)) ++
    (c.sq.filter fun e => e.bytes.any fun b => hit b.pa).map fun e => (k, inst, e.seq)

/-- The largest range that an ATS invalidation may name (R365). -/
def invalLimit : Nat := 2 ^ 31

/-- ATS_INVALIDATION: every overlapping entry of every die leaves the caches. (DEDUCED: log 100) -/
def execAtsInvalidation (pasid va size : Nat) (s : State) : Res :=
  if invalLimit < size then notEnabled "ATS_INVALIDATION" else
  let gone := allDies.flatMap fun d => ((s.die d).translations.filter fun e => e.meets pasid va size).map fun e => (e.pa, e.size)
  let uses := ((s.coreId, s.core) :: s.parked).flatMap fun a =>
    if (a.2.task.map (·.pasid)) == some pasid then usesOf gone a.1 a.2 else []
  let left (l : List TlbEntry) : List TlbEntry := l.filter fun e => !e.meets pasid va size
  let unfound (b : Bank) : Bank := { b with launches := b.launches.map fun l => { l with found := left l.found } }
  let s := allDies.foldl (fun s d => s.mapDie d fun x =>
    { x.forget (·.meets pasid va size) with icache := left x.icache, active := unfound x.active, shadow := unfound x.shadow }) s
  ok { s with invals := s.invals ++ [⟨pasid, va, size, uses⟩] }

/-- Whether a stake's page meets a range of a PASID. -/
def Stake.meets (p : Stake) (pasid va size : Nat) : Bool :=
  p.pasid == pasid && decide (p.va < va + size) && decide (va < p.va + p.size)

/-- Every stake in force. -/
def allStakes (s : State) : List Stake :=
  s.cmds.flatMap (·.pages) ++ s.agents.flatMap (·.2.stakes) ++ allDies.flatMap fun d =>
    let x := s.die d
    (x.active.launches ++ x.shadow.launches).flatMap (fun l => l.lease.getD []) ++ x.splices.flatMap fun c => c.2.stakes

/-- Whether an access has performed. -/
def performed (s : State) (u : Nat × Nat × Nat) : Bool :=
  let c := s.agent u.1
  (c.task.map (·.inst)).getD 0 != u.2.1 || ((c.loads.all fun e => e.tok != u.2.2) && c.sq.all fun e => e.seq != u.2.2)

/-- INVALIDATION_COMPLETION: the oldest request whose accesses have performed and whose pages hold no stake. (DEDUCED: log 100) -/
def execInvalidationCompletion (s : State) : Res :=
  let done (i : Inval) : Bool := !((allStakes s).any fun p => p.meets i.pasid i.va i.size) && i.uses.all (performed s)
  match s.invals.find? done with
  | none => notEnabled "INVALIDATION_COMPLETION"
  | some i => ok { s with invals := s.invals.erase i }

/-! ### Placement (R330 to R332) -/

def drainedMember (v : Save) (l : Launch) (g : Nat) : Bool :=
  match v.core.task with
  | some t => t.launch == l.id && t.gang == g
  | none => false

/-- The saved members of a drained gang, in member order: die, save slot and save. -/
def savedMembers (s : State) (l : Launch) (g : Nat) : List (BitVec 2 × Nat × Save) :=
  let all := allDies.flatMap fun d => ((s.die d).saves.filter fun v => drainedMember v.2 l g).map fun v => (d, v.1, v.2)
  all.foldl (fun acc x =>
    let lo := acc.takeWhile fun y => y.2.2.core.plane.member ≤ x.2.2.core.plane.member
    lo ++ x :: acc.drop lo.length) []

/-- The next gang of a launch: the lowest drained one, or the next new one. -/
def nextGang (l : Launch) : Option (Nat × Bool) :=
  let new := if l.placed < l.plane.gangs && !l.cancelled then some l.placed else none
  match l.drained, new with
  | [], none => none
  | [], some n => some (n, false)
  | d :: r, _ => some (r.foldl min d, true)

/-- The dies on which the members of a gang go, one for each member in order. -/
def memberDies (s : State) (home : BitVec 2) (l : Launch) (g : Nat) (drained : Bool) : List (BitVec 2) :=
  if drained then (savedMembers s l g).map (·.1)
  else
    let c := kfind (s.die home).active.ctxs l.slot
    (List.range l.plane.gsize).map fun m =>
      if l.plane.gsize ≤ 128 then home else (boundDie c (BitVec.ofNat 64 (m / 128))).getD home

/-- A core that the scheduler may take: returned, zeroed, and promised to no gang. -/
def freeCore (s : State) (k : Nat) : Bool :=
  let c := s.agent k
  c.run == .free && c.task.isNone && c.shadow.isNone && !(s.die (dieOf k)).crst

def freeCores (s : State) (d : BitVec 2) : List Nat :=
  ((List.range 128).map fun i => 128 * d.toNat + i).filter (freeCore s)

/-- Whether a gang whose members go on the given dies fits when `free` lists the free cores of each die; a small gang, of 16
members at most, needs them in one cluster. -/
def fits (small : Bool) (ds : List (BitVec 2)) (free : BitVec 2 → List Nat) : Bool :=
  ds.eraseDups.all fun d =>
    let n := (ds.filter (· == d)).length
    if small then (List.range 8).any fun c => n ≤ ((free d).filter fun k => clusterOf k == 8 * d.toNat + c).length
    else n ≤ (free d).length

/-- Whether the cores named are a placement: free, each once, on the members' dies, a small gang in one cluster. -/
def goodCores (s : State) (small : Bool) (ds : List (BitVec 2)) (cores : List Nat) : Bool :=
  cores.map dieOf == ds && cores.all (fun k => k < 512 && freeCore s k) && cores.eraseDups.length == cores.length &&
    (!small || (cores.map clusterOf).eraseDups.length ≤ 1)

/-- A launch that waits for the placement of its next gang: the die that holds it, whether the gang was drained, and the die of
each member that needs a core. -/
structure Waiting where
  die     : BitVec 2
  l       : Launch
  gang    : Nat
  drained : Bool
  needs   : List (BitVec 2)

/-- R332 goes by the size of the whole gang, however many of its members are left. -/
def Waiting.small (w : Waiting) : Bool := w.l.plane.gsize ≤ 16

def Waiting.fits (s : State) (w : Waiting) : Bool := Machine.fits w.small w.needs (freeCores s)

/-- The eligible launches of a die with gangs to place, oldest first. -/
def waitingAt (s : State) (d : BitVec 2) : List Waiting :=
  (s.die d).active.launches.filterMap fun l =>
    match l.eligible, nextGang l with
    | true, some (g, dr) => some ⟨d, l, g, dr, memberDies s d l g dr⟩
    | _, _ => none

/-- The same of every die of a partition. -/
def waitingIn (s : State) (part : Nat) : List Waiting := (partDies s.xd0.mode part).flatMap (waitingAt s)

def Waiting.meets (w x : Waiting) : Bool := w.l.id != x.l.id && w.needs.any x.needs.contains

/-- R331: a launch that has been passed over 64 times keeps the dies that it needs from others of its class and below; of two
such of one class the older goes first. -/
def Waiting.blocks (w x : Waiting) : Bool :=
  64 ≤ w.l.bypass && w.meets x &&
    (x.l.prio < w.l.prio || (x.l.prio == w.l.prio && (x.l.bypass < 64 || w.l.id < x.l.id)))

/-- The launch of a die whose gang goes next: class 7 first, and the oldest that fits first within a class. -/
def chooseLaunch (s : State) (d : BitVec 2) : Option Waiting :=
  let all := waitingIn s (partOfDie s.xd0.mode d)
  let mine := waitingAt s d
  ((List.range 8).reverse.flatMap fun p => mine.filter fun w => w.l.prio == p).find? fun x =>
    x.fits s && !all.any fun w => w.blocks x

/-- A launch's bypass count after the gang of `x` has been placed: it rises for an older launch of the class that was passed
over, for want of room or of leave, on a die that it needs (R331). -/
def bypassed (s : State) (x : Waiting) (all : List Waiting) (t : State) (w : Waiting) : State :=
  if w.l.id < x.l.id && w.l.prio == x.l.prio && w.meets x && (!w.fits s || all.any fun b => b.blocks w) then
    mapLaunch t w.die w.l.id fun l => { l with bypass := l.bypass + 1 }
  else t

/-- The issue rate of an agent: its die's, or, in a gang, the lowest of the members' dies (R17, R332). (DEDUCED: log 119) -/
def rateOf (s : State) (k : Nat) (c : CoreState) : BitVec 5 :=
  let own := s.xd0.rates.get (dieOf k).toFin
  let t : Option Task := match c.task with
    | some t => some t
    | none => c.shadow.map (·.2)
  match t with
  | none => own
  | some t =>
    match (s.die t.home).active.gangs.find? fun g => g.launch == t.launch && g.index == t.gang with
    | some g =>
      (g.cores.map fun k => s.xd0.rates.get (dieOf k).toFin).foldl (fun r x => if x.toNat < r.toNat then x else r) own
    | none => own

/-- Sets every agent's issue rate anew. (DEDUCED: log 119) -/
def setRates (s : State) : State :=
  { s with
    core := { s.core with rate := rateOf s s.coreId s.core }
    parked := s.parked.map fun a => (a.1, { a.2 with rate := rateOf s a.1 a.2 }) }

/-- Gives a core its next task, in the shadow plane. -/
def promise (s : State) (k : Nat) (p : Plane) (t : Task) : State := s.mapAgent k fun c => { c with shadow := some (p, t) }

/-- Places a new gang. -/
def placeGang (s : State) (d : BitVec 2) (l : Launch) (g : Nat) (cores : List Nat) : State :=
  let lead := cores.headD 0
  let ctx := kfind (s.die d).active.ctxs l.slot
  let put (s : State) (x : Nat × Nat) : State :=
    let p := { l.plane with wid := l.plane.widOf g x.2, member := x.2, bar := lead }
    let t : Task := ⟨l.id, g, d, lead, s.nextId, s.nextId, l.slot, l.pasid, (vdOf ctx (dieOf x.1)).getD 0, l.claims⟩
    promise { s with nextId := s.nextId + 1 } x.1 p t
  let s := cores.zipIdx.foldl put s
  let s := s.mapDie d fun x => { x with active := { x.active with
    gangs := x.active.gangs ++ [⟨l.id, g, cores, cores.length, false, []⟩] } }
  mapLaunch s d l.id fun l => { l with placed := l.placed + 1, bypass := 0 }

/-- The core that holds the barrier records of a gang which is placed again: that of the member whose core held them, else the
core of member 0, which is held for the gang (R16). (DEDUCED: log 146) -/
def newLead (s : State) (l : Launch) (g : Nat) (ms : List ((BitVec 2 × Nat × Save) × Nat)) : Nat :=
  let leads (x : (BitVec 2 × Nat × Save) × Nat) : Bool := x.1.2.2.core.task.any fun t => t.lead == x.1.2.2.home
  let held (k : Nat) : Bool := (s.agent k).run == .ended && (s.agent k).task.any fun t => t.launch == l.id && t.gang == g
  match ms.find? leads, (ms.head?.bind fun x => x.1.2.2.core.task.map (·.lead)) with
  | some x, _ => x.2
  | none, some k => if held k then k else (ms.head?.map (·.2)).getD 0
  | none, none => (ms.head?.map (·.2)).getD 0

/-- Places a drained gang again: its barrier records go to its lead (R353). (DEDUCED: log 146) -/
def replaceGang (s : State) (d : BitVec 2) (l : Launch) (g : Nat) (cores : List Nat) : State :=
  let ms := savedMembers s l g
  let lead := newLead s l g (ms.zip cores)
  let put (s : State) (x : (BitVec 2 × Nat × Save) × Nat) : State :=
    let v := x.1.2.2
    match v.core.task with
    | some t => promise { s with nextId := s.nextId + 1 } x.2 { v.core.plane with bar := lead } { t with lead := lead, inst := s.nextId }
    | none => s
  let s := (ms.zip cores).foldl put s
  let mine (x : Gang) : Bool := x.launch == l.id && x.index == g
  let bars : List (Nat × BarRec) := (((s.die d).active.gangs.find? mine).map fun (x : Gang) => x.bars).getD []
  let s := { s with bars := bars.foldl (fun l (b : Nat × BarRec) => kset l (1024 * lead + b.1) b.2) s.bars }
  let upd (x : Gang) : Gang := if mine x then { x with cores := x.cores ++ cores, bars := [] } else x
  let s := s.mapDie d fun x => { x with active := { x.active with gangs := x.active.gangs.map upd } }
  mapLaunch s d l.id fun l => { l with drained := l.drained.filter (· != g), bypass := 0 }

/-- GANG_PLACEMENT (R330): the scheduler places the next gang of the chosen eligible launch whole. -/
def execGangPlacement (die : BitVec 2) (cores : List Nat) (s : State) : Res :=
  match chooseLaunch s die with
  | none => notEnabled "GANG_PLACEMENT"
  | some x =>
    if !goodCores s x.small x.needs cores then notEnabled "GANG_PLACEMENT"
    else
      let all := waitingIn s (partOfDie s.xd0.mode die)
      let t := all.foldl (bypassed s x all) s
      ok (setRates (if x.drained then replaceGang t die x.l x.gang cores else placeGang t die x.l x.gang cores))

/-! ### Planes (R334) -/

/-- The plane that a loader's data is. -/
def planeOf (p : PlaneData) : Plane :=
  { entry := p.entry, image := p.image, htab := p.htab, dtab := p.dtab, wid := p.wid, widths := p.widths, extents := p.extents
    glev := p.glev, member := p.member, gsize := p.gsize, bar := p.bar
    preload := p.preload.map fun x => ⟨x.1, x.2.1, x.2.2⟩
    drains := p.drains.map fun x => ⟨x.1, x.2.1, x.2.2.1, x.2.2.2⟩
    spkeep := p.spkeep }

/-- The two central arrays of an attention pair, of which a die has 16: its score array and its value array (R3).
(DESIGN CHOICE: log 145) -/
def pairArrays (p : BitVec 4) : List (BitVec 5) := [p.setWidth 5 <<< 1, p.setWidth 5 <<< 1 ||| 1]

/-- Whether central array `a` runs piece `k` of a command: an ATTN runs on one attention pair (R3), any other piece on one array or
more. Which ones is not visible to programs (R71). (DESIGN CHOICE: log 145) -/
def runsPiece (a : BitVec 5) (c : Cmd) (k : Nat) : Bool :=
  match c.body with
  | .attn _ => (pairArrays (Config.attentionPair c.id)).contains a
  | _ => (Config.centralArrays c.id k).1 == a || (Config.centralArrays c.id k).2.getLsbD a.toNat

/-- Whether the sequencer of a central array of a die runs: a piece that the array runs has begun and has not ended (R334).
(DESIGN CHOICE: log 145) -/
def centralBusy (s : State) (d : BitVec 2) (a : BitVec 5) : Bool :=
  s.cmds.any fun c => dieOf c.core == d && c.pieces.zipIdx.any fun p =>
    p.1.site == .central && p.1.started && p.1.out.isNone && runsPiece a c p.2

/-- Bytes written into a microprogram store. -/
def storeMicro (m : List Host.Cell) (bs : List (Nat × Byte)) : List Host.Cell := bs.foldl (fun l b => kput 0 l b.1 b.2) m

/-- A loader's write. One that names the active plane of a core, or the microprogram store of a sequencer that runs, is dropped,
and the loader answers so. (DEDUCED: log 98) -/
def execPlaneWrite (core : Nat) (plane : PlaneSel) (p : PlaneData) (s : State) : Res :=
  match plane with
  | .active => ok { s with dropped := true }
  | .shadow => ok { s.mapAgent core (fun c => match c.shadow with
      | some (_, t) => { c with shadow := some (planeOf p, t) }
      | none => { c with spare := planeOf p }) with dropped := false }
  | .micro a =>
    if centralBusy s (dieOf core) a then ok { s with dropped := true }
    else ok { s.mapDie (dieOf core) (fun x => { x with micro := x.micro.set a.toNat (storeMicro (x.micro.get a.toFin) p.micro) a.isLt })
      with dropped := false }

/-! ### The latency bound (R333) -/

/-- A partition's latency bound, in units of 100 ns. -/
def latencyBound (s : State) (part : Nat) : Nat :=
  if part = 0 then s.xd0.lat0.toNat else ((s.xd0.mailboxes[part]?.map fun m => m.lat.toNat % 65536).getD 0)

/-- Requests a drain of an agent's task (R351). -/
def requestDrain (s : State) (k : Nat) : State :=
  s.mapAgent k fun c => if c.drainReq.isSome || c.drainRpc.isSome then c else { c with drainReq := some s.time }

/-- Running gangs of a partition that a launch of class `p` may pre-empt, first victim first. -/
def victims (s : State) (part p : Nat) : List (Launch × Gang) :=
  let all := (partDies s.xd0.mode part).flatMap fun d =>
    (s.die d).active.launches.flatMap fun l => ((s.die d).active.gangs.filter fun g => g.launch == l.id).map fun g => (l, g)
  let before (x y : Launch × Gang) : Bool :=
    x.1.prio < y.1.prio || (x.1.prio == y.1.prio && (y.1.id < x.1.id || (x.1.id == y.1.id && y.2.index < x.2.index)))
  let insert (acc : List (Launch × Gang)) (x : Launch × Gang) : List (Launch × Gang) :=
    let lo := acc.takeWhile fun y => !before x y
    lo ++ x :: acc.drop lo.length
  (all.filter fun x => x.1.prio < p && x.2.cores ≠ []).foldl insert []

/-- Whether a gang's drain has been requested. -/
def draining (s : State) (g : Gang) : Bool := g.cores.any fun k => (s.agent k).drainReq.isSome || (s.agent k).drainRpc.isSome

/-- The gangs to drain so that the launch's next gang fits, or none where the class below does not suffice. -/
def pickVictims (small : Bool) (ds : List (BitVec 2)) (free : BitVec 2 → List Nat) (acc : List Gang) : List (Launch × Gang) → Option (List Gang)
  | [] => if fits small ds free then some acc else none
  | x :: r =>
    if fits small ds free then some acc
    else
      pickVictims small ds (fun d => free d ++ x.2.cores.filter fun k => dieOf k == d)
        (if x.2.cores.any fun k => ds.contains (dieOf k) then acc ++ [x.2] else acc) r

/-- Save slots of a die that are taken, or promised to a drain in progress; that of a task which was resumed within its stub is
free from the resume (R355). -/
def slotsUsed (s : State) (d : BitVec 2) : Nat :=
  (s.die d).saves.length + ((List.range 128).filter fun i =>
    let c := s.agent (128 * d.toNat + i)
    c.drainReq.isSome || (c.drainRpc.isSome && !c.stay)).length

/-- LATENCY_BOUND (R333): an eligible launch waits past the latency bound and lower gangs are pre-empted. -/
def execLatencyBound (die : BitVec 2) (launch : Nat) (s : State) : Res :=
  let part := partOfDie s.xd0.mode die
  let t := latencyBound s part
  match (s.die die).active.launches.find? fun l => l.id == launch && l.eligible with
  | none => notEnabled "LATENCY_BOUND"
  | some l =>
    match nextGang l with
    | none => notEnabled "LATENCY_BOUND"
    | some (g, dr) =>
      let ds := memberDies s die l g dr
      let small : Bool := l.plane.gsize ≤ 16
      let vs := victims s part l.prio
      let going := vs.filter fun x => draining s x.2
      let free (d : BitVec 2) : List Nat := freeCores s d ++ going.flatMap fun x => x.2.cores.filter fun k => dieOf k == d
      if t = 0 || s.time ≤ l.since + 130 * t || fits small ds free then notEnabled "LATENCY_BOUND"
      else
        match pickVictims small ds free [] (vs.filter fun x => !draining s x.2) with
        | none => notEnabled "LATENCY_BOUND"
        | some gs =>
          let ks := gs.flatMap (·.cores)
          if allDies.any fun d => (ks.filter fun k => dieOf k == d) ≠ [] &&
            512 < slotsUsed s d + (ks.filter fun k => dieOf k == d).length then notEnabled "LATENCY_BOUND"
          else ok (ks.foldl requestDrain s)

end Sys2Proof.Machine
end

