-- ==== Sys2Proof/Machine/Task.lean ====
section
/-! DEFINITION. A task on its core: its start (R6, R20, R36, R49, R137, R334), its end and the core's return (R11, R16, R21,
R50, R179), drains and saves (R180, R351 to R355). -/

namespace Sys2Proof.Machine

open Sys2Proof

/-! ### Zeroing (R50) -/

/-- Whether a physical address lies in a core's scratchpad. -/
def inSp (k pa : Nat) : Bool := decide (spAddr k 0 ≤ pa) && decide (pa < spAddr k 0 + Config.localSize)

/-- Zeroes a core's scratchpad, with its poison marks and writer tags (R50). -/
def wipeBytes (s : State) (k : Nat) : State :=
  let keep (pa : Nat) : Bool := !inSp k pa
  { s with
    mem := s.mem.filter fun c => keep c.1
    poison := s.poison.filter keep
    baseRel := s.baseRel.filter fun r => keep r.1
    writes := s.writes.map fun w => { w with bytes := w.bytes.filter fun b => keep b.pa }
    tags := s.tags.filter fun g => keep (16 * g.1) }

/-- Zeroes a core's scratchpad and returns its barrier records to idle (R50). Its full-empty bits stay: they empty when the core
is dispatched (R49). -/
def wipeStores (s : State) (k : Nat) : State :=
  { wipeBytes s k with bars := s.bars.filter fun b => b.1 / 1024 != k }

/-- What a core has observed, and its planes, outlast its tasks (R129, R334). -/
def CoreState.outlasting (c n : CoreState) : CoreState := { n with obs := c.obs, own := c.own, plane := c.plane, spare := c.spare }

/-- A core returns to the scheduler, zeroed. (DEDUCED: log 57) -/
def wipeCore (s : State) (k : Nat) : State :=
  let c := s.agent k
  let s := forgetAsker (forgetAsker s (dieOf k) (.core k)) (dieOf k) (.fetch k)
  (wipeStores s k).setAgent k (c.outlasting { CoreState.fresh .free with rate := s.xd0.rates.get (dieOf k).toFin })

/-! ### Gangs -/

/-- A launch's last task has ended: its signal fires unless it was cancelled, and its lease is dropped (R21, R328, R340).
(DEDUCED: log 101) -/
def finishLaunch (s : State) (d : BitVec 2) (l : Launch) : State :=
  let part := partOfDie s.xd0.mode d
  let s := dropLaunch s d l.id
  let s := match l.sig, l.cancelled with
    | some (ev, notify), false =>
      let x := s.event part l.slot ev
      let s := s.setEvent part l.slot ev ⟨x.val + 1, x.rels ++ l.done⟩
      if notify then raiseVector s (pfOf part) (16 + l.slot) else s
    | _, _ => s
  refresh s

/-- A core has left a gang: a gang that has members left and no core any more waits to be placed again (R333). -/
def gangLeft (s : State) (t : Task) : State :=
  match findGang s t with
  | some g =>
    if g.cores = [] && 0 < g.left then mapLaunch s t.home t.launch fun l => { l with drained := l.drained ++ [t.gang] } else s
  | none => s

/-- A task of a launch has ended, with its release. -/
def taskEnded (s : State) (t : Task) (k : Nat) (r : Release) : State :=
  let s := gangLeft (mapGang s t fun g => { g with left := g.left - 1, cores := g.cores.filter (· != k) }) t
  let s := mapLaunch s t.home t.launch fun l => { l with ended := l.ended + 1, done := l.done ++ [r] }
  match findLaunch s t.home t.launch with
  | some l => if l.over then finishLaunch s t.home l else s
  | none => s

/-! ### The start (R334) -/

/-- S at launch (R36). -/
def launchSeed (wid : Word) : BitVec 32 :=
  let x := wid.extractLsb' 0 32 ^^^ wid.extractLsb' 32 32 ^^^ 0x2C5D91B3#32
  if x = 0 then 1 else x

/-- seen at dispatch (R137). (DEDUCED: log 140) -/
def seenAtStart (s : State) : Vector Word 512 := s.epochs.map fun e => e - 1

/-- Bytes that appear in a scratchpad, by local-window offset: a preload, or the bytes of a save. They are later than every store
that came before (R49, R355). -/
def pokeScratch (s : State) (k : Nat) (bs : List WByte) : State := pokeBytes s (bs.map fun b => { b with pa := spAddr k b.pa })

/-- The preload's bytes, by local-window offset, or the translations that are missing, or the trap of a source that the task may
not reach: control space, a hole of the map, or memory of another partition (R308, R313); the state after is that of the reads.
(DEDUCED: log 98) -/
def preloadBytes (s : State) (pasid : Nat) (ps : List Preload) : Checked × List WByte × State :=
  let x := checkAll (fun (p : Preload) =>
    match xlate (s.die s.here) (cacheOf s.coreId .core) (.core s.coreId) pasid ⟨true, false⟩ (pieceFuel p.len) p.src p.len with
    | .ok segs => segsChecked s false segs 0 (.ok segs)
    | .miss segs qs => segsChecked s false segs 0 (.miss (qs.map fun q => (pasid, q, false)))
    | .fail segs v pa => segsChecked s false segs 0 (.bad (claimTrap s 2 v pa 0))) ps
  match x with
  | .ok segs =>
    let (bs, _, s) := readBytes s.here .core [] (segAddrs segs) s
    let offs := ps.flatMap fun p => (List.range p.len).map fun i => p.off + i
    (x, (offs.zip bs).map fun y => ⟨y.1, y.2.val, y.2.poison⟩, s)
  | _ => (x, [], s)

/-- The task's first state on its core (R6, R36, R137, R176): the plane that was active becomes the shadow plane (R334), and a
drain that has been requested of the gang stands (R351). (DEDUCED: log 98, 107) -/
def firstState (s : State) (c : CoreState) (p : Plane) (t : Task) : CoreState :=
  { CoreState.fresh .running with
    pc := align16 p.entry, plane := p, spare := c.plane, task := some t, rsst := launchSeed p.wid, seen := seenAtStart s
    rate := c.rate, obs := c.obs, own := c.own, drainReq := c.drainReq }

/-- A core's scratchpad has every full-empty bit empty (R49). -/
def emptyScratch (s : State) (k : Nat) : State :=
  { s with
    fe := s.fe.filter fun g => !inSp k (16 * g.1)
    writes := s.writes.map fun w => { w with full := w.full.filter fun pa => !inSp k pa } }

/-- The package-scope acquires of a task's start (R20, R21); a signal's release carries writes of every path, which are
joined to the core path. (DEDUCED: log 97) -/
def startAcquires (s : State) (l : Launch) : State :=
  let s := (l.rels ++ l.sigs).foldl (acquire .package) s
  let ids := l.sigs.flatMap (·.obs)
  joinAt s s.here [.core] fun w => ids.contains w.id

/-- Whether the core's promised task waits in a save slot (R355). -/
def resumes (s : State) (p : Plane) (t : Task) : Bool :=
  (s.die s.here).saves.any fun v => match v.2.core.task with
    | some u => u.launch == t.launch && u.gang == t.gang && v.2.core.plane.wid == p.wid
    | none => false

/-- TOGGLE_TOKEN: the shadow plane becomes active on a core that holds no task, the preload runs, and the first bundle is
the one at ENTRY. (DEDUCED: log 98) -/
def execToggleToken (s : State) : Res :=
  match s.core.shadow with
  | none => notEnabled "TOGGLE_TOKEN"
  | some (p, t) =>
    if s.core.run ≠ .free || s.core.task.isSome || resumes s p t then notEnabled "TOGGLE_TOKEN"
    else
      let s1 := { emptyScratch s s.coreId with core := firstState s s.core p t }
      let s1 := match findLaunch s1 t.home t.launch with
        | some l => startAcquires s1 l
        | none => s1
      match preloadBytes s1 t.pasid p.preload with
      | (.miss reqs, _, _) =>
        if asked s s.here (.core s.coreId) reqs then notEnabled "TOGGLE_TOKEN" else ok (addAts s s.here (.core s.coreId) reqs)
      | (.bad e, _, _) => stepped (deferTrap (forgetAsker s1 s.here (.core s.coreId)) e)
      | (.ok _, bs, s1) =>
        let s2 := pokeScratch s1 s.coreId bs
        stepped { s2 with fe := bs.foldl (fun l b => kset l (granule (spAddr s.coreId b.pa)) 0) s2.fe }

/-! ### The end (R11, R21, R179) -/

/-- Lands every exposed write still due, in due order (R53). -/
def landAll (s : State) : State := (s.core.pend.foldl (fun l p => sinsert l p.due) []).foldl landDue s

/-- The waits that END and the saves share. (DEDUCED: log 99, 130) -/
def CoreState.quiet (c : CoreState) : Bool :=
  c.locks.isEmpty && c.loads.isEmpty && !c.chains && c.sq.isEmpty && c.mcast.isEmpty && c.arrivals.isEmpty &&
    c.deferred.isNone

/-- The writes that the active core's task has made, on every path. (DEDUCED: log 87) -/
def taskWrites (s : State) : List Nat := (s.writes.filter fun w => s.owns w.task w.core).map (·.id)

/-- The active core's task ends: a package-scope release of all its writes, its splice contexts close, and the core waits to
be returned. (DEDUCED: log 87) -/
def endTask (s : State) : State :=
  let s := landAll s
  let s := { s with core := { s.core with obs := (taskWrites s).foldl sinsert s.core.obs } }
  let (r, s) := releaseNow s .package
  let s := closeTask s s.core
  let k := s.coreId
  let s := match s.core.task with
    | some t => taskEnded s t k r
    | none => s
  { s with core := { s.core with run := .ended, drainReq := none, drainRpc := none, stay := false, jump := none, post := none } }

/-- TASK_END: the end of a task whose END waited (R179). (DEDUCED: log 99) -/
def execTaskEnd (s : State) : Res :=
  if s.core.run ≠ .ending || s.core.after ≠ [] || !s.core.quiet || !(landAll s).core.countersZero ||
    !allArrived s ((taskWrites s).foldl sinsert s.core.obs) then notEnabled "TASK_END"
  else stepped (endTask s)

/-- Engine commands of the task on a core that have not retired, SPLARV outcomes that have not landed, and accesses that have
issued and not performed. -/
def commandsLeft (s : State) : Bool :=
  (s.cmds.any fun c => c.of s.coreId s.core) || (s.core.locks.any fun l => l.counts.isSome) || !s.core.sq.isEmpty ||
    !s.core.mcast.isEmpty || !s.core.loads.isEmpty || !s.core.arrivals.isEmpty

/-- The gang of a task is left by its last member, in whichever bank it stands. (DEDUCED: log 99) -/
def dropGang (s : State) (t : Task) : State :=
  let drop (b : Bank) : Bank := { b with gangs := b.gangs.filter fun g => !(g.launch == t.launch && g.index == t.gang) }
  s.mapDie t.home fun x => { x with active := drop x.active, shadow := drop x.shadow }

/-- CORE_RETURN (R16, R50): the core of member 0 stays held until the last member of its gang has ended, over a SWAP too.
(DEDUCED: log 99) -/
def execCoreReturn (s : State) : Res :=
  if s.core.run ≠ .ended || commandsLeft s then notEnabled "CORE_RETURN"
  else
    match s.core.task with
    | none => stepped (wipeCore s s.coreId)
    | some t =>
      if t.lead == s.coreId && (heldGang s t).any fun g => 0 < g.left then notEnabled "CORE_RETURN"
      else stepped (wipeCore (if t.lead = s.coreId then dropGang s t else s) s.coreId)

/-! ### Diversion (R351) -/

/-- The drain range that holds an address. -/
def drainRange (c : CoreState) : Option DrainRange :=
  c.plane.drains.find? fun r => r.lo.toNat ≤ c.pc.toNat && c.pc.toNat < r.hi.toNat

/-- 4 µs at 1.3 GHz. -/
def graceCycles : Nat := 5200

/-- Whether the grace of a drain has run out, so that the core freezes for its full save. -/
def graceOver (s : State) (c : CoreState) : Bool :=
  match c.drainReq with
  | some t => decide (t + graceCycles ≤ s.time)
  | none => false

/-- The stub that the active core diverts to at its next issue: while a drain is requested, is not in progress, and its 4 µs have
not run out. (DEDUCED: log 56) -/
def diversionOf (s : State) : Option DrainRange :=
  let c := s.core
  if c.run == .running && c.after == [] && c.drainReq.isSome && c.drainRpc.isNone && !graceOver s c then drainRange c else none

/-- The bundle at DPC issues in place of P; bits [3:0] of a PC are zero (R140). -/
def diverted (c : CoreState) (r : DrainRange) : CoreState := { c with dpc := c.pc, pc := align16 r.dpc, drainRpc := some r.rpc }

/-- The diversion of the active core; the suspension record takes RPC. (DEDUCED: log 56) -/
def divert (s : State) (r : DrainRange) : State :=
  noteSuspension { s with core := diverted s.core r } s.coreId s.core s.core.pc r.rpc 1 0

/-- DIVERSION (R351): A drained member's next issue in a drain range diverts to the stub. -/
def execDiversion (s : State) : Res :=
  match diversionOf s with
  | none => notEnabled "DIVERSION"
  | some r => ok (divert s r)

/-! ### Saves (R353, R354) -/

/-- The region of a configured sump (R255). -/
def Sump.region (x : Sump) : Option (Nat × Nat) :=
  if x.cfg then some (x.base.toNat, x.cap.toNat * (x.tl.toNat + 1) * x.w.toNat) else none

/-- The scratchpad ranges that a drain keeps. -/
def keepRanges (c : CoreState) (full : Bool) : List (Nat × Nat) :=
  if full then [(0, Config.localSize)] else (0, c.plane.spkeep) :: c.sumps.toList.filterMap Sump.region

def inRanges (l : List (Nat × Nat)) (o : Nat) : Bool := l.any fun r => decide (r.1 ≤ o) && decide (o < r.1 + r.2)

/-- The bytes of a scratchpad in some ranges that are not 0 or are poisoned, by offset. -/
def keptBytes (s : State) (k : Nat) (l : List (Nat × Nat)) : List WByte :=
  let pas := s.mem.map (·.1) ++ s.poison ++ s.writes.flatMap fun w => w.bytes.map (·.pa)
  let offs := (pas.filter fun pa => inSp k pa && inRanges l (pa - spAddr k 0)).foldl (fun a pa => sinsert a (pa - spAddr k 0)) []
  (offs.map fun o => let b := homeByte s (spAddr k o); (⟨o, b.val, b.poison⟩ : WByte)).filter fun b => b.val != 0 || b.poison

/-- The full granules of a scratchpad in some ranges, by offset div 16. -/
def keptFull (s : State) (k : Nat) (l : List (Nat × Nat)) : List (Nat × Nat) :=
  (s.fe.filter fun g => inSp k (16 * g.1) && inRanges l (16 * g.1 - spAddr k 0)).map fun g => (g.1 - granule (spAddr k 0), g.2)

/-- What the task's save slot holds. -/
def saveOf (s : State) (full : Bool) : Save :=
  let l := keepRanges s.core full
  let k := s.coreId
  { full := full
    core := s.core
    home := k
    rpc := s.core.drainRpc.getD 0
    keep := l
    bytes := keptBytes s k l
    fe := keptFull s k l }

/-- The lowest free save slot of a die. -/
def freeSlot (s : State) (d : BitVec 2) : Option Nat :=
  (List.range 512).find? fun i => (kfind (s.die d).saves i).isNone

/-- The core that holds the gang's barrier records, that of member 0, leaves last, with them. (DEDUCED: log 99, 146) -/
def mayLeave (s : State) (t : Task) : Bool :=
  t.lead != s.coreId || (match findGang s t with
    | some g => g.cores.all (· == s.coreId)
    | none => true)

/-- The barrier records of a core's file, by number. -/
def barsOf (s : State) (k : Nat) : List (Nat × BarRec) := (s.bars.filter fun b => b.1 / 1024 == k).map fun b => (b.1 % 1024, b.2)

/-- The active core's task leaves it: into a save slot, or, where its launch is cancelled, for good. (DEDUCED: log 140) -/
def leaveCore (s : State) (t : Task) (full : Bool) : Option State :=
  match findLaunch s t.home t.launch with
  | some l =>
    if l.cancelled then some (endTask s)
    else
      (freeSlot s s.here).map fun i =>
        let k := s.coreId
        let v := saveOf s full
        let bars := if t.lead = k then barsOf s k else []
        let s := noteSuspension s k s.core s.core.pc v.rpc (if full then 2 else 1) i
        let s := (s.mapDie s.here fun d => { d with saves := kset d.saves i v }).stepEpoch k
        gangLeft (mapGang (wipeCore s k) t fun g => { g with cores := g.cores.filter (· != k), bars := g.bars ++ bars }) t
  | none => none

/-- Whether a copy's destination lies in a core's scratchpad. (DEDUCED: log 57) -/
def copiesInto (b : CmdBody) (core k : Nat) : Bool :=
  let hit (l : List Seg) : Bool := l.any fun g => inSp k g.pa
  match b with
  | .copy dst _ _ _ => hit dst
  | .copym _ _ _ mask _ => (maskCores core mask).contains k
  | .relay d _ _ _ _ _ _ => hit d.segs
  | _ => false

/-- R353: no copy of the gang into the scratchpad and no NXRD of the task into the local window is left. (DEDUCED: log 57) -/
def transfersDone (s : State) (t : Task) : Bool :=
  let wids := (List.range s.core.plane.gsize).map (s.core.plane.widOf t.gang)
  s.cmds.all fun c =>
    let gang := c.launch == t.launch && wids.contains c.wid && copiesInto c.body c.core s.coreId
    let own := c.of s.coreId s.core && (match c.body with
      | .nxrd m => m.segs.any fun g => inSp s.coreId g.pa
      | _ => false)
    !gang && !own

/-- DRAIN_COMPLETE (R180, R353). DRAIN has completed once its waits hold, within the 4 µs of the request, after which the full
save is made (R351); what the core still waits for then, R353's transfers and the rest of its gang, those 4 µs do not cover.
(DEDUCED: log 57) -/
def execDrainComplete (s : State) : Res :=
  match s.core.run, s.core.task, s.core.drainRpc with
  | .draining, some t, some rpc =>
    if !s.core.quiet || s.core.after ≠ [] || s.core.fill.isSome || s.core.beat.isSome || graceOver s s.core then
      notEnabled "DRAIN_COMPLETE"
    else if s.core.stay then
      let s := landAll s
      ok { s with core := { s.core with run := .running, pc := align16 rpc, drainReq := none, drainRpc := none, stay := false } }
    else if !transfersDone s t || !mayLeave s t then
      if s.core.drainReq.isNone then notEnabled "DRAIN_COMPLETE" else ok { s with core := { s.core with drainReq := none } }
    else
      match leaveCore (landAll s) t false with
      | some s => stepped s
      | none => notEnabled "DRAIN_COMPLETE"
  | _, _, _ => notEnabled "DRAIN_COMPLETE"

/-- Whether a task may be saved where it stands. (DEDUCED: log 130) -/
def savable (r : Run) : Bool :=
  match r with
  | .running | .ending | .draining => true
  | _ => false

/-- FULL_SAVE (R354). (DEDUCED: log 57) -/
def execFullSave (s : State) : Res :=
  match s.core.task with
  | none => notEnabled "FULL_SAVE"
  | some t =>
    if !graceOver s s.core || !savable s.core.run || !s.core.quiet || s.core.fill.isSome || s.core.beat.isSome ||
      !transfersDone s t || !mayLeave s t then notEnabled "FULL_SAVE"
    else
      match leaveCore s t true with
      | some s => stepped s
      | none => notEnabled "FULL_SAVE"

/-! ### Resumption (R353 to R355) -/

/-- seen at a resume (R355): as at dispatch, and no lower than it was, so that an access which passed the check before the drain
passes after it. (DEDUCED: log 140) -/
def seenAtResume (s : State) (v : Save) : Vector Word 512 :=
  (seenAtStart s).zipWith (fun a b => if a.toNat < b.toNat then b else a) v.core.seen

/-- The state of a resuming core: whole after a full save; after a drain, what R353 keeps. What the task has observed joins what
the core has observed. A drain that was requested since has no effect on a task whose drain is still in progress (R351).
(DEDUCED: log 56, 57, 107) -/
def resumedState (s : State) (v : Save) (c : CoreState) (p : Plane) (t : Task) : CoreState :=
  let o := v.core
  let base := if v.full then { o with stay := o.drainRpc.isSome }
    else { CoreState.fresh .running with
      pc := align16 v.rpc, rsst := launchSeed p.wid, wbuf := o.wbuf, wbufErr := o.wbufErr, bActive := o.bActive, bStaged := o.bStaged
      sumps := o.sumps, cnt := o.cnt, splits := o.splits, tstat := o.tstat, bcnt := o.bcnt, dpc := o.dpc, seq := o.seq }
  { base with
    plane := p, spare := c.plane, task := some t, shadow := none, drainReq := if base.stay then none else c.drainReq
    seen := seenAtResume s v, rate := c.rate
    obs := o.obs.foldl sinsert c.obs, own := o.own.foldl sinsert c.own }

/-- Tags the granules of kept ranges with the resuming core at its current epoch. -/
def tagRanges (s : State) (k : Nat) (l : List (Nat × Nat)) : State :=
  let e := (s.epochs[k]?).getD 0
  let g0 := granule (spAddr k 0)
  let new := ((List.range 65536).filter fun g => inRanges l (16 * g)).map fun g => (g0 + g, Tag.by k e)
  { s with tags := (s.tags.filter fun x => x.1 < g0) ++ new ++ s.tags.filter fun x => g0 ≤ x.1 }

/-- TASK_RESUME of a saved task on the core that its gang's placement gave it: the zeroing of the core comes first, also of what
others stored to its scratchpad since, and the toggle empties its full-empty bits before the saved ones stand (R49, R355). -/
def execTaskResume (die : BitVec 2) (save : Nat) (core : Nat) (s : State) : Res :=
  match kfind (s.die die).saves save, (s.agent core).shadow with
  | some v, some (p, t) =>
    let mine := dieOf core == die && (s.agent core).run == .free && v.core.plane.wid == p.wid && (match v.core.task with
      | some u => u.launch == t.launch && u.gang == t.gang
      | none => false)
    if !mine then notEnabled "TASK_RESUME"
    else
      let s1 := s.setAgent core (resumedState s v (s.agent core) p t)
      let s1 := pokeScratch (wipeBytes (emptyScratch s1 core) core) core v.bytes
      let s1 := { s1 with fe := v.fe.foldl (fun l g => kset l (granule (spAddr core 0) + g.1) g.2) s1.fe }
      let s1 := tagRanges s1 core v.keep
      let s1 := s1.mapDie die fun d => { d with saves := kdel d.saves save }
      let cs := allDies.flatMap fun d => ((s1.die d).splices.filter fun x => x.2.of (s1.agent core)).map fun x => (d, x.1)
      stepped (cs.foldl (fun s x => releaseHeld s x.1 x.2) s1)
  | _, _ => notEnabled "TASK_RESUME"

end Sys2Proof.Machine
end

