-- ==== Sys2Proof/Machine/Firmware.lean ====
section
/-! DEFINITION. The die controllers' firmware and its registers (R305 to R310, R313, R314, R326, R345 to R348, R356, R361,
R374): event entry with firmware's reaction, fault records, the words of the core blocks, snapshots, and writes of control
space. -/

namespace Sys2Proof.Machine

open Sys2Proof

/-! ### Fault records (R346, R347) -/

/-- Firmware writes a record into the die's fault log, or counts it in FLLOST when the ring is full. -/
def writeRecord (s : State) (d : BitVec 2) (e : DieEvent) : State :=
  let x := s.die d
  if x.flprod - x.flcons = 1024 then
    s.setDie d { x with fllost := if x.fllost = BitVec.allOnes 32 then x.fllost else x.fllost + 1 }
  else
    let log := kset x.flog (x.flprod.toNat % 1024) ⟨e, x.flprod⟩
    raiseVector (s.setDie d { x with flog := log, flprod := x.flprod + 1 }) (pfOf (partOfDie s.xd0.mode d)) (1 + d.toNat)

/-! ### Ending a task (R11, R279, R345) -/

/-- Firmware ends the task on a core; in a gang of two or more, member 0's barrier records break. -/
def endAt (s : State) (k : Nat) : State :=
  let back := s.coreId
  let s := s.switchTo k
  let s := match s.core.task with
    | some t => if 2 ≤ s.core.plane.gsize then mapGang s t fun g => { g with broken := true } else s
    | none => s
  (endTask s).switchTo back

/-- Whether the end of a core's task can be the package-scope release that R21 asks for: its stores and loads have performed,
and its writes have arrived. (DESIGN CHOICE: log 103) -/
def endReady (s : State) (k : Nat) : Bool :=
  let c := s.agent k
  c.sq.isEmpty && c.mcast.isEmpty && c.loads.isEmpty &&
    allArrived s ((taskWrites (s.switchTo k)).foldl sinsert c.obs)

/-- Marks the events that a match selects as handled. (DESIGN CHOICE: log 103) -/
def handle (s : State) (d : BitVec 2) (sel : DieEvent → Bool) : State :=
  s.mapDie d fun x => { x with events := x.events.map fun e => if sel e then { e with handled := true } else e }

/-- RESUME of a core: a suspended service trap goes on at its saved PC (R181, R345). (DEDUCED: log 104) -/
def resumeAt (s : State) (k : Nat) : State :=
  match (s.agent k).run with
  | .suspended t _ true => if t.kind = 0 then s.mapAgent k resumeTrap else s
  | _ => s

/-- END of a core: the suspended task ends with a record of the pending cause, KIND 1 (R345). -/
def endWord (s : State) (k : Nat) : State :=
  match (s.agent k).run with
  | .suspended t n true =>
    let e := eventOf k (s.agent k) { t with kind := 1 } n
    endAt (writeRecord (handle s (dieOf k) fun e => e.core == k && e.info.kind != 2) (dieOf k) e) k
  | _ => s

/-- DRAINREQ of a core: a drain of its task's gang is requested (R345, R351). -/
def drainWord (s : State) (k : Nat) : State :=
  match (s.agent k).task with
  | none => s
  | some t =>
    match findGang s t with
    | some g => g.cores.foldl requestDrain s
    | none => s

/-- RESUME of a suspended core (R345). (DEDUCED: log 104) -/
def execResume (core : Nat) (s : State) : Res := if core < 512 then ok (resumeAt s core) else notEnabled "RESUME"

/-- END_WORD (R345): A write ends a suspended task with a record of the pending cause. -/
def execEndWord (core : Nat) (s : State) : Res :=
  if core < 512 && endReady s core then stepped (endWord s core) else notEnabled "END_WORD"

/-- DRAINREQ (R345): A write requests a drain of the resident task's gang. -/
def execDrainreq (core : Nat) (s : State) : Res := if core < 512 then ok (drainWord s core) else notEnabled "DRAINREQ"

/-! ### Event entry (R305, R307) -/

/-- What firmware does with an event once it has taken it: a service cause waits for RESUME or END, an ending cause ends the
task with a record, a log-only cause leaves a record. (DESIGN CHOICE: log 103) -/
def react (s : State) (d : BitVec 2) (e : DieEvent) : State :=
  match e.info.kind with
  | 0 => s
  | 1 => if e.core < 512 then endAt (writeRecord s d e) e.core else writeRecord s d e
  | _ => writeRecord s d e

/-- EVENT_ENTRY: the controller, at base level with events enabled, takes its die's oldest event that it has not taken.
(DESIGN CHOICE: log 103) -/
def execEventEntry (die : BitVec 2) (s : State) : Res :=
  let k := 512 + die.toNat
  let x := s.die die
  let c := s.agent k
  if c.run ≠ .running || !x.fstat.getLsbD 0 || x.fstat.getLsbD 1 then notEnabled "EVENT_ENTRY"
  else
    match x.events.find? fun e => !e.handled with
    | none => notEnabled "EVENT_ENTRY"
    | some e =>
      if e.info.kind = 1 && e.core < 512 && !endReady s e.core then notEnabled "EVENT_ENTRY"
      else
        let (y, pc) := enterHandler x c.pc
        let done := (y.events.takeWhile (·.handled)) ++ [{ e with handled := true }] ++ (y.events.dropWhile (·.handled)).tail
        let s := (s.setDie die { y with events := done }).setAgent k { c with pc := pc }
        stepped (react s die e)

/-- FPOP (R306): A write drops the event at the head of the die's event queue. -/
def execFpop (die : BitVec 2) (s : State) : Res := ok (popEvent s die)

/-! ### Snapshots (R356) -/

/-- SNAPTRIG (R356): A firmware write fires the partition's snapshot trigger. -/
def execSnaptrig (die : BitVec 2) (s : State) : Res := ok (snapTrigger s (partOfDie s.xd0.mode die))

/-- DEBUG_PORT_TRIGGER (R356): the debug port fires the partition's snapshot trigger. -/
def execDebugPortTrigger (part : BitVec 2) (s : State) : Res :=
  if part.toNat < partCount s.xd0.mode then ok (snapTrigger s part.toNat) else notEnabled "DEBUG_PORT_TRIGGER"

/-! ### Writes of control space -/

/-- The 32 bits at word `i` of a 64-bit register. (DESIGN CHOICE: log 108) -/
def setHalf (x : Word) (high : Bool) (v : BitVec 32) : Word :=
  if high then v ++ x.extractLsb' 0 32 else x.extractLsb' 32 32 ++ v

/-- A write of a word of a core's block. -/
def coreBlockWrite (s : State) (k b : Nat) (v : BitVec 32) : Option State :=
  if b / 8 = 8 then some (resumeAt s k)
  else if b / 8 = 9 then some (endWord s k)
  else if b / 8 = 10 then some (drainWord s k)
  else if b = 0x80 then
    some (if v.getLsbD 0 then { s with snaps := kput 0 s.snaps k (kget 0 s.snaps k &&& ~~~1#512) } else s)
  else none

/-- A write of a word of a launch page, its window aside (R326). -/
def pageWrite (s : State) (d : BitVec 2) (slot b : Nat) (v : BitVec 32) : Option State :=
  let p := partOfDie s.xd0.mode d
  let ev := BitVec.ofNat 8 (b % 0x400 / 4)
  let x := s.event p slot ev
  if 0x400 ≤ b && b < 0x800 then some (refresh (s.setEvent p slot ev { x with val := v }))
  else if 0x800 ≤ b && b < 0xC00 then some (refresh (s.setEvent p slot ev { x with val := x.val + v }))
  else none

/-- A write of a word of a compute-die block; none where no register takes it. (DESIGN CHOICE: log 108) -/
def dieWrite (s : State) (d : BitVec 2) (o : Nat) (v : BitVec 32) : Option State :=
  let x := s.die d
  if o < 0x1000 then
    match o / 4 with
    | 2 => some (s.setDie d { x with dctl := x.dctl ||| v.setWidth 2 })
    | 5 => some (s.setDie d { x with flcons := v })
    | 10 => some (snapTrigger s (partOfDie s.xd0.mode d))
    | 12 => some (s.setDie d { x with acsel := v.setWidth 6 })
    | _ => none
  else if o < 0x9000 then coreBlockWrite s (128 * d.toNat + (o - 0x1000) / 0x100) ((o - 0x1000) % 0x100) v
  else if 0x40000 ≤ o && o < 0x80000 then pageWrite s d ((o - 0x40000) / 0x1000) (o % 0x1000) v
  else none

/-- A write of a word of a mailbox (R314): word 0 submits the command. (DEDUCED: log 109) -/
def mailboxWrite (x : Xd0) (p : BitVec 2) (w : Nat) (v : BitVec 32) : Xd0 :=
  let m := x.mailboxes.get p.toFin
  let put (m : Mailbox) : Xd0 := { x with mailboxes := x.mailboxes.set p.toNat m p.isLt }
  match w with
  | 0 => { put { m with cmd := v, res := 0xFF } with queue := x.queue ++ [.mailbox p v m.arg] }
  | 1 => put { m with lat := v &&& 0xFFFF#32 }
  | 2 => put { m with arg := setHalf m.arg false v }
  | 3 => put { m with arg := setHalf m.arg true v }
  | _ => x

/-- A write of a word of XD0's block. -/
def xd0Write (x : Xd0) (o : Nat) (v : BitVec 32) : Option Xd0 :=
  if o = 0 then some { x with lat0 := v.extractLsb' 2 16 }
  else if 0x100 ≤ o && o < 0x200 then some (mailboxWrite x (BitVec.ofNat 2 ((o - 0x100) / 0x40)) (o % 0x40 / 4) v)
  else if o / 8 = 0x41 then some { x with baddr := setHalf x.baddr (o % 8 = 4) v }
  else if o / 8 = 0x42 then some { x with blen := setHalf x.blen (o % 8 = 4) v }
  else if o = 0x218 then some (if v = 1 then { x with queue := x.queue ++ [.load] } else x)
  else if o = 0x304 then some (if 1000 ≤ v.toNat && v.toNat ≤ 4400 then { x with pwrcap := v } else x)
  else none

/-- A write of an aligned word of control space. -/
def ctlWord (s : State) (a : Nat) (v : BitVec 32) : Option State :=
  if a < 4 * blockSize then dieWrite s (BitVec.ofNat 2 (a / blockSize)) (a % blockSize) v
  else if xd0Base ≤ a && a < xd0Base + blockSize then (xd0Write s.xd0 (a - xd0Base) v).map fun x => { s with xd0 := x }
  else none

/-- The launch window that holds an address: die, slot and offset. -/
def windowAt (a : Nat) : Option (BitVec 2 × Nat × Nat) :=
  let o := a % blockSize
  if a < 4 * blockSize && 0x40000 ≤ o && o < 0x80000 && o % 0x1000 < 0x100 then
    some (BitVec.ofNat 2 (a / blockSize), (o - 0x40000) / 0x1000, o % 0x1000)
  else none

/-- A write of bytes of a launch window; one that covers its last 64 bytes hands the record over (R327). (DESIGN CHOICE: log 108) -/
def windowWrite (s : State) (d : BitVec 2) (slot off : Nat) (bs : List Byte) : State :=
  let bs := bs.take (256 - off)
  let p := s.page d slot
  let w := p.window.take off ++ bs ++ p.window.drop (off + bs.length)
  if off ≤ 192 && off + bs.length = 256 then
    takeRecord (s.setPage d slot { p with window := w, seq := p.seq + 1 }) d slot (p.seq + 1) w
  else s.setPage d slot { p with window := w }

/-- The word that a write of bytes at `a` gives the aligned word at `w`: bytes that it does not cover keep what they read
as. (DESIGN CHOICE: log 108) -/
def mergeWord (s : State) (a : Nat) (bs : List Byte) (w : Nat) : BitVec 32 :=
  BitVec.ofNat 32 (natOfBytes ((List.range 4).map fun i =>
    if a ≤ w + i then (bs[w + i - a]?).getD ((ctlByte s (w + i)).getD 0) else (ctlByte s (w + i)).getD 0))

/-- The aligned words that a range of bytes touches. -/
def wordsOf (a len : Nat) : List Nat := (List.range ((a + len + 3) / 4 - a / 4)).map fun i => 4 * (a / 4 + i)

/-- A write of bytes of control space, word by word; a word that no register takes is dropped. (DESIGN CHOICE: log 108) -/
def ctlWrite (s : State) (a : Nat) (bs : List Byte) : State :=
  match windowAt a with
  | some (d, slot, off) => windowWrite s d slot off bs
  | none => (wordsOf a bs.length).foldl (fun s w => (ctlWord s w (mergeWord s a bs w)).getD s) s

/-- The core whose END word an address lies in. -/
def endTarget (a : Nat) : Option Nat :=
  let o := a % blockSize
  if a < 4 * blockSize && 0x1000 ≤ o && o < 0x9000 && o % 0x100 / 8 = 9 then some (128 * (a / blockSize) + (o - 0x1000) / 0x100)
  else none

/-- Whether a write of END words among some bytes would have to wait for the stores of the task that it ends. -/
def endWaits (s : State) (a len : Nat) : Bool :=
  (wordsOf a len).any fun w => match endTarget w with
    | some k => !endReady s k
    | none => false

/-- The host sets the base of a function's BAR0, a multiple of its size, in its configuration space, which answers for a dormant
function too (R364); CONFIG_LOCKED and RUN refuse it (R366). (DESIGN CHOICE: log 139) -/
def barWrite (s : State) (p : BitVec 2) (x : Word) : State :=
  let f := s.pf p
  if f.tdi = .locked || f.tdi = .run then s else s.setPf p { f with bar0 := x.toNat / 2 ^ 40 * 2 ^ 40 }

/-- REGISTER_WRITE of a firmware register (R306), of a word of control space, of BAR0, or of the mask of a vector,
or a new reading of a sensor of the power manager (R361). (DESIGN CHOICE: log 125, 139) -/
def execRegisterWrite (t : RegTarget) (val : Word) (s : State) : Res :=
  match t with
  | .sys d n =>
    if firmwareReg n && !firmwareRO n then ok (firmwareWrite s d n val) else notEnabled "REGISTER_WRITE"
  | .ctl a =>
    if a % 4 ≠ 0 || endWaits s a 4 then notEnabled "REGISTER_WRITE"
    else
      match ctlWord s a (val.setWidth 32) with
      | some s => stepped s
      | none => notEnabled "REGISTER_WRITE"
  | .sensor a =>
    if a = 0x300 then ok { s with xd0 := { s.xd0 with pwrnow := val.setWidth 32 } }
    else if a = 0x308 then ok { s with xd0 := { s.xd0 with tinlet := val.setWidth 32 } }
    else if a = 0x30C then ok { s with xd0 := { s.xd0 with tjmax := val.setWidth 32 } }
    else notEnabled "REGISTER_WRITE"
  | .bar0 p => ok (barWrite s p val)
  | .mask p vec =>
    if (s.pf p).active && vec.toNat < 80 && val.getLsbD 0 then
      ok (s.setPf p { s.pf p with mask := (s.pf p).mask ||| BitVec.twoPow 80 vec.toNat })
    else notEnabled "REGISTER_WRITE"

/-! ### DRAIN (R130, R308, R360) -/

/-- A write to control space that no route carries is dropped, and the drop is logged (R359). -/
def controlDropped (s : State) (a : Nat) : State :=
  logCheck s s.here 3 1 (BitVec.ofNat 16 ((socketOf s.xd0.mode a).getD 0)) a

/-- A controller's store: to control space it writes registers, to device memory it is an ordinary write; a refused write is
dropped. (DEDUCED: log 50) -/
def controllerStore (s : State) (e : StoreEntry) : State :=
  match e.bytes.head? with
  | none => s
  | some b =>
    match regionOf b.pa with
    | .control => if reaches s s.here b.pa then ctlWrite s b.pa (e.bytes.map (·.val)) else controlDropped s b.pa
    | .none | .host => s
    | _ => coreWrite s e.rel e.setFe e.bytes

/-- Whether a write of a launch window is held: during a SWAP of its partition (R327). -/
def windowHeld (s : State) (a : Nat) : Bool :=
  match windowAt a with
  | some (d, _, _) => swapping s (partOfDie s.xd0.mode d)
  | none => false

def controllerStoreWaits (s : State) (e : StoreEntry) : Bool :=
  match e.bytes.head? with
  | none => false
  | some b => regionOf b.pa == .control && (endWaits s b.pa e.bytes.length || windowHeld s b.pa)

/-- DRAIN(c, s): the head of a store queue takes its coherence place; `st` falls with the last of a store's writes, unless a
multicast part of it is still to land (R275). (DEDUCED: log 130) -/
def execStoreDrain (stream : BitVec 4) (s : State) : Res :=
  match s.core.sq.find? fun e => e.stream == stream with
  | none => notEnabled "STORE_DRAIN"
  | some e =>
    if !drainReady s e || (isController s.coreId && controllerStoreWaits s e) then notEnabled "STORE_DRAIN"
    else
      let s := { s with core := { s.core with sq := s.core.sq.erase e } }
      let s := if isController s.coreId then controllerStore s e else coreWrite s e.rel e.setFe e.bytes
      let landing := s.core.mcast.any fun x => x.seq == e.seq
      stepped (if e.counts && !landing then { s with core := s.core.count 1 (-1) } else s)

end Sys2Proof.Machine
end

