-- ==== Sys2Proof/Machine/Events.lean ====
section
/-! DEFINITION. The steps of engine commands (R77, R86, R102, R130, R237, R243, R249): the writes that they make, the pieces
of tensor operations, and retirement. -/

namespace Sys2Proof.Machine

open Sys2Proof

/-- A command starts, where starting it is all that its first step needs: a copy reads its source, a band table's one
write is made ready, a message leaves. -/
def startCmd (s : State) (c : Cmd) : Option State :=
  if c.started then none
  else
    match c.body with
    | .copy _ _ _ _ | .copym _ _ _ _ _ | .relay _ _ _ _ _ _ _ => if copyMayStart s c then some (startCopy s c) else none
    | .setband dst src =>
      if kvMayStart s c then some (setCmd s { c with started := true, finished := true, out := [bandWrite s dst src] }) else none
    | b =>
      match messageOf b with
      | some (k, m) => if messageMayStart s c then some (startMessage s c k m) else none
      | none => none

/-- Whether the `i`-th pending write may be made now: copies keep the order of overlapping writes. -/
def writeMayGo (s : State) (c : Cmd) (i : Nat) (w : EngWrite) : Bool :=
  match c.path with
  | .copy =>
    let pa := (w.bytes.head?.map (·.pa)).getD 0
    copyMayWrite s c i w &&
      !(isController c.core && regionOf pa == .control && (endWaits s pa w.bytes.length || windowHeld s pa))
  | _ => true

/-- The die of the splice window that holds a byte of a command's destination. -/
def spliceDie (s : State) (c : Cmd) (va : Nat) : Option (BitVec 2) :=
  match windowOf va 1 with
  | .splice v _ _ => boundDie (kfind (s.die c.die).active.ctxs c.slot) (BitVec.ofNat 64 v)
  | _ => none

/-- A write of a piece into splice windows (R122): its bytes are gathered, and rows that are whole are delivered. Where no route
leads from the piece's site to the die of the window, the write is dropped, and the drop is logged (R359). (DEDUCED: log 154) -/
def spliceBytes (s : State) (c : Cmd) (d : Shape) (w : EngWrite) (rest : List EngWrite) : State :=
  let site := siteSocket c (((c.pieces[w.piece]?).map (·.home)).getD nowhere)
  let lost (b : WByte) : Option (BitVec 2) := (spliceDie s c (b.pa - 2 ^ 66)).filter fun x => !reachable s.links site x.toNat
  let s := match w.bytes.findSome? lost with
    | some x => siteDropped s c x.toNat 0
    | none => s
  let go := w.bytes.filter fun b => (lost b).isNone
  let c := { c with out := rest, spl := go.foldl (fun l b => kset l (b.pa - 2 ^ 66) b.val) c.spl }
  deliverRows (setCmd s c) c d

/-- A write of a controller's copy: to control space it writes registers, and where the interposer refuses it, it is dropped
(R360). -/
def controllerCopy (s : State) (c : Cmd) (w : EngWrite) (rest : List EngWrite) : State :=
  let pa := (w.bytes.head?.map (·.pa)).getD 0
  let gone (s : State) : State := setCmd s { c with out := rest }
  match regionOf pa with
  | .control => if reaches s c.die pa then ctlWrite (gone s) pa (w.bytes.map (·.val)) else controlDropped (gone s) pa
  | .none | .host => gone s
  | _ => performWrite s c w rest

/-- Makes the `i`-th pending write of a command; the piece that it is of can fail no longer (R75, R80). (DEDUCED: log 143) -/
def makeWrite (s : State) (c : Cmd) (i : Nat) (w : EngWrite) : State :=
  let rest := c.out.eraseIdx i
  let c := { c with pieces := setPiece c.pieces w.piece fun p => { p with wrote := true } }
  if isController c.core then controllerCopy s c w rest
  else match c.body with
  | .top k d srcs vc _ _ _ _ _ _ =>
    if d.spl then spliceBytes s c d w rest
    else writeFromSite s c (if d.ty.is4 then shareNibbles s c k d srcs vc w else w) fun s w => performWrite s c w rest
  | .setband dst src => performWrite s c (bandWrite s dst src) rest
  | _ => performWrite s c w rest

/-- ENGINE_WRITE: a command that has not started starts; else its `i`-th pending write is made. (DEDUCED: log 66, 69) -/
def execEngineWrite (cmd i : Nat) (s : State) : Res :=
  match findCmd s cmd with
  | none => notEnabled "ENGINE_WRITE"
  | some c =>
    match startCmd s c with
    | some s => stepped s
    | none =>
      match c.out[i]? with
      | none => notEnabled "ENGINE_WRITE"
      | some w => if writeMayGo s c i w then stepped (makeWrite s c i w) else notEnabled "ENGINE_WRITE"

/-- Above 110.0 °C no new face piece starts (R362). (DEDUCED: log 78) -/
def faceBarred (s : State) (p : Piece) : Bool := s.xd0.hot && p.site == .face

/-- PIECE_START: a piece makes its reads. The piece of an ATTN starts once its lookups have found every block. -/
def execPieceStart (cmd piece : Nat) (s : State) : Res :=
  match findCmd s cmd with
  | none => notEnabled "PIECE_START"
  | some c =>
    match c.body, c.pieces[piece]? with
    | .top k d srcs vc _ rnd sat _ _ _, some p =>
      if faceBarred s p then notEnabled "PIECE_START"
      else
        (match startTopPiece s c piece p k d srcs vc rnd sat with
          | some s => stepped s
          | none => notEnabled "PIECE_START")
    | .attn a, some p =>
      if p.started || a.blocks.length < attnBlocks a || !(c.started || kvMayStart s c) then notEnabled "PIECE_START"
      else stepped (runAttn s c a)
    | _, _ => notEnabled "PIECE_START"

/-- A retirement request of a face unit takes effect once no active piece holds the unit (R348). (DEDUCED: log 78) -/
def settleFaces (s : State) : State :=
  let busy (r : Nat) : Bool := (activeFaces s (r / 4096)).any fun p => p.units.contains (r % 4096)
  let done := s.faceReq.filter fun r => !busy r
  { s with faceReq := s.faceReq.filter busy, faceOut := done.foldl sinsert s.faceOut }

/-- PIECE_COMPLETE: the piece's writes are made. -/
def execPieceComplete (cmd piece : Nat) (s : State) : Res :=
  match findCmd s cmd with
  | none => notEnabled "PIECE_COMPLETE"
  | some c =>
    match c.pieces[piece]? with
    | none => notEnabled "PIECE_COMPLETE"
    | some p =>
      if !p.started || p.out.isSome || c.out.any fun w => w.piece == piece then notEnabled "PIECE_COMPLETE"
      else stepped (settleFaces (finishPiece s c piece p))

/-- LOCATOR_STEP. (DEDUCED: log 81) -/
def execLocatorStep (cmd : Nat) (s : State) : Res :=
  match findCmd s cmd with
  | none => notEnabled "LOCATOR_STEP"
  | some c =>
    if !(c.started || kvMayStart s c) then notEnabled "LOCATOR_STEP"
    else
      match locatorStep s c with
      | some s => stepped s
      | none => notEnabled "LOCATOR_STEP"

/-- Whether every event of a command has been logged (R296). -/
def allLogged (s : State) (c : Cmd) : Bool := !(s.die c.die).late.any fun e => e.core == c.core && e.info.info0 == c.pc

/-- Whether every item of a command has completed or failed, and its events are logged, so that it may retire (R130, R232). -/
def mayRetire (s : State) (c : Cmd) : Bool :=
  allLogged s c && match c.body with
  | .copy _ _ _ _ | .copym _ _ _ _ _ | .relay _ _ _ _ _ _ _ => c.started && c.out.isEmpty
  | .top _ _ _ _ _ _ _ _ _ _ | .attn _ => topDone s c
  | .placeq _ _ => topMayStart s c
  | .kvfind _ _ _ | .kvapp _ _ _ _ _ _ _ _ _ _ _ _ | .kvfree _ _ _ _ _ _ _ | .setband _ _ =>
    (c.started || kvMayStart s c) && kvDone c
  | .nxwr _ | .nxrd _ | .nxamo _ => false

/-- What a command still does as it retires: status areas (R78, R81, R94) and results (R99 to R101). -/
def lastActs (s : State) (c : Cmd) : State × Cmd :=
  match c.body with
  | .top _ _ _ _ (some segs) _ _ hm enc cen => (writeStatus s c segs (statusBytes c.pieces hm enc cen 1), c)
  | .attn a =>
    match a.status with
    | some segs => (writeStatus s c segs (statusBytes c.pieces a.hm a.enc true 1), c)
    | none => (s, c)
  | .placeq segs word => (writeStatus s c segs word, c)
  | _ =>
    let c' := kvResult s c
    (if c'.result = c.result then s else { s with choice := s.choice + 1 }, c')

/-- COMMAND_RETIRE. -/
def execCommandRetire (cmd : Nat) (s : State) : Res :=
  match findCmd s cmd with
  | none => notEnabled "COMMAND_RETIRE"
  | some c =>
    if !mayRetire s c then notEnabled "COMMAND_RETIRE"
    else
      let (s, c) := lastActs s c
      stepped (retire s c)

end Sys2Proof.Machine
end

