-- ==== Sys2Proof/Machine/Mask.lean ====
section
/-! DEFINITION. Slot 2: masks (R206) and sumps (R207 to R212, R255). -/

namespace Sys2Proof.Machine

open Sys2Proof

/-! ### Masks -/

def maskOut (o : VOp) (f : KReg → KReg → KReg) (s : State) : Res :=
  ok (later s 2 (.k (lo4 o.d) (f (s.core.rk (lo4 o.a)) (s.core.rk (lo4 o.b)))))

/-- KAND (R206): ANDs two masks. -/
def execKand (o : VOp) (s : State) : Res := maskOut o (· &&& ·) s
/-- KOR (R206): ORs two masks. -/
def execKor (o : VOp) (s : State) : Res := maskOut o (· ||| ·) s
/-- KXOR (R206): XORs two masks. -/
def execKxor (o : VOp) (s : State) : Res := maskOut o (· ^^^ ·) s
/-- KNOT (R206): inverts a mask. -/
def execKnot (o : VOp) (s : State) : Res := maskOut o (fun a _ => ~~~a) s

/-- The lanes whose governing bit is 1. -/
def lanesOn (t : Ty) (k : KReg) : List Nat := (List.range t.lanes).filter (governed t.bits k)

/-- KPOPC (R206): counts the enabled lanes of a mask. -/
def execKpopc (o : VOp) (s : State) : Res :=
  ok (later s 2 (.s o.d (BitVec.ofNat 64 (lanesOn o.t (s.core.rk (lo4 o.a))).length)))

/-- KFIRST (R206): finds the lowest enabled lane of a mask. -/
def execKfirst (o : VOp) (s : State) : Res :=
  ok (later s 2 (.s o.d (BitVec.ofNat 64 ((lanesOn o.t (s.core.rk (lo4 o.a))).head?.getD o.t.lanes))))

/-- The mask of the first n lanes: bit j is 1 when the lowest lane that byte j holds is below n. -/
def firstLanes (w n : Nat) : KReg := ofBits fun j => decide (8 * j / w < n)

/-- KSET (R206): sets a mask enabling the lanes below a count. -/
def execKset (o : VOp) (s : State) : Res :=
  ok (later s 2 (.k (lo4 o.d) (firstLanes o.t.bits (min (s.core.rs o.a).toNat o.t.lanes))))

/-! ### Sumps -/

def CoreState.sump (c : CoreState) (n : BitVec 2) : Sump := c.sumps.get n.toFin

def CoreState.setSump (c : CoreState) (n : BitVec 2) (x : Sump) : CoreState :=
  { c with sumps := c.sumps.set n.toNat x n.isLt }

/-- Trap(sump) and Trap(sump-overflow): the sump, COUNT and CAP (R209, R346). (DEDUCED: log 37) -/
def sumpTrap (s : State) (n : BitVec 2) (x : Sump) : TrapInfo :=
  { endTrap s 0x0C (BitVec.ofNat 64 (x.count.toNat + x.cap.toNat * 2 ^ 32)) with item := n.setWidth 16 }

/-- The configuration check of R209. -/
def Sump.fits (x : Sump) (t w : Nat) : Bool := x.cfg && x.tl.toNat == t && x.w.toNat == w

/-- The size of an entry, and the scratchpad offset of the slot that holds the i-th entry from HEAD (R208). -/
def Sump.size (x : Sump) : Nat := (x.tl.toNat + 1) * x.w.toNat
def Sump.place (x : Sump) (i : Nat) : Nat := x.base.toNat + (x.head.toNat + i) % x.cap.toNat * x.size

/-- SUMPIN (R209): appends one entry per enabled lane to a sump. (DEDUCED: log 37) -/
def execSumpin (o : VOp) (s : State) : Res :=
  let n := lo2 o.d
  let x := s.core.sump n
  let t := o.b.toNat
  let wb := o.t.bits / 8
  let on := (List.range o.t.lanes).filter (VOp.on o s.core)
  if !x.fits t wb then trap s (sumpTrap s n x)
  else if x.cap.toNat < x.count.toNat + on.length then trap s (sumpTrap s n x)
  else
    let entry (l : Nat × Nat) : List WByte :=
      let elems := (List.range t).map fun k => laneAt o.t.bits (s.core.rv (o.a + BitVec.ofNat 6 k)) l.1
      let bytes := (elems ++ [l.1]).flatMap fun e => bytesOfNat wb e
      bytes.zipIdx.map fun b => ⟨spAddr s.coreId (x.place (x.count.toNat + l.2) + b.2), b.1, false⟩
    let es := on.zipIdx.map entry
    withRace s (es.flatten.map (·.pa)) fun _ =>
      let s := if es = [] then s else enqueue s 0 (es.flatMap fun e => byGranule e.length e) false none false
      ok (s.setCore (s.core.setSump n { x with count := x.count + BitVec.ofNat 17 on.length }))

/-- SUMPOUT (R210): pops up to a full width of entries from a sump into registers. -/
def execSumpout (o : VOp) (s : State) : Res :=
  let n := lo2 o.a
  let x := s.core.sump n
  let t := o.b.toNat
  let wb := o.t.bits / 8
  let m := min x.count.toNat o.t.lanes
  if !x.fits t wb then trap s (sumpTrap s n x)
  else
    let pas := (List.range m).flatMap fun j => (List.range x.size).map fun b => spAddr s.coreId (x.place j + b)
    withRace s pas fun _ => withRead0 s pas fun rs s' =>
      match (rs.zip pas).find? fun b => b.1.poison with
      | some (_, pa) => trap s (poisonTrap s 0 pa 0)
      | none =>
        let bytes := rs.map (·.val)
        let elem (j k : Nat) : Nat := fieldNat bytes (j * x.size + k * wb) wb
        let reg (k : Nat) : RegWrite :=
          .v (o.d + BitVec.ofNat 6 k) (ofLanes o.t.bits ((List.range m).map fun j => elem j k))
        let ws := (List.range (t + 1)).map reg ++ [.k o.m (firstLanes o.t.bits m)]
        let s := (lock s' (.k o.m :: tuple o.d (t + 1)) (some ws) none).2
        let x' : Sump :=
          { x with head := BitVec.ofNat 16 ((x.head.toNat + m) % x.cap.toNat), count := x.count - BitVec.ofNat 17 m }
        ok (s.setCore (s.core.setSump n x'))

/-- SUMPCNT (R211): writes a sump's entry count to sD. -/
def execSumpcnt (o : VOp) (s : State) : Res :=
  ok (later s 2 (.s o.d ((s.core.sump (lo2 o.a)).count.setWidth 64)))

/-- SUMPCFG (R255): every entry is discarded; a region out of range traps and changes nothing. (DEDUCED: log 37) -/
def execSumpcfg (n : BitVec 2) (a : BitVec 6) (g : GuardF) (s : State) : Res :=
  guarded g s fun s =>
    let v := s.core.rs a
    let base := v.extractLsb' 0 20
    let cap := v.extractLsb' 20 16
    let tl := v.extractLsb' 36 3
    let w : Nat := 2 ^ (v.extractLsb' 39 2).toNat
    let cfg := v.getLsbD 41
    let bad := cfg && (v.extractLsb' 42 22 ≠ 0 || base.extractLsb' 0 4 ≠ 0 || cap == 0 || tl == 0 || 4 < tl.toNat ||
      decide (0x100000 < base.toNat + cap.toNat * ((tl.toNat + 1) * w)))
    if bad then trap s (sumpTrap s n (s.core.sump n))
    else ok (s.setCore (s.core.setSump n ⟨cfg, base, cap, tl, BitVec.ofNat 4 w, 0, 0⟩))

end Sys2Proof.Machine
end

