-- ==== Sys2Proof/Machine/Partition.lean ====
section
/-! DEFINITION. The partition controller: contexts and their mailbox commands (R311 to R317, R343), reset domains and
retirement (R318, R319), and memory-encryption keys (R320, R321). -/

namespace Sys2Proof.Machine

open Sys2Proof

/-! ### Settling -/

/-- Every write arrives, is applied and is joined everywhere, in coherence order: steps that the order machine may always
take (R130). (DEDUCED: log 52) -/
def settleAll (s : State) : State :=
  let s := s.writes.foldl (fun s w => baseWrite s w.rel w.bytes) s
  { s with writes := [], dies := s.dies.map fun d => { d with iq := [] } }

/-! ### Keys and the places of stack bytes (R45, R315, R320, R321) -/

/-- The address at which a key-map entry's page starts. -/
def entryBase (i : Nat) : Nat :=
  if i < 327680 then Config.stackBase + i * 2 ^ 21 else Config.poolBase + (i - 327680) * 2 ^ 21

/-- The key under which an address is stored; empty for plaintext. -/
def keyAt (x : Xd0) (pa : Nat) : List Byte :=
  match keyEntry pa with
  | some i =>
    let slot := kget 0 x.keymap i
    if slot = 0 then [] else kget (List.replicate 64 0) x.keys slot.toNat
  | none => []

/-- The stack offset of a cell: the inverse of `stackPlace` with the cell's place within its bank group. -/
def stackOffset (mode : BitVec 2) (p : StackPlace) (q low : Nat) : Nat :=
  match mode with
  | 0#2 => q * 2 ^ 21 + p.bg * 2 ^ 19 + p.stack * 2 ^ 16 + p.chan * 2 ^ 11 + low
  | 1#2 =>
    let part := if [0, 1, 4, 5].contains p.stack then 0 else 1
    let i := (if part = 0 then [0, 1, 4, 5] else [2, 3, 6, 7]).idxOf p.stack
    part * partSize 1 + q * 2 ^ 20 + p.bg * 2 ^ 18 + i * 2 ^ 16 + p.chan * 2 ^ 11 + low
  | _ => p.stack % 4 * partSize 2 + q * 2 ^ 19 + p.bg * 2 ^ 17 + p.stack / 4 * 2 ^ 16 + p.chan * 2 ^ 11 + low

/-- The place of a stack offset within its bank group: the quotient that R45 leaves, and the low 11 bits. (DEDUCED: log 118) -/
def stackRest (mode : BitVec 2) (o : Nat) : Nat × Nat :=
  let n := match mode with
    | 0#2 => o / 2 ^ 21
    | 1#2 => o % partSize 1 / 2 ^ 20
    | _ => o % partSize 2 / 2 ^ 19
  (n, o % 2 ^ 11)

/-- The address at which a cell that one mode shows at `pa` stands in another mode. -/
def movedTo (old new : BitVec 2) (pa : Nat) : Nat :=
  match regionOf pa with
  | .stack =>
    if old = new then pa
    else
      let o := pa - Config.stackBase
      let (q, low) := stackRest old o
      Config.stackBase + stackOffset new (stackPlace old o) q low
  | _ => pa

/-- The 2 KiB granule of R320. -/
def keyGranule (pa : Nat) : Nat := pa / 2048

/-- The granules of the pages that a key map maps with a key. -/
def keyedGranules (x : Xd0) : List Nat :=
  (x.keymap.filter fun e => e.2 != 0).flatMap fun e => (List.range 1024).map fun i => keyGranule (entryBase e.1) + i

/-- The stored bytes of a granule, as they read after a change from `x` to `y`: those of its old place, decrypted as the new
key and place say. -/
def granuleAfter (m : List Host.Cell) (x y : Xd0) (g : Nat) : List Host.Cell :=
  let old := movedTo y.mode x.mode (2048 * g)
  let k0 := keyAt x old
  let k1 := keyAt y (2048 * g)
  let same := k0 == k1 && (k0 == [] || keyGranule old == g)
  (List.range 128).flatMap fun b =>
    let bs := (List.range 16).map fun i => memGet m (old + 16 * b + i)
    let bs := if same then bs else Config.recrypt k0 k1 (keyGranule old) g b bs
    (List.range 16).map fun i => (2048 * g + 16 * b + i, bs.getD i 0)

/-- Moves every stack byte to the address of its cell, and reads every encrypted granule anew (R315, R321). -/
def remap (s : State) (y : Xd0) : State :=
  let s := settleAll s
  let x := s.xd0
  let go (pa : Nat) : Nat := movedTo x.mode y.mode pa
  let m := s.mem.foldl (fun m c => memSet m (go c.1) c.2) []
  let gs := (keyedGranules x).map (fun g => keyGranule (go (2048 * g))) ++ keyedGranules y
  { s with
    xd0 := y
    mem := (gs.flatMap (granuleAfter s.mem x y)).foldl (fun m c => memSet m c.1 c.2) m
    poison := s.poison.foldl (fun l pa => sinsert l (go pa)) []
    baseRel := s.baseRel.foldl (fun l r => kset l (go r.1) r.2) [] }

/-! ### Mailbox commands (R314, R316) -/

def resOk : BitVec 32 := 0
def resBusy : BitVec 32 := 1
/-- RES of a command that is refused (R314). (DEDUCED: log 109) (DESIGN CHOICE: log 141) -/
def resInvalid : BitVec 32 := 2
def resNoSpace : BitVec 32 := 3

/-- RES is written, the mailbox's function hears of it, and the controller may take the next command. -/
def setRes (s : State) (p : BitVec 2) (v : BitVec 32) : State :=
  let x := s.xd0
  let m := x.mailboxes.get p.toFin
  let boxes := x.mailboxes.set p.toNat { m with res := v } p.isLt
  raiseVector { s with xd0 := { x with mailboxes := boxes, queue := x.queue.tail, busy := false, revoke := none } } p 0

/-- The fields of CMD. -/
def cmdOp (c : BitVec 32) : Nat := c.toNat % 256
def cmdSlot (c : BitVec 32) : Nat := c.toNat / 256 % 256
def cmdArg (c : BitVec 32) : Nat := c.toNat / 65536 % 256

/-- The command at the head of the order, with its mailbox, if it is one of the operation asked for and nothing is being
carried out. CREATE's event also takes up commands that R314 does not list. (DEDUCED: log 114) -/
def headCmd (s : State) (op : Nat) : Option (BitVec 2 × BitVec 32 × Word) :=
  match s.xd0.queue.head? with
  | some (.mailbox p c arg) =>
    let known := 1 ≤ cmdOp c && cmdOp c ≤ 8
    if !s.xd0.busy && (cmdOp c == op || (op == 1 && !known)) then some (p, c, arg) else none
  | _ => none

/-- Whether a command is one that its mailbox accepts. (DEDUCED: log 109) -/
def wellPut (s : State) (p : BitVec 2) (c : BitVec 32) : Bool :=
  1 ≤ cmdOp c && cmdOp c ≤ 8 && c.toNat / 2 ^ 24 = 0 && decide (p.toNat < partCount s.xd0.mode) &&
    (p == 0 || !([4, 5, 7, 8].contains (cmdOp c)))

/-- Takes up a command: one that its mailbox does not accept is INVALID. (DEDUCED: log 109) -/
def mailboxCmd (s : State) (op : Nat) (mn : String) (k : BitVec 2 → BitVec 32 → Word → Res) : Res :=
  match headCmd s op with
  | none => notEnabled mn
  | some (p, c, arg) => if wellPut s p c then k p c arg else ok (setRes s p resInvalid)

def answer (s : State) (p : BitVec 2) (v : BitVec 32) : Res := ok (setRes s p v)

/-- Bytes of host memory, which XD0 reads itself. (DEDUCED: log 114) -/
def hostBytes (s : State) (a n : Nat) : List Byte := (List.range n).map fun i => (homeByte s (Config.hostSpace + (a + i) % 2 ^ 64)).val

/-- Goes on with the operand record of a mailbox command; while the function's DMA stands still (R366) none can be read, and the
command is INVALID. (DEDUCED: log 114) (DESIGN CHOICE: log 141) -/
def withArg (s : State) (p : BitVec 2) (a : Word) (n : Nat) (k : List Byte → Res) : Res :=
  if (s.pf p).tdi = .error then answer s p resInvalid else k (hostBytes s a.toNat n)

/-- Whether a function's interface is assigned (R366). -/
def assigned (s : State) (p : BitVec 2) : Bool := (s.pf p).tdi == .locked || (s.pf p).tdi == .run

/-! ### Contexts (R311, R312) -/

def zeroBytes (b : List Byte) (lo n : Nat) : Bool := fieldNat b lo n == 0

/-- The context that a record gives, unless a reserved field of it is not 0. (DEDUCED: log 110) -/
def parseCtx (b : List Byte) : Option Ctx :=
  let w := fieldNat b 0 4
  let entry (v : Nat) : Nat := fieldNat b (4 + v) 1
  let okEntry (v : Nat) : Bool := entry v / 16 % 8 == 0 && (entry v < 128 || entry v % 16 < 4)
  if w / 2 ^ 31 = 1 && w / 2 ^ 20 % 2 ^ 11 = 0 && (List.range 4).all okEntry && fieldNat b 16 2 ≤ 4096 && zeroBytes b 18 6 &&
    zeroBytes b 32 224 then
    some ⟨w % 2 ^ 20, (List.range 4).map fun v => if 128 ≤ entry v then some (BitVec.ofNat 2 (entry v % 16)) else none,
      (List.range 4).map fun v => if 128 ≤ entry v then 0 else BitVec.ofNat 4 (entry v % 16),
      BitVec.ofNat 64 (fieldNat b 8 8), fieldNat b 16 2, BitVec.ofNat 64 (fieldNat b 24 8), false⟩
  else none

/-- Whether a VDT is well formed (R312). -/
def vdtOk (s : State) (part : Nat) (vdt : List (Option (BitVec 2))) : Bool :=
  let ds := vdt.takeWhile (·.isSome) |>.filterMap id
  ds ≠ [] && (vdt.filterMap id).length == ds.length && ds.eraseDups.length == ds.length &&
    ds.all fun d => partOfDie s.xd0.mode d == part && !(s.die d).retired

/-- The contexts of a partition's banks, by slot. -/
def activeCtxs (s : State) (part : Nat) : List (Nat × Ctx) := (partDies s.xd0.mode part).flatMap fun d => (s.die d).active.ctxs
def allCtxs (s : State) (part : Nat) : List (Nat × Ctx) :=
  activeCtxs s part ++ (partDies s.xd0.mode part).flatMap fun d => (s.die d).shadow.ctxs

def findCtx (s : State) (part slot : Nat) : Option Ctx := kfind (activeCtxs s part) slot

/-- Changes something on every die of a partition. -/
def mapPart (s : State) (part : Nat) (f : DieState → DieState) : State :=
  (partDies s.xd0.mode part).foldl (fun s d => s.mapDie d f) s

/-- Whether an agent holds, or has been promised, a task of a context that has not ended. -/
def residentOf (pasid : Nat) (c : CoreState) : Bool :=
  (c.run != .ended && c.task.any fun t => t.pasid == pasid) || c.shadow.any fun x => x.2.pasid == pasid

/-- A resident task, an unretired engine command or an open splice context of a context of a partition. -/
def inUse (s : State) (part pasid : Nat) : Bool :=
  let here (d : BitVec 2) : Bool := partOfDie s.xd0.mode d == part
  (s.agents.any fun a => here (dieOf a.1) && residentOf pasid a.2) || (s.cmds.any fun c => here c.die && c.pasid == pasid) ||
    (partDies s.xd0.mode part).any fun d => (s.die d).splices.any fun x => x.2.owner == pasid

/-- A drained task, or a launch that is eligible or waits. -/
def queuedOf (s : State) (part pasid : Nat) : Bool :=
  (partDies s.xd0.mode part).any fun d =>
    let x := s.die d
    (x.saves.any fun v => v.2.core.task.any fun t => t.pasid == pasid) || x.active.launches.any fun l => l.pasid == pasid

/-! ### CREATE, DESTROY -/

def clearEvents (l : List (Nat × EvCtr)) (part slot : Nat) : List (Nat × EvCtr) :=
  l.filter fun e => e.1 / 256 != 64 * part + slot

/-- A context record takes its slot (R314). (DEDUCED: log 110) -/
def createCtx (s : State) (part slot : Nat) (c : Ctx) : State :=
  let upd (x : DieState) : DieState := { x with active := { x.active with
    ctxs := kset x.active.ctxs slot c
    stale := kdel x.active.stale slot
    arr := x.active.arr.filter fun a => a.1 / 1024 != slot
    arrMsgs := x.active.arrMsgs.filter fun a => a.1 / 1024 != slot } }
  let s := mapPart s part upd
  { s with
    events := clearEvents s.events part slot
    paths := s.paths.filter fun e => e.1 / 65536 != 64 * part + slot }

/-- CREATE (R314). (DEDUCED: log 110) -/
def execCreate (s : State) : Res :=
  mailboxCmd s 1 "CREATE" fun p c arg =>
    let part := p.toNat
    let slot := cmdSlot c
    withArg s p arg 256 fun b =>
      match parseCtx b with
      | none => answer s p resInvalid
      | some x =>
        if assigned s p || 64 ≤ slot || !vdtOk s part x.vdt || (allCtxs s part).any fun y => y.2.pasid == x.pasid then
          answer s p resInvalid
        else if (findCtx s part slot).isSome then answer s p resNoSpace
        else answer (createCtx s part slot x) p resOk

/-- VAL of a slot is cleared on every die of the partition. (DEDUCED: log 110) -/
def clearCtx (s : State) (part slot : Nat) : State :=
  mapPart s part fun x => { x with active := { x.active with
    ctxs := kdel x.active.ctxs slot
    stale := match kfind x.active.ctxs slot with
      | some c => kset x.active.stale slot c
      | none => x.active.stale } }

/-- Whether a context may not be destroyed yet. -/
def destroyBusy (s : State) (part : Nat) (c : Ctx) : Bool := !c.broken && (inUse s part c.pasid || queuedOf s part c.pasid)

/-- DESTROY (R314): mailbox command that clears an idle context. (DEDUCED: log 110) -/
def execDestroy (s : State) : Res :=
  mailboxCmd s 2 "DESTROY" fun p c _ =>
    let slot := cmdSlot c
    if assigned s p || 64 ≤ slot then answer s p resInvalid
    else
      match findCtx s p.toNat slot with
      | none => answer s p resOk
      | some x => if destroyBusy s p.toNat x then answer s p resBusy else answer (clearCtx s p.toNat slot) p resOk

/-! ### SWAP (R317) -/

/-- A launch that leaves or enters the active bank holds no lease. (DEDUCED: log 111) -/
def unlease (b : Bank) : Bank :=
  { b with launches := b.launches.map fun l => { l with lease := none, held := [], found := [], eligible := false } }

/-- Moves the barrier records of the gangs of a die's active bank whose lead core waits, ended, for its gang, out of that core
(R317), which stays held for the gang (R16). (DEDUCED: log 146) -/
def parkBars (s : State) (d : BitVec 2) : State :=
  let leadOf (g : Gang) : Option Nat := (List.range 512).find? fun k =>
    (s.agent k).run == .ended && (s.agent k).task.any fun t => t.launch == g.launch && t.gang == g.index && t.lead == k
  let park (g : Gang) : Gang := match leadOf g with
    | some k => { g with bars := g.bars ++ barsOf s k }
    | none => g
  let gone := (s.die d).active.gangs.filterMap leadOf
  { s.mapDie d (fun x => { x with active := { x.active with gangs := x.active.gangs.map park } }) with
    bars := s.bars.filter fun b => !gone.contains (b.1 / 1024) }

/-- The banks of a partition's dies change places, and their translation caches are invalidated. (DEDUCED: log 111, 146) -/
def swapBanks (s : State) (part : Nat) : State :=
  let s := (partDies s.xd0.mode part).foldl parkBars s
  let s := mapPart s part fun x => { x with active := unlease x.shadow, shadow := unlease x.active, tlb := [], upper := [], icache := [] }
  let mine (e : Nat × EvCtr) : Bool := e.1 / 16384 == part
  let join (a b : List (Nat × EvCtr)) : List (Nat × EvCtr) := (b.filter mine).foldl (fun l e => kset l e.1 e.2) (a.filter fun e => !mine e)
  { s with events := join s.events s.eventsSh, eventsSh := join s.eventsSh s.events }

/-- SWAP is accepted (R317). (DEDUCED: log 111) -/
def execSwap (s : State) : Res :=
  mailboxCmd s 3 "SWAP" fun p _ _ =>
    if (activeCtxs s p.toNat).any fun c => inUse s p.toNat c.2.pasid then answer s p resBusy
    else
      let s := swapBanks s p.toNat
      ok { s with xd0 := { s.xd0 with busy := true } }

/-- SWAP_COMPLETE: 16 µs after its acceptance the swap ends. (DEDUCED: log 111) -/
def execSwapComplete (s : State) : Res :=
  match s.xd0.queue.head? with
  | some (.mailbox p _ _) => if swapping s p.toNat then answer s p resOk else notEnabled "SWAP_COMPLETE"
  | _ => notEnabled "SWAP_COMPLETE"

/-! ### The interface in ERROR (R366) -/

/-- The launches of a die whose tasks stand on cores, and those cores. -/
def gangCores (s : State) (d : BitVec 2) (l : Launch) : List Nat :=
  ((s.die d).active.gangs.filter fun g => g.launch == l.id).flatMap (·.cores)

/-- TDI_ERROR (R366): the interface stops; the partition's resident tasks are drained and their launches cancelled. -/
def tdiError (s : State) (p : BitVec 2) : State :=
  let s := s.setPf p { s.pf p with tdi := .error }
  (partDies s.xd0.mode p.toNat).foldl (fun s d =>
    (s.die d).active.launches.foldl (fun s l =>
      let ks := gangCores s d l
      if ks = [] then s
      else cancelRunning (ks.foldl requestDrain s) d l { TrapInfo.mk0 0x14 1 0 0 with sub := 2 }) s) s

/-! ### Resets (R318) -/

/-- Whether a physical address lies in a scratchpad of a die. -/
def inDieSp (d : BitVec 2) (pa : Nat) : Bool :=
  decide (spAddr (128 * d.toNat) 0 ≤ pa) && decide (pa < spAddr (128 * d.toNat + 128) 0)

/-- Whether a physical address lies in the pool of a die. -/
def inPool (d : BitVec 2) (pa : Nat) : Bool := regionOf pa == .pool d

/-- Zeroes the bytes that `gone` selects, with their poison marks, full-empty bits and writer tags. -/
def zeroStores (s : State) (gone : Nat → Bool) : State :=
  { s with
    mem := s.mem.filter fun c => !gone c.1
    poison := s.poison.filter fun a => !gone a
    baseRel := s.baseRel.filter fun r => !gone r.1
    writes := s.writes.map fun w => { w with
      bytes := w.bytes.filter (fun b => !gone b.pa), full := w.full.filter fun pa => !gone pa }
    fe := s.fe.filter fun g => !gone (16 * g.1)
    tags := s.tags.filter fun g => !gone (16 * g.1) }

def onTile (d : BitVec 2) (k : Nat) : Bool := k < 512 && dieOf k == d

/-- The effect of a core reset: every core of the die and its stores are zeroed, and no granule of the die keeps a tag. -/
def coreReset (s : State) (d : BitVec 2) : State :=
  let s := zeroStores s (inDieSp d)
  let s := { s with bars := s.bars.filter fun b => !onTile d (b.1 / 1024), parked := s.parked.filter fun a => !onTile d a.1 }
  let s := { s with tags := s.tags.filter fun g => !inPool d (16 * g.1) }
  let s := s.mapDie d fun x => { x with dctl := x.dctl &&& 2#2 }
  if onTile d s.coreId then { s with core := s.idle s.coreId } else s

/-- The effect of an uncore reset, which includes a core reset. (DEDUCED: log 113) -/
def uncoreReset (s : State) (d : BitVec 2) : State :=
  let s := zeroStores (coreReset s d) (inPool d)
  let s := s.mapDie d fun x => { x with dctl := 0, active := Bank.empty, shadow := Bank.empty, splices := [], rows := [], saves := [] }
  { s with epochs := Vector.ofFn fun (k : Fin 512) => if dieOf k.val = d then 1 else s.epochs[k] }

/-- No task is resident on a die, and every central piece of its commands has completed or failed. -/
def coreIdle (s : State) (d : BitVec 2) : Bool :=
  (s.agents.all fun a => !onTile d a.1 || (a.2.task.isNone && a.2.shadow.isNone)) &&
    s.cmds.all fun c => c.die != d || c.pieces.all fun p => p.site != .central || p.out.isSome

/-- Whether a running context binds a die (R315). -/
def bound (s : State) (d : BitVec 2) : Bool := (allCtxs s (partOfDie s.xd0.mode d)).any fun c => c.2.vdt.contains (some d)

/-- CORE_RESET (R318): A DCTL core reset takes effect once its precondition holds. -/
def execCoreReset (die : BitVec 2) (s : State) : Res :=
  if (s.die die).dctl.getLsbD 0 && coreIdle s die then ok (coreReset s die) else notEnabled "CORE_RESET"

/-- UNCORE_RESET (R318). (DEDUCED: log 113) -/
def execUncoreReset (die : BitVec 2) (s : State) : Res :=
  if (s.die die).dctl.getLsbD 1 && coreIdle s die && !bound s die then ok (uncoreReset s die) else notEnabled "UNCORE_RESET"

/-- A die is retired (R319): its core domain stays in reset, and XD0 records it. -/
def retireDie (s : State) (d : BitVec 2) : State :=
  let s := s.mapDie d fun x => { x with crst := true, retired := true }
  let s := coreReset s d
  { s with xd0 := { s.xd0 with retire := if s.xd0.retire.contains d then s.xd0.retire else s.xd0.retire ++ [d] } }

/-- RETIRE (R319): mailbox command that retires an unbound compute die. -/
def execRetire (s : State) : Res :=
  mailboxCmd s 5 "RETIRE" fun p c _ =>
    let d : BitVec 2 := BitVec.ofNat 2 (cmdArg c)
    if 4 ≤ cmdArg c then answer s p resInvalid
    else if bound s d then answer s p resBusy
    else answer (retireDie s d) p resOk

/-! ### MODE (R315, R364, R366) -/

/-- The dies that a function serves; none when it is dormant. -/
def pfDies (mode : BitVec 2) (p : BitVec 2) : List (BitVec 2) := partDies mode p.toNat

/-- The functions whose partition a new mode changes. -/
def movedPfs (old new : BitVec 2) : List (BitVec 2) := allDies.filter fun p => pfDies old p != pfDies new p

/-- The dies that a new mode moves to another partition. (DEDUCED: log 112) -/
def movedDies (old new : BitVec 2) : List (BitVec 2) := allDies.filter fun d => partOfDie old d != partOfDie new d

/-- Whether a function that a new mode moves has a request to the host outstanding (R364). (DEDUCED: log 112) -/
def hostAsked (s : State) (p : BitVec 2) : Bool :=
  (pfDies s.xd0.mode p).any fun d => (s.die d).ats ≠ [] || ((s.die d).prqs.any fun q => q.2.pending)

/-- The mode changes: every die whose partition changes passes through an uncore reset, stack bytes stay in their cells, and
the functions of the new mode are active. (DEDUCED: log 112) -/
def changeMode (s : State) (m : BitVec 2) : State :=
  let old := s.xd0.mode
  let s := (movedDies old m).foldl uncoreReset (settleAll s)
  let s := remap s { s.xd0 with mode := m }
  (movedPfs old m).foldl (fun s p =>
    s.setPf p { s.pf p with active := decide (p.toNat < partCount m), tdi := .unlocked }) s

/-- MODE (R315). (DEDUCED: log 112) -/
def execMode (s : State) : Res :=
  mailboxCmd s 4 "MODE" fun p c _ =>
    let m : BitVec 2 := BitVec.ofNat 2 (cmdArg c)
    let old := s.xd0.mode
    if 3 ≤ cmdArg c then answer s p resInvalid
    else if m = old then answer s p resOk
    else
      let hit := (movedPfs old m).filter (assigned s)
      if hit ≠ [] then answer (hit.foldl tdiError s) p resInvalid
      else if allDies.any fun d => allCtxs s (partOfDie old d) ≠ [] then answer s p resBusy
      else if !(movedDies old m).all (coreIdle s) || (movedPfs old m).any (hostAsked s) then notEnabled "MODE"
      else answer (changeMode s m) p resOk

/-! ### REVOKE (R343) -/

/-- The launches of a context whose claims overlap a range, with their dies. -/
def overlapped (s : State) (part slot base len : Nat) : List (BitVec 2 × Launch) :=
  (partDies s.xd0.mode part).flatMap fun d =>
    ((s.die d).active.launches.filter fun l => l.slot == slot && l.claims.any fun c => c.overlaps base len).map fun l => (d, l)

/-- Whether every die has the save slots that draining some cores takes (R355). -/
def slotsFor (s : State) (ks : List Nat) : Bool :=
  allDies.all fun d =>
    let n := (ks.filter fun k => dieOf k == d && (s.agent k).drainReq.isNone && (s.agent k).drainRpc.isNone).length
    n = 0 || slotsUsed s d + n ≤ 512

/-- REVOKE begins, once it finds save slots: the tasks are drained and the launches marked not eligible. (DEDUCED: log 110) -/
def execRevoke (s : State) : Res :=
  mailboxCmd s 6 "REVOKE" fun p c arg =>
    let slot := cmdSlot c
    if 64 ≤ slot then answer s p resInvalid
    else
      withArg s p arg 16 fun b =>
        let base := fieldNat b 0 8
        let len := fieldNat b 8 8
        let ls := overlapped s p.toNat slot base len
        let stop (s : State) (x : BitVec 2 × Launch) : State :=
          (gangCores s x.1 x.2).foldl requestDrain (mapLaunch s x.1 x.2.id fun l => { l with eligible := false })
        if !slotsFor s (ls.flatMap fun x => gangCores s x.1 x.2) then notEnabled "REVOKE"
        else
          let s := ls.foldl stop s
          ok { s with xd0 := { s.xd0 with busy := true, revoke := some (slot, base, len) } }

/-- A launch loses its lease, and its die the translations of its claims, so that it becomes resident through fresh ones. -/
def dropLease (s : State) (x : BitVec 2 × Launch) : State :=
  let hit (e : TlbEntry) : Bool := x.2.claims.any fun c => e.meets x.2.pasid c.base c.len
  let s := s.mapDie x.1 fun d => d.forget hit
  mapLaunch s x.1 x.2.id fun l => { l with lease := none, held := [], eligible := false }

/-- REVOKE_COMPLETE: the tasks have left their cores, the leases are dropped, and no stake of the context remains in the
range. (DEDUCED: log 111) -/
def execRevokeComplete (s : State) : Res :=
  match s.xd0.revoke, s.xd0.queue.head? with
  | some (slot, base, len), some (.mailbox p _ _) =>
    if !s.xd0.busy then notEnabled "REVOKE_COMPLETE"
    else
      let ls := overlapped s p.toNat slot base len
      let t := ls.foldl dropLease s
      let left := match findCtx s p.toNat slot with
        | some c => (allStakes t).any fun k => k.meets c.pasid base len
        | none => false
      if left || ls.any fun x => gangCores s x.1 x.2 ≠ [] then notEnabled "REVOKE_COMPLETE"
      else answer t p resOk
  | _, _ => notEnabled "REVOKE_COMPLETE"

/-! ### KEYLOAD, KEYMAP (R314, R320) -/

/-- KEYLOAD (R314, R320). (DEDUCED: log 115) -/
def execKeyload (s : State) : Res :=
  mailboxCmd s 7 "KEYLOAD" fun p _ arg =>
    withArg s p arg 112 fun b =>
      let slot := fieldNat b 0 2
      let session := fieldNat b 4 4
      let part (lo n : Nat) : List Byte := (b.drop lo).take n
      if slot = 0 || 1023 < slot || !zeroBytes b 2 2 || !zeroBytes b 100 12 || !(s.pf 0).sessions.contains session then
        answer s p resInvalid
      else
        match Config.gcmOpen session (part 8 12) (part 0 8) (part 20 64) (part 84 16) with
        | none => answer s p resInvalid
        | some key => answer (remap s { s.xd0 with keys := kset s.xd0.keys slot ((key ++ List.replicate 64 0).take 64) }) p resOk

/-- The partition to whose memory a key-map entry belongs. -/
def entryPart (mode : BitVec 2) (i : Nat) : Nat :=
  if i < 327680 then i * 2 ^ 21 / partSize mode else partOfDie mode (BitVec.ofNat 2 ((i - 327680) / 48))

/-- KEYMAP (R314): mailbox command that sets a run of key-map entries. -/
def execKeymap (s : State) : Res :=
  mailboxCmd s 8 "KEYMAP" fun p _ arg =>
    withArg s p arg 16 fun b =>
      let first := fieldNat b 0 4
      let count := fieldNat b 4 4
      let slot := fieldNat b 8 2
      let run := (List.range count).map fun i => first + i
      if keyMapSize < first + count || count = 0 || 1023 < slot || !zeroBytes b 10 6 ||
        run.any fun i => assigned s (pfOf (entryPart s.xd0.mode i)) then answer s p resInvalid
      else
        let m := run.foldl (fun l i => kput 0 l i (BitVec.ofNat 10 slot)) s.xd0.keymap
        answer (remap s { s.xd0 with keymap := m }) p resOk

end Sys2Proof.Machine
end

