-- ==== Sys2Proof/Machine/Package.lean ====
section
/-! DEFINITION. The package around the dies: the host link and BAR0 (R308, R310, R360, R363 to R367), boot (R374 to R376), power
and cooling (R361, R362), attestation (R377), errors (R116, R218, R348, R349, R359, R90) and port training (R373). -/

namespace Sys2Proof.Machine

open Sys2Proof

/-! ### BAR0 (R310, R360, R365) -/

/-- Whether a register or table entry of a compute-die block of its own partition may be read by the host. (DESIGN CHOICE: log 9)
(DEDUCED: log 116) -/
def hostDieRead (o : Nat) : Bool :=
  if o < 0x1000 then [0, 4, 5, 6, 8, 12].contains (o / 4)
  else true

/-- Whether the function of a partition may read a byte of control space; that a register stands there is asked apart. -/
def hostReads (s : State) (p : BitVec 2) (a : Nat) : Bool :=
  if a < 4 * blockSize then
    partOfDie s.xd0.mode (BitVec.ofNat 2 (a / blockSize)) == p.toNat && hostDieRead (a % blockSize)
  else if xd0Base ≤ a && a < xd0Base + blockSize then
    let o := a - xd0Base
    if 0x100 ≤ o && o < 0x200 then (o - 0x100) / 0x40 == p.toNat
    else if 0x208 ≤ o && o < 0x220 then p == 0
    else true
  else false

/-- Whether the function of a partition may write a byte of control space. -/
def hostWrites (s : State) (p : BitVec 2) (a : Nat) : Bool :=
  if a < 4 * blockSize then
    let o := a % blockSize
    let mine := partOfDie s.xd0.mode (BitVec.ofNat 2 (a / blockSize)) == p.toNat
    mine && (
      if o < 0x1000 then o / 4 == 5 || o / 4 == 12
      else if o < 0x9000 then o % 0x100 / 8 == 10
      else 0x40000 ≤ o && o < 0x80000 && (o % 0x1000 < 0x100 || (0x400 ≤ o % 0x1000 && o % 0x1000 < 0xC00)))
  else if xd0Base ≤ a && a < xd0Base + blockSize then
    let o := a - xd0Base
    if o < 4 then p == 0
    else if 0x100 ≤ o && o < 0x200 then (o - 0x100) / 0x40 == p.toNat
    else if 0x208 ≤ o && o < 0x21C then p == 0
    else 0x304 ≤ o && o < 0x308 && p == 0
  else false

/-- The answer to a host read: the bytes with their poison marks, or none for an Unsupported Request. What no route from XD0
reaches is poisoned (R359). -/
def hostRead (s : State) (p : BitVec 2) (a len : Nat) : Option (List (Byte × Bool)) :=
  let far (pa : Nat) (b : Byte × Bool) : Byte × Bool := if linked s hostSocket pa then b else (0, true)
  let one (pa : Nat) : Option (Byte × Bool) :=
    match regionOf pa with
    | .control => if hostReads s p pa then (ctlByte s pa).map fun b => far pa (b, false) else none
    | .none | .host => none
    | _ =>
      if partOwns s.xd0.mode p.toNat pa then let b := homeByte s pa; some (far pa (b.val, b.poison)) else none
  let bs := (List.range len).map fun i => one (a + i)
  if bs.all (·.isSome) then some (bs.filterMap id) else none

/-- Whether a host write is accepted. -/
def hostMayWrite (s : State) (p : BitVec 2) (a len : Nat) : Bool :=
  (List.range len).all fun i =>
    match regionOf (a + i) with
    | .control => hostWrites s p (a + i)
    | .none | .host => false
    | _ => partOwns s.xd0.mode p.toNat (a + i)

/-- A host write of device memory: every earlier write is settled, and it comes last in the coherence order; the bytes that no route
from XD0 reaches are dropped, and the drop is logged (R359). (DESIGN CHOICE: log 9) (DEDUCED: log 116) -/
def hostStore (s : State) (a : Nat) (bs : List Byte) : State :=
  let ws : List WByte := bs.zipIdx.map fun b => ⟨a + b.2, b.1, false⟩
  let t := baseWrite (settleAll s) none (ws.filter fun b => linked s hostSocket b.pa)
  match ws.find? fun b => !linked s hostSocket b.pa with
  | some b => hostDropped t b.pa
  | none => t

/-- BAR0_REQUEST, at an offset in the function's window: a refused read has an Unsupported Request as its answer, and a refused
write changes nothing. A write of a launch window waits for the end of a SWAP (R327). (DEDUCED: log 116) -/
def execBar0Request (pf : BitVec 2) (x : Bar0Access) (addr len : Nat) (data : List Byte) (s : State) : Res :=
  if len = 0 || 2 ^ 40 < addr + len || (x.write && data.length ≠ len) then notEnabled "BAR0_REQUEST"
  else if !barOpen s pf x.ide then ok (barAnswer s none)
  else if !x.write then ok (barAnswer s (hostRead s pf addr len))
  else if !hostMayWrite s pf addr len then ok (barAnswer s none)
  else if (windowAt addr).isSome && swapping s pf.toNat then notEnabled "BAR0_REQUEST"
  else if addr < Config.controlEnd then
    if linked s hostSocket addr then stepped (barAnswer (ctlWrite s addr data) (some []))
    else ok (barAnswer (hostDropped s addr) (some []))
  else ok (barAnswer (hostStore s addr data) (some []))

/-! ### Boot (R374 to R376) -/

/-- BSTAT.PHASE and ERR change; the change of the phase is told through PF0 (R367). -/
def setPhase (s : State) (phase : BitVec 4) (err : BitVec 8) : State :=
  let t := { s with xd0 := { s.xd0 with phase := phase, err := err } }
  if s.xd0.phase = phase then t else raiseVector t 0 9

def anyContext (s : State) : Bool := allDies.any fun d => (s.die d).active.ctxs ≠ [] || (s.die d).shadow.ctxs ≠ []

/-- The controller may take the next command. -/
def dropHead (s : State) : State := { s with xd0 := { s.xd0 with queue := s.xd0.queue.tail, busy := false } }

/-- LOAD comes to its turn (R374). -/
def execLoad (s : State) : Res :=
  if s.xd0.busy || s.xd0.queue.head? ≠ some .load || !([1, 4, 5].contains s.xd0.phase.toNat) then notEnabled "LOAD"
  else if anyContext s then ok (dropHead (setPhase s s.xd0.phase 6))
  else ok (setPhase { s with xd0 := { s.xd0 with busy := true } } 2 0)

/-- Whether a firmware header is good (R375). -/
def headerOk (b : List Byte) (blen : Nat) : Bool :=
  let body := fieldNat b 16 8
  fieldNat b 0 4 == 0x46545653 && fieldNat b 4 4 == 1 && zeroBytes b 9 7 && body % 4096 == 0 && body ≤ 2 ^ 28 &&
    blen == 2048 + body && zeroBytes b 24 40 && fieldNat b 576 4 == 65537 && zeroBytes b 580 444 && zeroBytes b 1536 512

/-- The first check that an image fails, or 0. (DEDUCED: log 117) -/
def imageError (s : State) (b : List ReadByte) : BitVec 8 :=
  let x := b.map (·.val)
  let part (lo n : Nat) : List Byte := (x.drop lo).take n
  if s.xd0.blen.toNat < 2048 || 2 ^ 64 < s.xd0.baddr.toNat + s.xd0.blen.toNat || (s.pf 0).tdi == .error || b.any (·.poison) then 1
  else if !headerOk x s.xd0.blen.toNat then 2
  else if Config.sha512 (part 64 516) ≠ Config.fusedKeyHash then 3
  else if !Config.pssVerify (part 64 512) (part 1024 512) (Config.sha512 (x.take 1024 ++ x.drop 2048)) then 4
  else if fieldNat x 8 1 < Config.fusedMinSvn then 5
  else 0

/-- IMAGE_VERIFICATION: the root of trust has read and checked the image. (DEDUCED: log 117) -/
def execImageVerification (s : State) : Res :=
  if s.xd0.phase ≠ 2 then notEnabled "IMAGE_VERIFICATION"
  else
    let b := (List.range s.xd0.blen.toNat).map fun i => homeByte s (Config.hostSpace + (s.xd0.baddr.toNat + i) % 2 ^ 64)
    let e := imageError s b
    if e ≠ 0 then ok (dropHead (setPhase s 5 e))
    else
      let x := b.map (·.val)
      ok (setPhase { s with xd0 := { s.xd0 with image := x, svn := BitVec.ofNat 8 (fieldNat x 8 1) } } 3 0)

/-- A die's controller starts the firmware: everything of the die is at its reset value, but that a retired die stays so.
(DESIGN CHOICE: log 13) (DEDUCED: log 117) -/
def startFirmware (s : State) (d : BitVec 2) : State :=
  let s := s.mapDie d fun x => { DieState.reset with up := true, retired := x.retired, crst := x.retired }
  let s := s.setAgent (512 + d.toNat) { CoreState.fresh .running with pc := align16 Config.firmwareEntry }
  if onTile d s.coreId then { s with core := s.idle s.coreId } else s

/-- STARTING_DIES_DONE: on every die the firmware runs and the uncore is reset; the stacks hold zero, the core domains are
released but on retired dies, and key slots and key map are zero. Nothing of an earlier image's contexts is left.
(DEDUCED: log 117) -/
def execStartingDiesDone (s : State) : Res :=
  if s.xd0.phase ≠ 3 || !allDies.all (coreIdle s) then notEnabled "STARTING_DIES_DONE"
  else
    let s := settleAll { s with
      cmds := [], faceQ := [], events := [], eventsSh := [], snaps := [], paths := [], invals := [], flows := [] }
    let s := allDies.foldl uncoreReset s
    let s := zeroStores s fun pa => regionOf pa == .stack
    let s := { s with xd0 := { s.xd0 with keys := [], keymap := [] } }
    ok (dropHead (setPhase (allDies.foldl startFirmware s) 4 0))

/-- Steps 1 and 2 of R376 end: the retirement record is applied, and the functions enumerate. -/
def enumerate (s : State) : State :=
  let s := allDies.foldl (fun s d => s.mapDie d fun x => { x with retired := s.xd0.retire.contains d }) s
  setPhase { s with powered := true } 1 0

/-- POWER_ON: from power off, the module is as at reset, but for stack contents, the retirement record and what lies outside
it (R319, R362). (DEDUCED: log 118) -/
def execPowerOn (s : State) : Res :=
  if s.powered && s.xd0.phase ≠ 0 then notEnabled "POWER_ON"
  else if s.powered then ok (enumerate s)
  else
    let kept (pa : Nat) : Bool := regionOf pa == .stack || regionOf pa == .host
    ok (enumerate { State.reset with
      mem := s.mem.filter fun c => kept c.1
      poison := s.poison.filter kept
      xd0 := { Xd0.reset with retire := s.xd0.retire }
      choice := s.choice, agenda := s.agenda, msix := s.msix })

/-! ### Power and cooling (R17, R361, R362) -/

/-- A vector of every active function. -/
def raiseAll (s : State) (v : Nat) : State := allDies.foldl (fun s p => raiseVector s p v) s

/-- The power and temperature words. (DESIGN CHOICE: log 125) -/
def setWatts (s : State) (watts tj : Nat) : State :=
  { s with xd0 := { s.xd0 with pwrnow := BitVec.ofNat 32 watts, tjmax := BitVec.ofNat 32 tj } }

/-- Whether power or temperature calls for a cut. -/
def cutDue (s : State) (watts tj : Nat) : Bool := s.xd0.pwrcap.toNat < watts || 950 < tj

/-- The rate that a four-bit count of sixteenths stands for; 0 is full rate. (DEDUCED: log 119) -/
def sixteenths (r : BitVec 4) : BitVec 5 := if r = 0 then 16 else r.setWidth 5

/-- POWER_CUT: the manager lowers issue rates, die by die; every gang is cut as a unit. Above 110.0 °C the rule of
THERMAL_THROTTLE holds instead. (DEDUCED: log 119, 124) -/
def execPowerCut (watts tj : Nat) (rates : List (BitVec 4)) (s : State) : Res :=
  let r : RegFile 2 (BitVec 5) := Vector.ofFn fun (i : Fin 4) => sixteenths (rates.getD i.val 0)
  let lower (i : Fin 4) : Bool := (r.get i).toNat ≤ (s.xd0.rates.get i).toNat
  if !cutDue s watts tj || 1100 < tj || rates.length ≠ 4 || !(List.finRange 4).all lower || r = s.xd0.rates then
    notEnabled "POWER_CUT"
  else
    let t := setWatts s watts tj
    let t := setRates { t with xd0 := { t.xd0 with rates := r, cutting := true } }
    ok (if s.xd0.cutting then t else raiseAll t 10)

/-- POWER_CUT_END: full rates come back. (DEDUCED: log 124) -/
def execPowerCutEnd (watts tj : Nat) (s : State) : Res :=
  if !s.xd0.cutting || cutDue s watts tj then notEnabled "POWER_CUT_END"
  else
    let t := setWatts s watts tj
    ok (raiseAll (setRates { t with xd0 := { t.xd0 with rates := Vector.replicate _ 16, cutting := false, hot := false } }) 10)

/-- THERMAL_THROTTLE, a new reading of the hottest junction: as it rises above 110.0 °C every core goes to 1/16, and no new face
piece starts until it has fallen again. (DEDUCED: log 124) -/
def execThermalThrottle (tj : Nat) (s : State) : Res :=
  let x := { s.xd0 with tjmax := BitVec.ofNat 32 tj }
  if 1100 < tj && !s.xd0.hot then
    let x := { x with rates := Vector.replicate _ 1, cutting := true, hot := true, hotAt := s.time }
    ok (raiseAll (setRates { s with xd0 := x }) 10)
  else if tj ≤ 1100 && s.xd0.hot then ok { s with xd0 := { x with hot := false } }
  else notEnabled "THERMAL_THROTTLE"

/-- 10 ms at 1.3 GHz. (DEDUCED: log 124) -/
def shutdownCycles : Nat := 13000000

/-- THERMAL_SHUTDOWN: the module removes its own power. (DEDUCED: log 118, 124) -/
def execThermalShutdown (tj : Nat) (s : State) : Res :=
  if tj ≤ 1150 || !s.xd0.hot || s.time < s.xd0.hotAt + shutdownCycles then notEnabled "THERMAL_SHUTDOWN"
  else ok { s with powered := false }

/-! ### Functions (R364, R366, R367, R377) -/

/-- The contexts of a partition's shadow banks are destroyed: none has a task, a command or a splice context (R317).
(DEDUCED: log 122) -/
def destroyShadow (s : State) (part : Nat) : State :=
  let ps := (partDies s.xd0.mode part).flatMap fun d => (s.die d).shadow.ctxs.map (·.2.pasid)
  mapPart s part fun x => { x with
    saves := x.saves.filter fun v => !(v.2.core.task.any fun t => ps.contains t.pasid)
    shadow := { Bank.empty with stale := x.shadow.ctxs.foldl (fun l c => kset l c.1 c.2) x.shadow.stale } }

/-- A context's launches and drained tasks are given up. (DEDUCED: log 122) -/
def releaseCtx (s : State) (part pasid : Nat) : State :=
  mapPart s part fun x => { x with
    saves := x.saves.filter fun v => !(v.2.core.task.any fun t => t.pasid == pasid)
    active := { x.active with
      gangs := x.active.gangs.filter fun g => !(x.active.launches.any fun l => l.id == g.launch && l.pasid == pasid)
      launches := x.active.launches.filter fun l => l.pasid != pasid } }

/-- The contexts of a partition's active bank by slot, each once. -/
def slotsOf (s : State) (part : Nat) : List (Nat × Ctx) :=
  (List.range 64).filterMap fun i => (findCtx s part i).map fun c => (i, c)

/-- Destroys, in slot order, every context of a partition that nothing uses. (DEDUCED: log 122) -/
def destroyIdle (s : State) (part : Nat) : State :=
  (slotsOf s part).foldl (fun s x =>
    if !x.2.broken && inUse s part x.2.pasid then s else clearCtx (releaseCtx s part x.2.pasid) part x.1) s

/-- The launches of a partition are marked not eligible, and their tasks drained, as a REVOKE of all claims would. -/
def revokeAll (s : State) (part : Nat) : State :=
  (partDies s.xd0.mode part).foldl (fun s d =>
    (s.die d).active.launches.foldl (fun s l =>
      (gangCores s d l).foldl requestDrain (mapLaunch s d l.id fun l => { l with eligible := false, cancelled := true })) s) s

/-- The saved tasks of a partition's launches, none of which will resume, are given up, with their splice contexts (R127).
(DEDUCED: log 122) -/
def discardAll (s : State) (part : Nat) : State :=
  (partDies s.xd0.mode part).foldl (fun s d => (s.die d).active.launches.foldl (fun s l => discardSaves s d l) s) s

/-- FUNCTION_LEVEL_RESET: the interface goes to ERROR, and every context is destroyed, in slot order; those that are in use
first lose their tasks, resident or saved, and a second FUNCTION_LEVEL_RESET step destroys them. (DEDUCED: log 122) -/
def execFunctionLevelReset (pf : BitVec 2) (s : State) : Res :=
  let part := pf.toNat
  let again := (s.pf pf).flr
  let s1 := destroyIdle (destroyShadow (discardAll (if again then s else revokeAll (tdiError s pf) part) part) part) part
  let left := slotsOf s1 part ≠ []
  if !(s.pf pf).active then ok (s.setPf pf { s.pf pf with tdi := .error })
  else if again && left then notEnabled "FUNCTION_LEVEL_RESET"
  else ok (s1.setPf pf { s1.pf pf with flr := left })

/-- IDE_INTEGRITY_FAILURE (R366): A failed IDE check puts the TDI into ERROR. -/
def execIdeIntegrityFailure (pf : BitVec 2) (s : State) : Res := ok (tdiError s pf)

/-- The state to which a TDISP message moves an interface; a message out of its state moves nothing. (PRESUMED: log 121) -/
def tdispNext (t : Tdi) (m : TdispKind) : Tdi :=
  match m, t with
  | .lock, .unlocked => .locked
  | .start, .locked => .run
  | .stop, _ => .unlocked
  | _, t => t

/-- TDISP_MESSAGE: refused outside a secured session with the function (R377). -/
def execTdispMessage (pf : BitVec 2) (m : TdispMsg) (s : State) : Res :=
  let f := s.pf pf
  if m.session.any f.sessions.contains then ok (s.setPf pf { f with tdi := tdispNext f.tdi m.kind, spdm := some [] })
  else ok (s.setPf pf { f with spdm := none })

/-- The codes of the TDI states (R366). (PRESUMED: log 121) -/
def Tdi.code : Tdi → Byte
  | .unlocked => 0 | .locked => 1 | .run => 2 | .error => 3

/-- The measurements of R377. (PRESUMED: log 121) -/
def measurement (s : State) (pf : BitVec 2) (i : Nat) : Option (List Byte) :=
  match i with
  | 1 => some Config.romHash
  | 2 => some (Config.sha512 s.xd0.image)
  | 3 => some (bytesOfNat 1 Config.fusedMinSvn)
  | 4 => some (bytesOfNat 1 ((s.xd0.retire.eraseDups.map fun d => 2 ^ d.toNat).sum))
  | 5 => some (bytesOfNat 4 s.xd0.pmode)
  | 6 => some [(s.pf pf).tdi.code]
  | _ => none

/-- SPDM_REQUEST over a function's DOE mailbox. (PRESUMED: log 121) -/
def execSpdmRequest (pf : BitVec 2) (r : SpdmReq) (s : State) : Res :=
  let f := s.pf pf
  match r with
  | .openSession n => ok (s.setPf pf { f with sessions := if f.sessions.contains n then f.sessions else f.sessions ++ [n], spdm := some [] })
  | .closeSession n => ok (s.setPf pf { f with sessions := f.sessions.filter (· != n), spdm := some [] })
  | .identityKey => ok (s.setPf pf { f with spdm := some Config.identityKey })
  | .certificateChain => ok (s.setPf pf { f with spdm := some Config.certificateChain })
  | .measurement i => ok (s.setPf pf { f with spdm := measurement s pf i })
  | .keyTraffic n => ok (s.setPf pf { f with spdm := if f.sessions.contains n then some [] else none })

/-- MSIX_UNMASK: a pending message is sent. (DEDUCED: log 120) -/
def execMsixUnmask (pf : BitVec 2) (vec : BitVec 7) (s : State) : Res :=
  if 80 ≤ vec.toNat then notEnabled "MSIX_UNMASK"
  else
    let f := s.pf pf
    let bit : BitVec 80 := 1#80 <<< vec.toNat
    let t := s.setPf pf { f with mask := f.mask &&& ~~~bit }
    ok (if f.pending.getLsbD vec.toNat then raiseVector t pf vec.toNat else t)

/-- MSIX_HOLDOFF: a microsecond after the vector's last message, one further message for the events since. (DEDUCED: log 120) -/
def execMsixHoldoff (pf : BitVec 2) (vec : BitVec 7) (s : State) : Res :=
  let f := s.pf pf
  let v := vec.toNat
  if 80 ≤ v || (kfind f.sent v).isNone || heldOff s f v then notEnabled "MSIX_HOLDOFF"
  else
    let t := s.setPf pf { f with sent := kdel f.sent v, again := f.again &&& ~~~(1#80 <<< v) }
    ok (if f.again.getLsbD v then raiseVector t pf v else t)

/-! ### Errors (R116, R218, R348, R349, R359) -/

/-- Whether two dies belong to one partition; the PASIDs of another partition name other contexts (R312, R313). -/
def sharesPart (s : State) (a b : BitVec 2) : Bool := partOfDie s.xd0.mode a == partOfDie s.xd0.mode b

/-- The tasks of broken contexts end with cause 0x16, in agent order. (DEDUCED: log 88) -/
def endLost (s : State) (lost : BitVec 2) (pasids : List Nat) : State :=
  ((List.range 512).filter fun k => sharesPart s lost (dieOf k)).foldl (fun s k =>
    let c := s.agent k
    match c.task with
    | some t =>
      if c.run != .ended && pasids.contains t.pasid then
        let e := eventOf k c (TrapInfo.mk0 0x16 1 c.pc (BitVec.ofNat 64 lost.toNat)) s.time
        endAt (writeRecord (handle s (dieOf k) fun x => x.core == k && x.info.kind != 2) (dieOf k) e) k
      else s
    | none => s) s

/-- Promised tasks of broken contexts never start: they count as ended. (DEDUCED: log 102) -/
def dropPromises (s : State) (lost : BitVec 2) (pasids : List Nat) : State :=
  ((List.range 512).filter fun k => sharesPart s lost (dieOf k)).foldl (fun s k =>
    match (s.agent k).shadow with
    | some (_, t) =>
      if pasids.contains t.pasid then
        let s := s.mapAgent k fun c => { c with shadow := none }
        let s := mapGang s t fun g => { g with left := g.left - 1, cores := g.cores.filter (· != k) }
        let s := mapLaunch s t.home t.launch fun l => { l with ended := l.ended + 1 }
        dropOver (sweepGangs s t.home t.launch) t.home t.launch
      else s
    | none => s) s

/-- The queued launches of broken contexts, those with a task that has not started or is saved, are cancelled, in either bank, each
with a record of the die. (DEDUCED: log 102) -/
def cancelLost (s : State) (lost : BitVec 2) (pasids : List Nat) : State :=
  let t := TrapInfo.mk0 0x16 1 0 (BitVec.ofNat 64 lost.toNat)
  (allDies.filter (sharesPart s lost)).foldl (fun s d =>
    let saved (l : Launch) : Bool := allDies.any fun e => (s.die e).saves.any fun v => v.2.core.task.any fun t => t.launch == l.id
    let promised (l : Launch) : Bool := s.agents.any fun a => a.2.shadow.any fun x => x.2.launch == l.id
    let queued (l : Launch) : Bool :=
      pasids.contains l.pasid && (l.placed < l.plane.gangs || l.drained ≠ [] || saved l || promised l)
    let s := ((s.die d).active.launches.filter queued).foldl (fun s l => cancelRunning s d l t) s
    let old := (s.die d).shadow.launches.filter fun l => pasids.contains l.pasid
    let s := old.foldl (fun s l => logEvent s d 0xFFFF l.pasid 0 t) s
    s.mapDie d fun x => { x with shadow := { x.shadow with launches := x.shadow.launches.filter fun l => !pasids.contains l.pasid } }) s

/-- The pieces of a command that `hit` selects, of those not yet ended, fail with OUT 2 (R79): none of which a write has been
made, since a failed piece leaves its destination unchanged (R80), and none that fails already. A piece that has not begun has
shipped nothing. (DEDUCED: log 143) -/
def failPieces (c : Cmd) (hit : Piece → Bool) (pa : Nat) : Cmd :=
  let lost := (c.pieces.zipIdx.filter fun p => p.1.out.isNone && !p.1.wrote && p.1.fate == 0 && hit p.1).map (·.2)
  { c with
    pieces := c.pieces.zipIdx.map fun p => if lost.contains p.2 then
        { p.1 with started := true, shipped := if p.1.started then p.1.shipped else 0, fate := 2, failPa := pa }
      else p.1
    out := c.out.filter fun w => !lost.contains w.piece }

/-- Central pieces on the lost die fail with OUT 2 (R256, R349). (DEDUCED: log 77) -/
def failCentral (s : State) (d : BitVec 2) : State :=
  { s with cmds := s.cmds.map fun c => if c.die = d then failPieces c (fun p => p.site == .central) 0 else c }

/-- A face unit returns an uncorrectable error: the piece that runs on it fails with OUT 2 (R90). LOC names the stack's socket and
the unit (R348). (DEDUCED: log 143) -/
def failFace (s : State) (loc : BitVec 16) (pa : Nat) : State :=
  let hit (p : Piece) : Bool :=
    p.site == .face && p.started && p.home / 32 + 4 == (loc.extractLsb' 0 4).toNat && p.units.contains (loc.extractLsb' 4 12).toNat
  { s with cmds := s.cmds.map fun c => failPieces c hit pa }

/-- The links of a compute die's stop. (DESIGN CHOICE: log 123, 152) -/
def linksOf (d : BitVec 2) : List Nat :=
  let x := d.toNat + 1
  [2 * (6 + x), 2 * (6 + x - 1), 2 * (6 + x) + 1, 2 * x + 1]

/-- The uncore of a lost die may be dead with it, which is a free value of the error: its routers then pass nothing, so that
its stop is cut off and traffic through it takes the detours of R359. (DESIGN CHOICE: log 152) -/
def cutStop (s : State) (d : BitVec 2) (unit : BitVec 8) : State :=
  let t := { s with choice := s.choice + 1 }
  if Config.uncoreWorks d unit s.choice then t
  else { t with links := (linksOf d).foldl (fun l k => kset l k { kget ⟨0, false⟩ l k with down := true }) t.links }

/-- DIE_LOST (R349): the die is retired at once, and every context that it is bound in is broken. (DEDUCED: log 77, 88, 102) -/
def dieLost (s : State) (d : BitVec 2) : State :=
  let breaks (c : Ctx) : Bool := c.vdt.contains (some d)
  let brk (b : Bank) : Bank := { b with ctxs := b.ctxs.map fun c => (c.1, if breaks c.2 then { c.2 with broken := true } else c.2) }
  let pasids := ((allDies.filter (sharesPart s d)).flatMap fun e => (s.die e).active.ctxs ++ (s.die e).shadow.ctxs).filter (fun c => breaks c.2) |>.map (·.2.pasid)
  let s := allDies.foldl (fun s e => s.mapDie e fun x => { x with active := brk x.active, shadow := brk x.shadow }) s
  let s := ((s.die d).splices.filter fun x => pasids.contains x.2.owner).foldl (fun s x => closeSplice s d x.1) s
  let s := endLost (dropPromises (cancelLost s d pasids) d pasids) d pasids
  retireDie (failCentral s d) d

/-- MACHINE_CHECK_ERROR: the entry is logged; an error of a face unit fails its piece, and a fatal one loses the die (R90, R348,
R349). (DEDUCED: log 143) -/
def execMachineCheckError (die : BitVec 2) (unit sev : BitVec 8) (loc : BitVec 16) (pa : Nat) (s : State) : Res :=
  if unit = 0 || 7 < unit.toNat || 2 < sev.toNat || 2 ^ 64 ≤ pa then notEnabled "MACHINE_CHECK_ERROR"
  else
    let s := logCheck s die unit sev loc pa
    let s := if unit = 5 && sev ≠ 0 then failFace s loc pa else s
    stepped (if sev = 2 then cutStop (dieLost s die) die unit else s)

/-- FACE_UNIT_RETIRE: no new piece starts on the unit; the request takes effect once its piece has ended (R348). (DEDUCED: log 78) -/
def execFaceUnitRetire (stack : BitVec 3) (unit : Nat) (s : State) : Res :=
  if 2560 ≤ unit then notEnabled "FACE_UNIT_RETIRE"
  else ok (settleFaces { s with faceReq := sinsert s.faceReq (4096 * stack.toNat + unit) })

/-- An error in a tile that a configured ladder owns sets the PZ bit of its rung (R116). (DEDUCED: log 52) -/
def poisonRung (c : CoreState) (tile : Nat) : CoreState :=
  (List.range 4).foldl (fun c i =>
    let l : BitVec 2 := BitVec.ofNat 2 i
    let x := c.ladder l
    if x.owns tile then c.setLadder l { x with pz := x.pz ||| (1#16 <<< (tile - x.base.toNat)) } else c) c

/-- ACCUMULATOR_SOFT_ERROR: an element of the active core's accumulator store reads uncorrectable (R116), and in a rung sets its
PZ bit. (DEDUCED: log 52) -/
def execAccumulatorSoftError (row : BitVec 11) (col : BitVec 5) (s : State) : Res :=
  let c := { s.core with accErr := sinsert s.core.accErr (32 * row.toNat + col.toNat) }
  ok { s with core := poisonRung c (row.toNat / 32) }

/-- SOFT_ERROR: a byte of the active core's weight buffer, or of device memory, reads uncorrectable (R218). (DEDUCED: log 52) -/
def execSoftError (site : SoftSite) (s : State) : Res :=
  match site with
  | .weightBuffer b =>
    if b < 131072 then ok { s with core := { s.core with wbufErr := sinsert s.core.wbufErr b } } else notEnabled "SOFT_ERROR"
  | .memory pa =>
    match regionOf pa with
    | .pool _ | .sp _ | .stack =>
      let t := settleAll s
      ok { t with poison := sinsert t.poison pa }
    | _ => notEnabled "SOFT_ERROR"

/-- The compute die in whose log a link's errors go: the one at an end of the link, else the one in the column of its first
stop. (DESIGN CHOICE: log 123) -/
def linkDie (l : Nat) : BitVec 2 := BitVec.ofNat 2 (min 4 (max 1 (l / 2 % 6)) - 1)

/-- The links of the 6 by 3 mesh. (DESIGN CHOICE: log 123) -/
def isLink (l : Nat) : Bool := l < 36 && (if l % 2 = 0 then decide (l / 2 % 6 < 5) else decide (l / 2 / 6 < 2))

/-- FLIT_CRC_FAILURE: a flit is sent again, up to 8 times; the ninth failure brings the link down (R359). (DEDUCED: log 128) -/
def execFlitCrcFailure (link : Nat) (again : Bool) (s : State) : Res :=
  let x := kget ⟨0, false⟩ s.links link
  let d := linkDie link
  let n := if again then x.retries else 0
  if !isLink link || x.down then notEnabled "FLIT_CRC_FAILURE"
  else if n < 8 then
    ok { logCheck s d 3 0 (BitVec.ofNat 16 d.toNat) 0 with links := kset s.links link ⟨n + 1, false⟩ }
  else ok { logCheck s d 3 1 (BitVec.ofNat 16 d.toNat) 0 with links := kset s.links link ⟨n, true⟩ }

/-- LINK_TRAINING: a port is up when both its lanes lock (R373). (DEDUCED: log 128) -/
def execLinkTraining (port : BitVec 7) (lane0 lane1 : Bool) (s : State) : Res :=
  ok { s with ports := if lane0 && lane1 then sinsert s.ports port.toNat else s.ports.filter (· != port.toNat) }

end Sys2Proof.Machine
end

