-- ==== Sys2Proof/Machine/Dispatch.lean ====
section
/-! DEFINITION. The dispatch: one arm per constructor of `Instr`. -/

namespace Sys2Proof.Machine

open Sys2Proof

def exec (i : Instr) (s : State) : Host.Outcome State Fault Refusal :=
  match i with
  | .nop => Sys2Proof.Machine.execNop s
  | .add o => Sys2Proof.Machine.execAdd o s
  | .sub o => Sys2Proof.Machine.execSub o s
  | .and o => Sys2Proof.Machine.execAnd o s
  | .or o => Sys2Proof.Machine.execOr o s
  | .xor o => Sys2Proof.Machine.execXor o s
  | .andn o => Sys2Proof.Machine.execAndn o s
  | .min o => Sys2Proof.Machine.execMin o s
  | .max o => Sys2Proof.Machine.execMax o s
  | .minu o => Sys2Proof.Machine.execMinu o s
  | .maxu o => Sys2Proof.Machine.execMaxu o s
  | .shl o => Sys2Proof.Machine.execShl o s
  | .shr o => Sys2Proof.Machine.execShr o s
  | .sra o => Sys2Proof.Machine.execSra o s
  | .rol o => Sys2Proof.Machine.execRol o s
  | .mul o => Sys2Proof.Machine.execMul o s
  | .mulh o => Sys2Proof.Machine.execMulh o s
  | .mulhu o => Sys2Proof.Machine.execMulhu o s
  | .div o => Sys2Proof.Machine.execDiv o s
  | .divu o => Sys2Proof.Machine.execDivu o s
  | .rem o => Sys2Proof.Machine.execRem o s
  | .remu o => Sys2Proof.Machine.execRemu o s
  | .clz d a g => Sys2Proof.Machine.execClz d a g s
  | .ctz d a g => Sys2Proof.Machine.execCtz d a g s
  | .popc d a g => Sys2Proof.Machine.execPopc d a g s
  | .bfx o => Sys2Proof.Machine.execBfx o s
  | .bfi o => Sys2Proof.Machine.execBfi o s
  | .sel o c => Sys2Proof.Machine.execSel o c s
  | .movi d imm g => Sys2Proof.Machine.execMovi d imm g s
  | .movhi d imm q g => Sys2Proof.Machine.execMovhi d imm q g s
  | .cmp cc o => Sys2Proof.Machine.execCmp cc o s
  | .fadd o => Sys2Proof.Machine.execFadd o s
  | .fsub o => Sys2Proof.Machine.execFsub o s
  | .fmul o => Sys2Proof.Machine.execFmul o s
  | .fmin o => Sys2Proof.Machine.execFmin o s
  | .fmax o => Sys2Proof.Machine.execFmax o s
  | .ffma o => Sys2Proof.Machine.execFfma o s
  | .fcvt d a tt ss g => Sys2Proof.Machine.execFcvt d a tt ss g s
  | .fcmp cc o => Sys2Proof.Machine.execFcmp cc o s
  | .fclass d a g => Sys2Proof.Machine.execFclass d a g s
  | .gand d a b g => Sys2Proof.Machine.execGand d a b g s
  | .gor d a b g => Sys2Proof.Machine.execGor d a b g s
  | .gnot d a g => Sys2Proof.Machine.execGnot d a g s
  | .br disp g => Sys2Proof.Machine.execBr disp g s
  | .jmp a g => Sys2Proof.Machine.execJmp a g s
  | .call disp g => Sys2Proof.Machine.execCall disp g s
  | .ret g => Sys2Proof.Machine.execRet g s
  | .loop n disp g => Sys2Proof.Machine.execLoop n disp g s
  | .loopReg a disp g => Sys2Proof.Machine.execLoopReg a disp g s
  | .setfmt a g => Sys2Proof.Machine.execSetfmt a g s
  | .getf d n g => Sys2Proof.Machine.execGetf d n g s
  | .getid d n g => Sys2Proof.Machine.execGetid d n g s
  | .hops o => Sys2Proof.Machine.execHops o s
  | .endTask g => Sys2Proof.Machine.execEndTask g s
  | .drain g => Sys2Proof.Machine.execDrain g s
  | .trap code g => Sys2Proof.Machine.execTrap code g s
  | .brk g => Sys2Proof.Machine.execBrk g s
  | .mfs d n g => Sys2Proof.Machine.execMfs d n g s
  | .mts a n g => Sys2Proof.Machine.execMts a n g s
  | .eret g => Sys2Proof.Machine.execEret g s
  | .amov k d a g => Sys2Proof.Machine.execAmov k d a g s
  | .aadd d a b g => Sys2Proof.Machine.execAadd d a b g s
  | .alea d base off g => Sys2Proof.Machine.execAlea d base off g s
  | .asetm mode d a inc len g => Sys2Proof.Machine.execAsetm mode d a inc len g s
  | .ld sz q d mem g => Sys2Proof.Machine.execLd sz q d mem g s
  | .st sz q d mem g => Sys2Proof.Machine.execSt sz q d mem g s
  | .ldv q d mem g => Sys2Proof.Machine.execLdv q d mem g s
  | .stv k d mem g => Sys2Proof.Machine.execStv k d mem g s
  | .ldvs w d mem g => Sys2Proof.Machine.execLdvs w d mem g s
  | .stvs w d mem g => Sys2Proof.Machine.execStvs w d mem g s
  | .ldvx k d mem g => Sys2Proof.Machine.execLdvx k d mem g s
  | .stvx k d mem g => Sys2Proof.Machine.execStvx k d mem g s
  | .pref mem g => Sys2Proof.Machine.execPref mem g s
  | .amo ar op d b x g => Sys2Proof.Machine.execAmo ar op d b x g s
  | .cas ar wide d b x g => Sys2Proof.Machine.execCas ar wide d b x g s
  | .fewait clr len x off g => Sys2Proof.Machine.execFewait clr len x off g s
  | .fence paths scope streams g => Sys2Proof.Machine.execFence paths scope streams g s
  | .wait classes limit g => Sys2Proof.Machine.execWait classes limit g s
  | .barinit n cnt g => Sys2Proof.Machine.execBarinit n cnt g s
  | .bararv n cnt g => Sys2Proof.Machine.execBararv n cnt g s
  | .barwt n g => Sys2Proof.Machine.execBarwt n g s
  | .bararw n cnt g => Sys2Proof.Machine.execBararw n cnt g s
  | .snap g => Sys2Proof.Machine.execSnap g s
  | .copy d src len g => Sys2Proof.Machine.execCopy d src len g s
  | .copym d src len m g => Sys2Proof.Machine.execCopym d src len m g s
  | .relay t d src lay vc g => Sys2Proof.Machine.execRelay t d src lay vc g s
  | .ewadd o => Sys2Proof.Machine.execEwadd o s
  | .ewmul o => Sys2Proof.Machine.execEwmul o s
  | .ewfma o => Sys2Proof.Machine.execEwfma o s
  | .ewmax o => Sys2Proof.Machine.execEwmax o s
  | .ewcvt ovn d a p g => Sys2Proof.Machine.execEwcvt ovn d a p g s
  | .gemv o => Sys2Proof.Machine.execGemv o s
  | .gemm o => Sys2Proof.Machine.execGemm o s
  | .reduce op d src p g => Sys2Proof.Machine.execReduce op d src p g s
  | .placeq w src g => Sys2Proof.Machine.execPlaceq w src g s
  | .attn x p g => Sys2Proof.Machine.execAttn x p g s
  | .kvfind d q l g => Sys2Proof.Machine.execKvfind d q l g s
  | .kvapp d x vc g => Sys2Proof.Machine.execKvapp d x vc g s
  | .kvfree d q b l g => Sys2Proof.Machine.execKvfree d q b l g s
  | .setband b x l g => Sys2Proof.Machine.execSetband b x l g s
  | .splopen c x g => Sys2Proof.Machine.execSplopen c x g s
  | .splopenNb c k x g => Sys2Proof.Machine.execSplopenNb c k x g s
  | .splarv d e t x g => Sys2Proof.Machine.execSplarv d e t x g s
  | .splclose d c g => Sys2Proof.Machine.execSplclose d c g s
  | .splstat d c sel g => Sys2Proof.Machine.execSplstat d c sel g s
  | .nxwr x g => Sys2Proof.Machine.execNxwr x g s
  | .nxrd x g => Sys2Proof.Machine.execNxrd x g s
  | .nxamo d x g => Sys2Proof.Machine.execNxamo d x g s
  | .nxwait c v g => Sys2Proof.Machine.execNxwait c v g s
  | .nxstat d p g => Sys2Proof.Machine.execNxstat d p g s
  | .launch d x g => Sys2Proof.Machine.execLaunch d x g s
  | .sumpcfg n a g => Sys2Proof.Machine.execSumpcfg n a g s
  | .vadd o => Sys2Proof.Machine.execVadd o s
  | .vsub o => Sys2Proof.Machine.execVsub o s
  | .vmul o => Sys2Proof.Machine.execVmul o s
  | .vfma o => Sys2Proof.Machine.execVfma o s
  | .vfms o => Sys2Proof.Machine.execVfms o s
  | .vmin o => Sys2Proof.Machine.execVmin o s
  | .vmax o => Sys2Proof.Machine.execVmax o s
  | .vabs o => Sys2Proof.Machine.execVabs o s
  | .vneg o => Sys2Proof.Machine.execVneg o s
  | .vrcp o => Sys2Proof.Machine.execVrcp o s
  | .vrsq o => Sys2Proof.Machine.execVrsq o s
  | .vfexp2 o => Sys2Proof.Machine.execVfexp2 o s
  | .vlog2 o => Sys2Proof.Machine.execVlog2 o s
  | .vrndi o => Sys2Proof.Machine.execVrndi o s
  | .vscale o => Sys2Proof.Machine.execVscale o s
  | .vgetexp o => Sys2Proof.Machine.execVgetexp o s
  | .vgetman o => Sys2Proof.Machine.execVgetman o s
  | .vcvt o => Sys2Proof.Machine.execVcvt o s
  | .vcvti o => Sys2Proof.Machine.execVcvti o s
  | .vpackb o => Sys2Proof.Machine.execVpackb o s
  | .vunpb o => Sys2Proof.Machine.execVunpb o s
  | .vsat o => Sys2Proof.Machine.execVsat o s
  | .vcmp o => Sys2Proof.Machine.execVcmp o s
  | .vsel o => Sys2Proof.Machine.execVsel o s
  | .vand o => Sys2Proof.Machine.execVand o s
  | .vor o => Sys2Proof.Machine.execVor o s
  | .vxor o => Sys2Proof.Machine.execVxor o s
  | .vnot o => Sys2Proof.Machine.execVnot o s
  | .vshl o => Sys2Proof.Machine.execVshl o s
  | .vshr o => Sys2Proof.Machine.execVshr o s
  | .vsra o => Sys2Proof.Machine.execVsra o s
  | .viota o => Sys2Proof.Machine.execViota o s
  | .vbcast o => Sys2Proof.Machine.execVbcast o s
  | .vmovs o => Sys2Proof.Machine.execVmovs o s
  | .vins o => Sys2Proof.Machine.execVins o s
  | .vmov o => Sys2Proof.Machine.execVmov o s
  | .vperm o => Sys2Proof.Machine.execVperm o s
  | .vslide o => Sys2Proof.Machine.execVslide o s
  | .vredsum o => Sys2Proof.Machine.execVredsum o s
  | .vredmax o => Sys2Proof.Machine.execVredmax o s
  | .vdot4 o => Sys2Proof.Machine.execVdot4 o s
  | .vcompr o => Sys2Proof.Machine.execVcompr o s
  | .vexpnd o => Sys2Proof.Machine.execVexpnd o s
  | .kand o => Sys2Proof.Machine.execKand o s
  | .kor o => Sys2Proof.Machine.execKor o s
  | .kxor o => Sys2Proof.Machine.execKxor o s
  | .knot o => Sys2Proof.Machine.execKnot o s
  | .kpopc o => Sys2Proof.Machine.execKpopc o s
  | .kfirst o => Sys2Proof.Machine.execKfirst o s
  | .kset o => Sys2Proof.Machine.execKset o s
  | .sumpin o => Sys2Proof.Machine.execSumpin o s
  | .sumpout o => Sys2Proof.Machine.execSumpout o s
  | .sumpcnt o => Sys2Proof.Machine.execSumpcnt o s
  | .mnop => Sys2Proof.Machine.execMnop s
  | .mldb f sp a g => Sys2Proof.Machine.execMldb f sp a g s
  | .mwbf len x b g => Sys2Proof.Machine.execMwbf len x b g s
  | .mpush o => Sys2Proof.Machine.execMpush o s
  | .mshift o n => Sys2Proof.Machine.execMshift o n s
  | .macc o => Sys2Proof.Machine.execMacc o s
  | .mdrain o => Sys2Proof.Machine.execMdrain o s
  | .mdrainSwap g => Sys2Proof.Machine.execMdrainSwap g s
  | .mzero t g => Sys2Proof.Machine.execMzero t g s
  | .acmovv v p g => Sys2Proof.Machine.execAcmovv v p g s
  | .acmova v p g => Sys2Proof.Machine.execAcmova v p g s
  | .acld t x g => Sys2Proof.Machine.execAcld t x g s
  | .acst t x g => Sys2Proof.Machine.execAcst t x g s
  | .ldrcfg l a b g => Sys2Proof.Machine.execLdrcfg l a b g s
  | .ldrstep l t g => Sys2Proof.Machine.execLdrstep l t g s
  | .ldrread l t g => Sys2Proof.Machine.execLdrread l t g s
  | .ldrrung d gd l lv q g => Sys2Proof.Machine.execLdrrung d gd l lv q g s
  | .ldrcnt d l g => Sys2Proof.Machine.execLdrcnt d l g s
  | .ldrsave l x g => Sys2Proof.Machine.execLdrsave l x g s
  | .ldrload l x g => Sys2Proof.Machine.execLdrload l x g s
  | .ldrclr l g => Sys2Proof.Machine.execLdrclr l g s
  | .loadPerform tok => Sys2Proof.Machine.execLoadPerform tok s
  | .storeDrain stream => Sys2Proof.Machine.execStoreDrain stream s
  | .atomic tok => Sys2Proof.Machine.execAtomic tok s
  | .engineWrite cmd n => Sys2Proof.Machine.execEngineWrite cmd n s
  | .commandRetire cmd => Sys2Proof.Machine.execCommandRetire cmd s
  | .arrive src dst => Sys2Proof.Machine.execArrive src dst s
  | .apply die w => Sys2Proof.Machine.execApply die w s
  | .join die w p => Sys2Proof.Machine.execJoin die w p s
  | .interlockedLand tok => Sys2Proof.Machine.execInterlockedLand tok s
  | .ladderChainEnd l => Sys2Proof.Machine.execLadderChainEnd l s
  | .pieceStart cmd piece => Sys2Proof.Machine.execPieceStart cmd piece s
  | .pieceComplete cmd piece => Sys2Proof.Machine.execPieceComplete cmd piece s
  | .locatorStep cmd => Sys2Proof.Machine.execLocatorStep cmd s
  | .spliceArrival die => Sys2Proof.Machine.execSpliceArrival die s
  | .spliceDeadline die ctx => Sys2Proof.Machine.execSpliceDeadline die ctx s
  | .networkReceive r => Sys2Proof.Machine.execNetworkReceive r s
  | .messageComplete cmd outc done data => Sys2Proof.Machine.execMessageComplete cmd outc done data s
  | .retransmissionTimeout part slot ep value => Sys2Proof.Machine.execRetransmissionTimeout part slot ep value s
  | .pathProbe part slot ep value => Sys2Proof.Machine.execPathProbe part slot ep value s
  | .flitCrcFailure link again => Sys2Proof.Machine.execFlitCrcFailure link again s
  | .linkTraining port lane0 lane1 => Sys2Proof.Machine.execLinkTraining port lane0 lane1 s
  | .claimResidency die launch => Sys2Proof.Machine.execClaimResidency die launch s
  | .atsCompletion die r => Sys2Proof.Machine.execAtsCompletion die r s
  | .pageResponse die launch page success => Sys2Proof.Machine.execPageResponse die launch page success s
  | .atsInvalidation pasid va size => Sys2Proof.Machine.execAtsInvalidation pasid va size s
  | .gangPlacement die cores => Sys2Proof.Machine.execGangPlacement die cores s
  | .planeWrite core plane p => Sys2Proof.Machine.execPlaneWrite core plane p s
  | .latencyBound die launch => Sys2Proof.Machine.execLatencyBound die launch s
  | .taskResume die save core => Sys2Proof.Machine.execTaskResume die save core s
  | .hostLaunch die slot tail => Sys2Proof.Machine.execHostLaunch die slot tail s
  | .eventCounterSet die slot ev val => Sys2Proof.Machine.execEventCounterSet die slot ev val s
  | .eventAdd die slot ev val => Sys2Proof.Machine.execEventAdd die slot ev val s
  | .coreReset die => Sys2Proof.Machine.execCoreReset die s
  | .uncoreReset die => Sys2Proof.Machine.execUncoreReset die s
  | .drainreq core => Sys2Proof.Machine.execDrainreq core s
  | .resume core => Sys2Proof.Machine.execResume core s
  | .endWord core => Sys2Proof.Machine.execEndWord core s
  | .fpop die => Sys2Proof.Machine.execFpop die s
  | .snaptrig die => Sys2Proof.Machine.execSnaptrig die s
  | .debugPortTrigger part => Sys2Proof.Machine.execDebugPortTrigger part s
  | .eventEntry die => Sys2Proof.Machine.execEventEntry die s
  | .registerWrite t val => Sys2Proof.Machine.execRegisterWrite t val s
  | .bar0Request pf write addr len data => Sys2Proof.Machine.execBar0Request pf write addr len data s
  | .powerCut watts tj rates => Sys2Proof.Machine.execPowerCut watts tj rates s
  | .thermalThrottle tj => Sys2Proof.Machine.execThermalThrottle tj s
  | .thermalShutdown tj => Sys2Proof.Machine.execThermalShutdown tj s
  | .functionLevelReset pf => Sys2Proof.Machine.execFunctionLevelReset pf s
  | .ideIntegrityFailure pf => Sys2Proof.Machine.execIdeIntegrityFailure pf s
  | .tdispMessage pf m => Sys2Proof.Machine.execTdispMessage pf m s
  | .spdmRequest pf r => Sys2Proof.Machine.execSpdmRequest pf r s
  | .msixUnmask pf vec => Sys2Proof.Machine.execMsixUnmask pf vec s
  | .msixHoldoff pf vec => Sys2Proof.Machine.execMsixHoldoff pf vec s
  | .machineCheckError die unit sev loc pa => Sys2Proof.Machine.execMachineCheckError die unit sev loc pa s
  | .accumulatorSoftError row col => Sys2Proof.Machine.execAccumulatorSoftError row col s
  | .faceUnitRetire stack unit => Sys2Proof.Machine.execFaceUnitRetire stack unit s
  | .powerCutEnd watts tj => Sys2Proof.Machine.execPowerCutEnd watts tj s
  | .packetAcknowledgement part slot ep value rtt ecn probe => Sys2Proof.Machine.execPacketAcknowledgement part slot ep value rtt ecn probe s
  | .softError site => Sys2Proof.Machine.execSoftError site s
  | .multicastLand => Sys2Proof.Machine.execMulticastLand s
  | .taskEnd => Sys2Proof.Machine.execTaskEnd s
  | .coreReturn => Sys2Proof.Machine.execCoreReturn s
  | .barrierArrival => Sys2Proof.Machine.execBarrierArrival s
  | .weightFillEnd => Sys2Proof.Machine.execWeightFillEnd s
  | .beatComplete => Sys2Proof.Machine.execBeatComplete s
  | .invalidationCompletion => Sys2Proof.Machine.execInvalidationCompletion s
  | .toggleToken => Sys2Proof.Machine.execToggleToken s
  | .diversion => Sys2Proof.Machine.execDiversion s
  | .fullSave => Sys2Proof.Machine.execFullSave s
  | .drainComplete => Sys2Proof.Machine.execDrainComplete s
  | .load => Sys2Proof.Machine.execLoad s
  | .imageVerification => Sys2Proof.Machine.execImageVerification s
  | .powerOn => Sys2Proof.Machine.execPowerOn s
  | .startingDiesDone => Sys2Proof.Machine.execStartingDiesDone s
  | .create => Sys2Proof.Machine.execCreate s
  | .destroy => Sys2Proof.Machine.execDestroy s
  | .swap => Sys2Proof.Machine.execSwap s
  | .swapComplete => Sys2Proof.Machine.execSwapComplete s
  | .mode => Sys2Proof.Machine.execMode s
  | .retire => Sys2Proof.Machine.execRetire s
  | .revoke => Sys2Proof.Machine.execRevoke s
  | .revokeComplete => Sys2Proof.Machine.execRevokeComplete s
  | .keyload => Sys2Proof.Machine.execKeyload s
  | .keymap => Sys2Proof.Machine.execKeymap s

end Sys2Proof.Machine
end

