-- ==== Sys2Proof/Machine/Issue.lean ====
section
/-! DEFINITION. How an agent issues its next bundle (R140, R156 to R158): fetch (R338), decoding, the readiness check (R54,
R55), the four slots in order, and what follows the bundle. -/

namespace Sys2Proof.Machine

open Sys2Proof

/-! ### Fetch (R140, R338) -/

/-- What a fetch gives: the bundle, the translation that it waits for, or a trap. -/
inductive Fetched where
  | ok (x : BitVec 128)
  | miss (reqs : List (Nat × Nat × Bool))
  | bad (t : TrapInfo)
deriving DecidableEq, Repr

/-- The bundle in 16 bytes of device memory. (DEDUCED: log 24) -/
def fetchAt (s : State) (pa : Nat) : Fetched :=
  let bs := (List.range 16).map fun i => homeByte s (pa + i)
  if bs.any (·.poison) || !reaches s s.here pa then .bad (poisonTrap s s.core.pc.toNat pa 0)
  else .ok (BitVec.ofNat 128 (leNat (bs.map (·.val))))

/-- A task's fetch goes through the die's image cache, whose translation asks for Execute permission; a controller fetches
at a device physical address. (DEDUCED: log 24) -/
def fetch (s : State) : Fetched :=
  let pc := s.core.pc.toNat
  if isController s.coreId then
    match if reaches s s.here pc then controllerByte s pc else none with
    | some _ => .ok (BitVec.ofNat 128 (leNat ((List.range 16).map fun i => (controllerByte s (pc + i)).getD 0xFF)))
    | none => fetchAt s pc
  else
    match tlbFind (s.die s.here).icache s.pasid pc with
    | some e =>
      let pa := e.pa + (pc - e.va)
      (match physFault s true pa with
        | some c => .bad { endTrap s c s.core.pc with pa := BitVec.ofNat 64 pa }
        | none => fetchAt s pa)
    | none =>
      if (s.die s.here).atsFail.contains (.fetch s.coreId, s.pasid, pageOf pc) then .bad { endTrap s 0x14 s.core.pc with sub := 3 }
      else .miss [(s.pasid, pageOf pc, true)]

/-! ### Readiness (R54, R55) -/

def bundleSlots (b : Bundle) : List Instr := [b.i0, b.i1, b.i2, b.i3]

/-- Whether a slot names a pending destination. -/
def pending (c : CoreState) (i : Instr) : Bool :=
  c.locks.any fun l => l.regs.any fun r => i.reads.contains r || i.writes.contains r

/-- Whether an exposed load that is due has not been delivered (R52). -/
def undelivered (c : CoreState) : Bool :=
  c.loads.any fun e => match e.due with
    | some n => decide (n ≤ c.bcnt.toNat)
    | none => false

/-- The readiness freeze of a bundle. -/
def notReady (c : CoreState) (is : List Instr) : Bool := undelivered c || is.any (pending c)

/-- The register that an exposed write has as its destination. -/
def RegWrite.dest : RegWrite → Option RegRef
  | .s i _ => some (.s i)
  | .a i _ => some (.a i)
  | .m i _ => some (.m i)
  | .v i _ => some (.v i)
  | .k i _ => some (.k i)
  | .g i _ => some (.g i)
  | .sys n _ => some (.sys n)
  | .flags _ => none

/-- Whether a register has an exposed write outstanding. (DEDUCED: log 16) -/
def outstanding (c : CoreState) (r : RegRef) : Bool :=
  r != .s 0 && ((c.pend.any fun p => p.w.dest == some r) || c.loads.any fun e => e.due.isSome && e.shape.dest == r)

/-- The early-read check of a slot, over the registers as they stood before the bundle. (DEDUCED: log 16) -/
def earlyRead (c : CoreState) (i : Instr) : Bool := c.dbgctl.getLsbD 0 && c.guard i.guardF && i.reads.any (outstanding c)

/-! ### The slots (R157, R158) -/

/-- The progress of a bundle through its slots. (DEDUCED: log 17) -/
structure Turn where
  s    : State
  /-- the fault of the lowest-numbered faulting slot -/
  trap : Option TrapInfo
  /-- why the bundle holds, and the translations that its slots wait for -/
  held : Option Hold
  ats  : List (Nat × Nat × Bool)
  /-- an outcome that is no state: no slot instruction has one -/
  stop : Option Res

def Turn.fault (x : Turn) (t : TrapInfo) : Turn := { x with trap := match x.trap with
  | some u => some u
  | none => some t }

/-- One slot. -/
def runSlot (c0 : CoreState) (x : Turn) (i : Instr) : Turn :=
  if x.stop.isSome then x
  else if earlyRead c0 i then x.fault (earlyTrap x.s)
  else
    match exec i x.s with
    | .next t =>
      match t.sig with
      | .none => { x with s := t }
      | .trapped e => x.fault e
      | .held h a =>
        { x with
          held := match x.held with
            | some g => some g
            | none => some h
          ats := x.ats ++ a }
    | r => { x with stop := some r }

/-- The slots of a bundle, in order, each on the registers as they stood before the bundle (R157). (DESIGN CHOICE: log 2)
(DEDUCED: log 17) -/
def runSlots (s : State) (is : List Instr) : Turn := is.foldl (runSlot s.core) ⟨s, none, none, [], none⟩

/-- FRZ of R356 for a hold. (DEDUCED: log 17, 18) -/
def Hold.code : Hold → BitVec 8
  | .readiness | .arrayBusy | .fillRunning | .chain | .translation => 1
  | .waitCounters | .nxwait | .fence => 2
  | .feWait | .consuming => 3
  | .barrier => 4
  | .queue | .splopen | .release => 5
  | .drainOrSave => 6
  | .suspended => 7

/-! ### The issue -/

/-- What asking an agent for its next bundle gives. -/
inductive Issued where
  /-- the bundle issued, or trapped -/
  | moved (s : State)
  /-- nothing issued -/
  | waits (s : State)
  | stop (r : Res)

/-- The agent freezes; nothing but FRZ changes. (DEDUCED: log 17) -/
def freeze (s : State) (h : Hold) : Issued := .waits { s with core := { s.core with frz := h.code }, sig := .none }

/-- The agent has taken the failures of its translations: none is cached (R337). -/
def forget (s : State) : State := forgetAsker (forgetAsker s s.here (.core s.coreId)) s.here (.fetch s.coreId)

/-- A precise trap at the bundle that would have issued. (DEDUCED: log 19, 23) -/
def trapHere (s : State) (t : TrapInfo) : Issued := .moved (takeTrap (forget s) t s.core.pc)

/-- The bundle has taken effect: the next PC, the bundle count, and a TRAP or BRK of it, which a wait that follows the bundle
puts off (R157, R175, R181, R184). (DEDUCED: log 21) -/
def afterBundle (s : State) : State :=
  let c := s.core
  let (loops, pc) := nextPc c
  let s := { forget s with core := { c with loops := loops, pc := pc, bcnt := c.bcnt + 1, jump := none, frz := 0 }, sig := .none }
  match c.run, c.after, c.post with
  | .running, [], some t => takeTrap s t pc
  | _, _, _ => s

/-- The record of an illegal bundle, and of a matrix fault, names the bundle's words (R156, R214). (DEDUCED: log 19) -/
def withWords (t : TrapInfo) (w : BitVec 128) : TrapInfo := if t.cause = 0x03 || t.cause = 0x0E then { t with words := w } else t

/-- A decoded bundle `b` of the words `w`: `s` has landed what is due. (DESIGN CHOICE: log 2) (DEDUCED: log 17) -/
def issueBundle (s : State) (w : BitVec 128) (b : Bundle) : Issued :=
  if clash (bundleSlots b) || (bundleSlots b).any (illegalNumber s) then trapHere s (withWords (endTrap s 0x03 0) w)
  else if notReady s.core (bundleSlots b) then freeze s .readiness
  else
    let x := runSlots s (bundleSlots b)
    match x.stop, x.trap, x.held with
    | some r, _, _ => .stop r
    | none, some t, _ => trapHere s (withWords t w)
    | none, none, some h => freeze (addAts s s.here (.core s.coreId) x.ats) h
    | none, none, none => .moved (afterBundle x.s)

/-- Fetches, decodes and issues the bundle at the PC. (DEDUCED: log 20) -/
def issueHere (s : State) : Issued :=
  match fetch s with
  | .miss reqs => freeze (addAts s s.here (.fetch s.coreId) reqs) .translation
  | .bad t => trapHere s t
  | .ok w =>
    match decodeBundle w with
    | .error _ => trapHere s (withWords (endTrap s 0x03 0) w)
    | .ok b => issueBundle (landDue s s.core.bcnt.toNat) w b

/-- Whether a deferred fault stops the agent at this bundle boundary (R277). (DEDUCED: log 22) -/
def boundary (r : Run) : Bool :=
  match r with
  | .running | .ending | .draining => true
  | _ => false

/-- The next bundle, or what comes in its place: a TRAP that waited, a freeze for a full save, the diversion to a drain stub. -/
def issueNext (s : State) : Issued :=
  match s.core.run, s.core.post with
  | .running, some t => .moved (takeTrap s t s.core.pc)
  | .running, none =>
    if graceOver s s.core then freeze s .drainOrSave
    else
      match diversionOf s with
      | some r => issueHere (divert s r)
      | none => issueHere s
  | _, _ => .waits s

/-- A wait that follows the last bundle: one at a barrier ends for a full save too. -/
def waitOn (s : State) (w : AfterWait) : Issued :=
  match w with
  | .barrier n pc =>
    if graceOver s s.core then freeze s .drainOrSave
    else
      match wakeBarrier s n pc with
      | some t => .moved t
      | none => freeze s .barrier
  | .launch tok rec =>
    match wakeLaunch s tok rec with
    | .over t => .moved t
    | .waits t => freeze t .release

/-- The active agent's turn: a deferred fault, a wait that follows the last bundle, or what comes next. -/
def issue (s : State) : Issued :=
  let s := ageLoads s
  match s.core.deferred, s.core.after with
  | some t, _ =>
    if boundary s.core.run then .moved (takeTrap { forget s with core := { s.core with deferred := none } } t s.core.pc)
    else .waits s
  | none, w :: _ => waitOn s w
  | none, [] => issueNext s

end Sys2Proof.Machine
end

