-- ==== Sys2Proof/Machine/Schedule.lean ====
section
/-! DEFINITION. Which part of the module moves next. The agenda names it; where the agenda is empty, the agents take turns, and
the other parts have turns of their own, in a fixed order. Every order of steps is one that some agenda gives. -/

namespace Sys2Proof.Machine

open Sys2Proof

/-! ### Steps of the active agent -/

def sqStreams (c : CoreState) : List (BitVec 4) := (c.sq.map (·.stream)).eraseDups

/-- The steps that the active agent's own parts may be able to take. -/
def ownMoves (s : State) : List Instr :=
  let c := s.core
  c.loads.map (fun e => if e.atomic.isSome then .atomic e.tok else .loadPerform e.tok) ++
    (c.locks.filter fun l => l.result.isSome).map (fun l => .interlockedLand l.tok) ++ (sqStreams c).map .storeDrain ++
    [.barrierArrival, .weightFillEnd, .beatComplete, .ladderChainEnd 0, .ladderChainEnd 1, .ladderChainEnd 2, .ladderChainEnd 3,
      .taskEnd, .drainComplete, .fullSave, .coreReturn, .toggleToken]

/-! ### Steps of the other parts -/

def pairs : List (BitVec 2 × BitVec 2) := allDies.flatMap fun a => (allDies.filter (· != a)).map fun b => (a, b)

/-- Steps of the order machine. (DEDUCED: log 126) -/
def orderMoves (s : State) : List Instr :=
  pairs.map (fun p => .arrive p.1 p.2) ++ allDies.flatMap (fun d => (s.die d).iq.map fun w => .apply d w) ++
    s.writes.flatMap fun w => w.applied.flatMap fun d => (allPaths.filter fun p => !w.binds d p).map fun p => .join d w.id p

/-- Steps of the engines. -/
def engineMoves (s : State) : List Instr :=
  s.cmds.flatMap (fun c =>
    [.commandRetire c.id] ++ (List.range c.pieces.length).flatMap (fun i => [.pieceComplete c.id i, .pieceStart c.id i]) ++
      [.locatorStep c.id] ++ (List.range (max 1 c.out.length)).map fun i => .engineWrite c.id i) ++
    allDies.map (fun d => .spliceArrival d) ++
    allDies.flatMap fun d => (s.die d).splices.map fun x => .spliceDeadline d (BitVec.ofNat 6 x.1)

/-- The cores that the scheduler takes for the next gang of a die: the first cluster with room for a small die gang, else the
lowest free cores. -/
def pickCores (s : State) (d : BitVec 2) : List Nat :=
  match chooseLaunch s d with
  | none => []
  | some w =>
    let n := w.needs.length
    let inCluster (c : Nat) : List Nat := (freeCores s d).filter fun k => clusterOf k == 8 * d.toNat + c
    if w.small then
      (((List.range 8).map inCluster).find? fun l => n ≤ l.length).getD [] |>.take n
    else
      (w.needs.foldl (fun (acc : List Nat) e => acc ++ ((freeCores s e).filter fun k => !acc.contains k).take 1) [])

/-- Steps of the schedulers, the firmware and the partition controller. -/
def controlMoves (s : State) : List Instr :=
  allDies.flatMap (fun d =>
    [.eventEntry d] ++ ((s.die d).active.launches.filter fun l => l.lease.isNone).map (fun l => .claimResidency d l.id) ++
      [.gangPlacement d (pickCores s d)] ++ (s.die d).active.launches.map (fun l => .latencyBound d l.id) ++
      (s.die d).saves.flatMap (fun v => ((List.range 128).map fun i => 128 * d.toNat + i).filterMap fun k =>
        if (s.agent k).shadow.isSome then some (.taskResume d v.1 k) else none) ++
      [.coreReset d, .uncoreReset d]) ++
    [.create, .destroy, .swap, .swapComplete, .mode, .retire, .revoke, .revokeComplete, .keyload, .keymap, .load, .imageVerification,
      .startingDiesDone, .invalidationCompletion]

/-- The first of some steps that is enabled. -/
def tryMoves (s : State) : List Instr → Option State
  | [] => none
  | i :: r =>
    match exec i s with
    | .next t => some t
    | _ => tryMoves s r

/-- The steps of the active agent and of the other parts. The groups take turns in coming first, and so do the members of a
group, so that none waits for ever on the others (R24, R139). (DESIGN CHOICE: log 3) -/
def works (s : State) : List Instr :=
  let n := s.time / 4
  let turn (l : List Instr) : List Instr := l.rotateLeft (n / 4)
  ([turn (ownMoves s), turn (orderMoves s), turn (engineMoves s), turn (controlMoves s)].rotateLeft (n % 4)).flatten

/-- The first release that some context has to make (R123, R125). -/
def nextRelease (s : State) : Option State :=
  (allDies.flatMap fun d => (s.die d).splices.map fun x => (d, x.1)).findSome? fun x => releaseNext s x.1 x.2

/-- Another part of the module takes a step: a release of a splice unit, else the first step that is enabled.
(DESIGN CHOICE: log 3) -/
def otherPart (s : State) : Option State :=
  match nextRelease s with
  | some t => some t
  | none => tryMoves s (works s)

/-- Whether an agent has something to do. -/
def awake (c : CoreState) : Bool := (c.run != .free && c.run != .reset) || c.shadow.isSome

/-- The agent whose turn comes after the active one's: the next higher number that is awake, in a ring. (DESIGN CHOICE: log 3) -/
def nextAgent (s : State) : Nat :=
  let ks := (s.parked.filter fun a => awake a.2).map (·.1)
  ((ks.find? fun k => s.coreId < k).or ks.head?).getD s.coreId

/-- The active agent issues; where it cannot, another part takes a step, or only time passes. -/
def issueFirst (s : State) : Res :=
  match issue s with
  | .moved t => .next t
  | .stop r => r
  | .waits t => .next ((otherPart t).getD t)

/-- The step when the agenda names none: of four, the active agent has the first and the third, another part the second, and with
the fourth the next agent comes to its turn (R24). (DESIGN CHOICE: log 3) -/
def defaultMove (s : State) : Res :=
  match s.time % 4 with
  | 1 =>
    match otherPart s with
    | some t => .next t
    | none => issueFirst s
  | 3 => issueFirst (s.switchTo (nextAgent s))
  | _ => issueFirst s

/-! ### The agenda -/

/-- Whether an instruction is a row of the table without an encoding. -/
def isEvent (i : Instr) : Bool := (encode i).isNone

def agentNumber (k : Nat) : Bool := k < 516

/-- A move that the agenda names. A slot instruction is no move: only a bundle runs it. -/
def agendaMove (s : State) (m : Move) : Res :=
  match m with
  | .event i => if isEvent i then exec i s else notEnabled "a slot instruction"
  | .on k i => if isEvent i && agentNumber k then exec i (s.switchTo k) else notEnabled "a slot instruction"
  | .release d n =>
    match releaseNext s d n.toNat with
    | some t => .next t
    | none => notEnabled "a release"
  | .refill d n e =>
    match refillCache s d n e with
    | some t => .next t
    | none => notEnabled "a refill"
  | .issueOn k =>
    if agentNumber k then
      match issue (s.switchTo k) with
      | .moved t => .next t
      | .waits t => .next t
      | .stop r => r
    else notEnabled "an agent"

/-! ### Multicast stores that are due (R68) -/

def mcastDue (s : State) (c : CoreState) : Bool :=
  match c.mcast with
  | e :: _ => decide (e.due ≤ s.time)
  | [] => false

/-- Lands the active agent's due multicast stores. -/
def landMcastN : Nat → State → State
  | 0, s => s
  | n + 1, s =>
    if mcastDue s s.core then
      match execMulticastLand s with
      | .next t => landMcastN n t
      | _ => s
    else s

/-- Every multicast store whose cycle has come lands before anything else happens. -/
def landMcast (s : State) : State :=
  if s.agents.any fun a => mcastDue s a.2 then
    let back := s.coreId
    ((s.agents.filter fun a => mcastDue s a.2).foldl (fun s a => landMcastN a.2.mcast.length (s.switchTo a.1)) s).switchTo back
  else s

end Sys2Proof.Machine
end

