-- ==== Sys2Proof/Machine/Step.lean ====
section
/-! DEFINITION. The step of the module, and the host's way of placing an instruction where it fetches next. -/

namespace Sys2Proof.Machine

open Sys2Proof

/-- A cycle passes. (DESIGN CHOICE: log 4) -/
def tick : Res → Res
  | .next s => .next { s with time := s.time + 1 }
  | r => r

/-- One step. A module without power takes no step but POWER_ON. (DESIGN CHOICE: log 14) -/
def step (s : State) : Host.Outcome State Fault Refusal :=
  match s.powered, s.agenda with
  | false, .event .powerOn :: r => tick (exec .powerOn { s with agenda := r })
  | false, _ => .fault .poweredOff
  | true, m :: r => tick (agendaMove (landMcast { s with agenda := r }) m)
  | true, [] => tick (defaultMove (landMcast s))

/-- Puts 16 bytes where the active agent fetches. (DEDUCED: log 7) -/
def State.placeCode (s : State) (pa : Nat) (w : BitVec 128) : State :=
  pokeBytes s ((bytesOfNat 16 w.toNat).zipIdx.map fun b => ⟨pa + b.2, b.1, false⟩)

/-- The image-cache entry that the host's fetch uses where the active core has none: 2 MiB at the start of stack memory.
(DEDUCED: log 7) -/
def hostEntry (pasid pc : Nat) : TlbEntry := ⟨pasid, pc / 2 ^ 21 * 2 ^ 21, 2 ^ 21, Config.stackBase, false, false, true⟩

/-- The task that the host's instruction runs in where the active core has none. (DEDUCED: log 7) -/
def hostTask (s : State) : Task := ⟨0, 0, s.here, s.coreId, 0, 0, 0, 0, 0, []⟩

/-- `s` with the bundle of a table word where the active agent fetches next. A tile core fetches for a task and through the
image cache: it is given both where it has none. (DEDUCED: log 7) -/
def State.withFetchWord (s : State) (nbits w : Nat) : State :=
  let b := tableBundle nbits w
  let c := { s.core with run := .running, pc := align16 s.core.pc, deferred := none, post := none, after := [], drainReq := none }
  let s := { s with powered := true, agenda := [.issueOn s.coreId], core := c }
  let pc := c.pc.toNat
  if isController s.coreId then s.placeCode pc b
  else
    let s := { s with core := { c with task := some (c.task.getD (hostTask s)) } }
    match tlbFind (s.die s.here).icache s.pasid pc with
    | some e => s.placeCode (e.pa + (pc - e.va)) b
    | none =>
      let e := hostEntry s.pasid pc
      (s.mapDie s.here fun d => { d with icache := d.icache ++ [e] }).placeCode (e.pa + (pc - e.va)) b

end Sys2Proof.Machine
end

