-- ==== Sys2Proof/Safety.lean ====
section
/-! DEFINITION. The terms that statements about the machine use: what a slot that takes effect leaves, what one that traps
or holds leaves, the frames, and the invariant that every step keeps. -/

namespace Sys2Proof.Machine

open Sys2Proof

/-- The slot has taken effect: it signals neither a trap nor a hold to its bundle (R157). -/
def State.clear (s : State) : State := { s with sig := .none }

/-- The state after a slot whose one effect is a result that lands `lat` bundles later (R52). -/
def State.wrote (s : State) (lat : Nat) (w : RegWrite) : State := (later s lat w).clear

/-- The state after a slot whose one effect is an interlocked result: `regs` are pending until INTERLOCKED_LAND writes
`ws` (R54). -/
def State.locked (s : State) (regs : List RegRef) (ws : List RegWrite) : State := (lock s regs (some ws) none).2.clear

/-- The slot has trapped with a cause of R307: nothing but the signal to its bundle has changed. -/
def trapsWith (s : State) (r : Res) (cause : Cause) : Prop :=
  ∃ t : TrapInfo, t.cause = cause ∧ r = .next { s with sig := .trapped t }

/-- `t` differs from `s` in what one slot may tell its bundle and in the active agent's private state alone. -/
def coreOnly (s t : State) : Prop := t = { s with core := t.core, sig := t.sig }

/-- Two agents agree on every architectural register (R10, R108, R184, R207): what is still on its way to a register does
not count. -/
def sameRegs (c d : CoreState) : Prop :=
  c.pc = d.pc ∧ c.s = d.s ∧ c.a = d.a ∧ c.m = d.m ∧ c.v = d.v ∧ c.k = d.k ∧ c.g = d.g ∧ c.fmt = d.fmt ∧
  c.fflags = d.fflags ∧ c.tstat = d.tstat ∧ c.loops = d.loops ∧ c.bcnt = d.bcnt ∧ c.dpc = d.dpc ∧
  c.dbgctl = d.dbgctl ∧ c.acc = d.acc ∧ c.bActive = d.bActive ∧ c.bStaged = d.bStaged ∧ c.ladders = d.ladders ∧
  c.sumps = d.sumps ∧ c.cnt = d.cnt

/-- Two states hold the same storage: what every reader of memory can be given, with its marks (R44, R49, R129, R137). -/
def sameStore (s t : State) : Prop :=
  s.mem = t.mem ∧ s.writes = t.writes ∧ s.poison = t.poison ∧ s.fe = t.fe ∧ s.tags = t.tags

/-- The coherence-latest value of a byte, and whether it carries a poison mark (R130, R131): what every read of it gives once
every write is applied. -/
def byteAt (s : State) (pa : Nat) : Byte × Bool := ((homeByte s pa).val, (homeByte s pa).poison)

/-- Between `s` and `u` the bytes `ws` have been written from a die, clean: of an address that is listed twice the first stands; a
byte that the die does not reach, and every byte that is not listed, stays (R129, R359). -/
def landed (s u : State) (d : BitVec 2) (ws : List (Nat × Byte)) : Prop :=
  (∀ pa b, ws.find? (fun y => y.1 == pa) = some (pa, b) → reaches s d pa = true → byteAt u pa = (b, false)) ∧
  ∀ pa, (∀ y ∈ ws, y.1 ≠ pa) ∨ reaches s d pa = false → byteAt u pa = byteAt s pa

/-- A check or capture that goes on with `a` and the state `t`, whatever comes after it. -/
def passes {α : Type} (f : (α → State → Res) → Res) (a : α) (t : State) : Prop := ∀ k, f k = k a t

/-- A check that goes on with `a`, whatever comes after it. -/
def passesWith {α : Type} (f : (α → Res) → Res) (a : α) : Prop := ∀ k, f k = k a

/-- A command of path `p` that touches `segs`, beside what its bundle has captured, has room: in its queue, its counter and the
stake table (R232, R233). -/
def roomFor (s : State) (p : Path) (segs : List Seg) : Prop :=
  queueFull s p = false ∧ s.core.atLimit (pathClass p) = false ∧
  stakesFull s (stakePages s (s.caught ++ segs)) = false

/-- The active core has issued one command of path `p`: it stands last in the list of commands, not started, under the next
number; the counter of its class has risen by one; no register and no byte has changed. -/
def enqueued (s u : State) (p : Path) (c : Cmd) : Prop :=
  u.sig = .none ∧ u.cmds = s.cmds ++ [c] ∧ u.nextId = s.nextId + 1 ∧ c.id = s.nextId ∧ c.core = s.coreId ∧ c.path = p ∧
  c.pc = s.core.pc ∧ c.started = false ∧ c.finished = false ∧ c.out = [] ∧
  u.core.cnt = s.core.cnt.add (pathClass p) 1 ∧ sameStore s u ∧ u.core.s = s.core.s ∧ u.core.v = s.core.v ∧
  u.core.a = s.core.a ∧ u.core.m = s.core.m ∧ u.core.k = s.core.k ∧ u.core.g = s.core.g ∧ u.core.pc = s.core.pc

/-- The command's result is interlocked into `d` (R54): one more lock, without a result, whose token the command keeps. -/
def awaited (s u : State) (c : Cmd) (d : BitVec 6) : Prop :=
  d ≠ 0 → ∃ l : Lock, u.core.locks = s.core.locks ++ [l] ∧ l.regs = [.s d] ∧ l.result = none ∧ c.tok = some l.tok

/-! ### Lanes -/

/-- The value of a lane of an integer type, and of a floating one. -/
def intLane (s : State) (t : Ty) (r : BitVec 6) (i : Nat) : Int := tyToInt t (laneAt t.bits (s.core.rv r) i)
def numLane (s : State) (t : Ty) (r : BitVec 6) (i : Nat) : Num := (tyFmt t).decode (laneAt t.bits (s.core.rv r) i)

/-- A slot whose one effect is a lane-by-lane result: each enabled lane is `f i`, each disabled one as R187 says; no flag. -/
def givesLanes (s : State) (o : VOp) (lat : Nat) (f : Nat → Nat) (r : Res) : Prop :=
  ∃ v : VReg, r = .next (s.wrote lat (.v o.d v)) ∧
    ∀ i, i < o.t.lanes → laneAt o.t.bits v i = if VOp.on o s.core i then f i % 2 ^ o.t.bits else VOp.kept o s.core i

/-- The same for an operation that rounds under `env`: each enabled lane is what `f` alone gives, and the flags are those of
the enabled lanes together. Under RS (mode 5) the lanes step the LFSR one after another: there only the disabled lanes are
said. -/
def roundsLanes (s : State) (o : VOp) (lat : Nat) (env : Env) (f : Nat → Env → Nat × Env) (r : Res) : Prop :=
  ∃ (v : VReg) (e : Env), r = .next (laterEnv s lat (.v o.d v) e).clear ∧
    (∀ i, i < o.t.lanes → VOp.on o s.core i = false → laneAt o.t.bits v i = VOp.kept o s.core i) ∧
    (env.rnd ≠ 5 → e.lfsr = env.lfsr ∧
      (∀ i, i < o.t.lanes → VOp.on o s.core i = true → laneAt o.t.bits v i = (f i env).1 % 2 ^ o.t.bits) ∧
      ∀ b, e.fl.getLsbD b = true ↔
        env.fl.getLsbD b = true ∨ ∃ i, i < o.t.lanes ∧ VOp.on o s.core i = true ∧ (f i env).2.fl.getLsbD b = true)

/-- `t` holds the scratchpad reads of an instruction of stream 0 that acts at its bundle (R114, R216, R225): the bytes `bs` of
`pas`, none of them poisoned; nothing but the active core's own record of what it has read differs from `s`. -/
def readsNow (s : State) (pas : List Nat) (bs : List ReadByte) (t : State) : Prop :=
  (512 ≤ s.coreId ∨ raceOf s s.coreId s.core.seen pas = none) ∧ s.core.dbgctl.getLsbD 0 = false ∧
  s.core.loadsBefore 0 s.core.seq = true ∧ coreReadable s 0 s.core.seq pas = true ∧
  coreRead 0 s.core.seq pas s = (bs, t) ∧ ∀ b ∈ bs, b.poison = false

/-- The further reads of an instruction that acts at its bundle: after the reads that led from `s` to `t`, the bytes `bs` of `pas`
with their poison marks, which lead to `u` (R114). -/
def readsMarked (s t : State) (pas : List Nat) (bs : List ReadByte) (u : State) : Prop :=
  (512 ≤ s.coreId ∨ raceOf s s.coreId s.core.seen pas = none) ∧ t.core.dbgctl.getLsbD 0 = false ∧
  t.core.loadsBefore 0 t.core.seq = true ∧ coreReadable t 0 t.core.seq pas = true ∧ coreRead 0 t.core.seq pas t = (bs, u)

/-! ### Bundles -/

/-- The slots of a list take effect one after another, none of them trapping or holding (R157, R158). -/
def slotsGive : List Instr → State → State → Prop
  | [], s, t => t = s
  | i :: r, s, t => ∃ u, exec i s = .next u ∧ u.sig = .none ∧ slotsGive r u t

/-- The agent on turn is about to issue at its PC: nothing else of the module goes before it. With an empty agenda the active agent
issues at every second step. -/
def issuesNext (s : State) : Prop :=
  s.powered = true ∧ s.agenda = [] ∧ s.time % 2 = 0 ∧ (∀ a ∈ s.agents, mcastDue s a.2 = false) ∧ s.core.deferred = none ∧
  s.core.run = .running ∧ s.core.after = [] ∧ s.core.post = none ∧ s.core.drainReq = none

/-- What one slot of a bundle leaves at once in the accumulator store and the weight buffer. -/
def writesAcc (i : Instr) : Prop :=
  (∃ o, i = .mpush o) ∨ (∃ o n, i = .mshift o n) ∨ (∃ o, i = .macc o) ∨ (∃ o, i = .mdrain o) ∨ (∃ t g, i = .mzero t g) ∨
  (∃ v p g, i = .acmova v p g) ∨ (∃ t x g, i = .acld t x g) ∨ (∃ l t g, i = .ldrread l t g) ∨ (∃ l x g, i = .ldrload l x g)

/-- The slot instructions that empty full-empty bits as they issue, and those at which a splice's deadline may pass. -/
def emptiesFull (i : Instr) : Prop :=
  (∃ sz d m g, i = .ld sz .fec d m g) ∨ (∃ d m g, i = .ldv .fec d m g) ∨ (∃ l x o g, i = .fewait true l x o g)
def passesDeadline (i : Instr) : Prop :=
  (∃ d e t x g, i = .splarv d e t x g) ∨ (∃ d c g, i = .splclose d c g) ∨ (∃ d c l g, i = .splstat d c l g)

/-! ### The partition controller -/

/-- The result word of a mailbox, and the command at the head of the order: operation, context slot and argument fields. -/
def resOf (s : State) (p : BitVec 2) : BitVec 32 := (s.xd0.mailboxes.get p.toFin).res
def heads (s : State) (p : BitVec 2) (c : BitVec 32) (arg : Word) (op : Nat) : Prop :=
  (∃ r, s.xd0.queue = .mailbox p c arg :: r) ∧ s.xd0.busy = false ∧ c.toNat % 256 = op ∧ c.toNat < 2 ^ 24 ∧
    p.toNat < partCount s.xd0.mode ∧ (p = 0 ∨ op ∉ [4, 5, 7, 8])

/-! ### The invariant -/

/-- The invariant: memory is in its canonical form, and the partition mode is one that R313 lets occur. -/
def Inv (s : State) : Prop := Memory.wf s.mem = true ∧ s.xd0.mode ≠ 3

end Sys2Proof.Machine
end

