-- ==== Sys2Proof/Certificates/Slice0/Obligations.lean ====
section
/-! DEFINITION. The statements for the provers. The clauses stand in `Sys2Proof.Rules`, one definition for each group of rules;
an obligation is one of them, or a few that belong together. -/

open Sys2Proof Sys2Proof.Machine

namespace Sys2Proof.Rules

/-! ### Slots and guards -/

/-- R143: a slot whose guard is false has no effect at all; slot 2 has no guard, so that the hypothesis never holds of it. -/
def FalseGuardHasNoEffect : Prop :=
  ∀ (i : Instr) (s : State), s.core.guard i.guardF = false → exec i s = .next s.clear

/-- R183: NOP in slot 0 is the all-zero word: it has no effect and takes a bundle; any other word with OP 0x00 is illegal. The
empty slot 3 has no effect either. -/
def EmptySlotsDoNothing : Prop :=
  decodeSlot 0 0 none = .ok .nop ∧
  (∀ w : BitVec 32, w ≠ 0 → Layout.op w = 0 → ∃ e, decodeSlot 0 w none = .error e) ∧
  ∀ s : State, exec .nop s = .next s.clear ∧ exec .mnop s = .next s.clear ∧
    (s.core.post = none → (afterBundle s.clear).core.bcnt = s.core.bcnt + 1)

/-- R161: the two-operand instructions of opcodes 0x01 and 0x02, every form: a result of latency 1. -/
def IntegerResults : Prop :=
  ∀ (o : SR) (s : State), s.core.guard o.g = true →
    let a := s.core.rs o.a
    let b := o.opB s.core
    let n := o.amount s.core
    exec (.add o) s = .next (s.wrote 1 (.s o.d (a + b))) ∧
    exec (.sub o) s = .next (s.wrote 1 (.s o.d (a - b))) ∧
    exec (.and o) s = .next (s.wrote 1 (.s o.d (a &&& b))) ∧
    exec (.or o) s = .next (s.wrote 1 (.s o.d (a ||| b))) ∧
    exec (.xor o) s = .next (s.wrote 1 (.s o.d (a ^^^ b))) ∧
    exec (.andn o) s = .next (s.wrote 1 (.s o.d (a &&& ~~~b))) ∧
    exec (.min o) s = .next (s.wrote 1 (.s o.d (if a.toInt ≤ b.toInt then a else b))) ∧
    exec (.max o) s = .next (s.wrote 1 (.s o.d (if a.toInt ≤ b.toInt then b else a))) ∧
    exec (.minu o) s = .next (s.wrote 1 (.s o.d (if a.toNat ≤ b.toNat then a else b))) ∧
    exec (.maxu o) s = .next (s.wrote 1 (.s o.d (if a.toNat ≤ b.toNat then b else a))) ∧
    exec (.shl o) s = .next (s.wrote 1 (.s o.d (BitVec.ofNat 64 (a.toNat * 2 ^ n)))) ∧
    exec (.shr o) s = .next (s.wrote 1 (.s o.d (BitVec.ofNat 64 (a.toNat / 2 ^ n)))) ∧
    exec (.sra o) s = .next (s.wrote 1 (.s o.d (BitVec.ofInt 64 (a.toInt / 2 ^ n)))) ∧
    exec (.rol o) s = .next (s.wrote 1 (.s o.d (a.rotateLeft n)))

/-- R160: the second operand of format SR, and the amount of a shift: a register, or a 6-bit immediate, sign-extended or
zero-extended; the bits of a shift's register above [5:0] are ignored (R161). -/
def SecondOperand : Prop :=
  ∀ (o : SR) (c : CoreState),
    (o.i = false → o.opB c = c.rs o.b ∧ o.amount c = (c.rs o.b).toNat % 64) ∧
    (o.i = true → (o.opB c).toInt = o.b.toInt ∧ o.amount c = o.b.toNat)

/-- R145: `s0` reads 0, `g0` reads 1 and `k0` reads ones, whatever the registers hold. A result for `s0` is discarded when it would
become outstanding, pending or land, and `s0` is no destination of a bundle. No instruction that decodes has `g0` or `k0` as
a destination, and no MTS changes a guard or a mask. -/
def FixedRegisters : Prop :=
  (∀ (s : State) (lat : Nat) (x : Word) (r : Option (List RegWrite)) (n : Option (BitVec 3)),
    s.core.rs 0 = 0 ∧ s.core.rg 0 = true ∧ s.core.rk 0 = BitVec.allOnes 256 ∧
    later s lat (.s 0 x) = s ∧ landOne s (.s 0 x) = s ∧
    ∀ l ∈ (lock s [.s 0] r n).2.core.locks, l ∈ s.core.locks ∨ l.regs = []) ∧
  (∀ i : Instr, RegRef.s 0 ∉ i.dests) ∧
  (∀ (k : Nat) (w : BitVec 32) (e : Option Byte) (i : Instr), decodeSlot k w e = .ok i →
    RegRef.g 0 ∉ i.dests ∧ RegRef.k 0 ∉ i.dests) ∧
  (∀ (s : State) (k : KReg) (g : Bool), landOne s (.k 0 k) = s ∧ landOne s (.g 0 g) = s) ∧
  ∀ (c : CoreState) (n : BitVec 12) (x : Word), (c.sysWrite n x).g = c.g ∧ (c.sysWrite n x).k = c.k

/-- R162: products of latency 3, and interlocked quotients and remainders with their special cases. -/
def ProductsAndQuotients : Prop :=
  ∀ (o : SR) (s : State), s.core.guard o.g = true →
    let a := s.core.rs o.a
    let b := o.opB s.core
    exec (.mul o) s = .next (s.wrote 3 (.s o.d (BitVec.ofNat 64 (a.toNat * b.toNat)))) ∧
    exec (.mulh o) s = .next (s.wrote 3 (.s o.d (BitVec.ofInt 64 (a.toInt * b.toInt / 2 ^ 64)))) ∧
    exec (.mulhu o) s = .next (s.wrote 3 (.s o.d (BitVec.ofNat 64 (a.toNat * b.toNat / 2 ^ 64)))) ∧
    exec (.div o) s = .next (s.locked [.s o.d] [.s o.d (if b = 0 then BitVec.allOnes 64
      else BitVec.ofInt 64 (a.toInt.tdiv b.toInt))]) ∧
    exec (.divu o) s = .next (s.locked [.s o.d] [.s o.d (if b = 0 then BitVec.allOnes 64
      else BitVec.ofNat 64 (a.toNat / b.toNat))]) ∧
    exec (.rem o) s = .next (s.locked [.s o.d] [.s o.d (if b = 0 then a else BitVec.ofInt 64 (a.toInt.tmod b.toInt))]) ∧
    exec (.remu o) s = .next (s.locked [.s o.d] [.s o.d (if b = 0 then a else BitVec.ofNat 64 (a.toNat % b.toNat))])

/-- R163: CLZ, CTZ and POPC: their encodings, with functions 3 to 7 reserved, and their counts, by the bits of the source. -/
def BitCounts : Prop :=
  ∀ (d a : BitVec 6) (f : BitVec 3) (g : GuardF) (s : State),
    let w := Layout.common 0x04 d a 0 (0#1 ++ f) g
    decodeSlot 0 w none = (match f with
      | 0#3 => .ok (.clz d a g)
      | 1#3 => .ok (.ctz d a g)
      | 2#3 => .ok (.popc d a g)
      | _ => .error .reservedFunction) ∧
    (s.core.guard g = true →
      let x := s.core.rs a
      ∃ l t p : Nat,
        exec (.clz d a g) s = .next (s.wrote 1 (.s d (BitVec.ofNat 64 l))) ∧
        exec (.ctz d a g) s = .next (s.wrote 1 (.s d (BitVec.ofNat 64 t))) ∧
        exec (.popc d a g) s = .next (s.wrote 1 (.s d (BitVec.ofNat 64 p))) ∧
        (x = 0 → l = 64 ∧ t = 64) ∧
        (x ≠ 0 → l < 64 ∧ x.getLsbD (63 - l) = true ∧ (∀ j, 63 - l < j → x.getLsbD j = false) ∧
          t < 64 ∧ x.getLsbD t = true ∧ ∀ j, j < t → x.getLsbD j = false) ∧
        p = ((List.range 64).filter fun j => x.getLsbD j).length)

/-- R164, R165, R166: bit fields, SEL, and the two moves, by the bits of the result. -/
def FieldsAndMoves : Prop :=
  ∀ (o : SR3) (c : GuardF) (imm : BitVec 16) (q : BitVec 2) (s : State), s.core.guard o.g = true →
    let a := s.core.rs o.a
    let b := s.core.rs o.b
    let p := b.toNat % 64
    let w := min (b.toNat / 256 % 128) (64 - p)
    (∃ x : Word, exec (.bfx o) s = .next (s.wrote 1 (.s o.d x)) ∧
      ∀ j, x.getLsbD j = (decide (j < w) && a.getLsbD (p + j))) ∧
    (∃ x : Word, exec (.bfi o) s = .next (s.wrote 1 (.s o.d x)) ∧
      ∀ j, j < 64 → x.getLsbD j = if p ≤ j ∧ j < p + w then a.getLsbD (j - p) else (s.core.rs o.d).getLsbD j) ∧
    exec (.sel o c) s = .next (s.wrote 1 (.s o.d (if s.core.guard c then a else b))) ∧
    exec (.movi o.d imm o.g) s = .next (s.wrote 1 (.s o.d (BitVec.ofInt 64 imm.toInt))) ∧
    (∃ x : Word, exec (.movhi o.d imm q o.g) s = .next (s.wrote 1 (.s o.d x)) ∧
      ∀ j, j < 64 → x.getLsbD j = if 16 * q.toNat ≤ j ∧ j < 16 * q.toNat + 16 then imm.getLsbD (j - 16 * q.toNat)
        else (s.core.rs o.d).getLsbD j)

/-- R167, R168: integer compares and the guard operations. -/
def GuardResults : Prop :=
  ∀ (o : SR) (d : BitVec 6) (x y g : GuardF) (s : State), s.core.guard g = true → s.core.guard o.g = true →
    let a := s.core.rs o.a
    let b := o.opB s.core
    exec (.cmp .eq o) s = .next (s.wrote 1 (.g (lo3 o.d) (decide (a = b)))) ∧
    exec (.cmp .ne o) s = .next (s.wrote 1 (.g (lo3 o.d) (decide (a ≠ b)))) ∧
    exec (.cmp .lt o) s = .next (s.wrote 1 (.g (lo3 o.d) (decide (a.toInt < b.toInt)))) ∧
    exec (.cmp .le o) s = .next (s.wrote 1 (.g (lo3 o.d) (decide (a.toInt ≤ b.toInt)))) ∧
    exec (.cmp .ltu o) s = .next (s.wrote 1 (.g (lo3 o.d) (decide (a.toNat < b.toNat)))) ∧
    exec (.cmp .leu o) s = .next (s.wrote 1 (.g (lo3 o.d) (decide (a.toNat ≤ b.toNat)))) ∧
    exec (.gand d x y g) s = .next (s.wrote 1 (.g (lo3 d) (s.core.guard x && s.core.guard y))) ∧
    exec (.gor d x y g) s = .next (s.wrote 1 (.g (lo3 d) (s.core.guard x || s.core.guard y))) ∧
    exec (.gnot d x g) s = .next (s.wrote 1 (.g (lo3 d) (!s.core.guard x)))

/-- R169, R170, R33: the scalar operations that round once under `fmt`.RND: their result and flags fall due together after 4
bundles and the RS state is stepped; a reserved RND is the illegal-format fault, and the slot has no effect. -/
def ScalarFloats : Prop :=
  ∀ (o : SR3) (tt ss : Ty) (s : State), s.core.guard o.g = true →
    let a := s.core.rf o.a
    let b := s.core.rf o.b
    let env := s.env s.core.rnd
    let out (r : Nat × Env) : Res := .next (laterEnv s 4 (.s o.d (BitVec.ofNat 64 r.1)) r.2).clear
    let cv := tyRound tt false (tyNum ss ((s.core.rs o.a).toNat % 2 ^ ss.bits)) env
    (rndReserved s.core.rnd = false →
      exec (.fadd o) s = out (fltAdd .f32 a b env) ∧
      exec (.fsub o) s = out (fltAdd .f32 a b.neg env) ∧
      exec (.fmul o) s = out (fltMul .f32 a b env) ∧
      exec (.ffma o) s = out (fltFma .f32 a b (s.core.rf o.d) env) ∧
      exec (.fcvt o.d o.a tt ss o.g) s = .next (laterEnv s 4 (.s o.d (extendTy tt cv.1)) cv.2).clear) ∧
    (rndReserved s.core.rnd = true →
      trapsWith s (exec (.fadd o) s) 0x12 ∧ trapsWith s (exec (.fsub o) s) 0x12 ∧ trapsWith s (exec (.fmul o) s) 0x12 ∧
      trapsWith s (exec (.ffma o) s) 0x12 ∧ trapsWith s (exec (.fcvt o.d o.a tt ss o.g) s) 0x12)

/-- R169, R171, R172: FMIN, FMAX, FCMP and FCLASS do not round: they raise no flag and complete under every `fmt`. FCLASS sets the
one bit of its operand's class, by the sign, the exponent and the fraction. -/
def ScalarFloatCompares : Prop :=
  ∀ (o : SR3) (s : State), s.core.guard o.g = true →
    let a := s.core.rf o.a
    let b := s.core.rf o.b
    exec (.fmin o) s = .next (s.wrote 4 (.s o.d ((f32Bits (Num.minX a b)).setWidth 64))) ∧
    exec (.fmax o) s = .next (s.wrote 4 (.s o.d ((f32Bits (Num.maxX a b)).setWidth 64))) ∧
    exec (.fcmp .eq o) s = .next (s.wrote 1 (.g (lo3 o.d) (a.eqX b))) ∧
    exec (.fcmp .ne o) s = .next (s.wrote 1 (.g (lo3 o.d) (!a.eqX b))) ∧
    exec (.fcmp .lt o) s = .next (s.wrote 1 (.g (lo3 o.d) (a.ltX b))) ∧
    exec (.fcmp .le o) s = .next (s.wrote 1 (.g (lo3 o.d) (a.ltX b || a.eqX b))) ∧
    exec (.fcmp .uno o) s = .next (s.wrote 1 (.g (lo3 o.d) (a.isNan || b.isNan))) ∧
    let neg := (s.core.rs o.a).getLsbD 31
    let ex := (s.core.rs o.a).toNat / 2 ^ 23 % 256
    let fr := (s.core.rs o.a).toNat % 2 ^ 23
    ∃ n : Nat, n < 9 ∧ exec (.fclass o.d o.a o.g) s = .next (s.wrote 4 (.s o.d (BitVec.ofNat 64 (2 ^ n)))) ∧
      (n = 0 ↔ neg = true ∧ ex = 255 ∧ fr = 0) ∧ (n = 1 ↔ neg = true ∧ ex ≠ 255 ∧ ex ≠ 0) ∧
      (n = 2 ↔ neg = true ∧ ex = 0 ∧ fr ≠ 0) ∧ (n = 3 ↔ neg = true ∧ ex = 0 ∧ fr = 0) ∧
      (n = 4 ↔ neg = false ∧ ex = 0 ∧ fr = 0) ∧ (n = 5 ↔ neg = false ∧ ex = 0 ∧ fr ≠ 0) ∧
      (n = 6 ↔ neg = false ∧ ex ≠ 255 ∧ ex ≠ 0) ∧ (n = 7 ↔ neg = false ∧ ex = 255 ∧ fr = 0) ∧
      (n = 8 ↔ ex = 255 ∧ fr ≠ 0)

/-! ### Control -/

/-- R173, R140: BR, CALL, JMP and RET go to their target at the next bundle; a JMP or RET to an address that is no bundle
address is an illegal-instruction trap. -/
def Transfers : Prop :=
  ∀ (disp : BitVec 22) (a : BitVec 6) (g : GuardF) (s : State), s.core.guard g = true →
    let t := s.core.pc + BitVec.ofInt 64 (16 * disp.toInt)
    exec (.br disp g) s = .next (jumpTo s t true).clear ∧
    exec (.call disp g) s = .next (jumpTo (later s 1 (.s 63 (s.core.pc + 16))) t false).clear ∧
    ((s.core.rs a).toNat % 16 = 0 → exec (.jmp a g) s = .next (jumpTo s (s.core.rs a) true).clear) ∧
    ((s.core.rs a).toNat % 16 ≠ 0 → trapsWith s (exec (.jmp a g) s) 0x03) ∧
    ((s.core.rs 63).toNat % 16 = 0 → exec (.ret g) s = .next (jumpTo s (s.core.rs 63) false).clear) ∧
    ((s.core.rs 63).toNat % 16 ≠ 0 → trapsWith s (exec (.ret g) s) 0x03)

/-- R174: a LOOP of a count that is not 0 pushes one entry, unless the stack is full or the bundle is the last of the innermost
body; a register count of 0 skips the body. -/
def LoopEntry : Prop :=
  ∀ (n : BitVec 12) (a : BitVec 6) (disp : BitVec 10) (g : GuardF) (s : State) (i : Fin 4), s.core.guard g = true →
    s.core.loops.depth.toNat = i.val →
    (∀ j : Fin 4, s.core.loops.top = some j → s.core.pc ≠ s.core.loops.lend.get j - 16) →
    let lend := s.core.pc + BitVec.ofNat 64 (16 * disp.toNat)
    let pushed (cnt : Word) : State :=
      { s with sig := .none, core := { s.core with loops := ⟨s.core.loops.depth + 1, s.core.loops.lcnt.set i.val cnt,
          s.core.loops.lbeg.set i.val (s.core.pc + 16), s.core.loops.lend.set i.val lend⟩ } }
    (n ≠ 0 → exec (.loop n disp g) s = .next (pushed (BitVec.ofNat 64 n.toNat))) ∧
    (s.core.rs a ≠ 0 → exec (.loopReg a disp g) s = .next (pushed (s.core.rs a))) ∧
    (s.core.rs a = 0 → exec (.loopReg a disp g) s = .next (jumpTo s lend true).clear)

/-- R174: a LOOP of a count that is not 0, immediate or from a register, with a full stack or in the last bundle of the innermost
body, traps; a register count of 0 takes neither trap. -/
def LoopStackFault : Prop :=
  ∀ (n : BitVec 12) (a : BitVec 6) (disp : BitVec 10) (g : GuardF) (s : State), s.core.guard g = true →
    (s.core.loops.depth = 4 ∨
      ∃ j : Fin 4, s.core.loops.top = some j ∧ s.core.pc = s.core.loops.lend.get j - 16) →
    (n ≠ 0 → trapsWith s (exec (.loop n disp g) s) 0x05) ∧
    (s.core.rs a ≠ 0 → trapsWith s (exec (.loopReg a disp g) s) 0x05) ∧
    (s.core.rs a = 0 →
      exec (.loopReg a disp g) s = .next (jumpTo s (s.core.pc + BitVec.ofNat 64 (16 * disp.toNat)) true).clear)

/-- R175: at the last bundle of the innermost body, a count above 1 falls by one and the PC returns to the body's start; at the
last pass the entry leaves, and the rule is applied to the entry below it; at any other bundle, and with no entry, the PC goes
on and the stack stays. A bundle with a transfer goes to its target. A BR, a JMP or a LOOP of count 0 removes the innermost entry
where the bundle lies in its body and the target does not, and is then applied to the entry below; it removes no other entry, and a
CALL or RET removes none. -/
def LoopEnd : Prop :=
  ∀ (c : CoreState) (i : Fin 4), c.jump = none →
    (c.loops.depth.toNat = i.val + 1 → c.pc = c.loops.lend.get i - 16 →
      (1 < (c.loops.lcnt.get i).toNat →
        nextPc c = ({ c.loops with lcnt := c.loops.lcnt.set i.val (c.loops.lcnt.get i - 1) }, c.loops.lbeg.get i)) ∧
      ((c.loops.lcnt.get i).toNat ≤ 1 →
        nextPc c = nextPc { c with loops := { c.loops with depth := BitVec.ofNat _ i.val } })) ∧
    (c.loops.depth.toNat = i.val + 1 → c.pc ≠ c.loops.lend.get i - 16 → nextPc c = (c.loops, c.pc + 16)) ∧
    (c.loops.depth = 0 → nextPc c = (c.loops, c.pc + 16)) ∧
    ∀ (s : State) (target : Word), s.core = c →
      let body (x : Word) : Prop := (c.loops.lbeg.get i).toNat ≤ x.toNat ∧ x.toNat < (c.loops.lend.get i).toNat
      let t (pops : Bool) : CoreState := (jumpTo s target pops).core
      nextPc (t true) = ((t true).loops, target) ∧ nextPc (t false) = (c.loops, target) ∧
      (c.loops.depth.toNat = i.val + 1 → body c.pc → ¬ body target →
        (t true).loops =
          (jumpTo (s.setCore { c with loops := { c.loops with depth := BitVec.ofNat _ i.val } }) target true).core.loops) ∧
      (c.loops.depth.toNat = i.val + 1 → ¬ body c.pc ∨ body target → (t true).loops = c.loops) ∧
      (c.loops.depth = 0 → (t true).loops = c.loops)

/-- R178, R12, R18: a task's identity: the fields of its wid, the selectors of GETID, and HOPS, with an unbound die's answer. -/
def Identity : Prop :=
  ∀ (d i : BitVec 6) (o : SR3) (g : GuardF) (s : State), s.core.guard g = true → s.core.guard o.g = true →
    let p := s.core.plane
    exec (.getf d i g) s = .next (s.wrote 1 (.s d (BitVec.ofNat 64
      (p.wid.toNat / 2 ^ (p.widths.take i.toNat).sum % 2 ^ (p.widths.getD i.toNat 0))))) ∧
    (i = 0 → exec (.getid d i g) s = .next (s.wrote 1 (.s d (BitVec.ofNat 64 (s.coreId % 16))))) ∧
    (i = 1 → exec (.getid d i g) s = .next (s.wrote 1 (.s d (BitVec.ofNat 64 (s.coreId / 16 % 8))))) ∧
    (i = 3 → exec (.getid d i g) s = .next (s.wrote 1 (.s d (BitVec.ofNat 64 p.member)))) ∧
    (i = 4 → exec (.getid d i g) s = .next (s.wrote 1 (.s d (BitVec.ofNat 64 p.gsize)))) ∧
    (i = 5 → exec (.getid d i g) s = .next (s.wrote 1 (.s d p.wid))) ∧
    (∀ t, s.core.task = some t → i = 2 → exec (.getid d i g) s = .next (s.wrote 1 (.s d (BitVec.ofNat 64 t.vd)))) ∧
    (i = 6 → exec (.getid d i g) s = .next (s.wrote 1 (.s d (BitVec.ofNat 64 (p.extents.foldl (· * ·) 1))))) ∧
    (∀ x y, boundDie s.context (s.core.rs o.a) = some x → boundDie s.context (s.core.rs o.b) = some y →
      exec (.hops o) s = .next (s.wrote 1 (.s o.d (BitVec.ofNat 64 (x.toNat - y.toNat + (y.toNat - x.toNat)))))) ∧
    (boundDie s.context (s.core.rs o.a) = none ∨ boundDie s.context (s.core.rs o.b) = none →
      exec (.hops o) s = .next (s.wrote 1 (.s o.d (BitVec.allOnes 64))))

/-- R179 to R181: END, a DRAIN in a drain, TRAP and BRK: what follows their bundle; a DRAIN outside a drain traps. -/
def TaskStops : Prop :=
  ∀ (code : BitVec 6) (g : GuardF) (s : State), s.core.guard g = true →
    exec (.endTask g) s = .next { s with sig := .none, core := { s.core with run := .ending } } ∧
    (s.core.drainRpc ≠ none → exec (.drain g) s = .next { s with sig := .none, core := { s.core with run := .draining } }) ∧
    (s.core.drainRpc = none → trapsWith s (exec (.drain g) s) 0x06) ∧
    (∃ t : TrapInfo, t.cause = 0x01 ∧ t.kind = 0 ∧ t.code.toNat = code.toNat ∧
      exec (.trap code g) s = .next { s with sig := .none, core := { s.core with post := some t } }) ∧
    (∃ t : TrapInfo, t.cause = 0x02 ∧ t.kind = 0 ∧
      exec (.brk g) s = .next { s with sig := .none, core := { s.core with post := some t } })

/-- R184, R34, R33: SETFMT and the moves of a task's system registers. `fmt` has a shadow of 4 bundles and refuses a value with a
bit above its fields; MFS of `fflags` waits for ladder chains (R117); a loop depth above 4 traps. -/
def SystemRegisters : Prop :=
  ∀ (a : BitVec 6) (n : BitVec 12) (g : GuardF) (s : State), s.core.guard g = true → taskSysReg n = true →
    let x := s.core.rs a
    (x.toNat < 2 ^ 20 → exec (.setfmt a g) s = .next (s.wrote 4 (.sys 0x010 x))) ∧
    (2 ^ 20 ≤ x.toNat → trapsWith s (exec (.setfmt a g) s) 0x12) ∧
    (n ≠ 0x011 ∨ s.core.chains = false → exec (.mfs a n g) s = .next (s.wrote 1 (.s a (s.core.sysRead n)))) ∧
    (n = 0x010 → x.toNat % 2 ^ 32 < 2 ^ 20 → exec (.mts a n g) s = .next (s.wrote 4 (.sys n x))) ∧
    (n = 0x010 → 2 ^ 20 ≤ x.toNat % 2 ^ 32 → trapsWith s (exec (.mts a n g) s) 0x12) ∧
    (n = 0x013 → 5 ≤ x.toNat % 8 → trapsWith s (exec (.mts a n g) s) 0x05) ∧
    (n ≠ 0x010 → (n = 0x013 → x.toNat % 8 ≤ 4) → exec (.mts a n g) s = .next (s.wrote 1 (.sys n x)))

/-- R182, R184: a task that uses ERET or a register of firmware mode takes the privilege trap. -/
def PrivilegeTrap : Prop :=
  ∀ (a : BitVec 6) (n : BitVec 12) (g : GuardF) (s : State), s.core.guard g = true → s.coreId < 512 →
    trapsWith s (exec (.eret g) s) 0x04 ∧
    (0x100 ≤ n.toNat → trapsWith s (exec (.mfs a n g) s) 0x04 ∧ trapsWith s (exec (.mts a n g) s) 0x04)

/-- R305, R306: in firmware mode ERET returns by FEPC and FSTAT.PL, MFS reads and MTS writes the die's registers, and an access
against a register's own is an illegal instruction. -/
def FirmwareMode : Prop :=
  ∀ (a : BitVec 6) (n : BitVec 12) (g : GuardF) (s : State), s.core.guard g = true → 512 ≤ s.coreId →
    (exec (.eret g) s =
      .next { s.mapDie s.here (fun d => { d with fstat := (d.fstat &&& 5#64) ||| (if d.fstat.getLsbD 2 then 2#64 else 0#64) })
        with sig := .none, core := { s.core with jump := some (align16 (s.die s.here).fepc) } }) ∧
    (firmwareReg n = true → n ≠ 0x106 → exec (.mfs a n g) s = .next (s.wrote 1 (.s a ((s.die s.here).sysRead n)))) ∧
    (firmwareReg n = true → firmwareRO n = false → exec (.mts a n g) s = .next (s.wrote 1 (.sys n (s.core.rs a)))) ∧
    (0x100 ≤ n.toNat → firmwareReg n = false ∨ n = 0x106 → trapsWith s (exec (.mfs a n g) s) 0x03) ∧
    (0x100 ≤ n.toNat → firmwareReg n = false ∨ firmwareRO n = true → trapsWith s (exec (.mts a n g) s) 0x03)

/-! ### Address registers, loads and stores -/

/-- R259, R257: AMOV, AADD, ALEA and ASETM, every form: a result of latency 1; the base of a modifier is its address
register with the low bits of the buffer cleared, 0 in mode lin. -/
def AddressRegisters : Prop :=
  ∀ (d a : BitVec 6) (x y : BitVec 4) (r : BitVec 6) (v inc : BitVec 14) (off : BitVec 24) (m : MMode) (len : BitVec 4)
    (g : GuardF) (s : State), s.core.guard g = true →
    exec (.amov .aFromS d a g) s = .next (s.wrote 1 (.a (lo4 d) (s.core.rs a))) ∧
    exec (.amov .sFromA d a g) s = .next (s.wrote 1 (.s d (s.core.ra (lo4 a)))) ∧
    exec (.amov .aFromA d a g) s = .next (s.wrote 1 (.a (lo4 d) (s.core.ra (lo4 a)))) ∧
    exec (.aadd x y (.reg r) g) s = .next (s.wrote 1 (.a x (s.core.ra y + s.core.rs r))) ∧
    exec (.aadd x y (.imm v) g) s = .next (s.wrote 1 (.a x (s.core.ra y + BitVec.ofInt 64 v.toInt))) ∧
    exec (.alea x .bundle off g) s = .next (s.wrote 1 (.a x (s.core.pc + BitVec.ofInt 64 off.toInt))) ∧
    exec (.alea x .image off g) s = .next (s.wrote 1 (.a x (s.core.plane.image + BitVec.ofNat 64 off.toNat))) ∧
    exec (.alea x .window off g) s = .next (s.wrote 1 (.a x (0x7FF000000000#64 + BitVec.ofNat 64 off.toNat))) ∧
    exec (.asetm m x y inc len g) s = .next (s.wrote 1 (.m x ⟨m, inc, len,
      if m = .lin then 0 else BitVec.ofNat 64 ((s.core.ra y).toNat / bufLen len * bufLen len)⟩))

/-- R257, R258: a post-increment in mode lin adds the increment; in the modes mod and circ it stays in the buffer that BASE
aligns, at the sum modulo the buffer's length; in mode brev by a stride of 2^b bytes, the offset in the buffer divided by the
stride, with its n bits reversed, steps by one. An effective address adds its offset, modulo the buffer in mode circ alone. -/
def PostIncrement : Prop :=
  ∀ (m : Modifier) (a x : Word),
    let size := 2 ^ (m.len.toNat + 2)
    let reverses (n i r : Nat) : Prop := i < 2 ^ n ∧ r < 2 ^ n ∧ ∀ j, j < n → i.testBit j = r.testBit (n - 1 - j)
    (m.mode = .lin → m.postInc a x = a + x) ∧
    (m.mode ≠ .circ → m.ea a x = a + x) ∧
    (m.mode ≠ .lin → m.len ≠ 0 → m.base.toNat % size = 0 →
      (m.mode = .circ → (m.ea a x).toNat = m.base.toNat + (a + x).toNat % size) ∧
      (m.mode = .mod ∨ m.mode = .circ → (m.postInc a x).toNat = m.base.toNat + (a + x).toNat % size) ∧
      (m.mode = .brev → ∀ b n, 1 ≤ n → b + n = m.len.toNat + 2 → x.toNat = 2 ^ b →
        let o := (a - m.base).toNat % size
        ∃ i r, reverses n i (o / 2 ^ b) ∧ reverses n r ((i + 1) % 2 ^ n) ∧
          (m.postInc a x).toNat = m.base.toNat + 2 ^ b * r + o % 2 ^ b))

/-- R260 to R262, R264: a plain LD or LDV whose range passes the checks (claims and translation, R339, R341; no race, R138; no
early read, R55) issues: it joins the pending loads, `ld` rises by one, and the post-increment becomes pending. -/
def PlainLoads : Prop :=
  ∀ (sz : BitVec 2) (d : BitVec 6) (m : MemOp) (g : GuardF) (s : State) (x : Access) (q v : List Seg),
    s.core.guard g = true → m.access s.core = some x → s.core.cnt.ld ≠ BitVec.allOnes 16 → s.core.dbgctl.getLsbD 0 = false →
    let n := 2 ^ sz.toNat
    let ok (l : List Seg) : Prop := s.coreId ≥ 512 ∨ raceOf s s.coreId s.core.seen ((segBytes l).map (·.2)) = none
    (checkRange s ⟨true, false⟩ x.ea.toNat n 0 = .ok q → ok q →
      exec (.ld sz .plain d m g) s = .next (x.done (issueLoad s m.lent.stream
        (((segBytes q).zip (List.replicate n 0)).map fun b => (b.1.1, b.1.2, b.2)) (.scalar d) none none)).clear) ∧
    (x.ea.toNat % 16 = 0 → checkRange s ⟨true, false⟩ x.ea.toNat 256 0 = .ok v → ok v →
      exec (.ldv .plain d m g) s = .next (x.done (issueLoad s m.lent.stream
        (((segBytes v).zip (List.replicate 256 0)).map fun b => (b.1.1, b.1.2, b.2)) (.lanes d 256 [0] 0) none none)).clear)

/-- R262, R54, R275: what issuing a load does: one more pending load, whose destination is exposed for 6 bundles exactly where
every byte lies in the core's own scratchpad and the load is no acquire and no atomic, and interlocked elsewhere; `ld` counts
it; and no register file, no memory and no other counter changes. -/
def LoadIssue : Prop :=
  ∀ (s : State) (st : BitVec 4) (todo : List (Nat × Nat × Nat)) (sh : LoadShape) (acq : Option Scope),
    let t := issueLoad s st todo sh acq none
    let own := acq = none ∧ ∀ b ∈ todo, regionOf b.2.1 = .sp s.coreId
    (∃ e : LoadEntry, t.core.loads = s.core.loads ++ [e] ∧ e.todo = todo ∧ e.stream = st ∧ e.shape = sh ∧
      e.seq = s.core.seq ∧ (own → e.due = some (s.core.bcnt.toNat + 6)) ∧ (¬ own → e.due = none)) ∧
    (own → t.core.locks = s.core.locks) ∧
    (¬ own → sh.dest ≠ .s 0 → ∃ l : Lock, t.core.locks = s.core.locks ++ [l] ∧ l.regs = [sh.dest] ∧ l.result = none) ∧
    t.core.cnt = { s.core.cnt with ld := s.core.cnt.ld + 1 } ∧
    coreOnly s t ∧ t.core.s = s.core.s ∧ t.core.v = s.core.v ∧ t.core.a = s.core.a ∧ t.core.pend = s.core.pend

/-- R261, R51: a load with `.fe` or `.fec` of granules that are full takes its hand-off and its value at its bundle, and `.fec`
empties the granules; while one granule is empty its bundle holds. -/
def ConsumingLoads : Prop :=
  ∀ (sz : BitVec 2) (d : BitVec 6) (m : MemOp) (g : GuardF) (s : State) (x : Access) (segs : List Seg) (clr : Bool),
    s.core.guard g = true → m.access s.core = some x → s.core.cnt.ld ≠ BitVec.allOnes 16 → s.core.dbgctl.getLsbD 0 = false →
    x.ea.toNat % 2 ^ sz.toNat = 0 → checkRange s ⟨true, false⟩ x.ea.toNat (2 ^ sz.toNat) 0 = .ok segs →
    let pas := (segBytes segs).map (·.2)
    (∀ pa ∈ pas, inScratch pa = true) → s.core.loadsBefore m.lent.stream s.core.seq = true →
    let q : LdQual := if clr then .fec else .fe
    ((∃ pa ∈ pas, isFull s pa = false) → exec (.ld sz q d m g) s = hold s .feWait) ∧
    ((∀ pa ∈ pas, isFull s pa = true) →
      let t := (granulesOf pas).foldl handOff s
      let t := if clr then clearFull t (granulesOf pas) else t
      let r := coreRead m.lent.stream t.core.seq pas t
      coreReadable t m.lent.stream t.core.seq pas = true →
      (∀ b ∈ r.1, b.poison = false) →
      ∃ u, exec (.ld sz q d m g) s = .next u ∧ u.sig = .none ∧ u.fe = t.fe ∧ u.mem = s.mem ∧ u.writes = s.writes ∧
        u.core.cnt.ld = s.core.cnt.ld + 1 ∧
        ∃ l : Lock, u.core.locks = r.2.core.locks ++ [l] ∧
          l.result = some [.s d (BitVec.ofNat 64 (natOfBytes (r.1.map (·.val))))])

/-- R265, R266: a strided load and a gather, all of whose lanes pass the checks, issue as one load of their lanes; the lanes of
LDVS are those at the base plus `i` times the stride, those of LDVX the ones that the mask enables. -/
def LaneLoads : Prop :=
  ∀ (w : BitVec 2) (k : BitVec 4) (d : BitVec 6) (m : MemOp) (g : GuardF) (s : State) (segs : List Seg),
    s.core.guard g = true → s.core.cnt.ld ≠ BitVec.allOnes 16 → s.core.dbgctl.getLsbD 0 = false →
    512 ≤ s.coreId ∨ raceOf s s.coreId s.core.seen ((segBytes segs).map (·.2)) = none →
    let x := m.lanesAt s.core
    let strided := (List.range (256 / 2 ^ w.toNat)).map fun i =>
      (i, (x.ea + BitVec.ofNat 64 i * s.core.rs m.index).toNat)
    let gathered := ((List.range 64).filter fun i => (s.core.rk k).getLsbD (4 * i)).map fun i =>
      (i, (x.ea + ((s.core.rv m.index).extractLsb' (32 * i) 32).setWidth 64).toNat)
    let goes (wd : Nat) (ls : List (Nat × Nat)) (old : VReg) (i : Instr) : Prop :=
      (∀ l ∈ ls, l.2 % wd = 0) →
      checkAll (fun l : Nat × Nat => checkRange s ⟨true, false⟩ l.2 wd l.1) ls = .ok segs →
      exec i s = .next (x.done (issueLoad s m.lent.stream
        (((segBytes segs).zip (ls.flatMap fun l => List.replicate wd l.1)).map fun b => (b.1.1, b.1.2, b.2))
        (.lanes d wd (ls.map (·.1)) old) none none)).clear
    goes (2 ^ w.toNat) strided 0 (.ldvs w d m g) ∧ goes 4 gathered (s.core.rv d) (.ldvx k d m g)

/-- R263 to R267: stores whose elements pass the checks and go to no multicast window join the store queue of their stream,
in order, and `st` rises by one; nothing is written yet. The bytes of ST are one write for each 2 KiB home that they touch (R58,
R130), those of a vector store one for each granule. `ps` are the elements: the low bytes of sD for
ST, the enabled bytes of vD for STV, the lanes of STVS and STVX. -/
def Stores : Prop :=
  ∀ (sz w : BitVec 2) (k : BitVec 4) (d : BitVec 6) (m : MemOp) (g : GuardF) (s : State) (x : Access),
    s.core.guard g = true → s.core.cnt.st ≠ BitVec.allOnes 16 → s.coreId < 512 →
    let n := 2 ^ sz.toNat
    let goes (i : Instr) (cut : Nat → List WByte → List (List WByte)) (x : Access) (ps : List Piece1) (setFe plain : Bool) (rel : Option Scope) : Prop :=
      (∃ segs, checkAll (checkStore s) ps = .ok segs) →
      (∀ p ∈ ps, (storeBytes s p).2 = []) →
      let bytes := ps.map fun p => (storeBytes s p).1
      bytes.flatten ≠ [] →
      (plain = true → raceOf s s.coreId s.core.seen (bytes.flatten.map (·.pa)) = none) →
      ∃ u, exec i s = .next u ∧ u.sig = .none ∧ sameStore s u ∧ u.core.cnt.st = s.core.cnt.st + 1 ∧
        u.core.pend = (x.done s).core.pend ∧
        ∃ es : List StoreEntry, u.core.sq = s.core.sq ++ es ∧
          es.map (·.bytes) = bytes.flatMap (fun q => cut q.length q) ∧
          ∀ e ∈ es, e.stream = m.lent.stream ∧ e.setFe = setFe ∧ e.rel = rel ∧ e.seq = s.core.seq
    let word : Piece1 := ⟨x.ea.toNat, bytesOfNat n (s.core.rs d).toNat, 0⟩
    let row := maskRuns (s.core.rk k) x.ea.toNat (bytesOfNat 256 (s.core.rv d).toNat)
    let lanes (wd : Nat) (ls : List (Nat × Nat)) : List Piece1 :=
      ls.map fun l => ⟨l.2, bytesOfNat wd ((s.core.rv d).toNat >>> (8 * wd * l.1)), l.1⟩
    let y := m.lanesAt s.core
    let strided := (List.range (256 / 2 ^ w.toNat)).map fun i => (i, (y.ea + BitVec.ofNat 64 i * s.core.rs m.index).toNat)
    let scattered := ((List.range 64).filter fun i => (s.core.rk k).getLsbD (4 * i)).map fun i =>
      (i, (y.ea + ((s.core.rv m.index).extractLsb' (32 * i) 32).setWidth 64).toNat)
    (m.access s.core = some x →
      goes (.st sz .plain d m g) byHome x [word] false true none ∧
      (x.ea.toNat % n = 0 → goes (.st sz .rel d m g) byHome x [word] false false (some m.lent.scope)) ∧
      (x.ea.toNat % n = 0 → (∀ segs, checkStore s word = .ok segs → ∀ pa ∈ segAddrs segs, inScratch pa = true) →
        goes (.st sz .fe d m g) byHome x [word] true false none) ∧
      (x.ea.toNat % 16 = 0 → rowInWindow x.ea.toNat row = true →
        goes (.stv k d m g) byGranule x row false true none)) ∧
    ((∀ l ∈ strided, l.2 % 2 ^ w.toNat = 0) → goes (.stvs w d m g) byGranule y (lanes (2 ^ w.toNat) strided) false true none) ∧
    ((∀ l ∈ scattered, l.2 % 4 = 0) → goes (.stvx k d m g) byGranule y (lanes 4 scattered) false true none)

/-- R268, R258: a prefetch does nothing that programs see but its post-increment; a brev step by a register that is no power of
two within half the buffer is an address trap. -/
def Prefetch : Prop :=
  ∀ (m : MemOp) (g : GuardF) (s : State), s.core.guard g = true →
    (∀ x, m.access s.core = some x → exec (.pref m g) s = .next (x.done s).clear) ∧
    (m.access s.core = none → trapsWith s (exec (.pref m g) s) 0x0A)

/-- R260, R261, R263 to R267, R269, R270, R272: every access that its rule wants aligned and that is not aligned is an alignment
trap, whatever it would touch: LD and ST but for the plain forms, LDV and STV, every AMO and CAS, FEWAIT, and the lane that decides
of LDVS, STVS, LDVX and STVX. -/
def Alignment : Prop :=
  ∀ (sz w : BitVec 2) (lq : LdQual) (k : BitVec 4) (op : AmoOp) (ar clr : Bool) (len d b : BitVec 6) (m : MemOp) (r : BitVec 4)
    (off : BitVec 14) (g : GuardF) (s : State), s.core.guard g = true →
    let ea := ((s.core.rm r).ea (s.core.ra r) 0).toNat
    let y := m.lanesAt s.core
    let strided := (List.range (256 / 2 ^ w.toNat)).map fun i => (i, (y.ea + BitVec.ofNat 64 i * s.core.rs m.index).toNat)
    let indexed := ((List.range 64).filter fun i => (s.core.rk k).getLsbD (4 * i)).map fun i =>
      (i, (y.ea + ((s.core.rv m.index).extractLsb' (32 * i) 32).setWidth 64).toNat)
    let misfits (n : Nat) (ls : List (Nat × Nat)) (check : Nat × Nat → Checked) : Prop :=
      ∃ before l after, ls = before ++ l :: after ∧ l.2 % n ≠ 0 ∧
        ∀ q ∈ before, q.2 % n = 0 ∧ ∃ segs, check q = .ok segs
    let reads (n : Nat) (l : Nat × Nat) : Checked := checkRange s ⟨true, false⟩ l.2 n l.1
    let stores (n : Nat) (l : Nat × Nat) : Checked := checkStore s ⟨l.2, bytesOfNat n 0, l.1⟩
    (∀ x, m.access s.core = some x →
      (x.ea.toNat % 2 ^ sz.toNat ≠ 0 →
        trapsWith s (exec (.ld sz .fe d m g) s) 0x09 ∧ trapsWith s (exec (.ld sz .fec d m g) s) 0x09 ∧
        trapsWith s (exec (.ld sz .acq d m g) s) 0x09 ∧ trapsWith s (exec (.st sz .fe d m g) s) 0x09 ∧
        trapsWith s (exec (.st sz .rel d m g) s) 0x09) ∧
      (x.ea.toNat % 16 ≠ 0 → trapsWith s (exec (.ldv lq d m g) s) 0x09 ∧ trapsWith s (exec (.stv k d m g) s) 0x09)) ∧
    (ea % 8 ≠ 0 → trapsWith s (exec (.amo ar op d b r g) s) 0x09 ∧ trapsWith s (exec (.cas ar true d b r g) s) 0x09) ∧
    (ea % 4 ≠ 0 → trapsWith s (exec (.cas ar false d b r g) s) 0x09) ∧
    (((s.core.rm r).ea (s.core.ra r) (off.signExtend 64)).toNat % 16 ≠ 0 →
      trapsWith s (exec (.fewait clr len r off g) s) 0x09) ∧
    (misfits (2 ^ w.toNat) strided (reads (2 ^ w.toNat)) → trapsWith s (exec (.ldvs w d m g) s) 0x09) ∧
    (misfits (2 ^ w.toNat) strided (stores (2 ^ w.toNat)) → trapsWith s (exec (.stvs w d m g) s) 0x09) ∧
    (misfits 4 indexed (reads 4) → trapsWith s (exec (.ldvx k d m g) s) 0x09) ∧
    (misfits 4 indexed (stores 4) → trapsWith s (exec (.stvx k d m g) s) 0x09)

/-- R269, R270: an atomic whose bytes pass the checks and lie in no host memory issues as a pending load with its operation. -/
def Atomics : Prop :=
  ∀ (ar wide : Bool) (op : AmoOp) (d b : BitVec 6) (r : BitVec 4) (g : GuardF) (s : State) (segs : List Seg),
    s.core.guard g = true → s.core.cnt.ld ≠ BitVec.allOnes 16 → s.core.dbgctl.getLsbD 0 = false →
    let ea := ((s.core.rm r).ea (s.core.ra r) 0).toNat
    let goes (i : Instr) (n : Nat) (o : AtomicOp) : Prop :=
      ea % n = 0 → checkRange s ⟨true, true⟩ ea n 0 = .ok segs →
      (∀ y ∈ segBytes segs, regionOf y.2 ≠ .host) →
      exec i s = .next (issueLoad s 0 ((segBytes segs).map fun y => (y.1, y.2, 0)) (.scalar d) none (some (o, ar))).clear
    goes (.amo ar op d b r g) 8 (.amo op (s.core.rs b) s.core.sat) ∧
    goes (.cas ar wide d b r g) (if wide then 8 else 4) (.cas (if wide then 8 else 4) (s.core.rs d) (s.core.rs b))

/-- R269, R270, R42: what an atomic writes for each operation, from the old value and its operand; FADD writes RoundF32 of the sum
of the low words, with its flags, and keeps the high word; a CAS writes where the low bytes agree. -/
def AtomicValues : Prop :=
  ∀ (old x e : Word) (sat : Bool),
    (AtomicOp.amo .add x sat).apply old = (some (old + x), 0) ∧
    (AtomicOp.amo .min x sat).apply old = (some (if old.toInt ≤ x.toInt then old else x), 0) ∧
    (AtomicOp.amo .max x sat).apply old = (some (if x.toInt ≤ old.toInt then old else x), 0) ∧
    (AtomicOp.amo .and x sat).apply old = (some (old &&& x), 0) ∧
    (AtomicOp.amo .or x sat).apply old = (some (old ||| x), 0) ∧
    (AtomicOp.amo .xor x sat).apply old = (some (old ^^^ x), 0) ∧
    (AtomicOp.amo .swap x sat).apply old = (some x, 0) ∧
    (let p := Fmt.f32.decode (old.toNat % 2 ^ 32)
      let q := Fmt.f32.decode (x.toNat % 2 ^ 32)
      let sum := Num.addX false p q
      let r := Fmt.f32.round false sum.1 (Env.rneSat sat)
      ∃ v f, (AtomicOp.amo .fadd x sat).apply old = (some v, f) ∧ v.toNat / 2 ^ 32 = old.toNat / 2 ^ 32 ∧
        v.toNat % 2 ^ 32 = r.1 ∧ f = r.2.fl ||| (if sum.2 then Flags.nv else 0)) ∧
    (AtomicOp.cas 8 e x).apply old = (if old = e then some x else none, 0) ∧
    (AtomicOp.cas 4 e x).apply old = (if old.toNat % 2 ^ 32 = e.toNat % 2 ^ 32 then some x else none, 0)

/-- R272: FEWAIT on full granules takes their hand-offs and, with `.clr`, empties them together; while one is empty its bundle
holds. -/
def FullEmptyWait : Prop :=
  ∀ (clr : Bool) (len : BitVec 6) (r : BitVec 4) (off : BitVec 14) (g : GuardF) (s : State) (segs : List Seg),
    s.core.guard g = true →
    let ea := (s.core.rm r).ea (s.core.ra r) (off.signExtend 64)
    let n := 16 * (len.toNat + 1)
    ea.toNat % 16 = 0 → checkRange s ⟨true, false⟩ ea.toNat n 0 = .ok segs →
    let pas := (segBytes segs).map (·.2)
    (∀ pa ∈ pas, inScratch pa = true) → s.core.loadsBefore 0 s.core.seq = true →
    ((∀ pa ∈ pas, isFull s pa = true) →
      let t := (granulesOf pas).foldl handOff s
      exec (.fewait clr len r off g) s = .next (if clr then clearFull t (granulesOf pas) else t).clear) ∧
    ((∃ pa ∈ pas, isFull s pa = false) → exec (.fewait clr len r off g) s = hold s .feWait)

/-! ### The order machine -/

/-- R130 DRAIN, R49, R137: the head of a store queue whose condition holds takes its coherence place: its bytes become the
coherence-latest ones, every other byte stays, the queue loses the store and `st` falls where it is the last write of its store
and no multicast part of the store is still to land (R275). -/
def StoreDrains : Prop :=
  ∀ (stream : BitVec 4) (s : State) (e : StoreEntry), s.coreId < 512 →
    s.core.sq.find? (fun x => x.stream == stream) = some e →
    drainReady s e = true → (∀ b ∈ e.bytes, reaches s s.here b.pa = true) →
    ∃ u, exec (.storeDrain stream) s = .next u ∧ u.core.sq = s.core.sq.erase e ∧
      (∀ pa b, e.bytes.find? (fun b => b.pa == pa) = some b → byteAt u pa = (b.val, b.poison)) ∧
      (∀ pa, (∀ b ∈ e.bytes, b.pa ≠ pa) → byteAt u pa = byteAt s pa) ∧
      (e.setFe = true → ∀ b ∈ e.bytes, ∀ k, regionOf b.pa = .sp k → dieOf k = s.here → isFull u b.pa = true) ∧
      u.core.cnt.st = (if e.counts = true ∧ ∀ x ∈ s.core.mcast, x.seq ≠ e.seq then s.core.cnt.st - 1 else s.core.cnt.st) ∧
      u.core.s = s.core.s ∧ u.core.v = s.core.v ∧ u.core.a = s.core.a ∧ u.core.g = s.core.g ∧ u.core.pc = s.core.pc

/-- R130 LOAD, R52 to R54, R275: a load whose turn has come reads the bytes of its next access; when none is left and none was
uncorrectable it performs: an exposed result takes its place in issue order among those in flight and falls due at its bundle,
and `ld` counts it until then; one for `s0` is gone at once; an interlocked one waits for its landing. -/
def LoadPerforms : Prop :=
  ∀ (tok : Nat) (s : State) (e : LoadEntry),
    s.core.loads.find? (fun x => x.tok == tok && x.atomic.isNone) = some e →
    s.core.loadsBefore e.stream e.seq = true → e.acq = none → e.bad = none →
    let now := firstAccess e.shape e.todo
    coreReadable (s.without e.hidden) e.stream e.seq (now.map (·.2.1)) = true →
    let r := coreRead e.stream e.seq (now.map (·.2.1)) (s.without e.hidden)
    let got := e.got ++ r.1.map (·.val)
    (∀ b ∈ r.1, b.poison = false) →
    ∃ u, exec (.loadPerform tok) s = .next u ∧ u.core.s = s.core.s ∧ u.core.v = s.core.v ∧ u.core.sq = s.core.sq ∧
      u.fe = s.fe ∧ u.tags = s.tags ∧
      (e.todo.length ≠ now.length → u.core.loads = s.core.loads.map fun x =>
        if x.tok = tok then { e with todo := e.todo.drop now.length, got := got } else x) ∧
      (e.todo.length = now.length → u.core.loads = s.core.loads.filter (fun x => x.tok != e.tok) ∧
        (∀ n, e.due = some n →
          (e.shape.dest ≠ .s 0 → u.core.cnt = s.core.cnt ∧ u.core.pend = insertPend
            [{ w := e.shape.result got, due := n, since := n - 6, ld := some (e.cycle + 6) }] s.core.pend (n - 6)) ∧
          (e.shape.dest = .s 0 → u.core.pend = s.core.pend ∧ u.core.cnt.ld = s.core.cnt.ld - 1)) ∧
        (e.due = none → u.core.locks = s.core.locks.map fun l =>
          if l.tok = e.tok then { l with result := some [e.shape.result got] } else l))

/-- R269, R270, R130 ATOMIC: an atomic whose turn has come reads the coherence-latest bytes at their home and writes them in
the same step; the old value is its result, and every other byte stays. -/
def AtomicActs : Prop :=
  ∀ (tok : Nat) (s : State) (e : LoadEntry) (op : AtomicOp) (d : BitVec 6), s.coreId < 512 →
    s.core.loads.find? (fun x => x.tok == tok && x.atomic.isSome) = some e → e.atomic = some (op, false) →
    e.shape = .scalar d → e.due = none →
    s.core.loadsBefore e.stream e.seq = true → (∀ x ∈ s.core.sq, x.stream = e.stream → e.seq ≤ x.seq) →
    let pas := e.todo.map (·.2.1)
    pas.Nodup → (∀ pa ∈ pas, reaches s s.here pa = true ∧ (byteAt s pa).2 = false) →
    let old : Word := BitVec.ofNat 64 (natOfBytes (pas.map fun pa => (byteAt s pa).1))
    ∃ u, exec (.atomic tok) s = .next u ∧
      u.core.loads = s.core.loads.filter (fun x => x.tok != e.tok) ∧
      (let ws := if (op.apply old).2 = 0 then [RegWrite.s d old] else [.s d old, .flags (op.apply old).2]
       u.core.locks = s.core.locks.map fun l => if l.tok = e.tok then { l with result := some ws } else l) ∧
      (∀ pa, pa ∉ pas → byteAt u pa = byteAt s pa) ∧
      ((op.apply old).1 = none → ∀ pa, byteAt u pa = byteAt s pa) ∧
      (∀ v, (op.apply old).1 = some v → ∀ x ∈ pas.zip (bytesOfNat pas.length v.toNat), byteAt u x.1 = (x.2, false))

/-- R130, R132, R134: ARRIVE moves the oldest write of a channel into the other die's queue, APPLY takes a write out of it and
applies it there unless the die holds a later write of the same byte, JOIN binds a path of the die to the write; none of the
three changes which write of a byte is the latest. -/
def OrderSteps : Prop :=
  ∀ (a b : BitVec 2) (p : Path) (n : Nat) (w : Write) (s : State),
    (a ≠ b → channelHead s a b = some w →
      ∃ u, exec (.arrive a b) s = .next u ∧ (u.die b).iq = (s.die b).iq ++ [w.id] ∧ ∀ pa, byteAt u pa = byteAt s pa) ∧
    (applyReady s a n = true →
      ∃ u, exec (.apply a n) s = .next u ∧ (u.die a).iq = (s.die a).iq.filter (· != n) ∧
        (∀ x ∈ u.writes, x.id = n → x.applied.contains a = true ∧
          ∀ y ∈ s.writes, n < y.id → ∀ c ∈ x.bytes, y.heldAt a c.pa = true → x.heldAt a c.pa = false) ∧
        ∀ pa, byteAt u pa = byteAt s pa) ∧
    (s.writes.find? (fun x => x.id == n) = some w → w.applied.contains a = true → w.binds a p = false →
      ∃ u, exec (.join a n p) s = .next u ∧ (∀ x ∈ u.writes, x.id = n → x.applied.contains a = true → x.binds a p = true) ∧
        ∀ pa, byteAt u pa = byteAt s pa)

/-- R54, R275: an interlocked result lands: the lock goes, the registers get their values, the counter of its class falls; with
one scalar register as the destination nothing else changes. -/
def InterlockedLands : Prop :=
  ∀ (tok : Nat) (s : State) (l : Lock) (ws : List RegWrite),
    s.core.locks.find? (fun x => x.tok == tok) = some l → l.result = some ws →
    let t := ws.foldl landOne { s with core := { s.core with locks := s.core.locks.erase l } }
    exec (.interlockedLand tok) s = .next (match l.counts with
      | some i => { t with core := t.core.count i (-1) }
      | none => t).clear ∧
    ∀ (d : BitVec 6) (x : Word), d ≠ 0 → ws = [.s d x] → l.counts = none →
      ∃ u, exec (.interlockedLand tok) s = .next u ∧ u.core.rs d = x ∧ (∀ r, r ≠ d → u.core.rs r = s.core.rs r) ∧
        u = { s with sig := .none, core := { s.core with s := u.core.s, locks := s.core.locks.erase l } }

/-- R68, R275: a multicast store whose cycle has come lands in all its targets at once, joined for every reader; its granules are
tagged synchronous by the cluster, and full-empty bits do not change. Of stores of one cluster, those of an earlier cycle go
first, and in one cycle those of lower-numbered cores. `st` falls unless a write of the same store is still queued. -/
def MulticastLands : Prop :=
  ∀ (s : State) (e : McastEntry) (r : List McastEntry), s.core.mcast = e :: r → e.due ≤ s.time → mcastBefore s e.due = false →
    ∃ u, exec .multicastLand s = .next u ∧ u.core.mcast = r ∧ u.fe = s.fe ∧
      u.core.cnt.st = (if e.counts = true ∧ ∀ x ∈ s.core.sq, x.seq ≠ e.seq then s.core.cnt.st - 1 else s.core.cnt.st) ∧
      (∀ pa b, e.bytes.find? (fun b => b.pa == pa) = some b → byteAt u pa = (b.val, b.poison)) ∧
      (∀ pa, (∀ b ∈ e.bytes, b.pa ≠ pa) → byteAt u pa = byteAt s pa) ∧
      (∀ b ∈ e.bytes, onDie b.pa = true → kfind u.tags (granule b.pa) = some (.sync (clusterOf s.coreId)))

/-- R134, R274: a FENCE whose conditions hold completes and joins every listed write of its paths at its scope that is
applied at the die; at core scope it joins nothing. It changes no byte and no register; before that its bundle holds. -/
def Fences : Prop :=
  ∀ (paths : BitVec 6) (sc : Scope) (streams : BitVec 16) (g : GuardF) (s : State), s.core.guard g = true →
    (fenceReady s.core streams = false → exec (.fence paths sc streams g) s = hold s .fence) ∧
    (fenceReady s.core streams = true →
      (sc = .package ∨ sc = .system → allApplied (drainIq s s.here) s.core.obs = true) →
      ∃ u, exec (.fence paths sc streams g) s = .next u ∧ u.sig = .none ∧ u.core = s.core ∧
        (∀ pa, byteAt u pa = byteAt s pa) ∧
        (sc ≠ .core → ∀ w ∈ u.writes, w.path ∈ pathsOf paths → w.applied.contains s.here = true →
          ∀ q ∈ pathsOf paths, w.binds s.here q = true))

/-- R276, R135: a WAIT whose named counters are all at or below its limit completes and changes no byte and no register; while
one is above, its bundle holds. -/
def Waits : Prop :=
  ∀ (classes limit : BitVec 6) (g : GuardF) (s : State), s.core.guard g = true →
    let named := (List.range 6).filter fun i => classes.getLsbD i
    ((∃ i ∈ named, limit.toNat < (s.core.cnt.get (BitVec.ofNat 3 i)).toNat) →
      exec (.wait classes limit g) s = hold s .waitCounters) ∧
    ((∀ i ∈ named, (s.core.cnt.get (BitVec.ofNat 3 i)).toNat ≤ limit.toNat) →
      ∃ u, exec (.wait classes limit g) s = .next u ∧ u.sig = .none ∧ u.core = { s.core with obs := u.core.obs } ∧
        ∀ pa, byteAt u pa = byteAt s pa)

/-! ### Barriers and snapshots -/

/-- R277, R278: BARINIT, BARARV and BARARW send an operation to the record, and a BARARW waits there after its bundle; a count
above the gang's size, or a ninth recorded arrival, traps. -/
def BarrierOperations : Prop :=
  ∀ (n : BitVec 10) (cnt : BitVec 14) (g : GuardF) (s : State), s.core.guard g = true →
    let sent (init : Bool) : CoreState := { s.core with
      arrivals := s.core.arrivals ++ [⟨n, cnt.toNat, init, s.core.seq, s.core.pc⟩], seq := s.core.seq + 1 }
    (cnt.toNat ≤ s.core.plane.gsize →
      exec (.barinit n cnt g) s = .next { s with sig := .none, core := sent true } ∧
      (s.core.splitCount < 8 → exec (.bararv n cnt g) s = .next { s with sig := .none, core := sent false }) ∧
      (8 ≤ s.core.splitCount → trapsWith s (exec (.bararv n cnt g) s) 0x0B) ∧
      exec (.bararw n cnt g) s = .next { s with sig := .none, core := { sent false with after := s.core.after ++ [.barrier n s.core.pc] } }) ∧
    (s.core.plane.gsize < cnt.toNat →
      trapsWith s (exec (.barinit n cnt g) s) 0x0B ∧ trapsWith s (exec (.bararv n cnt g) s) 0x0B ∧
      trapsWith s (exec (.bararw n cnt g) s) 0x0B)

/-- R277: at the record, BARINIT opens an idle record with its count; an arrival adds the task, and the last one ends the phase:
the record is idle again, its generation is one higher and the arrival's split names the ended generation. -/
def BarrierRecord : Prop :=
  ∀ (s : State) (a : Arrival) (rest : List Arrival), s.core.arrivals = a :: rest → s.gangBroken = false →
    let r := s.bar a.n
    (a.init = true → r.isOpen = false → a.count ≠ 0 →
      ∃ u, exec .barrierArrival s = .next u ∧ u.core.arrivals = rest ∧
        u.bar a.n = { r with isOpen := true, cnt := a.count, who := [] } ∧ u.core.deferred = s.core.deferred) ∧
    (a.init = true → r.isOpen = true → ∃ u, exec .barrierArrival s = .next u ∧ u.bars = s.bars ∧
      (s.core.deferred = none → ∃ t, u.core.deferred = some t ∧ t.cause = 0x0B)) ∧
    (a.init = false → releaseReady s s.gangScope a.seq = true →
      (r.isOpen = true → r.cnt = a.count ∧ ∀ w ∈ r.who, w.1 ≠ s.core.plane.member) →
      ∃ u rel, exec .barrierArrival s = .next u ∧ u.core.arrivals = rest ∧ rel.core = s.coreId ∧
        u.core.splits = s.core.splits ++ [⟨a.n, r.gen, r.phase⟩] ∧
        (r.who.length + 1 ≠ a.count →
          u.bar a.n = { r with isOpen := true, cnt := a.count, who := r.who ++ [(s.core.plane.member, rel)] }) ∧
        (r.who.length + 1 = a.count →
          u.bar a.n = ⟨false, 0, r.gen + 1, r.phase + 1, [],
            r.done ++ [(r.phase, (r.who ++ [(s.core.plane.member, rel)]).map (·.2))]⟩))

/-- R278: BARWT holds until the phase of its arrival has ended, then takes the arrival back; with no recorded arrival it does
nothing; after firmware has ended a member of the gang it traps. -/
def BarrierWait : Prop :=
  ∀ (n : BitVec 10) (g : GuardF) (s : State), s.core.guard g = true →
    (s.gangBroken = true → trapsWith s (exec (.barwt n g) s) 0x0B) ∧
    (s.gangBroken = false → (∀ x ∈ s.core.splits, x.n ≠ n) → (∀ a ∈ s.core.arrivals, a.n ≠ n) →
      exec (.barwt n g) s = .next s.clear) ∧
    (∀ x, s.gangBroken = false → s.core.splits.find? (fun y => y.n == n) = some x →
      (phaseDone s x = none → exec (.barwt n g) s = hold s .barrier) ∧
      (∀ rels, phaseDone s x = some rels → ∃ u, exec (.barwt n g) s = .next u ∧ u.sig = .none ∧
        u.core.splits = s.core.splits.erase x ∧ u.core.s = s.core.s ∧ u.core.v = s.core.v ∧ u.bars = s.bars))

/-- R280, R356: SNAP, the snapshot word of a die and the debug port latch every core of the partition, unless one of its
snapshots is valid; SNAP does so only where SNAPCTL allows it. -/
def Snapshots : Prop :=
  ∀ (g : GuardF) (d p : BitVec 2) (s : State), s.core.guard g = true →
    ((s.die s.here).snapctl.getLsbD 0 = false → exec (.snap g) s = .next s.clear) ∧
    ((s.die s.here).snapctl.getLsbD 0 = true →
      exec (.snap g) s = .next (snapTrigger s (partOfDie s.xd0.mode s.here)).clear) ∧
    exec (.snaptrig d) s = .next (snapTrigger s (partOfDie s.xd0.mode d)).clear ∧
    (p.toNat < partCount s.xd0.mode → exec (.debugPortTrigger p) s = .next (snapTrigger s p.toNat).clear) ∧
    ((∃ x ∈ s.snaps, (partCores s.xd0.mode p.toNat).contains x.1 = true ∧ x.2.getLsbD 0 = true) →
      snapTrigger s p.toNat = s) ∧
    ((∀ x ∈ s.snaps, (partCores s.xd0.mode p.toNat).contains x.1 = true → x.2.getLsbD 0 = false) →
      ∃ l, snapTrigger s p.toNat = { s with snaps := l } ∧
        ∀ k ∈ partCores s.xd0.mode p.toNat, kfind l k = some (snapOf s.time (s.agent k)))

/-! ### Engine commands -/

/-- R235, R236, R229, R232: a COPY or COPYM whose ranges pass the checks and that has room enters the copy queue with its
translated ranges, and its post-increments become pending. A COPY of a range in the multicast window, in the splice window or
across the end of a window takes the access trap (R68, R233), and so does a COPYM to anything but the local window (R236). -/
def CopyCommands : Prop :=
  ∀ (d a : EAddr) (len : CopyLen) (clen : CopymLen) (m : BitVec 6) (g : GuardF) (s : State) (src dst : List Seg) (off : Nat),
    s.core.guard g = true →
    let sa := a.access s.core
    let da := d.access s.core
    let pend := (sa.done (da.done s)).core.pend
    (checkEngine s .copy ⟨true, false⟩ sa.ea.toNat (CopyLen.bytes len s.core) = .ok src →
      checkEngine s .copy ⟨false, true⟩ da.ea.toNat (CopyLen.bytes len s.core) = .ok dst → roomFor s .copy (src ++ dst) →
      ∃ u c, exec (.copy d a len g) s = .next u ∧ enqueued s u .copy c ∧ u.core.pend = pend ∧
        c.body = .copy dst src (CopyLen.bytes len s.core) (heldBy s dst)) ∧
    (s.coreId < 512 → windowOf da.ea.toNat (CopymLen.bytes clen s.core) = .loc off →
      checkEngine s .copy ⟨true, false⟩ sa.ea.toNat (CopymLen.bytes clen s.core) = .ok src → roomFor s .copy src →
      ∃ u c held, exec (.copym d a clen m g) s = .next u ∧ enqueued s u .copy c ∧ u.core.pend = pend ∧
        c.body = .copym src off (CopymLen.bytes clen s.core) ((s.core.rs m).setWidth 16) held) ∧
    (let n := CopyLen.bytes len s.core
      let barred (va : Nat) : Prop := n ≠ 0 ∧ windowOf va n ≠ .plain ∧ ∀ off, windowOf va n ≠ .loc off
      (barred sa.ea.toNat → trapsWith s (exec (.copy d a len g) s) 0x08) ∧
      (checkEngine s .copy ⟨true, false⟩ sa.ea.toNat n = .ok src → barred da.ea.toNat →
        trapsWith s (exec (.copy d a len g) s) 0x08)) ∧
    ((∀ off, windowOf da.ea.toNat (CopymLen.bytes clen s.core) ≠ .loc off) →
      trapsWith s (exec (.copym d a clen m g) s) 0x08)

/-- R238, R229: a RELAY whose two records pass the capture and the shape tests, and whose ranges pass the checks, enters the copy
queue with the destination at its new lay; one whose shapes, types or lay breach R238 takes the shape fault. -/
def RelayCommand : Prop :=
  ∀ (tr : Bool) (d a : BitVec 8) (lay : BitVec 4) (vc : BitVec 6) (g : GuardF) (s t : State) (r r' : RawRec)
    (dh ah : Shape) (rp sp dp : List Seg), s.core.guard g = true →
    passes (captureHandles [d, a] s) [r, r'] t → passesWith (withShapes t [r, r']) [dh, ah] →
    (relayOk dh ah lay.toNat tr = false → trapsWith t (exec (.relay tr d a lay vc g) s) 0x13) ∧
    ((ah.ty ≠ dh.ty ∨ 4 < lay.toNat ∨ (tr = true ∧ ah.rank < 2) ∨ (dh.ty = .e2m1k ∧ (lay.toNat ≠ 4 ∨ tr = true)) ∨
      (tr = false ∧ ∃ x ∈ ah.ext.zip dh.ext, x.2 < x.1)) → relayOk dh ah lay.toNat tr = false) ∧
    (relayOk dh ah lay.toNat tr = true →
    let n : Shape := { dh with lay := lay.toNat }
    let v : Option Nat := if vc = 0 then none else some (s.core.rs vc).toNat
    let els := (List.range n.count).filter fun l => within v (n.row l)
    checkEngines t .copy ⟨false, true⟩ [(r.va + 10, 1)] = .ok rp →
    checkEngines t .copy ⟨true, false⟩ (ah.rangesOf (els.filterMap (relaySource n ah tr))) = .ok sp →
    checkEngines t .copy ⟨false, true⟩ (n.rangesOf els) = .ok dp →
    roomFor t .copy (rp ++ sp ++ dp) →
    ∃ u c, exec (.relay tr d a lay vc g) s = .next u ∧ enqueued t u .copy c ∧
      c.body = .relay { n with segs := dp } { ah with segs := sp } lay.toNat tr v rp (heldBy t dp))

/-- R239 to R244, R229, R232: a tensor operation whose rounding mode is legal, whose records pass the capture and the shape
tests, and whose ranges pass the checks, enters the tensor queue with the pieces of R72 to R80; PLACEQ enters it with the
status bytes that the same operation would have. -/
def TensorCommands : Prop :=
  ∀ (k : TopKind) (dn : BitVec 8) (ss : List (BitVec 8)) (vc : Option Nat) (st : Nat) (s t : State) (raw : List RawRec)
    (d : Shape) (srcs srcs' : List Shape) (dseg sseg : List Seg),
    s.core.rnd.toNat < 5 →
    passes (captureHandles (dn :: ss) s) raw t → passesWith (withShapes t raw) (d :: srcs) →
    topOk k d srcs = true → d.spl = false → st % 8 = 0 →
    let dOp := operandOf t d
    let ops := srcs.map (operandOf t)
    let pl := placeTop t k dOp ops vc
    passesWith (withSources t k d srcs vc 0 srcs) srcs' →
    checkTensor t (destNeed k) d (destElems k d srcs vc (ops.headD dOp)) = .ok dseg →
    checkEngine t .tensor ⟨false, true⟩ st (if st = 0 then 0 else 8 + 8 * pl.pieces.length) = .ok sseg →
    roomFor t .tensor (dseg ++ srcs'.flatMap (·.segs) ++ sseg) →
    let goes (i : Instr) : Prop :=
      ∃ u c, exec i s = .next u ∧ enqueued t u .tensor c ∧ c.pieces = pl.pieces ∧ c.writes = some dn ∧
        c.body = .top k { d with segs := dseg } srcs' vc (if st = 0 then none else some sseg) t.core.rnd t.core.sat
          pl.hm pl.enc pl.cen
    (∀ o : Top3, s.core.guard o.g = true → dn = o.d → ss = [o.a, o.b] → pairOf s.core o.p = (vc, st) →
      (k = .ewadd → goes (.ewadd o)) ∧ (k = .ewmul → goes (.ewmul o)) ∧ (k = .ewfma → goes (.ewfma o)) ∧
      (k = .ewmax → goes (.ewmax o)) ∧ (k = .gemv → goes (.gemv o)) ∧ (k = .gemm → goes (.gemm o))) ∧
    (∀ (a : BitVec 8) (p : BitVec 6) (g : GuardF) (ovn : Bool) (op : RedOp), s.core.guard g = true → ss = [a] →
      pairOf s.core p = (vc, st) →
      (k = .ewcvt ovn → goes (.ewcvt ovn dn a p g)) ∧ (k = .reduce op → goes (.reduce op dn a p g))) ∧
    (∀ (w a : BitVec 6) (g : GuardF), s.core.guard g = true → st ≠ 0 → vc = none → (s.core.rs a).toNat = st →
      placeqTop (s.core.rs w) st = some ⟨k, dn, ss, vc, st, true⟩ →
      ∃ u c, exec (.placeq w a g) s = .next u ∧ enqueued t u .tensor c ∧ c.pieces = [] ∧
        c.body = .placeq sseg (statusBytes pl.pieces pl.hm pl.enc pl.cen 2))

/-- R81, R244: a PLACEQ whose word is no tensor operation is an illegal instruction, and one without a status area takes the
shape fault. -/
def PlaceqFaults : Prop :=
  ∀ (w a : BitVec 6) (g : GuardF) (s : State), s.core.guard g = true →
    (placeqTop (s.core.rs w) (s.core.rs a).toNat = none → trapsWith s (exec (.placeq w a g) s) 0x03) ∧
    (placeqTop (s.core.rs w) (s.core.rs a).toNat ≠ none → s.core.rs a = 0 → trapsWith s (exec (.placeq w a g) s) 0x13)

/-- R99, R101, R107, R97: KVFIND, KVFREE and SETBAND whose locator descriptor passes its capture enter the tensor queue, once the
ranges that each will touch have passed; KVFIND and KVFREE make their destination pending. -/
def LocatorCommands : Prop :=
  ∀ (d q b : BitVec 6) (x l : EAddr) (g : GuardF) (s t t' : State) (loc loc' : Locator) (src : List Byte) (dst : List Seg),
    s.core.guard g = true →
    let va := ((l.access s.core).ea).toNat
    let y := s.core.rs q
    let z := s.core.rs b
    let lo := z.extractLsb' 0 32
    let hi := z.extractLsb' 32 32
    passes (captureLocator s va) loc t →
    (passesWith (withTable t loc ⟨true, false⟩ loc.ovcnt) loc' → roomFor t .tensor loc'.segs →
      ∃ u c, exec (.kvfind d q l g) s = .next u ∧ enqueued t u .tensor c ∧ awaited t u c d ∧
        c.body = .kvfind loc' (y.extractLsb' 0 32) (y.extractLsb' 32 32)) ∧
    ((if hi.toNat < lo.toNat then loc' = loc else passesWith (withTable t loc ⟨true, true⟩ loc.ovcnt) loc') →
      roomFor t .tensor loc'.segs → y.toNat < 2 ^ 32 →
      ∃ u c, exec (.kvfree d q b l g) s = .next u ∧ enqueued t u .tensor c ∧ awaited t u c d ∧
        c.body = .kvfree loc' (y.extractLsb' 0 32) lo hi lo.toNat 0 false) ∧
    (passes (capture t ((x.access s.core).ea).toNat 144) src t' → z.toNat < 256 → bandOk src = true →
      checkEngine t' .tensor ⟨true, true⟩ (loc.bandt + 256 * z.toNat) 144 = .ok dst → roomFor t' .tensor (loc.segs ++ dst) →
      ∃ u c, exec (.setband b x l g) s = .next u ∧ enqueued t' u .tensor c ∧ c.body = .setband dst src)

/-- R100, R247: a KVAPP whose descriptor, records, locator and ranges pass enters the tensor queue, with the rows that its count
gives, at most 64. -/
def KvAppend : Prop :=
  ∀ (d : BitVec 6) (x : EAddr) (vc : BitVec 6) (g : GuardF) (s t1 t2 t3 : State) (b : List Byte) (raw : List RawRec)
    (kp vp ks vs : Shape) (loc loc' : Locator) (tseg kss vss kps vps : List Seg), s.core.guard g = true →
    let va := ((x.access s.core).ea).toNat
    let rows := if vc = 0 then 64 else min (s.core.rs vc).toNat 64
    let dd := kp.ext.headD 1
    let cls := fieldNat b 4 1
    let bset := fieldNat b 5 1
    va % 64 = 0 → passes (capture s va 64) b t1 →
    passes (captureHandles ((List.range 4).map fun i => BitVec.ofNat 8 (fieldNat b i 1)) t1) raw t2 →
    passesWith (withShapes t2 raw) [kp, vp, ks, vs] →
    (cls = 1 ∧ bset = 0 ∨ cls = 2) → fieldNat b 6 2 = 0 → fieldNat b 12 4 = 0 → fieldNat b 32 32 = 0 →
    poolOk kp = true → poolOk vp = true → vp.ext.headD 1 = dd → sourceOk dd ks = true → sourceOk dd vs = true →
    passes (captureLocator t2 (fieldNat b 24 8)) loc t3 → loc.p ≤ kp.ext.getD 2 1 → loc.p ≤ vp.ext.getD 2 1 →
    (if rows = 0 then loc' = loc else passesWith (withTable t3 loc ⟨true, true⟩ 4096) loc') →
    checkEngine t3 .tensor ⟨true, false⟩ loc'.turnt (if cls = 1 ∧ rows ≠ 0 then 8 * (dd / 2) else 0) = .ok tseg →
    checkTensor t3 ⟨true, false⟩ { ks with spl := false } (List.range (dd * rows)) = .ok kss →
    checkTensor t3 ⟨true, false⟩ { vs with spl := false } (List.range (dd * rows)) = .ok vss →
    (if rows = 0 then Checked.ok [] else checkPool t3 ⟨false, true⟩ kp) = .ok kps →
    (if rows = 0 then Checked.ok [] else checkPool t3 ⟨false, true⟩ vp) = .ok vps →
    roomFor t3 .tensor (loc'.segs ++ tseg ++ kss ++ vss ++ kps ++ vps) →
    ∃ u c, exec (.kvapp d x vc g) s = .next u ∧ enqueued t3 u .tensor c ∧ awaited t3 u c d ∧
      c.body = .kvapp { loc' with segs := loc'.segs ++ tseg } (BitVec.ofNat 32 (fieldNat b 8 4)) (BitVec.ofNat 8 cls)
        (BitVec.ofNat 8 bset) (BitVec.ofNat 64 (fieldNat b 16 8)) rows t3.core.sat { kp with segs := kps }
        { vp with segs := vps } { ks with segs := kss } { vs with segs := vss } 0

/-- R91, R92, R245: an ATTN whose descriptor, records, locator and ranges pass enters the tensor queue, as one central piece. -/
def Attention : Prop :=
  ∀ (x : EAddr) (p : BitVec 6) (g : GuardF) (s t1 t2 t3 : State) (b : List Byte) (raw : List RawRec)
    (q kp vp o : Shape) (ml : List Shape) (loc loc' : Locator) (tseg bseg qs ks vs os ms sseg : List Seg),
    s.core.guard g = true →
    let va := ((x.access s.core).ea).toNat
    let n := (pairOf s.core p).1.getD 0
    let st := (pairOf s.core p).2
    let norm := (fieldNat b 5 1).testBit 0
    let seq := BitVec.ofNat 32 (fieldNat b 8 4)
    va % 64 = 0 → passes (capture s va 64) b t1 →
    passes (captureHandles ((List.range 5).map fun i => BitVec.ofNat 8 (fieldNat b i 1)) t1) raw t2 →
    (∀ r, raw.getLast? = some r →
      passesWith (withShapes t2 (if r.va = 0 then raw.dropLast else raw)) (q :: kp :: vp :: o :: ml)) → raw ≠ [] →
    fieldNat b 5 1 < 2 → fieldNat b 6 2 = 0 → fieldNat b 32 32 = 0 → attnOk q kp vp o ml.head? norm = true →
    passes (captureLocator t2 (fieldNat b 24 8)) loc t3 → loc.p ≤ kp.ext.getD 2 1 → loc.p ≤ vp.ext.getD 2 1 →
    (if n = 0 then loc' = loc else passesWith (withTable t3 loc ⟨true, false⟩ loc.ovcnt) loc') →
    let band := if n = 0 then none else bandSet t3 (newCmd t3 .tensor (.kvfind loc' seq 0) []) loc' seq.toNat
    let all (h : Shape) := List.range h.count
    checkEngine t3 .tensor ⟨true, false⟩ loc'.turnt (if n = 0 then 0 else 8 * (q.ext.headD 1 / 2)) = .ok tseg →
    checkEngines t3 .tensor ⟨true, false⟩ (bandRange loc' band) = .ok bseg →
    checkTensor t3 ⟨true, false⟩ { q with spl := false } (all q) = .ok qs →
    (if n = 0 then Checked.ok [] else checkPool t3 ⟨true, false⟩ kp) = .ok ks →
    (if n = 0 then Checked.ok [] else checkPool t3 ⟨true, false⟩ vp) = .ok vs →
    checkTensor t3 ⟨false, true⟩ { o with spl := false } (all o) = .ok os →
    (∀ m, ml.head? = some m → checkTensor t3 ⟨false, true⟩ { m with spl := false } (all m) = .ok ms) →
    (ml.head? = none → ms = []) →
    st % 8 = 0 → checkEngine t3 .tensor ⟨false, true⟩ st (if st = 0 then 0 else 16) = .ok sseg →
    roomFor t3 .tensor (loc'.segs ++ tseg ++ bseg ++ qs ++ ks ++ vs ++ os ++ ms ++ sseg) →
    ∃ u c a, exec (.attn x p g) s = .next u ∧ enqueued t3 u .tensor c ∧ c.body = .attn a ∧ c.pieces.length = 1 ∧
      a.q = { q with segs := qs } ∧ a.kp = { kp with segs := ks } ∧ a.vp = { vp with segs := vs } ∧
      a.o = { o with segs := os } ∧ a.seq = seq ∧ a.n = n ∧ a.norm = norm ∧
      a.loc = { loc' with segs := loc'.segs ++ tseg ++ bseg } ∧ a.band = band.map (captureBand t3
        (newCmd t3 .tensor (.kvfind loc' seq 0) []) a.loc) ∧ a.blocks = []

/-- R249 to R251, R371: a network command whose descriptor lies in the local window, passes R249's table and names a legal endpoint,
and whose entropy set and local range pass the checks, enters the network queue with the endpoint's ports and the values of its
entropy set; NXAMO makes its destination pending. A descriptor that is not aligned or lies in plain memory takes the shape
fault, and one in another window the access trap (R68). -/
def NetworkCommands : Prop :=
  ∀ (d : BitVec 6) (x : EAddr) (g : GuardF) (s t t1 t' : State) (off : Nat) (b : List Byte) (m : Message) (e : Endpoint)
    (values : List (BitVec 16)) (segs : List Seg), s.core.guard g = true → s.coreId < 512 →
    let va := ((x.access s.core).ea).toNat
    let traps (cause : Cause) : Prop := trapsWith s (exec (.nxwr x g) s) cause ∧ trapsWith s (exec (.nxrd x g) s) cause ∧
      trapsWith s (exec (.nxamo d x g) s) cause
    (va % 16 ≠ 0 ∨ windowOf va 48 = .plain → traps 0x13) ∧
    (va % 16 = 0 → windowOf va 48 ≠ .plain → (∀ off, windowOf va 48 ≠ .loc off) → traps 0x08) ∧
    (windowOf va 48 = .loc off → va % 16 = 0 → passes (capture s va 32) b t →
    let goes (k : NxKind) (i : Instr) (need : Need) (body : Message → CmdBody) (res : State → Cmd → State → Prop) : Prop :=
      parseMessage k off b = some m → passes (withEndpoint t va m.ep) e t1 → (e.proto = 1 → roceOk m = true) →
      passes (withEntropy t1 m.eset) values t' →
      (if k = .amo then Checked.ok [] else checkEngine t' .network need m.lva.toNat m.len) = .ok segs → roomFor t' .network segs →
      ∃ u c, exec i s = .next u ∧ enqueued t' u .network c ∧ res t' c u ∧
        c.body = body { m with
          proto := BitVec.ofNat 2 e.proto, port0 := e.port0, nport := e.nport, entropy := values, segs := segs }
    goes .wr (.nxwr x g) ⟨true, false⟩ .nxwr (fun _ c _ => c.tok = none) ∧
    goes .rd (.nxrd x g) ⟨false, true⟩ .nxrd (fun _ c _ => c.tok = none) ∧
    goes .amo (.nxamo d x g) ⟨true, true⟩ .nxamo (fun t c u => awaited t u c d))

/-- R252, R253: NXWAIT completes once its counter has reached its target and holds before that; NXSTAT answers the word of its
selector into an interlocked destination. -/
def NetworkWaits : Prop :=
  ∀ (c v d p : BitVec 6) (g : GuardF) (s : State), s.core.guard g = true →
    let n := (s.core.rs c).toNat
    let x := s.core.rs p
    (1024 ≤ n → trapsWith s (exec (.nxwait c v g) s) 0x13) ∧
    (n < 1024 → 2 ^ 31 ≤ (s.arrival n - (s.core.rs v).setWidth 32).toNat → exec (.nxwait c v g) s = hold s .nxwait) ∧
    (n < 1024 → (s.arrival n - (s.core.rs v).setWidth 32).toNat < 2 ^ 31 →
      ∃ u, exec (.nxwait c v g) s = .next u ∧ u.sig = .none ∧ u.core = { s.core with obs := u.core.obs } ∧
        ∀ pa, byteAt u pa = byteAt s pa) ∧
    (2 ^ 18 ≤ x.toNat → trapsWith s (exec (.nxstat d p g) s) 0x13) ∧
    (x.toNat < 2 ^ 18 →
      ∃ w k, exec (.nxstat d p g) s = .next { s.locked [.s d] [.s d w] with choice := k } ∧
        (x.extractLsb' 16 2 = 0#2 →
          w = pathWord (s.path s.part s.slot (x.extractLsb' 0 12).toNat (x.extractLsb' 12 4).toNat)) ∧
        (x.extractLsb' 16 2 = 1#2 → w = (s.arrival (x.extractLsb' 0 10).toNat).setWidth 64) ∧
        (x.extractLsb' 16 2 = 3#2 → w = 0))

/-! ### Splices -/

/-- R119 to R121: an SPLOPEN whose descriptor, records and tables pass, on a number that is not open and with room in the store,
opens the context: every token empty, the deadline that many cycles ahead; `.nb` answers 1 then. Where there is no room,
SPLOPEN holds its bundle and `.nb` answers 0. -/
def SpliceOpen : Prop :=
  ∀ (cr : BitVec 6) (k : BitVec 3) (x : EAddr) (g : GuardF) (s t1 t2 : State) (b : List Byte) (p : SplDesc)
    (raw : List RawRec) (rseg oseg fseg : List Seg) (oh : Shape), s.core.guard g = true →
    let n := (s.core.rs cr).toNat % 64
    let va := ((x.access s.core).ea).toNat
    let fbs := raw.tail
    let rd := readBytes t2.here .splice [] (segAddrs rseg) t2
    va % 64 = 0 → passes (capture s va 64) b t1 → parseSplice b = some p →
    checkEngines t1 .splice ⟨true, false⟩ p.planes = .ok rseg →
    passes (captureHandles (p.outh :: (if p.policy = 2 then [p.fbh] else [])) t1) raw t2 →
    checkRecord t2 ⟨false, true⟩ (raw.headD ⟨0, 0, none⟩) = .ok oseg →
    checkAll (checkRecord t2 ⟨true, false⟩) fbs = .ok fseg →
    (∀ y ∈ rd.1, y.poison = false) → p.idsOk (rd.1.map (·.val)) = true →
    (raw.headD ⟨0, 0, none⟩).good p.outOk = some oh → (∀ r ∈ fbs, r.good p.fbOk ≠ none) → fbs.length ≤ 1 →
    findSplice t2 t2.here n = none → p.pages ≤ 8192 →
    let room := (spliceUse t2 t2.here).1 + p.tcount ≤ 8192 ∧ (spliceUse t2 t2.here).2 + p.pages ≤ 8192
    let opened (u : State) : Prop := u.sig = .none ∧ u.nextId = t2.nextId + 1 ∧ ∃ y : SplCtx, findSplice u t2.here n = some y ∧
      y.owner = t2.pasid ∧ y.tbase = p.tbase ∧ y.tcount = p.tcount ∧ y.kk = p.kk ∧ y.d = p.d ∧
      y.deadline = t2.time + p.deadline ∧ y.tokens = List.replicate p.tcount Token.empty ∧ y.passed = false
    (room → stakesFull t2 (stakePages t2 (t2.caught ++ rseg ++ oseg ++ fseg)) = false →
      (∃ u, exec (.splopen cr x g) s = .next u ∧ opened u ∧ u.core.locks = t2.core.locks) ∧
      (∃ u l, exec (.splopenNb cr k x g) s = .next u ∧ opened u ∧ u.core.locks = t2.core.locks ++ [l] ∧
        l.regs = [.g k] ∧ l.result = some [.g k true])) ∧
    (¬ room →
      (∃ w, exec (.splopen cr x g) s = hold w .splopen) ∧
      (∃ u l, exec (.splopenNb cr k x g) s = .next u ∧ u.sig = .none ∧ u.dies = t2.dies ∧
        u.core.locks = t2.core.locks ++ [l] ∧ l.regs = [.g k] ∧ l.result = some [.g k false]))

/-- R122, R123: an SPLARV, its context's deadline having taken its place first, answers the code of the first test that holds
into an interlocked destination, counts in `sp`, and stakes the pages of the row that it reads: 5 for a context that is not open or that another PASID owns; and a row that
passes answers 0, or 4 where its bytes read uncorrectable, and sets its routing entry in its token; it releases no token, since a
release is an event of its own (R123). -/
def SpliceArrivalAnswer : Prop :=
  ∀ (d e tk : BitVec 6) (x : EAddr) (g : GuardF) (s : State) (segs : List Seg), s.core.guard g = true → d ≠ 0 →
    s.core.cnt.sp ≠ BitVec.allOnes 16 →
    let n := (s.core.rs e).toNat % 64
    let ex := (s.core.rs e).toNat / 256 % 256
    let s0 := expireDue s s.here n
    let cl := classify s0 s.here n s.pasid (s.core.rs tk).toNat ex
    let answered (u : State) (code : Nat) (row : List Stake) : Prop := u.sig = .none ∧ u.core.cnt.sp = s.core.cnt.sp + 1 ∧
      u.core.staked = s.core.staked ++ [(s.core.seq, row)] ∧
      ∃ l : Lock, u.core.locks = s.core.locks ++ [l] ∧ l.tok = s.core.seq ∧ l.regs = [.s d] ∧
        l.result = some [.s d (BitVec.ofNat 64 code)] ∧ l.counts = some 5
    (findSplice s0 s.here n = none → ∃ u, exec (.splarv d e tk x g) s = .next u ∧ answered u 5 []) ∧
    ∀ c, findSplice s0 s.here n = some c →
      (c.owner ≠ s.pasid → ∃ u, exec (.splarv d e tk x g) s = .next u ∧ answered u 5 []) ∧
      (c.owner = s.pasid →
        checkEngine s .splice ⟨true, false⟩ ((x.access s.core).ea).toNat (c.d * ((afmtTy c.afmt).bits / 8)) = .ok segs →
        stakesFull s (stakePages s segs) = false →
        (cl.1 ≠ 0 → ∃ u, exec (.splarv d e tk x g) s = .next u ∧ answered u cl.1 (stakePages s segs)) ∧
        ∀ i k, cl = (0, i, k) → i < c.tokens.length → k < 8 →
          let bad := (readBytes s.here .splice [] (segAddrs segs) s0).1.any (·.poison)
          ∃ u, exec (.splarv d e tk x g) s = .next u ∧ answered u (if bad then 4 else 0) (stakePages s segs) ∧
            ∃ y, findSplice u s.here n = some y ∧
              (y.tok i).arrived = (c.tok i).arrived ||| (1#8 <<< k) ∧ (y.tok i).released = (c.tok i).released)

/-- R122 to R124: a row from a TOP or the network leaves its queue and meets the same tests, whatever they give; one that passes
sets its routing entry in its token and releases none; a token that it completes enters the release order, at once where the
policy releases tokens as they complete. -/
def SpliceRows : Prop :=
  ∀ (die : BitVec 2) (s : State) (r : Row) (rest : List Row), (s.die die).rows = r :: rest →
    let n := r.ctx.toNat
    ∃ u, exec (.spliceArrival die) s = .next u ∧ (u.die die).rows = rest ∧
      ∀ x i k, findSplice s die n = some x → (x.passed = true ∨ s.time < x.deadline) → i < x.tokens.length →
        classify s die n r.pasid (x.tbase + r.token) r.expert = (0, i, k) → k < 8 →
        ∃ y, findSplice u die n = some y ∧
          (y.tok i).arrived = (x.tok i).arrived ||| (1#8 <<< k) ∧ (y.tok i).released = (x.tok i).released ∧
          (x.tokOrder = false → (x.tok i).arrived ||| (1#8 <<< k) = x.mask → i ∈ y.held)

/-- R123, R125, R127: the next release of a context is that of the first token in its release order, where its opener is resident: the
token is released and leaves the order, and no other token changes; while the opener is away there is none. -/
def SpliceReleases : Prop :=
  ∀ (die : BitVec 2) (n : Nat) (s : State) (x : SplCtx) (i : Nat) (r : List Nat), findSplice s die n = some x → x.held = i :: r →
    (x.agent s = none → releaseNext s die n = none) ∧
    (x.agent s ≠ none → i < x.tokens.length →
      ∃ u y, releaseNext s die n = some u ∧ findSplice u die n = some y ∧ (y.tok i).released = true ∧
        y.held = x.held.filter (· != i) ∧ (∀ j, j ≠ i → y.tok j = x.tok j) ∧ u.core = s.core)

/-- R126: the deadline of an open context passes once, at its cycle or later: a token that has not entered the release order enters
it, timed out if it is not complete, and is released, or held while its opener is away. -/
def SpliceDeadlines : Prop :=
  ∀ (die : BitVec 2) (ctx : BitVec 6) (s : State) (x : SplCtx), findSplice s die ctx.toNat = some x → x.passed = false →
    x.deadline ≤ s.time →
    ∃ u y, exec (.spliceDeadline die ctx) s = .next u ∧ findSplice u die ctx.toNat = some y ∧ y.passed = true ∧
      ∀ i, i < x.tcount → i < x.tokens.length → x.ordered i = false →
        ((y.tok i).released = true ∨ i ∈ y.held) ∧ (x.complete (x.tok i) = false → (y.tok i).timed = true)

/-- R128: SPLCLOSE of an own context closes it and answers the number of tokens not released, SPLSTAT answers the word of its
selector, once the context's deadline has taken its place; of a context that is not open, or of another PASID, both answer
0. -/
def SpliceCloseAndStatus : Prop :=
  ∀ (d c sel : BitVec 6) (g : GuardF) (s : State), s.core.guard g = true → d ≠ 0 →
    let n := (s.core.rs c).toNat % 64
    let s0 := expireDue s s.here n
    let answered (u : State) (v : Word) : Prop := u.sig = .none ∧ u.core.cnt = s.core.cnt ∧
      ∃ l : Lock, u.core.locks = s.core.locks ++ [l] ∧ l.regs = [.s d] ∧ l.result = some [.s d v]
    (s0.ownSplice n = none →
      (∃ u, exec (.splclose d c g) s = .next u ∧ answered u 0 ∧ u.dies = s0.dies) ∧
      (∃ u, exec (.splstat d c sel g) s = .next u ∧ answered u 0 ∧ u.dies = s0.dies)) ∧
    ∀ x, findSplice s0 s.here n = some x → x.owner = s.pasid →
      (∃ u, exec (.splclose d c g) s = .next u ∧
        answered u (BitVec.ofNat 64 (if x.passed then 0 else x.tokens.countP fun t => !t.released)) ∧
        (u.die s.here).splices = kdel (s0.die s.here).splices n) ∧
      (∃ u, exec (.splstat d c sel g) s = .next u ∧ answered u (BitVec.ofNat 64 (spliceStat s0 x sel.toNat)) ∧
        u.dies = s0.dies)

/-! ### Launches, placement and tasks -/

/-- R254, R157, R233: a LAUNCH captures its record as it stands, stakes its pages, makes its destination pending and waits after its
bundle; a record that is not 64-byte aligned is not captured. -/
def LaunchCommand : Prop :=
  ∀ (d : BitVec 6) (x : EAddr) (g : GuardF) (s t : State) (b : List Byte), s.core.guard g = true → d ≠ 0 →
    let va := ((x.access s.core).ea).toNat
    let waits (t : State) (rec : Option (List Byte)) (pages : List Stake) : Prop :=
      ∃ u, ∃ l : Lock, exec (.launch d x g) s = .next u ∧ u.sig = .none ∧ u.core.locks = t.core.locks ++ [l] ∧
        l.regs = [.s d] ∧ l.result = none ∧ u.core.after = t.core.after ++ [.launch l.tok rec] ∧ u.dies = t.dies ∧
        u.core.staked = t.core.staked ++ [(l.tok, pages)] ∧ sameStore t u
    let pages := stakePages t t.caught
    (va % 64 = 0 → passes (capture s va 256) b t → stakesFull t pages = false → waits t (some b) pages) ∧
    (va % 64 = 0 → passes (capture s va 256) b t → stakesFull t pages = true → exec (.launch d x g) s = hold t .queue) ∧
    (va % 64 ≠ 0 → waits s none [])

/-- R254, R322 to R325, R329: the wait of a LAUNCH goes on while its release is not ready or its die has no place. Then a record that
passes every check enqueues one launch under the next number and answers 0; one that fails the checks of R324 answers its
code, 3 for one that is not aligned, and enqueues nothing. -/
def LaunchWaits : Prop :=
  ∀ (s : State) (tok : Nat) (rec : Option (List Byte)),
    let answered (s u : State) (code : Nat) : Prop := u.core.after = s.core.after.erase (.launch tok rec) ∧
      u.core.locks = (s.core.answer tok (BitVec.ofNat 64 code)).locks
    (releaseReady s .package tok = false ∨ 4096 ≤ queuedLaunches (s.die s.here) → wakeLaunch s tok rec = .waits s) ∧
    (releaseReady s .package tok = true → queuedLaunches (s.die s.here) < 4096 →
      (∀ b r keep drains preload t, rec = some b → recordCode s.context s.here b = (0, some r) →
        checkTable s s.here s.pasid s.core.own r = (.ok keep drains preload, t) →
        ∃ u, wakeLaunch s tok rec = .over u ∧ answered t u 0 ∧ ∃ l ∈ (u.die s.here).active.launches,
          l.id = t.nextId ∧ l.slot = t.slot ∧ l.prio = r.prio ∧ l.claims = r.claims ∧ l.waits = r.waits ∧ l.sig = r.sig ∧
          l.lease = none ∧ l.placed = 0 ∧ l.plane.entry = r.entry ∧ l.plane.image = r.image ∧ l.plane.gsize = r.gsize) ∧
      (∀ code, code ≠ 0 → (rec.map (recordCode s.context s.here)).getD (3, none) = (code, none) →
        ∃ u, wakeLaunch s tok rec = .over u ∧ answered s u code ∧ u.dies = s.dies))

/-- R324: the refusal codes of a record, in their order: 1 for its fields, 2 for a gang that does not fit, 3 for an address or a
field that is reserved. -/
def LaunchRefusals : Prop :=
  ∀ (c : Option Ctx) (d : BitVec 2) (b : List Byte) (r : LaunchRec), parseLaunch b = some r →
    (r.fields = false → recordCode c d b = (1, none)) ∧
    (r.fields = true → 512 < r.gsize ∨ (128 < r.gsize ∧ 128 * boundCount c < r.gsize) → recordCode c d b = (2, none)) ∧
    (r.fields = true → r.gsize ≤ 128 → (vdOf c d).isSome = true →
      (7 < r.prio ∨ r.entry.toNat % 16 ≠ 0 ∨ r.htab.toNat % 2048 ≠ 0 → recordCode c d b = (3, none)) ∧
      (r.bad = false → r.prio ≤ 7 → r.entry.toNat % 16 = 0 → r.htab.toNat % 2048 = 0 → r.dtab.toNat % 16 = 0 →
        recordCode c d b = (0, some r)))

/-- R328, R326, R359, R364, R366: a host write of an event counter sets it, one of its add port adds, modulo 2^32; where no route from
XD0 leads to the die the write is dropped and logged, and a function whose BAR0 does not answer refuses it. -/
def EventCounters : Prop :=
  ∀ (die : BitVec 2) (slot : BitVec 6) (ev : BitVec 8) (val : BitVec 32) (s : State),
    let p := partOfDie s.xd0.mode die
    let page := die.toNat * 2 ^ 30 + 0x40000 + 0x1000 * slot.toNat
    let refused : Res := .next { s with sig := .none, bar0 := none, bar0Bad := false }
    (barOpen s (pfOf p) true = false →
      exec (.eventCounterSet die slot ev val) s = refused ∧ exec (.eventAdd die slot ev val) s = refused) ∧
    (barOpen s (pfOf p) true = true →
    (linked s hostSocket (page + 0x400 + 4 * ev.toNat) = false →
      exec (.eventCounterSet die slot ev val) s = .next (hostDropped s (page + 0x400 + 4 * ev.toNat)).clear) ∧
    (linked s hostSocket (page + 0x800 + 4 * ev.toNat) = false →
      exec (.eventAdd die slot ev val) s = .next (hostDropped s (page + 0x800 + 4 * ev.toNat)).clear) ∧
    (linked s hostSocket (page + 0x400 + 4 * ev.toNat) = true → ∃ u, exec (.eventCounterSet die slot ev val) s = .next u ∧ (u.event p slot.toNat ev).val = val ∧ u.core = s.core) ∧
    (linked s hostSocket (page + 0x800 + 4 * ev.toNat) = true → ∃ u, exec (.eventAdd die slot ev val) s = .next u ∧
      (u.event p slot.toNat ev).val = (s.event p slot.toNat ev).val + val ∧ u.core = s.core))

/-- R326, R327: the write of a window's last 64 bytes hands its record over: SEQ rises by one, and the code is 5 for a context that
does not exist, 4 for a full queue. Where no route from XD0 leads to the die the write is dropped and logged (R359); a function
whose BAR0 does not answer refuses it (R364, R366). -/
def HostLaunches : Prop :=
  ∀ (die : BitVec 2) (slot : BitVec 6) (tail : List Byte) (s : State), swapping s (partOfDie s.xd0.mode die) = false →
    tail.length = 64 →
    let window := die.toNat * 2 ^ 30 + 0x40000 + 0x1000 * slot.toNat + 0xC0
    let answers := barOpen s (pfOf (partOfDie s.xd0.mode die)) true
    (answers = false → exec (.hostLaunch die slot tail) s = .next { s with sig := .none, bar0 := none, bar0Bad := false }) ∧
    (answers = true → linked s hostSocket window = false →
      exec (.hostLaunch die slot tail) s = .next (hostDropped s window).clear) ∧
    (answers = true → linked s hostSocket window = true →
    ∃ u, exec (.hostLaunch die slot tail) s = .next u ∧ (u.page die slot.toNat).seq = (s.page die slot.toNat).seq + 1 ∧
      (u.page die slot.toNat).window = (s.page die slot.toNat).window.take 192 ++ tail ∧
      (kfind (s.die die).active.ctxs slot.toNat = none → (u.page die slot.toNat).code = 5) ∧
      (∀ c, kfind (s.die die).active.ctxs slot.toNat = some c → c.broken = false →
        4096 ≤ queuedLaunches (s.die die) → (u.page die slot.toNat).code = 4))

/-- R340: a launch whose claims all translate and whose pages fit the stake table takes its lease; until then its translations are
asked for, and those that it has found it keeps. -/
def ClaimResidency : Prop :=
  ∀ (die : BitVec 2) (id : Nat) (s : State) (l : Launch) (segs : List Seg), l ∈ (s.die die).active.launches →
    (∀ m ∈ (s.die die).active.launches, m.id = id → m = l) → l.id = id → l.lease = none → l.cancelled = false →
    revoked s (partOfDie s.xd0.mode die) l = false → swapping s (partOfDie s.xd0.mode die) = false →
    let pages := pagesOf (withFound (s.die die) l) l.pasid segs
    (claimPages (s.die die) l = .ok segs → stakesUsed s die + pages.length ≤ stakeEntries →
      ∃ u, exec (.claimResidency die id) s = .next u ∧
        ∃ m ∈ (u.die die).active.launches, m.id = id ∧ m.lease = some pages) ∧
    ∀ reqs, claimPages (s.die die) l = .miss reqs → asked s die (.lease id) reqs = false →
      ∃ u, exec (.claimResidency die id) s = .next u ∧ asked u die (.lease id) reqs = true ∧
        ∃ m ∈ (u.die die).active.launches, m.id = id ∧ m.found = foundPages (s.die die) l ∧ m.lease = none

/-- R337, R338, R44: the answer to a request in flight fills the die's caches: the image cache for a fetch that may execute, the
shared one for a read or a write; an answer without R and W is a failure, and caches nothing. An address in the window of BAR0
is an offset into the device, any other one host memory. An entry of the shared cache may refill the cache of a core, of 64
entries, or of an engine, of 256, and serves its accesses. -/
def TranslationArrives : Prop :=
  ∀ (die : BitVec 2) (r : AtsReply) (s : State) (q : AtsReq),
    atsSizes.contains r.size = true → r.va % r.size = 0 → r.addr % r.size = 0 →
    (s.die die).ats.find? (fun q => q.pasid == r.pasid && decide (r.va ≤ q.page) && decide (q.page < r.va + r.size)) = some q →
    let bar := (s.pf (pfOf (partOfDie s.xd0.mode die))).bar0
    let key := if bar ≤ r.addr ∧ r.addr < bar + 2 ^ 40 then r.addr - bar else 2 ^ 64 + r.addr
    let e : TlbEntry := ⟨r.pasid, r.va, r.size, key, r.r, r.w, r.x⟩
    ∃ u, exec (.atsCompletion die r) s = .next u ∧ u.core = s.core ∧
      (q.exec = true → r.x = true → (r.r || r.w) = true → e ∈ (u.die die).icache) ∧
      ((q.exec = true ∧ r.x = false) ∨ (r.r || r.w) = false → (u.die die).icache = (s.die die).icache) ∧
      ((r.r || r.w) = true → e ∈ (u.die die).tlb) ∧
      ∀ c, c ≤ 132 → ∀ x ∈ (u.die die).tlb, x ∈ (u.die die).cached c ∧
        ∃ t, agendaMove u (.refill die c x) = .next t ∧ (t.die die).tlb = (u.die die).tlb ∧
          x ∈ kget [] (t.die die).upper c ∧ (kget [] (t.die die).upper c).length ≤ (if c < 128 then 64 else 256) ∧ t.core = u.core

/-- R340, R346: a page response of success sends the translation request again; one of failure cancels the launch, which leaves its
die at once where none of its tasks is left. -/
def PageResponses : Prop :=
  ∀ (die : BitVec 2) (id page : Nat) (s : State) (l : Launch),
    (s.die die).active.launches.find? (fun l => l.id == id && l.pri.any fun q => q.page == page && q.pending) = some l →
    (∃ u q, exec (.pageResponse die id page true) s = .next u ∧ q ∈ (u.die die).ats ∧ q.pasid = l.pasid ∧ q.page = page ∧
      q.exec = false ∧ .lease id ∈ q.askers) ∧
    (∃ u, exec (.pageResponse die id page false) s = .next u ∧
      (∀ m ∈ (u.die die).active.launches, m.id = id → m.cancelled = true) ∧
      (findLaunch s die id = some l → l.ended = l.placed * l.plane.gsize →
        (∀ e, ∀ v ∈ (s.die e).saves, ∀ t, v.2.core.task = some t → t.launch ≠ id) →
        ∀ m ∈ (u.die die).active.launches, m.id ≠ id))

/-- R342, R365: an invalidation, of 2 GiB at most, removes the entries that it meets from every die's translation caches and completes
once no stake meets it and the accesses that used a removed entry have performed. -/
def Invalidations : Prop :=
  ∀ (pasid va size : Nat) (s : State),
    (size ≤ 2 ^ 31 → ∃ u i, exec (.atsInvalidation pasid va size) s = .next u ∧ u.invals = s.invals ++ [i] ∧
      i.pasid = pasid ∧ i.va = va ∧ i.size = size ∧
      (∀ d, (u.die d).tlb = (s.die d).tlb.filter (fun e => !e.meets pasid va size) ∧
        (∀ e ∈ (u.die d).translations, e.meets pasid va size = false) ∧
        (u.die d).icache = (s.die d).icache.filter (fun e => !e.meets pasid va size)) ∧ u.core = s.core) ∧
    (∀ i rest, s.invals = i :: rest → (∀ p ∈ allStakes s, p.meets i.pasid i.va i.size = false) →
      (∀ x ∈ i.uses, performed s x = true) →
      exec .invalidationCompletion s = .next { s with invals := rest }.clear)

/-- R14, R330, R331, R334: the scheduler places the next gang of the launch that its rule chooses: each member of a new gang gets
its core, with its own wid and member number in the core's shadow plane; each saved member of a drained gang gets a core on
its own die, with its own wid. -/
def Placement : Prop :=
  ∀ (die : BitVec 2) (cores : List Nat) (s : State) (x : Waiting),
    chooseLaunch s die = some x → goodCores s x.small x.needs cores = true →
    ∃ u, exec (.gangPlacement die cores) s = .next u ∧
      (x.drained = false →
        (∃ y ∈ (u.die die).active.gangs, y.launch = x.l.id ∧ y.index = x.gang ∧ y.cores = cores ∧ y.left = cores.length) ∧
        ∀ k i, (k, i) ∈ cores.zipIdx → ∃ p t, (u.agent k).shadow = some (p, t) ∧ p.wid = x.l.plane.widOf x.gang i ∧
          p.member = i ∧ p.entry = x.l.plane.entry ∧ t.launch = x.l.id ∧ t.gang = x.gang ∧ t.claims = x.l.claims) ∧
      (x.drained = true → ∀ v k, (v, k) ∈ (savedMembers s x.l x.gang).zip cores →
        ∃ p t, (u.agent k).shadow = some (p, t) ∧ p.wid = v.2.2.core.plane.wid ∧ t.launch = x.l.id ∧ t.gang = x.gang ∧
          dieOf k = v.1)

/-- R334: a loader's write changes the shadow plane of a core, that of its promised task where it holds one, or the microprogram
store of one of the die's 32 central sequencers and of no other; on an active plane, or while the sequencer runs, it is dropped and the loader answers so. -/
def PlaneWrites : Prop :=
  ∀ (k : Nat) (w : PlaneData) (s : State),
    let dropped : Res := .next { s with sig := .none, dropped := true }
    exec (.planeWrite k .active w) s = dropped ∧
    (∃ u, exec (.planeWrite k .shadow w) s = .next u ∧ u.dropped = false ∧ (u.agent k).plane = (s.agent k).plane ∧
      (∀ p t, (s.agent k).shadow = some (p, t) → (u.agent k).shadow = some (planeOf w, t)) ∧
      ((s.agent k).shadow = none → (u.agent k).shadow = none ∧ (u.agent k).spare = planeOf w)) ∧
    (∀ a, centralBusy s (dieOf k) a = true → exec (.planeWrite k (.micro a) w) s = dropped) ∧
    (∀ a, centralBusy s (dieOf k) a = false → ∃ u, exec (.planeWrite k (.micro a) w) s = .next u ∧ u.dropped = false ∧
      u.core = s.core ∧ ∀ b : BitVec 5, (u.die (dieOf k)).micro.get b.toFin =
        if b = a then storeMicro ((s.die (dieOf k)).micro.get a.toFin) w.micro else (s.die (dieOf k)).micro.get b.toFin)

/-- R333: a launch that has waited past its partition's latency bound, and whose gang does not fit, has the drains requested of
the victims that make it fit. -/
def LatencyBound : Prop :=
  ∀ (die : BitVec 2) (id : Nat) (s : State) (l : Launch) (g : Nat) (dr : Bool) (gs : List Gang),
    let part := partOfDie s.xd0.mode die
    let ds := memberDies s die l g dr
    let small := decide (l.plane.gsize ≤ 16)
    let vs := victims s part l.prio
    let going := vs.filter fun x => draining s x.2
    let free (d : BitVec 2) : List Nat := freeCores s d ++ going.flatMap fun x => x.2.cores.filter fun k => dieOf k == d
    (s.die die).active.launches.find? (fun l => l.id == id && l.eligible) = some l → nextGang l = some (g, dr) →
    latencyBound s part ≠ 0 → l.since + 130 * latencyBound s part < s.time → fits small ds free = false →
    pickVictims small ds free [] (vs.filter fun x => !draining s x.2) = some gs →
    (∀ d, slotsUsed s d + ((gs.flatMap (·.cores)).filter fun k => dieOf k == d).length ≤ 512) →
    ∃ u, exec (.latencyBound die id) s = .next u ∧
      ∀ k ∈ gs.flatMap (·.cores), (u.agent k).drainReq ≠ none ∨ (u.agent k).drainRpc ≠ none

/-- R334, R6, R36, R49: a free core's promised task starts at its ENTRY, with every register at its launch value, every full-empty bit
empty and the RS state seeded from its wid; here with no preload. -/
def TaskStart : Prop :=
  ∀ (s : State) (p : Plane) (t : Task), s.core.shadow = some (p, t) → s.core.run = .free → s.core.task = none →
    resumes s p t = false → p.preload = [] →
    ∃ u, exec .toggleToken s = .next u ∧ u.core.run = .running ∧ u.core.pc = align16 p.entry ∧ u.core.plane = p ∧
      u.core.task = some t ∧ u.core.shadow = none ∧ u.core.rsst = launchSeed p.wid ∧ u.core.rsst ≠ 0 ∧
      (∀ i, u.core.rs i = 0) ∧ (∀ i, u.core.ra i = 0) ∧ (∀ i, u.core.rv i = 0) ∧ u.core.fmt = 0 ∧ u.core.fflags = 0 ∧
      u.core.cnt = Counters.zero ∧ u.core.loops.depth = 0 ∧ u.core.bcnt = 0 ∧
      ∀ off, off < 2 ^ 20 → isFull u (spAddr s.coreId off) = false

/-- R179, R21, R11: the end of a task takes place once its waits are over, and leaves its core ended. -/
def TaskEnds : Prop :=
  ∀ s : State, s.core.run = .ending → s.core.after = [] → s.core.quiet = true → (landAll s).core.countersZero = true →
    allArrived s ((taskWrites s).foldl sinsert s.core.obs) = true →
    ∃ u, exec .taskEnd s = .next u ∧ u.core.run = .ended ∧ u.core.drainReq = none ∧ u.coreId = s.coreId

/-- R16, R50: a core whose task has ended returns zeroed: its registers and its scratchpad. Member 0's core waits for the rest of its
gang. -/
def CoreReturns : Prop :=
  ∀ s : State, s.core.run = .ended → commandsLeft s = false →
    (∀ t, s.core.task = some t → t.lead ≠ s.coreId ∨ ∀ g, heldGang s t = some g → g.left = 0) →
    ∃ u, exec .coreReturn s = .next u ∧ u.core.run = .free ∧ u.core.task = none ∧ (∀ i, u.core.rs i = 0) ∧
      (∀ i, u.core.rv i = 0) ∧ u.core.acc = [] ∧ u.core.wbuf = [] ∧
      (∀ off, off < 2 ^ 20 → byteAt u (spAddr s.coreId off) = (0, false)) ∧
      ∀ pa, inSp s.coreId pa = false → byteAt u pa = byteAt s pa

/-- R351, R345: a core with a drain requested, whose PC lies in a drain range, within its 4 µs, goes on at the range's stub; `dpc` keeps the PC, and
the suspension record of the core shows it with RPC. -/
def Diversion : Prop :=
  ∀ (s : State) (r : DrainRange) (t : Nat), s.core.run = .running → s.core.after = [] → s.core.drainReq = some t →
    s.time < t + 5200 → s.core.drainRpc = none → s.core.plane.drains.find? (fun r => r.lo.toNat ≤ s.core.pc.toNat && s.core.pc.toNat < r.hi.toNat) = some r →
    ∃ u, exec .diversion s = .next u ∧
      u = { s with sig := .none, core := { s.core with dpc := s.core.pc, pc := align16 r.dpc, drainRpc := some r.rpc }, dies := u.dies } ∧
      ∀ x, s.core.task = some x → kfind (u.die (dieOf s.coreId)).active.susp s.coreId =
        some ⟨s.core.plane.wid, x.pasid, s.core.pc, r.rpc, 1, 0⟩

/-- R180, R351 to R354: a DRAIN whose waits are over, with its 4 µs not run out, saves its task and frees the core, or, after a full
save within the stub, goes on at RPC; where a copy into its scratchpad is still to retire it waits on, and its 4 µs bind it no
more; a full save saves the task where it stands, once its grace has run out. -/
def Saves : Prop :=
  ∀ (s : State) (t : Task) (l : Launch) (i : Nat) (rpc : Word), s.core.task = some t → s.core.quiet = true →
    s.core.after = [] → s.core.fill = none → s.core.beat = none → transfersDone s t = true → mayLeave s t = true →
    findLaunch s t.home t.launch = some l → l.cancelled = false → freeSlot s s.here = some i →
    (∀ v, s.core.run = .draining → s.core.drainRpc = some rpc → graceOver s s.core = false → s.core.stay = false →
      s.core.drainReq ≠ none → transfersDone { s with cmds := v } t = false →
      ∃ u, exec .drainComplete { s with cmds := v } = .next u ∧ u.core = { s.core with drainReq := none } ∧ u.cmds = v) ∧
    (s.core.run = .draining → s.core.drainRpc = some rpc → graceOver s s.core = false → s.core.stay = false →
      ∃ u v, exec .drainComplete s = .next u ∧ u.core.run = .free ∧ u.core.task = none ∧
        kfind (u.die s.here).saves i = some v ∧ v.full = false ∧ v.rpc = rpc ∧ v.core.task = some t) ∧
    (s.core.run = .draining → s.core.drainRpc = some rpc → graceOver s s.core = false → s.core.stay = true →
      ∃ u, exec .drainComplete s = .next u ∧ u.core.run = .running ∧ u.core.pc = align16 rpc ∧ u.core.drainReq = none ∧
        u.core.drainRpc = none ∧ u.core.stay = false) ∧
    (savable s.core.run = true → graceOver s s.core = true →
      ∃ u v, exec .fullSave s = .next u ∧ u.core.run = .free ∧ u.core.task = none ∧
        kfind (u.die s.here).saves i = some v ∧ v.full = true ∧ v.core = s.core ∧ v.keep = [(0, 2 ^ 20)])

/-- R353 to R355: a saved task resumes on the core that its gang's placement gave it: after a drain at RPC with its registers at
their launch values, after a full save as it stood. -/
def TaskResumes : Prop :=
  ∀ (die : BitVec 2) (n k : Nat) (s : State) (v : Save) (p : Plane) (t u0 : Task), kfind (s.die die).saves n = some v →
    (s.agent k).shadow = some (p, t) → dieOf k = die → (s.agent k).run = .free → v.core.plane.wid = p.wid →
    v.core.task = some u0 → u0.launch = t.launch → u0.gang = t.gang →
    ∃ u, exec (.taskResume die n k) s = .next u ∧ (u.agent k).task = some t ∧ (u.agent k).plane = p ∧
      (v.full = false → (u.agent k).pc = align16 v.rpc ∧ (u.agent k).run = .running ∧ (∀ i, (u.agent k).rs i = 0) ∧
        (u.agent k).bcnt = v.core.bcnt ∧ (u.agent k).tstat = v.core.tstat) ∧
      (v.full = true → (u.agent k).pc = v.core.pc ∧ (u.agent k).run = v.core.run ∧ (u.agent k).s = v.core.s ∧
        (u.agent k).v = v.core.v ∧ (u.agent k).fmt = v.core.fmt)

/-! ### Vectors -/

/-- R191, R198, R201: the integer, logic and shift instructions of slot 2, lane by lane, under every mask. -/
def VectorIntegers : Prop :=
  ∀ (o : VOp) (s : State),
    let w := o.t.bits
    let a := intLane s o.t o.a
    let b := intLane s o.t o.b
    let x := fun i => laneAt w (s.core.rv o.a) i
    let y := fun i => laneAt w (s.core.rv o.b) i
    let n := fun i => if o.v then o.b.toNat else y i % w
    let sat := fun z : Int => if o.v then max (tyLeast o.t) (min (tyGreatest o.t) z) else z
    (o.t.isInt = true →
      givesLanes s o 2 (fun i => intBits w (sat (a i + b i))) (exec (.vadd o) s) ∧
      givesLanes s o 2 (fun i => intBits w (sat (a i - b i))) (exec (.vsub o) s) ∧
      givesLanes s o 2 (fun i => intBits w (a i * b i)) (exec (.vmul o) s) ∧
      givesLanes s o 2 (fun i => intBits w (min (a i) (b i))) (exec (.vmin o) s) ∧
      givesLanes s o 2 (fun i => intBits w (max (a i) (b i))) (exec (.vmax o) s) ∧
      givesLanes s o 2 (fun i => intBits w (a i).natAbs) (exec (.vabs o) s) ∧
      givesLanes s o 2 (fun i => intBits w (-a i)) (exec (.vneg o) s)) ∧
    ((Instr.vsat o).wf = true → o.t.isSigned = true →
      givesLanes s o 3 (fun i => intBits w (max (-(2 ^ (o.b.toNat - 1) : Int)) (min (2 ^ (o.b.toNat - 1) - 1) (a i))))
        (exec (.vsat o) s)) ∧
    ((Instr.vsat o).wf = true → o.t.isSigned = false →
      givesLanes s o 3 (fun i => min (2 ^ o.b.toNat - 1) (x i)) (exec (.vsat o) s)) ∧
    givesLanes s o 2 (fun i => x i * 2 ^ n i) (exec (.vshl o) s) ∧
    givesLanes s o 2 (fun i => x i / 2 ^ n i) (exec (.vshr o) s) ∧
    ((Instr.vsra o).wf = true →
      givesLanes s o 2 (fun i => ((BitVec.ofNat w (x i)).sshiftRight (n i)).toNat) (exec (.vsra o) s)) ∧
    givesLanes s o 2 (fun i => x i &&& y i) (exec (.vand o) s) ∧
    givesLanes s o 2 (fun i => x i ||| y i) (exec (.vor o) s) ∧
    givesLanes s o 2 (fun i => x i ^^^ y i) (exec (.vxor o) s) ∧
    givesLanes s o 2 (fun i => 2 ^ w - 1 - x i) (exec (.vnot o) s) ∧
    givesLanes s o 2 x (exec (.vmov o) s)

/-- R192, R195, R190, R33: the floating instructions of slot 2 that round, lane by lane; a reserved RND is the illegal-format
fault. VSCALE rounds to nearest whatever `fmt` holds. -/
def VectorFloats : Prop :=
  ∀ (o : VOp) (s : State) (env : Env), o.t.isF = true →
    let f := tyFmt o.t
    let a := numLane s o.t o.a
    let b := numLane s o.t o.b
    let c := numLane s o.t (if o.v then o.c else o.d)
    let mode := if o.v then o.c.extractLsb' 0 3 else 7#3
    (mode.toNat ≤ 5 → env = s.env mode → 
      roundsLanes s o 4 env (fun i => fltAdd f (a i) (b i)) (exec (.vadd o) s) ∧
      roundsLanes s o 4 env (fun i => fltAdd f (a i) (b i).neg) (exec (.vsub o) s)) ∧
    (mode = 7 → rndReserved s.core.rnd = false → env = s.env s.core.rnd →
      roundsLanes s o 4 env (fun i => fltAdd f (a i) (b i)) (exec (.vadd o) s) ∧
      roundsLanes s o 4 env (fun i => fltAdd f (a i) (b i).neg) (exec (.vsub o) s)) ∧
    (rndReserved s.core.rnd = false → env = s.env s.core.rnd →
      roundsLanes s o 4 env (fun i => fltMul f (a i) (b i)) (exec (.vmul o) s) ∧
      roundsLanes s o 4 env (fun i => fltFma f (a i) (b i) (c i)) (exec (.vfma o) s) ∧
      roundsLanes s o 4 env (fun i => fltFma f (a i) (b i) (c i).neg) (exec (.vfms o) s)) ∧
    (rndReserved s.core.rnd = true →
      (mode = 7 → trapsWith s (exec (.vadd o) s) 0x12 ∧ trapsWith s (exec (.vsub o) s) 0x12) ∧
      (o.b = 7 → trapsWith s (exec (.vrndi o) s) 0x12) ∧
      trapsWith s (exec (.vmul o) s) 0x12 ∧ trapsWith s (exec (.vfma o) s) 0x12 ∧ trapsWith s (exec (.vfms o) s) 0x12) ∧
    ((o.b.toNat ≤ 5 ∧ env = s.env (o.b.extractLsb' 0 3)) ∨
        (o.b = 7 ∧ rndReserved s.core.rnd = false ∧ env = s.env s.core.rnd) →
      roundsLanes s o 4 env (fun i => roundIntegral f (a i)) (exec (.vrndi o) s)) ∧
    (env = s.env 0 → roundsLanes s o 4 env (fun i => scaleFn f (a i) (b i)) (exec (.vscale o) s))

/-- R192, R193 to R195: the floating instructions of slot 2 that take nothing from `fmt`. -/
def VectorFunctions : Prop :=
  ∀ (o : VOp) (s : State), o.t.isInt = false →
    let f := tyFmt o.t
    let a := numLane s o.t o.a
    let b := numLane s o.t o.b
    let env := s.env 0
    let fn (lat : Nat) (h : Machine.Num → Nat × Flags) (r : Res) : Prop :=
      roundsLanes s o lat env (fun i e => ((h (a i)).1, e.raise (h (a i)).2)) r
    givesLanes s o 2 (fun i => exactBits f (Num.minX (a i) (b i))) (exec (.vmin o) s) ∧
    givesLanes s o 2 (fun i => exactBits f (Num.maxX (a i) (b i))) (exec (.vmax o) s) ∧
    givesLanes s o 2 (fun i => exactBits f (a i).abs) (exec (.vabs o) s) ∧
    givesLanes s o 2 (fun i => exactBits f (a i).neg) (exec (.vneg o) s) ∧
    fn 6 (rcpFn f) (exec (.vrcp o) s) ∧ fn 6 (rsqFn f) (exec (.vrsq o) s) ∧ fn 6 (log2Fn f) (exec (.vlog2 o) s) ∧
    fn 6 fexp2Fn (exec (.vfexp2 o) s) ∧ fn 2 (getexpFn f) (exec (.vgetexp o) s) ∧
    fn 2 (getmanFn f) (exec (.vgetman o) s)

/-- R196, R197, R199: the conversions. A lane of VCVT outside the written part keeps its value whatever Z holds; in the written part
a masked-off lane is kept or zeroed as R187 says, and only the enabled lanes there raise flags; VPACKB writes the
codes, the scale and the knot of two blocks and keeps every other byte. -/
def VectorConversions : Prop :=
  ∀ (o : VOp) (s : State) (env : Env),
    let src := Ty.ofCode (o.b.extractLsb' 0 4)
    let mode := if o.v then o.c.extractLsb' 0 3 else 7#3
    let p := (o.c.extractLsb' 3 3).toNat
    let n := min o.t.lanes src.lanes
    let chosen (m : BitVec 3) : Prop := (m.toNat ≤ 5 ∧ env = s.env m) ∨
      (m = 7 ∧ rndReserved s.core.rnd = false ∧ env = s.env s.core.rnd)
    let inPart (i : Nat) : Prop := o.t.bits < src.bits → p * n ≤ i ∧ i < p * n + n
    let fromLane (i : Nat) : Nat := if o.t.bits < src.bits then i - p * n else p * n + i
    let cvt (i : Nat) : Nat × Env :=
      tyRound o.t (o.b.getLsbD 4) (tyNum src (laneAt src.bits (s.core.rv o.a) (fromLane i))) env
    ((Instr.vcvt o).wf = true → chosen mode →
      ∃ (v : VReg) (e : Env), exec (.vcvt o) s = .next (laterEnv s 3 (.v o.d v) e).clear ∧
        (env.rnd ≠ 5 → e.lfsr = env.lfsr ∧ ∀ b, e.fl.getLsbD b = true ↔
          env.fl.getLsbD b = true ∨
            ∃ i, i < o.t.lanes ∧ inPart i ∧ VOp.on o s.core i = true ∧ (cvt i).2.fl.getLsbD b = true) ∧
        ∀ i, i < o.t.lanes →
          (inPart i → VOp.on o s.core i = false → laneAt o.t.bits v i = VOp.kept o s.core i) ∧
          (o.t.bits < src.bits → ¬ (p * n ≤ i ∧ i < p * n + n) →
            laneAt o.t.bits v i = laneAt o.t.bits (s.core.rv o.d) i) ∧
          (inPart i → VOp.on o s.core i = true → env.rnd ≠ 5 → laneAt o.t.bits v i = (cvt i).1 % 2 ^ o.t.bits)) ∧
    ((Instr.vcvti o).wf = true → chosen (o.b.extractLsb' 0 3) → ∀ st, cvtiSource (o.b.extractLsb' 3 3) = some st →
      roundsLanes s o 3 env (fun i => tyRound o.t false (tyNum st (laneAt o.t.bits (s.core.rv o.a) i))) (exec (.vcvti o) s)) ∧
    (rndReserved s.core.rnd = true → (mode = 7 → trapsWith s (exec (.vcvt o) s) 0x12) ∧
      (o.b.extractLsb' 0 3 = 7 → trapsWith s (exec (.vcvti o) s) 0x12) ∧ trapsWith s (exec (.vpackb o) s) 0x12) ∧
    ((Instr.vpackb o).wf = true → rndReserved s.core.rnd = false →
      let q := o.b.toNat
      let lane (i : Nat) : Machine.Num := Fmt.f32.decode (laneAt 32 (s.core.rv o.a) i)
      let b0 := packBlock ((List.range 32).map fun i => lane i) (s.env s.core.rnd)
      let b1 := packBlock ((List.range 32).map fun i => lane (32 + i)) b0.2
      ∃ v : VReg, exec (.vpackb o) s = .next (laterEnv s 3 (.v o.d v) b1.2).clear ∧
        (∀ h, h < 2 → let blk := if h = 0 then b0.1 else b1.1
          (∀ i, i < 32 → laneAt 4 v (32 * (2 * q + h) + i) = blk.codes.getD i 0 % 16) ∧
          laneAt 8 v (128 + 2 * (2 * q + h)) = blk.scale % 256 ∧ laneAt 8 v (129 + 2 * (2 * q + h)) = blk.knot % 256) ∧
        ∀ j, j < 256 → ¬ (32 * q ≤ j ∧ j < 32 * q + 32) → ¬ (128 + 4 * q ≤ j ∧ j < 132 + 4 * q) →
          laneAt 8 v j = laneAt 8 (s.core.rv o.d) j) ∧
    ((Instr.vunpb o).wf = true → ∃ f : Nat → Env → Nat × Env, roundsLanes s o 3 (s.env 0) f (exec (.vunpb o) s) ∧
      ∀ i e, i < 64 →
        let b := packedBlock (s.core.rv o.a) (2 * o.b.toNat + i / 32)
        (f i e).1 = (Fmt.f32.round false (e2m1kNum b.scale b.knot (b.codes.getD (i % 32) 0)).1 Env.rne).1)

/-- R200, R201, R202: compares, selection and the moves of lanes. -/
def VectorMoves : Prop :=
  ∀ (o : VOp) (s : State),
    let w := o.t.bits
    let l := o.t.lanes
    let x := fun i => laneAt w (s.core.rv o.a) i
    let y := fun i => laneAt w (s.core.rv o.b) i
    let n := if o.v then (s.core.rs o.c).toNat else o.c.toNat
    let place := if o.v then (s.core.rs o.b).toNat % l else o.c.toNat * 64 + o.b.toNat
    ((Instr.vcmp o).wf = true → ∃ k : KReg, exec (.vcmp o) s = .next (s.wrote 2 (.k (o.d.extractLsb' 0 4) k)) ∧
      ∀ j, j < 256 → k.getLsbD j =
        if VOp.on o s.core (8 * j / w) then
          (let p := tyNum o.t (x (8 * j / w))
           let q := tyNum o.t (y (8 * j / w))
           match (o.d.extractLsb' 4 2).toNat with
           | 0 => p.eqX q
           | 1 => !p.eqX q
           | 2 => p.ltX q
           | _ => p.ltX q || p.eqX q)
        else !o.z && (s.core.rk (o.d.extractLsb' 0 4)).getLsbD j) ∧
    (∃ v : VReg, exec (.vsel o) s = .next (s.wrote 2 (.v o.d v)) ∧
      ∀ i, i < l → laneAt w v i = if (s.core.rk o.m).getLsbD (w * i / 8) then x i else y i) ∧
    (o.t.isInt = true → givesLanes s o 2 (fun i => intBits w (o.b.toInt + i)) (exec (.viota o) s)) ∧
    (o.t = .f32 → givesLanes s o 2 (fun i => exactBits .f32 (Num.ofInt (o.b.toInt + i))) (exec (.viota o) s)) ∧
    givesLanes s o 3 (fun _ => (s.core.rs o.a).toNat) (exec (.vbcast o) s) ∧
    givesLanes s o 3 (fun i => x (y i % l)) (exec (.vperm o) s) ∧
    givesLanes s o 3 (fun i => if i + n < l then x (i + n) else if i + n < 2 * l then y (i + n - l) else 0)
      (exec (.vslide o) s) ∧
    ((o.t.isInt && o.t.isSigned) = true →
      exec (.vmovs o) s = .next (s.wrote 3 (.s o.d (BitVec.ofInt 64 (intLane s o.t o.a place))))) ∧
    ((o.t.isInt && o.t.isSigned) = false →
      exec (.vmovs o) s = .next (s.wrote 3 (.s o.d (BitVec.ofNat 64 (x place))))) ∧
    ∃ v : VReg, exec (.vins o) s = .next (s.wrote 3 (.v o.d v)) ∧
      ∀ i, i < l → laneAt w v i = if i = place then (s.core.rs o.a).toNat % 2 ^ w else laneAt w (s.core.rv o.d) i

/-- R203, R204, R205: reductions, dot products, compression and expansion. A floating VREDSUM is the root of the fixed binary tree of
its enabled lanes, each node rounded and its flags raised. A floating VREDMAX is the greatest enabled lane, +0 above -0. VDOT4 raises OF where SAT holds
an enabled lane to a bound, and no other flag. -/
def VectorReductions : Prop :=
  ∀ (o : VOp) (s : State),
    let w := o.t.bits
    let l := o.t.lanes
    let on := (List.range l).filter fun i => VOp.on o s.core i
    let x := fun i => laneAt w (s.core.rv o.a) i
    ((Instr.vredsum o).wf = true → o.t.isInt = true →
      exec (.vredsum o) s = .next (s.wrote 6 (.v o.d (BitVec.ofNat 2048
        (intBits 64 ((on.map fun i => intLane s o.t o.a i).sum)))))) ∧
    (o.t.isInt = false → ∀ node : Nat → Nat → Option (Machine.Num × Flags),
      (∀ i, node 0 i = if VOp.on o s.core i then some (numLane s o.t o.a i, 0) else none) →
      (∀ n j, node (n + 1) j = match node n (2 * j), node n (2 * j + 1) with
        | some a, some b => some ((addF32 s.core.sat a.1 b.1).1, a.2 ||| b.2 ||| (addF32 s.core.sat a.1 b.1).2)
        | some a, none => some a
        | none, b => b) →
      let root := (node (Nat.log2 l) 0).getD (Machine.Num.zero, 0)
      exec (.vredsum o) s =
        .next (laterFlags (later s 6 (.v o.d (BitVec.ofNat 2048 (exactBits .f32 root.1)))) 6 root.2).clear) ∧
    ((Instr.vredmax o).wf = true → o.t.isInt = true → ∃ m : Int,
      exec (.vredmax o) s = .next (s.wrote 6 (.v o.d (BitVec.ofNat 2048 (intBits w m)))) ∧
      (on = [] → m = tyLeast o.t) ∧ (∀ i ∈ on, intLane s o.t o.a i ≤ m) ∧
      (on ≠ [] → ∃ i ∈ on, m = intLane s o.t o.a i)) ∧
    ((Instr.vredmax o).wf = true → o.t.isInt = false → ∃ v, exec (.vredmax o) s = .next (s.wrote 6 (.v o.d v)) ∧
      (on = [] → v.toNat = if o.t = .e4m3 then 0xFE else (tyFmt o.t).infBits true) ∧
      ((∃ i ∈ on, (numLane s o.t o.a i).isNan = true) → v.toNat = (tyFmt o.t).nanBits) ∧
      (on ≠ [] → (∀ i ∈ on, (numLane s o.t o.a i).isNan = false) → ∃ i ∈ on, v.toNat = exactBits (tyFmt o.t) (numLane s o.t o.a i) ∧
        ∀ j ∈ on, (numLane s o.t o.a i).ltX (numLane s o.t o.a j) = false ∧
          ((numLane s o.t o.a i).isZero = true → (numLane s o.t o.a i).signBit = true → (numLane s o.t o.a j).isZero = true →
            (numLane s o.t o.a j).signBit = true))) ∧
    (let ta := if o.v then Ty.n8 else o.t
      let p (i j : Nat) : Int := tyToInt ta (laneAt 8 (s.core.rv o.a) (4 * i + j)) *
        tyToInt o.t (laneAt 8 (s.core.rv o.b) (4 * i + j))
      let z (i : Nat) : Int := tyToInt .i32 (laneAt 32 (s.core.rv o.d) i) + (p i 0 + p i 1 + p i 2 + p i 3)
      ∃ (v : VReg) (e : Env), exec (.vdot4 o) s = .next (laterEnv s 4 (.v o.d v) e).clear ∧
      e.lfsr = (s.env 0).lfsr ∧ (e.fl = 0 ∨ e.fl = Flags.ovf) ∧
      (e.fl = Flags.ovf ↔ s.core.sat = true ∧
        ∃ i, i < 64 ∧ (s.core.rk o.m).getLsbD (4 * i) = true ∧ (z i < -(2 ^ 31) ∨ 2 ^ 31 - 1 < z i)) ∧
      ∀ i, i < 64 →
        laneAt 32 v i =
          if (s.core.rk o.m).getLsbD (4 * i) then
            (if s.core.sat then intBits 32 (max (-(2 ^ 31)) (min (2 ^ 31 - 1) (z i))) else intBits 32 (z i))
          else if o.z then 0 else laneAt 32 (s.core.rv o.d) i) ∧
    (∃ v : VReg, exec (.vcompr o) s = .next (s.wrote 3 (.v o.d v)) ∧
      ∀ i, i < l → laneAt w v i = ((on[i]?).map x).getD 0) ∧
    givesLanes s o 3 (fun i => x ((on.filter fun j => j < i).length)) (exec (.vexpnd o) s)

/-- R206: the mask instructions. -/
def Masks : Prop :=
  ∀ (o : VOp) (s : State),
    let a := s.core.rk (lo4 o.a)
    let b := s.core.rk (lo4 o.b)
    let w := o.t.bits
    let on := (List.range o.t.lanes).filter fun i => a.getLsbD (w * i / 8)
    exec (.kand o) s = .next (s.wrote 2 (.k (lo4 o.d) (a &&& b))) ∧
    exec (.kor o) s = .next (s.wrote 2 (.k (lo4 o.d) (a ||| b))) ∧
    exec (.kxor o) s = .next (s.wrote 2 (.k (lo4 o.d) (a ^^^ b))) ∧
    exec (.knot o) s = .next (s.wrote 2 (.k (lo4 o.d) (~~~a))) ∧
    exec (.kpopc o) s = .next (s.wrote 2 (.s o.d (BitVec.ofNat 64 on.length))) ∧
    exec (.kfirst o) s = .next (s.wrote 2 (.s o.d (BitVec.ofNat 64 (on.head?.getD o.t.lanes)))) ∧
    ∃ k : KReg, exec (.kset o) s = .next (s.wrote 2 (.k (lo4 o.d) k)) ∧
      ∀ j, j < 256 → k.getLsbD j = decide (8 * j / w < min (s.core.rs o.a).toNat o.t.lanes)

/-! ### Sumps -/

/-- R208 to R212, R255: SUMPIN appends one entry for each enabled lane, in lane order: the bytes of its elements and of the lane's
index join the store queue at the next slots of the ring. SUMPOUT takes the oldest entries out, one to a lane, and writes the
registers of their elements and of their indexes. A sump that is not configured for the instruction, or that would overflow,
traps and changes nothing; SUMPCFG empties its sump. -/
def Sumps : Prop :=
  ∀ (o : VOp) (n : BitVec 2) (a : BitVec 6) (g : GuardF) (s : State),
    let m := s.core.sump (lo2 o.d)
    let wb := o.t.bits / 8
    let on := (List.range o.t.lanes).filter fun i => VOp.on o s.core i
    let fits (x : Sump) : Prop := x.cfg = true ∧ x.tl.toNat = o.b.toNat ∧ x.w.toNat = wb
    let q := s.core.sump (lo2 o.a)
    let k := min q.count.toNat o.t.lanes
    let v := s.core.rs a
    (¬ fits m → trapsWith s (exec (.sumpin o) s) 0x0C) ∧
    (fits m → m.cap.toNat < m.count.toNat + on.length → trapsWith s (exec (.sumpin o) s) 0x0C) ∧
    (512 ≤ s.coreId ∨ (∀ pas, raceOf s s.coreId s.core.seen pas = none) → fits m →
      m.count.toNat + on.length ≤ m.cap.toNat →
      ∃ u, exec (.sumpin o) s = .next u ∧ u.sig = .none ∧ sameStore s u ∧ u.core.cnt = s.core.cnt ∧
        u.core.sump (lo2 o.d) = { m with count := m.count + BitVec.ofNat 17 on.length } ∧
        (∀ i, i ≠ lo2 o.d → u.core.sump i = s.core.sump i) ∧ u.core.v = s.core.v ∧ u.core.s = s.core.s ∧
        ∃ es : List StoreEntry, u.core.sq = s.core.sq ++ es ∧
          (∀ e ∈ es, e.stream = 0 ∧ e.setFe = false ∧ e.rel = none ∧ e.counts = false) ∧
          es.flatMap (·.bytes) = on.zipIdx.flatMap fun p =>
            (((List.range o.b.toNat).map (fun e => laneAt o.t.bits (s.core.rv (o.a + BitVec.ofNat 6 e)) p.1) ++ [p.1]).flatMap
              (bytesOfNat wb)).zipIdx.map fun b =>
                ⟨spAddr s.coreId (m.base.toNat +
                  (m.head.toNat + m.count.toNat + p.2) % m.cap.toNat * ((o.b.toNat + 1) * wb) + b.2), b.1, false⟩) ∧
    (¬ fits q → trapsWith s (exec (.sumpout o) s) 0x0C) ∧
    (fits q → ∀ bs t, readsNow s ((List.range k).flatMap fun j => (List.range q.size).map fun b => spAddr s.coreId (q.place j + b)) bs t →
      ∃ u, exec (.sumpout o) s = .next u ∧ u.sig = .none ∧
        u.core.sump (lo2 o.a) = { q with
          head := BitVec.ofNat 16 ((q.head.toNat + k) % q.cap.toNat), count := q.count - BitVec.ofNat 17 k } ∧
        ∃ l : Lock, ∃ ws : List VReg, u.core.locks = s.core.locks ++ [l] ∧ ws.length = o.b.toNat + 1 ∧
          l.result = some ((ws.zipIdx.map fun p => RegWrite.v (o.d + BitVec.ofNat 6 p.2) p.1) ++
            [.k o.m (firstLanes o.t.bits k)]) ∧
          ∀ e j, e ≤ o.b.toNat → j < o.t.lanes → laneAt o.t.bits (ws.getD e 0) j =
            if j < k then fieldNat (bs.map (·.val)) ((j * (o.b.toNat + 1) + e) * wb) wb else 0) ∧
    exec (.sumpcnt o) s = .next (s.wrote 2 (.s o.d (BitVec.ofNat 64 q.count.toNat))) ∧
    (s.core.guard g = true →
      let base := v.toNat % 2 ^ 20
      let cap := v.toNat / 2 ^ 20 % 2 ^ 16
      let t := v.toNat / 2 ^ 36 % 8
      let w := 2 ^ (v.toNat / 2 ^ 39 % 4)
      let good := v.toNat / 2 ^ 42 = 0 ∧ base % 16 = 0 ∧ cap ≠ 0 ∧ 1 ≤ t ∧ t ≤ 4 ∧ base + cap * ((t + 1) * w) ≤ 2 ^ 20
      (v.getLsbD 41 = true → ¬ good → trapsWith s (exec (.sumpcfg n a g) s) 0x0C) ∧
      (v.getLsbD 41 = false ∨ good →
        ∃ x : Sump, exec (.sumpcfg n a g) s = .next (s.setCore (s.core.setSump n x)).clear ∧
          x.cfg = v.getLsbD 41 ∧ x.base.toNat = base ∧ x.cap.toNat = cap ∧ x.tl.toNat = t ∧ x.w.toNat = w ∧
          x.head = 0 ∧ x.count = 0))

/-! ### The matrix array -/

/-- R216 to R218: MWBF copies scratchpad bytes into the weight buffer, MLDB starts a fill from a tile of it, and the end of the
fill stages the tile; the alignment, range, pairing and poison faults of each, under which nothing is copied. -/
def WeightBuffer : Prop :=
  ∀ (len : BitVec 6) (x : BitVec 4) (b a : BitVec 6) (f : StoredFmt) (sp : Bool) (g : GuardF) (s : State),
    s.core.guard g = true →
    let va := (s.core.ra x).toNat
    let n := 64 * (len.toNat + 1)
    let off := (s.core.rs b).toNat
    let good := 0x7FF000000000 ≤ va ∧ va + n ≤ 0x7FF000100000 ∧ va % 64 = 0 ∧ off % 64 = 0 ∧ off + n ≤ 131072
    let at0 := (s.core.rs a).toNat
    let size := tileBytes f sp
    (¬ good → trapsWith s (exec (.mwbf len x b g) s) 0x0E) ∧
    (good → s.coreId < 512 → ∀ bs t, readsNow s (localBytes s (va - 0x7FF000000000) n) bs t →
      ∃ u, exec (.mwbf len x b g) s = .next u ∧ u.sig = .none ∧ u.core.cnt = s.core.cnt ∧ sameStore s u ∧
        (∀ i, i < n → memGet u.core.wbuf (off + i) = ((bs[i]?).map (·.val)).getD 0) ∧
        ∀ i, i < off ∨ off + n ≤ i → memGet u.core.wbuf i = memGet s.core.wbuf i) ∧
    (bfAccepts f s.core.bf = false → trapsWith s (exec (.mldb f sp a g) s) 0x12) ∧
    (bfAccepts f s.core.bf = true → at0 % 64 ≠ 0 ∨ 131072 < at0 + size → trapsWith s (exec (.mldb f sp a g) s) 0x0E) ∧
    (bfAccepts f s.core.bf = true → at0 % 64 = 0 → at0 + size ≤ 131072 →
      ((∃ e ∈ s.core.wbufErr, at0 ≤ e ∧ e < at0 + size) → trapsWith s (exec (.mldb f sp a g) s) 0x10) ∧
      ((∀ e ∈ s.core.wbufErr, e < at0 ∨ at0 + size ≤ e) →
        (s.core.fill ≠ none → exec (.mldb f sp a g) s = hold s .fillRunning) ∧
        (s.core.fill = none → ∃ (m : Vector Machine.Num 1024) (fl : Flags),
          exec (.mldb f sp a g) s = .next { s with sig := .none, core := { s.core with fill := some (m, fl) } } ∧
          (fl = 0 ∨ fl = Flags.nv) ∧
          ∀ k j, k < 32 → j < 32 → m.toArray[32 * k + j]? =
            some (tileElem f sp ((List.range size).map fun i => memGet s.core.wbuf (at0 + i)) k j).1))) ∧
    (∀ m fl, s.core.fill = some (m, fl) →
      exec .weightFillEnd s =
        .next { s with sig := .none, core := { s.core with
          bStaged := m, fill := none, fflags := s.core.fflags ||| fl.setWidth 32 } }) ∧
    (s.core.fill ≠ none → exec (.mdrainSwap g) s = hold s .fillRunning) ∧
    (s.core.fill = none →
      exec (.mdrainSwap g) s = .next { s with sig := .none, core := { s.core with bActive := s.core.bStaged } })

/-- R219 to R221, R33, R115, R226: a beat that may run writes its row, or the two rows of a pair, and no other; an FP32 element
of MPUSH is the rounded sum of R39 (an infinity when it overflows) and of the other beats, MDRAIN among them, that sum added to
the old element under `fmt`.SAT (R37, R42); MDRAIN then copies the staged B; the flags fall due when the beat completes. -/
def Beats : Prop :=
  ∀ (o : Beat) (n : BitVec 5) (s : State), s.core.guard o.g = true → s.core.beat = none → s.core.fill = none →
    let c := s.core
    let row := 32 * o.t.toNat + o.r.toNat
    let pair := (c.af = 5 ∨ c.af = 7) ∧ (c.bf = 5 ∨ c.bf = 7)
    let formed := (c.af.toNat ≤ 5 ∧ c.bf.toNat ≤ 5 ∧ c.accf = 0) ∨
      ((c.af = 6 ∨ c.af = 7) ∧ (c.bf = 6 ∨ c.bf = 7) ∧ c.accf = 8)
    let free := c.owned o.t.toNat = false ∧ ∀ r, c.rowBad r = false
    let window (i : Nat) : Machine.Num :=
      if i < 32 then (aElem c.af (c.rv o.a) 0 i).1 else (aElem c.af (c.rv (o.a + 1)) 0 (i - 32)).1
    let sum (a : Nat → Machine.Num) (j : Nat) : Machine.Num :=
      (roundF32 false (runSum ((List.range 32).map fun k =>
        (a k, (c.bActive.toArray[32 * k + j]?).getD Machine.Num.zero))).result.1).1
    let rowA (h k : Nat) : Machine.Num := (aElem c.af (c.rv o.a) h k).1
    let added (r : Nat) (a : Nat → Machine.Num) (j : Nat) : BitVec 32 :=
      f32Bits (addF32 c.sat (f32Num (rowElem (c.accRow r) j)) (sum a j)).1
    let writes (i : Instr) (swaps : Bool) : Prop := ∃ (u : State) (f : Flags), exec i s = .next u ∧ u.sig = .none ∧
      u.core.beat = some f ∧ f &&& ~~~(Flags.nv ||| Flags.ovf) = 0 ∧
      u.core.bActive = (if swaps then c.bStaged else c.bActive) ∧
      (∀ r, r ≠ row → (pair → r ≠ row + 1) → u.core.accRow r = c.accRow r) ∧ sameStore s u ∧
      u.core.v = c.v ∧ u.core.s = c.s ∧ u.core.fflags = c.fflags
    (¬ formed ∨ (pair ∧ o.r.toNat % 2 = 1) →
      trapsWith s (exec (.mpush o) s) 0x12 ∧ trapsWith s (exec (.macc o) s) 0x12 ∧ trapsWith s (exec (.mdrain o) s) 0x12) ∧
    (formed → ¬ pair → c.owned o.t.toNat = true →
      trapsWith s (exec (.mpush o) s) 0x0D ∧ trapsWith s (exec (.macc o) s) 0x0D ∧ trapsWith s (exec (.mdrain o) s) 0x0D) ∧
    (formed → (pair → o.r.toNat % 2 = 0) → free →
      writes (.mpush o) false ∧ writes (.macc o) false ∧ writes (.mdrain o) true) ∧
    (c.af = 5 ∨ c.af = 7 → formed → trapsWith s (exec (.mshift o n) s) 0x12) ∧
    (c.af ≠ 5 → c.af ≠ 7 → formed → free → writes (.mshift o n) false) ∧
    (formed → c.accf = 0 → (pair → o.r.toNat % 2 = 0) → free → ∀ h, h = 0 ∨ (pair ∧ h = 1) → ∀ j, j < 32 →
      (∀ u, exec (.mpush o) s = .next u → rowElem (u.core.accRow (row + h)) j = f32Bits (sum (rowA h) j)) ∧
      (∀ u, exec (.macc o) s = .next u → rowElem (u.core.accRow (row + h)) j = added (row + h) (rowA h) j) ∧
      (∀ u, exec (.mdrain o) s = .next u → rowElem (u.core.accRow (row + h)) j = added (row + h) (rowA h) j) ∧
      (c.af ≠ 5 → c.af ≠ 7 → ∀ u, exec (.mshift o n) s = .next u →
        rowElem (u.core.accRow row) j = added row (fun k => window (k + n.toNat)) j)) ∧
    (∀ f, exec .beatComplete { s with core := { c with beat := some f } } =
      .next { s with sig := .none, core := { c with fflags := c.fflags ||| f.setWidth 32 } })

/-- R219, R220, R39: the integer beats, with an active B of integers: an element of MPUSH is the exact sum, of the other beats that sum
added to the old element; both are taken modulo 2^32, or with `fmt`.SAT to the nearest bound of INT32, which sets OF. -/
def IntegerBeats : Prop :=
  ∀ (o : Beat) (n : BitVec 5) (s : State) (b : Nat → Nat → Int), s.core.guard o.g = true → s.core.beat = none →
    s.core.fill = none →
    let c := s.core
    let row := 32 * o.t.toNat + o.r.toNat
    let pair := c.af = 7 ∧ c.bf = 7
    let ta := if c.af = 6 then Ty.i8 else .i4
    let lane (v : BitVec 6) (i : Nat) : Int := tyToInt ta (laneAt ta.bits (c.rv v) i)
    (c.af = 6 ∨ c.af = 7) → (c.bf = 6 ∨ c.bf = 7) → c.accf = 8 → (pair → o.r.toNat % 2 = 0) → c.owned o.t.toNat = false →
    (∀ r, c.rowBad r = false) →
    (∀ k j, k < 32 → j < 32 → c.bActive.toArray[32 * k + j]? = some (Num.ofInt (b k j))) →
    let sum (a : Nat → Int) (j : Nat) : Int := ((List.range 32).map fun k => a k * b k j).sum
    let gives (i : Instr) (rows : List Nat) (x : Nat → Nat → Int) : Prop := ∃ (u : State) (f : Flags),
      exec i s = .next u ∧ u.sig = .none ∧ u.core.beat = some f ∧
      (∀ h ∈ rows, ∀ j, j < 32 → rowElem (u.core.accRow (row + h)) j =
        BitVec.ofInt 32 (if c.sat then max (-(2 ^ 31)) (min (2 ^ 31 - 1) (x h j)) else x h j)) ∧
      (f = 0 ∨ f = Flags.ovf) ∧
      (f = Flags.ovf ↔ c.sat = true ∧ ∃ h ∈ rows, ∃ j, j < 32 ∧ (x h j < -(2 ^ 31) ∨ 2 ^ 31 - 1 < x h j))
    let rows := if pair then [0, 1] else [0]
    let old (h j : Nat) : Int := (rowElem (c.accRow (row + h)) j).toInt
    let whole (h j : Nat) : Int := sum (fun k => lane o.a (32 * h + k)) j
    gives (.mpush o) rows whole ∧ gives (.macc o) rows (fun h j => old h j + whole h j) ∧
    gives (.mdrain o) rows (fun h j => old h j + whole h j) ∧
    (c.af = 6 → gives (.mshift o n) [0] fun h j => old h j +
      sum (fun k => if k + n.toNat < 32 then lane o.a (k + n.toNat) else lane (o.a + 1) (k + n.toNat - 32)) j)

/-- R222 to R226: the moves of accumulator rows. ACMOVV converts the elements of two rows, FP32 or INT32, to the type of OUTF under
`fmt`.RND, in the lanes that R223's table gives, or into the two blocks of E2M1K, and leaves the rest of vD zero; INT32 to INT32
copies the bits and needs no RND. Under RS (mode 5) the lanes step the LFSR one after another: their values are not said there. -/
def AccumulatorMoves : Prop :=
  ∀ (t v : BitVec 6) (p : BitVec 10) (x : BitVec 4) (g : GuardF) (s : State), s.core.guard g = true →
    let c := s.core
    let r := 2 * p.toNat
    let va := (c.ra x).toNat
    let good := 0x7FF000000000 ≤ va ∧ va + 4096 ≤ 0x7FF000100000 ∧ va % 16 = 0
    let tileOf (u : State) (i : Nat) : AccRow := u.core.accRow (32 * t.toNat + i)
    let outside (u : State) : Prop := ∀ q, q / 32 ≠ t.toNat → u.core.accRow q = c.accRow q
    (c.owned t.toNat = true → trapsWith s (exec (.mzero t g) s) 0x0D) ∧
    (c.owned t.toNat = false → ∃ u, exec (.mzero t g) s = .next u ∧ u.sig = .none ∧
      (∀ i, i < 32 → tileOf u i = 0) ∧ outside u ∧ u.core.s = c.s ∧ u.core.v = c.v) ∧
    (c.owned (r / 32) = true → trapsWith s (exec (.acmova v p g) s) 0x0D) ∧
    (c.owned (r / 32) = false → ∃ u, exec (.acmova v p g) s = .next u ∧ u.sig = .none ∧
      u.core.accRow (r + 1) ++ u.core.accRow r = c.rv v ∧
      ∀ q, q ≠ r → q ≠ r + 1 → u.core.accRow q = c.accRow q) ∧
    (c.accf ≠ 0 ∧ c.accf ≠ 8 ∨ 8 < c.outf.toNat → trapsWith s (exec (.acmovv v p g) s) 0x12) ∧
    (c.accf = 0 ∨ c.accf = 8 → c.outf.toNat ≤ 8 →
      let raw := c.accf = 8 ∧ c.outf = 8
      let readable := c.owned (r / 32) = true ∨ (c.rowBad r = false ∧ c.rowBad (r + 1) = false)
      let bits (i : Nat) : BitVec 32 := rowElem (c.accRow (r + i / 32)) (i % 32)
      let x (i : Nat) : Machine.Num := if c.accf = 8 then Num.ofInt (bits i).toInt else f32Num (bits i)
      let ty := codeTy c.outf
      let env := s.env c.rnd
      let block0 := packBlock ((List.range 32).map fun j => x j) env
      let block1 := packBlock ((List.range 32).map fun j => x (32 + j)) block0.2
      (¬ raw → rndReserved c.rnd = true → trapsWith s (exec (.acmovv v p g) s) 0x12) ∧
      (raw ∨ rndReserved c.rnd = false →
        (¬ readable → trapsWith s (exec (.acmovv v p g) s) 0x10) ∧
        (readable → c.changing (r / 32) = true → exec (.acmovv v p g) s = hold s .chain) ∧
        (readable → c.changing (r / 32) = false →
          ∃ (y : VReg) (e : Env), exec (.acmovv v p g) s = .next (laterEnv s 4 (.v v y) e).clear ∧
            (raw → e = env ∧ y = c.accRow (r + 1) ++ c.accRow r) ∧
            (ty ≠ .e2m1k → (∀ i, 64 ≤ i → i < ty.lanes → laneAt ty.bits y i = 0) ∧
              (¬ raw → c.rnd ≠ 5 → e.lfsr = env.lfsr ∧
                (∀ i, i < 64 → laneAt ty.bits y i = (tyRound ty false (x i) env).1 % 2 ^ ty.bits) ∧
                ∀ b, e.fl.getLsbD b = true ↔ ∃ i, i < 64 ∧ (tyRound ty false (x i) env).2.fl.getLsbD b = true)) ∧
            (ty = .e2m1k → e = block1.2 ∧
              (∀ h, h < 2 → let blk := if h = 0 then block0.1 else block1.1
                (∀ i, i < 32 → laneAt 4 y (32 * h + i) = blk.codes.getD i 0 % 16) ∧
                laneAt 8 y (128 + 2 * h) = blk.scale % 256 ∧ laneAt 8 y (129 + 2 * h) = blk.knot % 256) ∧
              ∀ j, 32 ≤ j → j < 128 ∨ (132 ≤ j ∧ j < 256) → laneAt 8 y j = 0)))) ∧
    (¬ good → trapsWith s (exec (.acld t x g) s) 0x0E ∧ trapsWith s (exec (.acst t x g) s) 0x0E) ∧
    (good → s.coreId < 512 → c.owned t.toNat = true → trapsWith s (exec (.acld t x g) s) 0x0D) ∧
    (good → s.coreId < 512 → c.owned t.toNat = false →
      ∀ bs u0, readsNow s (localBytes s (va - 0x7FF000000000) 4096) bs u0 →
      ∃ u, exec (.acld t x g) s = .next u ∧ u.sig = .none ∧ outside u ∧ sameStore s u ∧ u.core.cnt = c.cnt ∧
        ∀ i, i < 32 → (tileOf u i).toNat = fieldNat (bs.map (·.val)) (128 * i) 128) ∧
    (good → s.coreId < 512 → c.owned t.toNat = false → (∃ i, i < 32 ∧ c.rowBad (32 * t.toNat + i) = true) →
      trapsWith s (exec (.acst t x g) s) 0x10) ∧
    (good → s.coreId < 512 → c.owned t.toNat = true ∨ (∀ i, i < 32 → c.rowBad (32 * t.toNat + i) = false) →
      c.changing t.toNat = false →
      raceOf s s.coreId c.seen (localBytes s (va - 0x7FF000000000) 4096) = none →
      ∃ u, exec (.acst t x g) s = .next u ∧ u.sig = .none ∧ sameStore s u ∧ u.core.acc = c.acc ∧ u.core.cnt = c.cnt ∧
        ∃ es : List StoreEntry, u.core.sq = c.sq ++ es ∧
          es.flatMap (·.bytes) = ((List.range 32).flatMap fun i => bytesOfNat 128 (c.accRow (32 * t.toNat + i)).toNat).zipIdx.map
            (fun b => ⟨spAddr s.coreId (va - 0x7FF000000000 + b.2), b.1, false⟩) ∧
          ∀ e ∈ es, e.stream = 0 ∧ e.setFe = false ∧ e.rel = none)

/-! ### Ladders -/

/-- R108 to R114, R117: what the ladder instructions do when they may run, and when they take the ladder fault; each waits for
its ladder's chain. LDRREAD sums the occupied rungs from the top one down, each element by one rounded FMA with the weight of its
rung, to which no field of `fmt` applies. -/
def Ladders : Prop :=
  ∀ (l : BitVec 2) (a b d : BitVec 6) (gd : BitVec 3) (lv q : BitVec 4) (g : GuardF) (s : State), s.core.guard g = true →
    let c := s.core
    let x := c.ladder l
    let v := (c.rs a).toNat
    let base := v % 64
    let n := v / 256 % 32
    let good := v / 2 ^ 13 = 0 ∧ v / 64 % 4 = 0 ∧ n ≤ 16 ∧ base + n ≤ 64 ∧
      ∀ k, k ≠ l → ∀ i, base ≤ i → i < base + n → (c.ladder k).owns i = false
    (¬ good → trapsWith s (exec (.ldrcfg l a b g) s) 0x0D) ∧
    (good → x.chain = none → ∃ y : Ladder, exec (.ldrcfg l a b g) s = .next (s.setCore (c.setLadder l y)).clear ∧
      y.cfg = decide (n ≠ 0) ∧ y.base.toNat = base ∧ y.n.toNat = n ∧ y.c = 0 ∧ y.occ = 0 ∧ y.pz = 0 ∧ y.sat = false ∧
      ∀ i : Fin 16, y.w.get i = BitVec.ofNat 32 (laneAt 32 (c.rv b) i.val)) ∧
    (x.chain ≠ none → good →
      exec (.ldrcfg l a b g) s = hold s .chain ∧ exec (.ldrclr l g) s = hold s .chain ∧
      exec (.ldrcnt d l g) s = hold s .chain) ∧
    (x.chain = none → x.cfg = true →
      exec (.ldrclr l g) s = .next (s.setCore (c.setLadder l
        { x with c := 0, occ := 0, pz := 0, sat := false, chain := some .zero })).clear) ∧
    (x.chain = none → x.cfg = false → exec (.ldrclr l g) s = .next s.clear) ∧
    (x.cfg = false ∨ c.owned a.toNat = true →
      trapsWith s (exec (.ldrstep l a g) s) 0x0D ∧ trapsWith s (exec (.ldrread l a g) s) 0x0D) ∧
    (x.cfg = true → c.owned a.toNat = false → x.chain = none →
      (∃ cp, exec (.ldrstep l a g) s = .next (s.setCore (c.setLadder l
        { x with chain := some (.step (c.tile a.toNat) cp) })).clear) ∧
      (x.occ &&& x.pz ≠ 0 → trapsWith s (exec (.ldrread l a g) s) 0x10) ∧
      (x.occ &&& x.pz = 0 → ∃ rows f, exec (.ldrread l a g) s = .next
          (laterFlags { s with core := c.setTile a.toNat rows } 1 (ladderFlags f)).clear ∧
        rows.length = 32 ∧
        let rungs := (List.range x.n.toNat).reverse.filter fun k => x.occ.getLsbD k
        let elem (i j : Nat) : BitVec 32 × Flags := rungs.foldl (fun p k =>
          let r := fmaF32 false (f32Num ((x.w.toArray[k]?).getD 0))
            (f32Num (rowElem (c.accRow (32 * (x.base.toNat + k) + i)) j)) (f32Num p.1)
          (f32Bits r.1, p.2 ||| r.2)) (0, 0)
        (∀ i j, i < 32 → j < 32 → rowElem (rows.getD i 0) j = (elem i j).1) ∧
        ∀ q, f.getLsbD q = true ↔ ∃ i j, i < 32 ∧ j < 32 ∧ (elem i j).2.getLsbD q = true)) ∧
    (x.cfg = false ∨ x.n.toNat ≤ lv.toNat → trapsWith s (exec (.ldrrung d gd l lv q g) s) 0x0D) ∧
    (x.cfg = true → lv.toNat < x.n.toNat → x.chain = none → x.pz.getLsbD lv.toNat = false →
      let r := 32 * (x.base.toNat + lv.toNat) + 2 * q.toNat
      exec (.ldrrung d gd l lv q g) s = .next (s.locked [.v d, .g gd]
        [.v d (if x.occ.getLsbD lv.toNat then c.accRow (r + 1) ++ c.accRow r else 0), .g gd (x.occ.getLsbD lv.toNat)])) ∧
    (x.chain = none →
      exec (.ldrcnt d l g) s = .next (s.locked [.s d] [.s d (if x.cfg then
        BitVec.ofNat 64 (x.c.toNat + x.occ.toNat * 2 ^ 32 + (if x.sat then 2 ^ 48 else 0) +
          (if x.pz ≠ 0 then 2 ^ 49 else 0)) else 0)]))

/-- R108, R110, R111, R117: the end of a chain. A step adds its tile to the occupied rungs from rung 0 up, each element by rounded
sums to which no field of `fmt` applies; it leaves those rungs empty and +0, and the sum in the first empty rung, or, where there
is none, in the top rung, which then stays occupied with SAT set. PZ is carried with it, and the merges' flags are ORed.
LDRCFG and LDRCLR leave their rungs zero. Other tiles stay. -/
def LadderChains : Prop :=
  ∀ (l : BitVec 2) (s : State) (t : List AccRow) (cp : Bool) (m : Nat), t.length = 32 →
    let c := s.core
    let x := c.ladder l
    let row (k : CoreState) (rung i : Nat) : AccRow := k.accRow (32 * (x.base.toNat + rung) + i)
    (x.chain = some .zero → ∃ u, exec (.ladderChainEnd l) s = .next u ∧ u.sig = .none ∧
      (∀ k i, k < x.n.toNat → i < 32 → row u.core k i = 0) ∧ u.core.ladder l = { x with chain := none } ∧
      ∀ k, k ≠ l → u.core.ladder k = c.ladder k) ∧
    (x.chain = some (.step t cp) → (∀ k, k < m → x.occ.getLsbD k = true) → m < x.n.toNat →
      let merged (n i j : Nat) : BitVec 32 × Flags := (List.range n).foldl (fun p k =>
        let r := addF32 false (f32Num (rowElem (row c k i) j)) (f32Num p.1)
        (f32Bits r.1, p.2 ||| r.2)) (rowElem (t.getD i 0) j, 0)
      let ends (u : State) (n : Nat) (top : Bool) : Prop :=
        (u.core.ladder l).chain = none ∧ (u.core.ladder l).c = x.c + 1 ∧ (u.core.ladder l).sat = (x.sat || top) ∧
        (∀ k, k < 16 → (u.core.ladder l).occ.getLsbD k = if k < m then false else if k = m then true else x.occ.getLsbD k) ∧
        (∀ k, k < 16 → (u.core.ladder l).pz.getLsbD k = if k < m then false
          else if k = m then cp || (List.range n).any x.pz.getLsbD else x.pz.getLsbD k) ∧
        (∀ k i, k < m → i < 32 → row u.core k i = 0) ∧
        (∀ i j, i < 32 → j < 32 → rowElem (row u.core m i) j = (merged n i j).1) ∧
        (∀ q, q < 32 → (u.core.fflags.getLsbD q = true ↔
          c.fflags.getLsbD q = true ∨ ∃ i j, i < 32 ∧ j < 32 ∧ (ladderFlags (merged n i j).2).getLsbD q = true)) ∧
        ∀ r, r / 32 < x.base.toNat ∨ x.base.toNat + m < r / 32 → u.core.accRow r = c.accRow r
      (x.occ.getLsbD m = false → ∃ u, exec (.ladderChainEnd l) s = .next u ∧ ends u m false) ∧
      (x.occ.getLsbD m = true → m + 1 = x.n.toNat → ∃ u, exec (.ladderChainEnd l) s = .next u ∧ ends u (m + 1) true))

/-- R114: LDRSAVE stores the header and the occupied rungs of the image that the ladder has once its chain has ended, and both wait
for the chain. LDRLOAD takes them back from every image whose header fits the ladder:
C, OCC and SAT are those of the header, PZ is the header's with a bit more for each rung that reads uncorrectable, a rung that OCC
names takes its 4096 bytes, which stand after the header in ascending order of the rungs, and every other rung is zero. An address
outside the local window or not aligned, an image that ends outside it, and a header that does not fit (another N, a reserved field
that is not 0, a bit of OCC or PZ at or above N, a PZ bit without its OCC bit) take the ladder fault. -/
def LadderImages : Prop :=
  ∀ (l : BitVec 2) (y : BitVec 4) (g : GuardF) (s : State), s.core.guard g = true → s.coreId < 512 →
    let c := s.core
    let x := c.ladder l
    let va := (c.ra y).toNat
    let off := va - 0x7FF000000000
    let after := chainEnd c l
    let img := ladderImage after (after.ladder l)
    let inside (n : Nat) : Prop := 0x7FF000000000 ≤ va ∧ va + n ≤ 0x7FF000100000
    (¬ inside 16 ∨ va % 16 ≠ 0 →
      trapsWith s (exec (.ldrsave l y g) s) 0x0D ∧ trapsWith s (exec (.ldrload l y g) s) 0x0D) ∧
    (x.cfg = false → trapsWith s (exec (.ldrload l y g) s) 0x0D) ∧
    (¬ inside img.length → trapsWith s (exec (.ldrsave l y g) s) 0x0D) ∧
    (va % 16 = 0 → inside img.length → raceOf s s.coreId c.seen (localBytes s off img.length) = none →
      (x.chain ≠ none → exec (.ldrsave l y g) s = hold s .chain) ∧
      (x.chain = none → after = c ∧ exec (.ldrsave l y g) s = .next (storeLocal s off img).clear)) ∧
    (va % 16 = 0 → inside 16 → x.cfg = true → ∀ hs t, readsNow s (localBytes s off 16) hs t →
      let field := fieldNat (hs.map (·.val))
      let occ := BitVec.ofNat 16 (field 4 2)
      let pz := BitVec.ofNat 16 (field 6 2)
      let fits := field 8 1 = x.n.toNat ∧ field 9 1 ≤ 1 ∧ field 10 6 = 0 ∧ occ.toNat < 2 ^ x.n.toNat ∧
        pz.toNat < 2 ^ x.n.toNat ∧ ∀ k, pz.getLsbD k = true → occ.getLsbD k = true
      let rungs := (List.range 16).filter occ.getLsbD
      let len := 4096 * rungs.length
      (¬ fits ∨ ¬ inside (16 + len) → trapsWith s (exec (.ldrload l y g) s) 0x0D) ∧
      (fits → inside (16 + len) → ∀ bs v, readsMarked s t (localBytes s (off + 16) len) bs v →
        (x.chain ≠ none → exec (.ldrload l y g) s = hold s .chain) ∧
        (x.chain = none → ∃ (u : State) (bad : BitVec 16), exec (.ldrload l y g) s = .next u ∧ u.sig = .none ∧ sameStore s u ∧
          u.core.ladder l =
            { x with c := BitVec.ofNat 32 (field 0 4), occ := occ, pz := bad, sat := decide (field 9 1 = 1) } ∧
          (∀ k, k ≠ l → u.core.ladder k = c.ladder k) ∧
          (∀ k, k < 16 → (bad.getLsbD k = true ↔ pz.getLsbD k = true ∨ occ.getLsbD k = true ∧
            ∃ b ∈ (bs.drop (4096 * rungs.idxOf k)).take 4096, b.poison = true)) ∧
          (∀ k i, k < x.n.toNat → i < 32 → (u.core.accRow (32 * (x.base.toNat + k) + i)).toNat =
            if occ.getLsbD k then fieldNat (bs.map (·.val)) (4096 * rungs.idxOf k + 128 * i) 128 else 0) ∧
          ∀ r, r / 32 < x.base.toNat ∨ x.base.toNat + x.n.toNat ≤ r / 32 → u.core.accRow r = c.accRow r)))

/-! ### Steps of engines and of the network -/

/-- R130, R51, R237, R77, R122, R308, R359, R360: ENGINE_WRITE starts a command, or makes the chosen pending write of a started one,
which leaves its list. The bytes become the coherence-latest ones and every other byte stays; a block for a scratchpad whose task has
left is refused and changes no byte. A tensor piece's write goes out from the piece's site, to the bytes that a route from there
reaches; of a byte that holds two 4-bit elements it changes the nibbles of its own elements, unless it holds both. A piece's write
into splice windows changes no byte of memory, and a destination row that it makes whole is delivered to the window's die. A write of a
controller's copy changes registers in control space as a store does, and is dropped where nothing is. -/
def EngineWrites : Prop :=
  ∀ (id i : Nat) (s : State) (c : Cmd) (w : EngWrite), findCmd s id = some c →
    (∀ t, startCmd s c = some t → exec (.engineWrite id i) s = .next (settle t).clear) ∧
    (startCmd s c = none → c.out[i]? = some w → writeMayGo s c i w = true →
      let same (u : State) : Prop := ∀ pa, byteAt u pa = byteAt s pa
      let made (p : State → Prop) : Prop := ∃ u, exec (.engineWrite id i) s = .next u ∧ u.sig = .none ∧
        (findCmd u id).map (·.out) = some (c.out.eraseIdx i) ∧ u.core.s = s.core.s ∧ u.core.v = s.core.v ∧ p u
      let lands (goes : Nat → Bool) (value : WByte → Byte → Prop) (u : State) : Prop :=
        (w.guard = none ∨ (∃ g, w.guard = some g ∧ guardHolds s g = true) →
          (∀ pa b, w.bytes.find? (fun b => b.pa == pa) = some b → goes pa = true →
            ∃ v, byteAt u pa = (v, b.poison) ∧ value b v) ∧
          ∀ pa, (∀ b ∈ w.bytes, b.pa ≠ pa) ∨ goes pa = false → byteAt u pa = byteAt s pa) ∧
        ((∃ g, w.guard = some g ∧ guardHolds s g = false) → same u)
      let whole (b : WByte) (v : Byte) : Prop := v = b.val
      let site := siteSocket c (((c.pieces[w.piece]?).map (·.home)).getD nowhere)
      let first := (w.bytes.head?.map (·.pa)).getD 0
      (isController c.core = false → (∀ k d ss vc st r sat h e n, c.body ≠ .top k d ss vc st r sat h e n) →
        (∀ dst src, c.body ≠ .setband dst src) → made (lands (reaches s c.die) whole)) ∧
      (∀ k d ss vc st r sat h e n, isController c.core = false → c.body = .top k d ss vc st r sat h e n →
        let own := liveElems k d ss vc (((c.pieces[w.piece]?).map (·.elems)).getD [])
        let has (pa : Nat) (high : Bool) : Bool := own.any fun l => d.high l == high && segAt d.segs (d.addr l) == some pa
        let nibbles (b : WByte) (v : Byte) : Prop :=
          v.extractLsb' 0 4 =
            (if has b.pa true && !has b.pa false then (byteAt s b.pa).1 else b.val).extractLsb' 0 4 ∧
          v.extractLsb' 4 4 =
            (if has b.pa false && !has b.pa true then (byteAt s b.pa).1 else b.val).extractLsb' 4 4
        let goes (pa : Nat) : Bool := linked s site pa && !outOfUse s c.die pa
        (d.spl = false → d.ty.is4 = false → made (lands goes whole)) ∧
        (d.spl = false → d.ty.is4 = true → made (lands goes nibbles)) ∧
        (d.spl = true → made fun u => same u ∧
          let kept := w.bytes.foldl (fun l b => kset l (b.pa - 2 ^ 66) b.val) c.spl
          let size := d.ext.headD 1 * (d.ty.bits / 8)
          let at_ (r : Nat) : Nat := d.addr (r * d.ext.headD 1)
          (∀ b ∈ w.bytes, ∀ y, spliceDie s c (b.pa - 2 ^ 66) = some y → reachable s.links site y.toNat = true) →
          ∀ r x y off die, r < d.rows → (∀ q, q < r → at_ q + size ≤ at_ r ∨ at_ r + size ≤ at_ q) →
            (∀ j, j < size → (kfind kept (at_ r + j)).isSome = true) → windowOf (at_ r) size = .splice x y off →
            boundDie (kfind (s.die c.die).active.ctxs c.slot) (BitVec.ofNat 64 x) = some die →
            (⟨c.id, BitVec.ofNat 6 y, c.pasid, off / 2 ^ 28, off % 2 ^ 28 / size,
              (List.range size).map fun j => (kfind kept (at_ r + j)).getD 0, false⟩ : Row) ∈ (u.die die).rows)) ∧
      (isController c.core = true →
        (regionOf first = .control → reaches s c.die first = true →
          ∃ v, (findCmd { s with cmds := v } id).map (·.out) = some (c.out.eraseIdx i) ∧
            exec (.engineWrite id i) s = .next (settle (ctlWrite { s with cmds := v } first (w.bytes.map (·.val)))).clear) ∧
        (regionOf first = .control ∧ reaches s c.die first = false ∨ regionOf first = .none ∨ regionOf first = .host →
          made same) ∧
        (regionOf first ≠ .control → regionOf first ≠ .none → regionOf first ≠ .host →
          made (lands (reaches s c.die) whole))))

/-- R130, R232, R35: COMMAND_RETIRE of a command all of whose items are done takes it out of the list; the counter of its class
falls by one at its task and its flags are ORed there; a copy changes no byte then. -/
def CommandRetires : Prop :=
  ∀ (id : Nat) (s : State) (c : Cmd), findCmd s id = some c → mayRetire s c = true →
    ∃ u, exec (.commandRetire id) s = .next u ∧ u.sig = .none ∧ u.cmds = s.cmds.filter (fun x => x.id != id) ∧
      (c.of s.coreId s.core = true → c.path ≠ .splice →
        u.core.cnt = s.core.cnt.add (pathClass c.path) (-1) ∧ u.core.fflags = s.core.fflags ||| c.flags.setWidth 32) ∧
      ((∃ dst src n g, c.body = .copy dst src n g) → ∀ pa, byteAt u pa = byteAt s pa)

/-- R77, R79, R80, R86, R243: a piece of a tensor operation whose site takes it starts, and one whose writes are made completes:
its outcome is set, its flags join the command's, and a piece that failed sets `tstat`.TF. Neither step changes a byte. -/
def Pieces : Prop :=
  ∀ (id n : Nat) (s : State) (c : Cmd) (p : Piece), findCmd s id = some c → c.pieces[n]? = some p →
    (∀ k d ss vc st rnd sat hm enc cen, c.body = .top k d ss vc st rnd sat hm enc cen → p.started = false →
      (p.site ≠ .face ∧ (c.started = true ∨ topMayStart s c = true)) ∨
        (p.site = .face ∧ c.started = true ∧ s.xd0.hot = false ∧ faceReady s id n p = true) →
      ∃ u c', exec (.pieceStart id n) s = .next u ∧ u.sig = .none ∧ findCmd u id = some c' ∧ c'.started = true ∧
        (c'.pieces[n]?).map (·.started) = some true ∧ (∀ pa, byteAt u pa = byteAt s pa) ∧ u.core = s.core) ∧
    (∀ a, c.body = .attn a → p.started = false → (a.n + 63) / 64 ≤ a.blocks.length →
      c.started = true ∨ kvMayStart s c = true → n = 0 →
      ∃ u c', exec (.pieceStart id n) s = .next u ∧ findCmd u id = some c' ∧ (c'.pieces[0]?).map (·.started) = some true ∧
        ∀ pa, byteAt u pa = byteAt s pa) ∧
    (p.started = true → p.out = none → (∀ w ∈ c.out, w.piece ≠ n) →
      ∃ u c', exec (.pieceComplete id n) s = .next u ∧ findCmd u id = some c' ∧
        (c'.pieces[n]?).map (·.out) = some (some p.fate) ∧ (∀ pa, byteAt u pa = byteAt s pa) ∧
        (p.fate = 0 → c'.flags = c.flags ||| p.flags ∧ u.core = s.core) ∧
        (p.fate ≠ 0 → c'.flags = c.flags ∧ (c.of s.coreId s.core = true → u.core.tstat = s.core.tstat ||| 1)))

/-- R99, R101, R102, R107, R94: a locator step of a command that may start. A KVFIND makes its lookup and sets its result: the block,
or ones when it is absent. A KVFREE goes to its next logical block; a block that it finds is freed and counted: its entry loses VAL,
and where an overflow record named it the last record takes that one's place and OVCNT falls by one; an uncorrectable error frees
nothing and is kept in mind. An ATTN adds the block that it finds to its list; one that is absent fails it with outcome 3, an error with
outcome 2. SETBAND starts with one write to make, and that write is the captured table with VER one more than before. -/
def LocatorSteps : Prop :=
  ∀ (id : Nat) (s : State) (c : Cmd) (l : Locator) (seq : BitVec 32), findCmd s id = some c →
    c.started = true ∨ kvMayStart s c = true →
    let k := { c with started := true }
    let same (u : State) : Prop := ∀ pa, byteAt u pa = byteAt s pa
    let steps (p : State → Cmd → Prop) : Prop :=
      ∃ u c', exec (.locatorStep id) s = .next u ∧ u.sig = .none ∧ findCmd u id = some c' ∧ c'.started = true ∧ p u c'
    let put (va : Nat) (bs : List Byte) : List (Nat × Byte) :=
      bs.zipIdx.filterMap fun b => (locAddr s k l (va + b.2)).map fun p => (p, b.1)
    (∀ lblk, c.body = .kvfind l seq lblk → c.finished = false → steps fun u c' =>
      let found := lookup s k l seq.toNat lblk.toNat
      c'.finished = true ∧ (∀ e r, found = .block e r → c'.result = some (BitVec.ofNat 64 e)) ∧
      (found = .absent → c'.result = some (BitVec.allOnes 64)) ∧ same u) ∧
    (∀ lo hi next freed err, c.body = .kvfree l seq lo hi next freed err → next ≤ hi.toNat → steps fun u c' =>
      let found := lookup s k l seq.toNat next
      let after (n : Nat) (e : Bool) : Prop := c'.body = .kvfree l seq lo hi (next + 1) n e
      (found = .absent → after freed err ∧ same u) ∧
      (∀ pa, found = .error pa → after freed true ∧ same u) ∧
      ∀ e r, found = .block e r →
        let entry := put (l.table + 16 * e) { (entryAt s k l e).1 with val := false }.toBytes
        let n := (liveOv s k l).1
        let count := put (l.desc + 12) (bytesOfNat 4 (n - 1))
        let last := locRead s k l (l.ovfl + 16 * (n - 1)) 16
        (r = none → after (freed + 1) err ∧ landed s u c.die entry) ∧
        ∀ x, r = some x →
          (x + 1 = n → after (freed + 1) err ∧ landed s u c.die (count ++ entry)) ∧
          (x + 1 ≠ n → last.2 = none →
            after (freed + 1) err ∧ landed s u c.die (count ++ put (l.ovfl + 16 * x) last.1 ++ entry)) ∧
          (x + 1 ≠ n → last.2 ≠ none → after freed true ∧ same u)) ∧
    (∀ a p, c.body = .attn a → c.pieces = [p] → p.started = false → a.blocks.length < (a.n + 63) / 64 → steps fun u c' =>
      let found := lookup s k a.loc a.seq.toNat a.blocks.length
      let fails (f : BitVec 2) (pa : Nat) : Prop :=
        c'.body = c.body ∧ c'.pieces = [{ p with started := true, shipped := 0, fate := f, failPa := pa }]
      same u ∧ (found = .absent → fails 3 0) ∧ (∀ pa, found = .error pa → fails 2 pa) ∧
      ∀ e r, found = .block e r → c'.pieces = c.pieces ∧ ∃ b, c'.body = .attn b ∧ b.blocks = a.blocks ++ [e] ∧
        b.q = a.q ∧ b.kp = a.kp ∧ b.vp = a.vp ∧ b.o = a.o ∧ b.n = a.n ∧
        (a.blocks = [] → b.turn = (entryAt s k a.loc e).1.turn) ∧ (a.blocks ≠ [] → b = { a with blocks := b.blocks })) ∧
    (∀ dst src i, c.body = .setband dst src → c.path = .tensor → isController c.core = false →
      (c.started = false → ∃ u c', exec (.engineWrite id i) s = .next u ∧ u.sig = .none ∧ findCmd u id = some c' ∧
        c'.started = true ∧ c'.finished = true ∧ c'.out.length = 1 ∧ same u) ∧
      (∀ w, c.started = true → c.out[i]? = some w → ∃ u, exec (.engineWrite id i) s = .next u ∧ u.sig = .none ∧
        (findCmd u id).map (·.out) = some (c.out.eraseIdx i) ∧
        let pas := segAddrs dst
        let ver := natOfBytes ((pas.take 4).map fun p => (byteAt s p).1)
        landed s u c.die (pas.zip (bytesOfNat 4 ((ver + 1) % 2 ^ 32) ++ src.drop 4))))

/-- R98, R100, R102: what the allocation of a block of a sequence does: the entry that it takes, the first free one of the probe
window, names the sequence, the logical block, the PASID, TURN and BSET; where the window is full, the lowest free entry of the table
takes it, with OVF set, and a record of it is added to the overflow list. Code 1 says that neither has room, code 3 that an entry or
the count reads uncorrectable. -/
def Allocations : Prop :=
  ∀ (s : State) (c : Cmd) (l : Locator) (seq lblk turn bset : Nat),
    let start := probeStart l seq lblk
    let window := (List.range 8).map fun j => (start + j) % l.p
    let table := List.range l.p
    let free (es : List Nat) (e : Nat) : Prop := ∃ before after, es = before ++ e :: after ∧
      (entryAt s c l e).2 = none ∧ (entryAt s c l e).1.val = false ∧
      ∀ x ∈ before, (entryAt s c l x).2 = none ∧ (entryAt s c l x).1.val = true
    let taken (es : List Nat) : Prop := ∀ x ∈ es, (entryAt s c l x).2 = none ∧ (entryAt s c l x).1.val = true
    let spoilt (es : List Nat) : Prop := ∃ before e after, es = before ++ e :: after ∧ (entryAt s c l e).2 ≠ none ∧ taken before
    let count := liveOv s c l
    let put (va : Nat) (bs : List Byte) : List (Nat × Byte) :=
      bs.zipIdx.filterMap fun b => (locAddr s c l (va + b.2)).map fun p => (p, b.1)
    let entry (e : Nat) (ovf : Bool) : List (Nat × Byte) :=
      put (l.table + 16 * e) (Entry.mk seq lblk c.pasid true ovf turn 0 bset).toBytes
    let gives (e : Nat) (ws : List (Nat × Byte)) : Prop :=
      ∃ t, allocate s c l seq lblk turn bset = .inl (t, e) ∧ landed s t c.die ws ∧ t.core = s.core ∧ t.cmds = s.cmds
    let code (n : Nat) : Prop := allocate s c l seq lblk turn bset = .inr n
    (∀ e, free window e → gives e (entry e false)) ∧
    (∀ e, taken window → free table e → count.2 = none → count.1 < 4096 →
      gives e (put (l.desc + 12) (bytesOfNat 4 (count.1 + 1)) ++
        put (l.ovfl + 16 * count.1) (bytesOfNat 4 seq ++ bytesOfNat 4 lblk ++ bytesOfNat 8 e) ++ entry e true)) ∧
    (∀ e, taken window → free table e → count.2 = none → 4096 ≤ count.1 → code 1) ∧
    (taken window → taken table → code 1) ∧ (spoilt window → code 3) ∧ (taken window → spoilt table → code 3) ∧
    (∀ e, taken window → free table e → count.2 ≠ none → code 3)

/-- R100, R102, R103: the locator step of a KVAPP that may start appends its next row: it reads the row of both sources, finds or
allocates the block of the row's position, and writes the key, rotated by the turn table where the entry's TURN is 1, and the value,
both converted to their pool's type, into the slot, and FILL. Code 3 stops it where a source, a lookup or the turn table reads
uncorrectable, code 2 where the sequence has another class, and an allocation's own code; the codes come with the number of rows
appended, and no byte of the row has then been written. -/
def AppendSteps : Prop :=
  ∀ (id : Nat) (s : State) (c : Cmd) (l : Locator) (seq : BitVec 32) (cls bset : BitVec 8) (pos0 : Word) (rows : Nat) (sat : Bool)
    (kp vp ks vs : Shape) (next : Nat), findCmd s id = some c →
    c.body = .kvapp l seq cls bset pos0 rows sat kp vp ks vs next → c.finished = false → next < rows →
    c.started = true ∨ kvMayStart s c = true →
    let k := { c with started := true }
    let pos := pos0 + BitVec.ofNat 64 next
    let lblk := pos.toNat / 64 % 2 ^ 32
    let slot := pos.toNat % 64
    let key := sourceRow s k ks [] next
    let value := sourceRow key.2.2 k vs key.2.1 next
    let own := value.2.1
    let t := value.2.2
    let steps (p : State → Cmd → Prop) : Prop :=
      ∃ u c', exec (.locatorStep id) s = .next u ∧ u.sig = .none ∧ findCmd u id = some c' ∧ c'.started = true ∧ p u c'
    let stops (code : Nat) : Prop := steps fun u c' => c'.finished = true ∧ c'.flags = c.flags ∧
      c'.result = some (BitVec.ofNat 64 (code * 2 ^ 56 + next)) ∧ ∀ pa, byteAt u pa = byteAt s pa
    let row (h : Shape) (e : Nat) (bs : List Byte) : List (Nat × Byte) :=
      (((rangeList (poolRow h e slot)).zip bs).foldl (fun o x => kset o x.1 x.2) ([] : List (Nat × Byte))).filterMap fun b =>
        (segAt h.segs b.1).map fun p => (p, b.2)
    let differs (e : Nat) : Prop := (entryAt t k l e).1.turn ≠ cls.toNat ∨ (entryAt t k l e).1.bset ≠ bset.toNat
    let puts (t' : State) (e : Nat) : Prop :=
      let x := (entryAt t' k l e).1
      let done (ks' : List Machine.Num) (f : Flags) : Prop :=
        let kb := rowToBytes kp.ty sat ks'
        let vb := rowToBytes vp.ty sat value.1.1
        let filled := { x with fill := max x.fill (slot + 1) }.toBytes
        steps fun u c' => c'.finished = false ∧ c'.flags = c.flags ||| (f ||| kb.2 ||| vb.2) ∧
          c'.body = .kvapp l seq cls bset pos0 rows sat kp vp ks vs (next + 1) ∧
          c'.result = some (BitVec.ofNat 64 (next + 1)) ∧
          landed t' u c.die ((filled.zipIdx.filterMap fun b => (locAddr t' k l (l.table + 16 * e + b.2)).map fun p => (p, b.1)) ++
            row vp e vb.1 ++ row kp e kb.1)
      let turns := (turnsOf t' k l own (key.1.1.length / 2)).1
      (x.turn ≠ 1 → done key.1.1 0) ∧
      (x.turn = 1 → turns.2 = none → done (rotateRow sat pos turns.1 key.1.1).1 (rotateRow sat pos turns.1 key.1.1).2) ∧
      (x.turn = 1 → turns.2 ≠ none → stops 3)
    let first := lookup t k l seq.toNat 0
    let found := lookup t k l seq.toNat lblk
    let agrees : Prop := first = .absent ∨ ∃ e r, first = .block e r ∧ ¬ differs e
    (∀ pa, byteAt t pa = byteAt s pa) ∧
    (key.1.2 = true ∨ value.1.2 = true → stops 3) ∧
    (key.1.2 = false → value.1.2 = false →
      (∀ pa, first = .error pa → stops 3) ∧
      (∀ e r, first = .block e r → differs e → stops 2) ∧
      (agrees → ∀ pa, found = .error pa → stops 3) ∧
      (agrees → ∀ e r, found = .block e r → puts t e) ∧
      (agrees → found = .absent →
        (∀ n, allocate t k l seq.toNat lblk cls.toNat bset.toNat = .inr n → stops n) ∧
        ∀ t' e, allocate t k l seq.toNat lblk cls.toNat bset.toNat = .inl (t', e) → puts t' e))

/-- R250, R251, R253: the completion of a message that needs no scratchpad of a lost die or of a task that has left writes its
completion granule into the local window of its task, sets it full, and retires the command: its counter falls by one, and the
destination of an atomic gets the old value that came with it, 0 when it failed. An NXRD has written the bytes that came with it before,
poisoned under outcome 4, and no message changes any other byte. -/
def MessageCompletes : Prop :=
  ∀ (id : Nat) (outc : BitVec 8) (done : Nat) (data : List Byte) (s : State) (c : Cmd) (k : NxKind) (m : Message) (a : Nat),
    findCmd s id = some c → messageOf c.body = some (k, m) → c.started = true → c.finished = false →
    outcomeOk k m outc done data = true → needsLost s c k m = false → (k = .rd → data ≠ [] → strays s c m = false) →
    c.agent s = some a → a < 512 → dieOf a = c.die → m.desc + 48 ≤ 2 ^ 20 →
    (∀ j, j < 16 → reaches s c.die (spAddr a (m.desc + 32 + j)) = true) →
    ∃ u, exec (.messageComplete id outc done data) s = .next u ∧ u.sig = .none ∧
      u.cmds = s.cmds.filter (fun x => x.id != id) ∧
      (∀ j, j < 16 → byteAt u (spAddr a (m.desc + 32 + j)) =
          ((outc :: bytesOfNat 3 0 ++ bytesOfNat 4 done ++ bytesOfNat 8 0).getD j 0, false) ∧
        isFull u (spAddr a (m.desc + 32 + j)) = true) ∧
      (let got := if k = .rd then (segAddrs m.segs).zip data else []
        ∀ pa, (∀ j, j < 16 → pa ≠ spAddr a (m.desc + 32 + j)) →
          (∀ b, got.find? (fun y => y.1 == pa) = some (pa, b) → reaches s c.die pa = true →
            byteAt u pa = (b, decide (outc = 4)) ∧ (∀ x, regionOf pa = .sp x → dieOf x = c.die → isFull u pa = true)) ∧
          ((∀ y ∈ got, y.1 ≠ pa) ∨ reaches s c.die pa = false → byteAt u pa = byteAt s pa)) ∧
      (c.path = .network → (u.agent a).cnt = (s.agent a).cnt.add 4 (-1)) ∧
      (k = .amo → ∀ tok, c.tok = some tok → ∀ l ∈ (s.agent a).locks, l.tok = tok → ∀ d, l.regs = [.s d] →
        { l with result := some [.s d (BitVec.ofNat 64 (natOfBytes data))] } ∈ (u.agent a).locks) ∧
      (k ≠ .amo → (u.agent a).locks = (s.agent a).locks)

/-- R253, R371: a packet, a retransmission timeout, a probe and an acknowledgement of one entropy value: a packet leaves on port
PORT0 + (v mod NPORT) with the value of its set in its UDP source port; a packet in flight may time out, and the third timeout
in a row marks the value dead; a probe leaves each millisecond, and an acknowledged probe brings it back. -/
def Paths : Prop :=
  ∀ (part : BitVec 2) (slot : BitVec 6) (ep : BitVec 12) (v : BitVec 4) (rtt : Nat) (ecn probe : Bool) (m : Message) (s : State),
    let p := s.path part.toNat slot.toNat ep.toNat v.toNat
    let now (u : State) := u.path part.toNat slot.toNat ep.toNat v.toNat
    (m.ep = ep → (sendPacket s part.toNat slot.toNat m v.toNat).core = s.core ∧
      now (sendPacket s part.toNat slot.toNat m v.toNat) = { p with
        inflight := p.inflight + 1, port := m.port0 + v.toNat % m.nport, source := m.entropy.getD v.toNat 0 }) ∧
    (p.inflight = 0 → ∃ e, exec (.retransmissionTimeout part slot ep v) s = .refused e) ∧
    (p.inflight ≠ 0 → ∃ u, exec (.retransmissionTimeout part slot ep v) s = .next u ∧ u.core = s.core ∧
      now u = { p with
        timeouts := p.timeouts + 1, dead := p.dead || decide (3 ≤ p.timeouts + 1)
        probed := if p.dead = false ∧ 3 ≤ p.timeouts + 1 then s.time else p.probed }) ∧
    (p.dead = true → p.probed + millisecond ≤ s.time → ∃ u, exec (.pathProbe part slot ep v) s = .next u ∧ u.core = s.core ∧
      now u = { p with inflight := p.inflight + 1, probed := s.time, probes := p.probes + 1 }) ∧
    (p.inflight ≠ 0 → (probe = true → p.probes ≠ 0) →
      ∃ u r, exec (.packetAcknowledgement part slot ep v rtt ecn probe) s = .next u ∧ u.core = s.core ∧
        now u = { p with
          rtt := r, inflight := p.inflight - 1, ecn := (ecn :: p.ecn).take 256, timeouts := 0, dead := p.dead && !probe
          probes := if probe then p.probes - 1 else p.probes })

/-- R372, R250, R252, R359: a request at a port of the package: a message in ROD is taken only after the earlier ones of its flow;
one that names no context is refused; a write for a die that no route from the port reaches is dropped and logged; a write whose
range its target accepts is made, poisoned or not as it came, every other byte stays, and a whole message counts at its arrival
counter. -/
def NetworkReceives : Prop :=
  ∀ (r : NetReq) (s : State), s.ports.contains r.port = true →
    let part := portPart s.xd0.mode r.port
    let inOrder := ∀ f n, r.rod = some (f, n) → n = kget 0 s.flows f
    let taken (u : State) : Prop := u.sig = .none ∧ u.core = s.core ∧ ∀ f n, r.rod = some (f, n) → kget 0 u.flows f = n + 1
    (¬ inOrder → ∃ e, exec (.networkReceive r) s = .refused e) ∧
    (inOrder → ctxByPasid s part r.rctx = none →
      ∃ u, exec (.networkReceive r) s = .next u ∧ taken u ∧ u.netOut = none ∧ ∀ pa, byteAt u pa = byteAt s pa) ∧
    (∀ slot c die, inOrder → ctxByPasid s part r.rctx = some (slot, c) →
      boundDie (some c) (r.tvd.setWidth 64) = some die → reachable s.links (12 + r.port / 64) die.toNat = false → r.kind = .write →
      ∃ u, exec (.networkReceive r) s = .next u ∧ taken u ∧ (u.die die).mcprod = (s.die die).mcprod + 1 ∧
        (∀ pa, byteAt u pa = byteAt s pa) ∧ (u.die die).active.arr = (s.die die).active.arr) ∧
    (∀ slot c die segs, inOrder → ctxByPasid s part r.rctx = some (slot, c) → boundDie (some c) (r.tvd.setWidth 64) = some die →
      reachable s.links (12 + r.port / 64) die.toNat = true → (s.die die).urst = false → c.broken = false → r.kind = .write →
      netTarget s die part slot c ⟨false, true⟩ r.rva r.len = .bytes segs →
      ∃ u, exec (.networkReceive r) s = .next u ∧ taken u ∧ u.netOut = some [] ∧
        (∀ x, (((segAddrs segs).zip r.bytes).find? fun y => y.1 == x.1) = some x → reaches s die x.1 = true →
          byteAt u x.1 = (x.2, r.poison)) ∧
        (∀ pa, pa ∉ segAddrs segs → byteAt u pa = byteAt s pa) ∧
        (r.actr.toNat < 1024 → r.whole = true →
          kget 0 (u.die die).active.arr (1024 * slot + r.actr.toNat) =
            kget 0 (s.die die).active.arr (1024 * slot + r.actr.toNat) + 1))

/-! ### Firmware and its registers -/

/-- R305, R307, R11: EVENT_ENTRY of a controller at base level with events enabled takes its oldest event that is not handled: FEPC
keeps the PC, the level becomes handler with FSTAT.PL the level before, and the controller goes to FVEC; every event but a
service trap leaves a record, and one of an ending cause ends the task of its core, once its writes have arrived. -/
def EventEntry : Prop :=
  ∀ (die : BitVec 2) (s : State) (e : DieEvent),
    let x := s.die die
    let c := s.agent (512 + die.toNat)
    c.run = .running → x.fstat.getLsbD 0 = true → x.fstat.getLsbD 1 = false →
    x.events.find? (fun e => !e.handled) = some e →
    (e.info.kind = 1 → e.core < 512 → endReady s e.core = true) →
    ∃ u, exec (.eventEntry die) s = .next u ∧ u.sig = .none ∧ (u.die die).fepc = c.pc ∧
      (u.agent (512 + die.toNat)).pc = x.fvec ∧ (u.die die).fstat.getLsbD 0 = true ∧
      (u.die die).fstat.getLsbD 1 = true ∧ (u.die die).fstat.getLsbD 2 = false ∧
      { e with handled := true } ∈ (u.die die).events ∧
      (e.info.kind ≠ 1 → (u.die die).events.length = x.events.length) ∧
      (e.info.kind = 1 → e.core < 512 → (u.agent e.core).run = .ended) ∧
      (e.info.kind = 0 → (u.die die).flprod = x.flprod) ∧
      (e.info.kind ≠ 0 → x.flprod - x.flcons ≠ 1024 → (u.die die).flprod = x.flprod + 1)

/-- R306: a write of FPOP drops the event at the head of the queue; with no suspension waiting for an entry
and no log-only event waiting either, nothing else of the die changes. Writes of the other firmware registers set their writable bits. -/
def FirmwareRegisters : Prop :=
  ∀ (d : BitVec 2) (x : Word) (s : State),
    ((∀ k t m, (s.agent k).run ≠ .suspended t m false) → (s.die d).late = [] →
      exec (.fpop d) s = .next (s.mapDie d fun y => { y with events := y.events.tail }).clear ∧
      exec (.registerWrite (.sys d 0x106) x) s =
        .next (s.mapDie d fun y => { y with events := y.events.tail }).clear) ∧
    exec (.registerWrite (.sys d 0x100) x) s = .next (s.mapDie d fun y => { y with
      fstat := (x &&& 5) ||| (y.fstat &&& 2) }).clear ∧
    exec (.registerWrite (.sys d 0x101) x) s = .next (s.mapDie d fun y => { y with fepc := x }).clear ∧
    exec (.registerWrite (.sys d 0x102) x) s = .next (s.mapDie d fun y => { y with
      fvec := BitVec.ofNat 64 (x.toNat / 16 * 16) }).clear ∧
    exec (.registerWrite (.sys d 0x110) x) s = .next (s.mapDie d fun y => { y with
      fcore := BitVec.ofNat 64 (x.toNat % 128) }).clear ∧
    exec (.registerWrite (.sys d 0x111) x) s = .next (s.mapDie d fun y => { y with
      fsaveb := BitVec.ofNat 64 (x.toNat / 2 ^ 21 * 2 ^ 21) }).clear ∧
    exec (.registerWrite (.sys d 0x1F0) x) s = .next (s.mapDie d fun y => { y with
      snapctl := BitVec.ofNat 64 (x.toNat % 2) }).clear

/-- R345, R181: RESUME of a task that a service trap has suspended runs it on; END ends a suspended task, with a record; DRAINREQ asks
a drain of every core of the task's gang. -/
def CoreWords : Prop :=
  ∀ (k : Nat) (s : State), k < 512 →
    (∀ t n, (s.agent k).run = .suspended t n true → t.kind = 0 →
      exec (.resume k) s = .next (s.setAgent k { s.agent k with run := .running }).clear) ∧
    ((∀ t n, (s.agent k).run ≠ .suspended t n true) → exec (.resume k) s = .next s.clear) ∧
    (∀ t n, (s.agent k).run = .suspended t n true → endReady s k = true →
      ∃ u, exec (.endWord k) s = .next u ∧ (u.agent k).run = .ended ∧ u.coreId = s.coreId ∧
        ((s.die (dieOf k)).flprod - (s.die (dieOf k)).flcons ≠ 1024 →
          (u.die (dieOf k)).flprod = (s.die (dieOf k)).flprod + 1)) ∧
    ((s.agent k).task = none → exec (.drainreq k) s = .next s.clear) ∧
    (∀ t g, (s.agent k).task = some t → findGang s t = some g →
      ∃ u, exec (.drainreq k) s = .next u ∧
        ∀ j ∈ g.cores, (u.agent j).drainReq ≠ none ∨ (u.agent j).drainRpc ≠ none)

/-- R318: a core reset that is requested and may be made zeroes the cores and scratchpads of its die and nothing else in memory; an
uncore reset zeroes its pools and queues as well, and restarts its epochs at 1. -/
def Resets : Prop :=
  ∀ (d : BitVec 2) (s : State), coreIdle s d = true →
    let fresh (u : State) : Prop := u.sig = .none ∧
      (∀ k, k < 512 → dieOf k = d → (u.agent k).task = none ∧ (∀ i, (u.agent k).rs i = 0) ∧ (∀ i, (u.agent k).rv i = 0) ∧
        (∀ off, off < 2 ^ 20 → byteAt u (spAddr k off) = (0, false) ∧ isFull u (spAddr k off) = false))
    ((s.die d).dctl.getLsbD 0 = true →
      ∃ u, exec (.coreReset d) s = .next u ∧ fresh u ∧ (u.die d).dctl.getLsbD 0 = false ∧
        ∀ pa, inDieSp d pa = false → byteAt u pa = byteAt s pa) ∧
    ((s.die d).dctl.getLsbD 1 = true → bound s d = false →
      ∃ u, exec (.uncoreReset d) s = .next u ∧ fresh u ∧ (u.die d).dctl = 0 ∧ (u.die d).active = Bank.empty ∧
        (u.die d).saves = [] ∧ (u.die d).splices = [] ∧
        (∀ pa, inPool d pa = true → byteAt u pa = (0, false)) ∧
        (∀ k, k < 512 → dieOf k = d → u.epochs[k]? = some 1) ∧
        ∀ pa, inDieSp d pa = false → inPool d pa = false → byteAt u pa = byteAt s pa)

/-! ### The partition controller -/


/-- R311, R312, R316: CREATE makes a well-formed context on every die of its partition, and answers INVALID for a bad record and
NO_SPACE for a slot in use, and INVALID too while the function's interface is in ERROR, when no record can be read; DESTROY
clears a context that nothing in its partition uses and answers BUSY for one in use. -/
def Contexts : Prop :=
  ∀ (p : BitVec 2) (c : BitVec 32) (arg : Word) (s : State),
    let slot := c.toNat / 256 % 256
    let b := (List.range 256).map fun i => (byteAt s (2 ^ 64 + (arg.toNat + i) % 2 ^ 64)).1
    let done (u : State) (code : BitVec 32) : Prop := u.sig = .none ∧ resOf u p = code ∧ u.xd0.queue = s.xd0.queue.tail
    (heads s p c arg 1 →
      (parseCtx b = none ∨ (s.pf p).tdi = .error → ∃ u, exec .create s = .next u ∧ done u 2 ∧ u.dies = s.dies) ∧
      (∀ x, parseCtx b = some x → (s.pf p).tdi ≠ .error → assigned s p = false → slot < 64 → vdtOk s p.toNat x.vdt = true →
        (∀ y ∈ allCtxs s p.toNat, y.2.pasid ≠ x.pasid) →
        (findCtx s p.toNat slot ≠ none → ∃ u, exec .create s = .next u ∧ done u 3 ∧ u.dies = s.dies) ∧
        (findCtx s p.toNat slot = none → ∃ u, exec .create s = .next u ∧ done u 0 ∧
          ∀ d, partOfDie s.xd0.mode d = p.toNat → kfind (u.die d).active.ctxs slot = some x))) ∧
    (heads s p c arg 2 → assigned s p = false → slot < 64 →
      (findCtx s p.toNat slot = none → ∃ u, exec .destroy s = .next u ∧ done u 0 ∧ u.dies = s.dies) ∧
      (∀ x, findCtx s p.toNat slot = some x →
        (destroyBusy s p.toNat x = true → ∃ u, exec .destroy s = .next u ∧ done u 1 ∧ u.dies = s.dies) ∧
        (destroyBusy s p.toNat x = false → ∃ u, exec .destroy s = .next u ∧ done u 0 ∧
          ∀ d, partOfDie s.xd0.mode d = p.toNat → kfind (u.die d).active.ctxs slot = none)))

/-- R315, R317, R319, R343: SWAP exchanges the banks of an idle partition and completes later; RETIRE holds a die's core domain in reset;
MODE changes the mode of an empty, idle package; REVOKE stops the launches whose claims overlap its range, and its completion
drops their leases. -/
def PartitionCommands : Prop :=
  ∀ (p : BitVec 2) (c : BitVec 32) (arg : Word) (s : State),
    let slot := c.toNat / 256 % 256
    let a := c.toNat / 65536 % 256
    let done (u : State) (code : BitVec 32) : Prop := u.sig = .none ∧ resOf u p = code ∧ u.xd0.queue = s.xd0.queue.tail
    (heads s p c arg 3 →
      ((∃ x ∈ activeCtxs s p.toNat, inUse s p.toNat x.2.pasid = true) → ∃ u, exec .swap s = .next u ∧ done u 1 ∧ u.dies = s.dies) ∧
      ((∀ x ∈ activeCtxs s p.toNat, inUse s p.toNat x.2.pasid = false) → ∃ u, exec .swap s = .next u ∧ u.sig = .none ∧
        u.xd0.busy = true ∧ ∀ d, partOfDie s.xd0.mode d = p.toNat →
          (u.die d).active.ctxs = (s.die d).shadow.ctxs ∧ (u.die d).shadow.ctxs = (s.die d).active.ctxs ∧
          (u.die d).tlb = [] ∧ (u.die d).upper = [] ∧ (u.die d).icache = [])) ∧
    ((∃ r, s.xd0.queue = .mailbox p c arg :: r) → s.xd0.busy = true → s.xd0.revoke = none →
      ∃ u, exec .swapComplete s = .next u ∧ done u 0 ∧ u.xd0.busy = false) ∧
    (heads s p c arg 5 → a < 4 →
      (bound s (BitVec.ofNat 2 a) = true → ∃ u, exec .retire s = .next u ∧ done u 1 ∧ u.dies = s.dies) ∧
      (bound s (BitVec.ofNat 2 a) = false → ∃ u, exec .retire s = .next u ∧ done u 0 ∧
        (u.die (BitVec.ofNat 2 a)).retired = true ∧ (u.die (BitVec.ofNat 2 a)).crst = true ∧
        BitVec.ofNat 2 a ∈ u.xd0.retire)) ∧
    (heads s p c arg 4 →
      (3 ≤ a → ∃ u, exec .mode s = .next u ∧ done u 2 ∧ u.xd0.mode = s.xd0.mode) ∧
      (a = s.xd0.mode.toNat → a < 3 → ∃ u, exec .mode s = .next u ∧ done u 0 ∧ u.dies = s.dies) ∧
      (a ≠ s.xd0.mode.toNat → a < 3 → (∀ q, assigned s q = false) → (∀ d, allCtxs s (partOfDie s.xd0.mode d) = []) →
        (∀ d, coreIdle s d = true) → (∀ q, hostAsked s q = false) →
        ∃ u, exec .mode s = .next u ∧ done u 0 ∧ u.xd0.mode.toNat = a)) ∧
    (heads s p c arg 6 →
      (64 ≤ slot → ∃ u, exec .revoke s = .next u ∧ done u 2 ∧ u.dies = s.dies) ∧
      (slot < 64 → (s.pf p).tdi ≠ .error →
        let b := (List.range 16).map fun i => (byteAt s (2 ^ 64 + (arg.toNat + i) % 2 ^ 64)).1
        let ls := overlapped s p.toNat slot (fieldNat b 0 8) (fieldNat b 8 8)
        slotsFor s (ls.flatMap fun x => gangCores s x.1 x.2) = true →
        ∃ u, exec .revoke s = .next u ∧ u.sig = .none ∧ u.xd0.busy = true ∧
          u.xd0.revoke = some (slot, fieldNat b 0 8, fieldNat b 8 8) ∧
          ∀ x ∈ ls, ∀ m ∈ (u.die x.1).active.launches, m.id = x.2.id → m.eligible = false)) ∧
    (∀ base len, s.xd0.revoke = some (slot, base, len) → (∃ r, s.xd0.queue = .mailbox p c arg :: r) → s.xd0.busy = true →
      let ls := overlapped s p.toNat slot base len
      (∀ x ∈ ls, gangCores s x.1 x.2 = []) →
      (∀ x, findCtx s p.toNat slot = some x → ∀ k ∈ allStakes (ls.foldl dropLease s), k.meets x.pasid base len = false) →
      ∃ u, exec .revokeComplete s = .next u ∧ done u 0 ∧ u.xd0.busy = false ∧ u.xd0.revoke = none ∧
        ∀ x ∈ ls, ∀ m ∈ (u.die x.1).active.launches, m.id = x.2.id → m.lease = none)

/-- R314, R320: KEYLOAD takes a key that its session's tag confirms, KEYMAP maps pages to a key slot; both answer INVALID for what their
record may not hold. -/
def Keys : Prop :=
  ∀ (c : BitVec 32) (arg : Word) (s : State),
    let bytes (n : Nat) := (List.range n).map fun i => (byteAt s (2 ^ 64 + (arg.toNat + i) % 2 ^ 64)).1
    let b := bytes 112
    let part (lo n : Nat) : List Byte := (b.drop lo).take n
    let ks := fieldNat b 0 2
    let e := bytes 16
    let done (u : State) (code : BitVec 32) : Prop := u.sig = .none ∧ resOf u 0 = code ∧ u.xd0.queue = s.xd0.queue.tail
    (heads s 0 c arg 7 →
      (ks = 0 ∨ 1023 < ks ∨ (s.pf 0).sessions.contains (fieldNat b 4 4) = false →
        ∃ u, exec .keyload s = .next u ∧ done u 2 ∧ u.xd0.keys = s.xd0.keys) ∧
      (1 ≤ ks → ks ≤ 1023 → fieldNat b 2 2 = 0 → fieldNat b 100 12 = 0 →
        (s.pf 0).sessions.contains (fieldNat b 4 4) = true → (s.pf 0).tdi ≠ .error →
        let opened := Config.gcmOpen (fieldNat b 4 4) (part 8 12) (part 0 8) (part 20 64) (part 84 16)
        ∃ u, exec .keyload s = .next u ∧ (opened = none → done u 2 ∧ u.xd0.keys = s.xd0.keys) ∧
          ∀ key, opened = some key → done u 0 ∧ (key.length = 64 → kfind u.xd0.keys ks = some key))) ∧
    (heads s 0 c arg 8 →
      let first := fieldNat e 0 4
      let count := fieldNat e 4 4
      let slot := fieldNat e 8 2
      (keyMapSize < first + count ∨ count = 0 ∨ 1023 < slot →
        ∃ u, exec .keymap s = .next u ∧ done u 2 ∧ u.xd0.keymap = s.xd0.keymap) ∧
      (first + count ≤ keyMapSize → count ≠ 0 → slot ≤ 1023 → fieldNat e 10 6 = 0 → (∀ q, assigned s q = false) →
        (s.pf 0).tdi ≠ .error →
        ∃ u, exec .keymap s = .next u ∧ done u 0 ∧
          ∀ i, first ≤ i → i < first + count → (kget 0 u.xd0.keymap i).toNat = slot))

/-! ### The package -/

/-- R374 to R376: power comes on with the stacks as they were and all else at reset; LOAD, the verification of the image and the start of
the dies, each in its phase. As the dies start, everything of a die is at its reset value but that its firmware runs and that a
retired die stays so, and no event counter, snapshot, path or flow of an earlier image is left. -/
def Boot : Prop :=
  ∀ s : State,
    let img := (List.range s.xd0.blen.toNat).map fun i => homeByte s (2 ^ 64 + (s.xd0.baddr.toNat + i) % 2 ^ 64)
    (s.powered = true → s.xd0.phase = 0 → ∃ u, exec .powerOn s = .next u ∧ u.sig = .none ∧ u.xd0.phase = 1 ∧ u.mem = s.mem ∧
      ∀ d, (u.die d).retired = s.xd0.retire.contains d) ∧
    (s.powered = false → ∃ u, exec .powerOn s = .next u ∧ u.powered = true ∧ u.xd0.phase = 1 ∧ u.xd0.retire = s.xd0.retire ∧
      u.writes = [] ∧ u.core = State.reset.core ∧
      ∀ pa, memGet u.mem pa = if regionOf pa = .stack ∨ regionOf pa = .host then memGet s.mem pa else 0) ∧
    (s.xd0.busy = false → s.xd0.queue.head? = some .load → s.xd0.phase = 1 ∨ s.xd0.phase = 4 ∨ s.xd0.phase = 5 →
      (anyContext s = true → ∃ u, exec .load s = .next u ∧ u.xd0.phase = s.xd0.phase ∧ u.xd0.err = 6 ∧
        u.xd0.queue = s.xd0.queue.tail) ∧
      (anyContext s = false → ∃ u, exec .load s = .next u ∧ u.xd0.phase = 2 ∧ u.xd0.err = 0 ∧ u.xd0.busy = true)) ∧
    (s.xd0.phase = 2 → ∃ u, exec .imageVerification s = .next u ∧ u.sig = .none ∧ u.xd0.err = imageError s img ∧
      (imageError s img ≠ 0 → u.xd0.phase = 5 ∧ u.xd0.image = s.xd0.image) ∧
      (imageError s img = 0 → u.xd0.phase = 3 ∧ u.xd0.image = img.map (·.val))) ∧
    (s.xd0.phase = 3 → (∀ d, coreIdle s d = true) → ∃ u, exec .startingDiesDone s = .next u ∧ u.xd0.phase = 4 ∧
      u.xd0.keys = [] ∧ u.xd0.keymap = [] ∧ u.cmds = [] ∧ u.events = [] ∧ u.eventsSh = [] ∧ u.snaps = [] ∧ u.paths = [] ∧
      u.flows = [] ∧
      (∀ d : BitVec 2, (u.agent (512 + d.toNat)).run = .running ∧ u.die d = { DieState.reset with
        up := true, retired := (s.die d).retired, crst := (s.die d).retired }) ∧
      ∀ pa, regionOf pa = .stack → byteAt u pa = (0, false))

/-- R308, R310, R359, R360, R364, R366: a request on BAR0: a function that is dormant or in ERROR answers nothing, and in RUN none
that comes outside its IDE stream; a read of device memory of the own partition answers its bytes, poisoned where no route
leads, a write of it changes those to which a route leads, and no other byte; elsewhere a read is an Unsupported Request, and a write changes nothing. -/
def Bar0 : Prop :=
  ∀ (p : BitVec 2) (ide : Bool) (a len : Nat) (data : List Byte) (s : State), 0 < len → a + len ≤ 2 ^ 40 → data.length = len →
    let owned := ∀ i, i < len → regionOf (a + i) ≠ .control ∧ regionOf (a + i) ≠ .none ∧ regionOf (a + i) ≠ .host ∧
      partOwns s.xd0.mode p.toNat (a + i) = true
    let refused : Res := .next { s with sig := .none, bar0 := none, bar0Bad := false }
    let bytes := (List.range len).map fun i => if linked s hostSocket (a + i) then byteAt s (a + i) else (0, true)
    ((s.pf p).active = false ∨ (s.pf p).tdi = .error ∨ ((s.pf p).tdi = .run ∧ ide = false) → ∀ w,
      exec (.bar0Request p ⟨ide, w⟩ a len data) s = refused) ∧
    (barOpen s p ide = true →
      (owned → exec (.bar0Request p ⟨ide, false⟩ a len data) s = .next { s with
        sig := .none, bar0 := some (bytes.map (·.1)), bar0Bad := bytes.any (·.2) }) ∧
      ((∃ i, i < len ∧ (regionOf (a + i) = .none ∨ regionOf (a + i) = .host)) → ∀ w,
        exec (.bar0Request p ⟨ide, w⟩ a len data) s = refused) ∧
      (owned → Config.controlEnd ≤ a →
        ∃ u, exec (.bar0Request p ⟨ide, true⟩ a len data) s = .next u ∧ u.sig = .none ∧ u.bar0 = some [] ∧ u.core = s.core ∧
          (∀ i, i < len → byteAt u (a + i) = if linked s hostSocket (a + i) then (data.getD i 0, false) else byteAt s (a + i)) ∧
          ∀ pa, pa < a ∨ a + len ≤ pa → byteAt u pa = byteAt s pa))

/-- R17, R361, R362: the power manager's cuts, which lower rates and raise none, their end, the thermal throttle and its end, and the
shutdown. -/
def PowerAndCooling : Prop :=
  ∀ (w tj : Nat) (rates : List (BitVec 4)) (s : State),
    let now (u : State) : Prop := u.sig = .none ∧ u.mem = s.mem ∧ u.writes = s.writes
    let rate (u : State) (d : BitVec 2) : Nat := (u.xd0.rates.get d.toFin).toNat
    let given (d : BitVec 2) : Nat := if (rates.getD d.toNat 0) = 0 then 16 else (rates.getD d.toNat 0).toNat
    (s.xd0.pwrcap.toNat < w ∨ 950 < tj → tj ≤ 1100 → rates.length = 4 → (∀ d, given d ≤ rate s d) →
      (∃ d, given d ≠ rate s d) →
      ∃ u, exec (.powerCut w tj rates) s = .next u ∧ now u ∧ u.xd0.cutting = true ∧ ∀ d, rate u d = given d) ∧
    (s.xd0.cutting = true → w ≤ s.xd0.pwrcap.toNat → tj ≤ 950 →
      ∃ u, exec (.powerCutEnd w tj) s = .next u ∧ now u ∧ u.xd0.cutting = false ∧ u.xd0.hot = false ∧ ∀ d, rate u d = 16) ∧
    (1100 < tj → s.xd0.hot = false →
      ∃ u, exec (.thermalThrottle tj) s = .next u ∧ now u ∧ u.xd0.hot = true ∧ ∀ d, rate u d = 1) ∧
    (tj ≤ 1100 → s.xd0.hot = true →
      ∃ u, exec (.thermalThrottle tj) s = .next u ∧ now u ∧ u.xd0.hot = false ∧ ∀ d, rate u d = rate s d) ∧
    (1150 < tj → s.xd0.hot = true → s.xd0.hotAt + 13000000 ≤ s.time →
      exec (.thermalShutdown tj) s = .next { s with sig := .none, powered := false })

/-- R364, R366, R367, R377: the functions. FUNCTION_LEVEL_RESET stops the interface of a function and destroys its contexts that
nothing uses, and a second step ends a reset that had to wait; IDE_INTEGRITY_FAILURE stops the interface; TDISP_MESSAGE moves
it, within a secured session with the function alone; SPDM_REQUEST opens and closes sessions and answers the identity key, the
certificate chain and measurements; MSIX_UNMASK unmasks a
vector and sends what is pending; MSIX_HOLDOFF ends a vector's microsecond, with one message for the events since. -/
def Functions : Prop :=
  ∀ (p : BitVec 2) (m : TdispMsg) (n i : Nat) (v : BitVec 7) (s : State),
    let f := s.pf p
    let part := p.toNat
    (f.flr = false ∨ f.active = false →
      ∃ u, exec (.functionLevelReset p) s = .next u ∧ u.sig = .none ∧ (u.pf p).tdi = .error ∧
        (f.active = true → ∀ k c, k < 64 → findCtx s part k = some c → c.broken = true ∨ inUse s part c.pasid = false →
          findCtx u part k = none)) ∧
    (f.active = true → f.flr = true → slotsOf (destroyIdle (destroyShadow (discardAll s part) part) part) part = [] →
      ∃ u, exec (.functionLevelReset p) s = .next u ∧ u.sig = .none ∧ (u.pf p).flr = false ∧ slotsOf u part = []) ∧
    (∃ u, exec (.ideIntegrityFailure p) s = .next u ∧ u.sig = .none ∧ (u.pf p).tdi = .error) ∧
    ((∀ i, m.session = some i → i ∉ f.sessions) →
      exec (.tdispMessage p m) s = .next (s.setPf p { f with spdm := none }).clear) ∧
    (∀ i, m.session = some i → i ∈ f.sessions → exec (.tdispMessage p m) s = .next (s.setPf p { f with
      tdi := (match m.kind with
        | .lock => if f.tdi = .unlocked then .locked else f.tdi
        | .start => if f.tdi = .locked then .run else f.tdi
        | .stop => .unlocked), spdm := some [] }).clear) ∧
    (∃ u, exec (.spdmRequest p (.openSession n)) s = .next u ∧ u.core = s.core ∧ n ∈ (u.pf p).sessions) ∧
    (∃ u, exec (.spdmRequest p (.closeSession n)) s = .next u ∧ u.core = s.core ∧ n ∉ (u.pf p).sessions) ∧
    exec (.spdmRequest p .identityKey) s = .next (s.setPf p { f with spdm := some Config.identityKey }).clear ∧
    exec (.spdmRequest p .certificateChain) s = .next (s.setPf p { f with spdm := some Config.certificateChain }).clear ∧
    exec (.spdmRequest p (.measurement i)) s = .next (s.setPf p { f with spdm := measurement s p i }).clear ∧
    exec (.spdmRequest p (.keyTraffic n)) s = .next (s.setPf p { f with
      spdm := if f.sessions.contains n then some [] else none }).clear ∧
    (v.toNat < 80 → ∃ u, exec (.msixUnmask p v) s = .next u ∧ u.core = s.core ∧ (u.pf p).mask.getLsbD v.toNat = false ∧
      (f.pending.getLsbD v.toNat = false → u.msix = s.msix) ∧
      (f.pending.getLsbD v.toNat = true → f.active = true → f.tdi ≠ .error → heldOff s f v.toNat = false →
        u.msix = (p.toNat, v.toNat) :: s.msix)) ∧
    (v.toNat < 80 → (kfind f.sent v.toNat).isSome = true → heldOff s f v.toNat = false →
      (f.again.getLsbD v.toNat = false → exec (.msixHoldoff p v) s = .next (s.setPf p { f with
        sent := kdel f.sent v.toNat, again := f.again &&& ~~~(1#80 <<< v.toNat) }).clear) ∧
      (f.again.getLsbD v.toNat = true → f.active = true → f.tdi ≠ .error → f.mask.getLsbD v.toNat = false →
        ∃ u, exec (.msixHoldoff p v) s = .next u ∧ u.core = s.core ∧ u.msix = (p.toNat, v.toNat) :: s.msix ∧
          (u.pf p).again.getLsbD v.toNat = false))

/-- R90, R116, R218, R348, R349, R359, R373: errors and links. MACHINE_CHECK_ERROR logs an entry; an uncorrectable one of a face
unit fails the piece that runs on it, unless the piece has written already, and one of severity 2 retires its die, breaks the
contexts that it is bound in, and takes the links of its stop down where the uncore no longer works. FACE_UNIT_RETIRE takes
effect at once for a unit that no piece holds and else waits as a request. FLIT_CRC_FAILURE is a retry up to the eighth, and the
ninth takes the link down. LINK_TRAINING brings a port up with both its lanes. ACCUMULATOR_SOFT_ERROR and SOFT_ERROR mark the
element or byte that they strike, and the rung of a ladder that owns the element. -/
def Errors : Prop :=
  ∀ (d : BitVec 2) (unit sev : BitVec 8) (loc : BitVec 16) (pa : Nat) (st : BitVec 3) (n link : Nat) (again l0 l1 : Bool)
    (port : BitVec 7) (row : BitVec 11) (col : BitVec 5) (s : State),
    (1 ≤ unit.toNat → unit.toNat ≤ 7 → pa < 2 ^ 64 →
      (sev.toNat < 2 → ∃ u e, exec (.machineCheckError d unit sev loc pa) s = .next u ∧ u.core = s.core ∧
        (u.die d).mcprod = (s.die d).mcprod + 1 ∧ kfind (u.die d).mclog ((s.die d).mcprod.toNat % 256) = some e ∧
        e.unit = unit ∧ e.sev = sev ∧ e.loc = loc ∧ e.pa = pa ∧ (∀ x, byteAt u x = byteAt s x) ∧
        (unit = 5 → sev = 1 → ∀ c ∈ s.cmds, ∀ (i : Nat) (q : Piece), c.pieces[i]? = some q →
          q.site = .face → q.started = true → q.out = none → q.fate = 0 → q.wrote = false →
          q.home / 32 + 4 = loc.toNat % 16 → loc.toNat / 16 ∈ q.units →
          ∃ c' ∈ u.cmds, c'.id = c.id ∧ ∃ q' : Piece, c'.pieces[i]? = some q' ∧ q'.fate = 2 ∧ q'.failPa = pa)) ∧
      (sev = 2 → ∃ u, exec (.machineCheckError d unit sev loc pa) s = .next u ∧ (u.die d).retired = true ∧
        (u.die d).crst = true ∧ d ∈ u.xd0.retire ∧
        (∃ k, (Config.uncoreWorks d unit k = true → u.links = s.links) ∧
          (Config.uncoreWorks d unit k = false → ∀ l, (l = 12 + 2 * (d.toNat + 1) ∨ l = 12 + 2 * d.toNat ∨
            l = 13 + 2 * (d.toNat + 1) ∨ l = 1 + 2 * (d.toNat + 1)) → (kget ⟨0, false⟩ u.links l).down = true)) ∧
        ∀ e k c, kfind (s.die e).active.ctxs k = some c → c.vdt.contains (some d) = true →
          kfind (u.die e).active.ctxs k = some { c with broken := true })) ∧
    (n < 2560 → ∃ u, exec (.faceUnitRetire st n) s = .next u ∧ u.core = s.core ∧
      ((∀ p ∈ activeFaces s st.toNat, n ∉ p.units) → (4096 * st.toNat + n) ∈ u.faceOut) ∧
      ((∃ p ∈ activeFaces s st.toNat, n ∈ p.units) → (4096 * st.toNat + n) ∈ u.faceReq)) ∧
    (isLink link = true → (kget ⟨0, false⟩ s.links link).down = false →
      let r := if again then (kget ⟨0, false⟩ s.links link).retries else 0
      ∃ u, exec (.flitCrcFailure link again) s = .next u ∧ u.core = s.core ∧
        kget ⟨0, false⟩ u.links link = if r < 8 then ⟨r + 1, false⟩ else ⟨r, true⟩) ∧
    (∃ u, exec (.linkTraining port l0 l1) s = .next u ∧ u.core = s.core ∧
      (port.toNat ∈ u.ports ↔ l0 = true ∧ l1 = true) ∧ ∀ q, q ≠ port.toNat → (q ∈ u.ports ↔ q ∈ s.ports)) ∧
    (∃ u, exec (.accumulatorSoftError row col) s = .next u ∧ u.core.rowBad row.toNat = true ∧ u.core.acc = s.core.acc ∧
      ∀ l : BitVec 2, (s.core.ladder l).owns (row.toNat / 32) = true →
        (u.core.ladder l).pz.getLsbD (row.toNat / 32 - (s.core.ladder l).base.toNat) = true) ∧
    (n < 131072 → ∃ u, exec (.softError (.weightBuffer n)) s = .next u ∧ n ∈ u.core.wbufErr ∧ u.core.wbuf = s.core.wbuf) ∧
    ((regionOf pa = .stack ∨ (∃ k, regionOf pa = .sp k) ∨ ∃ k, regionOf pa = .pool k) →
      ∃ u, exec (.softError (.memory pa)) s = .next u ∧ (byteAt u pa).2 = true ∧
        ∀ x, x ≠ pa → byteAt u x = byteAt s x)

/-! ### Frames -/

/-- A slot instruction always answers a next state: it takes effect, or tells its bundle that it traps or holds (R157). -/
def SlotsAnswer : Prop := ∀ (i : Instr) (s : State), isEvent i = false → ∃ t, exec i s = .next t

/-- R52, R54, R141, R145: no slot instruction changes an `s`, `a`, `m`, `v`, `k` or `g` register, `fmt`, `fflags`, `tstat`, the
PC, `bcnt`, `dpc` or `dbgctl` as it issues, nor another agent: results land later. The accumulators change only by the slot 3
instructions that write them, and the weight buffer only by MWBF. -/
def SlotFrames : Prop :=
  ∀ (i : Instr) (s t : State), isEvent i = false → exec i s = .next t →
    t.core.s = s.core.s ∧ t.core.a = s.core.a ∧ t.core.m = s.core.m ∧ t.core.v = s.core.v ∧ t.core.k = s.core.k ∧
    t.core.g = s.core.g ∧ t.core.fmt = s.core.fmt ∧ t.core.fflags = s.core.fflags ∧ t.core.tstat = s.core.tstat ∧
    t.core.pc = s.core.pc ∧ t.core.bcnt = s.core.bcnt ∧ t.core.dpc = s.core.dpc ∧ t.core.dbgctl = s.core.dbgctl ∧
    t.coreId = s.coreId ∧ t.parked = s.parked ∧ t.time = s.time ∧
    (¬ writesAcc i → t.core.acc = s.core.acc) ∧ ((∀ l x b g, i ≠ .mwbf l x b g) → t.core.wbuf = s.core.wbuf)

/-- R60, R130, R157: no slot instruction writes memory as it issues: stores, atomics and commands write later, each by a step of its
own. Only the consuming forms empty full-empty bits. (Not said of the three splice instructions: a deadline that has come
passes before they act, and releases rows.) -/
def MemoryFrames : Prop :=
  ∀ (i : Instr) (s t : State), isEvent i = false → ¬ passesDeadline i → exec i s = .next t →
    (∀ pa, byteAt t pa = byteAt s pa) ∧ (¬ emptiesFull i → t.fe = s.fe)

/-! ### Landing -/

/-- R52, R53, R275: a write lands when it is due and not before; of two writes of one register due together the later issued stays; a
register without a due write keeps its value, and what is not due stays outstanding. `ld` falls by the loads among them (R275). -/
def Landing : Prop :=
  ∀ (s : State) (n : Nat),
    let u := landDue s n
    u.core.pend = s.core.pend.filter (fun p => n < p.due) ∧
    ((∀ p ∈ s.core.pend, n < p.due) → u = s) ∧
    (∀ i, (∀ p ∈ s.core.pend, p.due ≤ n → p.w.dest ≠ some (.s i)) → u.core.rs i = s.core.rs i) ∧
    (∀ i, (∀ p ∈ s.core.pend, p.due ≤ n → p.w.dest ≠ some (.v i)) → u.core.rv i = s.core.rv i) ∧
    (∀ l r q i x, s.core.pend = l ++ q :: r → q.w = .s i x → q.due ≤ n → i ≠ 0 →
      (∀ p ∈ r, p.due ≤ n → p.w.dest ≠ some (.s i)) → u.core.rs i = x) ∧
    (∀ l r q i x, s.core.pend = l ++ q :: r → q.w = .v i x → q.due ≤ n →
      (∀ p ∈ r, p.due ≤ n → p.w.dest ≠ some (.v i)) → u.core.rv i = x) ∧
    u.core.cnt = s.core.cnt.add 0 (-loadCount (s.core.pend.filter fun p => p.due ≤ n))

/-- R184, R185: an MTS to `fflags` and flags that fall due for one bundle: the MTS lands first and the flags are ORed into it,
in whichever order the two were issued. -/
def FlagLanding : Prop :=
  ∀ (s : State) (n : Nat) (p q : Pend) (x : Word) (f : Flags), p.due ≤ n → q.due ≤ n → p.w = .flags f → q.w = .sys 0x011 x →
    (s.core.pend = [p, q] ∨ s.core.pend = [q, p]) →
    (landDue s n).core.fflags = (x.setWidth 32 &&& 0x1F#32) ||| f.setWidth 32

/-- R184, R80, R175: what an MTS write does when it lands, for each system register of a task; registers it may not write keep
their value. -/
def SystemWrites : Prop :=
  ∀ (c : CoreState) (x : Word) (i : Fin 4),
    (c.sysWrite 0x010 x).fmt = x.setWidth 32 &&& 0xFFFFF#32 ∧
    (c.sysWrite 0x011 x).fflags = x.setWidth 32 &&& 0x1F#32 ∧
    (c.sysWrite 0x012 x).tstat = c.tstat &&& ~~~(x.setWidth 32) ∧
    (c.sysWrite 0x013 x).loops.depth = x.setWidth 3 ∧
    (c.sysWrite (0x014 + BitVec.ofNat 12 i.val) x).loops.lcnt.get i = x ∧
    (c.sysWrite (0x018 + BitVec.ofNat 12 i.val) x).loops.lbeg.get i = align16 x ∧
    (c.sysWrite (0x01C + BitVec.ofNat 12 i.val) x).loops.lend.get i = align16 x ∧
    (x.setWidth 32 ≠ 0#32 → (c.sysWrite 0x020 x).rsst = x.setWidth 32) ∧
    (x.setWidth 32 = 0#32 → (c.sysWrite 0x020 x).rsst = 1) ∧
    c.sysWrite 0x021 x = c ∧ c.sysWrite 0x022 x = c ∧
    (c.sysWrite 0x0D0 x).dbgctl = x.setWidth 32 &&& 1#32 ∧ (c.sysWrite 0x0D0 x).s = c.s ∧ (c.sysWrite 0x0D0 x).v = c.v

/-! ### Traps and steps -/

/-- R181, R305, R345: a trap suspends the task with the PC at which it would go on, and its event enters the die's queue behind
those there; a full queue freezes the suspension without an entry. The suspension record of the core shows the task and that PC.
No register and no byte changes, and no other die. -/
def TrapEntry : Prop :=
  ∀ (s : State) (t : TrapInfo) (pc : Word),
    let u := takeTrap s t pc
    let room := decide ((s.die s.here).events.length < 1024)
    u.core = { s.core with run := .suspended t s.time room, pc := pc, jump := none, post := none, after := [] } ∧ sameStore s u ∧
    (room = true → (u.die s.here).events = (s.die s.here).events ++ [⟨t, s.coreId, (s.core.task.map (·.pasid)).getD 0,
      if s.core.task.isSome then s.core.plane.wid else 0, s.time, false⟩]) ∧
    (room = false → (u.die s.here).events = (s.die s.here).events) ∧
    (∀ k, s.core.task = some k → kfind (u.die s.here).active.susp s.coreId =
      some ⟨s.core.plane.wid, k.pasid, pc, s.core.drainRpc.getD 0, 0, 0⟩) ∧
    (∀ d, d ≠ s.here → u.die d = s.die d) ∧ u.parked = s.parked

/-- R140, R157, R158, R338: a step at a running agent with nothing before it fetches the 16 bytes at the PC; a task through the
image cache. A decoded bundle whose registers are ready, and whose slots take effect, is one step: what is due lands, the
slots act in order, then come the next PC and the count. -/
def StepRunsBundle : Prop :=
  ∀ (s : State) (w : BitVec 128) (b : Bundle) (t : State), issuesNext s → fetch s = .ok w → decodeBundle w = .ok b →
    clash (bundleSlots b) = false →
    let s0 := landDue (ageLoads s) s.core.bcnt.toNat
    (∀ i ∈ bundleSlots b, illegalNumber s0 i = false) → notReady s0.core (bundleSlots b) = false →
    (∀ i ∈ bundleSlots b, earlyRead s0.core i = false) →
    slotsGive (bundleSlots b) s0 t →
    step s = .next { afterBundle t with time := t.time + 1 } ∧
    (t.core.post = none → (afterBundle t).core = { t.core with
      loops := (nextPc t.core).1, pc := (nextPc t.core).2, bcnt := t.core.bcnt + 1, jump := none, frz := 0 } ∧
      sameStore t (afterBundle t))

/-- R140, R338: the bundle at the PC is 16 bytes, little-endian, where a route leads to them: a task's at the address that the
image cache gives. -/
def Fetches : Prop :=
  ∀ (s : State) (pa : Nat),
    (∀ i, i < 16 → (byteAt s (pa + i)).2 = false) → reaches s s.here pa = true →
    ((isController s.coreId = true ∧ controllerByte s s.core.pc.toNat = none ∧ pa = s.core.pc.toNat) ∨
      (isController s.coreId = false ∧ physFault s true pa = none ∧
        ∃ e, tlbFind (s.die s.here).icache s.pasid s.core.pc.toNat = some e ∧ pa = e.pa + (s.core.pc.toNat - e.va))) →
    ∃ w, fetch s = .ok w ∧ ∀ i, i < 16 → w.extractLsb' (8 * i) 8 = (byteAt s (pa + i)).1

/-- R156, R157 stage 4: a bundle that holds an undefined pattern, two slots with one destination, a system register that it may not
name, or a slot that traps has no effect: its step takes the trap at its own PC, for the lowest slot that traps. The event of an
illegal bundle holds all its words. -/
def BundleTraps : Prop :=
  ∀ (s : State) (w : BitVec 128), issuesNext s → fetch s = .ok w →
    let s1 := ageLoads s
    let s0 := landDue s1 s.core.bcnt.toNat
    let takes (u : State) (t : TrapInfo) : Prop :=
      step s = .next { takeTrap (forget u) t s.core.pc with time := (takeTrap (forget u) t s.core.pc).time + 1 }
    let illegal : TrapInfo := { TrapInfo.mk0 0x03 1 s.core.pc 0 with words := w }
    (∀ e, decodeBundle w = .error e → takes s1 illegal) ∧
    (∀ b, decodeBundle w = .ok b → clash (bundleSlots b) = true ∨ (∃ i ∈ bundleSlots b, illegalNumber s0 i = true) →
      takes s0 illegal) ∧
    (∀ b pre i r t u e, decodeBundle w = .ok b → clash (bundleSlots b) = false →
      (∀ j ∈ bundleSlots b, illegalNumber s0 j = false) → notReady s0.core (bundleSlots b) = false →
      bundleSlots b = pre ++ i :: r → (∀ j ∈ pre ++ [i], earlyRead s0.core j = false) → slotsGive pre s0 t →
      exec i t = .next u → u.sig = .trapped e → takes s0 (withWords e w))

/-- R157 stage 5: a bundle with a slot that holds, and none that traps, has no effect: the agent freezes at it. -/
def BundleHolds : Prop :=
  ∀ (s : State) (w : BitVec 128) (b : Bundle) (pre r : List Instr) (i : Instr) (t u : State) (h : Hold) (a), issuesNext s →
    fetch s = .ok w → decodeBundle w = .ok b → clash (bundleSlots b) = false →
    let s0 := landDue (ageLoads s) s.core.bcnt.toNat
    (∀ j ∈ bundleSlots b, illegalNumber s0 j = false) → notReady s0.core (bundleSlots b) = false →
    bundleSlots b = pre ++ i :: r → slotsGive pre s0 t → exec i t = .next u →
    u.sig = .held h a → (runSlots s0 (bundleSlots b)).trap = none →
    ∃ v, issue s = .waits v ∧ v.core = { s0.core with frz := h.code } ∧ sameStore s0 v

/-! ### Encoding -/

/-- R140 to R155: words written out from the spec's encodings, one or more for every slot and format. -/
def DecodeWords : Prop :=
  decodeSlot 0 0x0450_0511 none = .ok (.sub ⟨5, 0, 5, false, 1⟩) ∧
  decodeSlot 0 0x0470_0490 none = .ok (.sub ⟨7, 0, 4, true, 0⟩) ∧
  decodeSlot 0 0x2010_0070 none = .ok (.movi 1 7 0) ∧
  decodeSlot 0 0x3011_4020 none = .ok (.cmp .lt ⟨1, 5, 0, false, 0⟩) ∧
  decodeSlot 0 0x86B0_2200 none = .ok (.mfs 43 0x022 0) ∧
  decodeSlot 0 0x500A_C000 none = .ok (.jmp 43 0) ∧
  decodeSlot 0 0x7800_0000 none = .ok (.drain 0) ∧
  decodeSlot 1 0x5480_0000 none = .ok (.wait 8 0 0) ∧
  decodeSlot 1 0x2831_0000 (some 8) = .ok (.ldv .plain 3 (.imm 1 512) 0) ∧
  decodeSlot 2 0x1C50_420B none = .ok (.vmax ⟨5, 1, 2, 0, .n32, false, false, 0⟩) ∧
  decodeSlot 3 0x4004_E400 none = .ok (.ldrcfg 0 19 36 0) ∧
  decodeSlot 3 0x4400_0200 none = .ok (.ldrstep 0 2 0) ∧
  decodeSlot 3 0x4800_0300 none = .ok (.ldrread 0 3 0) ∧
  decodeSlot 3 0x5140_0000 none = .ok (.ldrcnt 20 0 0) ∧
  decodeSlot 3 0x2630_4000 none = .ok (.acmova 35 32 0) ∧
  decodeBundle 0x0000_0000_1C50_420B_2831_0000_FC08_0000 =
    .ok ⟨true, .nop, .ldv .plain 3 (.imm 1 512) 0, .vmax ⟨5, 1, 2, 0, .n32, false, false, 0⟩, .mnop⟩

/-- R156: whatever a slot decodes to is within the limits of its own entry, and no row without an encoding is decoded. -/
def DecodesWellFormed : Prop :=
  ∀ (k : Nat) (w : BitVec 32) (e : Option Byte) (i : Instr), decodeSlot k w e = .ok i → i.WellFormed ∧ isEvent i = false

/-- R141 to R155: decoding the encoding of a well-formed instruction gives it back, with the byte that a header lends and, where it
needs none, without a header. -/
def DecodeEncode : Prop :=
  ∀ (i : Instr) (e : Enc), i.WellFormed → encode i = some e →
    decodeSlot e.slot e.word (some e.ext) = .ok i ∧ (e.needs = false → decodeSlot e.slot e.word none = .ok i)

/-- R141 to R156: a pattern that decodes is the only one of its slot for its instruction: encoding gives it back. (The all-zero word is
NOP in three slots, and is left out.) -/
def EncodeDecode : Prop :=
  ∀ (k : Nat) (w : BitVec 32) (b : Option Byte) (i : Instr), k < 4 → (k = 0 → b = none) → decodeSlot k w b = .ok i → i ≠ .nop →
    ∃ e, encode i = some e ∧ e.slot = k ∧ e.word = w ∧ (∀ x, b = some x → e.ext = x) ∧ (b = none → e.needs = false)

/-! ### Reset and the invariant -/

/-- R376, R318, R364, R367: right after power-on every core is held in reset with its registers zero, XD0 runs its ROM in mode 0, PF0
alone is active with every vector masked, epochs stand at 1, and LAT0 and PWRCAP hold their reset values. The zeros of registers and of
memory are the model's choice (log 5, 6). -/
def ResetState : Prop :=
  let s := State.reset
  s.powered = true ∧ s.xd0.phase = 0 ∧ s.xd0.mode = 0 ∧ s.xd0.lat0 = 0x0FA0 ∧ s.xd0.pwrcap = 4400 ∧ s.writes = [] ∧
  (∀ k, k < 512 → (s.agent k).run = .reset ∧ (∀ i, (s.agent k).rs i = 0) ∧ (∀ i, (s.agent k).rv i = 0) ∧
    (s.agent k).acc = [] ∧ (s.agent k).wbuf = [] ∧ (s.agent k).fmt = 0 ∧ (s.agent k).fflags = 0 ∧
    s.epochs[k]? = some 1) ∧
  (∀ d, (s.die d).up = false ∧ (s.die d).crst = true) ∧
  (s.pf 0).active = true ∧ (s.pf 1).active = false ∧ (s.pf 2).active = false ∧ (s.pf 3).active = false ∧
  (∀ p, (s.pf p).mask = BitVec.allOnes 80) ∧ ∀ pa, byteAt s pa = (0, false)

/-- The invariant holds at reset. -/
def ResetInv : Prop := Inv State.reset

/-- Every step keeps the invariant: memory stays canonical, and the mode stays one that R313 lets occur. -/
def InvKept : Prop := ∀ s t : State, Inv s → step s = .next t → Inv t

end Sys2Proof.Rules

/-! ### The obligations -/

/-- s0, g0 and k0 read as constants and cannot be written (R145). -/
def Obligations.FixedRegisters : Prop := Sys2Proof.Rules.FixedRegisters

/-- The all-zero word of slot 0 is NOP, which has no effect and takes a bundle; other words of opcode 0 are illegal (R183). -/
def Obligations.NopAndEmptySlots : Prop := Sys2Proof.Rules.EmptySlotsDoNothing

/-- CLZ, CTZ and POPC: encodings and counts (R163). -/
def Obligations.BitCounts : Prop := Sys2Proof.Rules.BitCounts

/-- A slot whose guard is false has no effect at all (R143). -/
def Obligations.FalseGuardHasNoEffect : Prop := Sys2Proof.Rules.FalseGuardHasNoEffect

/-- The two-operand integer instructions complete with their result, for every operand form (R160, R161). -/
def Obligations.IntegerArithmetic : Prop := Sys2Proof.Rules.IntegerResults ∧ Sys2Proof.Rules.SecondOperand

/-- Products, quotients, bit fields, SEL and the immediate moves complete with their result (R162, R164 to R166). -/
def Obligations.ProductsAndFields : Prop := Sys2Proof.Rules.ProductsAndQuotients ∧ Sys2Proof.Rules.FieldsAndMoves

/-- Compares, guard operations and scalar floating point complete with their result and flags; a reserved rounding mode traps (R167 to R172, R33). What the spec leaves open in it is the model's choice or reading: log entries 28, 29. -/
def Obligations.GuardsAndScalarFloats : Prop := Sys2Proof.Rules.GuardResults ∧ Sys2Proof.Rules.ScalarFloats ∧ Sys2Proof.Rules.ScalarFloatCompares

/-- Branches, calls, returns and hardware loops (R140, R173 to R175). -/
def Obligations.TransfersAndLoops : Prop := Sys2Proof.Rules.Transfers ∧ Sys2Proof.Rules.LoopEntry ∧ Sys2Proof.Rules.LoopStackFault ∧ Sys2Proof.Rules.LoopEnd

/-- GETF, GETID and HOPS; END, DRAIN, TRAP and BRK (R178 to R181). What the spec leaves open in it is the model's choice or reading: log entries 21, 58. -/
def Obligations.IdentityAndStops : Prop := Sys2Proof.Rules.Identity ∧ Sys2Proof.Rules.TaskStops

/-- SETFMT, MFS, MTS and ERET in task and in firmware mode: effects, landing and traps (R177, R182, R184, R305, R306). What the spec leaves open in it is the model's choice or reading: log entries 36, 106, 107. -/
def Obligations.SystemRegisters : Prop := Sys2Proof.Rules.SystemRegisters ∧ Sys2Proof.Rules.PrivilegeTrap ∧ Sys2Proof.Rules.FirmwareMode ∧ Sys2Proof.Rules.SystemWrites

/-- AMOV, AADD, ALEA, ASETM, and what a post-increment gives in each mode (R257 to R259). -/
def Obligations.AddressRegisters : Prop := Sys2Proof.Rules.AddressRegisters ∧ Sys2Proof.Rules.PostIncrement

/-- Loads that pass their checks issue, in scalar, vector, strided and gathered form (R260 to R266). What the spec leaves open in it is the model's choice or reading: log entries 38, 40, 45. -/
def Obligations.LoadsIssue : Prop := Sys2Proof.Rules.PlainLoads ∧ Sys2Proof.Rules.LoadIssue ∧ Sys2Proof.Rules.LaneLoads

/-- Consuming loads and FEWAIT take full granules, and hold while one is empty (R51, R261, R272). What the spec leaves open in it is the model's choice or reading: log entry 41. -/
def Obligations.FullEmpty : Prop := Sys2Proof.Rules.ConsumingLoads ∧ Sys2Proof.Rules.FullEmptyWait

/-- Stores that pass their checks join their store queue; a prefetch does nothing but its post-increment (R263 to R268). What the spec leaves open in it is the model's choice or reading: log entries 38, 45. -/
def Obligations.StoresIssue : Prop := Sys2Proof.Rules.Stores ∧ Sys2Proof.Rules.Prefetch

/-- Accesses that must be aligned and are not trap (R260, R261, R263 to R267, R269, R270, R272). What the spec leaves open in it is the model's choice or reading: log entry 45. -/
def Obligations.Alignment : Prop := Sys2Proof.Rules.Alignment

/-- AMO and CAS issue, and what each writes (R42, R269, R270). What the spec leaves open in it is the model's choice or reading: log entry 31. -/
def Obligations.Atomics : Prop := Sys2Proof.Rules.Atomics ∧ Sys2Proof.Rules.AtomicValues

/-- A store that drains changes exactly its own bytes (R130, R49). What the spec leaves open in it is the model's choice or reading: log entries 42, 43. -/
def Obligations.StoreDrains : Prop := Sys2Proof.Rules.StoreDrains

/-- A load performs granule by granule; an atomic reads and writes in one step, and changes no other byte (R130, R269, R270). What the spec leaves open in it is the model's choice or reading: log entries 11, 22, 40, 50. -/
def Obligations.LoadsAndAtomicsPerform : Prop := Sys2Proof.Rules.LoadPerforms ∧ Sys2Proof.Rules.AtomicActs

/-- ARRIVE, APPLY and JOIN change no byte's latest write (R130, R132, R134). -/
def Obligations.OrderSteps : Prop := Sys2Proof.Rules.OrderSteps

/-- Interlocked results and multicast stores land (R54, R68, R275). What the spec leaves open in it is the model's choice or reading: log entry 46. -/
def Obligations.ResultsAndMulticastLand : Prop := Sys2Proof.Rules.InterlockedLands ∧ Sys2Proof.Rules.MulticastLands

/-- FENCE and WAIT hold until their condition holds, and then complete without changing a byte (R134, R135, R276). What the spec leaves open in it is the model's choice or reading: log entry 44. -/
def Obligations.FencesAndWaits : Prop := Sys2Proof.Rules.Fences ∧ Sys2Proof.Rules.Waits

/-- Named barriers, at issue, at the record and at their wait, and snapshots (R277, R278, R280, R356). What the spec leaves open in it is the model's choice or reading: log entries 18, 54, 55. -/
def Obligations.Barriers : Prop := Sys2Proof.Rules.BarrierOperations ∧ Sys2Proof.Rules.BarrierRecord ∧ Sys2Proof.Rules.BarrierWait ∧ Sys2Proof.Rules.Snapshots

/-- COPY, COPYM and RELAY issue; RELAY traps on a bad shape, all three on a window out of reach (R68, R229, R232, R233, R235, R236, R238). What the spec leaves open in it is the model's choice or reading: log entries 60, 61, 64, 65. -/
def Obligations.CopyCommands : Prop := Sys2Proof.Rules.CopyCommands ∧ Sys2Proof.Rules.RelayCommand

/-- Tensor commands issue when their shapes, claims and room allow it; PLACEQ's faults (R229, R232, R239, R244). What the spec leaves open in it is the model's choice or reading: log entries 60, 61, 62, 75. -/
def Obligations.TensorCommands : Prop := Sys2Proof.Rules.TensorCommands ∧ Sys2Proof.Rules.PlaceqFaults

/-- KVFIND, KVAPP, KVFREE, SETBAND and ATTN issue their command; the steps of a KVAPP (R98, R100, R102, R103, R245 to R247). What the spec leaves open in it is the model's choice or reading: log entries 60, 61, 79, 81, 147. -/
def Obligations.AttentionAndLocator : Prop := Sys2Proof.Rules.LocatorCommands ∧ Sys2Proof.Rules.KvAppend ∧ Sys2Proof.Rules.Attention ∧ Sys2Proof.Rules.Allocations ∧ Sys2Proof.Rules.AppendSteps

/-- NXWR, NXRD and NXAMO issue their command; NXWAIT and NXSTAT (R249, R251 to R253, R370, R371). What the spec leaves open in it is the model's choice or reading: log entries 90, 91. -/
def Obligations.NetworkCommands : Prop := Sys2Proof.Rules.NetworkCommands ∧ Sys2Proof.Rules.NetworkWaits

/-- SPLOPEN, SPLCLOSE and SPLSTAT (R119, R121, R128). What the spec leaves open in it is the model's choice or reading: log entries 82, 84, 86. -/
def Obligations.SpliceOpens : Prop := Sys2Proof.Rules.SpliceOpen ∧ Sys2Proof.Rules.SpliceCloseAndStatus

/-- SPLARV's answers, what an arriving row does, a release, and what a deadline does (R122 to R127). What the spec leaves open in it is the model's choice or reading: log entries 63, 82, 83, 84, 85, 149. -/
def Obligations.SpliceRows : Prop := Sys2Proof.Rules.SpliceArrivalAnswer ∧ Sys2Proof.Rules.SpliceRows ∧ Sys2Proof.Rules.SpliceReleases ∧ Sys2Proof.Rules.SpliceDeadlines

/-- LAUNCH issues its command; which launch records are refused, and by which code (R254, R324, R325, R329). What the spec leaves open in it is the model's choice or reading: log entries 25, 63, 95. -/
def Obligations.Launches : Prop := Sys2Proof.Rules.LaunchCommand ∧ Sys2Proof.Rules.LaunchWaits ∧ Sys2Proof.Rules.LaunchRefusals

/-- Event counters, and launches from a host window (R326 to R328, R359). What the spec leaves open in it is the model's choice or reading: log entries 95, 116. -/
def Obligations.HostLaunches : Prop := Sys2Proof.Rules.EventCounters ∧ Sys2Proof.Rules.HostLaunches

/-- Claims become resident, translations arrive and refill the caches, pages are answered and ranges invalidated (R44, R337, R338, R340, R342). What the spec leaves open in it is the model's choice or reading: log entries 9, 96, 100, 138, 139. -/
def Obligations.Translations : Prop := Sys2Proof.Rules.ClaimResidency ∧ Sys2Proof.Rules.TranslationArrives ∧ Sys2Proof.Rules.PageResponses ∧ Sys2Proof.Rules.Invalidations

/-- Gangs are placed, planes written and the latency bound met (R14, R330, R331, R333, R334). What the spec leaves open in it is the model's choice or reading: log entries 98, 145, 146. -/
def Obligations.Placement : Prop := Sys2Proof.Rules.Placement ∧ Sys2Proof.Rules.PlaneWrites ∧ Sys2Proof.Rules.LatencyBound

/-- A task starts on a zeroed core, ends after its waits and leaves a zeroed core behind (R6, R11, R16, R49, R50, R179). What the spec leaves open in it is the model's choice or reading: log entries 5, 98, 99. -/
def Obligations.TaskLife : Prop := Sys2Proof.Rules.TaskStart ∧ Sys2Proof.Rules.TaskEnds ∧ Sys2Proof.Rules.CoreReturns

/-- A drain diverts a task, saves it and resumes it (R180, R345, R351 to R355). What the spec leaves open in it is the model's choice or reading: log entries 56, 57, 58, 140. -/
def Obligations.Drains : Prop := Sys2Proof.Rules.Diversion ∧ Sys2Proof.Rules.Saves ∧ Sys2Proof.Rules.TaskResumes

/-- Lanewise integer, logic and move instructions complete with their lanes under the mask (R187, R191, R198, R200 to R202). -/
def Obligations.VectorIntegers : Prop := Sys2Proof.Rules.VectorIntegers ∧ Sys2Proof.Rules.VectorMoves

/-- Lanewise floating-point instructions and functions complete with their lanes and flags (R190, R192 to R195). What the spec leaves open in it is the model's choice or reading: log entries 28, 31. -/
def Obligations.VectorFloats : Prop := Sys2Proof.Rules.VectorFloats ∧ Sys2Proof.Rules.VectorFunctions

/-- Conversions, packing, reductions and compression complete (R196, R197, R199, R203 to R205). What the spec leaves open in it is the model's choice or reading: log entries 31, 34. -/
def Obligations.VectorConversions : Prop := Sys2Proof.Rules.VectorConversions ∧ Sys2Proof.Rules.VectorReductions

/-- Mask instructions and sumps (R206, R208 to R210, R212, R255). What the spec leaves open in it is the model's choice or reading: log entry 37. -/
def Obligations.MasksAndSumps : Prop := Sys2Proof.Rules.Masks ∧ Sys2Proof.Rules.Sumps

/-- MWBF, MLDB and the beats of the matrix array (R216 to R221, R226). What the spec leaves open in it is the model's choice or reading: log entry 35. -/
def Obligations.WeightsAndBeats : Prop := Sys2Proof.Rules.WeightBuffer ∧ Sys2Proof.Rules.Beats ∧ Sys2Proof.Rules.IntegerBeats

/-- MZERO, ACMOVV, ACMOVA, ACLD and ACST (R222 to R226). What the spec leaves open in it is the model's choice or reading: log entry 47. -/
def Obligations.AccumulatorMoves : Prop := Sys2Proof.Rules.AccumulatorMoves

/-- Ladder instructions, the chain of a step and images (R108 to R114, R117). What the spec leaves open in it is the model's choice or reading: log entries 53, 151. -/
def Obligations.Ladders : Prop := Sys2Proof.Rules.Ladders ∧ Sys2Proof.Rules.LadderChains ∧ Sys2Proof.Rules.LadderImages

/-- An engine's writes, pieces and locator steps, and how a command retires (R51, R77, R79, R99, R101, R107, R122, R130, R232). What the spec leaves open in it is the model's choice or reading: log entries 65, 73, 76, 79, 80, 81, 147, 149, 153. -/
def Obligations.EngineSteps : Prop := Sys2Proof.Rules.EngineWrites ∧ Sys2Proof.Rules.CommandRetires ∧ Sys2Proof.Rules.Pieces ∧ Sys2Proof.Rules.LocatorSteps

/-- Messages complete, paths change state, and requests of other modules are received (R250 to R253, R359, R371, R372). What the spec leaves open in it is the model's choice or reading: log entries 51, 89, 92, 93, 94. -/
def Obligations.NetworkSteps : Prop := Sys2Proof.Rules.MessageCompletes ∧ Sys2Proof.Rules.Paths ∧ Sys2Proof.Rules.NetworkReceives

/-- A controller takes its oldest event; writes of firmware registers (R305 to R307). What the spec leaves open in it is the model's choice or reading: log entries 103, 104, 106. -/
def Obligations.FirmwareEvents : Prop := Sys2Proof.Rules.EventEntry ∧ Sys2Proof.Rules.FirmwareRegisters

/-- Firmware's words for a core, and what core and uncore resets zero (R181, R318, R345). What the spec leaves open in it is the model's choice or reading: log entries 104, 108, 113. -/
def Obligations.CoreWordsAndResets : Prop := Sys2Proof.Rules.CoreWords ∧ Sys2Proof.Rules.Resets

/-- The partition controller's commands for contexts, banks, dies and leases (R311, R312, R315 to R317, R319, R343). What the spec leaves open in it is the model's choice or reading: log entries 109, 110, 111, 112, 141. -/
def Obligations.PartitionControl : Prop := Sys2Proof.Rules.Contexts ∧ Sys2Proof.Rules.PartitionCommands

/-- Key commands and the boot steps (R314, R319, R320, R362, R374, R376). What the spec leaves open in it is the model's choice or reading: log entries 12, 114, 115, 117, 118. -/
def Obligations.KeysAndBoot : Prop := Sys2Proof.Rules.Keys ∧ Sys2Proof.Rules.Boot

/-- Requests of the host's window, and power and cooling (R308, R310, R360 to R362, R364). What the spec leaves open in it is the model's choice or reading: log entries 116, 118, 119, 124, 125, 139. -/
def Obligations.HostAndPower : Prop := Sys2Proof.Rules.Bar0 ∧ Sys2Proof.Rules.PowerAndCooling

/-- Function resets, attestation and vectors; errors, their records and links (R90, R116, R218, R348, R349, R359, R364, R366, R367, R373, R377). What the spec leaves open in it is the model's choice or reading: log entries 52, 88, 102, 120, 121, 122, 123, 128, 143, 152. -/
def Obligations.FunctionsAndErrors : Prop := Sys2Proof.Rules.Functions ∧ Sys2Proof.Rules.Errors

/-- No slot instruction stops the machine: each answers a next state (R157; that it is one state is the model's form). What the spec leaves open in it is the model's choice or reading: log entry 2. -/
def Obligations.SlotsAnswer : Prop := Sys2Proof.Rules.SlotsAnswer

/-- What no slot instruction changes as it issues: registers, PC, other agents; accumulators and weights but for their writers (R52, R54, R141). What the spec leaves open in it is the model's choice or reading: log entry 2. -/
def Obligations.SlotFrames : Prop := Sys2Proof.Rules.SlotFrames

/-- No slot instruction writes a byte of memory as it issues, and only the consuming forms empty full-empty bits (R49, R60, R130). -/
def Obligations.MemoryFrames : Prop := Sys2Proof.Rules.MemoryFrames

/-- Exposed results land when they are due, in issue order, the flags after MTS (R52, R53, R184, R185, R275). What the spec leaves open in it is the model's choice or reading: log entries 129, 131. -/
def Obligations.Landing : Prop := Sys2Proof.Rules.Landing ∧ Sys2Proof.Rules.FlagLanding

/-- Taking a trap: saved PC, suspended task and its record, queued event, nothing else (R181, R305, R345). What the spec leaves open in it is the model's choice or reading: log entries 23, 58. -/
def Obligations.TrapEntry : Prop := Sys2Proof.Rules.TrapEntry

/-- A step runs the decoded bundle at the PC, with what is due before it and the next PC after it (R140, R157, R158, R338). What the spec leaves open in it is the model's choice or reading: log entries 3, 24. -/
def Obligations.StepRunsBundle : Prop := Sys2Proof.Rules.StepRunsBundle ∧ Sys2Proof.Rules.Fetches

/-- A bundle that is illegal or has a slot that traps or holds has no effect (R143, R156, R157, R306). What the spec leaves open in it is the model's choice or reading: log entries 3, 17, 18, 19, 20. -/
def Obligations.BundleTrapsAndHolds : Prop := Sys2Proof.Rules.BundleTraps ∧ Sys2Proof.Rules.BundleHolds

/-- Words of the spec decode to what the spec says; nothing ill-formed is decoded (R140 to R156). -/
def Obligations.DecodeWords : Prop := Sys2Proof.Rules.DecodeWords ∧ Sys2Proof.Rules.DecodesWellFormed

/-- Decoding and encoding agree in both directions, for every instruction and every word (R141 to R156). -/
def Obligations.DecodeEncode : Prop := Sys2Proof.Rules.DecodeEncode ∧ Sys2Proof.Rules.EncodeDecode

/-- The machine right after reset, and that the invariant holds there (R313, R318, R361, R364, R367, R376). What the spec leaves open in it is the model's choice or reading: log entries 5, 6, 7. -/
def Obligations.ResetState : Prop := Sys2Proof.Rules.ResetState ∧ Sys2Proof.Rules.ResetInv

/-- Every step keeps memory canonical and the mode legal; the canonical form is the model's, the modes are those of R313. What the spec leaves open in it is the model's choice or reading: log entry 6. -/
def Obligations.StepKeepsInvariant : Prop := Sys2Proof.Rules.InvKept
end

