-- ==== Sys2Proof/Laws/Memory.lean ====
section
/-! SUPPORT. Laws of the sorted stores and of memory: reads after writes, the canonical form, and that settling writes changes
no byte that a reader can tell. -/

namespace Sys2Proof.Machine

open Sys2Proof

variable {α : Type}

/-! ### Lists by key -/

theorem kget_eq_kfind (d : α) (l : List (Nat × α)) (x : Nat) : kget d l x = (kfind l x).getD d := by
  induction l with
  | nil => rfl
  | cons p r ih =>
    obtain ⟨k, v⟩ := p
    simp only [kget, kfind]
    split <;> simp [*]

theorem kfind_kset (l : List (Nat × α)) (x y : Nat) (v : α) :
    kfind (kset l x v) y = if x = y then some v else kfind l y := by
  induction l with
  | nil => simp [kset, kfind]
  | cons p r ih =>
    obtain ⟨k, w⟩ := p
    simp only [kset]
    split
    · by_cases h : x = y <;> simp [kfind, h]
    · split
      · subst_vars
        by_cases h : k = y <;> simp [kfind, h]
      · simp only [kfind, ih]
        by_cases h : k = y
        · have : ¬ x = y := by omega
          simp [h, this]
        · simp [h]

theorem kfind_kdel (l : List (Nat × α)) (x y : Nat) : kfind (kdel l x) y = if x = y then none else kfind l y := by
  induction l with
  | nil => simp [kdel, kfind]
  | cons p r ih =>
    obtain ⟨k, w⟩ := p
    simp only [kdel]
    by_cases h : k = x
    · subst h
      simp only [if_true, ih, kfind]
      by_cases h2 : k = y <;> simp [h2]
    · simp only [if_neg h, kfind, ih]
      by_cases h2 : k = y
      · have : ¬ x = y := by omega
        simp [h2, this]
      · simp [h2]

theorem kget_kput [DecidableEq α] (d : α) (l : List (Nat × α)) (x y : Nat) (v : α) :
    kget d (kput d l x v) y = if x = y then v else kget d l y := by
  rw [kget_eq_kfind, kget_eq_kfind, kput]
  split
  · rw [kfind_kdel]
    split <;> simp [*]
  · rw [kfind_kset]
    split <;> simp

theorem memGet_memSet (m : List Host.Cell) (a x : Nat) (b : Byte) :
    memGet (memSet m a b) x = if a = x then b else memGet m x := kget_kput 0 m a x b

theorem mem_sinsert (l : List Nat) (x y : Nat) : y ∈ sinsert l x ↔ y = x ∨ y ∈ l := by
  induction l with
  | nil => simp [sinsert]
  | cons k r ih =>
    simp only [sinsert]
    split
    · simp
    · split
      · subst_vars; simp
      · simp only [List.mem_cons, ih]
        constructor <;> rintro (h | h | h) <;> simp [h]

/-! ### The canonical form -/

/-- The canonical form by its two halves: no entry is 0, and addresses rise. -/
theorem wf_iff (m : List Host.Cell) :
    Memory.wf m = true ↔ (∀ c ∈ m, c.2 ≠ 0) ∧ m.Pairwise fun c d => c.1 < d.1 := by
  induction m with
  | nil => simp [Memory.wf]
  | cons p r ih =>
    obtain ⟨x, b⟩ := p
    cases r with
    | nil => simp [Memory.wf]
    | cons q t =>
      obtain ⟨y, c⟩ := q
      simp only [Memory.wf, Bool.and_eq_true, decide_eq_true_eq, ih, List.mem_cons, forall_eq_or_imp]
      constructor
      · rintro ⟨⟨hb, hxy⟩, h0, hp⟩
        refine ⟨⟨hb, h0⟩, List.pairwise_cons.2 ⟨?_, hp⟩⟩
        intro d hd
        rcases List.mem_cons.1 hd with rfl | hd
        · exact hxy
        · exact Nat.lt_trans hxy ((List.pairwise_cons.1 hp).1 d hd)
      · rintro ⟨⟨hb, h0⟩, hp⟩
        obtain ⟨h1, h2⟩ := List.pairwise_cons.1 hp
        exact ⟨⟨hb, h1 (y, c) (by simp)⟩, h0, h2⟩

theorem mem_kset {l : List (Nat × α)} {x : Nat} {v : α} {c : Nat × α} (h : c ∈ kset l x v) : c = (x, v) ∨ c ∈ l := by
  induction l with
  | nil => simpa [kset] using h
  | cons p r ih =>
    obtain ⟨k, w⟩ := p
    simp only [kset] at h
    split at h
    · simpa using h
    · split at h
      · rcases List.mem_cons.1 h with h | h <;> simp [h]
      · rcases List.mem_cons.1 h with h | h
        · simp [h]
        · rcases ih h with h | h <;> simp [h]

theorem kdel_sublist (l : List (Nat × α)) (x : Nat) : (kdel l x).Sublist l := by
  induction l with
  | nil => exact List.Sublist.slnil
  | cons p r ih =>
    obtain ⟨k, w⟩ := p
    simp only [kdel]
    split
    · exact ih.cons _
    · exact ih.cons_cons _

theorem kset_pairwise {l : List (Nat × α)} (h : l.Pairwise fun c d => c.1 < d.1) (x : Nat) (v : α) :
    (kset l x v).Pairwise fun c d => c.1 < d.1 := by
  induction l with
  | nil => simp [kset]
  | cons p r ih =>
    obtain ⟨k, w⟩ := p
    obtain ⟨h1, h2⟩ := List.pairwise_cons.1 h
    simp only [kset]
    split
    · next hx =>
      refine List.pairwise_cons.2 ⟨?_, h⟩
      intro c hc
      rcases List.mem_cons.1 hc with rfl | hc
      · exact hx
      · exact Nat.lt_trans hx (h1 c hc)
    · split
      · subst_vars
        exact List.pairwise_cons.2 ⟨h1, h2⟩
      · refine List.pairwise_cons.2 ⟨?_, ih h2⟩
        intro c hc
        rcases mem_kset hc with rfl | hc
        · change k < x
          omega
        · exact h1 c hc

/-- A write keeps the canonical form. -/
theorem memSet_wf {m : List Host.Cell} (h : Memory.wf m = true) (a : Nat) (b : Byte) : Memory.wf (memSet m a b) = true := by
  rw [wf_iff] at *
  simp only [memSet, kput]
  split
  · exact ⟨fun c hc => h.1 c ((kdel_sublist m a).subset hc), h.2.sublist (kdel_sublist m a)⟩
  · next hb =>
    refine ⟨fun c hc => ?_, kset_pairwise h.2 a b⟩
    rcases mem_kset hc with rfl | hc
    · exact hb
    · exact h.1 c hc

/-- So does taking cells out, as returning a core or resetting a die does. -/
theorem filter_wf {m : List Host.Cell} (h : Memory.wf m = true) (p : Host.Cell → Bool) : Memory.wf (m.filter p) = true := by
  rw [wf_iff] at *
  exact ⟨fun c hc => h.1 c (List.mem_of_mem_filter hc), h.2.sublist List.filter_sublist⟩

/-- So does writing cells one after another, as a change of mode does. -/
theorem foldl_memSet_wf {β : Type} (f : β → Nat × Byte) (l : List β) {m : List Host.Cell} (h : Memory.wf m = true) :
    Memory.wf (l.foldl (fun m c => memSet m (f c).1 (f c).2) m) = true := by
  induction l generalizing m with
  | nil => exact h
  | cons c r ih => exact ih (memSet_wf h _ _)

theorem foldr_memSet_wf (bytes : List WByte) {m : List Host.Cell} (h : Memory.wf m = true) :
    Memory.wf (bytes.foldr (fun b m => memSet m b.pa b.val) m) = true := by
  induction bytes with
  | nil => exact h
  | cons c r ih => exact memSet_wf ih _ _

theorem baseWrite_wf {s : State} (h : Memory.wf s.mem = true) (rel : Option Release) (bytes : List WByte) :
    Memory.wf (baseWrite s rel bytes).mem = true := foldr_memSet_wf bytes h

theorem settleN_wf (n : Nat) {s : State} (h : Memory.wf s.mem = true) : Memory.wf (settleN n s).mem = true := by
  induction n generalizing s with
  | zero => exact h
  | succ n ih =>
    simp only [settleN]
    split
    · split
      · next w r _ _ => exact ih (baseWrite_wf (s := { s with writes := r }) h w.rel w.bytes)
      · exact h
    · exact h

theorem settle_wf {s : State} (h : Memory.wf s.mem = true) : Memory.wf (settle s).mem = true := settleN_wf _ h

theorem reset_wf : Memory.wf State.reset.mem = true := rfl

/-! ### Settling (R129, R131) -/

/-- The first entry of a write for an address, as the base memory takes it. -/
theorem memGet_baseWrite (s : State) (rel : Option Release) (bytes : List WByte) (pa : Nat) :
    memGet (baseWrite s rel bytes).mem pa = match bytes.find? (fun b => b.pa == pa) with
      | some b => b.val
      | none => memGet s.mem pa := by
  induction bytes with
  | nil => rfl
  | cons b r ih =>
    simp only [baseWrite, List.foldr_cons, memGet_memSet, List.find?_cons] at ih ⊢
    by_cases h : b.pa = pa
    · simp [h]
    · simp [h, ih, show (b.pa == pa) = false by simp [h]]

theorem poison_baseWrite (s : State) (rel : Option Release) (bytes : List WByte) (pa : Nat) :
    (baseWrite s rel bytes).poison.contains pa = match bytes.find? (fun b => b.pa == pa) with
      | some b => b.poison
      | none => s.poison.contains pa := by
  induction bytes with
  | nil => rfl
  | cons b r ih =>
    simp only [baseWrite, List.foldr_cons, List.find?_cons] at ih ⊢
    by_cases h : b.pa = pa
    · cases hp : b.poison <;> simp [h, hp, mem_sinsert]
    · rw [show (b.pa == pa) = false by simp [h]]
      rw [← ih]
      have h' : ¬ pa = b.pa := fun e => h e.symm
      cases hp : b.poison <;> simp [h', mem_sinsert]

/-- Settling moves writes into the base memory, and the latest value of every byte stays. -/
theorem settleN_byteAt (n : Nat) (s : State) (pa : Nat) : byteAt (settleN n s) pa = byteAt s pa := by
  induction n generalizing s with
  | zero => rfl
  | succ n ih =>
    simp only [settleN]
    split
    · next w r hw =>
      split
      · rw [ih]
        simp only [byteAt, homeByte, hw, List.reverse_cons, List.find?_append]
        have hb : (baseWrite { s with writes := r } w.rel w.bytes).writes = r := rfl
        rw [hb]
        cases hf : r.reverse.find? (fun w => (w.at pa).isSome) with
        | some x =>
          have := List.find?_some hf
          obtain ⟨b, hb⟩ := Option.isSome_iff_exists.1 this
          simp [hb]
        | none =>
          rw [memGet_baseWrite, poison_baseWrite]
          simp only [Write.at]
          cases hx : w.bytes.find? (fun b => b.pa == pa) with
          | some b => simp [List.find?, hx]
          | none => simp [List.find?, hx]
      · rfl
    · rfl

theorem settle_byteAt (s : State) (pa : Nat) : byteAt (settle s) pa = byteAt s pa := settleN_byteAt _ s pa

end Sys2Proof.Machine
end

