-- ==== Sys2Proof/Laws/State.lean ====
section
/-! SUPPORT. What each named update of the state, of an agent and of a die leaves in each field: one lemma per field, true by
unfolding, so that no proof unfolds a record update. -/

namespace Sys2Proof.Machine

open Sys2Proof

/-! ### A slot that takes effect -/

@[simp] theorem State.clear_core (s : State) : (s.clear).core = s.core := rfl
@[simp] theorem State.clear_coreId (s : State) : (s.clear).coreId = s.coreId := rfl
@[simp] theorem State.clear_parked (s : State) : (s.clear).parked = s.parked := rfl
@[simp] theorem State.clear_mem (s : State) : (s.clear).mem = s.mem := rfl
@[simp] theorem State.clear_poison (s : State) : (s.clear).poison = s.poison := rfl
@[simp] theorem State.clear_baseRel (s : State) : (s.clear).baseRel = s.baseRel := rfl
@[simp] theorem State.clear_writes (s : State) : (s.clear).writes = s.writes := rfl
@[simp] theorem State.clear_nextId (s : State) : (s.clear).nextId = s.nextId := rfl
@[simp] theorem State.clear_fe (s : State) : (s.clear).fe = s.fe := rfl
@[simp] theorem State.clear_tags (s : State) : (s.clear).tags = s.tags := rfl
@[simp] theorem State.clear_bars (s : State) : (s.clear).bars = s.bars := rfl
@[simp] theorem State.clear_epochs (s : State) : (s.clear).epochs = s.epochs := rfl
@[simp] theorem State.clear_cmds (s : State) : (s.clear).cmds = s.cmds := rfl
@[simp] theorem State.clear_snaps (s : State) : (s.clear).snaps = s.snaps := rfl
@[simp] theorem State.clear_dies (s : State) : (s.clear).dies = s.dies := rfl
@[simp] theorem State.clear_xd0 (s : State) : (s.clear).xd0 = s.xd0 := rfl
@[simp] theorem State.clear_pfs (s : State) : (s.clear).pfs = s.pfs := rfl
@[simp] theorem State.clear_events (s : State) : (s.clear).events = s.events := rfl
@[simp] theorem State.clear_eventsSh (s : State) : (s.clear).eventsSh = s.eventsSh := rfl
@[simp] theorem State.clear_paths (s : State) : (s.clear).paths = s.paths := rfl
@[simp] theorem State.clear_links (s : State) : (s.clear).links = s.links := rfl
@[simp] theorem State.clear_ports (s : State) : (s.clear).ports = s.ports := rfl
@[simp] theorem State.clear_faceOut (s : State) : (s.clear).faceOut = s.faceOut := rfl
@[simp] theorem State.clear_faceReq (s : State) : (s.clear).faceReq = s.faceReq := rfl
@[simp] theorem State.clear_faceQ (s : State) : (s.clear).faceQ = s.faceQ := rfl
@[simp] theorem State.clear_invals (s : State) : (s.clear).invals = s.invals := rfl
@[simp] theorem State.clear_msix (s : State) : (s.clear).msix = s.msix := rfl
@[simp] theorem State.clear_bar0 (s : State) : (s.clear).bar0 = s.bar0 := rfl
@[simp] theorem State.clear_bar0Bad (s : State) : (s.clear).bar0Bad = s.bar0Bad := rfl
@[simp] theorem State.clear_netOut (s : State) : (s.clear).netOut = s.netOut := rfl
@[simp] theorem State.clear_netBad (s : State) : (s.clear).netBad = s.netBad := rfl
@[simp] theorem State.clear_flows (s : State) : (s.clear).flows = s.flows := rfl
@[simp] theorem State.clear_dropped (s : State) : (s.clear).dropped = s.dropped := rfl
@[simp] theorem State.clear_powered (s : State) : (s.clear).powered = s.powered := rfl
@[simp] theorem State.clear_time (s : State) : (s.clear).time = s.time := rfl
@[simp] theorem State.clear_choice (s : State) : (s.clear).choice = s.choice := rfl
@[simp] theorem State.clear_sig (s : State) : (s.clear).sig = Signal.none := rfl
@[simp] theorem State.clear_caught (s : State) : (s.clear).caught = s.caught := rfl
@[simp] theorem State.clear_agenda (s : State) : (s.clear).agenda = s.agenda := rfl
theorem ok_clear (s : State) : ok s = .next s.clear := rfl

/-! ### The active agent -/

@[simp] theorem State.setCore_core (s : State) (c : CoreState) : (s.setCore c).core = c := rfl
@[simp] theorem State.setCore_coreId (s : State) (c : CoreState) : (s.setCore c).coreId = s.coreId := rfl
@[simp] theorem State.setCore_parked (s : State) (c : CoreState) : (s.setCore c).parked = s.parked := rfl
@[simp] theorem State.setCore_mem (s : State) (c : CoreState) : (s.setCore c).mem = s.mem := rfl
@[simp] theorem State.setCore_poison (s : State) (c : CoreState) : (s.setCore c).poison = s.poison := rfl
@[simp] theorem State.setCore_baseRel (s : State) (c : CoreState) : (s.setCore c).baseRel = s.baseRel := rfl
@[simp] theorem State.setCore_writes (s : State) (c : CoreState) : (s.setCore c).writes = s.writes := rfl
@[simp] theorem State.setCore_nextId (s : State) (c : CoreState) : (s.setCore c).nextId = s.nextId := rfl
@[simp] theorem State.setCore_fe (s : State) (c : CoreState) : (s.setCore c).fe = s.fe := rfl
@[simp] theorem State.setCore_tags (s : State) (c : CoreState) : (s.setCore c).tags = s.tags := rfl
@[simp] theorem State.setCore_bars (s : State) (c : CoreState) : (s.setCore c).bars = s.bars := rfl
@[simp] theorem State.setCore_epochs (s : State) (c : CoreState) : (s.setCore c).epochs = s.epochs := rfl
@[simp] theorem State.setCore_cmds (s : State) (c : CoreState) : (s.setCore c).cmds = s.cmds := rfl
@[simp] theorem State.setCore_snaps (s : State) (c : CoreState) : (s.setCore c).snaps = s.snaps := rfl
@[simp] theorem State.setCore_dies (s : State) (c : CoreState) : (s.setCore c).dies = s.dies := rfl
@[simp] theorem State.setCore_xd0 (s : State) (c : CoreState) : (s.setCore c).xd0 = s.xd0 := rfl
@[simp] theorem State.setCore_pfs (s : State) (c : CoreState) : (s.setCore c).pfs = s.pfs := rfl
@[simp] theorem State.setCore_events (s : State) (c : CoreState) : (s.setCore c).events = s.events := rfl
@[simp] theorem State.setCore_eventsSh (s : State) (c : CoreState) : (s.setCore c).eventsSh = s.eventsSh := rfl
@[simp] theorem State.setCore_paths (s : State) (c : CoreState) : (s.setCore c).paths = s.paths := rfl
@[simp] theorem State.setCore_links (s : State) (c : CoreState) : (s.setCore c).links = s.links := rfl
@[simp] theorem State.setCore_ports (s : State) (c : CoreState) : (s.setCore c).ports = s.ports := rfl
@[simp] theorem State.setCore_faceOut (s : State) (c : CoreState) : (s.setCore c).faceOut = s.faceOut := rfl
@[simp] theorem State.setCore_faceReq (s : State) (c : CoreState) : (s.setCore c).faceReq = s.faceReq := rfl
@[simp] theorem State.setCore_faceQ (s : State) (c : CoreState) : (s.setCore c).faceQ = s.faceQ := rfl
@[simp] theorem State.setCore_invals (s : State) (c : CoreState) : (s.setCore c).invals = s.invals := rfl
@[simp] theorem State.setCore_msix (s : State) (c : CoreState) : (s.setCore c).msix = s.msix := rfl
@[simp] theorem State.setCore_bar0 (s : State) (c : CoreState) : (s.setCore c).bar0 = s.bar0 := rfl
@[simp] theorem State.setCore_bar0Bad (s : State) (c : CoreState) : (s.setCore c).bar0Bad = s.bar0Bad := rfl
@[simp] theorem State.setCore_netOut (s : State) (c : CoreState) : (s.setCore c).netOut = s.netOut := rfl
@[simp] theorem State.setCore_netBad (s : State) (c : CoreState) : (s.setCore c).netBad = s.netBad := rfl
@[simp] theorem State.setCore_flows (s : State) (c : CoreState) : (s.setCore c).flows = s.flows := rfl
@[simp] theorem State.setCore_dropped (s : State) (c : CoreState) : (s.setCore c).dropped = s.dropped := rfl
@[simp] theorem State.setCore_powered (s : State) (c : CoreState) : (s.setCore c).powered = s.powered := rfl
@[simp] theorem State.setCore_time (s : State) (c : CoreState) : (s.setCore c).time = s.time := rfl
@[simp] theorem State.setCore_choice (s : State) (c : CoreState) : (s.setCore c).choice = s.choice := rfl
@[simp] theorem State.setCore_sig (s : State) (c : CoreState) : (s.setCore c).sig = s.sig := rfl
@[simp] theorem State.setCore_caught (s : State) (c : CoreState) : (s.setCore c).caught = s.caught := rfl
@[simp] theorem State.setCore_agenda (s : State) (c : CoreState) : (s.setCore c).agenda = s.agenda := rfl

/-! ### A die -/

@[simp] theorem State.setDie_core (s : State) (d : BitVec 2) (x : DieState) : (s.setDie d x).core = s.core := rfl
@[simp] theorem State.setDie_coreId (s : State) (d : BitVec 2) (x : DieState) : (s.setDie d x).coreId = s.coreId := rfl
@[simp] theorem State.setDie_parked (s : State) (d : BitVec 2) (x : DieState) : (s.setDie d x).parked = s.parked := rfl
@[simp] theorem State.setDie_mem (s : State) (d : BitVec 2) (x : DieState) : (s.setDie d x).mem = s.mem := rfl
@[simp] theorem State.setDie_poison (s : State) (d : BitVec 2) (x : DieState) : (s.setDie d x).poison = s.poison := rfl
@[simp] theorem State.setDie_baseRel (s : State) (d : BitVec 2) (x : DieState) : (s.setDie d x).baseRel = s.baseRel := rfl
@[simp] theorem State.setDie_writes (s : State) (d : BitVec 2) (x : DieState) : (s.setDie d x).writes = s.writes := rfl
@[simp] theorem State.setDie_nextId (s : State) (d : BitVec 2) (x : DieState) : (s.setDie d x).nextId = s.nextId := rfl
@[simp] theorem State.setDie_fe (s : State) (d : BitVec 2) (x : DieState) : (s.setDie d x).fe = s.fe := rfl
@[simp] theorem State.setDie_tags (s : State) (d : BitVec 2) (x : DieState) : (s.setDie d x).tags = s.tags := rfl
@[simp] theorem State.setDie_bars (s : State) (d : BitVec 2) (x : DieState) : (s.setDie d x).bars = s.bars := rfl
@[simp] theorem State.setDie_epochs (s : State) (d : BitVec 2) (x : DieState) : (s.setDie d x).epochs = s.epochs := rfl
@[simp] theorem State.setDie_cmds (s : State) (d : BitVec 2) (x : DieState) : (s.setDie d x).cmds = s.cmds := rfl
@[simp] theorem State.setDie_snaps (s : State) (d : BitVec 2) (x : DieState) : (s.setDie d x).snaps = s.snaps := rfl
@[simp] theorem State.setDie_xd0 (s : State) (d : BitVec 2) (x : DieState) : (s.setDie d x).xd0 = s.xd0 := rfl
@[simp] theorem State.setDie_pfs (s : State) (d : BitVec 2) (x : DieState) : (s.setDie d x).pfs = s.pfs := rfl
@[simp] theorem State.setDie_events (s : State) (d : BitVec 2) (x : DieState) : (s.setDie d x).events = s.events := rfl
@[simp] theorem State.setDie_eventsSh (s : State) (d : BitVec 2) (x : DieState) : (s.setDie d x).eventsSh = s.eventsSh := rfl
@[simp] theorem State.setDie_paths (s : State) (d : BitVec 2) (x : DieState) : (s.setDie d x).paths = s.paths := rfl
@[simp] theorem State.setDie_links (s : State) (d : BitVec 2) (x : DieState) : (s.setDie d x).links = s.links := rfl
@[simp] theorem State.setDie_ports (s : State) (d : BitVec 2) (x : DieState) : (s.setDie d x).ports = s.ports := rfl
@[simp] theorem State.setDie_faceOut (s : State) (d : BitVec 2) (x : DieState) : (s.setDie d x).faceOut = s.faceOut := rfl
@[simp] theorem State.setDie_faceReq (s : State) (d : BitVec 2) (x : DieState) : (s.setDie d x).faceReq = s.faceReq := rfl
@[simp] theorem State.setDie_faceQ (s : State) (d : BitVec 2) (x : DieState) : (s.setDie d x).faceQ = s.faceQ := rfl
@[simp] theorem State.setDie_invals (s : State) (d : BitVec 2) (x : DieState) : (s.setDie d x).invals = s.invals := rfl
@[simp] theorem State.setDie_msix (s : State) (d : BitVec 2) (x : DieState) : (s.setDie d x).msix = s.msix := rfl
@[simp] theorem State.setDie_bar0 (s : State) (d : BitVec 2) (x : DieState) : (s.setDie d x).bar0 = s.bar0 := rfl
@[simp] theorem State.setDie_bar0Bad (s : State) (d : BitVec 2) (x : DieState) : (s.setDie d x).bar0Bad = s.bar0Bad := rfl
@[simp] theorem State.setDie_netOut (s : State) (d : BitVec 2) (x : DieState) : (s.setDie d x).netOut = s.netOut := rfl
@[simp] theorem State.setDie_netBad (s : State) (d : BitVec 2) (x : DieState) : (s.setDie d x).netBad = s.netBad := rfl
@[simp] theorem State.setDie_flows (s : State) (d : BitVec 2) (x : DieState) : (s.setDie d x).flows = s.flows := rfl
@[simp] theorem State.setDie_dropped (s : State) (d : BitVec 2) (x : DieState) : (s.setDie d x).dropped = s.dropped := rfl
@[simp] theorem State.setDie_powered (s : State) (d : BitVec 2) (x : DieState) : (s.setDie d x).powered = s.powered := rfl
@[simp] theorem State.setDie_time (s : State) (d : BitVec 2) (x : DieState) : (s.setDie d x).time = s.time := rfl
@[simp] theorem State.setDie_choice (s : State) (d : BitVec 2) (x : DieState) : (s.setDie d x).choice = s.choice := rfl
@[simp] theorem State.setDie_sig (s : State) (d : BitVec 2) (x : DieState) : (s.setDie d x).sig = s.sig := rfl
@[simp] theorem State.setDie_caught (s : State) (d : BitVec 2) (x : DieState) : (s.setDie d x).caught = s.caught := rfl
@[simp] theorem State.setDie_agenda (s : State) (d : BitVec 2) (x : DieState) : (s.setDie d x).agenda = s.agenda := rfl
theorem State.die_setDie (s : State) (d e : BitVec 2) (x : DieState) :
    (s.setDie d x).die e = if d = e then x else s.die e := by
  change (s.dies.set d.toNat x d.isLt)[e.toNat] = if d = e then x else s.dies[e.toNat]
  rw [Vector.getElem_set]
  simp [BitVec.toNat_eq]
@[simp] theorem State.die_setDie_same (s : State) (d : BitVec 2) (x : DieState) : (s.setDie d x).die d = x := by
  simp [State.die_setDie]

/-! ### A die, changed -/

@[simp] theorem State.mapDie_core (s : State) (d : BitVec 2) (f : DieState → DieState) : (s.mapDie d f).core = s.core := rfl
@[simp] theorem State.mapDie_coreId (s : State) (d : BitVec 2) (f : DieState → DieState) : (s.mapDie d f).coreId = s.coreId := rfl
@[simp] theorem State.mapDie_parked (s : State) (d : BitVec 2) (f : DieState → DieState) : (s.mapDie d f).parked = s.parked := rfl
@[simp] theorem State.mapDie_mem (s : State) (d : BitVec 2) (f : DieState → DieState) : (s.mapDie d f).mem = s.mem := rfl
@[simp] theorem State.mapDie_poison (s : State) (d : BitVec 2) (f : DieState → DieState) : (s.mapDie d f).poison = s.poison := rfl
@[simp] theorem State.mapDie_baseRel (s : State) (d : BitVec 2) (f : DieState → DieState) : (s.mapDie d f).baseRel = s.baseRel := rfl
@[simp] theorem State.mapDie_writes (s : State) (d : BitVec 2) (f : DieState → DieState) : (s.mapDie d f).writes = s.writes := rfl
@[simp] theorem State.mapDie_nextId (s : State) (d : BitVec 2) (f : DieState → DieState) : (s.mapDie d f).nextId = s.nextId := rfl
@[simp] theorem State.mapDie_fe (s : State) (d : BitVec 2) (f : DieState → DieState) : (s.mapDie d f).fe = s.fe := rfl
@[simp] theorem State.mapDie_tags (s : State) (d : BitVec 2) (f : DieState → DieState) : (s.mapDie d f).tags = s.tags := rfl
@[simp] theorem State.mapDie_bars (s : State) (d : BitVec 2) (f : DieState → DieState) : (s.mapDie d f).bars = s.bars := rfl
@[simp] theorem State.mapDie_epochs (s : State) (d : BitVec 2) (f : DieState → DieState) : (s.mapDie d f).epochs = s.epochs := rfl
@[simp] theorem State.mapDie_cmds (s : State) (d : BitVec 2) (f : DieState → DieState) : (s.mapDie d f).cmds = s.cmds := rfl
@[simp] theorem State.mapDie_snaps (s : State) (d : BitVec 2) (f : DieState → DieState) : (s.mapDie d f).snaps = s.snaps := rfl
@[simp] theorem State.mapDie_xd0 (s : State) (d : BitVec 2) (f : DieState → DieState) : (s.mapDie d f).xd0 = s.xd0 := rfl
@[simp] theorem State.mapDie_pfs (s : State) (d : BitVec 2) (f : DieState → DieState) : (s.mapDie d f).pfs = s.pfs := rfl
@[simp] theorem State.mapDie_events (s : State) (d : BitVec 2) (f : DieState → DieState) : (s.mapDie d f).events = s.events := rfl
@[simp] theorem State.mapDie_eventsSh (s : State) (d : BitVec 2) (f : DieState → DieState) : (s.mapDie d f).eventsSh = s.eventsSh := rfl
@[simp] theorem State.mapDie_paths (s : State) (d : BitVec 2) (f : DieState → DieState) : (s.mapDie d f).paths = s.paths := rfl
@[simp] theorem State.mapDie_links (s : State) (d : BitVec 2) (f : DieState → DieState) : (s.mapDie d f).links = s.links := rfl
@[simp] theorem State.mapDie_ports (s : State) (d : BitVec 2) (f : DieState → DieState) : (s.mapDie d f).ports = s.ports := rfl
@[simp] theorem State.mapDie_faceOut (s : State) (d : BitVec 2) (f : DieState → DieState) : (s.mapDie d f).faceOut = s.faceOut := rfl
@[simp] theorem State.mapDie_faceReq (s : State) (d : BitVec 2) (f : DieState → DieState) : (s.mapDie d f).faceReq = s.faceReq := rfl
@[simp] theorem State.mapDie_faceQ (s : State) (d : BitVec 2) (f : DieState → DieState) : (s.mapDie d f).faceQ = s.faceQ := rfl
@[simp] theorem State.mapDie_invals (s : State) (d : BitVec 2) (f : DieState → DieState) : (s.mapDie d f).invals = s.invals := rfl
@[simp] theorem State.mapDie_msix (s : State) (d : BitVec 2) (f : DieState → DieState) : (s.mapDie d f).msix = s.msix := rfl
@[simp] theorem State.mapDie_bar0 (s : State) (d : BitVec 2) (f : DieState → DieState) : (s.mapDie d f).bar0 = s.bar0 := rfl
@[simp] theorem State.mapDie_bar0Bad (s : State) (d : BitVec 2) (f : DieState → DieState) : (s.mapDie d f).bar0Bad = s.bar0Bad := rfl
@[simp] theorem State.mapDie_netOut (s : State) (d : BitVec 2) (f : DieState → DieState) : (s.mapDie d f).netOut = s.netOut := rfl
@[simp] theorem State.mapDie_netBad (s : State) (d : BitVec 2) (f : DieState → DieState) : (s.mapDie d f).netBad = s.netBad := rfl
@[simp] theorem State.mapDie_flows (s : State) (d : BitVec 2) (f : DieState → DieState) : (s.mapDie d f).flows = s.flows := rfl
@[simp] theorem State.mapDie_dropped (s : State) (d : BitVec 2) (f : DieState → DieState) : (s.mapDie d f).dropped = s.dropped := rfl
@[simp] theorem State.mapDie_powered (s : State) (d : BitVec 2) (f : DieState → DieState) : (s.mapDie d f).powered = s.powered := rfl
@[simp] theorem State.mapDie_time (s : State) (d : BitVec 2) (f : DieState → DieState) : (s.mapDie d f).time = s.time := rfl
@[simp] theorem State.mapDie_choice (s : State) (d : BitVec 2) (f : DieState → DieState) : (s.mapDie d f).choice = s.choice := rfl
@[simp] theorem State.mapDie_sig (s : State) (d : BitVec 2) (f : DieState → DieState) : (s.mapDie d f).sig = s.sig := rfl
@[simp] theorem State.mapDie_caught (s : State) (d : BitVec 2) (f : DieState → DieState) : (s.mapDie d f).caught = s.caught := rfl
@[simp] theorem State.mapDie_agenda (s : State) (d : BitVec 2) (f : DieState → DieState) : (s.mapDie d f).agenda = s.agenda := rfl
@[simp] theorem State.die_mapDie_same (s : State) (d : BitVec 2) (f : DieState → DieState) :
    (s.mapDie d f).die d = f (s.die d) := by
  simp [State.mapDie]
theorem State.die_mapDie_other (s : State) (d e : BitVec 2) (f : DieState → DieState) (h : d ≠ e) :
    (s.mapDie d f).die e = s.die e := by
  simp [State.mapDie, State.die_setDie, h]

/-! ### A function -/

@[simp] theorem State.setPf_core (s : State) (p : BitVec 2) (x : Pf) : (s.setPf p x).core = s.core := rfl
@[simp] theorem State.setPf_coreId (s : State) (p : BitVec 2) (x : Pf) : (s.setPf p x).coreId = s.coreId := rfl
@[simp] theorem State.setPf_parked (s : State) (p : BitVec 2) (x : Pf) : (s.setPf p x).parked = s.parked := rfl
@[simp] theorem State.setPf_mem (s : State) (p : BitVec 2) (x : Pf) : (s.setPf p x).mem = s.mem := rfl
@[simp] theorem State.setPf_poison (s : State) (p : BitVec 2) (x : Pf) : (s.setPf p x).poison = s.poison := rfl
@[simp] theorem State.setPf_baseRel (s : State) (p : BitVec 2) (x : Pf) : (s.setPf p x).baseRel = s.baseRel := rfl
@[simp] theorem State.setPf_writes (s : State) (p : BitVec 2) (x : Pf) : (s.setPf p x).writes = s.writes := rfl
@[simp] theorem State.setPf_nextId (s : State) (p : BitVec 2) (x : Pf) : (s.setPf p x).nextId = s.nextId := rfl
@[simp] theorem State.setPf_fe (s : State) (p : BitVec 2) (x : Pf) : (s.setPf p x).fe = s.fe := rfl
@[simp] theorem State.setPf_tags (s : State) (p : BitVec 2) (x : Pf) : (s.setPf p x).tags = s.tags := rfl
@[simp] theorem State.setPf_bars (s : State) (p : BitVec 2) (x : Pf) : (s.setPf p x).bars = s.bars := rfl
@[simp] theorem State.setPf_epochs (s : State) (p : BitVec 2) (x : Pf) : (s.setPf p x).epochs = s.epochs := rfl
@[simp] theorem State.setPf_cmds (s : State) (p : BitVec 2) (x : Pf) : (s.setPf p x).cmds = s.cmds := rfl
@[simp] theorem State.setPf_snaps (s : State) (p : BitVec 2) (x : Pf) : (s.setPf p x).snaps = s.snaps := rfl
@[simp] theorem State.setPf_dies (s : State) (p : BitVec 2) (x : Pf) : (s.setPf p x).dies = s.dies := rfl
@[simp] theorem State.setPf_xd0 (s : State) (p : BitVec 2) (x : Pf) : (s.setPf p x).xd0 = s.xd0 := rfl
@[simp] theorem State.setPf_events (s : State) (p : BitVec 2) (x : Pf) : (s.setPf p x).events = s.events := rfl
@[simp] theorem State.setPf_eventsSh (s : State) (p : BitVec 2) (x : Pf) : (s.setPf p x).eventsSh = s.eventsSh := rfl
@[simp] theorem State.setPf_paths (s : State) (p : BitVec 2) (x : Pf) : (s.setPf p x).paths = s.paths := rfl
@[simp] theorem State.setPf_links (s : State) (p : BitVec 2) (x : Pf) : (s.setPf p x).links = s.links := rfl
@[simp] theorem State.setPf_ports (s : State) (p : BitVec 2) (x : Pf) : (s.setPf p x).ports = s.ports := rfl
@[simp] theorem State.setPf_faceOut (s : State) (p : BitVec 2) (x : Pf) : (s.setPf p x).faceOut = s.faceOut := rfl
@[simp] theorem State.setPf_faceReq (s : State) (p : BitVec 2) (x : Pf) : (s.setPf p x).faceReq = s.faceReq := rfl
@[simp] theorem State.setPf_faceQ (s : State) (p : BitVec 2) (x : Pf) : (s.setPf p x).faceQ = s.faceQ := rfl
@[simp] theorem State.setPf_invals (s : State) (p : BitVec 2) (x : Pf) : (s.setPf p x).invals = s.invals := rfl
@[simp] theorem State.setPf_msix (s : State) (p : BitVec 2) (x : Pf) : (s.setPf p x).msix = s.msix := rfl
@[simp] theorem State.setPf_bar0 (s : State) (p : BitVec 2) (x : Pf) : (s.setPf p x).bar0 = s.bar0 := rfl
@[simp] theorem State.setPf_bar0Bad (s : State) (p : BitVec 2) (x : Pf) : (s.setPf p x).bar0Bad = s.bar0Bad := rfl
@[simp] theorem State.setPf_netOut (s : State) (p : BitVec 2) (x : Pf) : (s.setPf p x).netOut = s.netOut := rfl
@[simp] theorem State.setPf_netBad (s : State) (p : BitVec 2) (x : Pf) : (s.setPf p x).netBad = s.netBad := rfl
@[simp] theorem State.setPf_flows (s : State) (p : BitVec 2) (x : Pf) : (s.setPf p x).flows = s.flows := rfl
@[simp] theorem State.setPf_dropped (s : State) (p : BitVec 2) (x : Pf) : (s.setPf p x).dropped = s.dropped := rfl
@[simp] theorem State.setPf_powered (s : State) (p : BitVec 2) (x : Pf) : (s.setPf p x).powered = s.powered := rfl
@[simp] theorem State.setPf_time (s : State) (p : BitVec 2) (x : Pf) : (s.setPf p x).time = s.time := rfl
@[simp] theorem State.setPf_choice (s : State) (p : BitVec 2) (x : Pf) : (s.setPf p x).choice = s.choice := rfl
@[simp] theorem State.setPf_sig (s : State) (p : BitVec 2) (x : Pf) : (s.setPf p x).sig = s.sig := rfl
@[simp] theorem State.setPf_caught (s : State) (p : BitVec 2) (x : Pf) : (s.setPf p x).caught = s.caught := rfl
@[simp] theorem State.setPf_agenda (s : State) (p : BitVec 2) (x : Pf) : (s.setPf p x).agenda = s.agenda := rfl

/-! ### Writer tags -/

@[simp] theorem tagBytes_core (s : State) (t : Tag) (bs : List WByte) : (tagBytes s t bs).core = s.core := rfl
@[simp] theorem tagBytes_coreId (s : State) (t : Tag) (bs : List WByte) : (tagBytes s t bs).coreId = s.coreId := rfl
@[simp] theorem tagBytes_parked (s : State) (t : Tag) (bs : List WByte) : (tagBytes s t bs).parked = s.parked := rfl
@[simp] theorem tagBytes_mem (s : State) (t : Tag) (bs : List WByte) : (tagBytes s t bs).mem = s.mem := rfl
@[simp] theorem tagBytes_poison (s : State) (t : Tag) (bs : List WByte) : (tagBytes s t bs).poison = s.poison := rfl
@[simp] theorem tagBytes_baseRel (s : State) (t : Tag) (bs : List WByte) : (tagBytes s t bs).baseRel = s.baseRel := rfl
@[simp] theorem tagBytes_writes (s : State) (t : Tag) (bs : List WByte) : (tagBytes s t bs).writes = s.writes := rfl
@[simp] theorem tagBytes_nextId (s : State) (t : Tag) (bs : List WByte) : (tagBytes s t bs).nextId = s.nextId := rfl
@[simp] theorem tagBytes_fe (s : State) (t : Tag) (bs : List WByte) : (tagBytes s t bs).fe = s.fe := rfl
@[simp] theorem tagBytes_bars (s : State) (t : Tag) (bs : List WByte) : (tagBytes s t bs).bars = s.bars := rfl
@[simp] theorem tagBytes_epochs (s : State) (t : Tag) (bs : List WByte) : (tagBytes s t bs).epochs = s.epochs := rfl
@[simp] theorem tagBytes_cmds (s : State) (t : Tag) (bs : List WByte) : (tagBytes s t bs).cmds = s.cmds := rfl
@[simp] theorem tagBytes_snaps (s : State) (t : Tag) (bs : List WByte) : (tagBytes s t bs).snaps = s.snaps := rfl
@[simp] theorem tagBytes_dies (s : State) (t : Tag) (bs : List WByte) : (tagBytes s t bs).dies = s.dies := rfl
@[simp] theorem tagBytes_xd0 (s : State) (t : Tag) (bs : List WByte) : (tagBytes s t bs).xd0 = s.xd0 := rfl
@[simp] theorem tagBytes_pfs (s : State) (t : Tag) (bs : List WByte) : (tagBytes s t bs).pfs = s.pfs := rfl
@[simp] theorem tagBytes_events (s : State) (t : Tag) (bs : List WByte) : (tagBytes s t bs).events = s.events := rfl
@[simp] theorem tagBytes_eventsSh (s : State) (t : Tag) (bs : List WByte) : (tagBytes s t bs).eventsSh = s.eventsSh := rfl
@[simp] theorem tagBytes_paths (s : State) (t : Tag) (bs : List WByte) : (tagBytes s t bs).paths = s.paths := rfl
@[simp] theorem tagBytes_links (s : State) (t : Tag) (bs : List WByte) : (tagBytes s t bs).links = s.links := rfl
@[simp] theorem tagBytes_ports (s : State) (t : Tag) (bs : List WByte) : (tagBytes s t bs).ports = s.ports := rfl
@[simp] theorem tagBytes_faceOut (s : State) (t : Tag) (bs : List WByte) : (tagBytes s t bs).faceOut = s.faceOut := rfl
@[simp] theorem tagBytes_faceReq (s : State) (t : Tag) (bs : List WByte) : (tagBytes s t bs).faceReq = s.faceReq := rfl
@[simp] theorem tagBytes_faceQ (s : State) (t : Tag) (bs : List WByte) : (tagBytes s t bs).faceQ = s.faceQ := rfl
@[simp] theorem tagBytes_invals (s : State) (t : Tag) (bs : List WByte) : (tagBytes s t bs).invals = s.invals := rfl
@[simp] theorem tagBytes_msix (s : State) (t : Tag) (bs : List WByte) : (tagBytes s t bs).msix = s.msix := rfl
@[simp] theorem tagBytes_bar0 (s : State) (t : Tag) (bs : List WByte) : (tagBytes s t bs).bar0 = s.bar0 := rfl
@[simp] theorem tagBytes_bar0Bad (s : State) (t : Tag) (bs : List WByte) : (tagBytes s t bs).bar0Bad = s.bar0Bad := rfl
@[simp] theorem tagBytes_netOut (s : State) (t : Tag) (bs : List WByte) : (tagBytes s t bs).netOut = s.netOut := rfl
@[simp] theorem tagBytes_netBad (s : State) (t : Tag) (bs : List WByte) : (tagBytes s t bs).netBad = s.netBad := rfl
@[simp] theorem tagBytes_flows (s : State) (t : Tag) (bs : List WByte) : (tagBytes s t bs).flows = s.flows := rfl
@[simp] theorem tagBytes_dropped (s : State) (t : Tag) (bs : List WByte) : (tagBytes s t bs).dropped = s.dropped := rfl
@[simp] theorem tagBytes_powered (s : State) (t : Tag) (bs : List WByte) : (tagBytes s t bs).powered = s.powered := rfl
@[simp] theorem tagBytes_time (s : State) (t : Tag) (bs : List WByte) : (tagBytes s t bs).time = s.time := rfl
@[simp] theorem tagBytes_choice (s : State) (t : Tag) (bs : List WByte) : (tagBytes s t bs).choice = s.choice := rfl
@[simp] theorem tagBytes_sig (s : State) (t : Tag) (bs : List WByte) : (tagBytes s t bs).sig = s.sig := rfl
@[simp] theorem tagBytes_caught (s : State) (t : Tag) (bs : List WByte) : (tagBytes s t bs).caught = s.caught := rfl
@[simp] theorem tagBytes_agenda (s : State) (t : Tag) (bs : List WByte) : (tagBytes s t bs).agenda = s.agenda := rfl

/-! ### Epochs -/

@[simp] theorem stepEpoch_core (s : State) (k : Nat) : (s.stepEpoch k).core = s.core := rfl
@[simp] theorem stepEpoch_coreId (s : State) (k : Nat) : (s.stepEpoch k).coreId = s.coreId := rfl
@[simp] theorem stepEpoch_parked (s : State) (k : Nat) : (s.stepEpoch k).parked = s.parked := rfl
@[simp] theorem stepEpoch_mem (s : State) (k : Nat) : (s.stepEpoch k).mem = s.mem := rfl
@[simp] theorem stepEpoch_poison (s : State) (k : Nat) : (s.stepEpoch k).poison = s.poison := rfl
@[simp] theorem stepEpoch_baseRel (s : State) (k : Nat) : (s.stepEpoch k).baseRel = s.baseRel := rfl
@[simp] theorem stepEpoch_writes (s : State) (k : Nat) : (s.stepEpoch k).writes = s.writes := rfl
@[simp] theorem stepEpoch_nextId (s : State) (k : Nat) : (s.stepEpoch k).nextId = s.nextId := rfl
@[simp] theorem stepEpoch_fe (s : State) (k : Nat) : (s.stepEpoch k).fe = s.fe := rfl
@[simp] theorem stepEpoch_tags (s : State) (k : Nat) : (s.stepEpoch k).tags = s.tags := rfl
@[simp] theorem stepEpoch_bars (s : State) (k : Nat) : (s.stepEpoch k).bars = s.bars := rfl
@[simp] theorem stepEpoch_cmds (s : State) (k : Nat) : (s.stepEpoch k).cmds = s.cmds := rfl
@[simp] theorem stepEpoch_snaps (s : State) (k : Nat) : (s.stepEpoch k).snaps = s.snaps := rfl
@[simp] theorem stepEpoch_dies (s : State) (k : Nat) : (s.stepEpoch k).dies = s.dies := rfl
@[simp] theorem stepEpoch_xd0 (s : State) (k : Nat) : (s.stepEpoch k).xd0 = s.xd0 := rfl
@[simp] theorem stepEpoch_pfs (s : State) (k : Nat) : (s.stepEpoch k).pfs = s.pfs := rfl
@[simp] theorem stepEpoch_events (s : State) (k : Nat) : (s.stepEpoch k).events = s.events := rfl
@[simp] theorem stepEpoch_eventsSh (s : State) (k : Nat) : (s.stepEpoch k).eventsSh = s.eventsSh := rfl
@[simp] theorem stepEpoch_paths (s : State) (k : Nat) : (s.stepEpoch k).paths = s.paths := rfl
@[simp] theorem stepEpoch_links (s : State) (k : Nat) : (s.stepEpoch k).links = s.links := rfl
@[simp] theorem stepEpoch_ports (s : State) (k : Nat) : (s.stepEpoch k).ports = s.ports := rfl
@[simp] theorem stepEpoch_faceOut (s : State) (k : Nat) : (s.stepEpoch k).faceOut = s.faceOut := rfl
@[simp] theorem stepEpoch_faceReq (s : State) (k : Nat) : (s.stepEpoch k).faceReq = s.faceReq := rfl
@[simp] theorem stepEpoch_faceQ (s : State) (k : Nat) : (s.stepEpoch k).faceQ = s.faceQ := rfl
@[simp] theorem stepEpoch_invals (s : State) (k : Nat) : (s.stepEpoch k).invals = s.invals := rfl
@[simp] theorem stepEpoch_msix (s : State) (k : Nat) : (s.stepEpoch k).msix = s.msix := rfl
@[simp] theorem stepEpoch_bar0 (s : State) (k : Nat) : (s.stepEpoch k).bar0 = s.bar0 := rfl
@[simp] theorem stepEpoch_bar0Bad (s : State) (k : Nat) : (s.stepEpoch k).bar0Bad = s.bar0Bad := rfl
@[simp] theorem stepEpoch_netOut (s : State) (k : Nat) : (s.stepEpoch k).netOut = s.netOut := rfl
@[simp] theorem stepEpoch_netBad (s : State) (k : Nat) : (s.stepEpoch k).netBad = s.netBad := rfl
@[simp] theorem stepEpoch_flows (s : State) (k : Nat) : (s.stepEpoch k).flows = s.flows := rfl
@[simp] theorem stepEpoch_dropped (s : State) (k : Nat) : (s.stepEpoch k).dropped = s.dropped := rfl
@[simp] theorem stepEpoch_powered (s : State) (k : Nat) : (s.stepEpoch k).powered = s.powered := rfl
@[simp] theorem stepEpoch_time (s : State) (k : Nat) : (s.stepEpoch k).time = s.time := rfl
@[simp] theorem stepEpoch_choice (s : State) (k : Nat) : (s.stepEpoch k).choice = s.choice := rfl
@[simp] theorem stepEpoch_sig (s : State) (k : Nat) : (s.stepEpoch k).sig = s.sig := rfl
@[simp] theorem stepEpoch_caught (s : State) (k : Nat) : (s.stepEpoch k).caught = s.caught := rfl
@[simp] theorem stepEpoch_agenda (s : State) (k : Nat) : (s.stepEpoch k).agenda = s.agenda := rfl

/-! ### Full-empty bits, emptied -/

@[simp] theorem clearFull_core (s : State) (gs : List Nat) : (clearFull s gs).core = s.core := rfl
@[simp] theorem clearFull_coreId (s : State) (gs : List Nat) : (clearFull s gs).coreId = s.coreId := rfl
@[simp] theorem clearFull_parked (s : State) (gs : List Nat) : (clearFull s gs).parked = s.parked := rfl
@[simp] theorem clearFull_mem (s : State) (gs : List Nat) : (clearFull s gs).mem = s.mem := rfl
@[simp] theorem clearFull_poison (s : State) (gs : List Nat) : (clearFull s gs).poison = s.poison := rfl
@[simp] theorem clearFull_baseRel (s : State) (gs : List Nat) : (clearFull s gs).baseRel = s.baseRel := rfl
@[simp] theorem clearFull_writes (s : State) (gs : List Nat) : (clearFull s gs).writes = s.writes := rfl
@[simp] theorem clearFull_nextId (s : State) (gs : List Nat) : (clearFull s gs).nextId = s.nextId := rfl
@[simp] theorem clearFull_tags (s : State) (gs : List Nat) : (clearFull s gs).tags = s.tags := rfl
@[simp] theorem clearFull_bars (s : State) (gs : List Nat) : (clearFull s gs).bars = s.bars := rfl
@[simp] theorem clearFull_epochs (s : State) (gs : List Nat) : (clearFull s gs).epochs = s.epochs := rfl
@[simp] theorem clearFull_cmds (s : State) (gs : List Nat) : (clearFull s gs).cmds = s.cmds := rfl
@[simp] theorem clearFull_snaps (s : State) (gs : List Nat) : (clearFull s gs).snaps = s.snaps := rfl
@[simp] theorem clearFull_dies (s : State) (gs : List Nat) : (clearFull s gs).dies = s.dies := rfl
@[simp] theorem clearFull_xd0 (s : State) (gs : List Nat) : (clearFull s gs).xd0 = s.xd0 := rfl
@[simp] theorem clearFull_pfs (s : State) (gs : List Nat) : (clearFull s gs).pfs = s.pfs := rfl
@[simp] theorem clearFull_events (s : State) (gs : List Nat) : (clearFull s gs).events = s.events := rfl
@[simp] theorem clearFull_eventsSh (s : State) (gs : List Nat) : (clearFull s gs).eventsSh = s.eventsSh := rfl
@[simp] theorem clearFull_paths (s : State) (gs : List Nat) : (clearFull s gs).paths = s.paths := rfl
@[simp] theorem clearFull_links (s : State) (gs : List Nat) : (clearFull s gs).links = s.links := rfl
@[simp] theorem clearFull_ports (s : State) (gs : List Nat) : (clearFull s gs).ports = s.ports := rfl
@[simp] theorem clearFull_faceOut (s : State) (gs : List Nat) : (clearFull s gs).faceOut = s.faceOut := rfl
@[simp] theorem clearFull_faceReq (s : State) (gs : List Nat) : (clearFull s gs).faceReq = s.faceReq := rfl
@[simp] theorem clearFull_faceQ (s : State) (gs : List Nat) : (clearFull s gs).faceQ = s.faceQ := rfl
@[simp] theorem clearFull_invals (s : State) (gs : List Nat) : (clearFull s gs).invals = s.invals := rfl
@[simp] theorem clearFull_msix (s : State) (gs : List Nat) : (clearFull s gs).msix = s.msix := rfl
@[simp] theorem clearFull_bar0 (s : State) (gs : List Nat) : (clearFull s gs).bar0 = s.bar0 := rfl
@[simp] theorem clearFull_bar0Bad (s : State) (gs : List Nat) : (clearFull s gs).bar0Bad = s.bar0Bad := rfl
@[simp] theorem clearFull_netOut (s : State) (gs : List Nat) : (clearFull s gs).netOut = s.netOut := rfl
@[simp] theorem clearFull_netBad (s : State) (gs : List Nat) : (clearFull s gs).netBad = s.netBad := rfl
@[simp] theorem clearFull_flows (s : State) (gs : List Nat) : (clearFull s gs).flows = s.flows := rfl
@[simp] theorem clearFull_dropped (s : State) (gs : List Nat) : (clearFull s gs).dropped = s.dropped := rfl
@[simp] theorem clearFull_powered (s : State) (gs : List Nat) : (clearFull s gs).powered = s.powered := rfl
@[simp] theorem clearFull_time (s : State) (gs : List Nat) : (clearFull s gs).time = s.time := rfl
@[simp] theorem clearFull_choice (s : State) (gs : List Nat) : (clearFull s gs).choice = s.choice := rfl
@[simp] theorem clearFull_sig (s : State) (gs : List Nat) : (clearFull s gs).sig = s.sig := rfl
@[simp] theorem clearFull_caught (s : State) (gs : List Nat) : (clearFull s gs).caught = s.caught := rfl
@[simp] theorem clearFull_agenda (s : State) (gs : List Nat) : (clearFull s gs).agenda = s.agenda := rfl

/-! ### A write placed -/

@[simp] theorem placeOne_core (s : State) (d : BitVec 2) (p : Path) (c t n : Nat) (r : Option Release) (full : List Nat) (bs : List WByte) : (placeOne s d p c t n r full bs).core = s.core := rfl
@[simp] theorem placeOne_coreId (s : State) (d : BitVec 2) (p : Path) (c t n : Nat) (r : Option Release) (full : List Nat) (bs : List WByte) : (placeOne s d p c t n r full bs).coreId = s.coreId := rfl
@[simp] theorem placeOne_parked (s : State) (d : BitVec 2) (p : Path) (c t n : Nat) (r : Option Release) (full : List Nat) (bs : List WByte) : (placeOne s d p c t n r full bs).parked = s.parked := rfl
@[simp] theorem placeOne_mem (s : State) (d : BitVec 2) (p : Path) (c t n : Nat) (r : Option Release) (full : List Nat) (bs : List WByte) : (placeOne s d p c t n r full bs).mem = s.mem := rfl
@[simp] theorem placeOne_poison (s : State) (d : BitVec 2) (p : Path) (c t n : Nat) (r : Option Release) (full : List Nat) (bs : List WByte) : (placeOne s d p c t n r full bs).poison = s.poison := rfl
@[simp] theorem placeOne_baseRel (s : State) (d : BitVec 2) (p : Path) (c t n : Nat) (r : Option Release) (full : List Nat) (bs : List WByte) : (placeOne s d p c t n r full bs).baseRel = s.baseRel := rfl
@[simp] theorem placeOne_tags (s : State) (d : BitVec 2) (p : Path) (c t n : Nat) (r : Option Release) (full : List Nat) (bs : List WByte) : (placeOne s d p c t n r full bs).tags = s.tags := rfl
@[simp] theorem placeOne_bars (s : State) (d : BitVec 2) (p : Path) (c t n : Nat) (r : Option Release) (full : List Nat) (bs : List WByte) : (placeOne s d p c t n r full bs).bars = s.bars := rfl
@[simp] theorem placeOne_epochs (s : State) (d : BitVec 2) (p : Path) (c t n : Nat) (r : Option Release) (full : List Nat) (bs : List WByte) : (placeOne s d p c t n r full bs).epochs = s.epochs := rfl
@[simp] theorem placeOne_cmds (s : State) (d : BitVec 2) (p : Path) (c t n : Nat) (r : Option Release) (full : List Nat) (bs : List WByte) : (placeOne s d p c t n r full bs).cmds = s.cmds := rfl
@[simp] theorem placeOne_snaps (s : State) (d : BitVec 2) (p : Path) (c t n : Nat) (r : Option Release) (full : List Nat) (bs : List WByte) : (placeOne s d p c t n r full bs).snaps = s.snaps := rfl
@[simp] theorem placeOne_dies (s : State) (d : BitVec 2) (p : Path) (c t n : Nat) (r : Option Release) (full : List Nat) (bs : List WByte) : (placeOne s d p c t n r full bs).dies = s.dies := rfl
@[simp] theorem placeOne_xd0 (s : State) (d : BitVec 2) (p : Path) (c t n : Nat) (r : Option Release) (full : List Nat) (bs : List WByte) : (placeOne s d p c t n r full bs).xd0 = s.xd0 := rfl
@[simp] theorem placeOne_pfs (s : State) (d : BitVec 2) (p : Path) (c t n : Nat) (r : Option Release) (full : List Nat) (bs : List WByte) : (placeOne s d p c t n r full bs).pfs = s.pfs := rfl
@[simp] theorem placeOne_events (s : State) (d : BitVec 2) (p : Path) (c t n : Nat) (r : Option Release) (full : List Nat) (bs : List WByte) : (placeOne s d p c t n r full bs).events = s.events := rfl
@[simp] theorem placeOne_eventsSh (s : State) (d : BitVec 2) (p : Path) (c t n : Nat) (r : Option Release) (full : List Nat) (bs : List WByte) : (placeOne s d p c t n r full bs).eventsSh = s.eventsSh := rfl
@[simp] theorem placeOne_paths (s : State) (d : BitVec 2) (p : Path) (c t n : Nat) (r : Option Release) (full : List Nat) (bs : List WByte) : (placeOne s d p c t n r full bs).paths = s.paths := rfl
@[simp] theorem placeOne_links (s : State) (d : BitVec 2) (p : Path) (c t n : Nat) (r : Option Release) (full : List Nat) (bs : List WByte) : (placeOne s d p c t n r full bs).links = s.links := rfl
@[simp] theorem placeOne_ports (s : State) (d : BitVec 2) (p : Path) (c t n : Nat) (r : Option Release) (full : List Nat) (bs : List WByte) : (placeOne s d p c t n r full bs).ports = s.ports := rfl
@[simp] theorem placeOne_faceOut (s : State) (d : BitVec 2) (p : Path) (c t n : Nat) (r : Option Release) (full : List Nat) (bs : List WByte) : (placeOne s d p c t n r full bs).faceOut = s.faceOut := rfl
@[simp] theorem placeOne_faceReq (s : State) (d : BitVec 2) (p : Path) (c t n : Nat) (r : Option Release) (full : List Nat) (bs : List WByte) : (placeOne s d p c t n r full bs).faceReq = s.faceReq := rfl
@[simp] theorem placeOne_faceQ (s : State) (d : BitVec 2) (p : Path) (c t n : Nat) (r : Option Release) (full : List Nat) (bs : List WByte) : (placeOne s d p c t n r full bs).faceQ = s.faceQ := rfl
@[simp] theorem placeOne_invals (s : State) (d : BitVec 2) (p : Path) (c t n : Nat) (r : Option Release) (full : List Nat) (bs : List WByte) : (placeOne s d p c t n r full bs).invals = s.invals := rfl
@[simp] theorem placeOne_msix (s : State) (d : BitVec 2) (p : Path) (c t n : Nat) (r : Option Release) (full : List Nat) (bs : List WByte) : (placeOne s d p c t n r full bs).msix = s.msix := rfl
@[simp] theorem placeOne_bar0 (s : State) (d : BitVec 2) (p : Path) (c t n : Nat) (r : Option Release) (full : List Nat) (bs : List WByte) : (placeOne s d p c t n r full bs).bar0 = s.bar0 := rfl
@[simp] theorem placeOne_bar0Bad (s : State) (d : BitVec 2) (p : Path) (c t n : Nat) (r : Option Release) (full : List Nat) (bs : List WByte) : (placeOne s d p c t n r full bs).bar0Bad = s.bar0Bad := rfl
@[simp] theorem placeOne_netOut (s : State) (d : BitVec 2) (p : Path) (c t n : Nat) (r : Option Release) (full : List Nat) (bs : List WByte) : (placeOne s d p c t n r full bs).netOut = s.netOut := rfl
@[simp] theorem placeOne_netBad (s : State) (d : BitVec 2) (p : Path) (c t n : Nat) (r : Option Release) (full : List Nat) (bs : List WByte) : (placeOne s d p c t n r full bs).netBad = s.netBad := rfl
@[simp] theorem placeOne_flows (s : State) (d : BitVec 2) (p : Path) (c t n : Nat) (r : Option Release) (full : List Nat) (bs : List WByte) : (placeOne s d p c t n r full bs).flows = s.flows := rfl
@[simp] theorem placeOne_dropped (s : State) (d : BitVec 2) (p : Path) (c t n : Nat) (r : Option Release) (full : List Nat) (bs : List WByte) : (placeOne s d p c t n r full bs).dropped = s.dropped := rfl
@[simp] theorem placeOne_powered (s : State) (d : BitVec 2) (p : Path) (c t n : Nat) (r : Option Release) (full : List Nat) (bs : List WByte) : (placeOne s d p c t n r full bs).powered = s.powered := rfl
@[simp] theorem placeOne_time (s : State) (d : BitVec 2) (p : Path) (c t n : Nat) (r : Option Release) (full : List Nat) (bs : List WByte) : (placeOne s d p c t n r full bs).time = s.time := rfl
@[simp] theorem placeOne_choice (s : State) (d : BitVec 2) (p : Path) (c t n : Nat) (r : Option Release) (full : List Nat) (bs : List WByte) : (placeOne s d p c t n r full bs).choice = s.choice := rfl
@[simp] theorem placeOne_sig (s : State) (d : BitVec 2) (p : Path) (c t n : Nat) (r : Option Release) (full : List Nat) (bs : List WByte) : (placeOne s d p c t n r full bs).sig = s.sig := rfl
@[simp] theorem placeOne_caught (s : State) (d : BitVec 2) (p : Path) (c t n : Nat) (r : Option Release) (full : List Nat) (bs : List WByte) : (placeOne s d p c t n r full bs).caught = s.caught := rfl
@[simp] theorem placeOne_agenda (s : State) (d : BitVec 2) (p : Path) (c t n : Nat) (r : Option Release) (full : List Nat) (bs : List WByte) : (placeOne s d p c t n r full bs).agenda = s.agenda := rfl

/-! ### Paths joined -/

@[simp] theorem joinAt_core (s : State) (d : BitVec 2) (ps : List Path) (f : Write → Bool) : (joinAt s d ps f).core = s.core := rfl
@[simp] theorem joinAt_coreId (s : State) (d : BitVec 2) (ps : List Path) (f : Write → Bool) : (joinAt s d ps f).coreId = s.coreId := rfl
@[simp] theorem joinAt_parked (s : State) (d : BitVec 2) (ps : List Path) (f : Write → Bool) : (joinAt s d ps f).parked = s.parked := rfl
@[simp] theorem joinAt_mem (s : State) (d : BitVec 2) (ps : List Path) (f : Write → Bool) : (joinAt s d ps f).mem = s.mem := rfl
@[simp] theorem joinAt_poison (s : State) (d : BitVec 2) (ps : List Path) (f : Write → Bool) : (joinAt s d ps f).poison = s.poison := rfl
@[simp] theorem joinAt_baseRel (s : State) (d : BitVec 2) (ps : List Path) (f : Write → Bool) : (joinAt s d ps f).baseRel = s.baseRel := rfl
@[simp] theorem joinAt_nextId (s : State) (d : BitVec 2) (ps : List Path) (f : Write → Bool) : (joinAt s d ps f).nextId = s.nextId := rfl
@[simp] theorem joinAt_fe (s : State) (d : BitVec 2) (ps : List Path) (f : Write → Bool) : (joinAt s d ps f).fe = s.fe := rfl
@[simp] theorem joinAt_tags (s : State) (d : BitVec 2) (ps : List Path) (f : Write → Bool) : (joinAt s d ps f).tags = s.tags := rfl
@[simp] theorem joinAt_bars (s : State) (d : BitVec 2) (ps : List Path) (f : Write → Bool) : (joinAt s d ps f).bars = s.bars := rfl
@[simp] theorem joinAt_epochs (s : State) (d : BitVec 2) (ps : List Path) (f : Write → Bool) : (joinAt s d ps f).epochs = s.epochs := rfl
@[simp] theorem joinAt_cmds (s : State) (d : BitVec 2) (ps : List Path) (f : Write → Bool) : (joinAt s d ps f).cmds = s.cmds := rfl
@[simp] theorem joinAt_snaps (s : State) (d : BitVec 2) (ps : List Path) (f : Write → Bool) : (joinAt s d ps f).snaps = s.snaps := rfl
@[simp] theorem joinAt_dies (s : State) (d : BitVec 2) (ps : List Path) (f : Write → Bool) : (joinAt s d ps f).dies = s.dies := rfl
@[simp] theorem joinAt_xd0 (s : State) (d : BitVec 2) (ps : List Path) (f : Write → Bool) : (joinAt s d ps f).xd0 = s.xd0 := rfl
@[simp] theorem joinAt_pfs (s : State) (d : BitVec 2) (ps : List Path) (f : Write → Bool) : (joinAt s d ps f).pfs = s.pfs := rfl
@[simp] theorem joinAt_events (s : State) (d : BitVec 2) (ps : List Path) (f : Write → Bool) : (joinAt s d ps f).events = s.events := rfl
@[simp] theorem joinAt_eventsSh (s : State) (d : BitVec 2) (ps : List Path) (f : Write → Bool) : (joinAt s d ps f).eventsSh = s.eventsSh := rfl
@[simp] theorem joinAt_paths (s : State) (d : BitVec 2) (ps : List Path) (f : Write → Bool) : (joinAt s d ps f).paths = s.paths := rfl
@[simp] theorem joinAt_links (s : State) (d : BitVec 2) (ps : List Path) (f : Write → Bool) : (joinAt s d ps f).links = s.links := rfl
@[simp] theorem joinAt_ports (s : State) (d : BitVec 2) (ps : List Path) (f : Write → Bool) : (joinAt s d ps f).ports = s.ports := rfl
@[simp] theorem joinAt_faceOut (s : State) (d : BitVec 2) (ps : List Path) (f : Write → Bool) : (joinAt s d ps f).faceOut = s.faceOut := rfl
@[simp] theorem joinAt_faceReq (s : State) (d : BitVec 2) (ps : List Path) (f : Write → Bool) : (joinAt s d ps f).faceReq = s.faceReq := rfl
@[simp] theorem joinAt_faceQ (s : State) (d : BitVec 2) (ps : List Path) (f : Write → Bool) : (joinAt s d ps f).faceQ = s.faceQ := rfl
@[simp] theorem joinAt_invals (s : State) (d : BitVec 2) (ps : List Path) (f : Write → Bool) : (joinAt s d ps f).invals = s.invals := rfl
@[simp] theorem joinAt_msix (s : State) (d : BitVec 2) (ps : List Path) (f : Write → Bool) : (joinAt s d ps f).msix = s.msix := rfl
@[simp] theorem joinAt_bar0 (s : State) (d : BitVec 2) (ps : List Path) (f : Write → Bool) : (joinAt s d ps f).bar0 = s.bar0 := rfl
@[simp] theorem joinAt_bar0Bad (s : State) (d : BitVec 2) (ps : List Path) (f : Write → Bool) : (joinAt s d ps f).bar0Bad = s.bar0Bad := rfl
@[simp] theorem joinAt_netOut (s : State) (d : BitVec 2) (ps : List Path) (f : Write → Bool) : (joinAt s d ps f).netOut = s.netOut := rfl
@[simp] theorem joinAt_netBad (s : State) (d : BitVec 2) (ps : List Path) (f : Write → Bool) : (joinAt s d ps f).netBad = s.netBad := rfl
@[simp] theorem joinAt_flows (s : State) (d : BitVec 2) (ps : List Path) (f : Write → Bool) : (joinAt s d ps f).flows = s.flows := rfl
@[simp] theorem joinAt_dropped (s : State) (d : BitVec 2) (ps : List Path) (f : Write → Bool) : (joinAt s d ps f).dropped = s.dropped := rfl
@[simp] theorem joinAt_powered (s : State) (d : BitVec 2) (ps : List Path) (f : Write → Bool) : (joinAt s d ps f).powered = s.powered := rfl
@[simp] theorem joinAt_time (s : State) (d : BitVec 2) (ps : List Path) (f : Write → Bool) : (joinAt s d ps f).time = s.time := rfl
@[simp] theorem joinAt_choice (s : State) (d : BitVec 2) (ps : List Path) (f : Write → Bool) : (joinAt s d ps f).choice = s.choice := rfl
@[simp] theorem joinAt_sig (s : State) (d : BitVec 2) (ps : List Path) (f : Write → Bool) : (joinAt s d ps f).sig = s.sig := rfl
@[simp] theorem joinAt_caught (s : State) (d : BitVec 2) (ps : List Path) (f : Write → Bool) : (joinAt s d ps f).caught = s.caught := rfl
@[simp] theorem joinAt_agenda (s : State) (d : BitVec 2) (ps : List Path) (f : Write → Bool) : (joinAt s d ps f).agenda = s.agenda := rfl

/-! ### A write in the base memory -/

@[simp] theorem baseWrite_core (s : State) (r : Option Release) (bs : List WByte) : (baseWrite s r bs).core = s.core := rfl
@[simp] theorem baseWrite_coreId (s : State) (r : Option Release) (bs : List WByte) : (baseWrite s r bs).coreId = s.coreId := rfl
@[simp] theorem baseWrite_parked (s : State) (r : Option Release) (bs : List WByte) : (baseWrite s r bs).parked = s.parked := rfl
@[simp] theorem baseWrite_writes (s : State) (r : Option Release) (bs : List WByte) : (baseWrite s r bs).writes = s.writes := rfl
@[simp] theorem baseWrite_nextId (s : State) (r : Option Release) (bs : List WByte) : (baseWrite s r bs).nextId = s.nextId := rfl
@[simp] theorem baseWrite_fe (s : State) (r : Option Release) (bs : List WByte) : (baseWrite s r bs).fe = s.fe := rfl
@[simp] theorem baseWrite_tags (s : State) (r : Option Release) (bs : List WByte) : (baseWrite s r bs).tags = s.tags := rfl
@[simp] theorem baseWrite_bars (s : State) (r : Option Release) (bs : List WByte) : (baseWrite s r bs).bars = s.bars := rfl
@[simp] theorem baseWrite_epochs (s : State) (r : Option Release) (bs : List WByte) : (baseWrite s r bs).epochs = s.epochs := rfl
@[simp] theorem baseWrite_cmds (s : State) (r : Option Release) (bs : List WByte) : (baseWrite s r bs).cmds = s.cmds := rfl
@[simp] theorem baseWrite_snaps (s : State) (r : Option Release) (bs : List WByte) : (baseWrite s r bs).snaps = s.snaps := rfl
@[simp] theorem baseWrite_dies (s : State) (r : Option Release) (bs : List WByte) : (baseWrite s r bs).dies = s.dies := rfl
@[simp] theorem baseWrite_xd0 (s : State) (r : Option Release) (bs : List WByte) : (baseWrite s r bs).xd0 = s.xd0 := rfl
@[simp] theorem baseWrite_pfs (s : State) (r : Option Release) (bs : List WByte) : (baseWrite s r bs).pfs = s.pfs := rfl
@[simp] theorem baseWrite_events (s : State) (r : Option Release) (bs : List WByte) : (baseWrite s r bs).events = s.events := rfl
@[simp] theorem baseWrite_eventsSh (s : State) (r : Option Release) (bs : List WByte) : (baseWrite s r bs).eventsSh = s.eventsSh := rfl
@[simp] theorem baseWrite_paths (s : State) (r : Option Release) (bs : List WByte) : (baseWrite s r bs).paths = s.paths := rfl
@[simp] theorem baseWrite_links (s : State) (r : Option Release) (bs : List WByte) : (baseWrite s r bs).links = s.links := rfl
@[simp] theorem baseWrite_ports (s : State) (r : Option Release) (bs : List WByte) : (baseWrite s r bs).ports = s.ports := rfl
@[simp] theorem baseWrite_faceOut (s : State) (r : Option Release) (bs : List WByte) : (baseWrite s r bs).faceOut = s.faceOut := rfl
@[simp] theorem baseWrite_faceReq (s : State) (r : Option Release) (bs : List WByte) : (baseWrite s r bs).faceReq = s.faceReq := rfl
@[simp] theorem baseWrite_faceQ (s : State) (r : Option Release) (bs : List WByte) : (baseWrite s r bs).faceQ = s.faceQ := rfl
@[simp] theorem baseWrite_invals (s : State) (r : Option Release) (bs : List WByte) : (baseWrite s r bs).invals = s.invals := rfl
@[simp] theorem baseWrite_msix (s : State) (r : Option Release) (bs : List WByte) : (baseWrite s r bs).msix = s.msix := rfl
@[simp] theorem baseWrite_bar0 (s : State) (r : Option Release) (bs : List WByte) : (baseWrite s r bs).bar0 = s.bar0 := rfl
@[simp] theorem baseWrite_bar0Bad (s : State) (r : Option Release) (bs : List WByte) : (baseWrite s r bs).bar0Bad = s.bar0Bad := rfl
@[simp] theorem baseWrite_netOut (s : State) (r : Option Release) (bs : List WByte) : (baseWrite s r bs).netOut = s.netOut := rfl
@[simp] theorem baseWrite_netBad (s : State) (r : Option Release) (bs : List WByte) : (baseWrite s r bs).netBad = s.netBad := rfl
@[simp] theorem baseWrite_flows (s : State) (r : Option Release) (bs : List WByte) : (baseWrite s r bs).flows = s.flows := rfl
@[simp] theorem baseWrite_dropped (s : State) (r : Option Release) (bs : List WByte) : (baseWrite s r bs).dropped = s.dropped := rfl
@[simp] theorem baseWrite_powered (s : State) (r : Option Release) (bs : List WByte) : (baseWrite s r bs).powered = s.powered := rfl
@[simp] theorem baseWrite_time (s : State) (r : Option Release) (bs : List WByte) : (baseWrite s r bs).time = s.time := rfl
@[simp] theorem baseWrite_choice (s : State) (r : Option Release) (bs : List WByte) : (baseWrite s r bs).choice = s.choice := rfl
@[simp] theorem baseWrite_sig (s : State) (r : Option Release) (bs : List WByte) : (baseWrite s r bs).sig = s.sig := rfl
@[simp] theorem baseWrite_caught (s : State) (r : Option Release) (bs : List WByte) : (baseWrite s r bs).caught = s.caught := rfl
@[simp] theorem baseWrite_agenda (s : State) (r : Option Release) (bs : List WByte) : (baseWrite s r bs).agenda = s.agenda := rfl

/-! ### A counter -/

@[simp] theorem CoreState.count_run (c : CoreState) (i : BitVec 3) (d : BitVec 16) : (c.count i d).run = c.run := rfl
@[simp] theorem CoreState.count_pc (c : CoreState) (i : BitVec 3) (d : BitVec 16) : (c.count i d).pc = c.pc := rfl
@[simp] theorem CoreState.count_s (c : CoreState) (i : BitVec 3) (d : BitVec 16) : (c.count i d).s = c.s := rfl
@[simp] theorem CoreState.count_a (c : CoreState) (i : BitVec 3) (d : BitVec 16) : (c.count i d).a = c.a := rfl
@[simp] theorem CoreState.count_m (c : CoreState) (i : BitVec 3) (d : BitVec 16) : (c.count i d).m = c.m := rfl
@[simp] theorem CoreState.count_v (c : CoreState) (i : BitVec 3) (d : BitVec 16) : (c.count i d).v = c.v := rfl
@[simp] theorem CoreState.count_k (c : CoreState) (i : BitVec 3) (d : BitVec 16) : (c.count i d).k = c.k := rfl
@[simp] theorem CoreState.count_g (c : CoreState) (i : BitVec 3) (d : BitVec 16) : (c.count i d).g = c.g := rfl
@[simp] theorem CoreState.count_fmt (c : CoreState) (i : BitVec 3) (d : BitVec 16) : (c.count i d).fmt = c.fmt := rfl
@[simp] theorem CoreState.count_fflags (c : CoreState) (i : BitVec 3) (d : BitVec 16) : (c.count i d).fflags = c.fflags := rfl
@[simp] theorem CoreState.count_tstat (c : CoreState) (i : BitVec 3) (d : BitVec 16) : (c.count i d).tstat = c.tstat := rfl
@[simp] theorem CoreState.count_loops (c : CoreState) (i : BitVec 3) (d : BitVec 16) : (c.count i d).loops = c.loops := rfl
@[simp] theorem CoreState.count_rsst (c : CoreState) (i : BitVec 3) (d : BitVec 16) : (c.count i d).rsst = c.rsst := rfl
@[simp] theorem CoreState.count_bcnt (c : CoreState) (i : BitVec 3) (d : BitVec 16) : (c.count i d).bcnt = c.bcnt := rfl
@[simp] theorem CoreState.count_dpc (c : CoreState) (i : BitVec 3) (d : BitVec 16) : (c.count i d).dpc = c.dpc := rfl
@[simp] theorem CoreState.count_dbgctl (c : CoreState) (i : BitVec 3) (d : BitVec 16) : (c.count i d).dbgctl = c.dbgctl := rfl
@[simp] theorem CoreState.count_jump (c : CoreState) (i : BitVec 3) (d : BitVec 16) : (c.count i d).jump = c.jump := rfl
@[simp] theorem CoreState.count_post (c : CoreState) (i : BitVec 3) (d : BitVec 16) : (c.count i d).post = c.post := rfl
@[simp] theorem CoreState.count_pend (c : CoreState) (i : BitVec 3) (d : BitVec 16) : (c.count i d).pend = c.pend := rfl
@[simp] theorem CoreState.count_locks (c : CoreState) (i : BitVec 3) (d : BitVec 16) : (c.count i d).locks = c.locks := rfl
@[simp] theorem CoreState.count_staked (c : CoreState) (i : BitVec 3) (d : BitVec 16) : (c.count i d).staked = c.staked := rfl
@[simp] theorem CoreState.count_seq (c : CoreState) (i : BitVec 3) (d : BitVec 16) : (c.count i d).seq = c.seq := rfl
@[simp] theorem CoreState.count_sq (c : CoreState) (i : BitVec 3) (d : BitVec 16) : (c.count i d).sq = c.sq := rfl
@[simp] theorem CoreState.count_mcast (c : CoreState) (i : BitVec 3) (d : BitVec 16) : (c.count i d).mcast = c.mcast := rfl
@[simp] theorem CoreState.count_loads (c : CoreState) (i : BitVec 3) (d : BitVec 16) : (c.count i d).loads = c.loads := rfl
@[simp] theorem CoreState.count_cnt (c : CoreState) (i : BitVec 3) (d : BitVec 16) : (c.count i d).cnt = c.cnt.add i d := rfl
@[simp] theorem CoreState.count_splits (c : CoreState) (i : BitVec 3) (d : BitVec 16) : (c.count i d).splits = c.splits := rfl
@[simp] theorem CoreState.count_arrivals (c : CoreState) (i : BitVec 3) (d : BitVec 16) : (c.count i d).arrivals = c.arrivals := rfl
@[simp] theorem CoreState.count_deferred (c : CoreState) (i : BitVec 3) (d : BitVec 16) : (c.count i d).deferred = c.deferred := rfl
@[simp] theorem CoreState.count_acc (c : CoreState) (i : BitVec 3) (d : BitVec 16) : (c.count i d).acc = c.acc := rfl
@[simp] theorem CoreState.count_accErr (c : CoreState) (i : BitVec 3) (d : BitVec 16) : (c.count i d).accErr = c.accErr := rfl
@[simp] theorem CoreState.count_wbuf (c : CoreState) (i : BitVec 3) (d : BitVec 16) : (c.count i d).wbuf = c.wbuf := rfl
@[simp] theorem CoreState.count_wbufErr (c : CoreState) (i : BitVec 3) (d : BitVec 16) : (c.count i d).wbufErr = c.wbufErr := rfl
@[simp] theorem CoreState.count_bActive (c : CoreState) (i : BitVec 3) (d : BitVec 16) : (c.count i d).bActive = c.bActive := rfl
@[simp] theorem CoreState.count_bStaged (c : CoreState) (i : BitVec 3) (d : BitVec 16) : (c.count i d).bStaged = c.bStaged := rfl
@[simp] theorem CoreState.count_fill (c : CoreState) (i : BitVec 3) (d : BitVec 16) : (c.count i d).fill = c.fill := rfl
@[simp] theorem CoreState.count_beat (c : CoreState) (i : BitVec 3) (d : BitVec 16) : (c.count i d).beat = c.beat := rfl
@[simp] theorem CoreState.count_ladders (c : CoreState) (i : BitVec 3) (d : BitVec 16) : (c.count i d).ladders = c.ladders := rfl
@[simp] theorem CoreState.count_sumps (c : CoreState) (i : BitVec 3) (d : BitVec 16) : (c.count i d).sumps = c.sumps := rfl
@[simp] theorem CoreState.count_task (c : CoreState) (i : BitVec 3) (d : BitVec 16) : (c.count i d).task = c.task := rfl
@[simp] theorem CoreState.count_plane (c : CoreState) (i : BitVec 3) (d : BitVec 16) : (c.count i d).plane = c.plane := rfl
@[simp] theorem CoreState.count_shadow (c : CoreState) (i : BitVec 3) (d : BitVec 16) : (c.count i d).shadow = c.shadow := rfl
@[simp] theorem CoreState.count_spare (c : CoreState) (i : BitVec 3) (d : BitVec 16) : (c.count i d).spare = c.spare := rfl
@[simp] theorem CoreState.count_seen (c : CoreState) (i : BitVec 3) (d : BitVec 16) : (c.count i d).seen = c.seen := rfl
@[simp] theorem CoreState.count_obs (c : CoreState) (i : BitVec 3) (d : BitVec 16) : (c.count i d).obs = c.obs := rfl
@[simp] theorem CoreState.count_own (c : CoreState) (i : BitVec 3) (d : BitVec 16) : (c.count i d).own = c.own := rfl
@[simp] theorem CoreState.count_drainReq (c : CoreState) (i : BitVec 3) (d : BitVec 16) : (c.count i d).drainReq = c.drainReq := rfl
@[simp] theorem CoreState.count_drainRpc (c : CoreState) (i : BitVec 3) (d : BitVec 16) : (c.count i d).drainRpc = c.drainRpc := rfl
@[simp] theorem CoreState.count_stay (c : CoreState) (i : BitVec 3) (d : BitVec 16) : (c.count i d).stay = c.stay := rfl
@[simp] theorem CoreState.count_rate (c : CoreState) (i : BitVec 3) (d : BitVec 16) : (c.count i d).rate = c.rate := rfl
@[simp] theorem CoreState.count_frz (c : CoreState) (i : BitVec 3) (d : BitVec 16) : (c.count i d).frz = c.frz := rfl
@[simp] theorem CoreState.count_after (c : CoreState) (i : BitVec 3) (d : BitVec 16) : (c.count i d).after = c.after := rfl

/-! ### The result of an interlocked destination -/

@[simp] theorem CoreState.answer_run (c : CoreState) (t : Nat) (v : Word) : (c.answer t v).run = c.run := rfl
@[simp] theorem CoreState.answer_pc (c : CoreState) (t : Nat) (v : Word) : (c.answer t v).pc = c.pc := rfl
@[simp] theorem CoreState.answer_s (c : CoreState) (t : Nat) (v : Word) : (c.answer t v).s = c.s := rfl
@[simp] theorem CoreState.answer_a (c : CoreState) (t : Nat) (v : Word) : (c.answer t v).a = c.a := rfl
@[simp] theorem CoreState.answer_m (c : CoreState) (t : Nat) (v : Word) : (c.answer t v).m = c.m := rfl
@[simp] theorem CoreState.answer_v (c : CoreState) (t : Nat) (v : Word) : (c.answer t v).v = c.v := rfl
@[simp] theorem CoreState.answer_k (c : CoreState) (t : Nat) (v : Word) : (c.answer t v).k = c.k := rfl
@[simp] theorem CoreState.answer_g (c : CoreState) (t : Nat) (v : Word) : (c.answer t v).g = c.g := rfl
@[simp] theorem CoreState.answer_fmt (c : CoreState) (t : Nat) (v : Word) : (c.answer t v).fmt = c.fmt := rfl
@[simp] theorem CoreState.answer_fflags (c : CoreState) (t : Nat) (v : Word) : (c.answer t v).fflags = c.fflags := rfl
@[simp] theorem CoreState.answer_tstat (c : CoreState) (t : Nat) (v : Word) : (c.answer t v).tstat = c.tstat := rfl
@[simp] theorem CoreState.answer_loops (c : CoreState) (t : Nat) (v : Word) : (c.answer t v).loops = c.loops := rfl
@[simp] theorem CoreState.answer_rsst (c : CoreState) (t : Nat) (v : Word) : (c.answer t v).rsst = c.rsst := rfl
@[simp] theorem CoreState.answer_bcnt (c : CoreState) (t : Nat) (v : Word) : (c.answer t v).bcnt = c.bcnt := rfl
@[simp] theorem CoreState.answer_dpc (c : CoreState) (t : Nat) (v : Word) : (c.answer t v).dpc = c.dpc := rfl
@[simp] theorem CoreState.answer_dbgctl (c : CoreState) (t : Nat) (v : Word) : (c.answer t v).dbgctl = c.dbgctl := rfl
@[simp] theorem CoreState.answer_jump (c : CoreState) (t : Nat) (v : Word) : (c.answer t v).jump = c.jump := rfl
@[simp] theorem CoreState.answer_post (c : CoreState) (t : Nat) (v : Word) : (c.answer t v).post = c.post := rfl
@[simp] theorem CoreState.answer_pend (c : CoreState) (t : Nat) (v : Word) : (c.answer t v).pend = c.pend := rfl
@[simp] theorem CoreState.answer_staked (c : CoreState) (t : Nat) (v : Word) : (c.answer t v).staked = c.staked := rfl
@[simp] theorem CoreState.answer_seq (c : CoreState) (t : Nat) (v : Word) : (c.answer t v).seq = c.seq := rfl
@[simp] theorem CoreState.answer_sq (c : CoreState) (t : Nat) (v : Word) : (c.answer t v).sq = c.sq := rfl
@[simp] theorem CoreState.answer_mcast (c : CoreState) (t : Nat) (v : Word) : (c.answer t v).mcast = c.mcast := rfl
@[simp] theorem CoreState.answer_loads (c : CoreState) (t : Nat) (v : Word) : (c.answer t v).loads = c.loads := rfl
@[simp] theorem CoreState.answer_cnt (c : CoreState) (t : Nat) (v : Word) : (c.answer t v).cnt = c.cnt := rfl
@[simp] theorem CoreState.answer_splits (c : CoreState) (t : Nat) (v : Word) : (c.answer t v).splits = c.splits := rfl
@[simp] theorem CoreState.answer_arrivals (c : CoreState) (t : Nat) (v : Word) : (c.answer t v).arrivals = c.arrivals := rfl
@[simp] theorem CoreState.answer_deferred (c : CoreState) (t : Nat) (v : Word) : (c.answer t v).deferred = c.deferred := rfl
@[simp] theorem CoreState.answer_acc (c : CoreState) (t : Nat) (v : Word) : (c.answer t v).acc = c.acc := rfl
@[simp] theorem CoreState.answer_accErr (c : CoreState) (t : Nat) (v : Word) : (c.answer t v).accErr = c.accErr := rfl
@[simp] theorem CoreState.answer_wbuf (c : CoreState) (t : Nat) (v : Word) : (c.answer t v).wbuf = c.wbuf := rfl
@[simp] theorem CoreState.answer_wbufErr (c : CoreState) (t : Nat) (v : Word) : (c.answer t v).wbufErr = c.wbufErr := rfl
@[simp] theorem CoreState.answer_bActive (c : CoreState) (t : Nat) (v : Word) : (c.answer t v).bActive = c.bActive := rfl
@[simp] theorem CoreState.answer_bStaged (c : CoreState) (t : Nat) (v : Word) : (c.answer t v).bStaged = c.bStaged := rfl
@[simp] theorem CoreState.answer_fill (c : CoreState) (t : Nat) (v : Word) : (c.answer t v).fill = c.fill := rfl
@[simp] theorem CoreState.answer_beat (c : CoreState) (t : Nat) (v : Word) : (c.answer t v).beat = c.beat := rfl
@[simp] theorem CoreState.answer_ladders (c : CoreState) (t : Nat) (v : Word) : (c.answer t v).ladders = c.ladders := rfl
@[simp] theorem CoreState.answer_sumps (c : CoreState) (t : Nat) (v : Word) : (c.answer t v).sumps = c.sumps := rfl
@[simp] theorem CoreState.answer_task (c : CoreState) (t : Nat) (v : Word) : (c.answer t v).task = c.task := rfl
@[simp] theorem CoreState.answer_plane (c : CoreState) (t : Nat) (v : Word) : (c.answer t v).plane = c.plane := rfl
@[simp] theorem CoreState.answer_shadow (c : CoreState) (t : Nat) (v : Word) : (c.answer t v).shadow = c.shadow := rfl
@[simp] theorem CoreState.answer_spare (c : CoreState) (t : Nat) (v : Word) : (c.answer t v).spare = c.spare := rfl
@[simp] theorem CoreState.answer_seen (c : CoreState) (t : Nat) (v : Word) : (c.answer t v).seen = c.seen := rfl
@[simp] theorem CoreState.answer_obs (c : CoreState) (t : Nat) (v : Word) : (c.answer t v).obs = c.obs := rfl
@[simp] theorem CoreState.answer_own (c : CoreState) (t : Nat) (v : Word) : (c.answer t v).own = c.own := rfl
@[simp] theorem CoreState.answer_drainReq (c : CoreState) (t : Nat) (v : Word) : (c.answer t v).drainReq = c.drainReq := rfl
@[simp] theorem CoreState.answer_drainRpc (c : CoreState) (t : Nat) (v : Word) : (c.answer t v).drainRpc = c.drainRpc := rfl
@[simp] theorem CoreState.answer_stay (c : CoreState) (t : Nat) (v : Word) : (c.answer t v).stay = c.stay := rfl
@[simp] theorem CoreState.answer_rate (c : CoreState) (t : Nat) (v : Word) : (c.answer t v).rate = c.rate := rfl
@[simp] theorem CoreState.answer_frz (c : CoreState) (t : Nat) (v : Word) : (c.answer t v).frz = c.frz := rfl
@[simp] theorem CoreState.answer_after (c : CoreState) (t : Nat) (v : Word) : (c.answer t v).after = c.after := rfl

/-! ### Flags -/

@[simp] theorem CoreState.orFlags_run (c : CoreState) (f : Flags) : (c.orFlags f).run = c.run := rfl
@[simp] theorem CoreState.orFlags_pc (c : CoreState) (f : Flags) : (c.orFlags f).pc = c.pc := rfl
@[simp] theorem CoreState.orFlags_s (c : CoreState) (f : Flags) : (c.orFlags f).s = c.s := rfl
@[simp] theorem CoreState.orFlags_a (c : CoreState) (f : Flags) : (c.orFlags f).a = c.a := rfl
@[simp] theorem CoreState.orFlags_m (c : CoreState) (f : Flags) : (c.orFlags f).m = c.m := rfl
@[simp] theorem CoreState.orFlags_v (c : CoreState) (f : Flags) : (c.orFlags f).v = c.v := rfl
@[simp] theorem CoreState.orFlags_k (c : CoreState) (f : Flags) : (c.orFlags f).k = c.k := rfl
@[simp] theorem CoreState.orFlags_g (c : CoreState) (f : Flags) : (c.orFlags f).g = c.g := rfl
@[simp] theorem CoreState.orFlags_fmt (c : CoreState) (f : Flags) : (c.orFlags f).fmt = c.fmt := rfl
@[simp] theorem CoreState.orFlags_fflags (c : CoreState) (f : Flags) : (c.orFlags f).fflags = c.fflags ||| f.setWidth 32 := rfl
@[simp] theorem CoreState.orFlags_tstat (c : CoreState) (f : Flags) : (c.orFlags f).tstat = c.tstat := rfl
@[simp] theorem CoreState.orFlags_loops (c : CoreState) (f : Flags) : (c.orFlags f).loops = c.loops := rfl
@[simp] theorem CoreState.orFlags_rsst (c : CoreState) (f : Flags) : (c.orFlags f).rsst = c.rsst := rfl
@[simp] theorem CoreState.orFlags_bcnt (c : CoreState) (f : Flags) : (c.orFlags f).bcnt = c.bcnt := rfl
@[simp] theorem CoreState.orFlags_dpc (c : CoreState) (f : Flags) : (c.orFlags f).dpc = c.dpc := rfl
@[simp] theorem CoreState.orFlags_dbgctl (c : CoreState) (f : Flags) : (c.orFlags f).dbgctl = c.dbgctl := rfl
@[simp] theorem CoreState.orFlags_jump (c : CoreState) (f : Flags) : (c.orFlags f).jump = c.jump := rfl
@[simp] theorem CoreState.orFlags_post (c : CoreState) (f : Flags) : (c.orFlags f).post = c.post := rfl
@[simp] theorem CoreState.orFlags_pend (c : CoreState) (f : Flags) : (c.orFlags f).pend = c.pend := rfl
@[simp] theorem CoreState.orFlags_locks (c : CoreState) (f : Flags) : (c.orFlags f).locks = c.locks := rfl
@[simp] theorem CoreState.orFlags_staked (c : CoreState) (f : Flags) : (c.orFlags f).staked = c.staked := rfl
@[simp] theorem CoreState.orFlags_seq (c : CoreState) (f : Flags) : (c.orFlags f).seq = c.seq := rfl
@[simp] theorem CoreState.orFlags_sq (c : CoreState) (f : Flags) : (c.orFlags f).sq = c.sq := rfl
@[simp] theorem CoreState.orFlags_mcast (c : CoreState) (f : Flags) : (c.orFlags f).mcast = c.mcast := rfl
@[simp] theorem CoreState.orFlags_loads (c : CoreState) (f : Flags) : (c.orFlags f).loads = c.loads := rfl
@[simp] theorem CoreState.orFlags_cnt (c : CoreState) (f : Flags) : (c.orFlags f).cnt = c.cnt := rfl
@[simp] theorem CoreState.orFlags_splits (c : CoreState) (f : Flags) : (c.orFlags f).splits = c.splits := rfl
@[simp] theorem CoreState.orFlags_arrivals (c : CoreState) (f : Flags) : (c.orFlags f).arrivals = c.arrivals := rfl
@[simp] theorem CoreState.orFlags_deferred (c : CoreState) (f : Flags) : (c.orFlags f).deferred = c.deferred := rfl
@[simp] theorem CoreState.orFlags_acc (c : CoreState) (f : Flags) : (c.orFlags f).acc = c.acc := rfl
@[simp] theorem CoreState.orFlags_accErr (c : CoreState) (f : Flags) : (c.orFlags f).accErr = c.accErr := rfl
@[simp] theorem CoreState.orFlags_wbuf (c : CoreState) (f : Flags) : (c.orFlags f).wbuf = c.wbuf := rfl
@[simp] theorem CoreState.orFlags_wbufErr (c : CoreState) (f : Flags) : (c.orFlags f).wbufErr = c.wbufErr := rfl
@[simp] theorem CoreState.orFlags_bActive (c : CoreState) (f : Flags) : (c.orFlags f).bActive = c.bActive := rfl
@[simp] theorem CoreState.orFlags_bStaged (c : CoreState) (f : Flags) : (c.orFlags f).bStaged = c.bStaged := rfl
@[simp] theorem CoreState.orFlags_fill (c : CoreState) (f : Flags) : (c.orFlags f).fill = c.fill := rfl
@[simp] theorem CoreState.orFlags_beat (c : CoreState) (f : Flags) : (c.orFlags f).beat = c.beat := rfl
@[simp] theorem CoreState.orFlags_ladders (c : CoreState) (f : Flags) : (c.orFlags f).ladders = c.ladders := rfl
@[simp] theorem CoreState.orFlags_sumps (c : CoreState) (f : Flags) : (c.orFlags f).sumps = c.sumps := rfl
@[simp] theorem CoreState.orFlags_task (c : CoreState) (f : Flags) : (c.orFlags f).task = c.task := rfl
@[simp] theorem CoreState.orFlags_plane (c : CoreState) (f : Flags) : (c.orFlags f).plane = c.plane := rfl
@[simp] theorem CoreState.orFlags_shadow (c : CoreState) (f : Flags) : (c.orFlags f).shadow = c.shadow := rfl
@[simp] theorem CoreState.orFlags_spare (c : CoreState) (f : Flags) : (c.orFlags f).spare = c.spare := rfl
@[simp] theorem CoreState.orFlags_seen (c : CoreState) (f : Flags) : (c.orFlags f).seen = c.seen := rfl
@[simp] theorem CoreState.orFlags_obs (c : CoreState) (f : Flags) : (c.orFlags f).obs = c.obs := rfl
@[simp] theorem CoreState.orFlags_own (c : CoreState) (f : Flags) : (c.orFlags f).own = c.own := rfl
@[simp] theorem CoreState.orFlags_drainReq (c : CoreState) (f : Flags) : (c.orFlags f).drainReq = c.drainReq := rfl
@[simp] theorem CoreState.orFlags_drainRpc (c : CoreState) (f : Flags) : (c.orFlags f).drainRpc = c.drainRpc := rfl
@[simp] theorem CoreState.orFlags_stay (c : CoreState) (f : Flags) : (c.orFlags f).stay = c.stay := rfl
@[simp] theorem CoreState.orFlags_rate (c : CoreState) (f : Flags) : (c.orFlags f).rate = c.rate := rfl
@[simp] theorem CoreState.orFlags_frz (c : CoreState) (f : Flags) : (c.orFlags f).frz = c.frz := rfl
@[simp] theorem CoreState.orFlags_after (c : CoreState) (f : Flags) : (c.orFlags f).after = c.after := rfl

/-! ### An accumulator row -/

@[simp] theorem CoreState.setRow_run (c : CoreState) (r : Nat) (x : AccRow) : (c.setRow r x).run = c.run := rfl
@[simp] theorem CoreState.setRow_pc (c : CoreState) (r : Nat) (x : AccRow) : (c.setRow r x).pc = c.pc := rfl
@[simp] theorem CoreState.setRow_s (c : CoreState) (r : Nat) (x : AccRow) : (c.setRow r x).s = c.s := rfl
@[simp] theorem CoreState.setRow_a (c : CoreState) (r : Nat) (x : AccRow) : (c.setRow r x).a = c.a := rfl
@[simp] theorem CoreState.setRow_m (c : CoreState) (r : Nat) (x : AccRow) : (c.setRow r x).m = c.m := rfl
@[simp] theorem CoreState.setRow_v (c : CoreState) (r : Nat) (x : AccRow) : (c.setRow r x).v = c.v := rfl
@[simp] theorem CoreState.setRow_k (c : CoreState) (r : Nat) (x : AccRow) : (c.setRow r x).k = c.k := rfl
@[simp] theorem CoreState.setRow_g (c : CoreState) (r : Nat) (x : AccRow) : (c.setRow r x).g = c.g := rfl
@[simp] theorem CoreState.setRow_fmt (c : CoreState) (r : Nat) (x : AccRow) : (c.setRow r x).fmt = c.fmt := rfl
@[simp] theorem CoreState.setRow_fflags (c : CoreState) (r : Nat) (x : AccRow) : (c.setRow r x).fflags = c.fflags := rfl
@[simp] theorem CoreState.setRow_tstat (c : CoreState) (r : Nat) (x : AccRow) : (c.setRow r x).tstat = c.tstat := rfl
@[simp] theorem CoreState.setRow_loops (c : CoreState) (r : Nat) (x : AccRow) : (c.setRow r x).loops = c.loops := rfl
@[simp] theorem CoreState.setRow_rsst (c : CoreState) (r : Nat) (x : AccRow) : (c.setRow r x).rsst = c.rsst := rfl
@[simp] theorem CoreState.setRow_bcnt (c : CoreState) (r : Nat) (x : AccRow) : (c.setRow r x).bcnt = c.bcnt := rfl
@[simp] theorem CoreState.setRow_dpc (c : CoreState) (r : Nat) (x : AccRow) : (c.setRow r x).dpc = c.dpc := rfl
@[simp] theorem CoreState.setRow_dbgctl (c : CoreState) (r : Nat) (x : AccRow) : (c.setRow r x).dbgctl = c.dbgctl := rfl
@[simp] theorem CoreState.setRow_jump (c : CoreState) (r : Nat) (x : AccRow) : (c.setRow r x).jump = c.jump := rfl
@[simp] theorem CoreState.setRow_post (c : CoreState) (r : Nat) (x : AccRow) : (c.setRow r x).post = c.post := rfl
@[simp] theorem CoreState.setRow_pend (c : CoreState) (r : Nat) (x : AccRow) : (c.setRow r x).pend = c.pend := rfl
@[simp] theorem CoreState.setRow_locks (c : CoreState) (r : Nat) (x : AccRow) : (c.setRow r x).locks = c.locks := rfl
@[simp] theorem CoreState.setRow_staked (c : CoreState) (r : Nat) (x : AccRow) : (c.setRow r x).staked = c.staked := rfl
@[simp] theorem CoreState.setRow_seq (c : CoreState) (r : Nat) (x : AccRow) : (c.setRow r x).seq = c.seq := rfl
@[simp] theorem CoreState.setRow_sq (c : CoreState) (r : Nat) (x : AccRow) : (c.setRow r x).sq = c.sq := rfl
@[simp] theorem CoreState.setRow_mcast (c : CoreState) (r : Nat) (x : AccRow) : (c.setRow r x).mcast = c.mcast := rfl
@[simp] theorem CoreState.setRow_loads (c : CoreState) (r : Nat) (x : AccRow) : (c.setRow r x).loads = c.loads := rfl
@[simp] theorem CoreState.setRow_cnt (c : CoreState) (r : Nat) (x : AccRow) : (c.setRow r x).cnt = c.cnt := rfl
@[simp] theorem CoreState.setRow_splits (c : CoreState) (r : Nat) (x : AccRow) : (c.setRow r x).splits = c.splits := rfl
@[simp] theorem CoreState.setRow_arrivals (c : CoreState) (r : Nat) (x : AccRow) : (c.setRow r x).arrivals = c.arrivals := rfl
@[simp] theorem CoreState.setRow_deferred (c : CoreState) (r : Nat) (x : AccRow) : (c.setRow r x).deferred = c.deferred := rfl
@[simp] theorem CoreState.setRow_wbuf (c : CoreState) (r : Nat) (x : AccRow) : (c.setRow r x).wbuf = c.wbuf := rfl
@[simp] theorem CoreState.setRow_wbufErr (c : CoreState) (r : Nat) (x : AccRow) : (c.setRow r x).wbufErr = c.wbufErr := rfl
@[simp] theorem CoreState.setRow_bActive (c : CoreState) (r : Nat) (x : AccRow) : (c.setRow r x).bActive = c.bActive := rfl
@[simp] theorem CoreState.setRow_bStaged (c : CoreState) (r : Nat) (x : AccRow) : (c.setRow r x).bStaged = c.bStaged := rfl
@[simp] theorem CoreState.setRow_fill (c : CoreState) (r : Nat) (x : AccRow) : (c.setRow r x).fill = c.fill := rfl
@[simp] theorem CoreState.setRow_beat (c : CoreState) (r : Nat) (x : AccRow) : (c.setRow r x).beat = c.beat := rfl
@[simp] theorem CoreState.setRow_ladders (c : CoreState) (r : Nat) (x : AccRow) : (c.setRow r x).ladders = c.ladders := rfl
@[simp] theorem CoreState.setRow_sumps (c : CoreState) (r : Nat) (x : AccRow) : (c.setRow r x).sumps = c.sumps := rfl
@[simp] theorem CoreState.setRow_task (c : CoreState) (r : Nat) (x : AccRow) : (c.setRow r x).task = c.task := rfl
@[simp] theorem CoreState.setRow_plane (c : CoreState) (r : Nat) (x : AccRow) : (c.setRow r x).plane = c.plane := rfl
@[simp] theorem CoreState.setRow_shadow (c : CoreState) (r : Nat) (x : AccRow) : (c.setRow r x).shadow = c.shadow := rfl
@[simp] theorem CoreState.setRow_spare (c : CoreState) (r : Nat) (x : AccRow) : (c.setRow r x).spare = c.spare := rfl
@[simp] theorem CoreState.setRow_seen (c : CoreState) (r : Nat) (x : AccRow) : (c.setRow r x).seen = c.seen := rfl
@[simp] theorem CoreState.setRow_obs (c : CoreState) (r : Nat) (x : AccRow) : (c.setRow r x).obs = c.obs := rfl
@[simp] theorem CoreState.setRow_own (c : CoreState) (r : Nat) (x : AccRow) : (c.setRow r x).own = c.own := rfl
@[simp] theorem CoreState.setRow_drainReq (c : CoreState) (r : Nat) (x : AccRow) : (c.setRow r x).drainReq = c.drainReq := rfl
@[simp] theorem CoreState.setRow_drainRpc (c : CoreState) (r : Nat) (x : AccRow) : (c.setRow r x).drainRpc = c.drainRpc := rfl
@[simp] theorem CoreState.setRow_stay (c : CoreState) (r : Nat) (x : AccRow) : (c.setRow r x).stay = c.stay := rfl
@[simp] theorem CoreState.setRow_rate (c : CoreState) (r : Nat) (x : AccRow) : (c.setRow r x).rate = c.rate := rfl
@[simp] theorem CoreState.setRow_frz (c : CoreState) (r : Nat) (x : AccRow) : (c.setRow r x).frz = c.frz := rfl
@[simp] theorem CoreState.setRow_after (c : CoreState) (r : Nat) (x : AccRow) : (c.setRow r x).after = c.after := rfl

/-! ### A ladder -/

@[simp] theorem CoreState.setLadder_run (c : CoreState) (l : BitVec 2) (x : Ladder) : (c.setLadder l x).run = c.run := rfl
@[simp] theorem CoreState.setLadder_pc (c : CoreState) (l : BitVec 2) (x : Ladder) : (c.setLadder l x).pc = c.pc := rfl
@[simp] theorem CoreState.setLadder_s (c : CoreState) (l : BitVec 2) (x : Ladder) : (c.setLadder l x).s = c.s := rfl
@[simp] theorem CoreState.setLadder_a (c : CoreState) (l : BitVec 2) (x : Ladder) : (c.setLadder l x).a = c.a := rfl
@[simp] theorem CoreState.setLadder_m (c : CoreState) (l : BitVec 2) (x : Ladder) : (c.setLadder l x).m = c.m := rfl
@[simp] theorem CoreState.setLadder_v (c : CoreState) (l : BitVec 2) (x : Ladder) : (c.setLadder l x).v = c.v := rfl
@[simp] theorem CoreState.setLadder_k (c : CoreState) (l : BitVec 2) (x : Ladder) : (c.setLadder l x).k = c.k := rfl
@[simp] theorem CoreState.setLadder_g (c : CoreState) (l : BitVec 2) (x : Ladder) : (c.setLadder l x).g = c.g := rfl
@[simp] theorem CoreState.setLadder_fmt (c : CoreState) (l : BitVec 2) (x : Ladder) : (c.setLadder l x).fmt = c.fmt := rfl
@[simp] theorem CoreState.setLadder_fflags (c : CoreState) (l : BitVec 2) (x : Ladder) : (c.setLadder l x).fflags = c.fflags := rfl
@[simp] theorem CoreState.setLadder_tstat (c : CoreState) (l : BitVec 2) (x : Ladder) : (c.setLadder l x).tstat = c.tstat := rfl
@[simp] theorem CoreState.setLadder_loops (c : CoreState) (l : BitVec 2) (x : Ladder) : (c.setLadder l x).loops = c.loops := rfl
@[simp] theorem CoreState.setLadder_rsst (c : CoreState) (l : BitVec 2) (x : Ladder) : (c.setLadder l x).rsst = c.rsst := rfl
@[simp] theorem CoreState.setLadder_bcnt (c : CoreState) (l : BitVec 2) (x : Ladder) : (c.setLadder l x).bcnt = c.bcnt := rfl
@[simp] theorem CoreState.setLadder_dpc (c : CoreState) (l : BitVec 2) (x : Ladder) : (c.setLadder l x).dpc = c.dpc := rfl
@[simp] theorem CoreState.setLadder_dbgctl (c : CoreState) (l : BitVec 2) (x : Ladder) : (c.setLadder l x).dbgctl = c.dbgctl := rfl
@[simp] theorem CoreState.setLadder_jump (c : CoreState) (l : BitVec 2) (x : Ladder) : (c.setLadder l x).jump = c.jump := rfl
@[simp] theorem CoreState.setLadder_post (c : CoreState) (l : BitVec 2) (x : Ladder) : (c.setLadder l x).post = c.post := rfl
@[simp] theorem CoreState.setLadder_pend (c : CoreState) (l : BitVec 2) (x : Ladder) : (c.setLadder l x).pend = c.pend := rfl
@[simp] theorem CoreState.setLadder_locks (c : CoreState) (l : BitVec 2) (x : Ladder) : (c.setLadder l x).locks = c.locks := rfl
@[simp] theorem CoreState.setLadder_staked (c : CoreState) (l : BitVec 2) (x : Ladder) : (c.setLadder l x).staked = c.staked := rfl
@[simp] theorem CoreState.setLadder_seq (c : CoreState) (l : BitVec 2) (x : Ladder) : (c.setLadder l x).seq = c.seq := rfl
@[simp] theorem CoreState.setLadder_sq (c : CoreState) (l : BitVec 2) (x : Ladder) : (c.setLadder l x).sq = c.sq := rfl
@[simp] theorem CoreState.setLadder_mcast (c : CoreState) (l : BitVec 2) (x : Ladder) : (c.setLadder l x).mcast = c.mcast := rfl
@[simp] theorem CoreState.setLadder_loads (c : CoreState) (l : BitVec 2) (x : Ladder) : (c.setLadder l x).loads = c.loads := rfl
@[simp] theorem CoreState.setLadder_cnt (c : CoreState) (l : BitVec 2) (x : Ladder) : (c.setLadder l x).cnt = c.cnt := rfl
@[simp] theorem CoreState.setLadder_splits (c : CoreState) (l : BitVec 2) (x : Ladder) : (c.setLadder l x).splits = c.splits := rfl
@[simp] theorem CoreState.setLadder_arrivals (c : CoreState) (l : BitVec 2) (x : Ladder) : (c.setLadder l x).arrivals = c.arrivals := rfl
@[simp] theorem CoreState.setLadder_deferred (c : CoreState) (l : BitVec 2) (x : Ladder) : (c.setLadder l x).deferred = c.deferred := rfl
@[simp] theorem CoreState.setLadder_acc (c : CoreState) (l : BitVec 2) (x : Ladder) : (c.setLadder l x).acc = c.acc := rfl
@[simp] theorem CoreState.setLadder_accErr (c : CoreState) (l : BitVec 2) (x : Ladder) : (c.setLadder l x).accErr = c.accErr := rfl
@[simp] theorem CoreState.setLadder_wbuf (c : CoreState) (l : BitVec 2) (x : Ladder) : (c.setLadder l x).wbuf = c.wbuf := rfl
@[simp] theorem CoreState.setLadder_wbufErr (c : CoreState) (l : BitVec 2) (x : Ladder) : (c.setLadder l x).wbufErr = c.wbufErr := rfl
@[simp] theorem CoreState.setLadder_bActive (c : CoreState) (l : BitVec 2) (x : Ladder) : (c.setLadder l x).bActive = c.bActive := rfl
@[simp] theorem CoreState.setLadder_bStaged (c : CoreState) (l : BitVec 2) (x : Ladder) : (c.setLadder l x).bStaged = c.bStaged := rfl
@[simp] theorem CoreState.setLadder_fill (c : CoreState) (l : BitVec 2) (x : Ladder) : (c.setLadder l x).fill = c.fill := rfl
@[simp] theorem CoreState.setLadder_beat (c : CoreState) (l : BitVec 2) (x : Ladder) : (c.setLadder l x).beat = c.beat := rfl
@[simp] theorem CoreState.setLadder_sumps (c : CoreState) (l : BitVec 2) (x : Ladder) : (c.setLadder l x).sumps = c.sumps := rfl
@[simp] theorem CoreState.setLadder_task (c : CoreState) (l : BitVec 2) (x : Ladder) : (c.setLadder l x).task = c.task := rfl
@[simp] theorem CoreState.setLadder_plane (c : CoreState) (l : BitVec 2) (x : Ladder) : (c.setLadder l x).plane = c.plane := rfl
@[simp] theorem CoreState.setLadder_shadow (c : CoreState) (l : BitVec 2) (x : Ladder) : (c.setLadder l x).shadow = c.shadow := rfl
@[simp] theorem CoreState.setLadder_spare (c : CoreState) (l : BitVec 2) (x : Ladder) : (c.setLadder l x).spare = c.spare := rfl
@[simp] theorem CoreState.setLadder_seen (c : CoreState) (l : BitVec 2) (x : Ladder) : (c.setLadder l x).seen = c.seen := rfl
@[simp] theorem CoreState.setLadder_obs (c : CoreState) (l : BitVec 2) (x : Ladder) : (c.setLadder l x).obs = c.obs := rfl
@[simp] theorem CoreState.setLadder_own (c : CoreState) (l : BitVec 2) (x : Ladder) : (c.setLadder l x).own = c.own := rfl
@[simp] theorem CoreState.setLadder_drainReq (c : CoreState) (l : BitVec 2) (x : Ladder) : (c.setLadder l x).drainReq = c.drainReq := rfl
@[simp] theorem CoreState.setLadder_drainRpc (c : CoreState) (l : BitVec 2) (x : Ladder) : (c.setLadder l x).drainRpc = c.drainRpc := rfl
@[simp] theorem CoreState.setLadder_stay (c : CoreState) (l : BitVec 2) (x : Ladder) : (c.setLadder l x).stay = c.stay := rfl
@[simp] theorem CoreState.setLadder_rate (c : CoreState) (l : BitVec 2) (x : Ladder) : (c.setLadder l x).rate = c.rate := rfl
@[simp] theorem CoreState.setLadder_frz (c : CoreState) (l : BitVec 2) (x : Ladder) : (c.setLadder l x).frz = c.frz := rfl
@[simp] theorem CoreState.setLadder_after (c : CoreState) (l : BitVec 2) (x : Ladder) : (c.setLadder l x).after = c.after := rfl

/-! ### A diverted drain -/

@[simp] theorem diverted_run (c : CoreState) (r : DrainRange) : (diverted c r).run = c.run := rfl
@[simp] theorem diverted_pc (c : CoreState) (r : DrainRange) : (diverted c r).pc = align16 r.dpc := rfl
@[simp] theorem diverted_s (c : CoreState) (r : DrainRange) : (diverted c r).s = c.s := rfl
@[simp] theorem diverted_a (c : CoreState) (r : DrainRange) : (diverted c r).a = c.a := rfl
@[simp] theorem diverted_m (c : CoreState) (r : DrainRange) : (diverted c r).m = c.m := rfl
@[simp] theorem diverted_v (c : CoreState) (r : DrainRange) : (diverted c r).v = c.v := rfl
@[simp] theorem diverted_k (c : CoreState) (r : DrainRange) : (diverted c r).k = c.k := rfl
@[simp] theorem diverted_g (c : CoreState) (r : DrainRange) : (diverted c r).g = c.g := rfl
@[simp] theorem diverted_fmt (c : CoreState) (r : DrainRange) : (diverted c r).fmt = c.fmt := rfl
@[simp] theorem diverted_fflags (c : CoreState) (r : DrainRange) : (diverted c r).fflags = c.fflags := rfl
@[simp] theorem diverted_tstat (c : CoreState) (r : DrainRange) : (diverted c r).tstat = c.tstat := rfl
@[simp] theorem diverted_loops (c : CoreState) (r : DrainRange) : (diverted c r).loops = c.loops := rfl
@[simp] theorem diverted_rsst (c : CoreState) (r : DrainRange) : (diverted c r).rsst = c.rsst := rfl
@[simp] theorem diverted_bcnt (c : CoreState) (r : DrainRange) : (diverted c r).bcnt = c.bcnt := rfl
@[simp] theorem diverted_dpc (c : CoreState) (r : DrainRange) : (diverted c r).dpc = c.pc := rfl
@[simp] theorem diverted_dbgctl (c : CoreState) (r : DrainRange) : (diverted c r).dbgctl = c.dbgctl := rfl
@[simp] theorem diverted_jump (c : CoreState) (r : DrainRange) : (diverted c r).jump = c.jump := rfl
@[simp] theorem diverted_post (c : CoreState) (r : DrainRange) : (diverted c r).post = c.post := rfl
@[simp] theorem diverted_pend (c : CoreState) (r : DrainRange) : (diverted c r).pend = c.pend := rfl
@[simp] theorem diverted_locks (c : CoreState) (r : DrainRange) : (diverted c r).locks = c.locks := rfl
@[simp] theorem diverted_staked (c : CoreState) (r : DrainRange) : (diverted c r).staked = c.staked := rfl
@[simp] theorem diverted_seq (c : CoreState) (r : DrainRange) : (diverted c r).seq = c.seq := rfl
@[simp] theorem diverted_sq (c : CoreState) (r : DrainRange) : (diverted c r).sq = c.sq := rfl
@[simp] theorem diverted_mcast (c : CoreState) (r : DrainRange) : (diverted c r).mcast = c.mcast := rfl
@[simp] theorem diverted_loads (c : CoreState) (r : DrainRange) : (diverted c r).loads = c.loads := rfl
@[simp] theorem diverted_cnt (c : CoreState) (r : DrainRange) : (diverted c r).cnt = c.cnt := rfl
@[simp] theorem diverted_splits (c : CoreState) (r : DrainRange) : (diverted c r).splits = c.splits := rfl
@[simp] theorem diverted_arrivals (c : CoreState) (r : DrainRange) : (diverted c r).arrivals = c.arrivals := rfl
@[simp] theorem diverted_deferred (c : CoreState) (r : DrainRange) : (diverted c r).deferred = c.deferred := rfl
@[simp] theorem diverted_acc (c : CoreState) (r : DrainRange) : (diverted c r).acc = c.acc := rfl
@[simp] theorem diverted_accErr (c : CoreState) (r : DrainRange) : (diverted c r).accErr = c.accErr := rfl
@[simp] theorem diverted_wbuf (c : CoreState) (r : DrainRange) : (diverted c r).wbuf = c.wbuf := rfl
@[simp] theorem diverted_wbufErr (c : CoreState) (r : DrainRange) : (diverted c r).wbufErr = c.wbufErr := rfl
@[simp] theorem diverted_bActive (c : CoreState) (r : DrainRange) : (diverted c r).bActive = c.bActive := rfl
@[simp] theorem diverted_bStaged (c : CoreState) (r : DrainRange) : (diverted c r).bStaged = c.bStaged := rfl
@[simp] theorem diverted_fill (c : CoreState) (r : DrainRange) : (diverted c r).fill = c.fill := rfl
@[simp] theorem diverted_beat (c : CoreState) (r : DrainRange) : (diverted c r).beat = c.beat := rfl
@[simp] theorem diverted_ladders (c : CoreState) (r : DrainRange) : (diverted c r).ladders = c.ladders := rfl
@[simp] theorem diverted_sumps (c : CoreState) (r : DrainRange) : (diverted c r).sumps = c.sumps := rfl
@[simp] theorem diverted_task (c : CoreState) (r : DrainRange) : (diverted c r).task = c.task := rfl
@[simp] theorem diverted_plane (c : CoreState) (r : DrainRange) : (diverted c r).plane = c.plane := rfl
@[simp] theorem diverted_shadow (c : CoreState) (r : DrainRange) : (diverted c r).shadow = c.shadow := rfl
@[simp] theorem diverted_spare (c : CoreState) (r : DrainRange) : (diverted c r).spare = c.spare := rfl
@[simp] theorem diverted_seen (c : CoreState) (r : DrainRange) : (diverted c r).seen = c.seen := rfl
@[simp] theorem diverted_obs (c : CoreState) (r : DrainRange) : (diverted c r).obs = c.obs := rfl
@[simp] theorem diverted_own (c : CoreState) (r : DrainRange) : (diverted c r).own = c.own := rfl
@[simp] theorem diverted_drainReq (c : CoreState) (r : DrainRange) : (diverted c r).drainReq = c.drainReq := rfl
@[simp] theorem diverted_drainRpc (c : CoreState) (r : DrainRange) : (diverted c r).drainRpc = some r.rpc := rfl
@[simp] theorem diverted_stay (c : CoreState) (r : DrainRange) : (diverted c r).stay = c.stay := rfl
@[simp] theorem diverted_rate (c : CoreState) (r : DrainRange) : (diverted c r).rate = c.rate := rfl
@[simp] theorem diverted_frz (c : CoreState) (r : DrainRange) : (diverted c r).frz = c.frz := rfl
@[simp] theorem diverted_after (c : CoreState) (r : DrainRange) : (diverted c r).after = c.after := rfl

/-! ### Event entry -/

@[simp] theorem enterHandler_fvec (x : DieState) (pc : Word) : ((enterHandler x pc).1).fvec = x.fvec := rfl
@[simp] theorem enterHandler_fcore (x : DieState) (pc : Word) : ((enterHandler x pc).1).fcore = x.fcore := rfl
@[simp] theorem enterHandler_fsaveb (x : DieState) (pc : Word) : ((enterHandler x pc).1).fsaveb = x.fsaveb := rfl
@[simp] theorem enterHandler_snapctl (x : DieState) (pc : Word) : ((enterHandler x pc).1).snapctl = x.snapctl := rfl
@[simp] theorem enterHandler_einj (x : DieState) (pc : Word) : ((enterHandler x pc).1).einj = x.einj := rfl
@[simp] theorem enterHandler_events (x : DieState) (pc : Word) : ((enterHandler x pc).1).events = x.events := rfl
@[simp] theorem enterHandler_late (x : DieState) (pc : Word) : ((enterHandler x pc).1).late = x.late := rfl
@[simp] theorem enterHandler_up (x : DieState) (pc : Word) : ((enterHandler x pc).1).up = x.up := rfl
@[simp] theorem enterHandler_retired (x : DieState) (pc : Word) : ((enterHandler x pc).1).retired = x.retired := rfl
@[simp] theorem enterHandler_urst (x : DieState) (pc : Word) : ((enterHandler x pc).1).urst = x.urst := rfl
@[simp] theorem enterHandler_crst (x : DieState) (pc : Word) : ((enterHandler x pc).1).crst = x.crst := rfl
@[simp] theorem enterHandler_dctl (x : DieState) (pc : Word) : ((enterHandler x pc).1).dctl = x.dctl := rfl
@[simp] theorem enterHandler_acsel (x : DieState) (pc : Word) : ((enterHandler x pc).1).acsel = x.acsel := rfl
@[simp] theorem enterHandler_flprod (x : DieState) (pc : Word) : ((enterHandler x pc).1).flprod = x.flprod := rfl
@[simp] theorem enterHandler_flcons (x : DieState) (pc : Word) : ((enterHandler x pc).1).flcons = x.flcons := rfl
@[simp] theorem enterHandler_fllost (x : DieState) (pc : Word) : ((enterHandler x pc).1).fllost = x.fllost := rfl
@[simp] theorem enterHandler_flog (x : DieState) (pc : Word) : ((enterHandler x pc).1).flog = x.flog := rfl
@[simp] theorem enterHandler_mcprod (x : DieState) (pc : Word) : ((enterHandler x pc).1).mcprod = x.mcprod := rfl
@[simp] theorem enterHandler_mclog (x : DieState) (pc : Word) : ((enterHandler x pc).1).mclog = x.mclog := rfl
@[simp] theorem enterHandler_mccount (x : DieState) (pc : Word) : ((enterHandler x pc).1).mccount = x.mccount := rfl
@[simp] theorem enterHandler_active (x : DieState) (pc : Word) : ((enterHandler x pc).1).active = x.active := rfl
@[simp] theorem enterHandler_shadow (x : DieState) (pc : Word) : ((enterHandler x pc).1).shadow = x.shadow := rfl
@[simp] theorem enterHandler_pages (x : DieState) (pc : Word) : ((enterHandler x pc).1).pages = x.pages := rfl
@[simp] theorem enterHandler_tlb (x : DieState) (pc : Word) : ((enterHandler x pc).1).tlb = x.tlb := rfl
@[simp] theorem enterHandler_upper (x : DieState) (pc : Word) : ((enterHandler x pc).1).upper = x.upper := rfl
@[simp] theorem enterHandler_icache (x : DieState) (pc : Word) : ((enterHandler x pc).1).icache = x.icache := rfl
@[simp] theorem enterHandler_ats (x : DieState) (pc : Word) : ((enterHandler x pc).1).ats = x.ats := rfl
@[simp] theorem enterHandler_atsFail (x : DieState) (pc : Word) : ((enterHandler x pc).1).atsFail = x.atsFail := rfl
@[simp] theorem enterHandler_iq (x : DieState) (pc : Word) : ((enterHandler x pc).1).iq = x.iq := rfl
@[simp] theorem enterHandler_splices (x : DieState) (pc : Word) : ((enterHandler x pc).1).splices = x.splices := rfl
@[simp] theorem enterHandler_rows (x : DieState) (pc : Word) : ((enterHandler x pc).1).rows = x.rows := rfl
@[simp] theorem enterHandler_saves (x : DieState) (pc : Word) : ((enterHandler x pc).1).saves = x.saves := rfl
@[simp] theorem enterHandler_prqs (x : DieState) (pc : Word) : ((enterHandler x pc).1).prqs = x.prqs := rfl
@[simp] theorem enterHandler_checks (x : DieState) (pc : Word) : ((enterHandler x pc).1).checks = x.checks := rfl
@[simp] theorem enterHandler_micro (x : DieState) (pc : Word) : ((enterHandler x pc).1).micro = x.micro := rfl

/-! ### The return from a handler -/

@[simp] theorem leaveHandler_fepc (x : DieState) : ((leaveHandler x).1).fepc = x.fepc := rfl
@[simp] theorem leaveHandler_fvec (x : DieState) : ((leaveHandler x).1).fvec = x.fvec := rfl
@[simp] theorem leaveHandler_fcore (x : DieState) : ((leaveHandler x).1).fcore = x.fcore := rfl
@[simp] theorem leaveHandler_fsaveb (x : DieState) : ((leaveHandler x).1).fsaveb = x.fsaveb := rfl
@[simp] theorem leaveHandler_snapctl (x : DieState) : ((leaveHandler x).1).snapctl = x.snapctl := rfl
@[simp] theorem leaveHandler_einj (x : DieState) : ((leaveHandler x).1).einj = x.einj := rfl
@[simp] theorem leaveHandler_events (x : DieState) : ((leaveHandler x).1).events = x.events := rfl
@[simp] theorem leaveHandler_late (x : DieState) : ((leaveHandler x).1).late = x.late := rfl
@[simp] theorem leaveHandler_up (x : DieState) : ((leaveHandler x).1).up = x.up := rfl
@[simp] theorem leaveHandler_retired (x : DieState) : ((leaveHandler x).1).retired = x.retired := rfl
@[simp] theorem leaveHandler_urst (x : DieState) : ((leaveHandler x).1).urst = x.urst := rfl
@[simp] theorem leaveHandler_crst (x : DieState) : ((leaveHandler x).1).crst = x.crst := rfl
@[simp] theorem leaveHandler_dctl (x : DieState) : ((leaveHandler x).1).dctl = x.dctl := rfl
@[simp] theorem leaveHandler_acsel (x : DieState) : ((leaveHandler x).1).acsel = x.acsel := rfl
@[simp] theorem leaveHandler_flprod (x : DieState) : ((leaveHandler x).1).flprod = x.flprod := rfl
@[simp] theorem leaveHandler_flcons (x : DieState) : ((leaveHandler x).1).flcons = x.flcons := rfl
@[simp] theorem leaveHandler_fllost (x : DieState) : ((leaveHandler x).1).fllost = x.fllost := rfl
@[simp] theorem leaveHandler_flog (x : DieState) : ((leaveHandler x).1).flog = x.flog := rfl
@[simp] theorem leaveHandler_mcprod (x : DieState) : ((leaveHandler x).1).mcprod = x.mcprod := rfl
@[simp] theorem leaveHandler_mclog (x : DieState) : ((leaveHandler x).1).mclog = x.mclog := rfl
@[simp] theorem leaveHandler_mccount (x : DieState) : ((leaveHandler x).1).mccount = x.mccount := rfl
@[simp] theorem leaveHandler_active (x : DieState) : ((leaveHandler x).1).active = x.active := rfl
@[simp] theorem leaveHandler_shadow (x : DieState) : ((leaveHandler x).1).shadow = x.shadow := rfl
@[simp] theorem leaveHandler_pages (x : DieState) : ((leaveHandler x).1).pages = x.pages := rfl
@[simp] theorem leaveHandler_tlb (x : DieState) : ((leaveHandler x).1).tlb = x.tlb := rfl
@[simp] theorem leaveHandler_upper (x : DieState) : ((leaveHandler x).1).upper = x.upper := rfl
@[simp] theorem leaveHandler_icache (x : DieState) : ((leaveHandler x).1).icache = x.icache := rfl
@[simp] theorem leaveHandler_ats (x : DieState) : ((leaveHandler x).1).ats = x.ats := rfl
@[simp] theorem leaveHandler_atsFail (x : DieState) : ((leaveHandler x).1).atsFail = x.atsFail := rfl
@[simp] theorem leaveHandler_iq (x : DieState) : ((leaveHandler x).1).iq = x.iq := rfl
@[simp] theorem leaveHandler_splices (x : DieState) : ((leaveHandler x).1).splices = x.splices := rfl
@[simp] theorem leaveHandler_rows (x : DieState) : ((leaveHandler x).1).rows = x.rows := rfl
@[simp] theorem leaveHandler_saves (x : DieState) : ((leaveHandler x).1).saves = x.saves := rfl
@[simp] theorem leaveHandler_prqs (x : DieState) : ((leaveHandler x).1).prqs = x.prqs := rfl
@[simp] theorem leaveHandler_checks (x : DieState) : ((leaveHandler x).1).checks = x.checks := rfl
@[simp] theorem leaveHandler_micro (x : DieState) : ((leaveHandler x).1).micro = x.micro := rfl

/-! ### A suspension record noted -/

@[simp] theorem noteSuspension_core (s : State) (k : Nat) (c : CoreState) (p r : Word) (d : BitVec 8) (n : Nat) :
    (noteSuspension s k c p r d n).core = s.core := by
  unfold noteSuspension; split <;> rfl
@[simp] theorem noteSuspension_coreId (s : State) (k : Nat) (c : CoreState) (p r : Word) (d : BitVec 8) (n : Nat) :
    (noteSuspension s k c p r d n).coreId = s.coreId := by
  unfold noteSuspension; split <;> rfl
@[simp] theorem noteSuspension_parked (s : State) (k : Nat) (c : CoreState) (p r : Word) (d : BitVec 8) (n : Nat) :
    (noteSuspension s k c p r d n).parked = s.parked := by
  unfold noteSuspension; split <;> rfl
@[simp] theorem noteSuspension_mem (s : State) (k : Nat) (c : CoreState) (p r : Word) (d : BitVec 8) (n : Nat) :
    (noteSuspension s k c p r d n).mem = s.mem := by
  unfold noteSuspension; split <;> rfl
@[simp] theorem noteSuspension_poison (s : State) (k : Nat) (c : CoreState) (p r : Word) (d : BitVec 8) (n : Nat) :
    (noteSuspension s k c p r d n).poison = s.poison := by
  unfold noteSuspension; split <;> rfl
@[simp] theorem noteSuspension_baseRel (s : State) (k : Nat) (c : CoreState) (p r : Word) (d : BitVec 8) (n : Nat) :
    (noteSuspension s k c p r d n).baseRel = s.baseRel := by
  unfold noteSuspension; split <;> rfl
@[simp] theorem noteSuspension_writes (s : State) (k : Nat) (c : CoreState) (p r : Word) (d : BitVec 8) (n : Nat) :
    (noteSuspension s k c p r d n).writes = s.writes := by
  unfold noteSuspension; split <;> rfl
@[simp] theorem noteSuspension_nextId (s : State) (k : Nat) (c : CoreState) (p r : Word) (d : BitVec 8) (n : Nat) :
    (noteSuspension s k c p r d n).nextId = s.nextId := by
  unfold noteSuspension; split <;> rfl
@[simp] theorem noteSuspension_fe (s : State) (k : Nat) (c : CoreState) (p r : Word) (d : BitVec 8) (n : Nat) :
    (noteSuspension s k c p r d n).fe = s.fe := by
  unfold noteSuspension; split <;> rfl
@[simp] theorem noteSuspension_tags (s : State) (k : Nat) (c : CoreState) (p r : Word) (d : BitVec 8) (n : Nat) :
    (noteSuspension s k c p r d n).tags = s.tags := by
  unfold noteSuspension; split <;> rfl
@[simp] theorem noteSuspension_bars (s : State) (k : Nat) (c : CoreState) (p r : Word) (d : BitVec 8) (n : Nat) :
    (noteSuspension s k c p r d n).bars = s.bars := by
  unfold noteSuspension; split <;> rfl
@[simp] theorem noteSuspension_epochs (s : State) (k : Nat) (c : CoreState) (p r : Word) (d : BitVec 8) (n : Nat) :
    (noteSuspension s k c p r d n).epochs = s.epochs := by
  unfold noteSuspension; split <;> rfl
@[simp] theorem noteSuspension_cmds (s : State) (k : Nat) (c : CoreState) (p r : Word) (d : BitVec 8) (n : Nat) :
    (noteSuspension s k c p r d n).cmds = s.cmds := by
  unfold noteSuspension; split <;> rfl
@[simp] theorem noteSuspension_snaps (s : State) (k : Nat) (c : CoreState) (p r : Word) (d : BitVec 8) (n : Nat) :
    (noteSuspension s k c p r d n).snaps = s.snaps := by
  unfold noteSuspension; split <;> rfl
@[simp] theorem noteSuspension_xd0 (s : State) (k : Nat) (c : CoreState) (p r : Word) (d : BitVec 8) (n : Nat) :
    (noteSuspension s k c p r d n).xd0 = s.xd0 := by
  unfold noteSuspension; split <;> rfl
@[simp] theorem noteSuspension_pfs (s : State) (k : Nat) (c : CoreState) (p r : Word) (d : BitVec 8) (n : Nat) :
    (noteSuspension s k c p r d n).pfs = s.pfs := by
  unfold noteSuspension; split <;> rfl
@[simp] theorem noteSuspension_events (s : State) (k : Nat) (c : CoreState) (p r : Word) (d : BitVec 8) (n : Nat) :
    (noteSuspension s k c p r d n).events = s.events := by
  unfold noteSuspension; split <;> rfl
@[simp] theorem noteSuspension_eventsSh (s : State) (k : Nat) (c : CoreState) (p r : Word) (d : BitVec 8) (n : Nat) :
    (noteSuspension s k c p r d n).eventsSh = s.eventsSh := by
  unfold noteSuspension; split <;> rfl
@[simp] theorem noteSuspension_paths (s : State) (k : Nat) (c : CoreState) (p r : Word) (d : BitVec 8) (n : Nat) :
    (noteSuspension s k c p r d n).paths = s.paths := by
  unfold noteSuspension; split <;> rfl
@[simp] theorem noteSuspension_links (s : State) (k : Nat) (c : CoreState) (p r : Word) (d : BitVec 8) (n : Nat) :
    (noteSuspension s k c p r d n).links = s.links := by
  unfold noteSuspension; split <;> rfl
@[simp] theorem noteSuspension_ports (s : State) (k : Nat) (c : CoreState) (p r : Word) (d : BitVec 8) (n : Nat) :
    (noteSuspension s k c p r d n).ports = s.ports := by
  unfold noteSuspension; split <;> rfl
@[simp] theorem noteSuspension_faceOut (s : State) (k : Nat) (c : CoreState) (p r : Word) (d : BitVec 8) (n : Nat) :
    (noteSuspension s k c p r d n).faceOut = s.faceOut := by
  unfold noteSuspension; split <;> rfl
@[simp] theorem noteSuspension_faceReq (s : State) (k : Nat) (c : CoreState) (p r : Word) (d : BitVec 8) (n : Nat) :
    (noteSuspension s k c p r d n).faceReq = s.faceReq := by
  unfold noteSuspension; split <;> rfl
@[simp] theorem noteSuspension_faceQ (s : State) (k : Nat) (c : CoreState) (p r : Word) (d : BitVec 8) (n : Nat) :
    (noteSuspension s k c p r d n).faceQ = s.faceQ := by
  unfold noteSuspension; split <;> rfl
@[simp] theorem noteSuspension_invals (s : State) (k : Nat) (c : CoreState) (p r : Word) (d : BitVec 8) (n : Nat) :
    (noteSuspension s k c p r d n).invals = s.invals := by
  unfold noteSuspension; split <;> rfl
@[simp] theorem noteSuspension_msix (s : State) (k : Nat) (c : CoreState) (p r : Word) (d : BitVec 8) (n : Nat) :
    (noteSuspension s k c p r d n).msix = s.msix := by
  unfold noteSuspension; split <;> rfl
@[simp] theorem noteSuspension_bar0 (s : State) (k : Nat) (c : CoreState) (p r : Word) (d : BitVec 8) (n : Nat) :
    (noteSuspension s k c p r d n).bar0 = s.bar0 := by
  unfold noteSuspension; split <;> rfl
@[simp] theorem noteSuspension_bar0Bad (s : State) (k : Nat) (c : CoreState) (p r : Word) (d : BitVec 8) (n : Nat) :
    (noteSuspension s k c p r d n).bar0Bad = s.bar0Bad := by
  unfold noteSuspension; split <;> rfl
@[simp] theorem noteSuspension_netOut (s : State) (k : Nat) (c : CoreState) (p r : Word) (d : BitVec 8) (n : Nat) :
    (noteSuspension s k c p r d n).netOut = s.netOut := by
  unfold noteSuspension; split <;> rfl
@[simp] theorem noteSuspension_netBad (s : State) (k : Nat) (c : CoreState) (p r : Word) (d : BitVec 8) (n : Nat) :
    (noteSuspension s k c p r d n).netBad = s.netBad := by
  unfold noteSuspension; split <;> rfl
@[simp] theorem noteSuspension_flows (s : State) (k : Nat) (c : CoreState) (p r : Word) (d : BitVec 8) (n : Nat) :
    (noteSuspension s k c p r d n).flows = s.flows := by
  unfold noteSuspension; split <;> rfl
@[simp] theorem noteSuspension_dropped (s : State) (k : Nat) (c : CoreState) (p r : Word) (d : BitVec 8) (n : Nat) :
    (noteSuspension s k c p r d n).dropped = s.dropped := by
  unfold noteSuspension; split <;> rfl
@[simp] theorem noteSuspension_powered (s : State) (k : Nat) (c : CoreState) (p r : Word) (d : BitVec 8) (n : Nat) :
    (noteSuspension s k c p r d n).powered = s.powered := by
  unfold noteSuspension; split <;> rfl
@[simp] theorem noteSuspension_time (s : State) (k : Nat) (c : CoreState) (p r : Word) (d : BitVec 8) (n : Nat) :
    (noteSuspension s k c p r d n).time = s.time := by
  unfold noteSuspension; split <;> rfl
@[simp] theorem noteSuspension_choice (s : State) (k : Nat) (c : CoreState) (p r : Word) (d : BitVec 8) (n : Nat) :
    (noteSuspension s k c p r d n).choice = s.choice := by
  unfold noteSuspension; split <;> rfl
@[simp] theorem noteSuspension_sig (s : State) (k : Nat) (c : CoreState) (p r : Word) (d : BitVec 8) (n : Nat) :
    (noteSuspension s k c p r d n).sig = s.sig := by
  unfold noteSuspension; split <;> rfl
@[simp] theorem noteSuspension_caught (s : State) (k : Nat) (c : CoreState) (p r : Word) (d : BitVec 8) (n : Nat) :
    (noteSuspension s k c p r d n).caught = s.caught := by
  unfold noteSuspension; split <;> rfl
@[simp] theorem noteSuspension_agenda (s : State) (k : Nat) (c : CoreState) (p r : Word) (d : BitVec 8) (n : Nat) :
    (noteSuspension s k c p r d n).agenda = s.agenda := by
  unfold noteSuspension; split <;> rfl

end Sys2Proof.Machine
end

