-- ==== Sys2Proof/Laws/Ops.lean ====
section
/-! SUPPORT. What each shared operation can answer, once for every instruction that is written over it. -/

namespace Sys2Proof.Machine

open Sys2Proof

/-! ### Guards and fixed registers (R143, R145) -/

theorem guarded_on {g : GuardF} {s : State} (h : s.core.guard g = true) (k : State → Res) : guarded g s k = k s := by
  simp [guarded, h]

theorem guarded_off {g : GuardF} {s : State} (h : s.core.guard g = false) (k : State → Res) :
    guarded g s k = .next s.clear := by
  simp [guarded, h, ok_clear]

@[simp] theorem rs_zero (c : CoreState) : c.rs 0 = 0 := if_pos rfl
@[simp] theorem rk_zero (c : CoreState) : c.rk 0 = BitVec.allOnes 256 := if_pos rfl
@[simp] theorem rg_zero (c : CoreState) : c.rg 0 = true := if_pos rfl

/-- The guard of an unguarded slot. -/
@[simp] theorem guard_always (c : CoreState) : c.guard 0 = true := by
  simp [CoreState.guard, CoreState.rg]

/-! ### Results (R52, R54) -/

/-- An exposed write changes one thing at most: one more write is outstanding. -/
theorem later_cases (s : State) (lat : Nat) (w : RegWrite) :
    later s lat w = s ∨
      later s lat w = { s with core := { s.core with pend := s.core.pend ++ [{ w := w, due := s.core.bcnt.toNat + lat, since := s.core.bcnt.toNat }] } } := by
  unfold later
  split
  · exact .inl rfl
  · exact .inr rfl

theorem later_dropped {w : RegWrite} (h : w.dropped = true) (s : State) (lat : Nat) : later s lat w = s := if_pos h

theorem later_kept {w : RegWrite} (h : w.dropped = false) (s : State) (lat : Nat) :
    later s lat w = { s with core := { s.core with pend := s.core.pend ++ [{ w := w, due := s.core.bcnt.toNat + lat, since := s.core.bcnt.toNat }] } } :=
  if_neg (by simp [h])

/-- What a landing scalar or vector result leaves in the registers of its class. -/
theorem landOne_rs (s : State) (i j : BitVec 6) (x : Word) (h : i ≠ 0) :
    (landOne s (.s i x)).core.rs j = if i = j then x else s.core.rs j := by
  simp only [landOne, if_neg h, CoreState.rs]
  by_cases hj : j = 0
  · subst hj; exact (if_neg h).symm
  · simp only [if_neg hj]
    change (s.core.s.set i.toNat x i.isLt)[j.toNat] = if i = j then x else s.core.s[j.toNat]
    rw [Vector.getElem_set]
    simp [BitVec.toNat_eq]

theorem landOne_rv (s : State) (i j : BitVec 6) (x : VReg) :
    (landOne s (.v i x)).core.rv j = if i = j then x else s.core.rv j := by
  change (s.core.v.set i.toNat x i.isLt)[j.toNat] = if i = j then x else s.core.v[j.toNat]
  rw [Vector.getElem_set]
  simp [BitVec.toNat_eq]

/-- An interlocked destination changes the list of pending ones and the issue count. -/
theorem lock_eq (s : State) (r : List RegRef) (x : Option (List RegWrite)) (n : Option (BitVec 3)) :
    lock s r x n = (s.core.seq, { s with core := { s.core with
      seq := s.core.seq + 1, locks := s.core.locks ++ [⟨s.core.seq, r.filter (· != .s 0), x, n⟩] } }) := rfl

theorem scalarOut_next {g : GuardF} {s : State} (h : s.core.guard g = true) (lat : Nat) (d : BitVec 6) (f : CoreState → Word) :
    scalarOut g lat d f s = .next (s.wrote lat (.s d (f s.core))) := guarded_on h _

theorem srOut_next {o : SR} {s : State} (h : s.core.guard o.g = true) (lat : Nat) (f : Word → Word → Word) :
    srOut o lat f s = .next (s.wrote lat (.s o.d (f (s.core.rs o.a) (o.opB s.core)))) := scalarOut_next h lat o.d _

theorem shiftOut_next {o : SR} {s : State} (h : s.core.guard o.g = true) (f : Word → Nat → Word) :
    shiftOut o f s = .next (s.wrote 1 (.s o.d (f (s.core.rs o.a) (o.amount s.core)))) := scalarOut_next h 1 o.d _

theorem divOut_next {o : SR} {s : State} (h : s.core.guard o.g = true) (f : Word → Word → Word) :
    divOut o f s = .next (s.locked [.s o.d] [.s o.d (f (s.core.rs o.a) (o.opB s.core))]) := guarded_on h _

theorem guardOut_next {g : GuardF} {s : State} (h : s.core.guard g = true) (d : BitVec 6) (f : CoreState → Bool) :
    guardOut g d f s = .next (s.wrote 1 (.g (lo3 d) (f s.core))) := guarded_on h _

/-- A rounding operation takes the illegal-format fault on a reserved mode, and goes on otherwise (R33). -/
theorem withRnd_cases (s : State) (k : Env → Res) :
    (rndReserved s.core.rnd = true ∧ withRnd s k = formatFault s) ∨
      (rndReserved s.core.rnd = false ∧ withRnd s k = k (s.env s.core.rnd)) := by
  unfold withRnd
  cases h : rndReserved s.core.rnd <;> simp

/-! ### Checks: each goes on, traps or holds (R157) -/

theorem withChecked_cases (s : State) (c : Checked) (k : List Seg → Res) :
    (∃ segs, c = .ok segs ∧ withChecked s c k = k segs) ∨ (∃ r, c = .miss r ∧ withChecked s c k = holdAts s r) ∨
      ∃ t, c = .bad t ∧ withChecked s c k = trap s t := by
  cases c with
  | ok segs => exact .inl ⟨segs, rfl, rfl⟩
  | miss r => exact .inr (.inl ⟨r, rfl, rfl⟩)
  | bad t => exact .inr (.inr ⟨t, rfl, rfl⟩)

theorem withBytes_cases (s : State) (n : Need) (rs : List (Nat × Nat × Nat)) (k : List (Nat × Nat) → Res) :
    (∃ segs, checkAll (fun r => checkRange s n r.1 r.2.1 r.2.2) rs = .ok segs ∧ withBytes s n rs k = k (segBytes segs)) ∨
      (∃ r, withBytes s n rs k = holdAts s r) ∨ ∃ t, withBytes s n rs k = trap s t := by
  rcases withChecked_cases s (checkAll (fun r => checkRange s n r.1 r.2.1 r.2.2) rs) (fun segs => k (segBytes segs)) with
    ⟨x, h, e⟩ | ⟨x, _, e⟩ | ⟨x, _, e⟩
  · exact .inl ⟨x, h, e⟩
  · exact .inr (.inl ⟨x, e⟩)
  · exact .inr (.inr ⟨x, e⟩)

theorem withRace_cases (s : State) (pas : List Nat) (k : Unit → Res) :
    withRace s pas k = k () ∨ ∃ t, withRace s pas k = trap s t := by
  unfold withRace
  split
  · exact .inl rfl
  · split
    · exact .inr ⟨_, rfl⟩
    · exact .inl rfl

theorem withEarly_cases (s : State) (pas : List Nat) (k : Unit → Res) :
    withEarly s pas k = k () ∨ ∃ t, withEarly s pas k = trap s t := by
  unfold withEarly
  split
  · exact .inr ⟨_, rfl⟩
  · exact .inl rfl

theorem withRead0_cases (s : State) (pas : List Nat) (k : List ReadByte → State → Res) :
    withRead0 s pas k = k (coreRead 0 s.core.seq pas s).1 (coreRead 0 s.core.seq pas s).2 ∨
      withRead0 s pas k = hold s .readiness ∨ ∃ t, withRead0 s pas k = trap s t := by
  unfold withRead0
  rcases withEarly_cases s pas _ with h | h
  · rw [h]
    split
    · exact .inl rfl
    · exact .inr (.inl rfl)
  · exact .inr (.inr h)

theorem withFull_cases (s : State) (pas : List Nat) (clr : Bool) (k : State → Res) :
    (∃ t, t = (granulesOf pas).foldl handOff s ∧ withFull s pas clr k = k (if clr then clearFull t (granulesOf pas) else t)) ∨
      withFull s pas clr k = hold s .feWait := by
  unfold withFull
  simp only
  split
  · exact .inl ⟨_, rfl, rfl⟩
  · exact .inr rfl

theorem withChain_cases (s : State) (l : BitVec 2) (k : Unit → Res) :
    withChain s l k = k () ∨ withChain s l k = hold s .chain := by
  unfold withChain
  split
  · exact .inr rfl
  · exact .inl rfl

theorem withAccess_cases (s : State) (m : MemOp) (k : Access → Res) :
    (∃ x, m.access s.core = some x ∧ withAccess s m k = k x) ∨
      (m.access s.core = none ∧ withAccess s m k = trap s (addressTrap s (s.core.rs m.index))) := by
  unfold withAccess
  cases h : m.access s.core with
  | some x => exact .inl ⟨x, rfl, rfl⟩
  | none => exact .inr ⟨rfl, rfl⟩

/-! ### Reads (R131) -/

/-- Reading a byte may spend a free choice, and changes nothing else. -/
theorem readByte_frame (s : State) (d : BitVec 2) (q : Path) (own : List Nat) (pa : Nat) :
    (readByte s d q own pa).2 = s ∨ (readByte s d q own pa).2 = { s with choice := s.choice + 1 } := by
  unfold readByte
  simp only
  split
  · exact .inl rfl
  · split
    · exact .inl rfl
    · exact .inr rfl

theorem coreByte_frame (st : BitVec 4) (n : Nat) (s : State) (pa : Nat) :
    (coreByte st n s pa).2 = s ∨ (coreByte st n s pa).2 = { s with choice := s.choice + 1 } := by
  unfold coreByte
  split
  · exact .inl rfl
  · split
    · exact .inl rfl
    · exact readByte_frame s s.here .core s.core.own pa

theorem observe_frame (s : State) (n : Nat) :
    ∃ own obs, observe s n = { s with core := { s.core with own := own, obs := obs } } := by
  unfold observe
  split
  · exact ⟨_, _, rfl⟩
  · exact ⟨_, _, rfl⟩

/-- Reads of the active core change only its record of what it has read, and the free choices spent. -/
theorem coreRead_frame (st : BitVec 4) (n : Nat) (pas : List Nat) (s : State) :
    ∃ own obs ch, (coreRead st n pas s).2 =
      { s with core := { s.core with own := own, obs := obs }, choice := ch } := by
  induction pas generalizing s with
  | nil => exact ⟨_, _, _, rfl⟩
  | cons pa r ih =>
    have key : ∀ (u : State) (ch : Nat) (m : Nat), u = { s with choice := ch } → ∃ own obs ch,
        (coreRead st n r (observe u m)).2 = { s with core := { s.core with own := own, obs := obs }, choice := ch } := by
      intro u ch m hu
      obtain ⟨x, y, h⟩ := observe_frame u m
      obtain ⟨x', y', z', h'⟩ := ih (observe u m)
      exact ⟨x', y', z', by rw [h', h, hu]⟩
    unfold coreRead
    rcases coreByte_frame st n s pa with h | h
    · exact key _ s.choice _ h
    · exact key _ (s.choice + 1) _ h

/-! ### Transfers, traps and events -/

/-- A transfer sets the next PC and may leave loops. -/
theorem jumpTo_eq (s : State) (x : Word) (p : Bool) :
    jumpTo s x p = { s with core := { s.core with jump := some x, loops := (jumpTo s x p).core.loops } } := rfl

/-- An event joins its die's queue, or finds it full and changes nothing. -/
theorem pushEvent_cases (s : State) (d : BitVec 2) (e : DieEvent) :
    ((s.die d).events.length < 1024 ∧
      pushEvent s d e = (s.mapDie d fun x => { x with events := x.events ++ [e] }, true)) ∨
    (1024 ≤ (s.die d).events.length ∧ pushEvent s d e = (s, false)) := by
  unfold pushEvent
  split
  · exact .inl ⟨‹_›, rfl⟩
  · exact .inr ⟨Nat.le_of_not_lt ‹_›, rfl⟩

/-- The return from a handler undoes the entry: the level and the PC come back, for a PC that is a bundle's. -/
theorem leave_enter (x : DieState) (pc : Word) (h : align16 pc = pc) :
    (leaveHandler (enterHandler x pc).1).2 = pc := h

/-! ### Writes (R130, R359) -/

/-- Placing one write appends it, under the next number. -/
theorem placeOne_writes (s : State) (d : BitVec 2) (p : Path) (c t n : Nat) (r : Option Release) (f : List Nat)
    (bs : List WByte) :
    (placeOne s d p c t n r f bs).writes = s.writes ++ [⟨s.nextId, p, d, c, t, bs, [d], [], f, [], r, n⟩] := rfl

/-! ### Commands (R229 step 5, R232, R233) -/

/-- A command without a destination enters its queue, or its bundle holds. -/
theorem submit_cases (s : State) (p : Path) (b : CmdBody) (segs : List Seg) (f : Cmd → Cmd) (fin : State → State) :
    submit s p b segs none f fin = hold s .queue ∨
      submit s p b segs none f fin = ok (fin { s with
        cmds := s.cmds ++ [{ f (newCmd s p b (stakePages s (s.caught ++ segs))) with tok := none }]
        nextId := s.nextId + 1
        caught := []
        core := s.core.count (pathClass p) 1 }) := by
  unfold submit
  simp only
  split
  · exact .inl rfl
  · exact .inr rfl

end Sys2Proof.Machine
end

