-- ==== Sys2Proof/Tests/Slice0.lean ====
section
/-! SUPPORT. Tests: words of every encoding, ill-formed terms that WellFormed refuses, the worked values of the manual, and, for each
statement of Certificates/Slice0/Obligations.lean, witnesses that meet its hypotheses (`witness_<clause>`). -/

open Sys2Proof Sys2Proof.Machine

namespace Sys2Proof.Tests

set_option Elab.async false

/-- Source: R152, R160 to R162: format SR, and the tables of match bits and fields of the opcode maps. -/
theorem test_wordsIntegers :
    decodeSlot 0 0x0614_AD09 none = .ok (.add ⟨33, 18, 45, false, 9⟩) ∧
    decodeSlot 0 0x0614_AD99 none = .ok (.sub ⟨33, 18, 45, true, 9⟩) ∧
    decodeSlot 0 0x0614_AD29 none = .ok (.and ⟨33, 18, 45, false, 9⟩) ∧
    decodeSlot 0 0x0614_ADB9 none = .ok (.or ⟨33, 18, 45, true, 9⟩) ∧
    decodeSlot 0 0x0614_AD49 none = .ok (.xor ⟨33, 18, 45, false, 9⟩) ∧
    decodeSlot 0 0x0614_ADD9 none = .ok (.andn ⟨33, 18, 45, true, 9⟩) ∧
    decodeSlot 0 0x0614_AD69 none = .ok (.min ⟨33, 18, 45, false, 9⟩) ∧
    decodeSlot 0 0x0614_ADF9 none = .ok (.max ⟨33, 18, 45, true, 9⟩) ∧
    decodeSlot 0 0x0A14_AD09 none = .ok (.minu ⟨33, 18, 45, false, 9⟩) ∧
    decodeSlot 0 0x0A14_AD99 none = .ok (.maxu ⟨33, 18, 45, true, 9⟩) ∧
    decodeSlot 0 0x0A14_AD29 none = .ok (.shl ⟨33, 18, 45, false, 9⟩) ∧
    decodeSlot 0 0x0A14_ADB9 none = .ok (.shr ⟨33, 18, 45, true, 9⟩) ∧
    decodeSlot 0 0x0A14_AD49 none = .ok (.sra ⟨33, 18, 45, false, 9⟩) ∧
    decodeSlot 0 0x0A14_ADD9 none = .ok (.rol ⟨33, 18, 45, true, 9⟩) ∧
    decodeSlot 0 0x0E14_AD09 none = .ok (.mul ⟨33, 18, 45, false, 9⟩) ∧
    decodeSlot 0 0x0E14_AD99 none = .ok (.mulh ⟨33, 18, 45, true, 9⟩) ∧
    decodeSlot 0 0x0E14_AD29 none = .ok (.mulhu ⟨33, 18, 45, false, 9⟩) ∧
    decodeSlot 0 0x0E14_ADB9 none = .ok (.div ⟨33, 18, 45, true, 9⟩) ∧
    decodeSlot 0 0x0E14_AD49 none = .ok (.divu ⟨33, 18, 45, false, 9⟩) ∧
    decodeSlot 0 0x0E14_ADD9 none = .ok (.rem ⟨33, 18, 45, true, 9⟩) ∧
    decodeSlot 0 0x0E14_AD69 none = .ok (.remu ⟨33, 18, 45, false, 9⟩) := by
  decide +kernel

/-- Source: R152, R163 to R172: formats SR and SW, and the tables of match bits and fields of the opcode maps. -/
theorem test_wordsFields1 :
    decodeSlot 0 0x1214_8009 none = .ok (.clz 33 18 9) ∧
    decodeSlot 0 0x1214_8019 none = .ok (.ctz 33 18 9) ∧
    decodeSlot 0 0x1214_8029 none = .ok (.popc 33 18 9) ∧
    decodeSlot 0 0x4614_8009 none = .ok (.fclass 33 18 9) ∧
    decodeSlot 0 0x1614_AD09 none = .ok (.bfx ⟨33, 18, 45, 9⟩) ∧
    decodeSlot 0 0x1A14_AD09 none = .ok (.bfi ⟨33, 18, 45, 9⟩) ∧
    decodeSlot 0 0x3614_AD09 none = .ok (.fadd ⟨33, 18, 45, 9⟩) ∧
    decodeSlot 0 0x3614_AD19 none = .ok (.fsub ⟨33, 18, 45, 9⟩) ∧
    decodeSlot 0 0x3614_AD29 none = .ok (.fmul ⟨33, 18, 45, 9⟩) ∧
    decodeSlot 0 0x3614_AD39 none = .ok (.fmin ⟨33, 18, 45, 9⟩) ∧
    decodeSlot 0 0x3614_AD49 none = .ok (.fmax ⟨33, 18, 45, 9⟩) ∧
    decodeSlot 0 0x3A14_AD09 none = .ok (.ffma ⟨33, 18, 45, 9⟩) ∧
    decodeSlot 0 0x7214_AD09 none = .ok (.hops ⟨33, 18, 45, 9⟩) ∧
    decodeSlot 0 0x1E14_ADD9 none = .ok (.sel ⟨33, 18, 45, 9⟩ 13) ∧
    decodeSlot 0 0x221A_5C39 none = .ok (.movi 33 0xA5C3 9) ∧
    decodeSlot 0 0x2A1A_5C39 none = .ok (.movhi 33 0xA5C3 2 9) ∧
    decodeSlot 0 0x3054_AD09 none = .ok (.cmp .eq ⟨5, 18, 45, false, 9⟩) ∧
    decodeSlot 0 0x3054_AD99 none = .ok (.cmp .ne ⟨5, 18, 45, true, 9⟩) ∧
    decodeSlot 0 0x3054_AD29 none = .ok (.cmp .lt ⟨5, 18, 45, false, 9⟩) ∧
    decodeSlot 0 0x3054_ADB9 none = .ok (.cmp .le ⟨5, 18, 45, true, 9⟩) ∧
    decodeSlot 0 0x3054_AD49 none = .ok (.cmp .ltu ⟨5, 18, 45, false, 9⟩) ∧
    decodeSlot 0 0x3054_ADD9 none = .ok (.cmp .leu ⟨5, 18, 45, true, 9⟩) ∧
    decodeSlot 0 0x4054_AD09 none = .ok (.fcmp .eq ⟨5, 18, 45, 9⟩) ∧
    decodeSlot 0 0x4054_AD19 none = .ok (.fcmp .ne ⟨5, 18, 45, 9⟩) := by
  decide +kernel

/-- Source: R152, R163 to R172: formats SR and SW, and the tables of match bits and fields of the opcode maps. -/
theorem test_wordsFields2 :
    decodeSlot 0 0x4054_AD29 none = .ok (.fcmp .lt ⟨5, 18, 45, 9⟩) ∧
    decodeSlot 0 0x4054_AD39 none = .ok (.fcmp .le ⟨5, 18, 45, 9⟩) ∧
    decodeSlot 0 0x4054_AD49 none = .ok (.fcmp .uno ⟨5, 18, 45, 9⟩) ∧
    decodeSlot 0 0x3E14_8839 none = .ok (.fcvt 33 18 .e4m3 .i16 9) := by
  decide +kernel

/-- Source: R152, R168, R173 to R184, and the tables of match bits and fields of the opcode maps. -/
theorem test_wordsControl :
    decodeSlot 0 0x4853_4609 none = .ok (.gand 5 13 6 9) ∧
    decodeSlot 0 0x4853_4619 none = .ok (.gor 5 13 6 9) ∧
    decodeSlot 0 0x4853_4029 none = .ok (.gnot 5 13 9) ∧
    decodeSlot 0 0x0000_0000 none = .ok .nop ∧
    decodeSlot 0 0x5004_8009 none = .ok (.jmp 18 9) ∧
    decodeSlot 0 0x6404_8009 none = .ok (.setfmt 18 9) ∧
    decodeSlot 0 0x5E94_6C39 none = .ok (.loop 0xA51 0x2C3 9) ∧
    decodeSlot 0 0x6004_AC39 none = .ok (.loopReg 18 0x2C3 9) ∧
    decodeSlot 0 0x6A10_0489 none = .ok (.getf 33 4 9) ∧
    decodeSlot 0 0x6E10_0689 none = .ok (.getid 33 6 9) ∧
    decodeSlot 0 0x5800_0009 none = .ok (.ret 9) ∧
    decodeSlot 0 0x7400_0009 none = .ok (.endTask 9) ∧
    decodeSlot 0 0x7800_0009 none = .ok (.drain 9) ∧
    decodeSlot 0 0x8000_0009 none = .ok (.brk 9) ∧
    decodeSlot 0 0x8C00_0009 none = .ok (.eret 9) ∧
    decodeSlot 0 0x7C00_2D89 none = .ok (.trap 45 9) ∧
    decodeSlot 0 0x8611_1C09 none = .ok (.mfs 33 0x11C 9) ∧
    decodeSlot 0 0x8A10_1C09 none = .ok (.mts 33 0x01C 9) := by
  decide +kernel

/-- Source: R153, R149, R259 to R268, and the tables of match bits and fields of the opcode maps. -/
theorem test_wordsMemory1 :
    decodeSlot 1 0x043B_4009 none = .ok (.amov .aFromS 3 45 9) ∧
    decodeSlot 1 0x06D0_C019 none = .ok (.amov .sFromA 45 3 9) ∧
    decodeSlot 1 0x0433_0029 none = .ok (.amov .aFromA 3 12 9) ∧
    decodeSlot 1 0x0833_2D09 none = .ok (.aadd 3 12 (.reg 45) 9) ∧
    decodeSlot 1 0x0833_2D89 (some 0xA5) = .ok (.aadd 3 12 (.imm 0x296D) 9) ∧
    decodeSlot 1 0x0CCC_3D29 (some 0xA5) = .ok (.alea 3 .bundle 0xA5C3D2 9) ∧
    decodeSlot 1 0x0CDC_3D29 (some 0xA5) = .ok (.alea 3 .image 0xA5C3D2 9) ∧
    decodeSlot 1 0x0CEC_3D29 (some 0xA5) = .ok (.alea 3 .window 0xA5C3D2 9) ∧
    decodeSlot 1 0x1033_2D09 (some 0xA5) = .ok (.asetm .lin 3 12 0x296D 0 9) ∧
    decodeSlot 1 0x1433_2D59 (some 0xA5) = .ok (.asetm .mod 3 12 0x296D 5 9) ∧
    decodeSlot 1 0x1833_1059 (some 0x00) = .ok (.asetm .brev 3 12 0x10 5 9) ∧
    decodeSlot 1 0x1C33_2D59 (some 0xA5) = .ok (.asetm .circ 3 12 0x296D 5 9) ∧
    decodeSlot 1 0x221C_2D29 (some 0xA5) = .ok (.ld 2 .plain 33 (.imm 12 0x296D) 9) ∧
    decodeSlot 1 0x221C_40F9 (some 0x3A) = .ok (.ld 3 .acq 33 (.inc 12 ⟨.package, 10⟩) 9) ∧
    decodeSlot 1 0x221C_AD49 (some 0x0A) = .ok (.ld 0 .fe 33 (.idx 12 45 ⟨.die, 10⟩) 9) ∧
    decodeSlot 1 0x221C_ED99 (some 0x0A) = .ok (.ld 1 .fec 33 (.incIdx 12 45 ⟨.die, 10⟩) 9) ∧
    decodeSlot 1 0x261C_2D29 none = .ok (.st 2 .plain 33 (.imm 12 (-19)) 9) ∧
    decodeSlot 1 0x261C_4079 (some 0x0A) = .ok (.st 3 .fe 33 (.inc 12 ⟨.die, 10⟩) 9) ∧
    decodeSlot 1 0x261C_AD89 (some 0x4A) = .ok (.st 0 .rel 33 (.idx 12 45 ⟨.system, 10⟩) 9) ∧
    decodeSlot 1 0x2A1C_AD29 (some 0x0A) = .ok (.ldv .fec 33 (.idx 12 45 ⟨.die, 10⟩) 9) ∧
    decodeSlot 1 0x2E1C_ED79 (some 0x0A) = .ok (.stv 7 33 (.incIdx 12 45 ⟨.die, 10⟩) 9) ∧
    decodeSlot 1 0x321C_AD29 (some 0x0A) = .ok (.ldvs 2 33 (.idx 12 45 ⟨.die, 10⟩) 9) ∧
    decodeSlot 1 0x361C_AD29 (some 0x0A) = .ok (.stvs 2 33 (.idx 12 45 ⟨.die, 10⟩) 9) ∧
    decodeSlot 1 0x3A1C_ED79 (some 0x0A) = .ok (.ldvx 7 33 (.incIdx 12 45 ⟨.die, 10⟩) 9) := by
  decide +kernel

/-- Source: R153, R149, R259 to R268, and the tables of match bits and fields of the opcode maps. -/
theorem test_wordsMemory2 :
    decodeSlot 1 0x3E1C_ED79 (some 0x0A) = .ok (.stvx 7 33 (.incIdx 12 45 ⟨.die, 10⟩) 9) ∧
    decodeSlot 1 0x400C_4009 (some 0x0A) = .ok (.pref (.inc 12 ⟨.die, 10⟩) 9) := by
  decide +kernel

/-- Source: R153, R149, R269 to R280, and the tables of match bits and fields of the opcode maps. -/
theorem test_wordsSync :
    decodeSlot 1 0x461C_2D09 none = .ok (.amo false .add 33 45 12 9) ∧
    decodeSlot 1 0x461C_2D99 none = .ok (.amo true .fadd 33 45 12 9) ∧
    decodeSlot 1 0x461C_2D29 none = .ok (.amo false .min 33 45 12 9) ∧
    decodeSlot 1 0x461C_2DB9 none = .ok (.amo true .max 33 45 12 9) ∧
    decodeSlot 1 0x461C_2D49 none = .ok (.amo false .and 33 45 12 9) ∧
    decodeSlot 1 0x461C_2DD9 none = .ok (.amo true .or 33 45 12 9) ∧
    decodeSlot 1 0x461C_2D69 none = .ok (.amo false .xor 33 45 12 9) ∧
    decodeSlot 1 0x461C_2DF9 none = .ok (.amo true .swap 33 45 12 9) ∧
    decodeSlot 1 0x4A1C_2D89 none = .ok (.cas true false 33 45 12 9) ∧
    decodeSlot 1 0x4A1C_2D19 none = .ok (.cas false true 33 45 12 9) ∧
    decodeSlot 1 0x4E1C_2D19 (some 0xA5) = .ok (.fewait true 33 12 0x296D 9) ∧
    decodeSlot 1 0x5130_C309 (some 0xA5) = .ok (.fence 0x13 .die 0xA5C3 9) ∧
    decodeSlot 1 0x5132_C309 (some 0xA5) = .ok (.fence 0x13 .core 0xA5C3 9) ∧
    decodeSlot 1 0x5134_C309 (some 0xA5) = .ok (.fence 0x13 .cluster 0xA5C3 9) ∧
    decodeSlot 1 0x5136_C309 (some 0xA5) = .ok (.fence 0x13 .package 0xA5C3 9) ∧
    decodeSlot 1 0x5138_C309 (some 0xA5) = .ok (.fence 0x13 .system 0xA5C3 9) ∧
    decodeSlot 1 0x5734_8009 none = .ok (.wait 0x33 18 9) ∧
    decodeSlot 1 0x5AC3_2D09 (some 0x05) = .ok (.barinit 0x2C3 0x16D 9) ∧
    decodeSlot 1 0x5EC3_2D09 (some 0x05) = .ok (.bararv 0x2C3 0x16D 9) ∧
    decodeSlot 1 0x66C3_2D09 (some 0x05) = .ok (.bararw 0x2C3 0x16D 9) ∧
    decodeSlot 1 0x62C3_0009 none = .ok (.barwt 0x2C3 9) ∧
    decodeSlot 1 0x6800_0009 none = .ok (.snap 9) := by
  decide +kernel

/-- Source: R153, R149, R230, R231, and the tables of match bits and fields of the opcode maps. -/
theorem test_wordsEngines1 :
    decodeSlot 1 0x80C4_52D9 (some 0xA5) = .ok (.copy ⟨12, true⟩ ⟨5, false⟩ (.imm 0x296D) 9) ∧
    decodeSlot 1 0x8250_C6D9 none = .ok (.copy ⟨5, false⟩ ⟨12, true⟩ (.reg 45) 9) ∧
    decodeSlot 1 0x84C4_52D9 (some 0xA5) = .ok (.copym ⟨12, true⟩ ⟨5, false⟩ (.imm 0xA5) 45 9) ∧
    decodeSlot 1 0x86C4_52D9 (some 0x25) = .ok (.copym ⟨12, true⟩ ⟨5, false⟩ (.reg 37) 45 9) ∧
    decodeSlot 1 0x8A97_0ED9 (some 0x61) = .ok (.relay true 0xA5 0xC3 6 45 9) ∧
    decodeSlot 1 0x8E97_0ED9 (some 0x5A) = .ok (.ewadd ⟨0xA5, 0xC3, 0x5A, 45, 9⟩) ∧
    decodeSlot 1 0x9297_0ED9 (some 0x5A) = .ok (.ewmul ⟨0xA5, 0xC3, 0x5A, 45, 9⟩) ∧
    decodeSlot 1 0x9697_0ED9 (some 0x5A) = .ok (.ewfma ⟨0xA5, 0xC3, 0x5A, 45, 9⟩) ∧
    decodeSlot 1 0x9A97_0ED9 (some 0x5A) = .ok (.ewmax ⟨0xA5, 0xC3, 0x5A, 45, 9⟩) ∧
    decodeSlot 1 0xA297_0ED9 (some 0x5A) = .ok (.gemv ⟨0xA5, 0xC3, 0x5A, 45, 9⟩) ∧
    decodeSlot 1 0xA697_0ED9 (some 0x5A) = .ok (.gemm ⟨0xA5, 0xC3, 0x5A, 45, 9⟩) ∧
    decodeSlot 1 0x9E97_0ED9 (some 0x01) = .ok (.ewcvt true 0xA5 0xC3 45 9) ∧
    decodeSlot 1 0xAA97_0ED9 (some 0x00) = .ok (.reduce .sum 0xA5 0xC3 45 9) ∧
    decodeSlot 1 0xAA97_0ED9 (some 0x01) = .ok (.reduce .max 0xA5 0xC3 45 9) ∧
    decodeSlot 1 0xAA97_0ED9 (some 0x02) = .ok (.reduce .sexp 0xA5 0xC3 45 9) ∧
    decodeSlot 1 0xAC84_B409 none = .ok (.placeq 33 45 9) ∧
    decodeSlot 1 0xB0C4_02D9 none = .ok (.attn ⟨12, true⟩ 45 9) ∧
    decodeSlot 1 0xB484_B719 none = .ok (.kvfind 33 45 ⟨12, true⟩ 9) ∧
    decodeSlot 1 0xB884_0319 (some 0x2D) = .ok (.kvapp 33 ⟨12, true⟩ 45 9) ∧
    decodeSlot 1 0xBC84_B719 (some 0x12) = .ok (.kvfree 33 45 18 ⟨12, true⟩ 9) ∧
    decodeSlot 1 0xC0C4_B549 none = .ok (.setband 45 ⟨12, true⟩ ⟨5, false⟩ 9) ∧
    decodeSlot 1 0xC484_0319 none = .ok (.splopen 33 ⟨12, true⟩ 9) ∧
    decodeSlot 1 0xC484_1719 none = .ok (.splopenNb 33 5 ⟨12, true⟩ 9) ∧
    decodeSlot 1 0xC884_B719 (some 0x12) = .ok (.splarv 33 45 18 ⟨12, true⟩ 9) := by
  decide +kernel

/-- Source: R153, R149, R230, R231, and the tables of match bits and fields of the opcode maps. -/
theorem test_wordsEngines2 :
    decodeSlot 1 0xCC84_B409 none = .ok (.splclose 33 45 9) ∧
    decodeSlot 1 0xD084_B409 (some 0x12) = .ok (.splstat 33 45 18 9) ∧
    decodeSlot 1 0xD400_0319 none = .ok (.nxwr ⟨12, true⟩ 9) ∧
    decodeSlot 1 0xD800_0319 none = .ok (.nxrd ⟨12, true⟩ 9) ∧
    decodeSlot 1 0xDC84_0319 none = .ok (.nxamo 33 ⟨12, true⟩ 9) ∧
    decodeSlot 1 0xE884_0319 none = .ok (.launch 33 ⟨12, true⟩ 9) ∧
    decodeSlot 1 0xE084_B409 none = .ok (.nxwait 33 45 9) ∧
    decodeSlot 1 0xE484_B409 none = .ok (.nxstat 33 45 9) ∧
    decodeSlot 1 0xEC08_B409 none = .ok (.sumpcfg 2 45 9) := by
  decide +kernel

/-- Source: R154, R150, R189, and the tables of match bits and fields of the opcode maps. -/
theorem test_wordsVectors1 :
    decodeSlot 2 0x0614_AD91 (some 0x45) = .ok (.vadd ⟨33, 18, 45, 9, .bf16, false, true, 5⟩) ∧
    decodeSlot 2 0x0A14_AD98 (some 0xC0) = .ok (.vsub ⟨33, 18, 45, 9, .i16, true, true, 0⟩) ∧
    decodeSlot 2 0x0E14_AD9B (some 0x80) = .ok (.vmul ⟨33, 18, 45, 9, .n32, true, false, 0⟩) ∧
    decodeSlot 2 0x1214_AD92 (some 0x65) = .ok (.vfma ⟨33, 18, 45, 9, .f16, false, true, 37⟩) ∧
    decodeSlot 2 0x1614_AD90 none = .ok (.vfms ⟨33, 18, 45, 9, .f32, false, false, 0⟩) ∧
    decodeSlot 2 0x1A14_AD93 none = .ok (.vmin ⟨33, 18, 45, 9, .e4m3, false, false, 0⟩) ∧
    decodeSlot 2 0x1E14_AD9B none = .ok (.vmax ⟨33, 18, 45, 9, .n32, false, false, 0⟩) ∧
    decodeSlot 2 0x2214_8092 (some 0x80) = .ok (.vabs ⟨33, 18, 0, 9, .f16, true, false, 0⟩) ∧
    decodeSlot 2 0x2614_8092 (some 0x80) = .ok (.vneg ⟨33, 18, 0, 9, .f16, true, false, 0⟩) ∧
    decodeSlot 2 0x2A14_8092 (some 0x80) = .ok (.vrcp ⟨33, 18, 0, 9, .f16, true, false, 0⟩) ∧
    decodeSlot 2 0x2E14_8092 (some 0x80) = .ok (.vrsq ⟨33, 18, 0, 9, .f16, true, false, 0⟩) ∧
    decodeSlot 2 0x3614_8092 (some 0x80) = .ok (.vlog2 ⟨33, 18, 0, 9, .f16, true, false, 0⟩) ∧
    decodeSlot 2 0x4214_8092 (some 0x80) = .ok (.vgetexp ⟨33, 18, 0, 9, .f16, true, false, 0⟩) ∧
    decodeSlot 2 0x4614_8092 (some 0x80) = .ok (.vgetman ⟨33, 18, 0, 9, .f16, true, false, 0⟩) ∧
    decodeSlot 2 0x3214_8090 none = .ok (.vfexp2 ⟨33, 18, 0, 9, .f32, false, false, 0⟩) ∧
    decodeSlot 2 0x3A14_8591 none = .ok (.vrndi ⟨33, 18, 5, 9, .bf16, false, false, 0⟩) ∧
    decodeSlot 2 0x3E14_AD90 none = .ok (.vscale ⟨33, 18, 45, 9, .f32, false, false, 0⟩) ∧
    decodeSlot 2 0x4A14_9193 (some 0x49) = .ok (.vcvt ⟨33, 18, 0x11, 9, .e4m3, false, true, 9⟩) ∧
    decodeSlot 2 0x4E14_8D98 (some 0x80) = .ok (.vcvti ⟨33, 18, 13, 9, .i16, true, false, 0⟩) ∧
    decodeSlot 2 0x5214_8200 none = .ok (.vpackb ⟨33, 18, 2, 0, .f32, false, false, 0⟩) ∧
    decodeSlot 2 0x5614_8390 none = .ok (.vunpb ⟨33, 18, 3, 9, .f32, false, false, 0⟩) ∧
    decodeSlot 2 0x5A14_8D98 none = .ok (.vsat ⟨33, 18, 13, 9, .i16, false, false, 0⟩) ∧
    decodeSlot 2 0x5E94_AD78 (some 0x80) = .ok (.vcmp ⟨0x29, 18, 45, 7, .i16, true, false, 0⟩) ∧
    decodeSlot 2 0x6214_AD99 none = .ok (.vsel ⟨33, 18, 45, 9, .n16, false, false, 0⟩) := by
  decide +kernel

/-- Source: R154, R150, R189, and the tables of match bits and fields of the opcode maps. -/
theorem test_wordsVectors2 :
    decodeSlot 2 0x6614_AD99 none = .ok (.vand ⟨33, 18, 45, 9, .n16, false, false, 0⟩) ∧
    decodeSlot 2 0x6A14_AD99 none = .ok (.vor ⟨33, 18, 45, 9, .n16, false, false, 0⟩) ∧
    decodeSlot 2 0x6E14_AD99 none = .ok (.vxor ⟨33, 18, 45, 9, .n16, false, false, 0⟩) ∧
    decodeSlot 2 0x7214_8099 none = .ok (.vnot ⟨33, 18, 0, 9, .n16, false, false, 0⟩) ∧
    decodeSlot 2 0x7614_AD99 none = .ok (.vshl ⟨33, 18, 45, 9, .n16, false, false, 0⟩) ∧
    decodeSlot 2 0x7A14_8596 (some 0x40) = .ok (.vshr ⟨33, 18, 5, 9, .i8, false, true, 0⟩) ∧
    decodeSlot 2 0x7E14_AD9A none = .ok (.vsra ⟨33, 18, 45, 9, .i32, false, false, 0⟩) ∧
    decodeSlot 2 0x8210_2D9A none = .ok (.viota ⟨33, 0, 45, 9, .i32, false, false, 0⟩) ∧
    decodeSlot 2 0x8614_809B none = .ok (.vbcast ⟨33, 18, 0, 9, .n32, false, false, 0⟩) ∧
    decodeSlot 2 0x8A14_AD06 (some 0x02) = .ok (.vmovs ⟨33, 18, 45, 0, .i8, false, false, 2⟩) ∧
    decodeSlot 2 0x8E14_AD06 (some 0x40) = .ok (.vins ⟨33, 18, 45, 0, .i8, false, true, 0⟩) ∧
    decodeSlot 2 0x9214_809D none = .ok (.vmov ⟨33, 18, 0, 9, .n64, false, false, 0⟩) ∧
    decodeSlot 2 0x9614_AD99 none = .ok (.vperm ⟨33, 18, 45, 9, .n16, false, false, 0⟩) ∧
    decodeSlot 2 0x9A14_AD99 (some 0x65) = .ok (.vslide ⟨33, 18, 45, 9, .n16, false, true, 37⟩) ∧
    decodeSlot 2 0x9E14_8090 none = .ok (.vredsum ⟨33, 18, 0, 9, .f32, false, false, 0⟩) ∧
    decodeSlot 2 0xA214_8090 none = .ok (.vredmax ⟨33, 18, 0, 9, .f32, false, false, 0⟩) ∧
    decodeSlot 2 0xAA14_8098 none = .ok (.vcompr ⟨33, 18, 0, 9, .i16, false, false, 0⟩) ∧
    decodeSlot 2 0xAE14_8090 none = .ok (.vexpnd ⟨33, 18, 0, 9, .f32, false, false, 0⟩) ∧
    decodeSlot 2 0xA614_AD96 (some 0x40) = .ok (.vdot4 ⟨33, 18, 45, 9, .i8, false, true, 0⟩) ∧
    decodeSlot 2 0xB052_4E00 none = .ok (.kand ⟨5, 9, 14, 0, .f32, false, false, 0⟩) ∧
    decodeSlot 2 0xB452_4E00 none = .ok (.kor ⟨5, 9, 14, 0, .f32, false, false, 0⟩) ∧
    decodeSlot 2 0xB852_4E00 none = .ok (.kxor ⟨5, 9, 14, 0, .f32, false, false, 0⟩) ∧
    decodeSlot 2 0xBC52_4000 none = .ok (.knot ⟨5, 9, 0, 0, .f32, false, false, 0⟩) ∧
    decodeSlot 2 0xC212_4008 none = .ok (.kpopc ⟨33, 9, 0, 0, .i16, false, false, 0⟩) := by
  decide +kernel

/-- Source: R154, R150, R189, and the tables of match bits and fields of the opcode maps. -/
theorem test_wordsVectors3 :
    decodeSlot 2 0xC612_4008 none = .ok (.kfirst ⟨33, 9, 0, 0, .i16, false, false, 0⟩) ∧
    decodeSlot 2 0xC85B_4008 none = .ok (.kset ⟨5, 45, 0, 0, .i16, false, false, 0⟩) ∧
    decodeSlot 2 0xCC24_8398 none = .ok (.sumpin ⟨2, 18, 3, 9, .i16, false, false, 0⟩) ∧
    decodeSlot 2 0xD210_8398 none = .ok (.sumpout ⟨33, 2, 3, 9, .i16, false, false, 0⟩) ∧
    decodeSlot 2 0xD610_8000 none = .ok (.sumpcnt ⟨33, 2, 0, 0, .f32, false, false, 0⟩) := by
  decide +kernel

/-- Source: R155, R151, R215, R227, and the tables of match bits and fields of the opcode maps. -/
theorem test_wordsMatrix :
    decodeSlot 3 0x0000_0000 none = .ok .mnop ∧
    decodeSlot 3 0x040B_4009 none = .ok (.mldb .e2m1k false 45 9) ∧
    decodeSlot 3 0x040B_4019 none = .ok (.mldb .i4 false 45 9) ∧
    decodeSlot 3 0x040B_4029 none = .ok (.mldb .e4m3 false 45 9) ∧
    decodeSlot 3 0x040B_4079 none = .ok (.mldb .bf16 true 45 9) ∧
    decodeSlot 3 0x0A13_2D09 none = .ok (.mwbf 33 12 45 9) ∧
    decodeSlot 3 0x0E14_9509 none = .ok (.mpush ⟨33, 18, 21, 9⟩) ∧
    decodeSlot 3 0x1614_9509 none = .ok (.macc ⟨33, 18, 21, 9⟩) ∧
    decodeSlot 3 0x1A14_9509 none = .ok (.mdrain ⟨33, 18, 21, 9⟩) ∧
    decodeSlot 3 0x1214_9509 (some 0x13) = .ok (.mshift ⟨33, 18, 21, 9⟩ 19) ∧
    decodeSlot 3 0x1800_0019 none = .ok (.mdrainSwap 9) ∧
    decodeSlot 3 0x1E10_0009 none = .ok (.mzero 33 9) ∧
    decodeSlot 3 0x2215_8609 none = .ok (.acmovv 33 0x2C3 9) ∧
    decodeSlot 3 0x2615_8609 none = .ok (.acmova 33 0x2C3 9) ∧
    decodeSlot 3 0x2A13_0009 none = .ok (.acld 33 12 9) ∧
    decodeSlot 3 0x2E13_0009 none = .ok (.acst 33 12 9) ∧
    decodeSlot 3 0x4024_AD09 none = .ok (.ldrcfg 2 18 45 9) ∧
    decodeSlot 3 0x4420_2D09 none = .ok (.ldrstep 2 45 9) ∧
    decodeSlot 3 0x4820_2D09 none = .ok (.ldrread 2 45 9) ∧
    decodeSlot 3 0x4E10_8E59 (some 0x09) = .ok (.ldrrung 33 5 2 14 9 9) ∧
    decodeSlot 3 0x5210_8009 none = .ok (.ldrcnt 33 2 9) ∧
    decodeSlot 3 0x5423_0009 none = .ok (.ldrsave 2 12 9) ∧
    decodeSlot 3 0x5823_0009 none = .ok (.ldrload 2 12 9) ∧
    decodeSlot 3 0x5C20_0009 none = .ok (.ldrclr 2 9) := by
  decide +kernel

/-- Source: R148, format SB (OP [31:26], disp [25:4], G [3:0]), opcodes 0x13 and 0x15 of R152. -/
theorem test_wordsBranches :
    decodeSlot 0 0x4FFF_FFD9 none = .ok (.br (-3) 9) ∧
    decodeSlot 0 0x541A_5C39 none = .ok (.call 0x1A5C3 9) := by
  decide +kernel
/-! ### Words of the manual's own listings, with the instructions that it gives for them -/

/-- Source: the encoded listing of "Vector instructions", and of its sump example. -/
theorem test_manualVectorWords :
    decodeSlot 2 0x3996_0200 none = .ok (.vrndi ⟨25, 24, 2, 0, .f32, false, false, 0⟩) ∧
    decodeSlot 2 0x31C6_C000 none = .ok (.vfexp2 ⟨28, 27, 0, 0, .f32, false, false, 0⟩) ∧
    decodeSlot 2 0x3DD7_1900 none = .ok (.vscale ⟨29, 28, 25, 0, .f32, false, false, 0⟩) ∧
    decodeSlot 2 0x85A0_C007 none = .ok (.vbcast ⟨26, 3, 0, 0, .n8, false, false, 0⟩) ∧
    decodeSlot 2 0x5E21_0500 none = .ok (.vcmp ⟨0x22, 4, 5, 0, .f32, false, false, 0⟩) ∧
    decodeSlot 2 0x0410_8350 (some 0x80) = .ok (.vadd ⟨1, 2, 3, 5, .f32, true, false, 0⟩) ∧
    decodeSlot 2 0x7472_050A (some 0x40) = .ok (.vshl ⟨7, 8, 5, 0, .i32, false, true, 0⟩) ∧
    decodeSlot 2 0xCC11_0230 none = .ok (.sumpin ⟨1, 4, 2, 3, .f32, false, false, 0⟩) ∧
    decodeSlot 2 0xD0A0_4220 none = .ok (.sumpout ⟨10, 1, 2, 2, .f32, false, false, 0⟩) := by decide +kernel

/-- Source: the listings of "Engine commands" and "Memory and synchronisation". -/
theorem test_manualMemoryWords :
    decodeSlot 1 0xC400_0181 none = .ok (.splopen 0 ⟨6, false⟩ 1) ∧
    decodeSlot 1 0xC838_3DD0 (some 0x10) = .ok (.splarv 14 15 16 ⟨7, true⟩ 0) ∧
    decodeSlot 1 0xA030_2001 (some 0x04) = .ok (.gemv ⟨12, 8, 4, 0, 1⟩) ∧
    decodeSlot 1 0x0810_4080 (some 0x08) = .ok (.aadd 1 1 (.imm 0x200) 0) ∧
    decodeSlot 1 0x0C50_0000 none = .ok (.alea 1 .image 0 0) ∧
    decodeSlot 1 0x1C10_4830 none = .ok (.asetm .circ 1 1 8 3 0) ∧
    decodeSlot 1 0x1041_0000 (some 0x04) = .ok (.asetm .lin 4 4 256 0 0) ∧
    decodeSlot 1 0x2041_4030 none = .ok (.ld 3 .plain 4 (.inc 1 ⟨.die, 0⟩) 0) ∧
    decodeSlot 1 0x2052_0070 none = .ok (.ld 3 .fe 5 (.imm 2 0) 0) ∧
    decodeSlot 1 0x2062_10B0 none = .ok (.ld 3 .fec 6 (.imm 2 16) 0) ∧
    decodeSlot 1 0x2C92_0001 none = .ok (.stv 0 9 (.imm 2 0) 1) ∧
    decodeSlot 1 0x2421_80B0 (some 0x30) = .ok (.st 3 .rel 2 (.idx 1 0 ⟨.package, 0⟩) 0) ∧
    decodeSlot 1 0x5050_0000 none = .ok (.fence 5 .die 0 0) ∧
    decodeSlot 1 0x5090_0001 none = .ok (.fence 9 .die 0 1) ∧
    decodeSlot 1 0x5016_0000 none = .ok (.fence 1 .package 0 0) := by decide +kernel

/-- Source: the listing of the grouped-query program. -/
theorem test_manualGqaWords :
    decodeSlot 1 0x4451_0350 none = .ok (.amo false .or 5 3 1 0) ∧
    decodeSlot 1 0xB428_1E81 none = .ok (.kvfind 10 7 ⟨10, false⟩ 1) ∧
    decodeSlot 1 0x8634_4061 (some 0x0E) = .ok (.copym ⟨3, true⟩ ⟨4, false⟩ (.reg 14) 6 1) ∧
    decodeSlot 1 0x4FFB_0000 (some 0x10) = .ok (.fewait false 63 11 1024 0) ∧
    decodeSlot 3 0x0BF2_C000 none = .ok (.mwbf 63 11 0 0) ∧
    decodeSlot 3 0x0405_4030 none = .ok (.mldb .bf16 false 21 0) ∧
    decodeSlot 3 0x0C01_C100 none = .ok (.mpush ⟨0, 7, 1, 0⟩) ∧
    decodeSlot 2 0xA903_C020 none = .ok (.vcompr ⟨16, 15, 0, 2, .f32, false, false, 0⟩) ∧
    decodeSlot 1 0x29CC_4010 none = .ok (.ldv .fe 28 (.inc 12 ⟨.die, 0⟩) 0) ∧
    decodeSlot 2 0x95D5_DA00 none = .ok (.vperm ⟨29, 23, 26, 0, .f32, false, false, 0⟩) ∧
    decodeSlot 2 0x4A07_0100 (some 0x08) = .ok (.vcvt ⟨32, 28, 1, 0, .f32, false, false, 8⟩) := by decide +kernel

/-- Source: the listing of the hitch program, and the slot 3 listing of the ladder. -/
theorem test_manualHitchWords :
    decodeSlot 0 0x2180_4000 none = .ok (.movi 24 0x400 0) ∧
    decodeSlot 0 0x2580_4000 none = .ok (.movhi 24 0x400 1 0) ∧
    decodeSlot 0 0x2980_3100 none = .ok (.movhi 24 0x310 2 0) ∧
    decodeSlot 1 0xEC00_6000 none = .ok (.sumpcfg 0 24 0) ∧
    decodeSlot 2 0x5C35_9700 none = .ok (.vcmp ⟨3, 22, 23, 0, .f32, false, false, 0⟩) ∧
    decodeSlot 2 0xC846_4000 none = .ok (.kset ⟨4, 25, 0, 0, .f32, false, false, 0⟩) ∧
    decodeSlot 2 0xB050_C400 none = .ok (.kand ⟨5, 3, 4, 0, .f32, false, false, 0⟩) ∧
    decodeSlot 2 0xCC05_C150 none = .ok (.sumpin ⟨0, 23, 1, 5, .f32, false, false, 0⟩) ∧
    decodeSlot 2 0xD3C0_0160 none = .ok (.sumpout ⟨60, 0, 1, 6, .f32, false, false, 0⟩) ∧
    decodeSlot 2 0xC191_8000 none = .ok (.kpopc ⟨25, 6, 0, 0, .f32, false, false, 0⟩) ∧
    decodeSlot 2 0x89AF_400A none = .ok (.vmovs ⟨26, 61, 0, 0, .i32, false, false, 0⟩) ∧
    decodeSlot 1 0x0EA0_6000 none = .ok (.alea 10 .window 0x600 0) ∧
    decodeSlot 1 0x2FDA_0000 none = .ok (.stv 0 61 (.imm 10 0) 0) ∧
    decodeSlot 1 0x8804_0000 (some 0x01) = .ok (.relay true 1 0 0 0 0) ∧
    decodeSlot 3 0x2250_6000 none = .ok (.acmovv 37 48 0) := by decide +kernel

/-- Source: R156, one pattern of each kind: opcode 0 with a nonzero bit; reserved opcode and function codes; a reserved field; a
destination `g0`; a LOOP count of 0 and displacement of 1; an AW base of 3; length codes that do not suit their mode; an empty
path mask and class mask; scope code 5; an AB count of 513; a lent byte that its slot has no use for. -/
theorem test_illegalPatterns :
    (([(0, 0x0000_0001, none), (1, 0x0000_0001, none), (2, 0x0000_0010, none), (3, 0x0000_0100, none),
      (0, 0x9000_0000, none), (1, 0x6C00_0000, none), (2, 0xE000_0000, none), (3, 0x3000_0000, none),
      (0, 0x0800_0060, none), (0, 0x0C00_0070, none), (0, 0x4000_0070, none), (3, 0x4000_0010, none),
      (0, 0x1000_0100, none), (0, 0x5010_0000, none), (1, 0x5001_0000, none), (3, 0x0C00_2000, none),
      (0, 0x3000_0000, none), (0, 0x3080_0000, none), (2, 0x5C05_9700, none), (2, 0xC806_4000, none),
      (0, 0x5C00_0020, none), (0, 0x5C00_4010, none), (1, 0x0C30_0000, none), (1, 0x1000_0010, none),
      (1, 0x1400_0000, none), (1, 0x5000_0000, none), (1, 0x5400_0000, none), (1, 0x501A_0000, none),
      (1, 0x5800_0100, some 0x08), (1, 0x5800_0000, none), (1, 0x6000_0000, some 0x01), (1, 0x0000_0000, some 0x01),
      (3, 0x0000_0000, some 0x01), (2, 0x0410_8350, some 0x01)] : List (Nat × BitVec 32 × Option Byte)).all
      fun p => (decodeSlot p.1 p.2.1 p.2.2).toOption.isNone) = true := by decide +kernel

/-- Source: R146 and R156: the first bundle of "Bundles", the empty bundle, a header with [25:24] = 01, and a header over an empty
slot 1 that lends it a byte. -/
theorem test_bundles :
    decodeBundle 0x0000_0000_1C50_420B_2831_0000_FC08_0000 =
      .ok ⟨true, .nop, .ldv .plain 3 (.imm 1 512) 0, .vmax ⟨5, 1, 2, 0, .n32, false, false, 0⟩, .mnop⟩ ∧
    decodeBundle 0 = .ok ⟨false, .nop, .nop, .nop, .mnop⟩ ∧
    (decodeBundle 0x0000_0000_0000_0000_0000_0000_FD00_0000).toOption = none ∧
    (decodeBundle 0x0000_0000_0000_0000_0000_0000_FC08_0000).toOption = none := by decide +kernel

/-! ### WellFormed: an ill-formed term for each check, and its well-formed neighbour -/

/-- Source: R144, R156, R166, R173, R174, R177, R184 (slot 0). -/
theorem test_wfScalar :
    (([.movhi 1 5 0 0, .cmp .eq ⟨0, 1, 2, false, 0⟩, .cmp .eq ⟨8, 1, 2, false, 0⟩, .fcvt 1 2 .e2m1k .f32 0,
      .fcvt 1 2 .f32 .e2m1k 0, .fcmp .lt ⟨0, 1, 2, 0⟩, .gand 0 1 2 0, .gor 8 1 2 0, .gnot 0 1 0, .loop 0 5 0, .loop 1 1 0,
      .loopReg 1 1 0, .getf 1 6 0, .getid 1 7 0, .mfs 1 0x00F 0, .mfs 1 0x023 0, .mts 1 0x021 0, .mts 1 0x022 0,
      .mts 1 0x0D1 0] : List Instr).all fun i => !i.wf) = true ∧
    (([.movhi 1 5 1 0, .cmp .eq ⟨7, 1, 2, false, 0⟩, .fcvt 1 2 .n4 .f32 0, .fcmp .lt ⟨1, 1, 2, 0⟩, .gand 1 1 2 0, .loop 1 2 0,
      .loopReg 1 2 0, .getf 1 5 0, .getid 1 6 0, .mfs 1 0x022 0, .mfs 1 0x010 0, .mts 1 0x0D0 0, .mts 1 0x100 0] :
      List Instr).all fun i => i.wf) = true := by decide +kernel

/-- Source: R144, R147, R149, R156, R215, R227, R230, R231, R257 to R261, R268, R272 to R277 (slots 1 and 3). -/
theorem test_wfMemory :
    (([.amov .aFromS 16 1 0, .amov .sFromA 1 16 0, .amov .aFromA 16 1 0, .amov .aFromA 1 16 0, .asetm .lin 1 1 8 1 0,
      .asetm .mod 1 1 8 0 0, .asetm .circ 1 1 8 0 0, .asetm .brev 1 1 3 2 0, .asetm .brev 1 1 (-4) 2 0, .asetm .brev 1 1 16 2 0,
      .ld 3 .plain 1 (.inc 1 ⟨.cluster, 0⟩) 0, .ld 3 .fe 1 (.inc 1 ⟨.core, 0⟩) 0, .st 3 .plain 1 (.inc 1 ⟨.package, 0⟩) 0,
      .ldv .acq 1 (.imm 1 0) 0, .ldv .plain 1 (.inc 1 ⟨.core, 0⟩) 0, .stv 0 1 (.inc 1 ⟨.system, 0⟩) 0,
      .ldvs 2 1 (.imm 1 0) 0, .ldvs 2 1 (.idx 1 2 ⟨.core, 0⟩) 0, .stvs 2 1 (.inc 1 ⟨.die, 0⟩) 0, .ldvx 0 1 (.imm 1 0) 0,
      .stvx 0 1 (.imm 1 0) 0, .pref (.inc 1 ⟨.core, 0⟩) 0, .fence 0 .die 0 0, .fence 0x21 .die 0 0, .wait 0 3 0,
      .barinit 1 0 0, .barinit 1 513 0, .bararv 1 0 0, .bararw 1 513 0, .copy ⟨1, false⟩ ⟨2, false⟩ (.imm 0) 0,
      .copym ⟨1, false⟩ ⟨2, false⟩ (.imm 0) 3 0, .ewadd ⟨1, 2, 3, 63, 0⟩, .ewmul ⟨1, 2, 3, 63, 0⟩, .ewfma ⟨1, 2, 3, 63, 0⟩,
      .ewmax ⟨1, 2, 3, 63, 0⟩, .gemv ⟨1, 2, 3, 63, 0⟩, .gemm ⟨1, 2, 3, 63, 0⟩, .ewcvt false 1 2 63 0, .reduce .sum 1 2 63 0,
      .attn ⟨1, false⟩ 0 0, .attn ⟨1, false⟩ 63 0, .splopenNb 1 0 ⟨2, false⟩ 0, .mshift ⟨1, 63, 0, 0⟩ 1,
      .ldrrung 1 0 0 0 0 0] : List Instr).all fun i => !i.wf) = true ∧
    (([.amov .sFromA 63 15 0, .asetm .lin 1 1 8 0 0, .asetm .brev 1 1 8 2 0, .ld 3 .acq 1 (.inc 1 ⟨.cluster, 0⟩) 0,
      .st 3 .rel 1 (.inc 1 ⟨.package, 0⟩) 0, .ldvs 2 1 (.idx 1 2 ⟨.die, 3⟩) 0, .fence 0x1F .die 0 0, .wait 1 0 0,
      .barinit 1 512 0, .barinit 1 1 0, .copy ⟨1, false⟩ ⟨2, false⟩ (.imm 1) 0, .copy ⟨1, false⟩ ⟨2, false⟩ (.reg 0) 0,
      .ewadd ⟨1, 2, 3, 62, 0⟩, .attn ⟨1, false⟩ 1 0, .splopenNb 1 1 ⟨2, false⟩ 0, .mshift ⟨1, 62, 0, 0⟩ 31,
      .ldrrung 1 1 0 0 0 0] : List Instr).all fun i => i.wf) = true := by decide +kernel

/-- Source: R188 to R212 (slot 2): an unlisted type, V, C, Z or M where the entry leaves it unused, and each value out of range. -/
theorem test_wfVector :
    (([.vadd ⟨1, 2, 3, 0, .e4m3, false, false, 0⟩, .vadd ⟨1, 2, 3, 0, .f32, false, false, 1⟩, .vadd ⟨1, 2, 3, 0, .f32, false, true, 6⟩,
      .vsub ⟨1, 2, 3, 0, .i32, false, true, 1⟩, .vmul ⟨1, 2, 3, 0, .e5m2, false, false, 0⟩, .vmul ⟨1, 2, 3, 0, .f32, false, true, 0⟩,
      .vfma ⟨1, 2, 3, 0, .i32, false, true, 0⟩, .vfms ⟨1, 2, 3, 0, .f32, false, false, 4⟩, .vmin ⟨1, 2, 3, 0, .e2m1k, false, false, 0⟩,
      .vmax ⟨1, 2, 3, 0, .f32, false, false, 4⟩, .vabs ⟨1, 2, 0, 0, .n32, false, false, 0⟩, .vneg ⟨1, 2, 1, 0, .i32, false, false, 0⟩,
      .vrcp ⟨1, 2, 0, 0, .i32, false, false, 0⟩, .vrsq ⟨1, 2, 1, 0, .f32, false, false, 0⟩, .vlog2 ⟨1, 2, 0, 0, .f32, false, true, 0⟩,
      .vfexp2 ⟨1, 2, 0, 0, .f16, false, false, 0⟩, .vrndi ⟨1, 2, 6, 0, .f32, false, false, 0⟩, .vrndi ⟨1, 2, 8, 0, .f32, false, false, 0⟩,
      .vscale ⟨1, 2, 3, 0, .i32, false, false, 0⟩, .vgetexp ⟨1, 2, 1, 0, .f32, false, false, 0⟩, .vgetman ⟨1, 2, 0, 0, .e4m3, false, false, 0⟩,
      .vcvt ⟨1, 2, 5, 0, .f32, false, false, 0⟩, .vcvt ⟨1, 2, 0, 0, .e2m1k, false, false, 0⟩, .vcvt ⟨1, 2, 0x10, 0, .f16, false, false, 0⟩,
      .vcvt ⟨1, 2, 0, 0, .f16, false, false, 16⟩, .vcvt ⟨1, 2, 0, 0, .f16, false, true, 6⟩, .vcvt ⟨1, 2, 0, 0, .f16, false, false, 1⟩,
      .vcvti ⟨1, 2, 6, 0, .i32, false, false, 0⟩, .vcvti ⟨1, 2, 0, 0, .i16, false, false, 0⟩, .vcvti ⟨1, 2, 0, 0, .i64, false, false, 0⟩,
      .vpackb ⟨1, 2, 4, 0, .f32, false, false, 0⟩, .vpackb ⟨1, 2, 0, 1, .f32, false, false, 0⟩, .vunpb ⟨1, 2, 4, 0, .f32, false, false, 0⟩,
      .vsat ⟨1, 2, 0, 0, .i8, false, false, 0⟩, .vsat ⟨1, 2, 9, 0, .i8, false, false, 0⟩, .vcmp ⟨0x10, 2, 3, 0, .f32, false, false, 0⟩,
      .vcmp ⟨1, 2, 3, 0, .i4, false, false, 0⟩] : List Instr).all fun i => !i.wf) = true ∧
    (([.vsel ⟨1, 2, 3, 1, .f32, true, false, 0⟩, .vand ⟨1, 2, 3, 0, .e2m1k, false, false, 0⟩, .vor ⟨1, 2, 3, 0, .n8, false, true, 0⟩,
      .vxor ⟨1, 2, 3, 0, .n8, false, false, 1⟩, .vnot ⟨1, 2, 1, 0, .n8, false, false, 0⟩, .vshl ⟨1, 2, 8, 0, .n8, false, true, 0⟩,
      .vshr ⟨1, 2, 3, 0, .f32, false, false, 0⟩, .vsra ⟨1, 2, 3, 0, .i32, false, false, 2⟩, .viota ⟨1, 2, 3, 0, .i32, false, false, 0⟩,
      .viota ⟨1, 0, 3, 0, .f16, false, false, 0⟩, .vbcast ⟨1, 2, 1, 0, .n8, false, false, 0⟩, .vmovs ⟨1, 2, 0, 0, .i8, false, false, 4⟩,
      .vins ⟨1, 2, 0, 1, .i8, false, false, 0⟩, .vins ⟨1, 2, 0, 0, .i8, false, true, 1⟩, .vmov ⟨1, 2, 0, 0, .e2m1k, false, false, 0⟩,
      .vperm ⟨1, 2, 3, 0, .n4, false, false, 0⟩, .vslide ⟨1, 2, 3, 0, .e2m1k, false, false, 0⟩, .vredsum ⟨1, 2, 0, 0, .f32, true, false, 0⟩,
      .vredmax ⟨1, 2, 1, 0, .f32, false, false, 0⟩, .vdot4 ⟨1, 2, 3, 0, .i16, false, false, 0⟩, .vdot4 ⟨1, 2, 3, 0, .n8, false, true, 0⟩,
      .vcompr ⟨1, 2, 0, 0, .n4, false, false, 0⟩, .vexpnd ⟨1, 2, 1, 0, .f32, false, false, 0⟩, .kand ⟨0, 1, 2, 0, .f32, false, false, 0⟩,
      .kor ⟨1, 16, 2, 0, .f32, false, false, 0⟩, .kxor ⟨1, 1, 16, 0, .f32, false, false, 0⟩, .knot ⟨1, 1, 1, 0, .f32, false, false, 0⟩,
      .kpopc ⟨1, 16, 0, 0, .f32, false, false, 0⟩, .kfirst ⟨1, 1, 0, 1, .f32, false, false, 0⟩, .kset ⟨0, 1, 0, 0, .f32, false, false, 0⟩,
      .sumpin ⟨4, 1, 1, 0, .f32, false, false, 0⟩, .sumpin ⟨0, 62, 3, 0, .f32, false, false, 0⟩, .sumpin ⟨0, 1, 5, 0, .f32, false, false, 0⟩,
      .sumpout ⟨1, 4, 1, 1, .f32, false, false, 0⟩, .sumpout ⟨1, 0, 1, 0, .f32, false, false, 0⟩, .sumpout ⟨61, 0, 3, 1, .f32, false, false, 0⟩,
      .sumpcnt ⟨1, 4, 0, 0, .f32, false, false, 0⟩] : List Instr).all fun i => !i.wf) = true ∧
    (([.vadd ⟨1, 2, 3, 0, .f32, false, true, 5⟩, .vfma ⟨1, 2, 3, 0, .f32, false, true, 63⟩, .vrndi ⟨1, 2, 7, 0, .f32, false, false, 0⟩,
      .vcvt ⟨1, 2, 0x10, 0, .e4m3, false, false, 24⟩, .vcvti ⟨1, 2, 7, 0, .i32, false, false, 0⟩, .vsat ⟨1, 2, 8, 0, .i8, false, false, 0⟩,
      .vshl ⟨1, 2, 7, 0, .n8, false, true, 0⟩, .vmovs ⟨1, 2, 63, 0, .i8, false, false, 3⟩, .sumpin ⟨3, 60, 4, 0, .f32, false, false, 0⟩,
      .sumpout ⟨59, 3, 4, 1, .f32, false, false, 0⟩] : List Instr).all fun i => i.wf) = true := by decide +kernel

/-! ### One step of an instruction, against the manual's worked values -/

/-- A running agent of number `n` with one change. -/
def agent (n : Nat) (f : CoreState → CoreState) : State := { State.reset with coreId := n, core := f (CoreState.fresh .running) }

/-- Registers from a list. -/
def withS (l : List (Fin 64 × Word)) (c : CoreState) : CoreState := { c with s := l.foldl (fun v p => v.set p.1 p.2) c.s }
def withA (l : List (Fin 16 × Word)) (c : CoreState) : CoreState := { c with a := l.foldl (fun v p => v.set p.1 p.2) c.a }
def withV (l : List (Fin 64 × VReg)) (c : CoreState) : CoreState := { c with v := l.foldl (fun v p => v.set p.1 p.2) c.v }
def withK (l : List (Fin 16 × KReg)) (c : CoreState) : CoreState := { c with k := l.foldl (fun v p => v.set p.1 p.2) c.k }

/-- The state that a slot leaves, once every exposed result has landed. -/
def landed (r : Res) : Option State :=
  match r with
  | .next t => some (landDue t 1000)
  | _ => none
def outS (r : Res) (d : BitVec 6) : Option Word := (landed r).map fun t => t.core.rs d
def outV (r : Res) (d : BitVec 6) : Option VReg := (landed r).map fun t => t.core.rv d
def outK (r : Res) (d : BitVec 4) : Option KReg := (landed r).map fun t => t.core.rk d
def outFlags (r : Res) : Option (BitVec 32) := (landed r).map fun t => t.core.fflags
/-- The interlocked results that a slot leaves. -/
def outLock (r : Res) : Option (List (Option (List RegWrite))) := (landed r).map fun t => t.core.locks.map (·.result)

/-- Source: R161 (modulo 2^64; only bits [5:0] of an amount). -/
theorem test_integerCorners :
    let s := agent 0 (withS [(1, -1), (2, 2), (3, 65), (4, 0x8000000000000000)])
    outS (exec (.add ⟨5, 1, 2, false, 0⟩) s) 5 = some 1 ∧
    outS (exec (.sub ⟨5, 0, 5, true, 0⟩) s) 5 = some (-5) ∧
    outS (exec (.sra ⟨5, 4, 3, false, 0⟩) s) 5 = some 0xC000000000000000 ∧
    outS (exec (.rol ⟨5, 4, 1, true, 0⟩) s) 5 = some 1 ∧
    outS (exec (.min ⟨5, 4, 2, false, 0⟩) s) 5 = some 0x8000000000000000 ∧
    outS (exec (.minu ⟨5, 4, 2, false, 0⟩) s) 5 = some 2 := by decide +kernel

/-- Source: R162: division by 0, and the most negative value by -1. -/
theorem test_divisionCorners :
    let s := agent 0 (withS [(1, 0x8000000000000000), (2, -1), (3, 7)])
    outLock (exec (.div ⟨5, 1, 2, false, 0⟩) s) = some [some [.s 5 0x8000000000000000]] ∧
    outLock (exec (.rem ⟨5, 1, 2, false, 0⟩) s) = some [some [.s 5 0]] ∧
    outLock (exec (.divu ⟨5, 3, 0, false, 0⟩) s) = some [some [.s 5 (-1)]] ∧
    outLock (exec (.remu ⟨5, 3, 0, false, 0⟩) s) = some [some [.s 5 7]] := by decide +kernel

/-- Source: R163 to R166: a count of 0, a field that reaches past bit 63, and a chunk of MOVHI. -/
theorem test_fieldCorners :
    let s := agent 0 (withS [(1, 0xF000000000000001), (2, 0x083C), (6, 0x1111222233334444)])
    outS (exec (.clz 5 0 0) s) 5 = some 64 ∧ outS (exec (.ctz 5 1 0) s) 5 = some 0 ∧ outS (exec (.popc 5 1 0) s) 5 = some 5 ∧
    outS (exec (.bfx ⟨5, 1, 2, 0⟩) s) 5 = some 0xF ∧
    outS (exec (.bfi ⟨6, 1, 2, 0⟩) s) 6 = some 0x1111222233334444 ∧
    outS (exec (.movhi 6 0xABCD 2 0) s) 6 = some 0x1111ABCD33334444 := by decide +kernel

/-- Source: R37's worked conversions to E4M3 (456, 464), R38's (1000.0, NaN), and the weight table of "Number formats". -/
theorem test_toE4m3 :
    [0x43E40000, 0x43E80000, 0x447A0000, 0x7FC00000, 0x3E800000, 0xBF000000, 0x3EC00000, 0x3E99999A].map
      (fun x => let r := Fmt.e4m3.round false (Fmt.f32.decode x) Env.rne; (r.1, r.2.fl)) =
    [(0x7E, 1), (0x7E, 1), (0x7E, 5), (0x7F, 0), (0x28, 0), (0xB0, 0), (0x2C, 0), (0x2A, 1)] := by decide +kernel

/-- Source: R169, R35: 1 + 2^-24 is a tie that RNE takes down, with NX; the product of 0 and infinity is NaN with NV. -/
theorem test_scalarFloat :
    let s := agent 0 (withS [(1, 0x3F800000), (2, 0x33800000), (3, 0x7F800000)])
    outS (exec (.fadd ⟨5, 1, 2, 0⟩) s) 5 = some 0x3F800000 ∧ outFlags (exec (.fadd ⟨5, 1, 2, 0⟩) s) = some 1 ∧
    outS (exec (.fmul ⟨5, 0, 3, 0⟩) s) 5 = some 0x7FC00000 ∧ outFlags (exec (.fmul ⟨5, 0, 3, 0⟩) s) = some 16 := by
  decide +kernel

/-- Source: the table of the exp2 program: VFEXP2 of the fractions 0.125, 0.25, 0.75, 1/64 and 63/64, and of infinity and NaN. -/
theorem test_vfexp2 :
    [0x3E000000, 0x3E800000, 0x3F400000, 0xBE800000, 0x3C800000, 0x3F7C0000, 0x7FC00000].map
      (fun x => (fexp2Fn (Fmt.f32.decode x)).1) =
    [0x3F8B95C2, 0x3F9837F0, 0x3FD744FD, 0x3FD744FD, 0x3F8164D2, 0x3FFD3E0A, 0x7FC00000] := by decide +kernel

/-- Source: the rotation table of "Attention": the pair (1.5, -2) at positions 1, 2 and 5 of a quarter turn each. -/
theorem test_rotation :
    ([0x4000000000000000, 0x8000000000000000].map fun p =>
      let r := turnPhase p
      let q := rotatePair false r.1 r.2.1 (.fin false 3 (-1)) (.fin true 2 0)
      (f32Bits q.1, f32Bits q.2.1)) =
    [(0x40000000, 0x3FC00000), (0xBFC00000, 0x40000000)] := by decide +kernel

/-- Source: the hash table of "Attention": sequence 5, logical blocks 0 to 2, P = 4096. -/
theorem test_locatorHash :
    ([0, 1, 2].map fun b => probeStart ⟨0, 0, 4096, 0, 0, 0, 0, []⟩ 5 b) = [117, 2562, 1179] := by decide +kernel

/-- Source: R45's worked case, and die 2's pool. -/
theorem test_home : homeOf 0 0x004000034A40 = some 105 ∧ homeOf 0 0x00100C000000 = some 258 := by decide +kernel

/-- Source: R36: the LFSR's step, and the seed of a task with wid 0. -/
theorem test_lfsr : lfsrStep 1 = 3 ∧ lfsrStep 0x80000000 = 1 ∧ launchSeed 0 = 0x2C5D91B3 ∧
    launchSeed 0x2C5D91B3 = 1 := by decide +kernel

/-- Source: the loop program of "Scalar and control": its LOOP pushes (1, 3), and its second pass starts with a count of 2. -/
theorem test_loop :
    let s := agent 0 (withS [(1, 3)])
    let at10 := s.setCore { s.core with pc := 0x10 }
    (landed (exec (.loopReg 1 3 0) at10)).map (fun t => (t.core.loops.depth, t.core.loops.lcnt.get 0, t.core.loops.lbeg.get 0,
      t.core.loops.lend.get 0)) = some (1, 3, 0x20, 0x40) ∧
    (landed (exec (.loopReg 1 3 0) at10)).map (fun t => (nextPc { t.core with pc := 0x30 }).2) = some 0x20 := by decide +kernel

/-- Source: the walk of the hitch program, 0x0A0 and 0x230: SUMPCFG of 0x0310_0400_0400, and SUMPIN of lane 4. -/
theorem test_sump :
    let s := agent 0 fun c => withS [(24, 0x031004000400)] (withV [(23, 0x3FC00000 <<< 128)] (withK [(5, 0xF0000)] c))
    let cfg := landed (exec (.sumpcfg 0 24 0) s)
    cfg.map (fun t => (t.core.sump 0).base.toNat) = some 0x400 ∧ cfg.map (fun t => (t.core.sump 0).cap.toNat) = some 64 ∧
    (cfg.bind fun t => landed (exec (.sumpin ⟨0, 23, 1, 5, .f32, false, false, 0⟩) t)).map
      (fun u => ((u.core.sump 0).count.toNat, u.core.sq.map (fun e => e.bytes.map (fun b => (b.pa, b.val.toNat))))) =
    some (1, [[(0x001100000400, 0x00), (0x001100000401, 0x00), (0x001100000402, 0xC0), (0x001100000403, 0x3F),
      (0x001100000404, 4), (0x001100000405, 0), (0x001100000406, 0), (0x001100000407, 0)]]) := by decide +kernel

/-- Source: the same walk, 0x160 to 0x1B0 and 0x250: VCMP of zero lanes, KSET of 8 lanes, KAND and KPOPC. -/
theorem test_masks :
    let s := agent 0 fun c => withS [(25, 8)] (withK [(3, 0xF0000), (4, 0xFFFFFFFF)] c)
    outK (exec (.vcmp ⟨3, 22, 23, 0, .f32, false, false, 0⟩) s) 3 = some (BitVec.allOnes 256) ∧
    outK (exec (.kset ⟨4, 25, 0, 0, .f32, false, false, 0⟩) s) 4 = some 0xFFFFFFFF ∧
    outK (exec (.kand ⟨5, 3, 4, 0, .f32, false, false, 0⟩) s) 5 = some 0xF0000 ∧
    outS (exec (.kpopc ⟨25, 3, 0, 0, .f32, false, false, 0⟩) s) 25 = some 1 := by decide +kernel

/-- Source: R191, R198, R205: saturation under V, VSAT, a shift by the full width in a register, and VCOMPR. -/
theorem test_lanes :
    let s := agent 0 fun c => withV [(1, 0x7F), (2, 1), (3, 8), (4, 0x000300020001)] (withK [(1, 0xF0)] c)
    outV (exec (.vadd ⟨5, 1, 2, 0, .i8, false, true, 0⟩) s) 5 = some 0x7F ∧
    outV (exec (.vadd ⟨5, 1, 2, 0, .i8, false, false, 0⟩) s) 5 = some 0x80 ∧
    outV (exec (.vsat ⟨5, 1, 4, 0, .i8, false, false, 0⟩) s) 5 = some 7 ∧
    outV (exec (.vshl ⟨5, 2, 3, 0, .n8, false, false, 0⟩) s) 5 = some 1 ∧
    (outV (exec (.vcompr ⟨5, 4, 0, 1, .n16, false, false, 0⟩) s) 5).map (·.toNat) = some 3 := by decide +kernel

/-! ### Witnesses: states and operands that meet the hypotheses of each statement, at the bounds of each clause -/

theorem witness_FalseGuardHasNoEffect :
    (agent 0 id).core.guard (Instr.add ⟨1, 2, 3, false, 1⟩).guardF = false ∧
    (agent 0 id).core.guard (Instr.ld 3 .plain 1 (.imm 1 0) 8).guardF = false := by decide +kernel

theorem witness_EmptySlotsDoNothing :
    (1#32 ≠ 0 ∧ Layout.op 1 = 0) ∧ (0x03FFFFFF#32 ≠ 0 ∧ Layout.op 0x03FFFFFF = 0) ∧ (agent 0 id).core.post = none := by
  decide +kernel

/-- Of IntegerResults, ProductsAndQuotients, FieldsAndMoves, GuardResults, ScalarFloatCompares and AddressRegisters: a guard
that is true, plain and negated. -/
theorem witness_guardTrue :
    (agent 0 id).core.guard 0 = true ∧ (agent 512 id).core.guard 9 = true := by decide +kernel

theorem witness_SecondOperand :
    (⟨1, 2, 3, false, 0⟩ : SR).i = false ∧ (⟨1, 2, 32, true, 0⟩ : SR).i = true := by decide

theorem witness_FixedRegisters : decodeSlot 0 0x0450_0511 none = .ok (.sub ⟨5, 0, 5, false, 1⟩) ∧
    decodeSlot 2 0xC846_4000 none = .ok (.kset ⟨4, 25, 0, 0, .f32, false, false, 0⟩) := by decide +kernel

theorem witness_BitCounts :
    let s := agent 0 (withS [(1, 1)])
    s.core.guard 0 = true ∧ s.core.rs 0 = 0 ∧ s.core.rs 1 ≠ 0 := by decide +kernel

theorem witness_ScalarFloats :
    let s := agent 0 fun c => { c with fmt := 0x40000 }
    let t := agent 0 fun c => { c with fmt := 0x50000 }
    let u := agent 0 fun c => { c with fmt := 0x60000 }
    (s.core.guard 0 = true ∧ rndReserved s.core.rnd = false) ∧ (t.core.guard 0 = true ∧ rndReserved t.core.rnd = false) ∧
    (u.core.guard 0 = true ∧ rndReserved u.core.rnd = true) := by decide +kernel

theorem witness_Transfers :
    let s := agent 0 (withS [(1, 0x20), (2, 0x28), (63, 0x30)])
    let t := agent 0 (withS [(63, 1)])
    s.core.guard 0 = true ∧ (s.core.rs 1).toNat % 16 = 0 ∧ (s.core.rs 2).toNat % 16 ≠ 0 ∧ (s.core.rs 63).toNat % 16 = 0 ∧
    t.core.guard 0 = true ∧ (t.core.rs 63).toNat % 16 ≠ 0 := by decide +kernel

/-- A loop stack of a depth, with one body that ends before `e`. -/
def loopsAt (d : BitVec 3) (n e : Word) : LoopStack :=
  ⟨d, Vector.replicate _ n, Vector.replicate _ 0x10, Vector.replicate _ e⟩

theorem witness_LoopEntry :
    let s := agent 0 fun c => withS [(1, 3)] { c with pc := 0x10, loops := loopsAt 3 1 0x40 }
    (s.core.guard 0 = true ∧ s.core.loops.depth.toNat = (3 : Fin 4).val ∧
      ∀ j : Fin 4, s.core.loops.top = some j → s.core.pc ≠ s.core.loops.lend.get j - 16) ∧
    (1#12 ≠ 0 ∧ s.core.rs 1 ≠ 0 ∧ s.core.rs 0 = 0) ∧ (agent 0 id).core.loops.depth.toNat = (0 : Fin 4).val := by
  decide +kernel

theorem witness_LoopStackFault :
    let s := agent 0 fun c => withS [(1, 3)] { c with loops := loopsAt 4 1 0x40 }
    let t := agent 0 fun c => withS [(1, 3)] { c with pc := 0x30, loops := loopsAt 1 1 0x40 }
    (s.core.guard 0 = true ∧ 1#12 ≠ 0 ∧ s.core.rs 1 ≠ 0 ∧ s.core.rs 0 = 0 ∧ s.core.loops.depth = 4) ∧
    (t.core.guard 0 = true ∧ t.core.rs 1 ≠ 0 ∧ t.core.rs 0 = 0 ∧ t.core.loops.top = some 0 ∧
      t.core.pc = t.core.loops.lend.get 0 - 16) := by decide +kernel

/-- A core at the last bundle of its innermost body, and of every body below it. -/
def looped (d : BitVec 3) (n : Word) : CoreState :=
  { CoreState.fresh .running with pc := 0x30, loops := loopsAt d n 0x40 }

theorem witness_LoopEnd :
    ((looped 1 2).jump = none ∧ (looped 1 2).loops.depth.toNat = (0 : Fin 4).val + 1 ∧
      (looped 1 2).pc = (looped 1 2).loops.lend.get 0 - 16 ∧ 1 < ((looped 1 2).loops.lcnt.get 0).toNat) ∧
    ((looped 4 2).loops.depth.toNat = (3 : Fin 4).val + 1 ∧ (looped 4 2).pc = (looped 4 2).loops.lend.get 3 - 16) ∧
    ((looped 2 1).jump = none ∧ (looped 2 1).loops.depth.toNat = (1 : Fin 4).val + 1 ∧
      (looped 2 1).pc = (looped 2 1).loops.lend.get 1 - 16 ∧ ((looped 2 1).loops.lcnt.get 1).toNat ≤ 1) ∧
    (let c := { looped 1 2 with pc := 0x20 }
     c.jump = none ∧ c.loops.depth.toNat = (0 : Fin 4).val + 1 ∧ c.pc ≠ c.loops.lend.get 0 - 16) ∧
    ((looped 0 2).jump = none ∧ (looped 0 2).loops.depth = 0) ∧
    ((looped 1 1).pc = (looped 1 1).loops.lend.get 0 - 16 ∧ ((looped 1 1).loops.lcnt.get 0).toNat ≤ 1 ∧
      ((looped 1 0).loops.lcnt.get 0).toNat ≤ 1) ∧
    (let l := (looped 4 2).loops
     let body (x : Word) : Bool := (l.lbeg.get 3).toNat ≤ x.toNat && x.toNat < (l.lend.get 3).toNat
     l.depth.toNat = (3 : Fin 4).val + 1 ∧ body (looped 4 2).pc = true ∧ body 0x10 = true ∧ body 0x40 = false ∧ body 0x0 = false) :=
  by decide +kernel

/-- A task in context slot 0, of PASID 1, on virtual die 0. -/
def task0 : Task := ⟨1, 0, 0, 0, 7, 1, 0, 1, 0, []⟩
/-- A context of PASID 1 with virtual die 0 on die 0, virtual die 1 on die 2. -/
def ctx0 : Ctx := ⟨1, [some 0, some 2, none, none], [0, 0, 0, 0], 0, 0, 0, false⟩
/-- The same with a task, its context on every die. -/
def tasked (n : Nat) (f : CoreState → CoreState) : State :=
  let s := agent n fun c => f { c with task := some task0 }
  { s with dies := s.dies.map fun d => { d with active := { d.active with ctxs := [(0, ctx0)] } } }

theorem witness_Identity :
    let s := tasked 0 (withS [(1, 0), (2, 1), (3, 2), (4, 4)])
    s.core.guard 0 = true ∧ s.core.task = some task0 ∧ boundDie s.context (s.core.rs 1) = some 0 ∧
    boundDie s.context (s.core.rs 2) = some 2 ∧ boundDie s.context (s.core.rs 3) = none ∧
    boundDie s.context (s.core.rs 4) = none := by decide +kernel

theorem witness_TaskStops :
    let s := agent 0 fun c => { c with drainRpc := some 0x40 }
    s.core.guard 0 = true ∧ s.core.drainRpc ≠ none ∧ (agent 0 id).core.guard 0 = true ∧ (agent 0 id).core.drainRpc = none := by
  decide +kernel

theorem witness_SystemRegisters :
    let s := agent 0 (withS [(1, 0xFFFFF), (2, 0x100000), (3, 4), (4, 5), (5, 0x1000FFFFF)])
    s.core.guard 0 = true ∧ taskSysReg 0x010 = true ∧ taskSysReg 0x013 = true ∧ taskSysReg 0x022 = true ∧ taskSysReg 0x0D0 = true ∧
    taskSysReg 0x011 = true ∧ s.core.chains = false ∧ (s.core.rs 1).toNat < 2 ^ 20 ∧ 2 ^ 20 ≤ (s.core.rs 2).toNat ∧
    (s.core.rs 5).toNat % 2 ^ 32 < 2 ^ 20 ∧ 2 ^ 20 ≤ (s.core.rs 2).toNat % 2 ^ 32 ∧
    (s.core.rs 3).toNat % 8 ≤ 4 ∧ 5 ≤ (s.core.rs 4).toNat % 8 := by decide +kernel

theorem witness_PrivilegeTrap : (agent 511 id).core.guard 0 = true ∧ (agent 511 id).coreId < 512 ∧ 0x100 ≤ (0x100#12).toNat := by
  decide +kernel

theorem witness_FirmwareMode :
    (agent 512 id).core.guard 0 = true ∧ 512 ≤ (agent 512 id).coreId ∧
    (firmwareReg 0x100 = true ∧ (0x100#12 ≠ 0x106) ∧ firmwareRO 0x100 = false) ∧ (firmwareReg 0x106 = true ∧ firmwareRO 0x106 = false) ∧
    (0x100 ≤ (0xFFF#12).toNat ∧ firmwareReg 0xFFF = false) ∧ (firmwareReg 0x103 = true ∧ firmwareRO 0x103 = true) := by
  decide +kernel

theorem witness_PostIncrement :
    let m (x : MMode) : Modifier := ⟨x, 8, 1, 0x1000⟩
    let lin : Modifier := ⟨.lin, 8, 0, 0⟩
    (lin.mode = .lin ∧ (m .mod).mode ≠ .circ) ∧
    (∀ x ∈ [MMode.mod, .circ, .brev], x ≠ .lin ∧ (m x).len ≠ 0 ∧ (m x).base.toNat % 2 ^ ((m x).len.toNat + 2) = 0) ∧
    (m .brev).len.toNat + 2 = 3 ∧ (1 ≤ 3 ∧ 0 + 3 = 3 ∧ (1#64).toNat = 2 ^ 0) ∧ (1 ≤ 1 ∧ 2 + 1 = 3 ∧ (4#64).toNat = 2 ^ 2) := by
  decide +kernel

/-- Source: R258: a buffer of 8 elements of 4 bytes in mode brev is walked in the order 0, 4, 2, 6, 1, 5, 3, 7, 0. -/
theorem test_brev :
    let m : Modifier := ⟨.brev, 4, 3, 0x1000⟩
    ((List.range 8).foldl (fun (l : List Nat × Word) _ => (l.1 ++ [(l.2 - 0x1000).toNat / 4], m.postInc l.2 4)) ([], 0x1000)).1 =
      [0, 4, 2, 6, 1, 5, 3, 7] := by decide +kernel

/-- Source: R269: FADD adds 1.0 and 2.0 in the low words, without a flag, and keeps the high word. -/
theorem test_fadd : (AtomicOp.amo .fadd 0x740000000 false).apply 0x93F800000 = (some 0x940400000, 0) := by decide +kernel

/-! ### Witnesses: loads and stores -/

/-- The pieces of a check that passes. -/
def piecesOf : Checked → Option (List Seg)
  | .ok l => some l
  | _ => none

/-- The access of an operand, and the pieces that it reads or writes, with a test of them. -/
def touches (s : State) (m : MemOp) (n : Need) (len : Nat) (f : Access → List Seg → Bool) : Bool :=
  match m.access s.core with
  | none => false
  | some x => ((piecesOf (checkRange s n x.ea.toNat len 0)).map (f x)).getD false

/-- A task whose claim is one page of stack memory, translated, and whose `a1` to `a3` lie in its local window and in that
page. -/
def worker (f : CoreState → CoreState) : State :=
  let s := tasked 0 fun c => f (withA [(1, 0x7FF000000000), (2, 0x7FF0000FFF00), (3, 0x100000000), (4, 0x7FF000000004)] c)
  let s := s.setCore { s.core with task := some { task0 with claims := [⟨0x100000000, 0x200000, true, true⟩] } }
  s.mapDie 0 fun d => { d with tlb := [⟨1, 0x100000000, 0x200000, 0x004000000000, true, true, false⟩] }

/-- The counters and the debug bit that a load asks for. -/
def mayLoad (s : State) : Bool := s.core.guard 0 && s.core.cnt.ld ≠ BitVec.allOnes 16 && !s.core.dbgctl.getLsbD 0

def noRace (s : State) (q : List Seg) : Bool := (raceOf s s.coreId s.core.seen ((segBytes q).map (·.2))).isNone

theorem witness_PlainLoads :
    mayLoad (worker id) = true ∧
    (touches (worker id) (.imm 4 (-1)) ⟨true, false⟩ 8 fun _ q => noRace (worker id) q) = true ∧
    (touches (worker id) (.imm 3 0) ⟨true, false⟩ 1 fun _ q => noRace (worker id) q) = true ∧
    (touches (worker id) (.inc 2 ⟨.die, 3⟩) ⟨true, false⟩ 256 fun x q => x.ea.toNat % 16 == 0 && noRace (worker id) q) = true ∧
    (touches (agent 512 id) (.imm 3 0) ⟨true, false⟩ 8 fun _ _ => true) = true := by decide +kernel

theorem witness_LoadIssue :
    (∀ b ∈ [(0, spAddr 0 0, 0), (1, spAddr 0 0xFFFFF, 0)], regionOf b.2.1 = .sp (worker id).coreId) ∧
    regionOf (spAddr 1 0) ≠ .sp (worker id).coreId ∧ (LoadShape.scalar 1).dest ≠ .s 0 ∧
    (LoadShape.lanes 0 4 [0] 0).dest ≠ .s 0 := by decide +kernel

/-- The same task with its first granule full. -/
def fullFirst : State := { worker id with fe := [(granule (spAddr 0 0), 0)] }

theorem witness_ConsumingLoads :
    mayLoad (worker id) = true ∧ mayLoad fullFirst = true ∧
    (touches fullFirst (.imm 1 8) ⟨true, false⟩ 8 fun x q =>
      let pas := (segBytes q).map (·.2)
      let t := (granulesOf pas).foldl handOff fullFirst
      x.ea.toNat % 8 == 0 && pas.all inScratch && fullFirst.core.loadsBefore 0 fullFirst.core.seq && pas.all (isFull fullFirst) &&
        coreReadable t 0 t.core.seq pas && (coreRead 0 t.core.seq pas t).1.all (fun b => !b.poison)) = true ∧
    (touches (worker id) (.imm 1 0) ⟨true, false⟩ 8 fun x q =>
      let pas := (segBytes q).map (·.2)
      x.ea.toNat % 8 == 0 && pas.all inScratch && (worker id).core.loadsBefore 0 (worker id).core.seq &&
        pas.any (fun pa => !isFull (worker id) pa)) = true := by decide +kernel

theorem witness_FullEmptyWait :
    ((piecesOf (checkRange fullFirst ⟨true, false⟩ 0x7FF000000000 16 0)).map fun q => ((segBytes q).map (·.2)).all (isFull fullFirst)) =
      some true ∧
    ((piecesOf (checkRange fullFirst ⟨true, false⟩ 0x7FF000000000 32 0)).map fun q => ((segBytes q).map (·.2)).all (isFull fullFirst)) =
      some false ∧
    ((fullFirst.core.rm 1).ea (fullFirst.core.ra 1) ((0#14).signExtend 64)).toNat = 0x7FF000000000 ∧
    fullFirst.core.loadsBefore 0 fullFirst.core.seq = true ∧ fullFirst.core.guard 0 = true := by decide +kernel

/-- A gather of two lanes, a stride of 16 bytes, one of 3. -/
def lanesOf (i : List (Fin 64 × Word)) : State :=
  worker fun c => withS i (withV [(9, 0x10 <<< 32)] (withK [(2, 0xFF)] c))

theorem witness_LaneLoads :
    let s := lanesOf [(7, 16)]
    let x := MemOp.lanesAt (.idx 1 7 ⟨.die, 0⟩) s.core
    let ls := (List.range 64).map fun i => (i, (x.ea + BitVec.ofNat 64 i * s.core.rs 7).toNat)
    let y := MemOp.lanesAt (.idx 1 9 ⟨.die, 0⟩) s.core
    let gs := ((List.range 64).filter fun i => (s.core.rk 2).getLsbD (4 * i)).map fun i =>
      (i, (y.ea + ((s.core.rv 9).extractLsb' (32 * i) 32).setWidth 64).toNat)
    mayLoad s = true ∧ (∀ l ∈ ls, l.2 % 4 = 0) ∧ (∀ l ∈ gs, l.2 % 4 = 0) ∧ gs.length = 2 ∧
    ((piecesOf (checkAll (fun l : Nat × Nat => checkRange s ⟨true, false⟩ l.2 4 l.1) ls)).map (noRace s)) = some true ∧
    ((piecesOf (checkAll (fun l : Nat × Nat => checkRange s ⟨true, false⟩ l.2 4 l.1) gs)).map (noRace s)) = some true := by
  decide +kernel

/-- Whether the elements of a store pass, go to no multicast window and race with nothing. -/
def storable (s : State) (ps : List Piece1) : Bool :=
  let bytes := (ps.map fun p => (storeBytes s p).1).flatten
  (piecesOf (checkAll (checkStore s) ps)).isSome && ps.all (fun p => (storeBytes s p).2.isEmpty) && !bytes.isEmpty &&
    (raceOf s s.coreId s.core.seen (bytes.map (·.pa))).isNone

theorem witness_Stores :
    let s := lanesOf [(7, 16)]
    (s.core.guard 0 = true ∧ s.core.cnt.st ≠ BitVec.allOnes 16 ∧ s.coreId < 512) ∧
    (MemOp.imm 1 8).access s.core = some ⟨0x7FF000000008, none⟩ ∧ (MemOp.imm 4 3).access s.core = some ⟨0x7FF000000007, none⟩ ∧
    (MemOp.imm 2 0).access s.core = some ⟨0x7FF0000FFF00, none⟩ ∧
    storable s [⟨0x7FF000000007, bytesOfNat 8 5, 0⟩] = true ∧ storable s [⟨0x100000000, bytesOfNat 8 5, 0⟩] = true ∧
    0x7FF000000008 % 8 = 0 ∧ (segAddrs [⟨0x7FF000000008, spAddr 0 8, 8⟩]).all inScratch = true ∧
    storable s (maskRuns (s.core.rk 2) 0x7FF0000FFF00 (bytesOfNat 256 (s.core.rv 9).toNat)) = true ∧
    storable s (maskRuns (s.core.rk 0) 0x7FF0000FFF00 (bytesOfNat 256 (s.core.rv 9).toNat)) = true ∧
    rowInWindow 0x7FF0000FFF00 (maskRuns (s.core.rk 0) 0x7FF0000FFF00 (bytesOfNat 256 (s.core.rv 9).toNat)) = true ∧
    storable s ((List.range 64).map fun i => ⟨0x7FF000000000 + 16 * i, bytesOfNat 4 i, i⟩) = true ∧
    storable s [⟨0x7FF000000000, bytesOfNat 4 1, 0⟩, ⟨0x7FF000000010, bytesOfNat 4 1, 1⟩] = true := by decide +kernel

theorem witness_Prefetch :
    (MemOp.imm 1 0).access (worker id).core ≠ none ∧ (worker id).core.guard 0 = true ∧
    (let s := worker fun c => { c with s := c.s.set 7 3, m := c.m.set 1 ⟨.brev, 4, 3, 0x7FF000000000⟩ }
     s.core.guard 0 = true ∧ (MemOp.incIdx 1 7 ⟨.die, 0⟩).access s.core = none) := by decide +kernel

/-- The lowest lane that does not pass is one that is not aligned. -/
def misfitLane (n : Nat) (ls : List (Nat × Nat)) (check : Nat × Nat → Checked) : Bool :=
  match ls.dropWhile fun q => q.2 % n == 0 && (piecesOf (check q)).isSome with
  | l :: _ => l.2 % n != 0
  | [] => false

theorem witness_Alignment :
    let s := worker fun c => { c with s := (c.s.set 7 4).set 8 6, v := c.v.set 3 (6#2048 <<< 32) }
    s.core.guard 0 = true ∧
    ((MemOp.imm 4 0).access s.core).map (fun x => decide (x.ea.toNat % 2 ^ 3 ≠ 0)) = some true ∧
    ((MemOp.imm 4 (-3)).access s.core).map (fun x => decide (x.ea.toNat % 2 ^ 1 ≠ 0)) = some true ∧
    ((MemOp.imm 4 4).access s.core).map (fun x => decide (x.ea.toNat % 16 ≠ 0)) = some true ∧
    ((s.core.rm 4).ea (s.core.ra 4) 0).toNat % 8 ≠ 0 ∧ ((s.core.rm 4).ea (s.core.ra 4) ((8#14).signExtend 64)).toNat % 16 ≠ 0 ∧
    (let t := worker fun c => withA [(4, 0x7FF000000002)] c
     ((t.core.rm 4).ea (t.core.ra 4) 0).toNat % 4 ≠ 0 ∧ t.core.guard 0 = true) ∧
    (let y := (MemOp.idx 1 8 ⟨.die, 0⟩).lanesAt s.core
     let z := (MemOp.idx 1 3 ⟨.die, 0⟩).lanesAt s.core
     let reads (l : Nat × Nat) : Checked := checkRange s ⟨true, false⟩ l.2 4 l.1
     let stores (l : Nat × Nat) : Checked := checkStore s ⟨l.2, bytesOfNat 4 0, l.1⟩
     let strided := (List.range (256 / 2 ^ (2#2).toNat)).map fun i => (i, (y.ea + BitVec.ofNat 64 i * s.core.rs 8).toNat)
     let indexed := ((List.range 64).filter fun i => (s.core.rk 0).getLsbD (4 * i)).map fun i =>
       (i, (z.ea + ((s.core.rv 3).extractLsb' (32 * i) 32).setWidth 64).toNat)
     misfitLane 4 strided reads = true ∧ misfitLane 4 strided stores = true ∧ misfitLane 4 indexed reads = true ∧
       misfitLane 4 indexed stores = true) := by decide +kernel

theorem witness_Atomics :
    mayLoad (worker id) = true ∧
    (touches (worker id) (.imm 1 0) ⟨true, true⟩ 8 fun x q => x.ea.toNat % 8 == 0 && (segBytes q).all fun y => regionOf y.2 != .host) =
      true ∧
    (touches (worker id) (.imm 4 0) ⟨true, true⟩ 4 fun x q => x.ea.toNat % 4 == 0 && (segBytes q).all fun y => regionOf y.2 != .host) =
      true ∧
    ((worker id).core.rm 3).ea ((worker id).core.ra 3) 0 = 0x100000000 := by decide +kernel

/-! ### Witnesses: the order machine, fences and barriers -/

def st0 : StoreEntry := ⟨0, 0, [⟨spAddr 0 0, 5, false⟩, ⟨spAddr 0 15, 6, false⟩], true, none, true⟩
def stRel : StoreEntry := ⟨0, 3, [⟨0x004000000000, 5, false⟩], false, some .package, false⟩

theorem witness_StoreDrains :
    let s := agent 0 fun c => { c with sq := [st0, stRel] }
    s.coreId < 512 ∧ s.core.sq.find? (fun x => x.stream == 0) = some st0 ∧ drainReady s st0 = true ∧
    (∀ b ∈ st0.bytes, reaches s s.here b.pa = true) ∧
    s.core.sq.find? (fun x => x.stream == 3) = some stRel ∧ drainReady s stRel = true ∧
    (∀ b ∈ stRel.bytes, reaches s s.here b.pa = true) := by decide +kernel

/-- A load of two bytes, exposed, or interlocked, into `s1` or `s0`; and the lanes of one that takes two accesses. -/
def ld0 (todo : List (Nat × Nat × Nat)) (sh : LoadShape) (due : Option Nat) : LoadEntry :=
  ⟨7, 0, 0, 0, todo, [], none, sh, none, none, due, 0, []⟩
def twoBytes (lane : Nat) : List (Nat × Nat × Nat) := [(0, spAddr 0 15, 0), (1, spAddr 0 16, lane)]
def twoLanes : LoadShape := .lanes 1 1 [0, 1] 0

theorem witness_LoadPerforms :
    let ok (e : LoadEntry) : Bool :=
      let s := agent 0 fun c => { c with loads := [e] }
      (s.core.loads.find? (fun x => x.tok == 7 && x.atomic.isNone) == some e) && s.core.loadsBefore e.stream e.seq &&
        e.acq.isNone && e.bad.isNone && coreReadable (s.without e.hidden) e.stream e.seq ((firstAccess e.shape e.todo).map (·.2.1)) &&
        (coreRead e.stream e.seq ((firstAccess e.shape e.todo).map (·.2.1)) (s.without e.hidden)).1.all fun b => !b.poison
    ok (ld0 (twoBytes 1) twoLanes (some 6)) = true ∧ (twoBytes 1).length ≠ (firstAccess twoLanes (twoBytes 1)).length ∧
    ok (ld0 (twoBytes 0) (.scalar 1) (some 6)) = true ∧ ok (ld0 (twoBytes 0) (.scalar 0) (some 6)) = true ∧
    ok (ld0 (twoBytes 0) (.scalar 1) none) = true ∧
    (twoBytes 0).length = (firstAccess (.scalar 1) (twoBytes 0)).length ∧ (LoadShape.scalar 0).dest = .s 0 ∧
    (LoadShape.scalar 1).dest ≠ .s 0 := by decide +kernel

theorem witness_AtomicActs :
    let ok (op : AtomicOp) : Bool :=
      let e : LoadEntry := ⟨7, 0, 0, 0, (List.range 8).map fun i => (i, 0x004000000000 + i, 0), [], none, .scalar 1, none,
        some (op, false), none, 0, []⟩
      let s := agent 0 fun c => { c with loads := [e] }
      (s.core.loads.find? (fun x => x.tok == 7 && x.atomic.isSome) == some e) && s.core.loadsBefore e.stream e.seq &&
        s.core.sq.isEmpty && decide ((e.todo.map (·.2.1)).Nodup) &&
        ((e.todo.map (·.2.1)).all fun pa => reaches s s.here pa && !(byteAt s pa).2)
    ok (.amo .add 1 false) = true ∧ ok (.cas 8 0 1) = true ∧ ((AtomicOp.cas 8 1 1).apply 0).1 = none ∧
    ((AtomicOp.cas 8 0 1).apply 0).1 = some 1 := by decide +kernel

/-- A write of die 0, applied there and joined to nothing else, still in its channels; and the same in die 1's queue. -/
def wr (n : Nat) (at_ : List (BitVec 2)) : Write :=
  ⟨n, .core, 0, 0, 0, [⟨0x004000000000, 5, false⟩], at_, [(0, .core)], [], [], none, 0⟩

theorem witness_OrderSteps :
    let s := { agent 0 id with writes := [wr 1 [0]] }
    let t := s.mapDie 1 fun d => { d with iq := [1] }
    let u := { agent 0 id with writes := [wr 1 [0, 1]] }
    (0#2 ≠ 1 ∧ channelHead s 0 1 = some (wr 1 [0])) ∧ applyReady t 1 1 = true ∧
    (u.writes.find? (fun x => x.id == 1) = some (wr 1 [0, 1]) ∧ (wr 1 [0, 1]).applied.contains 1 = true ∧
      (wr 1 [0, 1]).binds 1 .copy = false ∧ (wr 1 [0, 1]).binds 0 .tensor = false) := by decide +kernel

theorem witness_InterlockedLands :
    let l : Lock := ⟨3, [.s 5], some [.s 5 9], none⟩
    let m : Lock := ⟨4, [.v 5], some [.v 5 9], some 0⟩
    let s := agent 0 fun c => { c with locks := [l, m], cnt := { c.cnt with ld := 1 } }
    (s.core.locks.find? (fun x => x.tok == 3) = some l ∧ l.result = some [.s 5 9] ∧ l.counts = none ∧ 5#6 ≠ 0) ∧
    (s.core.locks.find? (fun x => x.tok == 4) = some m ∧ m.result = some [.v 5 9] ∧ m.counts = some 0) := by decide +kernel

theorem witness_MulticastLands :
    let e : McastEntry := ⟨0, 8, [⟨spAddr 0 0, 5, false⟩, ⟨spAddr 3 0, 5, false⟩], none, true⟩
    let s := { agent 0 (fun c => { c with mcast := [e] }) with time := 8 }
    s.core.mcast = e :: [] ∧ e.due ≤ s.time ∧ mcastBefore s e.due = false := by decide +kernel

theorem witness_Fences :
    let s := agent 0 fun c => { c with sq := [st0] }
    s.core.guard 0 = true ∧ fenceReady s.core 0 = false ∧ fenceReady s.core 1 = false ∧ fenceReady s.core 2 = true ∧
    allApplied (drainIq s s.here) s.core.obs = true ∧ Scope.die ≠ .core := by decide +kernel

theorem witness_Waits :
    let s := agent 0 fun c => { c with cnt := { c.cnt with st := 2 } }
    s.core.guard 0 = true ∧ (∃ i ∈ (List.range 6).filter fun i => (2#6).getLsbD i, 1 < (s.core.cnt.get (BitVec.ofNat 3 i)).toNat) ∧
    (∀ i ∈ (List.range 6).filter fun i => (2#6).getLsbD i, (s.core.cnt.get (BitVec.ofNat 3 i)).toNat ≤ 2) ∧
    (∀ i ∈ (List.range 6).filter fun i => (1#6).getLsbD i, (s.core.cnt.get (BitVec.ofNat 3 i)).toNat ≤ 0) := by decide +kernel

/-- A member of a gang of four. -/
def member (f : CoreState → CoreState) : State := agent 0 fun c => f { c with plane := { c.plane with gsize := 4 } }

theorem witness_BarrierOperations :
    let s := member fun c => { c with splits := List.replicate 8 ⟨0, 0, 0⟩ }
    (member id).core.guard 0 = true ∧ (4#14).toNat ≤ (member id).core.plane.gsize ∧ (member id).core.plane.gsize < (5#14).toNat ∧
    (member id).core.splitCount < 8 ∧ s.core.guard 0 = true ∧ (4#14).toNat ≤ s.core.plane.gsize ∧ 8 ≤ s.core.splitCount := by
  decide +kernel

theorem witness_BarrierRecord :
    let init : Arrival := ⟨3, 2, true, 0, 0⟩
    let arr : Arrival := ⟨3, 2, false, 0, 0⟩
    let s (a : Arrival) (r : List (Nat × BarRec)) : State := { member (fun c => { c with arrivals := [a] }) with bars := r }
    let rel : Release := ⟨1, 1, .cluster, []⟩
    let r0 : BarRec := ⟨true, 2, 0, 0, [], []⟩
    let r1 : BarRec := ⟨true, 2, 0, 0, [(1, rel)], []⟩
    ((s init []).core.arrivals = [init] ∧ (s init []).gangBroken = false ∧ ((s init []).bar 3).isOpen = false ∧ init.count ≠ 0) ∧
    ((s init [(3, r0)]).bar 3).isOpen = true ∧
    (releaseReady (s arr []) (s arr []).gangScope 0 = true ∧ ((s arr []).bar 3).isOpen = false ∧
      ((s arr []).bar 3).who.length + 1 ≠ 2) ∧
    (((s arr [(3, r1)]).bar 3).isOpen = true ∧ ((s arr [(3, r1)]).bar 3).cnt = 2 ∧
      (∀ w ∈ ((s arr [(3, r1)]).bar 3).who, w.1 ≠ 0) ∧ ((s arr [(3, r1)]).bar 3).who.length + 1 = 2) := by decide +kernel

theorem witness_BarrierWait :
    let split := member fun c => { c with splits := [⟨3, 0, 0⟩] }
    let s (g : BitVec 16) : State := { split with bars := [(3, ⟨false, 0, g, g.toNat, [], if g = 1 then [(0, [])] else []⟩)] }
    let broken := (tasked 0 id).mapDie 0 fun d => { d with active := { d.active with gangs := [⟨1, 0, [0], 1, true, []⟩] } }
    ((member id).core.guard 0 = true ∧ (member id).gangBroken = false ∧ (∀ x ∈ (member id).core.splits, x.n ≠ 3) ∧
      ∀ a ∈ (member id).core.arrivals, a.n ≠ 3) ∧
    ((s 0).core.splits.find? (fun y => y.n == 3) = some ⟨3, 0, 0⟩ ∧ (s 0).gangBroken = false ∧
      phaseDone (s 0) ⟨3, 0, 0⟩ = none) ∧
    phaseDone (s 1) ⟨3, 0, 0⟩ = some [] ∧ broken.gangBroken = true ∧ broken.core.guard 0 = true := by decide +kernel

theorem witness_Snapshots :
    let s := (agent 0 id).mapDie 0 fun d => { d with snapctl := 1 }
    let t := { agent 0 id with snaps := [(5, 1#512)] }
    (agent 0 id).core.guard 0 = true ∧ ((agent 0 id).die (agent 0 id).here).snapctl.getLsbD 0 = false ∧ s.core.guard 0 = true ∧
    (s.die s.here).snapctl.getLsbD 0 = true ∧ (0#2).toNat < partCount s.xd0.mode ∧ s.snaps = [] ∧
    (∃ x ∈ t.snaps, (partCores t.xd0.mode 0).contains x.1 = true ∧ x.2.getLsbD 0 = true) := by decide +kernel

/-! ### Witnesses: captures -/

/-- What a capture that passes gives. -/
def capOf (s : State) (va len : Nat) : List Byte × State :=
  let q := (piecesOf (checkEngine s .core ⟨true, false⟩ va len)).getD []
  let r := coreRead 0 s.core.seq (segAddrs q) s
  (r.1.map (·.val), { r.2 with caught := r.2.caught ++ q })

def capOk (s : State) (va len : Nat) : Bool :=
  match piecesOf (checkEngine s .core ⟨true, false⟩ va len) with
  | some q => !(s.core.dbgctl.getLsbD 0 && mcastPending s (segAddrs q)) && s.core.loadsBefore 0 s.core.seq &&
    coreReadable s 0 s.core.seq (segAddrs q) &&
    (((coreRead 0 s.core.seq (segAddrs q) s).1.zip (segBytes q)).find? fun x => x.1.poison).isNone
  | none => false

theorem piecesOf_ok {c : Checked} {q : List Seg} (h : piecesOf c = some q) : c = .ok q := by
  cases c <;> simp_all [piecesOf]

theorem capture_passes {s : State} {va len : Nat} (h : capOk s va len = true) :
    passes (capture s va len) (capOf s va len).1 (capOf s va len).2 := by
  intro k
  unfold capOk at h
  split at h
  · next q hq =>
    simp only [Bool.and_eq_true, Option.isNone_iff_eq_none, Bool.not_eq_true', and_assoc] at h
    obtain ⟨h1, h2, h3, h4⟩ := h
    simp only [capture, capOf, piecesOf_ok hq, withChecked, withRead0, withEarly, h1, h2, h3, h4, piecesOf, Option.getD_some,
      Bool.and_self, Bool.false_eq_true, if_false, if_true]
  · cases h

/-- The same for handles. -/
def handleOf (s : State) (h : BitVec 8) : RawRec × State :=
  if s.core.plane.htab.toNat = 0 then (⟨h, 0, none⟩, s)
  else
    let c := capOf s (s.core.plane.htab.toNat + 8 * h.toNat) 8
    let va := natOfBytes c.1
    if va % 64 ≠ 0 || va = 0 then (⟨h, va, none⟩, c.2) else (⟨h, va, some (capOf c.2 va 64).1⟩, (capOf c.2 va 64).2)

def handleOk (s : State) (h : BitVec 8) : Bool :=
  s.core.plane.htab.toNat == 0 ||
    (let c := capOf s (s.core.plane.htab.toNat + 8 * h.toNat) 8
     capOk s (s.core.plane.htab.toNat + 8 * h.toNat) 8 &&
      (natOfBytes c.1 % 64 ≠ 0 || natOfBytes c.1 = 0 || capOk c.2 (natOfBytes c.1) 64))

theorem handle_passes {s : State} {h : BitVec 8} (hk : handleOk s h = true) :
    passes (captureHandle s h) (handleOf s h).1 (handleOf s h).2 := by
  intro k
  simp only [captureHandle, handleOf]
  by_cases h0 : s.core.plane.htab.toNat = 0
  · simp [h0]
  · simp only [handleOk, h0, beq_iff_eq, Bool.or_eq_true, Bool.and_eq_true, false_or] at hk
    rw [if_neg h0, if_neg h0, capture_passes hk.1]
    split
    · rfl
    · next h1 =>
      have := hk.2
      simp_all only [Bool.or_eq_true, decide_eq_true_eq, false_or, not_or]
      rw [capture_passes (by simpa using this)]

def handlesOf : List (BitVec 8) → State → List RawRec × State
  | [], s => ([], s)
  | h :: r, s => ((handleOf s h).1 :: (handlesOf r (handleOf s h).2).1, (handlesOf r (handleOf s h).2).2)

def handlesOk : List (BitVec 8) → State → Bool
  | [], _ => true
  | h :: r, s => handleOk s h && handlesOk r (handleOf s h).2

theorem handles_passes : ∀ {hs : List (BitVec 8)} {s : State}, handlesOk hs s = true →
    passes (captureHandles hs s) (handlesOf hs s).1 (handlesOf hs s).2
  | [], _, _ => fun _ => rfl
  | h :: r, s, hk => fun k => by
    simp only [handlesOk, Bool.and_eq_true] at hk
    exact (handle_passes hk.1 _).trans (handles_passes hk.2 _)

theorem shapes_passes (s : State) : ∀ {raw : List RawRec} {hs : List Shape}, raw.map RawRec.shape = hs.map some →
    passesWith (withShapes s raw) hs
  | [], hs, h => fun k => by cases hs <;> simp_all [withShapes]
  | r :: raw, [], h => by simp at h
  | r :: raw, x :: hs, h => fun k => by
    simp only [List.map_cons, List.cons.injEq] at h
    simp only [withShapes, h.1]
    exact shapes_passes s h.2 _

def sourcesOf (s : State) (k : TopKind) (d : Shape) (srcs : List Shape) (vc : Option Nat) : Nat → List Shape → List Shape
  | _, [] => []
  | i, a :: r => { a with segs :=
      (piecesOf (checkTensor s ⟨true, false⟩ { a with spl := false } (srcElems k d srcs vc i))).getD [] } ::
    sourcesOf s k d srcs vc (i + 1) r

def sourcesOk (s : State) (k : TopKind) (d : Shape) (srcs : List Shape) (vc : Option Nat) : Nat → List Shape → Bool
  | _, [] => true
  | i, a :: r => (piecesOf (checkTensor s ⟨true, false⟩ { a with spl := false } (srcElems k d srcs vc i))).isSome &&
    sourcesOk s k d srcs vc (i + 1) r

theorem sources_passes {s : State} {k : TopKind} {d : Shape} {srcs : List Shape} {vc : Option Nat} :
    ∀ {i : Nat} {l : List Shape}, sourcesOk s k d srcs vc i l = true →
      passesWith (withSources s k d srcs vc i l) (sourcesOf s k d srcs vc i l)
  | _, [], _ => fun _ => rfl
  | i, a :: r, h => fun f => by
    simp only [sourcesOk, Bool.and_eq_true, Option.isSome_iff_exists] at h
    obtain ⟨⟨q, hq⟩, h⟩ := h
    simp only [withSources, sourcesOf, piecesOf_ok hq, withChecked, piecesOf, Option.getD_some]
    exact sources_passes h _

/-- And for a locator. -/
def locOf (s : State) (va : Nat) : Locator × State :=
  let c := capOf s va 64
  ({ (parseLocator va c.1).getD ⟨0, 0, 0, 0, 0, 0, 0, []⟩ with segs := (piecesOf (checkEngine s .tensor ⟨true, true⟩ va 64)).getD [] }, c.2)

def locOk (s : State) (va : Nat) : Bool :=
  va % 64 == 0 && (piecesOf (checkEngine s .tensor ⟨true, true⟩ va 64)).isSome && capOk s va 64 &&
    (parseLocator va (capOf s va 64).1).isSome

theorem loc_passes {s : State} {va : Nat} (h : locOk s va = true) :
    passes (captureLocator s va) (locOf s va).1 (locOf s va).2 := by
  intro k
  simp only [locOk, Bool.and_eq_true, beq_iff_eq, Option.isSome_iff_exists] at h
  obtain ⟨⟨⟨h0, q, hq⟩, hc⟩, x, hx⟩ := h
  simp only [captureLocator, h0, ne_eq, not_true_eq_false, if_false, piecesOf_ok hq, withChecked]
  refine (capture_passes hc _).trans ?_
  simp [hx, locOf, piecesOf, piecesOf_ok hq]

/-- And for the tables of a locator. -/
def tableOf (s : State) (l : Locator) (need : Need) (ovs : Nat) : Locator :=
  { l with segs := l.segs ++ (piecesOf (checkEngine s .tensor need l.table (16 * l.p))).getD [] ++
    (piecesOf (checkEngine s .tensor need l.ovfl (16 * ovs))).getD [] }

def tableOk (s : State) (l : Locator) (need : Need) (ovs : Nat) : Bool :=
  (piecesOf (checkEngine s .tensor need l.table (16 * l.p))).isSome && (piecesOf (checkEngine s .tensor need l.ovfl (16 * ovs))).isSome

theorem table_passes {s : State} {l : Locator} {need : Need} {ovs : Nat} (h : tableOk s l need ovs = true) :
    passesWith (withTable s l need ovs) (tableOf s l need ovs) := by
  intro k
  simp only [tableOk, Bool.and_eq_true, Option.isSome_iff_exists] at h
  obtain ⟨⟨q1, h1⟩, q2, h2⟩ := h
  simp [withTable, tableOf, piecesOf_ok h1, piecesOf_ok h2, withChecked, piecesOf]

/-! ### Witnesses: engine commands -/

/-- Virtual addresses of the page that `worker` claims. -/
def page (off : Nat) : Nat := 0x100000000 + off

/-! Memories of the witnesses. The handle table lies at offset 0x1000 of the page, the record of handle `h` at 0x2000 + 64 h
(R62, R63), a locator at 0x3000, other descriptors at 0x3100. -/

/-- Handle 1 is an FP32 tensor of one element. -/
def vectorMem : List Host.Cell :=
  [(0x4000001008, 64), (0x4000001009, 32), (0x400000100C, 1), (0x4000002041, 64), (0x4000002044, 1), (0x4000002049, 1),
   (0x400000204C, 1), (0x4000002050, 1), (0x4000002054, 1), (0x4000002058, 1), (0x400000205C, 1), (0x4000002060, 4)]

/-- Handle 1 is an FP32 tensor of 1 × 1 elements. -/
def matrixMem : List Host.Cell :=
  [(0x4000001008, 64), (0x4000001009, 32), (0x400000100C, 1), (0x4000002041, 64), (0x4000002044, 1), (0x4000002049, 2),
   (0x400000204C, 1), (0x4000002050, 1), (0x4000002054, 1), (0x4000002058, 1), (0x400000205C, 1), (0x4000002060, 4),
   (0x4000002066, 4)]

/-- Handle 1 is an FP32 tensor of one element, handle 2 a landing of 261 entries. -/
def reduceMem : List Host.Cell :=
  [(0x4000001008, 64), (0x4000001009, 32), (0x400000100C, 1), (0x4000001010, 128), (0x4000001011, 32), (0x4000001014, 1),
   (0x4000002041, 64), (0x4000002044, 1), (0x4000002049, 1), (0x400000204C, 1), (0x4000002050, 1), (0x4000002054, 1),
   (0x4000002058, 1), (0x400000205C, 1), (0x4000002060, 4), (0x4000002081, 128), (0x4000002084, 1), (0x4000002089, 1),
   (0x400000208C, 5), (0x400000208D, 1), (0x4000002090, 1), (0x4000002094, 1), (0x4000002098, 1), (0x400000209C, 1),
   (0x40000020A0, 4)]

/-- A locator of one entry, and a band set (R97, R107). -/
def locatorMem : List Host.Cell :=
  [(0x4000003001, 160), (0x4000003002, 1), (0x4000003004, 1), (0x4000003008, 1), (0x4000003012, 16), (0x4000003014, 1),
   (0x4000003019, 192), (0x400000301A, 1), (0x400000301C, 1), (0x4000003021, 208), (0x4000003022, 1), (0x4000003024, 1),
   (0x4000003116, 128), (0x4000003117, 63), (0x400000311E, 128), (0x400000311F, 63), (0x4000003126, 128),
   (0x4000003127, 63), (0x400000312E, 128), (0x400000312F, 63), (0x4000003136, 128), (0x4000003137, 63),
   (0x400000313E, 128), (0x400000313F, 63), (0x4000003146, 128), (0x4000003147, 63), (0x400000314E, 128),
   (0x400000314F, 63), (0x4000003156, 128), (0x4000003157, 63), (0x400000315E, 128), (0x400000315F, 63),
   (0x4000003166, 128), (0x4000003167, 63), (0x400000316E, 128), (0x400000316F, 63), (0x4000003176, 128),
   (0x4000003177, 63), (0x400000317E, 128), (0x400000317F, 63), (0x4000003186, 128), (0x4000003187, 63),
   (0x400000318E, 128), (0x400000318F, 63)]

/-- The locator, a KVAPP descriptor, a BF16 pool of one block (handle 1) and 64 source rows of two (handle 2). -/
def kvappMem : List Host.Cell :=
  [(0x4000001008, 64), (0x4000001009, 32), (0x400000100C, 1), (0x4000001010, 128), (0x4000001011, 32), (0x4000001014, 1),
   (0x4000002042, 1), (0x4000002044, 1), (0x4000002048, 1), (0x4000002049, 3), (0x400000204A, 3), (0x400000204B, 2),
   (0x400000204C, 2), (0x4000002050, 64), (0x4000002054, 1), (0x4000002058, 1), (0x400000205C, 1), (0x4000002060, 2),
   (0x4000002066, 64), (0x400000206D, 16), (0x4000002081, 64), (0x4000002082, 1), (0x4000002084, 1), (0x4000002088, 1),
   (0x4000002089, 2), (0x400000208C, 2), (0x4000002090, 64), (0x4000002094, 1), (0x4000002098, 1), (0x400000209C, 1),
   (0x40000020A0, 2), (0x40000020A6, 4), (0x4000003001, 160), (0x4000003002, 1), (0x4000003004, 1), (0x4000003008, 1),
   (0x4000003012, 16), (0x4000003014, 1), (0x4000003019, 192), (0x400000301A, 1), (0x400000301C, 1), (0x4000003021, 208),
   (0x4000003022, 1), (0x4000003024, 1), (0x4000003100, 1), (0x4000003101, 1), (0x4000003102, 2), (0x4000003103, 2),
   (0x4000003104, 1), (0x4000003108, 5), (0x4000003110, 7), (0x4000003119, 48), (0x400000311C, 1)]

/-- The locator, two ATTN descriptors (normalised without M/L, and with), the pool, one query row (handle 3), an output and M/L (handle 4). -/
def attnMem : List Host.Cell :=
  [(0x4000001008, 64), (0x4000001009, 32), (0x400000100C, 1), (0x4000001018, 192), (0x4000001019, 32), (0x400000101C, 1),
   (0x4000001021, 33), (0x4000001024, 1), (0x4000002042, 1), (0x4000002044, 1), (0x4000002048, 1), (0x4000002049, 3),
   (0x400000204A, 3), (0x400000204B, 2), (0x400000204C, 2), (0x4000002050, 64), (0x4000002054, 1), (0x4000002058, 1),
   (0x400000205C, 1), (0x4000002060, 2), (0x4000002066, 64), (0x400000206D, 16), (0x40000020C1, 96), (0x40000020C2, 1),
   (0x40000020C4, 1), (0x40000020C8, 1), (0x40000020C9, 2), (0x40000020CA, 2), (0x40000020CC, 2), (0x40000020D0, 1),
   (0x40000020D4, 1), (0x40000020D8, 1), (0x40000020DC, 1), (0x40000020E0, 2), (0x40000020E7, 1), (0x4000002101, 112),
   (0x4000002102, 1), (0x4000002104, 1), (0x4000002109, 2), (0x400000210C, 2), (0x4000002110, 1), (0x4000002114, 1),
   (0x4000002118, 1), (0x400000211C, 1), (0x4000002120, 4), (0x4000002126, 8), (0x4000003001, 160), (0x4000003002, 1),
   (0x4000003004, 1), (0x4000003008, 1), (0x4000003012, 16), (0x4000003014, 1), (0x4000003019, 192), (0x400000301A, 1),
   (0x400000301C, 1), (0x4000003021, 208), (0x4000003022, 1), (0x4000003024, 1), (0x4000003100, 3), (0x4000003101, 1),
   (0x4000003102, 1), (0x4000003103, 4), (0x4000003104, 20), (0x4000003105, 1), (0x4000003108, 5), (0x400000310E, 128),
   (0x400000310F, 63), (0x4000003119, 48), (0x400000311C, 1), (0x4000003140, 3), (0x4000003141, 1), (0x4000003142, 1),
   (0x4000003143, 4), (0x4000003144, 4), (0x4000003148, 5), (0x400000314E, 128), (0x400000314F, 63), (0x4000003159, 48),
   (0x400000315C, 1)]

/-- The worker with a memory, and its handle table. -/
def engineer (m : List Host.Cell) (f : CoreState → CoreState) : State :=
  { worker (fun c => f { c with plane := { c.plane with htab := 0x100001000 } }) with mem := m }

/-- A command has room. -/
def room (s : State) (p : Path) (q : List Seg) : Bool :=
  !queueFull s p && !s.core.atLimit (pathClass p) && !stakesFull s (stakePages s (s.caught ++ q))

def pathOk (c : Checked) : Bool := (piecesOf c).isSome

theorem witness_CopyCommands :
    let s := worker fun c => withS [(5, 32), (6, 0xFFFF)] (withA [(5, 0x100000100)] c)
    (s.core.guard 0 = true ∧ ((⟨3, false⟩ : EAddr).access s.core).ea.toNat = page 0 ∧
      ((⟨5, true⟩ : EAddr).access s.core).ea.toNat = page 0x100) ∧
    (CopyLen.bytes (.imm 1) s.core = 16 ∧ CopyLen.bytes (.reg 5) s.core = 32 ∧ CopyLen.bytes (.reg 0) s.core = 0) ∧
    (∀ n ∈ [16, 32, 0], pathOk (checkEngine s .copy ⟨true, false⟩ (page 0) n) = true ∧
      pathOk (checkEngine s .copy ⟨false, true⟩ (page 0x100) n) = true) ∧
    room s .copy (((piecesOf (checkEngine s .copy ⟨true, false⟩ (page 0) 16)).getD []) ++
      (piecesOf (checkEngine s .copy ⟨false, true⟩ (page 0x100) 16)).getD []) = true ∧
    (s.coreId < 512 ∧ windowOf 0x7FF0000FFF00 256 = .loc 0xFFF00 ∧ ((⟨2, false⟩ : EAddr).access s.core).ea.toNat = 0x7FF0000FFF00 ∧
      CopymLen.bytes (.imm 16) s.core = 256) ∧
    windowOf (page 0x100) 256 = .plain ∧
    ([0x7FE000000000, 0x6C0000000000, 0x7FF0000FFFF8].all fun va => windowOf va 16 != .plain && (match windowOf va 16 with
      | .loc _ => false
      | _ => true)) = true := by decide +kernel

/-- The captured records of handles, and their shapes. -/
def shapesOf (hs : List (BitVec 8)) (s : State) : List Shape := (handlesOf hs s).1.filterMap RawRec.shape

/-- Handles whose records are captured and are shapes. -/
def caughtOk (s : State) (hs : List (BitVec 8)) : Bool :=
  handlesOk hs s && (handlesOf hs s).1.map RawRec.shape == (shapesOf hs s).map some

theorem caught {s : State} {hs : List (BitVec 8)} (h : caughtOk s hs = true) :
    passes (captureHandles hs s) (handlesOf hs s).1 (handlesOf hs s).2 ∧
      passesWith (withShapes (handlesOf hs s).2 (handlesOf hs s).1) (shapesOf hs s) := by
  simp only [caughtOk, Bool.and_eq_true, beq_iff_eq] at h
  exact ⟨handles_passes h.1, shapes_passes _ h.2⟩

theorem witness_RelayCommand :
    let s := engineer vectorMem (withS [(5, 1)])
    let h := handlesOf [1, 1] s
    (passes (captureHandles [1, 1] s) h.1 h.2 ∧ passesWith (withShapes h.2 h.1) (shapesOf [1, 1] s)) ∧
    (match h.1, shapesOf [1, 1] s with
      | [r, _], [dh, ah] =>
        let n : Shape := { dh with lay := 0 }
        let ok (v : Option Nat) : Bool :=
          let els := (List.range n.count).filter fun l => within v (n.row l)
          let rp := checkEngines h.2 .copy ⟨false, true⟩ [(r.va + 10, 1)]
          let sp := checkEngines h.2 .copy ⟨true, false⟩ (ah.rangesOf (els.filterMap (relaySource n ah false)))
          let dp := checkEngines h.2 .copy ⟨false, true⟩ (n.rangesOf els)
          pathOk rp && pathOk sp && pathOk dp &&
            room h.2 .copy (((piecesOf rp).getD []) ++ ((piecesOf sp).getD []) ++ (piecesOf dp).getD [])
        relayOk dh ah 0 false && ok none && ok (some 1) && ok (some 0) && !relayOk dh ah 5 false
      | _, _ => false) = true := by
  exact ⟨caught (by decide +kernel), by decide +kernel⟩

/-- What TensorCommands asks of a kind and its handles, after the capture. -/
def tensorOk (s : State) (k : TopKind) (hs : List (BitVec 8)) (vc : Option Nat) (st : Nat) : Bool :=
  let t := (handlesOf hs s).2
  match shapesOf hs s with
  | d :: srcs =>
    let dOp := operandOf t d
    let ops := srcs.map (operandOf t)
    let pl := placeTop t k dOp ops vc
    let dseg := checkTensor t (destNeed k) d (destElems k d srcs vc (ops.headD dOp))
    let sseg := checkEngine t .tensor ⟨false, true⟩ st (if st = 0 then 0 else 8 + 8 * pl.pieces.length)
    let srcs' := sourcesOf t k d srcs vc 0 srcs
    topOk k d srcs && !d.spl && pathOk dseg &&
      sourcesOk t k d srcs vc 0 srcs && st % 8 == 0 && pathOk sseg && decide (s.core.rnd.toNat < 5) &&
      room t .tensor (((piecesOf dseg).getD []) ++ srcs'.flatMap (·.segs) ++ (piecesOf sseg).getD [])
  | [] => false

/-- The engineer with a count, status areas, and the PLACEQ word of an EWADD of handle 1. -/
def tensorist (m : List Host.Cell) : State := engineer m (withS [(5, 1), (6, 0x10001E000), (9, 0x10001E000), (10, 0x18C040400)])

theorem witness_TensorCommands_captures :
    (∀ hs ∈ [[1, 1, 1], [1, 1]],
      passes (captureHandles hs (tensorist vectorMem)) (handlesOf hs (tensorist vectorMem)).1 (handlesOf hs (tensorist vectorMem)).2 ∧
      passesWith (withShapes (handlesOf hs (tensorist vectorMem)).2 (handlesOf hs (tensorist vectorMem)).1)
        (shapesOf hs (tensorist vectorMem))) ∧
    caughtOk (tensorist matrixMem) [1, 1, 1] = true ∧ caughtOk (tensorist reduceMem) [2, 1] = true :=
  ⟨fun hs h => caught (List.all_eq_true.mp
    (show ([[1, 1, 1], [1, 1]] : List (List (BitVec 8))).all (caughtOk (tensorist vectorMem)) = true by decide +kernel) hs h),
    by decide +kernel⟩

theorem witness_TensorCommands_elementwise :
    let s := tensorist vectorMem
    s.core.guard 0 = true ∧ pairOf s.core 0 = (none, 0) ∧ pairOf s.core 5 = (some 1, page 0x1E000) ∧
    tensorOk s .ewadd [1, 1, 1] none 0 = true ∧ tensorOk s .ewmul [1, 1, 1] none 0 = true ∧
    tensorOk s .ewfma [1, 1, 1] none 0 = true ∧ tensorOk s .ewmax [1, 1, 1] none 0 = true ∧
    tensorOk s .ewadd [1, 1, 1] (some 1) (page 0x1E000) = true ∧ tensorOk s (.ewcvt false) [1, 1] none 0 = true := by
  decide +kernel

theorem witness_TensorCommands_others :
    tensorOk (tensorist matrixMem) .gemv [1, 1, 1] none 0 = true ∧ tensorOk (tensorist matrixMem) .gemm [1, 1, 1] none 0 = true ∧
    tensorOk (tensorist reduceMem) (.reduce .sum) [2, 1] none 0 = true := by decide +kernel

theorem witness_TensorCommands_placeq :
    let s := tensorist vectorMem
    placeqTop (s.core.rs 10) (page 0x1E000) = some ⟨.ewadd, 1, [1, 1], none, page 0x1E000, true⟩ ∧
    (s.core.rs 9).toNat = page 0x1E000 ∧ tensorOk s .ewadd [1, 1, 1] none (page 0x1E000) = true := by decide +kernel

theorem witness_PlaceqFaults :
    let s := tensorist []
    s.core.guard 0 = true ∧ placeqTop (s.core.rs 5) (s.core.rs 9).toNat = none ∧
    placeqTop (s.core.rs 10) (s.core.rs 0).toNat ≠ none ∧ s.core.rs 0 = 0 := by decide +kernel

/-! ### Witnesses: attention, network and splices -/

/-- The worker with a locator descriptor at `a5`, another at `a6`, and scalars. -/
def reader (m : List Host.Cell) : State :=
  engineer m fun c => withS [(5, 0x500000001), (6, 0xFF), (7, 3), (8, 0), (9, 0x10001E000), (10, 1), (11, 0)]
    (withA [(5, 0x100003000), (6, 0x100003100), (7, 0x100003140)] c)

def eaOf (s : State) (x : EAddr) : Nat := ((x.access s.core).ea).toNat

theorem witness_LocatorCommands :
    let s := reader locatorMem
    let l := locOf s (page 0x3000)
    passes (captureLocator s (eaOf s ⟨5, false⟩)) l.1 l.2 ∧
    passesWith (withTable l.2 l.1 ⟨true, false⟩ l.1.ovcnt) (tableOf l.2 l.1 ⟨true, false⟩ l.1.ovcnt) ∧
    passesWith (withTable l.2 l.1 ⟨true, true⟩ l.1.ovcnt) (tableOf l.2 l.1 ⟨true, true⟩ l.1.ovcnt) :=
  ⟨loc_passes (by decide +kernel), table_passes (by decide +kernel), table_passes (by decide +kernel)⟩

theorem witness_LocatorCommands_setband :
    let s := reader locatorMem
    let t := (locOf s (page 0x3000)).2
    passes (capture t (eaOf s ⟨6, false⟩) 144) (capOf t (page 0x3100) 144).1 (capOf t (page 0x3100) 144).2 :=
  capture_passes (by decide +kernel)

theorem witness_LocatorCommands_rest :
    let s := reader locatorMem
    let z := locOf s (page 0x3000)
    let l (w : Bool) := (tableOf z.2 z.1 ⟨true, w⟩ z.1.ovcnt).segs
    let c := capOf z.2 (page 0x3100) 144
    let d := checkEngine c.2 .tensor ⟨true, true⟩ (z.1.bandt + 256 * 255) 144
    (s.core.guard 0 && room z.2 .tensor (l false) && room z.2 .tensor (l true) && room z.2 .tensor z.1.segs &&
      decide ((s.core.rs 7).toNat < 2 ^ 32) && decide ((s.core.rs 6).toNat < 256) && bandOk c.1 && pathOk d &&
      room c.2 .tensor (z.1.segs ++ (piecesOf d).getD [])) = true := by decide +kernel

/-- What KvAppend asks after the captures. -/
def kvappOk (s : State) (vc : BitVec 6) : Bool :=
  let c := capOf s (page 0x3100) 64
  let hs := (List.range 4).map fun i => BitVec.ofNat 8 (fieldNat c.1 i 1)
  let t2 := (handlesOf hs c.2).2
  let l0 := locOf t2 (page 0x3000)
  let t3 := l0.2
  let rows := if vc = 0 then 64 else min (s.core.rs vc).toNat 64
  let l := if rows = 0 then l0.1 else tableOf t3 l0.1 ⟨true, true⟩ 4096
  match shapesOf hs c.2 with
  | [kp, vp, ks, vs] =>
    let dd := kp.ext.headD 1
    let cs := [checkEngine t3 .tensor ⟨true, false⟩ l.turnt (if rows ≠ 0 then 8 * (dd / 2) else 0),
      checkTensor t3 ⟨true, false⟩ { ks with spl := false } (List.range (dd * rows)),
      checkTensor t3 ⟨true, false⟩ { vs with spl := false } (List.range (dd * rows)),
      if rows = 0 then Checked.ok [] else checkPool t3 ⟨false, true⟩ kp, if rows = 0 then Checked.ok [] else checkPool t3 ⟨false, true⟩ vp]
    fieldNat c.1 4 1 == 1 && fieldNat c.1 5 1 == 0 && fieldNat c.1 6 2 == 0 && fieldNat c.1 12 4 == 0 && fieldNat c.1 32 32 == 0 &&
      fieldNat c.1 24 8 == page 0x3000 && poolOk kp && poolOk vp && vp.ext.headD 1 == dd && sourceOk dd ks && sourceOk dd vs &&
      decide (l.p ≤ kp.ext.getD 2 1) && decide (l.p ≤ vp.ext.getD 2 1) && cs.all pathOk &&
      room t3 .tensor (l.segs ++ cs.flatMap fun c => (piecesOf c).getD [])
  | _ => false

theorem witness_KvAppend_captures :
    let s := reader kvappMem
    let c := capOf s (page 0x3100) 64
    (passes (capture s (eaOf s ⟨6, false⟩) 64) c.1 c.2 ∧ eaOf s ⟨6, false⟩ % 64 = 0) ∧
    (passes (captureHandles [1, 1, 2, 2] c.2) (handlesOf [1, 1, 2, 2] c.2).1 (handlesOf [1, 1, 2, 2] c.2).2 ∧
      passesWith (withShapes (handlesOf [1, 1, 2, 2] c.2).2 (handlesOf [1, 1, 2, 2] c.2).1) (shapesOf [1, 1, 2, 2] c.2)) :=
  ⟨⟨capture_passes (by decide +kernel), by decide +kernel⟩, caught (by decide +kernel)⟩

theorem witness_KvAppend_locator :
    let s := reader kvappMem
    let t := (handlesOf [1, 1, 2, 2] (capOf s (page 0x3100) 64).2).2
    let l := locOf t (page 0x3000)
    passes (captureLocator t (page 0x3000)) l.1 l.2 ∧
    passesWith (withTable l.2 l.1 ⟨true, true⟩ 4096) (tableOf l.2 l.1 ⟨true, true⟩ 4096) :=
  ⟨loc_passes (by decide +kernel), table_passes (by decide +kernel)⟩

theorem witness_KvAppend : kvappOk (reader kvappMem) 10 = true ∧ kvappOk (reader kvappMem) 11 = true := by decide +kernel

/-- What Attention asks after the captures, of the descriptor at `va`. -/
def attnMay (s : State) (va : Nat) (p : BitVec 6) : Bool :=
  let c := capOf s va 64
  let hs := (List.range 5).map fun i => BitVec.ofNat 8 (fieldNat c.1 i 1)
  let h := handlesOf hs c.2
  let l0 := locOf h.2 (page 0x3000)
  let t3 := l0.2
  let n := (pairOf s.core p).1.getD 0
  let l := if n = 0 then l0.1 else tableOf t3 l0.1 ⟨true, false⟩ l0.1.ovcnt
  let band := if n = 0 then none else bandSet t3 (newCmd t3 .tensor (.kvfind l 5 0) []) l 5
  let st := (pairOf s.core p).2
  let norm := (fieldNat c.1 5 1).testBit 0
  match shapesOf hs c.2 with
  | q :: kp :: vp :: o :: ml =>
    let cs := [checkEngine t3 .tensor ⟨true, false⟩ l.turnt (if n = 0 then 0 else 8 * (q.ext.headD 1 / 2)),
      checkEngines t3 .tensor ⟨true, false⟩ (bandRange l band),
      checkTensor t3 ⟨true, false⟩ { q with spl := false } (List.range q.count),
      if n = 0 then Checked.ok [] else checkPool t3 ⟨true, false⟩ kp, if n = 0 then Checked.ok [] else checkPool t3 ⟨true, false⟩ vp,
      checkTensor t3 ⟨false, true⟩ { o with spl := false } (List.range o.count)] ++
      ml.map (fun m => checkTensor t3 ⟨false, true⟩ { m with spl := false } (List.range m.count)) ++
      [checkEngine t3 .tensor ⟨false, true⟩ st (if st = 0 then 0 else 16)]
    decide (fieldNat c.1 5 1 < 2) && fieldNat c.1 6 2 == 0 && fieldNat c.1 32 32 == 0 && fieldNat c.1 24 8 == page 0x3000 &&
      attnOk q kp vp o ml.head? norm && decide (l.p ≤ kp.ext.getD 2 1) && decide (l.p ≤ vp.ext.getD 2 1) && st % 8 == 0 &&
      cs.all pathOk && room t3 .tensor (l.segs ++ cs.flatMap fun c => (piecesOf c).getD [])
  | _ => false

theorem witness_Attention_captures :
    let s := reader attnMem
    let c := capOf s (page 0x3140) 64
    (passes (capture s (eaOf s ⟨7, false⟩) 64) c.1 c.2 ∧ eaOf s ⟨7, false⟩ % 64 = 0) ∧
    (passes (captureHandles [3, 1, 1, 4, 4] c.2) (handlesOf [3, 1, 1, 4, 4] c.2).1 (handlesOf [3, 1, 1, 4, 4] c.2).2 ∧
      passesWith (withShapes (handlesOf [3, 1, 1, 4, 4] c.2).2 (handlesOf [3, 1, 1, 4, 4] c.2).1) (shapesOf [3, 1, 1, 4, 4] c.2)) ∧
    caughtOk (capOf s (page 0x3100) 64).2 [3, 1, 1, 4] = true ∧ (handleOf s 20).1.va = 0 :=
  ⟨⟨capture_passes (by decide +kernel), by decide +kernel⟩, caught (by decide +kernel), by decide +kernel⟩

theorem witness_Attention_locator :
    let s := reader attnMem
    let t := (handlesOf [3, 1, 1, 4, 4] (capOf s (page 0x3140) 64).2).2
    let l := locOf t (page 0x3000)
    passes (captureLocator t (page 0x3000)) l.1 l.2 ∧
    passesWith (withTable l.2 l.1 ⟨true, false⟩ l.1.ovcnt) (tableOf l.2 l.1 ⟨true, false⟩ l.1.ovcnt) :=
  ⟨loc_passes (by decide +kernel), table_passes (by decide +kernel)⟩

theorem witness_Attention :
    attnMay (reader attnMem) (page 0x3140) 10 = true ∧ attnMay (reader attnMem) (page 0x3100) 8 = true := by decide +kernel

/-! ### Witnesses: network, splices and launches -/

/-- Descriptors of a splice without and with fallback rows, its routing planes (gate 1.0, expert 3), and handle 1, an FP32 tensor of 1 × 1. -/
def spliceMem : List Host.Cell :=
  [(0x4000001008, 64), (0x4000001009, 32), (0x400000100C, 1), (0x4000002041, 64), (0x4000002044, 1), (0x4000002049, 2),
   (0x400000204C, 1), (0x4000002050, 1), (0x4000002054, 1), (0x4000002058, 1), (0x400000205C, 1), (0x4000002060, 4),
   (0x4000002066, 4), (0x4000003104, 1), (0x4000003108, 1), (0x4000003109, 1), (0x400000310A, 1), (0x400000310C, 100),
   (0x4000003111, 80), (0x4000003114, 1), (0x4000003118, 4), (0x4000003120, 1), (0x4000003121, 1), (0x400000312C, 240),
   (0x400000312D, 127), (0x4000003144, 1), (0x4000003148, 1), (0x4000003149, 9), (0x400000314A, 1), (0x400000314C, 100),
   (0x4000003151, 80), (0x4000003154, 1), (0x4000003158, 4), (0x4000003160, 1), (0x4000003161, 1), (0x400000316C, 240),
   (0x400000316D, 127), (0x4000005002, 128), (0x4000005003, 63), (0x4000005004, 3)]

/-- An old-format launch record of one task, and one whose task count is 0 (R325). -/
def launchMem : List Host.Cell :=
  [(0x4000003018, 1), (0x40000030FF, 163), (0x40000031FF, 163)]

/-- A message descriptor of 8 bytes in the local window, and an endpoint entry with one port. -/
def netMem : List Host.Cell :=
  [(0x1100000008, 8), (0x1100000014, 1), (0x1100000018, 8), (0x4000006003, 1)]

/-- A range of a table of the context, as the network path reads it, with the state after the read. -/
def ctxTableOf (s : State) (va len : Nat) : List Byte × State :=
  match checkEngine s .network ⟨true, false⟩ va len with
  | .ok segs =>
    let r := readBytes s.here .network [] (segAddrs segs) s
    (r.1.map (·.val), { r.2.2 with caught := r.2.2.caught ++ segs })
  | _ => ([], s)

def ctxTableOk (s : State) (va len : Nat) : Bool :=
  match checkEngine s .network ⟨true, false⟩ va len with
  | .ok segs => !(readBytes s.here .network [] (segAddrs segs) s).1.any (·.poison)
  | _ => false

theorem ctxTable_passes {s : State} {va len : Nat} (h : ctxTableOk s va len = true) :
    passes (withCtxTable s va len) (ctxTableOf s va len).1 (ctxTableOf s va len).2 := by
  intro k
  unfold ctxTableOk at h
  split at h
  · next segs hs =>
    simp only [Bool.not_eq_true'] at h
    simp only [withCtxTable, ctxTableOf, hs, withChecked, h, Bool.false_eq_true, if_false]
  · cases h

/-- The endpoint entry of a number, and the entropy set of a number. -/
def epVa (s : State) (ep : BitVec 12) : Nat := ((s.context.map fun c => c.ept.toNat).getD 0 + 64 * ep.toNat) % 2 ^ 64
def esVa (s : State) (set : BitVec 6) : Nat := ((s.context.map fun c => c.est.toNat).getD 0 + 32 * set.toNat) % 2 ^ 64

def epOf (s : State) (ep : BitVec 12) : Endpoint × State :=
  let r := ctxTableOf s (epVa s ep) 64
  ((parseEndpoint r.2.xd0.mode r.2.part r.1).getD ⟨0, 0, 0, 0, 0⟩, r.2)

def epOk (s : State) (ep : BitVec 12) : Bool :=
  (s.context.any fun c => decide (ep.toNat < c.epn)) && ctxTableOk s (epVa s ep) 64 &&
    (let r := ctxTableOf s (epVa s ep) 64
     (parseEndpoint r.2.xd0.mode r.2.part r.1).isSome)

theorem endpoint_passes {s : State} {va : Nat} {ep : BitVec 12} (h : epOk s ep = true) :
    passes (withEndpoint s va ep) (epOf s ep).1 (epOf s ep).2 := by
  intro k
  simp only [epOk, Bool.and_eq_true, Option.isSome_iff_exists] at h
  obtain ⟨⟨hc, ht⟩, e, he⟩ := h
  cases hx : s.context with
  | none => rw [hx] at hc; simp at hc
  | some c =>
    have hv : epVa s ep = (c.ept.toNat + 64 * ep.toNat) % 2 ^ 64 := by simp [epVa, hx]
    simp only [hx, Option.any_some, decide_eq_true_eq] at hc
    simp only [withEndpoint, hx, if_neg (Nat.not_le.mpr hc), ← hv]
    refine (ctxTable_passes ht _).trans ?_
    simp only [epOf, he, Option.getD_some]

theorem entropy_passes {s : State} {set : BitVec 6} (hc : s.context.isSome = true) (h : ctxTableOk s (esVa s set) 32 = true) :
    passes (withEntropy s set) (entropyValues (ctxTableOf s (esVa s set) 32).1) (ctxTableOf s (esVa s set) 32).2 := by
  intro k
  obtain ⟨c, hx⟩ := Option.isSome_iff_exists.mp hc
  have hv : esVa s set = (c.est.toNat + 32 * set.toNat) % 2 ^ 64 := by simp [esVa, hx]
  simp only [withEntropy, hx, ← hv]
  exact ctxTable_passes h _

/-- The worker with an endpoint table of one entry at offset 0x6000 of its page, and an arrival counter at 5. -/
def netter (f : CoreState → CoreState) : State :=
  let s := engineer netMem f
  s.mapDie 0 fun d => { d with active := { d.active with
    ctxs := [(0, { ctx0 with ept := 0x100006000, epn := 1, est := 0x100007000 })], arr := [(1023, 5)] } }

theorem witness_NetworkCommands_captures :
    let s := netter id
    let c := capOf s (eaOf s ⟨1, false⟩) 32
    passes (capture s (eaOf s ⟨1, false⟩) 32) c.1 c.2 ∧
    passes (withEndpoint c.2 (eaOf s ⟨1, false⟩) 0) (epOf c.2 0).1 (epOf c.2 0).2 ∧
    (let t := (epOf c.2 0).2
     passes (withEntropy t 0) (entropyValues (ctxTableOf t (esVa t 0) 32).1) (ctxTableOf t (esVa t 0) 32).2) :=
  ⟨capture_passes (by decide +kernel), endpoint_passes (by decide +kernel), entropy_passes (by decide +kernel) (by decide +kernel)⟩

theorem witness_NetworkCommands :
    let s := netter id
    let va := eaOf s ⟨1, false⟩
    let c := capOf s va 32
    let e := epOf c.2 0
    let ok (k : NxKind) (need : Need) : Bool :=
      match parseMessage k 0 c.1 with
      | some m =>
        let t := (ctxTableOf e.2 (esVa e.2 0) 32).2
        let q := if k = .amo then Checked.ok [] else checkEngine t .network need m.lva.toNat m.len
        m.ep == 0 && m.eset == 0 && (e.1.proto != 1 || roceOk m) && pathOk q && room t .network ((piecesOf q).getD [])
      | none => false
    (s.core.guard 0 = true ∧ windowOf va 48 = .loc 0 ∧ va % 16 = 0 ∧ s.coreId < 512) ∧
    (eaOf s ⟨4, false⟩ % 16 ≠ 0 ∧ windowOf (eaOf s ⟨3, false⟩) 48 = .plain ∧ eaOf s ⟨3, false⟩ % 16 = 0) ∧
    (let m := netter (withA [(5, 0x7FE000000000), (6, 0x7FF0000FFFF0)])
     eaOf m ⟨5, false⟩ % 16 = 0 ∧ windowOf (eaOf m ⟨5, false⟩) 48 = .mcast 0 0 ∧ eaOf m ⟨6, false⟩ % 16 = 0 ∧
      windowOf (eaOf m ⟨6, false⟩) 48 = .straddle) ∧
    ok .wr ⟨true, false⟩ = true ∧ ok .rd ⟨false, true⟩ = true ∧ ok .amo ⟨true, true⟩ = true := by decide +kernel

theorem witness_NetworkWaits :
    let s := netter (withS [(5, 1023), (6, 1024), (7, 5), (8, 6), (9, 0x3FFFF), (10, 0x40000), (11, 0x10005), (12, 0x80000005)])
    s.core.guard 0 = true ∧ 1024 ≤ (s.core.rs 6).toNat ∧ (s.core.rs 5).toNat < 1024 ∧
    2 ^ 31 ≤ (s.arrival 1023 - (s.core.rs 8).setWidth 32).toNat ∧ (s.arrival 1023 - (s.core.rs 7).setWidth 32).toNat < 2 ^ 31 ∧
    2 ^ 31 ≤ (s.arrival 1023 - (s.core.rs 12).setWidth 32).toNat ∧
    2 ^ 18 ≤ (s.core.rs 10).toNat ∧ (s.core.rs 9).toNat < 2 ^ 18 ∧ (s.core.rs 9).extractLsb' 16 2 = 3#2 ∧
    (s.core.rs 11).extractLsb' 16 2 = 1#2 ∧ (s.core.rs 5).extractLsb' 16 2 = 0#2 := by decide +kernel

/-- An open context of one token with two routing entries, experts 3 and 9, owned by PASID 1, from token 4 on. -/
def splice0 : SplCtx :=
  ⟨1, 1, 0, 1, 1, 0, 0, 1, 4, 1, 2, false, false, 0, 1, 1, false, 100, [[0x3F800000], [0x3F800000]], [[3, 9]],
    ⟨1, 0, .f32, 2, 0, false, false, false, [1, 1, 1, 1, 1], [4, 4], []⟩, none, 0, [Token.empty], [], 0, 0, 0, false, 1, []⟩

/-- The worker with that context as number 7 of its die, at time `t`. -/
def splicer (m : List Host.Cell) (t : Nat) (x : SplCtx) : State :=
  let s := engineer m fun c => withS [(5, 7), (6, 8), (7, 0x307), (8, 4), (9, 5), (10, 0x507), (11, 63), (12, 3)]
    (withA [(6, 0x100003100), (7, 0x100003140)] c)
  { s.mapDie 0 (fun d => { d with splices := [(7, x)] }) with time := t }

/-- What SpliceOpen asks after its first capture, of the descriptor at `va` and context number `n`. -/
def spliceMay (s : State) (va n : Nat) (roomy : Bool) : Bool :=
  let c := capOf s va 64
  match parseSplice c.1 with
  | none => false
  | some p =>
    let hs := p.outh :: (if p.policy = 2 then [p.fbh] else [])
    let h := handlesOf hs c.2
    let rd := readBytes h.2.here .splice [] (segAddrs ((piecesOf (checkEngines c.2 .splice ⟨true, false⟩ p.planes)).getD [])) h.2
    let o := checkRecord h.2 ⟨false, true⟩ (h.1.headD ⟨0, 0, none⟩)
    let f := checkAll (checkRecord h.2 ⟨true, false⟩) h.1.tail
    va % 64 == 0 && capOk s va 64 && pathOk (checkEngines c.2 .splice ⟨true, false⟩ p.planes) && handlesOk hs c.2 && pathOk o && pathOk f &&
      rd.1.all (fun y => !y.poison) && p.idsOk (rd.1.map (·.val)) && ((h.1.headD ⟨0, 0, none⟩).good p.outOk).isSome &&
      h.1.tail.all (fun r => (r.good p.fbOk).isSome) && decide (h.1.tail.length ≤ 1) && (findSplice h.2 h.2.here n).isNone &&
      decide (p.pages ≤ 8192) &&
      (decide ((spliceUse h.2 h.2.here).1 + p.tcount ≤ 8192 ∧ (spliceUse h.2 h.2.here).2 + p.pages ≤ 8192) == roomy) &&
      !stakesFull h.2 (stakePages h.2 (h.2.caught ++ (piecesOf (checkEngines c.2 .splice ⟨true, false⟩ p.planes)).getD [] ++
        (piecesOf o).getD [] ++ (piecesOf f).getD []))

theorem witness_SpliceOpen :
    let s := splicer spliceMem 5 splice0
    let full := splicer spliceMem 5 { splice0 with tcount := 8192 }
    s.core.guard 0 = true ∧ (s.core.rs 6).toNat % 64 = 8 ∧ eaOf s ⟨6, false⟩ = page 0x3100 ∧ eaOf s ⟨7, false⟩ = page 0x3140 ∧
    spliceMay s (page 0x3100) 8 true = true ∧ spliceMay s (page 0x3140) 8 true = true ∧
    spliceMay full (page 0x3100) 8 false = true := by decide +kernel

theorem witness_SpliceOpen_capture :
    let s := splicer spliceMem 5 splice0
    let c := capOf s (page 0x3140) 64
    passes (capture s (page 0x3140) 64) c.1 c.2 ∧ passes (captureHandles [1, 1] c.2) (handlesOf [1, 1] c.2).1 (handlesOf [1, 1] c.2).2 :=
  ⟨capture_passes (by decide +kernel), handles_passes (by decide +kernel)⟩

theorem witness_SpliceArrivalAnswer :
    let s := expireDue (splicer [] 99 splice0) 0 7
    let late := expireDue (splicer [] 100 splice0) 0 7
    (s.core.guard 0 = true ∧ 1#6 ≠ 0 ∧ s.core.cnt.sp ≠ BitVec.allOnes 16) ∧ findSplice (expireDue s 0 8) s.here 8 = none ∧
    (findSplice s s.here 7 = some splice0 ∧ splice0.owner = s.pasid) ∧
    ((findSplice late late.here 7).map (·.passed) = some true ∧ (classify late late.here 7 late.pasid 4 3).1 = 3) ∧
    findSplice (splicer [] 99 { splice0 with owner := 2 }) 0 7 = some { splice0 with owner := 2 } ∧
    (classify s s.here 7 s.pasid 5 3).1 = 6 ∧ (classify s s.here 7 s.pasid 3 3).1 = 6 ∧ (classify s s.here 7 s.pasid 4 5).1 = 2 ∧
    (classify s s.here 7 s.pasid 4 9 = (0, 0, 1) ∧ 0 < splice0.tokens.length ∧
      (splice0.tok 0).arrived ||| (1#8 <<< 1) ≠ splice0.mask) ∧
    pathOk (checkEngine s .splice ⟨true, false⟩ (eaOf s ⟨3, false⟩) (splice0.d * ((afmtTy splice0.afmt).bits / 8))) = true ∧
    ((piecesOf (checkEngine s .splice ⟨true, false⟩ (eaOf s ⟨3, false⟩) (splice0.d * ((afmtTy splice0.afmt).bits / 8)))).map fun q =>
      stakesFull s (stakePages s q)) = some false := by
  decide +kernel

theorem witness_SpliceRows :
    let r : Row := ⟨0, 7, 1, 9, 0, [0, 0, 0x80, 0x3F], false⟩
    let s := (splicer [] 99 splice0).mapDie 0 fun d => { d with rows := [r] }
    let t := (splicer [] 99 splice0).mapDie 0 fun d => { d with rows := [{ r with ctx := 8 }] }
    ((s.die 0).rows = r :: [] ∧ findSplice s 0 7 = some splice0 ∧ s.time < splice0.deadline ∧ 0 < splice0.tokens.length ∧
      classify s 0 7 r.pasid (splice0.tbase + r.token) r.expert = (0, 0, 1) ∧
      (splice0.tok 0).arrived ||| (1#8 <<< 1) ≠ splice0.mask) ∧
    (t.die 0).rows = { r with ctx := 8 } :: [] ∧ findSplice t 0 8 = none := by decide +kernel

/-- A context whose token 0 waits for its release: its opener stands on core 0, and is away where its core is free. -/
theorem witness_SpliceReleases :
    let x := { splice0 with held := [0] }
    let s := splicer [] 99 x
    let away := s.setCore { s.core with task := none }
    (findSplice s 0 7 = some x ∧ x.held = 0 :: [] ∧ (x.agent s).isSome = true ∧ 0 < x.tokens.length) ∧
    findSplice away 0 7 = some x ∧ x.agent away = none := by decide +kernel

theorem witness_SpliceDeadlines :
    let s := splicer [] 100 splice0
    findSplice s 0 7 = some splice0 ∧ splice0.passed = false ∧ splice0.deadline ≤ s.time ∧ 0 < splice0.tcount ∧
    0 < splice0.tokens.length ∧ splice0.ordered 0 = false ∧ splice0.complete (splice0.tok 0) = false := by decide +kernel

theorem witness_SpliceCloseAndStatus :
    let s := splicer [] 99 splice0
    (s.core.guard 0 = true ∧ 1#6 ≠ 0 ∧ (s.core.rs 5).toNat % 64 = 7 ∧ (s.core.rs 6).toNat % 64 = 8) ∧ findSplice s s.here 8 = none ∧
    findSplice (expireDue s s.here 7) s.here 7 = some splice0 ∧ splice0.owner = s.pasid ∧ (expireDue s 0 8).ownSplice 8 = none := by
  decide +kernel

/-- The worker with a launch record at `a6` and one at `a7`. -/
def launcher (n : Nat) : State :=
  let s := engineer launchMem (withA [(6, 0x100003000), (7, 0x100003100)])
  s.mapDie 0 fun d => { d with active := { d.active with
    launches := List.replicate n ⟨0, 0, 1, 0, Plane.zero, [], [], none, none, [], false, 0, 0, 0, 0, [], [], false, [], [], [], []⟩ } }

theorem witness_LaunchCommand_capture :
    let s := launcher 0
    passes (capture s (eaOf s ⟨6, false⟩) 256) (capOf s (page 0x3000) 256).1 (capOf s (page 0x3000) 256).2 ∧
    passes (capture s (eaOf s ⟨7, false⟩) 256) (capOf s (page 0x3100) 256).1 (capOf s (page 0x3100) 256).2 :=
  ⟨capture_passes (by decide +kernel), capture_passes (by decide +kernel)⟩

theorem witness_LaunchCommand :
    let s := launcher 0
    let t := (capOf s (page 0x3000) 256).2
    let crowd := t.mapDie 0 fun d => { d with active := { d.active with
      launches := List.replicate 128 ⟨0, 0, 1, 0, Plane.zero, [], [], none, some (List.replicate 128 ⟨1, 0, 4096⟩), [], false, 0, 0, 0, 0, [], [],
        false, [], [], [], []⟩ } }
    (s.core.guard 0 = true ∧ 1#6 ≠ 0 ∧ eaOf s ⟨6, false⟩ % 64 = 0 ∧ eaOf s ⟨4, false⟩ % 64 ≠ 0) ∧
    (stakePages t t.caught ≠ [] ∧ stakesFull t (stakePages t t.caught) = false ∧
      stakesFull crowd (stakePages crowd crowd.caught) = true) := by decide +kernel

theorem witness_LaunchWaits :
    let s := launcher 0
    let full := launcher 4096
    let busy := { s with core := { s.core with loads := [ld0 (twoBytes 0) (.scalar 1) none] } }
    let b := capOf s (page 0x3100) 256
    (releaseReady s .package 9 = true ∧ queuedLaunches (s.die s.here) < 4096) ∧
    (releaseReady busy .package 9 = false ∧ 4096 ≤ queuedLaunches (full.die full.here)) ∧
    (match recordCode s.context s.here (capOf s (page 0x3000) 256).1 with
      | (0, some r) => (checkTable s s.here s.pasid s.core.own r).1 == .ok 0 [] []
      | _ => false) = true ∧
    ((some b.1).map (recordCode s.context s.here)).getD (3, none) = (1, none) ∧
    ((none : Option (List Byte)).map (recordCode s.context s.here)).getD (3, none) = (3, none) := by decide +kernel

/-- A record of one task with a change, as the bytes of the old format or of the present one. -/
def recordOf (n prio entry htab : Nat) : List Byte :=
  bytesOfNat 16 entry ++ bytesOfNat 8 htab ++ bytesOfNat 8 0 ++ bytesOfNat 6 32 ++ [6, BitVec.ofNat 8 prio] ++
    bytesOfNat 4 n ++ bytesOfNat 20 (1 + 2 ^ 32 + 2 ^ 64 + 2 ^ 96 + 2 ^ 128) ++ bytesOfNat 192 0

theorem witness_LaunchRefusals :
    let ok (b : List Byte) (f : LaunchRec → Bool) : Bool := ((parseLaunch b).map f).getD false
    ok (recordOf 1 0 0 0) (fun r => r.fields && r.gsize ≤ 128 && !r.bad && r.prio ≤ 7 && r.entry.toNat % 16 == 0 &&
      r.htab.toNat % 2048 == 0 && r.dtab.toNat % 16 == 0) = true ∧
    ok (recordOf 0 0 0 0 ) (fun r => r.fields && decide (512 < r.gsize)) = true ∧
    ok (recordOf 513 0 0 0) (fun r => r.fields && decide (512 < r.gsize)) = true ∧
    ok (recordOf 512 0 0 0) (fun r => r.fields && decide (128 < r.gsize ∧ 128 * boundCount (some ctx0) < r.gsize)) = true ∧
    ok (recordOf 128 8 0 0) (fun r => r.fields && r.gsize ≤ 128 && decide (7 < r.prio)) = true ∧
    ok (recordOf 1 7 8 0) (fun r => r.fields && r.gsize ≤ 128 && decide (r.entry.toNat % 16 ≠ 0)) = true ∧
    ok (recordOf 1 7 0 1024) (fun r => r.fields && r.gsize ≤ 128 && decide (r.htab.toNat % 2048 ≠ 0)) = true ∧
    ok (bytesOfNat 32 0 ++ [33] ++ bytesOfNat 223 0) (fun r => !r.fields) = true ∧ (vdOf (some ctx0) 0).isSome = true := by
  decide +kernel

/-- Counters 0 and 255 of slots 0 and 63: die 3 is cut off, and die 0 is not. -/
theorem witness_EventCounters :
    let s := { State.reset with links := (linksOf 3).map fun l => (l, ⟨9, true⟩) }
    ∀ b ∈ [0x400, 0x800], linked s hostSocket (3 * 2 ^ 30 + 0x7F000 + b + 4 * 255) = false ∧
      linked s hostSocket (0x40000 + b) = true := by decide +kernel

theorem witness_HostLaunches :
    let s := launcher 0
    let full := launcher 4096
    let cut := { s with links := (linksOf 3).map fun l => (l, ⟨9, true⟩) }
    (linked cut hostSocket (3 * 2 ^ 30 + 0x7F0C0) = false ∧ linked cut hostSocket 0x400C0 = true ∧ linked s hostSocket 0x400C0 = true ∧
      swapping cut (partOfDie cut.xd0.mode 3) = false) ∧
    swapping s (partOfDie s.xd0.mode 0) = false ∧ (List.replicate 64 (0 : Byte)).length = 64 ∧
    kfind (s.die 0).active.ctxs 1 = none ∧ kfind (full.die 0).active.ctxs 0 = some ctx0 ∧ ctx0.broken = false ∧
    4096 ≤ queuedLaunches (full.die 0) ∧ swapping full (partOfDie full.xd0.mode 0) = false := by decide +kernel


/-! ### Witnesses: launches, placement and tasks -/

/-- A launch of one gang of one task in context slot 0, with a claim of one page. -/
def launch0 : Launch :=
  ⟨1, 0, 1, 1, Plane.zero, [⟨0x100000000, 0x200000, true, true⟩], [], none, none, [], true, 0, 0, 0, 0, [], [], false, [], [], [], []⟩

/-- Die 0 out of reset, with free cores, launches and gangs; its controller on turn. -/
def boss (free : List Nat) (ls : List Launch) (gs : List Gang) : State :=
  let s := { agent 512 id with parked := free.map fun k => (k, CoreState.fresh .free) }
  s.mapDie 0 fun d => { d with
    crst := false, tlb := [⟨1, 0x100000000, 0x200000, 0x004000000000, true, true, false⟩],
    active := { d.active with ctxs := [(0, ctx0)], launches := ls, gangs := gs } }

theorem witness_ClaimResidency :
    let s := boss [] [launch0] []
    (launch0 ∈ (s.die 0).active.launches ∧ (∀ m ∈ (s.die 0).active.launches, m.id = 1 → m = launch0) ∧ launch0.id = 1 ∧
      launch0.lease = none ∧ launch0.cancelled = false ∧ revoked s (partOfDie s.xd0.mode 0) launch0 = false ∧ swapping s (partOfDie s.xd0.mode 0) = false) ∧
    (match claimPages (s.die 0) launch0 with
      | .ok segs => decide (segs ≠ [] ∧ stakesUsed s 0 + (pagesOf (withFound (s.die 0) launch0) launch0.pasid segs).length ≤ stakeEntries)
      | _ => false) = true ∧
    (let t := s.mapDie 0 fun d => { d with tlb := [] }
     match claimPages (t.die 0) launch0 with
      | .miss reqs => reqs != [] && !asked t 0 (.lease 1) reqs && (t.die 0).active.launches == [launch0]
      | _ => false) = true := by decide +kernel

theorem witness_TranslationArrives :
    let r (a : Nat) : AtsReply := ⟨1, 0x100000000, 4096, a, true, true, true⟩
    let no : AtsReply := ⟨1, 0x100000000, 4096, 0, false, false, true⟩
    let s (x : Bool) : State := (boss [] [] []).mapDie 0 fun d => { d with ats := [⟨1, 0x100000FFF, x, [.core 3]⟩] }
    let bar := ((s true).pf (pfOf (partOfDie (s true).xd0.mode 0))).bar0
    (bar ≤ 0x7F000 ∧ 0x7F000 < bar + 2 ^ 40 ∧ bar + 2 ^ 40 ≤ 2 ^ 40) ∧
    (∀ a ∈ [0x7F000, 2 ^ 40], atsSizes.contains (r a).size = true ∧ (r a).va % (r a).size = 0 ∧ (r a).addr % (r a).size = 0) ∧
    (match exec (.atsCompletion 0 (r 0)) (s false) with
      | .next u => (u.die 0).tlb.length == 2
      | _ => false) = true ∧ (0 ≤ 132 ∧ 132 ≤ 132 ∧ 127 < 128) ∧
    (r 0).x = true ∧ ((r 0).r || (r 0).w) = true ∧ (no.x = true ∧ (no.r || no.w) = false ∧ { r 0 with x := false }.x = false) ∧
    ∀ x, ((s x).die 0).ats.find? (fun q => q.pasid == 1 && decide ((r 0).va ≤ q.page) && decide (q.page < (r 0).va + (r 0).size)) =
      some ⟨1, 0x100000FFF, x, [.core 3]⟩ := by decide +kernel

theorem witness_PageResponses :
    let l := { launch0 with pri := [⟨0x100000000, 1, true⟩] }
    ((boss [] [l] []).die 0).active.launches.find? (fun l => l.id == 1 && l.pri.any fun q => q.page == 0x100000000 && q.pending) =
      some l := by decide +kernel

theorem witness_Invalidations :
    let i : Inval := ⟨1, 0x100000000, 0x200000, [(3, 0, 5)]⟩
    let s := { boss [3] [{ launch0 with lease := some [⟨1, 0x100200000, 0x200000⟩] }] [] with invals := [i] }
    s.invals = i :: [] ∧ allStakes s ≠ [] ∧ (∀ p ∈ allStakes s, p.meets 1 0x100000000 0x200000 = false) ∧
    (∀ x ∈ i.uses, performed s x = true) := by decide +kernel

theorem witness_Placement :
    let l := { launch0 with plane := { Plane.zero with gsize := 2, extents := [2, 1, 1, 1, 1, 1], glev := 1 } }
    let s := boss [3, 4] [l] []
    let u (i n : Nat) : Save := ⟨true, { CoreState.fresh .running with
      task := some { task0 with inst := n }, plane := { Plane.zero with gsize := 2, member := i } }, 0, 0, [], [], []⟩
    let t := (boss [3, 4] [{ l with placed := 1, drained := [0] }] [⟨1, 0, [7, 8], 2, false, []⟩]).mapDie 0 fun d => { d with
      saves := [(510, u 1 6), (511, u 0 5)] }
    (match chooseLaunch s 0 with
      | some x => !x.drained && goodCores s x.small x.needs [4, 3]
      | none => false) = true ∧
    (match chooseLaunch t 0 with
      | some y => y.drained && goodCores t y.small y.needs [3, 4] && (savedMembers t y.l y.gang).map (·.2.1) == [511, 510]
      | none => false) = true := by decide +kernel

theorem witness_PlaneWrites :
    let s := { agent 0 id with parked := [(5, { CoreState.fresh .free with shadow := some (Plane.zero, task0) })] }
    (s.agent 5).shadow = some (Plane.zero, task0) ∧ (s.agent 6).shadow = none ∧ centralBusy s (dieOf 5) 31 = false := by
  decide +kernel

/-- A launch of class 0 runs on core 3, and one of class 1 with a gang of the whole die has waited past the bound. -/
def low0 : Launch := { launch0 with id := 0, prio := 0, eligible := false }
def gang3 : Gang := ⟨0, 0, [3], 1, false, []⟩
def whole1 : Launch := { launch0 with plane := { Plane.zero with gsize := 128, extents := [128, 1, 1, 1, 1, 1], glev := 1 } }
def lateState : State := { boss [] [low0, whole1] [gang3] with time := 520001, parked := [(3, CoreState.fresh .running)] }

theorem witness_LatencyBound :
    let s := lateState
    let ds := memberDies s 0 whole1 0 false
    let vs := victims s (partOfDie s.xd0.mode 0) whole1.prio
    let going := vs.filter fun x => draining s x.2
    let free (d : BitVec 2) : List Nat := freeCores s d ++ going.flatMap fun x => x.2.cores.filter fun k => dieOf k == d
    (s.die 0).active.launches.find? (fun l => l.id == 1 && l.eligible) = some whole1 ∧ nextGang whole1 = some (0, false) ∧
    latencyBound s (partOfDie s.xd0.mode 0) ≠ 0 ∧
    whole1.since + 130 * latencyBound s (partOfDie s.xd0.mode 0) < s.time ∧ fits false ds free = false ∧
    decide (whole1.plane.gsize ≤ 16) = false ∧ pickVictims false ds free [] (vs.filter fun x => !draining s x.2) = some [gang3] ∧
    (∀ d, slotsUsed s d + (([gang3].flatMap (·.cores)).filter fun k => dieOf k == d).length ≤ 512) := by decide +kernel

theorem witness_TaskStart :
    let s := agent 5 fun c => { c with run := .free, shadow := some (Plane.zero, task0) }
    s.core.shadow = some (Plane.zero, task0) ∧ s.core.run = .free ∧ s.core.task = none ∧ resumes s Plane.zero task0 = false ∧
    Plane.zero.preload = [] := by decide +kernel

theorem witness_TaskEnds :
    let s := { tasked 0 (fun c => { c with run := .ending }) with writes := [wr 1 [0, 1, 2, 3]] }
    s.core.run = .ending ∧ s.core.after = [] ∧ s.core.quiet = true ∧ (landAll s).core.countersZero = true ∧
    allArrived s ((taskWrites s).foldl sinsert s.core.obs) = true := by decide +kernel

/-- A core whose task has ended, of a gang of two on cores 0 and 3 with `left` members to go; member 0 on core `lead`. -/
def endedOn (lead left : Nat) : State :=
  (tasked 0 fun c => { c with run := .ended, task := some { task0 with lead := lead } }).mapDie 0 fun d => { d with
    active := { d.active with launches := [launch0], gangs := [⟨1, 0, [0, 3], left, false, []⟩] } }

theorem witness_CoreReturns :
    ((endedOn 0 0).core.run == .ended && !commandsLeft (endedOn 0 0) && (endedOn 0 0).core.task == some { task0 with lead := 0 } &&
      heldGang (endedOn 0 0) { task0 with lead := 0 } == some ⟨1, 0, [0, 3], 0, false, []⟩) = true ∧
    ((endedOn 3 1).core.run == .ended && !commandsLeft (endedOn 3 1) && (endedOn 3 1).core.task == some { task0 with lead := 3 } &&
      (endedOn 3 1).coreId == 0) = true := by decide +kernel

theorem witness_Diversion :
    let ok (pc : Word) : Bool :=
      let s := agent 0 fun c => { c with
        pc := pc, drainReq := some 3, plane := { c.plane with drains := [⟨0x10, 0x30, 0x40, 0x50⟩] } }
      s.core.run == .running && s.core.after.isEmpty && s.core.drainReq == some 3 && s.core.drainRpc.isNone &&
        decide (s.time < 3 + 5200) && s.core.task.isNone &&
        s.core.plane.drains.find? (fun r => r.lo.toNat ≤ s.core.pc.toNat && s.core.pc.toNat < r.hi.toNat) ==
          some ⟨0x10, 0x30, 0x40, 0x50⟩
    ok 0x10 = true ∧ ok 0x20 = true := by decide +kernel

theorem witness_Saves :
    let s (f : CoreState → CoreState) : State := { (tasked 0 f).mapDie 0 (fun d => { d with
      active := { d.active with launches := [launch0], gangs := [⟨1, 0, [0], 1, false, []⟩] } }) with time := graceCycles + 3 }
    let ok (s : State) : Bool := s.core.task == some task0 && s.core.quiet && s.core.after.isEmpty && s.core.fill.isNone && s.core.beat.isNone &&
      transfersDone s task0 && mayLeave s task0 && findLaunch s task0.home task0.launch == some launch0 &&
      !launch0.cancelled && freeSlot s s.here == some 0
    let drain (stay : Bool) := s fun c => { c with run := .draining, drainRpc := some 0x50, stay := stay }
    let full (r : Run) := s fun c => { c with run := r, drainReq := some 3 }
    (ok (drain false) = true ∧ (drain false).core.run = .draining ∧ (drain false).core.drainRpc = some 0x50 ∧
      graceOver (drain false) (drain false).core = false ∧ (drain false).core.stay = false) ∧
    (ok (drain true) = true ∧ graceOver (drain true) (drain true).core = false ∧ (drain true).core.stay = true) ∧
    (ok (full .running) = true ∧ savable (full .running).core.run = true ∧ graceOver (full .running) (full .running).core = true) ∧
    savable .ending = true := by decide +kernel

/-- A saved task, drained or saved in full, whose gang has been placed on core 5. -/
def saved5 (f : Bool) : Save :=
  ⟨f, { CoreState.fresh .running with task := some { task0 with inst := 6 } }, 0, 0x50, [], [], []⟩
def waiting5 (f : Bool) : State :=
  let s := { agent 0 id with parked := [(5, { CoreState.fresh .free with shadow := some (Plane.zero, task0) })] }
  s.mapDie 0 fun d => { d with saves := [(511, saved5 f)] }

theorem witness_TaskResumes (f : Bool) :
    kfind ((waiting5 f).die 0).saves 511 = some (saved5 f) ∧ ((waiting5 f).agent 5).shadow = some (Plane.zero, task0) ∧
    dieOf 5 = 0 ∧ ((waiting5 f).agent 5).run = .free ∧ (saved5 f).core.plane.wid = Plane.zero.wid ∧
    (saved5 f).core.task = some { task0 with inst := 6 } := ⟨rfl, rfl, rfl, rfl, rfl, rfl⟩

/-! ### Witnesses: steps of engines and of the network -/

/-- A started command of `worker`'s task with a body. -/
def cmd0 (p : Path) (b : CmdBody) : Cmd :=
  ⟨9, 0, 1, 1, 0, 0, 1, 0, p, 0x10, 1, b, [], true, none, [], [], [], [], true, false, 1, none, [], none, true⟩
def copy0 : CmdBody := .copy [⟨0x100000100, 0x004000000100, 16⟩] [⟨0x100000000, 0x004000000000, 16⟩] 16 []

/-- One byte for stack memory, and one for the scratchpad of core 0, whose stay was number 7. -/
def ew0 (g : Option (Nat × Option Nat)) (pa : Nat) : EngWrite := ⟨[⟨pa, 5, true⟩], false, 0, 0x100000000, g⟩

def commanded (cs : List Cmd) : State := { worker id with cmds := cs, faceQ := [(0, 9, 0)] }

theorem witness_EngineWrites :
    let fresh := { cmd0 .copy copy0 with started := false }
    let c := { cmd0 .copy copy0 with out := [ew0 none 0x004000000100, ew0 (some (0, some 7)) (spAddr 0 0),
      ew0 (some (0, some 6)) (spAddr 0 0)] }
    let s := commanded [c]
    (findCmd (commanded [fresh]) 9 = some fresh ∧ (startCmd (commanded [fresh]) fresh).isSome = true) ∧
    (findCmd s 9 = some c ∧ (startCmd s c).isNone = true ∧ isController c.core = false) ∧
    ((c.out.zipIdx.all fun w => writeMayGo s c w.2 w.1) = true ∧ c.out.length = 3) ∧
    guardHolds s (0, some 7) = true ∧ guardHolds s (0, some 6) = false ∧ guardHolds s (0, none) = false ∧
    reaches s c.die 0x004000000100 = true ∧ reaches s c.die (spAddr 0 0) = true := by decide +kernel

theorem witness_EngineWrites_body (k : TopKind) (d : Shape) (ss : List Shape) (vc : Option Nat) (st : Option (List Seg))
    (r : BitVec 3) (sat h e n : Bool) : (cmd0 .copy copy0).body ≠ .top k d ss vc st r sat h e n := nofun

theorem witness_CommandRetires :
    let s := commanded [cmd0 .copy copy0]
    findCmd s 9 = some (cmd0 .copy copy0) ∧ mayRetire s (cmd0 .copy copy0) = true ∧
    (cmd0 .copy copy0).of s.coreId s.core = true ∧ (cmd0 .copy copy0).path ≠ .splice ∧
    copy0 = .copy [⟨0x100000100, 0x004000000100, 16⟩] [⟨0x100000000, 0x004000000000, 16⟩] 16 [] := by decide +kernel

/-- An EWADD of one element, with one piece; and an attention over one block that is found. -/
def shape1 : Shape := ⟨1, 0x100004000, .f32, 1, 0, false, false, false, [1, 1, 1, 1, 1], [4, 4], []⟩
def body0 : CmdBody := .top .ewadd shape1 [shape1, shape1] none none 0 false false false false
def piece0 (site : Site) (started : Bool) (fate : BitVec 2) : Piece :=
  ⟨[0], 0, 0, site, [0], 0, 4, started, none, 0, fate, 0, false⟩
def loc1 : Locator := ⟨0x100003000, 0x100004000, 1, 0, 0x100005000, 0x100006000, 0x100007000, []⟩
def attn0 : Attn := ⟨shape1, shape1, shape1, shape1, none, loc1, 5, 64, 0, 0, false, false, none, false, false, none, [0], 0, 0⟩

/-- A piece's write of FP32 elements, of the low nibble of a byte, and into a splice window that makes its row whole; and a
controller's copy into control space, a hole, host memory and stack memory. -/
theorem witness_EngineWrites_sites :
    let p := { shape1 with segs := [⟨0x100004000, 0x004000004000, 4⟩] }
    let four := { p with ty := .i4, segs := [⟨0x100004000, 0x004000004000, 1⟩] }
    let win := { shape1 with base := 0x6C0000000000, spl := true }
    let top (d : Shape) (w : EngWrite) : Cmd :=
      { cmd0 .tensor (.top .ewadd d [shape1, shape1] none none 0 false false false false) with
        pieces := [{ piece0 .pool true 0 with home := 256 }], out := [w] }
    let bytes (pa n : Nat) : EngWrite := ⟨(List.range n).map fun i => ⟨pa + i, 5, false⟩, false, 0, 0x100004000, none⟩
    let ok (c : Cmd) : Bool := let s := commanded [c]; findCmd s 9 == some c && (startCmd s c).isNone &&
      c.out.zipIdx.all (fun w => writeMayGo s c w.2 w.1) && c.out.length == 1
    let boss (pa : Nat) : Cmd := { top p (bytes pa 4) with core := 512, path := .copy, body := copy0 }
    (ok (top p (bytes 0x004000004000 4)) = true ∧ p.spl = false ∧ p.ty.is4 = false) ∧
    (ok (top four (bytes 0x004000004000 1)) = true ∧ four.spl = false ∧ four.ty.is4 = true ∧
      (liveElems .ewadd four [shape1, shape1] none [0]).any (fun l => four.high l == false &&
        segAt four.segs (four.addr l) == some 0x004000004000) = true) ∧
    linked (commanded []) (siteSocket (top p (bytes 0 4)) 256) 0x004000004000 = true ∧
      outOfUse (commanded []) 0 0x004000004000 = false ∧
    (ok (top win (bytes (2 ^ 66 + 0x6C0000000000) 4)) = true ∧ win.spl = true ∧ 0 < win.rows ∧
      windowOf (win.addr 0) 4 = .splice 0 0 0 ∧ boundDie (kfind ((commanded []).die 0).active.ctxs 0) 0 = some 0 ∧
      spliceDie (commanded []) (top win (bytes 0 1)) 0x6C0000000000 = some 0 ∧ reachable [] 0 0 = true) ∧
    (([0x1000, 0x00E000000000, 2 ^ 64, 0x004000004000].all fun pa => ok (boss pa)) = true ∧ isController 512 = true ∧
      regionOf 0x1000 = .control ∧ reaches (commanded []) 0 0x1000 = true ∧ regionOf 0x00E000000000 = .none ∧ regionOf (2 ^ 64) = .host ∧
      regionOf 0x004000004000 = .stack) := by decide +kernel

theorem witness_Pieces :
    let top (site : Site) (b : Bool) (f : BitVec 2) : Cmd := { cmd0 .tensor body0 with pieces := [piece0 site b f] }
    let first := { top .pool false 0 with started := false }
    let att := { cmd0 .tensor (.attn attn0) with pieces := [piece0 .central false 0] }
    (findCmd (commanded [first]) 9 = some first ∧ first.pieces[0]? = some (piece0 .pool false 0) ∧
      topMayStart (commanded [first]) first = true) ∧
    (findCmd (commanded [top .pool false 0]) 9 = some (top .pool false 0) ∧ (top .pool false 0).started = true) ∧
    (findCmd (commanded [top .face false 0]) 9 = some (top .face false 0) ∧ (commanded []).xd0.hot = false ∧
      faceReady (commanded [top .face false 0]) 9 0 (piece0 .face false 0) = true) ∧
    (findCmd (commanded [att]) 9 = some att ∧ (attn0.n + 63) / 64 ≤ attn0.blocks.length ∧ att.started = true) ∧
    (∃ a, centralBusy (commanded [top .central true 0]) 0 a = true) ∧
    (∀ f ∈ [(0 : BitVec 2), 1], findCmd (commanded [top .pool true f]) 9 = some (top .pool true f) ∧
      (piece0 .pool true f).out = none ∧ (∀ w ∈ (top .pool true f).out, w.piece ≠ 0) ∧ (piece0 .pool true f).fate = f ∧
      (top .pool true f).of 0 (commanded []).core = true) :=
  ⟨by decide +kernel, by decide +kernel, by decide +kernel, by decide +kernel,
    ⟨(Config.centralArrays 9 0).1, by simp [centralBusy, runsPiece, commanded, cmd0, body0, piece0, dieOf]⟩, by decide +kernel⟩

/-- The locator's one entry is block 0 of sequence 5, of PASID 1 (R98). -/
def entryMem : List Host.Cell := [(0x004000004000, 5), (0x004000004008, 1), (0x00400000400B, 128)]

theorem witness_LocatorSteps :
    let c := cmd0 .tensor (.kvfind loc1 5 0)
    let s := { commanded [c] with mem := entryMem }
    let t := { commanded [{ c with started := false }] with mem := [] }
    (findCmd s 9 = some c ∧ c.finished = false ∧ c.started = true ∧ lookup s { c with started := true } loc1 5 0 = .block 0 none) ∧
    (kvMayStart t { c with started := false } = true ∧ findCmd t 9 = some { c with started := false } ∧
      lookup t c loc1 5 0 = .absent) := by decide +kernel

/-- The same entry in the overflow list, which has `n` records. -/
def overMem (n : Byte) : List Host.Cell :=
  [(0x00400000300C, n), (0x004000004000, 5), (0x004000004008, 1), (0x00400000400B, 192), (0x004000005000, 5)]

theorem witness_LocatorSteps_frees :
    let c := cmd0 .tensor (.kvfree loc1 5 0 0 0 0 false)
    let s (m : List Host.Cell) (bad : List Nat) : State := { commanded [c] with mem := m, poison := bad }
    let finds (m : List Host.Cell) (bad : List Nat) : Found := lookup (s m bad) c loc1 (5#32).toNat 0
    (∀ m ∈ [entryMem, overMem 1, overMem 2, []], findCmd (s m []) 9 = some c) ∧ c.started = true ∧ 0 ≤ (0#32).toNat ∧
    finds entryMem [] = .block 0 none ∧ finds [] [] = .absent ∧ finds [] [0x004000004000] = .error 0x004000004000 ∧
    finds (overMem 1) [] = .block 0 (some 0) ∧ 0 + 1 = (liveOv (s (overMem 1) []) c loc1).1 ∧
    finds (overMem 2) [] = .block 0 (some 0) ∧ 0 + 1 ≠ (liveOv (s (overMem 2) []) c loc1).1 ∧
    (locRead (s (overMem 2) []) c loc1 (loc1.ovfl + 16) 16).2 = none ∧
    finds (overMem 2) [0x004000005010] = .block 0 (some 0) ∧
    (locRead (s (overMem 2) [0x004000005010]) c loc1 (loc1.ovfl + 16) 16).2 ≠ none := by decide +kernel

theorem witness_LocatorSteps_others :
    let a := { attn0 with blocks := [] }
    let c := { cmd0 .tensor (.attn a) with pieces := [piece0 .central false 0] }
    let dst : List Seg := [⟨0x100007000, 0x004000007000, 144⟩]
    let b := cmd0 .tensor (.setband dst (List.replicate 144 0))
    let w := bandWrite (commanded [b]) dst (List.replicate 144 0)
    let finds (m : List Host.Cell) (bad : List Nat) : Found :=
      lookup { commanded [c] with mem := m, poison := bad } c a.loc a.seq.toNat a.blocks.length
    (findCmd (commanded [c]) 9 = some c ∧ c.started = true ∧ (piece0 .central false 0).started = false ∧
      a.blocks.length < (a.n + 63) / 64 ∧ finds entryMem [] = .block 0 none ∧ finds [] [] = .absent ∧
      finds [] [0x004000004000] = .error 0x004000004000) ∧
    (kvMayStart (commanded [{ b with started := false }]) { b with started := false } = true ∧ b.path = .tensor ∧
      isController b.core = false ∧ ({ b with out := [w] } : Cmd).out[0]? = some w ∧ b.started = true) := by decide +kernel

/-- A locator of nine entries, of which the first eight that a probe of sequence 5 and block 0 meets are taken, and the last one too
where `all` says so; its overflow list has 256 `n` records. -/
def loc9 : Locator := { loc1 with p := 9 }
def windowMem (all : Bool) (n : Byte) : List Host.Cell :=
  let taken := (List.range 9).filter fun e => all || e != (probeStart loc9 5 0 + 8) % 9
  (if n = 0 then [] else [(0x00400000300D, n)]) ++ taken.map fun e => (0x004000004000 + 16 * e + 11, 128)

theorem witness_Allocations :
    let c := cmd0 .tensor (.kvfind loc9 5 0)
    let last := (probeStart loc9 5 0 + 8) % 9
    let window := (List.range 8).map fun j => (probeStart loc9 5 0 + j) % loc9.p
    let s (all : Bool) (n : Byte) (bad : List Nat) : State := { commanded [c] with mem := windowMem all n, poison := bad }
    let clean (s : State) (e : Nat) : Bool := (entryAt s c loc9 e).2 == none
    let val (s : State) (e : Nat) : Bool := (entryAt s c loc9 e).1.val
    let taken (s : State) (es : List Nat) : Bool := es.all fun e => clean s e && val s e
    let free (s : State) (es : List Nat) (e : Nat) : Bool :=
      taken s (es.takeWhile (· != e)) && es.contains e && clean s e && !val s e
    (let t : State := { commanded [c] with mem := [] }
     free t window (probeStart loc9 5 0) = true) ∧
    (taken (s false 0 []) window && free (s false 0 []) (List.range 9) last && (liveOv (s false 0 []) c loc9) == (0, none)) = true ∧
    (taken (s false 16 []) window && (liveOv (s false 16 []) c loc9) == (4096, none)) = true ∧
    (taken (s true 0 []) window && taken (s true 0 []) (List.range 9)) = true ∧
    clean (s true 0 [0x004000004000 + 16 * probeStart loc9 5 0]) (probeStart loc9 5 0) = false ∧
    (let t := s true 0 [0x004000004000 + 16 * last]
     taken t window && taken t ((List.range 9).takeWhile (· != last)) && !clean t last) = true ∧
    (let t := s false 0 [0x00400000300C]
     taken t window && free t (List.range 9) last && (liveOv t c loc9).2 != none) = true := by decide +kernel

/-- A pool of one block of two elements a row, and a source of one row. -/
def pool0 : Shape := ⟨1, 0x100010000, .bf16, 3, 3, false, false, false, [2, 64, 1, 1, 1], [2, 4, 256], [⟨0x100010000, 0x004000010000, 256⟩]⟩
def source0 : Shape := ⟨2, 0x100014000, .f32, 2, 0, false, false, false, [2, 64, 1, 1, 1], [4, 8], [⟨0x100014000, 0x004000014000, 512⟩]⟩

theorem witness_AppendSteps :
    let body (cls : BitVec 8) : CmdBody := .kvapp loc1 5 cls 0 7 64 false pool0 pool0 source0 source0 0
    let c (cls : BitVec 8) := cmd0 .tensor (body cls)
    let entry (seq flags : Byte) : List Host.Cell := [(0x004000004000, seq), (0x004000004008, 1), (0x00400000400B, flags)]
    let s (m : List Host.Cell) (bad : List Nat) : State := { commanded [c 2] with mem := m, poison := bad }
    let key (s : State) := sourceRow s (c 2) source0 [] 0
    let value (s : State) := sourceRow (key s).2.2 (c 2) source0 (key s).2.1 0
    let t (m : List Host.Cell) (bad : List Nat) : State := (value (s m bad)).2.2
    let finds (m : List Host.Cell) (bad : List Nat) : Found := lookup (t m bad) (c 2) loc1 (5#32).toNat 0
    let class_ (m : List Host.Cell) : Nat × Nat := let x := (entryAt (t m []) (c 2) loc1 0).1; (x.turn, x.bset)
    (findCmd (s [] []) 9 = some (c 2) ∧ (c 2).finished = false ∧ 0 < 64 ∧ (c 2).started = true) ∧
    ((key (s [] [0x004000014000])).1.2 = true ∧ (key (s [] [])).1.2 = false ∧ (value (s [] [])).1.2 = false) ∧
    finds [] [] = .absent ∧ finds [] [0x004000004000] = .error 0x004000004000 ∧
    (finds (entry 5 0xA0) [] = .block 0 none ∧ class_ (entry 5 0xA0) = ((2#8).toNat, (0#8).toNat)) ∧
    (finds (entry 5 0x90) [] = .block 0 none ∧ class_ (entry 5 0x90) = ((1#8).toNat, (0#8).toNat)) ∧
    (turnsOf (t (entry 5 0x90) []) (c 1) loc1 [] 1).1.2 = none ∧
    (turnsOf (t (entry 5 0x90) [0x004000006000]) (c 1) loc1 [] 1).1.2 ≠ none ∧
    (finds (entry 9 0xA0) [] = .absent ∧
      (match allocate (t (entry 9 0xA0) []) (c 2) loc1 5 0 2 0, allocate (t [] []) (c 2) loc1 5 0 2 0 with
        | .inr n, .inl (_, e) => n == 1 && e == 0
        | _, _ => false) = true) := by decide +kernel

/-- A message of 8 bytes with its descriptor at the start of the local window. -/
def message0 : Message :=
  ⟨0, 0, 0, 0, 0, 0, 0xFFFF, 0x100000000, 0x100000100, 8, 0, [⟨0x100000100, 0x004000000100, 8⟩], 0, 1, []⟩

theorem witness_MessageCompletes :
    let c (b : CmdBody) := cmd0 .network b
    let eight : List Byte := List.replicate 8 0
    (∀ b ∈ [CmdBody.nxwr message0, .nxrd message0, .nxamo message0],
      findCmd (commanded [c b]) 9 = some (c b) ∧ (messageOf b).map (·.2) = some message0 ∧ (c b).started = true ∧
        (c b).finished = false ∧ (c b).agent (commanded [c b]) = some 0 ∧ strays (commanded [c b]) (c b) message0 = false ∧
        ∀ k ∈ [NxKind.wr, .rd, .amo], needsLost (commanded [c b]) (c b) k message0 = false) ∧
    (dieOf 0 = (c (.nxwr message0)).die ∧ message0.desc + 48 ≤ 2 ^ 20) ∧
    outcomeOk .wr message0 0 8 [] = true ∧ outcomeOk .wr message0 2 0 [] = true ∧ outcomeOk .rd message0 0 8 eight = true ∧
    outcomeOk .amo message0 0 8 eight = true ∧ outcomeOk .amo message0 1 0 [] = true ∧ (c (.nxamo message0)).path = .network ∧
    (let l : Lock := ⟨4, [.s 3], none, none⟩
     let s := { commanded [] with core := { (commanded []).core with locks := [l] } }
     ({ c (.nxamo message0) with tok := some 4 } : Cmd).tok = some l.tok ∧ (s.agent 0).locks = [l] ∧ l.regs = [.s 3]) ∧
    (((segAddrs message0.segs).zip eight).find? (fun y => y.1 == 0x004000000100) = some (0x004000000100, 0) ∧
      (∀ j, j < 16 → 0x004000000100 ≠ spAddr 0 (message0.desc + 32 + j)) ∧ reaches (commanded []) 0 0x004000000100 = true) ∧
    (∀ j, j < 16 → reaches (commanded []) 0 (spAddr 0 (message0.desc + 32 + j)) = true) := by decide +kernel

theorem witness_Paths :
    let s := { agent 0 id with paths := [(0, ⟨5, 1, [], 2, true, 0, 1, 3, 7⟩)], time := millisecond }
    let p := s.path (0#2).toNat (0#6).toNat (0#12).toNat (0#4).toNat
    message0.ep = 0 ∧ (s.path (0#2).toNat (0#6).toNat (0#12).toNat (1#4).toNat).inflight = 0 ∧
    p.dead = true ∧ p.probed + millisecond ≤ s.time ∧ p.inflight ≠ 0 ∧ p.probes ≠ 0 := by decide +kernel

theorem witness_NetworkReceives :
    let s := { boss [] [{ launch0 with lease := some [⟨1, 0x100000000, 0x200000⟩] }] [] with ports := [0] }
    let r : NetReq := ⟨none, 0, 1, 0, .write, 0x1001FFFF8, 8, List.replicate 8 3, 1023, true, true⟩
    let rod (n : Nat) : NetReq := { r with rod := some (5, n) }
    let cut := { s with links := (linksOf 0).map fun l => (l, ⟨9, true⟩), flows := [(5, 3)] }
    ((rod 2).rod = some (5, 2) ∧ 2 ≠ kget 0 cut.flows 5 ∧ (rod 3).rod = some (5, 3) ∧ 3 = kget 0 cut.flows 5 ∧ r.rod = none ∧
      reachable cut.links (12 + r.port / 64) (0#2).toNat = false ∧ reachable s.links (12 + r.port / 64) (0#2).toNat = true) ∧
    s.ports.contains r.port = true ∧ ctxByPasid s (portPart s.xd0.mode r.port) 2 = none ∧
    ctxByPasid s (portPart s.xd0.mode r.port) r.rctx = some (0, ctx0) ∧ boundDie (some ctx0) (r.tvd.setWidth 64) = some 0 ∧
    (s.die 0).urst = false ∧ ctx0.broken = false ∧ r.kind = .write ∧
    netTarget s 0 0 0 ctx0 ⟨false, true⟩ r.rva r.len = .bytes [⟨0x1001FFFF8, 0x0040001FFFF8, 8⟩] ∧
    reaches s 0 0x0040001FFFF8 = true ∧ r.actr.toNat < 1024 ∧ r.whole = true := by decide +kernel

/-! ### Witnesses: vectors, masks and sumps -/

def vop (t : Ty) (b : BitVec 6) (v : Bool) (c : BitVec 6) : VOp := ⟨5, 1, b, 0, t, false, v, c⟩
def inFmt (x : BitVec 32) : State := agent 0 fun c => { c with fmt := x }

theorem witness_VectorIntegers :
    (∀ t ∈ [Ty.i8, .n8, .i16, .n16, .i32, .n32, .i64, .n64], t.isInt = true) ∧
    ((Instr.vsat (vop .i8 1 false 0)).wf = true ∧ (vop .i8 1 false 0).t.isSigned = true) ∧ (Instr.vsat (vop .i64 63 false 0)).wf = true ∧
    ((Instr.vsat (vop .n8 8 false 0)).wf = true ∧ (vop .n8 8 false 0).t.isSigned = false) ∧
    (Instr.vsra (vop .i16 2 false 0)).wf = true ∧ (Instr.vsra (vop .i16 15 true 0)).wf = true := by decide

/-- Mode 0 to 5 in C, the mode of `fmt`, and a reserved one there; the same in B of VRNDI. -/
theorem witness_VectorFloats :
    (vop .f32 2 true 5).t.isF = true ∧ (vop .f16 2 true 0).t.isF = true ∧
    ((5#6).extractLsb' 0 3).toNat ≤ 5 ∧ ((0#6).extractLsb' 0 3).toNat ≤ 5 ∧
    (vop .bf16 2 false 0).v = false ∧ rndReserved (inFmt 0x50000).core.rnd = false ∧ rndReserved (inFmt 0x60000).core.rnd = true ∧
    rndReserved (inFmt 0x70000).core.rnd = true ∧ ((inFmt 0).env 0).rnd ≠ 5 ∧ (7#6 = 7) ∧ (5#6).toNat ≤ 5 := by decide +kernel

theorem witness_VectorFunctions : Ty.f32.isInt = false ∧ Ty.e5m2.isInt = false := by decide

/-- VCVT to a narrower type, part 3 of 4, to a wider type, part 3 of 4, and of one width; under a mode of its own and that of `fmt`. -/
theorem witness_VectorConversions :
    let narrow := vop .e4m3 0 true 24
    let wide := vop .f32 3 false 24
    let same := vop .i32 0 false 0
    (Instr.vcvt narrow).wf = true ∧ narrow.t.bits < (Ty.ofCode (narrow.b.extractLsb' 0 4)).bits ∧
    (Instr.vcvt wide).wf = true ∧ (Ty.ofCode (wide.b.extractLsb' 0 4)).bits ≤ wide.t.bits ∧
    (Instr.vcvt same).wf = true ∧ (narrow.c.extractLsb' 0 3).toNat ≤ 5 ∧ wide.v = false ∧
    rndReserved (inFmt 0x50000).core.rnd = false ∧ rndReserved (inFmt 0x60000).core.rnd = true ∧ ((inFmt 0).env 0).rnd ≠ 5 ∧
    ((Instr.vcvti (vop .i32 0x07 false 0)).wf = true ∧ cvtiSource ((0x07#6).extractLsb' 3 3) = some .f32) ∧
    ((Instr.vcvti (vop .i8 0x1B false 0)).wf = true ∧ ((0x1B#6).extractLsb' 0 3).toNat ≤ 5) ∧
    (Instr.vpackb (vop .f32 3 false 0)).wf = true ∧ (Instr.vpackb (vop .f32 0 false 0)).wf = true ∧
    (Instr.vunpb (vop .f32 3 false 0)).wf = true := by decide +kernel

theorem witness_VectorMoves :
    (Instr.vcmp (vop .f32 2 false 0)).wf = true ∧ Ty.n64.isInt = true ∧ (Ty.i8.isInt && Ty.i8.isSigned) = true ∧
    (Ty.n8.isInt && Ty.n8.isSigned) = false ∧ (Ty.f32.isInt && Ty.f32.isSigned) = false := by decide

/-- No lane, one lane and two lanes enabled. -/
theorem witness_VectorReductions :
    let s := agent 0 (withK [(1, 0), (2, 0xF), (3, 0xFF)])
    let o (m : BitVec 4) : VOp := ⟨5, 1, 0, m, .f32, false, false, 0⟩
    let on (m : BitVec 4) := (List.range 64).filter fun i => VOp.on (o m) s.core i
    (Instr.vredsum ⟨5, 1, 0, 0, .i8, false, false, 0⟩).wf = true ∧ Ty.i8.isInt = true ∧ (o 1).t.isInt = false ∧
    on 1 = [] ∧ on 2 = [0] ∧ on 3 = [0, 1] ∧ (∀ i ∈ on 3, (numLane s .f32 5 i).isNan = false) ∧
    (∃ i ∈ on 3, (numLane (s.setCore { s.core with v := s.core.v.set 5 0x7FC00000 }) .f32 5 i).isNan = true) ∧
    (Instr.vredmax ⟨5, 1, 0, 0, .n64, false, false, 0⟩).wf = true ∧ (Instr.vredmax (o 1)).wf = true := by decide +kernel

/-- Without tags there is no race, and without marks no poison. -/
theorem race_free {s : State} (h : s.tags = []) (k : Nat) (seen : Vector Word 512) :
    ∀ pas, raceOf s k seen pas = none
  | [] => rfl
  | pa :: r => by
    have h1 : raceAt s k seen pa = none := by simp [raceAt, h, kfind]
    simp only [raceOf, h1]
    exact race_free h k seen r

/-- A state with nothing in flight, every link up, and no die or function out of use. -/
def clean (s : State) : Prop :=
  s.writes = [] ∧ s.poison = [] ∧ s.links = [] ∧ s.core.sq = [] ∧ isController s.coreId = false ∧
    (∀ d, (s.die d).retired = false) ∧ ∀ p, ((s.pf p).tdi == .error) = false

theorem clean_reaches {s : State} (h : clean s) (pa : Nat) : reaches s s.here pa = true := by
  obtain ⟨-, -, h3, -, -, h6, h7⟩ := h
  have hl : linked s s.here.toNat pa = true := by
    unfold linked
    split
    · simp [reachable, h3]
    · rfl
  have ho : outOfUse s s.here pa = false := by
    unfold outOfUse
    split
    · exact h6 _
    · exact h7 _
    · rfl
  simp [reaches, hl, ho]

theorem clean_readable {s : State} (h : clean s) (st : BitVec 4) (n : Nat) (pas : List Nat) : coreReadable s st n pas = true := by
  simp [coreReadable, readable, candidates, h.1]

theorem read_clean {s : State} (h : clean s) (st : BitVec 4) (n : Nat) :
    ∀ pas, coreRead st n pas s = (pas.map fun pa => ⟨memGet s.mem pa, false, 0, false⟩, s)
  | [] => rfl
  | pa :: r => by
    have hb : readByte s s.here .core s.core.own pa = (⟨memGet s.mem pa, false, 0, false⟩, s) := by
      simp [readByte, clean_reaches h, candidates, h.1, h.2.1]
    have hc : coreByte st n s pa = (⟨memGet s.mem pa, false, 0, false⟩, s) := by
      simp [coreByte, sqFind, h.2.2.2.1, h.2.2.2.2.1, hb]
    simp [coreRead, hc, observe, read_clean h st n r]

/-- A core with sump 0 of 64 entries of 8 bytes, `n` of them in use, and sump 1 not configured. -/
def sumper (n : BitVec 17) : State :=
  agent 0 fun c => withS [(1, 0x031004000400), (2, 0), (3, 0x031004000401)] (withK [(5, 0xF0)]
    { c with sumps := c.sumps.set 0 ⟨true, 0x400, 64, 1, 4, 0, n⟩ })

theorem witness_Sumps :
    let o : VOp := ⟨0, 0, 1, 5, .f32, false, false, 0⟩
    let fits (x : Sump) : Bool := x.cfg && x.tl.toNat == 1 && x.w.toNat == o.t.bits / 8
    let on := (List.range o.t.lanes).filter fun i => VOp.on o (sumper 0).core i
    fits ((sumper 0).core.sump 0) = true ∧ fits ((sumper 0).core.sump 1) = false ∧ on.length = 1 ∧
    ((sumper 63).core.sump 0).count.toNat + on.length ≤ ((sumper 63).core.sump 0).cap.toNat ∧
    ((sumper 64).core.sump 0).cap.toNat < ((sumper 64).core.sump 0).count.toNat + on.length ∧
    (sumper 0).core.dbgctl.getLsbD 0 = false ∧ (sumper 0).core.loadsBefore 0 (sumper 0).core.seq = true ∧
    (sumper 0).core.guard 0 = true := by decide +kernel

theorem witness_Sumps_memory :
    (∀ pas, raceOf (sumper 1) (sumper 1).coreId (sumper 1).core.seen pas = none) ∧
    ∀ pas, coreReadable (sumper 1) 0 (sumper 1).core.seq pas = true ∧
      ∀ b ∈ (coreRead 0 (sumper 1).core.seq pas (sumper 1)).1, b.poison = false :=
  have hc : clean (sumper 1) := ⟨rfl, rfl, rfl, rfl, by decide +kernel, by decide +kernel, by decide +kernel⟩
  ⟨race_free rfl _ _, fun pas => ⟨clean_readable hc _ _ _, fun b h => by
    rw [read_clean hc, List.mem_map] at h
    obtain ⟨_, _, rfl⟩ := h
    rfl⟩⟩

theorem witness_Sumps_configure :
    let good (v : Word) : Bool := v.toNat / 2 ^ 42 = 0 ∧ v.toNat % 2 ^ 20 % 16 = 0 ∧ v.toNat / 2 ^ 20 % 2 ^ 16 ≠ 0 ∧
      1 ≤ v.toNat / 2 ^ 36 % 8 ∧ v.toNat / 2 ^ 36 % 8 ≤ 4 ∧
      v.toNat % 2 ^ 20 + v.toNat / 2 ^ 20 % 2 ^ 16 * ((v.toNat / 2 ^ 36 % 8 + 1) * 2 ^ (v.toNat / 2 ^ 39 % 4)) ≤ 2 ^ 20
    (((sumper 0).core.rs 1).getLsbD 41 = true ∧ good ((sumper 0).core.rs 1) = true) ∧
    (((sumper 0).core.rs 3).getLsbD 41 = true ∧ good ((sumper 0).core.rs 3) = false) ∧ ((sumper 0).core.rs 2).getLsbD 41 = false := by
  decide +kernel

/-! ### Witnesses: the matrix array, the accumulators and ladders -/

/-- What WeightBuffer, AccumulatorMoves and LadderImages ask of the scratchpad reads of a slot that acts at its bundle: a core
with nothing in flight and no tags meets it. -/
theorem reads_now {s : State} (h : clean s) (ht : s.tags = []) (hd : s.core.dbgctl.getLsbD 0 = false)
    (hl : s.core.loadsBefore 0 s.core.seq = true) (pas : List Nat) :
    readsNow s pas (pas.map fun pa => ⟨memGet s.mem pa, false, 0, false⟩) s :=
  ⟨.inr (race_free ht _ _ pas), hd, hl, clean_readable h _ _ _, read_clean h 0 _ pas, fun b hb => by
    obtain ⟨_, _, rfl⟩ := List.mem_map.mp hb
    rfl⟩

theorem reads_twice {s : State} (h : clean s) (ht : s.tags = []) (hd : s.core.dbgctl.getLsbD 0 = false)
    (hl : s.core.loadsBefore 0 s.core.seq = true) (pas more : List Nat) :
    ∃ hs t bs u, readsNow s pas hs t ∧ readsMarked s t more bs u :=
  have g := reads_now h ht hd hl more
  ⟨_, s, _, s, reads_now h ht hd hl pas, g.1, g.2.1, g.2.2.1, g.2.2.2.1, g.2.2.2.2.1⟩

/-- A core with addresses at the ends of its local window and offsets at the ends of the weight buffer. -/
def pusher (f : CoreState → CoreState) : State :=
  agent 0 fun c => f (withS [(1, 131072 - 4096), (2, 131072 - 2048), (3, 131072 - 1984), (4, 1), (5, 0x1030), (6, 0x1031), (7, 0)]
    (withA [(1, 0x7FF0000FF000), (2, 0x7FF0000FF010), (3, 0x7FF0000FFFF0), (4, 0x7FF000000008)] c))

theorem witness_WeightBuffer_reads (n : Nat) :
    ∃ bs t, readsNow (pusher id) (localBytes (pusher id) 0xFF000 n) bs t :=
  ⟨_, _, reads_now ⟨rfl, rfl, rfl, rfl, by decide +kernel, by decide +kernel, by decide +kernel⟩ rfl (by decide +kernel)
    (by decide +kernel) _⟩

theorem witness_WeightBuffer :
    let c := (pusher id).core
    let m := BTile.zero
    let good (x : BitVec 4) (b : BitVec 6) (n : Nat) : Bool := 0x7FF000000000 ≤ (c.ra x).toNat ∧ (c.ra x).toNat + n ≤ 0x7FF000100000 ∧
      (c.ra x).toNat % 64 = 0 ∧ (c.rs b).toNat % 64 = 0 ∧ (c.rs b).toNat + n ≤ 131072
    (c.guard 0 = true ∧ (pusher id).coreId < 512 ∧ good 1 1 (64 * ((63#6).toNat + 1)) = true ∧ good 2 1 4096 = false ∧
      good 1 2 4096 = false) ∧
    (bfAccepts .bf16 c.bf = true ∧ bfAccepts .i4 c.bf = false) ∧
    ((c.rs 2).toNat % 64 = 0 ∧ (c.rs 2).toNat + tileBytes .bf16 false ≤ 131072 ∧ 131072 < (c.rs 3).toNat + tileBytes .bf16 false ∧
      (c.rs 4).toNat % 64 ≠ 0) ∧
    (c.wbufErr = [] ∧ c.fill.isNone = true) ∧
    (let e := (pusher fun c => { c with wbufErr := [131071], fill := some (m, 0) }).core
     e.wbufErr = [131071] ∧ (e.rs 2).toNat ≤ 131071 ∧ 131071 < (e.rs 2).toNat + tileBytes .bf16 false ∧ e.fill.isSome = true) := by
  decide +kernel

theorem witness_Beats :
    let s (fmt : BitVec 32) : State := pusher fun c => { c with fmt := fmt, ladders := c.ladders.set 1 ⟨true, 4, 2, Vector.replicate _ 0, 0, 0, 0, false, none⟩ }
    let formed (c : CoreState) : Bool := (c.af.toNat ≤ 5 ∧ c.bf.toNat ≤ 5 ∧ c.accf = 0) ∨
      ((c.af = 6 ∨ c.af = 7) ∧ (c.bf = 6 ∨ c.bf = 7) ∧ c.accf = 8)
    let pair (c : CoreState) : Bool := (c.af = 5 ∨ c.af = 7) ∧ (c.bf = 5 ∨ c.bf = 7)
    ((s 0).core.guard 0 = true ∧ (s 0).core.beat = none ∧ (s 0).core.fill.isNone = true ∧ (s 0).core.accErr = []) ∧
    (formed (s 0).core = true ∧ pair (s 0).core = false ∧ (s 0).core.accf = 0 ∧ (s 0).core.af ≠ 5 ∧ (s 0).core.af ≠ 7) ∧
    (formed (s 0x866).core = true ∧ pair (s 0x866).core = false) ∧ (formed (s 0x055).core = true ∧ pair (s 0x055).core = true) ∧
    (formed (s 0x877).core = true ∧ pair (s 0x877).core = true) ∧ (formed (s 0x006).core = false) ∧ formed (s 0x800).core = false ∧
    (31#5).toNat % 2 = 1 ∧ (30#5).toNat % 2 = 0 ∧ (s 0).core.owned (63#6).toNat = false ∧ (s 0).core.owned (4#6).toNat = true ∧
    (s 0).core.owned (5#6).toNat = true := by decide +kernel

/-- Beats of INT8, of INT4 pairs and of both, with and without SAT, on rows 0 and 30 of a tile, an active B of zeros. -/
theorem witness_IntegerBeats :
    let s (fmt : BitVec 32) : State := pusher fun c => { c with fmt := fmt }
    let ok (c : CoreState) : Bool := (c.af == 6 || c.af == 7) && (c.bf == 6 || c.bf == 7) && c.accf == 8 && c.guard 0 &&
      c.beat.isNone && c.fill.isNone && c.accErr.isEmpty && !c.owned (63#6).toNat
    (ok (s 0x866).core && ok (s 0x867).core && ok (s 0x876).core && ok (s 0x877).core) = true ∧
    (s 0x866).core.af = 6 ∧ ((s 0x877).core.af = 7 ∧ (s 0x877).core.bf = 7 ∧ (30#5).toNat % 2 = 0) ∧
    ((s 0x866).core.sat = false ∧ (s (0x866 ||| 0x80000)).core.sat = true) := by decide +kernel

theorem witness_IntegerBeats_weights (k j : Nat) (hk : k < 32) (hj : j < 32) :
    (pusher id).core.bActive.toArray[32 * k + j]? = some (Machine.Num.ofInt 0) := by
  have h : (pusher id).core.bActive = Vector.replicate 1024 Machine.Num.zero := rfl
  have : 32 * k + j < 1024 := by omega
  rw [h, Vector.toArray_replicate, Array.getElem?_replicate, if_pos this]
  rfl

/-- A ladder of rungs 48 to 63, with some of them occupied and in error. -/
def ladder16 (occ pz : BitVec 16) (ch : Option Chain) : Ladder := ⟨true, 48, 16, Vector.replicate _ 0, 3, occ, pz, false, ch⟩
def stepper (x : Ladder) : State := pusher fun c => { c with ladders := c.ladders.set 0 x }

theorem witness_AccumulatorMoves :
    let owning (c : CoreState) : CoreState := { c with ladders := c.ladders.set 1 ⟨true, 4, 2, Vector.replicate _ 0, 0, 0, 0, false, none⟩ }
    let s (fmt : BitVec 32) : State := pusher fun c => owning { c with fmt := fmt }
    let good (x : BitVec 4) : Bool := 0x7FF000000000 ≤ ((s 0).core.ra x).toNat ∧ ((s 0).core.ra x).toNat + 4096 ≤ 0x7FF000100000 ∧
      ((s 0).core.ra x).toNat % 16 = 0
    ((s 0).core.guard 0 = true ∧ (s 0).core.owned 63 = false ∧ (s 0).core.owned 4 = true ∧ (s 0).core.owned (2 * 79 / 32) = true ∧
      (s 0).core.owned (2 * 1023 / 32) = false) ∧
    ((s 0x8000).core.accf = 0 ∧ (s 0x8000).core.outf.toNat ≤ 8 ∧ rndReserved (s 0x8000).core.rnd = false ∧
      (s 0x8000).core.accErr = [] ∧ (s 0x8000).core.changing 63 = false) ∧
    ((s 0x8800).core.accf = 8 ∧ (s 0x8800).core.outf = 8) ∧
    (rndReserved (s 0x61000).core.rnd = true ∧ (s 0x61000).core.accf = 0 ∧ (s 0x61000).core.outf = 1 ∧ (s 0x1000).core.rnd ≠ 5) ∧
    (codeTy (s 0x5000).core.outf = .e2m1k ∧ codeTy (s 0x6800).core.outf ≠ .e2m1k ∧ (s 0x6800).core.accf = 8) ∧
    (let b := pusher fun c => owning { c with fmt := 0x1000, accErr := [32 * 2046 + 31] }
     b.core.owned (2 * 1023 / 32) = false ∧ b.core.rowBad 2046 = true ∧ (∃ i, i < 32 ∧ b.core.rowBad (32 * (63#6).toNat + i) = true)) ∧
    ((stepper (ladder16 0 0 (some .zero))).core.changing 63 = true ∧ (stepper (ladder16 0 0 (some .zero))).core.owned 63 = true) ∧
    ((s 0x100).core.accf ≠ 0 ∧ (s 0x100).core.accf ≠ 8) ∧
    8 < (s 0x9000).core.outf.toNat ∧ good 1 = true ∧ good 2 = false ∧ good 4 = false ∧ (s 0).coreId < 512 := by decide +kernel

theorem witness_AccumulatorMoves_memory (n : Nat) :
    (∃ bs t, readsNow (pusher id) (localBytes (pusher id) 0xFF000 n) bs t) ∧
    raceOf (pusher id) (pusher id).coreId (pusher id).core.seen (localBytes (pusher id) 0xFF000 4096) = none :=
  ⟨witness_WeightBuffer_reads n, race_free rfl _ _ _⟩

theorem witness_Ladders :
    let good (s : State) (l : BitVec 2) (a : BitVec 6) : Bool :=
      let v := (s.core.rs a).toNat
      v / 2 ^ 13 = 0 ∧ v / 64 % 4 = 0 ∧ v / 256 % 32 ≤ 16 ∧ v % 64 + v / 256 % 32 ≤ 64 ∧
        ∀ k, k ≠ l → ∀ i, i < v / 256 % 32 → (s.core.ladder k).owns (v % 64 + i) = false
    let s := stepper (ladder16 1 0 none)
    let busy := stepper (ladder16 1 0 (some .zero))
    (s.core.guard 0 = true ∧ good s 0 5 = true ∧ good s 0 7 = true ∧ good s 0 6 = false ∧ good s 1 5 = false) ∧
    ((s.core.ladder 0).chain = none ∧ (s.core.ladder 0).cfg = true ∧ (s.core.ladder 1).cfg = false ∧ (s.core.ladder 1).chain = none) ∧
    ((busy.core.ladder 0).chain ≠ none ∧ good busy 0 5 = true) ∧
    (s.core.owned (47#6).toNat = false ∧ s.core.owned (48#6).toNat = true ∧ s.core.owned (63#6).toNat = true) ∧
    ((s.core.ladder 0).occ &&& (s.core.ladder 0).pz = 0 ∧
      ((stepper (ladder16 1 1 none)).core.ladder 0).occ &&& ((stepper (ladder16 1 1 none)).core.ladder 0).pz ≠ 0 ∧
      ((stepper (ladder16 0 0 none)).core.ladder 0).occ = 0) ∧
    ((15#4).toNat < (s.core.ladder 0).n.toNat ∧ (s.core.ladder 0).pz.getLsbD (15#4).toNat = false ∧
      (s.core.ladder 1).n.toNat ≤ (0#4).toNat) := by decide +kernel

theorem witness_LadderChains :
    let t := List.replicate 32 (0 : AccRow)
    let x (occ : BitVec 16) (n : BitVec 5) : Ladder := { ladder16 occ 0 (some (.step t true)) with n := n }
    let at1 (occ : BitVec 16) (n : BitVec 5) : Ladder := (stepper (x occ n)).core.ladder 0
    t.length = 32 ∧ ((stepper (ladder16 1 0 (some .zero))).core.ladder 0).chain = some .zero ∧
    ([(0 : BitVec 16), 1, 2, 0x7FFF, 0xFFFF].all fun o => (at1 o 16).chain == some (.step t true) && (at1 o 16).occ == o) = true ∧
    (0 < (at1 0 1).n.toNat ∧ (at1 0 1).occ.getLsbD 0 = false) ∧
    (15 < (at1 0x7FFF 16).n.toNat ∧ (∀ k, k < 15 → (at1 0x7FFF 16).occ.getLsbD k = true) ∧ (at1 0x7FFF 16).occ.getLsbD 15 = false) ∧
    ((∀ k, k < 15 → (at1 0xFFFF 16).occ.getLsbD k = true) ∧ (at1 0xFFFF 16).occ.getLsbD 15 = true ∧
      15 + 1 = (at1 0xFFFF 16).n.toNat) ∧
    ((at1 1 1).occ.getLsbD 0 = true ∧ 0 + 1 = (at1 1 1).n.toNat) := by decide +kernel

theorem witness_LadderImages :
    let s := stepper (ladder16 0 0 none)
    let inside (x : BitVec 4) (n : Nat) : Bool := 0x7FF000000000 ≤ (s.core.ra x).toNat ∧ (s.core.ra x).toNat + n ≤ 0x7FF000100000
    (s.core.guard 0 = true ∧ s.coreId < 512 ∧ (s.core.ra 3).toNat % 16 = 0 ∧ inside 3 16 = true ∧ inside 3 17 = false ∧
      (s.core.ra 4).toNat % 16 ≠ 0) ∧
    (inside 3 (ladderImage s.core (s.core.ladder 0)).length = true ∧ (s.core.ladder 0).chain = none ∧ (s.core.ladder 0).cfg = true ∧
      (s.core.ladder 1).cfg = false) ∧
    (let b := stepper (ladder16 0 0 (some .zero))
     (b.core.ladder 0).chain ≠ none ∧ inside 3 (ladderImage (chainEnd b.core 0) ((chainEnd b.core 0).ladder 0)).length = true) ∧
    (let o := (stepper (ladder16 1 0 none)).core
     inside 3 (ladderImage (chainEnd o 0) ((chainEnd o 0).ladder 0)).length = false) := by decide +kernel

/-- The headers that a ladder of 16 rungs takes, and those that it refuses: another N, a reserved bit of byte 9, a reserved byte,
and a PZ bit without its OCC bit; one of 15 rungs also refuses an OCC bit at 15. -/
theorem witness_LadderImages_heads :
    let fits (n : Nat) (h : List Byte) : Bool :=
      let occ := BitVec.ofNat 16 (fieldNat h 4 2)
      let pz := BitVec.ofNat 16 (fieldNat h 6 2)
      decide (fieldNat h 8 1 = n ∧ fieldNat h 9 1 ≤ 1 ∧ fieldNat h 10 6 = 0 ∧ occ.toNat < 2 ^ n ∧ pz.toNat < 2 ^ n ∧
        ((List.range 16).all fun k => !pz.getLsbD k || occ.getLsbD k) = true)
    let head (occ pz : Nat) (r : List Byte) : List Byte := bytesOfNat 4 9 ++ bytesOfNat 2 occ ++ bytesOfNat 2 pz ++ r
    fits 16 (head 0 0 [16, 1, 0, 0, 0, 0, 0, 0]) = true ∧ fits 16 (head 0x8001 0x8000 [16, 0, 0, 0, 0, 0, 0, 0]) = true ∧
    fits 16 (head 0 0 [15, 0, 0, 0, 0, 0, 0, 0]) = false ∧ fits 16 (head 0 0 [16, 2, 0, 0, 0, 0, 0, 0]) = false ∧
    fits 16 (head 0 0 [16, 0, 0, 0, 0, 0, 0, 1]) = false ∧ fits 16 (head 1 2 [16, 0, 0, 0, 0, 0, 0, 0]) = false ∧
    fits 15 (head 0x8000 0 [15, 0, 0, 0, 0, 0, 0, 0]) = false ∧ fits 15 (head 0x4000 0 [15, 0, 0, 0, 0, 0, 0, 0]) = true := by
  decide +kernel

theorem witness_LadderImages_memory :
    let s := { stepper (ladder16 0 0 none) with mem := [(spAddr 0 0xFFFF0, 9), (spAddr 0 0xFFFF8, 16)] }
    (∃ bs t, readsNow s (localBytes s 0xFFFF0 16) bs t) ∧
    raceOf s s.coreId s.core.seen (localBytes s 0xFFFF0 (ladderImage s.core (s.core.ladder 0)).length) = none ∧
    imageHead ((localBytes s 0xFFFF0 16).map fun pa => memGet s.mem pa) 16 = some (9, 0, 0, false) :=
  ⟨⟨_, _, reads_now ⟨rfl, rfl, rfl, rfl, by decide +kernel, by decide +kernel, by decide +kernel⟩ rfl (by decide +kernel)
    (by decide +kernel) _⟩, race_free rfl _ _ _, by decide +kernel⟩

/-- The image at `a1`, of one rung in its highest place, which the scratchpad's last bytes hold up to 16. -/
theorem witness_LadderImages_rungs :
    let s := { stepper (ladder16 0 0 none) with mem := [(spAddr 0 0xFE005, 0x80), (spAddr 0 0xFE008, 16)] }
    (∃ hs t bs u, readsNow s (localBytes s 0xFE000 16) hs t ∧ readsMarked s t (localBytes s 0xFE010 4096) bs u) ∧
    imageHead ((localBytes s 0xFE000 16).map fun pa => memGet s.mem pa) 16 = some (0, 0x8000, 0, false) :=
  ⟨reads_twice ⟨rfl, rfl, rfl, rfl, by decide +kernel, by decide +kernel, by decide +kernel⟩ rfl (by decide +kernel)
    (by decide +kernel) _ _, by decide +kernel⟩

/-! ### Witnesses: firmware, the partition controller, the package -/

def service : TrapInfo := TrapInfo.mk0 0x01 0 0 0
def event (k : BitVec 8) (h : Bool) : DieEvent := ⟨{ service with kind := k }, 3, 1, 0, 5, h⟩

theorem witness_EventEntry :
    let s (k : BitVec 8) : State := (agent 512 id).mapDie 0 fun d => { d with
      fstat := 1, fvec := 0x100, flprod := 1023, flcons := 0, events := [event 0 true, event k false] }
    ([(0 : BitVec 8), 2].all fun k => ((s k).agent (512 + (0#2).toNat)).run == .running && ((s k).die 0).fstat.getLsbD 0 &&
      !((s k).die 0).fstat.getLsbD 1 && ((s k).die 0).events.find? (fun e => !e.handled) == some (event k false) &&
      (event k false).info.kind != 1 && ((s k).die 0).flprod - ((s k).die 0).flcons != 1024) = true := by decide +kernel

/-- No agent of a state with none parked waits for an entry of the event queue. -/
theorem none_waiting {s : State} (hp : s.parked = []) (hc : s.core.run = .running) (k : Nat) (t : TrapInfo) (m : Nat) :
    (s.agent k).run ≠ .suspended t m false := by
  unfold State.agent
  split
  · simp [hc]
  · simp only [hp, kfind, Option.getD_none, State.idle, CoreState.fresh]
    split <;> simp

theorem witness_FirmwareRegisters (k : Nat) (t : TrapInfo) (m : Nat) :
    ((agent 512 id).agent k).run ≠ .suspended t m false ∧ ((agent 512 id).die 0).late = [] :=
  ⟨none_waiting rfl rfl k t m, by decide +kernel⟩

/-- Core 511 suspended at a service or an ending trap, its controller on turn. -/
def suspended511 (t : TrapInfo) : State :=
  { agent 515 id with parked := [(511, { CoreState.fresh (.suspended t 5 true) with task := some task0 })] }

theorem witness_CoreWords :
    let ending := suspended511 { service with kind := 1 }
    let gang := (suspended511 service).mapDie 0 fun d => { d with active := { d.active with gangs := [⟨1, 0, [511, 3], 2, false, []⟩] } }
    (((suspended511 service).agent 511).run = .suspended service 5 true ∧ service.kind = 0 ∧ (511 : Nat) < 512) ∧
    ((ending.agent 511).run = .suspended { service with kind := 1 } 5 true ∧ endReady ending 511 = true ∧
      (ending.die (dieOf 511)).flprod - (ending.die (dieOf 511)).flcons ≠ 1024) ∧
    (((suspended511 service).agent 0).task = none ∧ (gang.agent 511).task = some task0 ∧
      findGang gang task0 = some ⟨1, 0, [511, 3], 2, false, []⟩) := by decide +kernel

theorem witness_CoreWords_running (t : TrapInfo) (n : Nat) : ((agent 512 id).agent 0).run ≠ .suspended t n true := by
  simp [State.agent, agent, State.reset, kfind, State.idle, CoreState.fresh]
  split <;> simp

theorem witness_Resets :
    let s := (agent 512 id).mapDie 0 fun d => { d with dctl := 3 }
    coreIdle s 0 = true ∧ (s.die 0).dctl.getLsbD 0 = true ∧ (s.die 0).dctl.getLsbD 1 = true ∧ bound s 0 = false := by
  decide +kernel

/-- The partition controller with one command at the head of its queue. -/
def chief (p : BitVec 2) (c : BitVec 32) (arg : Word) (m : List Host.Cell) (f : DieState → DieState) : State :=
  let s := { agent 512 id with mem := m, xd0 := { Xd0.reset with queue := [.mailbox p c arg], phase := 4 } }
  s.mapDie 0 f

theorem heads_chief {p : BitVec 2} {c : BitVec 32} {arg : Word} {m : List Host.Cell} {f : DieState → DieState} {op : Nat}
    (h : c.toNat % 256 = op ∧ c.toNat < 2 ^ 24 ∧ p.toNat < partCount (chief p c arg m f).xd0.mode ∧ (p = 0 ∨ op ∉ [4, 5, 7, 8])) :
    heads (chief p c arg m f) p c arg op := ⟨⟨[], rfl⟩, rfl, h⟩

/-- A context record of PASID 1 with virtual die 0 on die 0. -/
def ctxMem : List Host.Cell := [(2 ^ 64 + 0x100, 1), (2 ^ 64 + 0x103, 0x80), (2 ^ 64 + 0x104, 0x80)]
def holding (d : DieState) : DieState := { d with active := { d.active with ctxs := [(63, { ctx0 with vdt := [some 0, none, none, none] })] } }
def recordAt (s : State) (arg : Word) : List Byte := (List.range 256).map fun i => (byteAt s (2 ^ 64 + (arg.toNat + i) % 2 ^ 64)).1

theorem witness_Contexts_create :
    let s := chief 0 0x3F01 0x100 ctxMem id
    let t := chief 0 0x3F01 0x100 [] id
    let u := chief 0 0x3F01 0x100 ctxMem holding
    (heads s 0 0x3F01 0x100 1 ∧ heads t 0 0x3F01 0x100 1 ∧ heads u 0 0x3F01 0x100 1) ∧ parseCtx (recordAt t 0x100) = none ∧
    (match parseCtx (recordAt s 0x100) with
      | some x => !assigned s 0 && vdtOk s 0 x.vdt && (allCtxs s 0).all (fun y => y.2.pasid != x.pasid) && (findCtx s 0 63).isNone && (s.pf 0).tdi != .error
      | none => false) = true ∧ findCtx u 0 63 ≠ none :=
  ⟨⟨heads_chief (by decide +kernel), heads_chief (by decide +kernel), heads_chief (by decide +kernel)⟩, by decide +kernel⟩

theorem witness_Contexts_destroy :
    let none_ := chief 0 0x3F02 0 [] id
    let idle := chief 0 0x3F02 0 [] holding
    let busy := chief 0 0x3F02 0 [] fun d => { holding d with splices := [(7, splice0)] }
    let x : Ctx := { ctx0 with vdt := [some 0, none, none, none] }
    (heads none_ 0 0x3F02 0 2 ∧ heads idle 0 0x3F02 0 2 ∧ heads busy 0 0x3F02 0 2) ∧ assigned idle 0 = false ∧
    findCtx none_ 0 63 = none ∧ (findCtx idle 0 63 = some x ∧ destroyBusy idle 0 x = false) ∧
    (findCtx busy 0 63 = some x ∧ destroyBusy busy 0 x = true) :=
  ⟨⟨heads_chief (by decide +kernel), heads_chief (by decide +kernel), heads_chief (by decide +kernel)⟩, by decide +kernel⟩

theorem witness_PartitionCommands_swap :
    let idle := chief 0 3 0 [] holding
    let busy := chief 0 3 0 [] fun d => { holding d with splices := [(7, splice0)] }
    (heads idle 0 3 0 3 ∧ heads busy 0 3 0 3) ∧ (∀ x ∈ activeCtxs idle 0, inUse idle 0 x.2.pasid = false) ∧
    (∃ x ∈ activeCtxs busy 0, inUse busy 0 x.2.pasid = true) ∧
    ({ idle.xd0 with busy := true }.queue = .mailbox 0 3 0 :: [] ∧ { idle.xd0 with busy := true }.revoke = none) :=
  ⟨⟨heads_chief (by decide +kernel), heads_chief (by decide +kernel)⟩, by decide +kernel⟩

theorem witness_PartitionCommands_retire :
    let s := chief 0 0x30005 0 [] holding
    let t := chief 0 0x00005 0 [] holding
    (heads s 0 0x30005 0 5 ∧ heads t 0 0x00005 0 5) ∧ bound s (BitVec.ofNat 2 3) = false ∧ bound t (BitVec.ofNat 2 0) = true :=
  ⟨⟨heads_chief (by decide +kernel), heads_chief (by decide +kernel)⟩, by decide +kernel⟩

theorem witness_PartitionCommands_mode :
    let s (c : BitVec 32) := chief 0 c 0 [] id
    (heads (s 0x30004) 0 0x30004 0 4 ∧ heads (s 0x20004) 0 0x20004 0 4 ∧ heads (s 0x00004) 0 0x00004 0 4) ∧
    (0x30004#32).toNat / 65536 % 256 = 3 ∧ (0x00004#32).toNat / 65536 % 256 = (s 4).xd0.mode.toNat ∧
    (0x20004#32).toNat / 65536 % 256 ≠ (s 4).xd0.mode.toNat ∧ (∀ q, assigned (s 0x20004) q = false) ∧
    (∀ d, allCtxs (s 0x20004) (partOfDie (s 0x20004).xd0.mode d) = []) ∧ (∀ d, coreIdle (s 0x20004) d = true) ∧
    (∀ q, hostAsked (s 0x20004) q = false) :=
  ⟨⟨heads_chief (by decide +kernel), heads_chief (by decide +kernel), heads_chief (by decide +kernel)⟩, by decide +kernel⟩

theorem witness_PartitionCommands_revoke :
    let s := chief 0 0x3F06 0 [] holding
    let t := chief 0 0x4006 0 [] holding
    let u := { s with xd0 := { s.xd0 with busy := true, revoke := some (63, 0x100000000, 4096) } }
    (heads s 0 0x3F06 0 6 ∧ heads t 0 0x4006 0 6) ∧ (0x3F06#32).toNat / 256 % 256 = 63 ∧ (0x4006#32).toNat / 256 % 256 = 64 ∧
    (u.xd0.revoke = some (63, 0x100000000, 4096) ∧ u.xd0.queue = .mailbox 0 0x3F06 0 :: [] ∧ u.xd0.busy = true ∧
      overlapped u 0 63 0x100000000 4096 = [] ∧ findCtx u 0 63 ≠ none ∧ allStakes u = []) ∧
    ((s.pf 0).tdi ≠ .error ∧ slotsFor s [] = true) :=
  ⟨⟨heads_chief (by decide +kernel), heads_chief (by decide +kernel)⟩, by decide +kernel⟩

/-- A KEYLOAD record for slot 1023 and session 1; a KEYMAP record of the last entry and slot 1023. -/
def keyMem : List Host.Cell := [(2 ^ 64, 0xFF), (2 ^ 64 + 1, 3), (2 ^ 64 + 4, 1)]
def mapMem : List Host.Cell :=
  [(2 ^ 64, 0xBF), (2 ^ 64 + 1, 0), (2 ^ 64 + 2, 5), (2 ^ 64 + 4, 1), (2 ^ 64 + 8, 0xFF), (2 ^ 64 + 9, 3)]

theorem witness_Keys_load :
    let s := chief 0 7 0 keyMem id
    let t := s.setPf 0 { s.pf 0 with sessions := [1] }
    let b := (List.range 112).map fun i => (byteAt s (2 ^ 64 + i)).1
    (heads s 0 7 0 7 ∧ heads t 0 7 0 7) ∧ fieldNat b 0 2 = 1023 ∧ fieldNat b 2 2 = 0 ∧ fieldNat b 100 12 = 0 ∧
    (s.pf 0).sessions.contains (fieldNat b 4 4) = false ∧ (t.pf 0).sessions.contains (fieldNat b 4 4) = true ∧ (t.pf 0).tdi ≠ .error :=
  ⟨⟨heads_chief (by decide +kernel), ⟨[], rfl⟩, rfl, by decide +kernel⟩, by decide +kernel⟩

theorem witness_Keys_map :
    let s := chief 0 8 0 mapMem id
    let t := chief 0 8 0 [] id
    let b (s : State) := (List.range 16).map fun i => (byteAt s (2 ^ 64 + i)).1
    (heads s 0 8 0 8 ∧ heads t 0 8 0 8) ∧ fieldNat (b s) 0 4 + fieldNat (b s) 4 4 = keyMapSize ∧ fieldNat (b s) 4 4 ≠ 0 ∧
    fieldNat (b s) 8 2 = 1023 ∧ fieldNat (b s) 10 6 = 0 ∧ (∀ q, assigned s q = false) ∧ (s.pf 0).tdi ≠ .error ∧ fieldNat (b t) 4 4 = 0 :=
  ⟨⟨heads_chief (by decide +kernel), heads_chief (by decide +kernel)⟩, by decide +kernel⟩

theorem witness_Boot :
    let rom := State.reset
    let load (ph : BitVec 4) : State := { rom with xd0 := { rom.xd0 with queue := [.load], phase := ph } }
    let used := (load 4).mapDie 0 holding
    let short : State := { rom with xd0 := { rom.xd0 with phase := 2, blen := 0 } }
    (rom.powered = true ∧ rom.xd0.phase = 0) ∧ { rom with powered := false }.powered = false ∧
    ([(1 : BitVec 4), 4, 5].all fun ph => !(load ph).xd0.busy && (load ph).xd0.queue.head? == some .load &&
      (load ph).xd0.phase == ph && !anyContext (load ph)) = true ∧
    (used.xd0.phase = 4 ∧ anyContext used = true) ∧ (short.xd0.phase = 2 ∧ imageError short [] = 1) ∧
    ({ rom.xd0 with phase := 3 }.phase = 3 ∧ ∀ d, coreIdle { rom with xd0 := { rom.xd0 with phase := 3 } } d = true) := by
  decide +kernel

theorem witness_Bar0 :
    let s := State.reset
    let owned (a len : Nat) : Bool := (List.range len).all fun i => regionOf (a + i) != .control && regionOf (a + i) != .none &&
      regionOf (a + i) != .host && partOwns s.xd0.mode (0#2).toNat (a + i)
    let run := s.setPf 0 { s.pf 0 with tdi := .run }
    (s.pf 1).active = false ∧ (∀ b, barOpen s 0 b = true) ∧ ((run.pf 0).tdi = .run ∧ barOpen run 0 true = true) ∧
    linked s hostSocket 0x4000000000 = true ∧ owned 0x4000000000 8 = true ∧ owned (spAddr 511 0xFFFF8) 8 = true ∧
    Config.controlEnd ≤ 0x4000000000 ∧ 0x4000000000 + 8 ≤ 2 ^ 40 ∧ (List.replicate 8 (3 : Byte)).length = 8 ∧
    (regionOf (2 ^ 40 - 1) = .none ∧ 0 < 1 ∧ 2 ^ 40 - 1 + 1 ≤ 2 ^ 40) := by decide +kernel

theorem witness_PowerAndCooling :
    let s := State.reset
    let hot : State := { s with time := 13000000, xd0 := { s.xd0 with cutting := true, hot := true } }
    let rates : List (BitVec 4) := [8, 0, 0, 1]
    let given (d : BitVec 2) : Nat := if (rates.getD d.toNat 0) = 0 then 16 else (rates.getD d.toNat 0).toNat
    s.xd0.pwrcap.toNat < 4401 ∧ 950 < 951 ∧ rates.length = 4 ∧ (∀ d, given d ≤ (s.xd0.rates.get d.toFin).toNat) ∧
    given 0 ≠ (s.xd0.rates.get (0#2).toFin).toNat ∧ (1100 ≤ 1100 ∧ hot.xd0.hot = true) ∧
    (hot.xd0.cutting = true ∧ 4400 ≤ s.xd0.pwrcap.toNat) ∧ (1100 < 1101 ∧ s.xd0.hot = false) ∧
    (1150 < 1151 ∧ hot.xd0.hot = true ∧ hot.xd0.hotAt + 13000000 ≤ hot.time) := by decide +kernel

theorem witness_Functions :
    let s := State.reset
    let bit : BitVec 80 := 1#80 <<< 79
    let t := { s.setPf 0 { s.pf 0 with sessions := [5], sent := [(79, 0)], pending := bit, flr := true } with time := microsecond }
    let u := { t.setPf 0 { t.pf 0 with again := bit, mask := 0 } with time := microsecond }
    let ctx := s.mapDie 0 holding
    ((s.pf 0).flr = false ∧ (s.pf 1).active = false ∧ (ctx.pf 0).active = true ∧ (findCtx ctx 0 63).isSome = true ∧
      inUse ctx 0 1 = false) ∧
    ((t.pf 0).active = true ∧ (t.pf 0).flr = true ∧ slotsOf (destroyIdle (destroyShadow (discardAll t 0) 0) 0) 0 = []) ∧
    ((⟨some 5, .lock⟩ : TdispMsg).session = some 5 ∧ 5 ∈ (t.pf 0).sessions ∧ 6 ∉ (t.pf 0).sessions ∧
      (⟨none, .start⟩ : TdispMsg).session = none) ∧
    ((79#7).toNat < 80 ∧ (s.pf 0).pending.getLsbD (79#7).toNat = false ∧ (t.pf 0).pending.getLsbD (79#7).toNat = true ∧
      (t.pf 0).tdi ≠ .error ∧ heldOff t (t.pf 0) (79#7).toNat = false) ∧
    ((kfind (t.pf 0).sent (79#7).toNat).isSome = true ∧ (t.pf 0).again.getLsbD (79#7).toNat = false) ∧
    ((kfind (u.pf 0).sent (79#7).toNat).isSome = true ∧ heldOff u (u.pf 0) (79#7).toNat = false ∧
      (u.pf 0).again.getLsbD (79#7).toNat = true ∧ (u.pf 0).active = true ∧ (u.pf 0).tdi ≠ .error ∧
      (u.pf 0).mask.getLsbD (79#7).toNat = false) := by decide +kernel

theorem witness_Errors :
    let s := State.reset
    let c := { cmd0 .tensor body0 with pieces := [piece0 .face true 0] }
    let t := { s with cmds := [c] }
    let v := (stepper (ladder16 1 0 none)).mapDie 0 fun d => { d with active := { d.active with ctxs := [(63, ctx0)] } }
    (1 ≤ (1#8).toNat ∧ (7#8).toNat ≤ 7 ∧ 2 ^ 64 - 1 < 2 ^ 64 ∧ (1#8).toNat < 2) ∧ (∀ p ∈ activeFaces s 0, 2559 ∉ p.units) ∧
    (c ∈ t.cmds ∧ c.pieces[0]? = some (piece0 .face true 0) ∧ (piece0 .face true 0).site = .face ∧
      (piece0 .face true 0).started = true ∧ (piece0 .face true 0).out = none ∧ (piece0 .face true 0).fate = 0 ∧
      (piece0 .face true 0).wrote = false ∧ (piece0 .face true 0).home / 32 + 4 = (4#16).toNat % 16 ∧
      (4#16).toNat / 16 ∈ (piece0 .face true 0).units ∧ (∃ p ∈ activeFaces t 0, 0 ∈ p.units)) ∧
    (kfind (v.die 0).active.ctxs 63 = some ctx0 ∧ ctx0.vdt.contains (some 2) = true) ∧
    ((v.core.ladder 0).owns ((1536#11).toNat / 32) = true ∧ (v.core.ladder 0).owns ((2047#11).toNat / 32) = true) ∧
    (isLink 0 = true ∧ isLink 33 = false ∧ isLink 32 = true ∧ (kget ⟨0, false⟩ s.links 0).down = false) ∧
    (regionOf 0x4000000000 = .stack ∧ regionOf (spAddr 0 0) = .sp 0 ∧ regionOf Config.poolBase = .pool 0) := by decide +kernel

/-! ### Witnesses: bundles, landing, encoding, the invariant -/

/-- The die controller at the start of stack memory, where four words of a bundle lie (R140). -/
def issuer (w : BitVec 128) (f : CoreState → CoreState) : State :=
  { agent 512 fun c => f { c with pc := 0x4000000000 } with
    mem := ((List.range 16).map fun i => (0x4000000000 + i, w.extractLsb' (8 * i) 8)).filter fun p => p.2 ≠ 0 }

/-- The slots of a list, one after another, none of them trapping or holding. -/
def slotsRun : List Instr → State → Option State
  | [], s => some s
  | i :: r, s => match exec i s with
    | .next u => if u.sig = .none then slotsRun r u else none
    | _ => none

/-- The agent on turn issues next (Obligations.issuesNext). -/
def mayIssue (s : State) : Bool :=
  s.powered && s.agenda.isEmpty && s.time % 2 == 0 && s.agents.all (fun a => !mcastDue s a.2) && s.core.deferred.isNone &&
    s.core.run == .running && s.core.after.isEmpty && s.core.post.isNone && s.core.drainReq.isNone

/-- The slots of a bundle. -/
def slotsOf (w : BitVec 128) : List Instr :=
  match decodeBundle w with
  | .ok b => bundleSlots b
  | .error _ => []

def ready (s : State) (w : BitVec 128) : Bool :=
  let s0 := landDue (ageLoads s) s.core.bcnt.toNat
  mayIssue s && fetch s == .ok w && !clash (slotsOf w) && !(slotsOf w).any (illegalNumber s0) && !notReady s0.core (slotsOf w)

/-- The bundle of some instructions, each in its slot, with no header. -/
def bundleOf (is : List Instr) : BitVec 128 :=
  is.foldl (fun w i => match encode i with
    | some e => w ||| (e.word.setWidth 128 <<< (32 * e.slot))
    | none => w) 0

/-- SUB s7, s0, #4 and VMAX v5; the same with a WAIT of the tensor counter. -/
def sub7 : Instr := .sub ⟨7, 0, 4, true, 0⟩
def vmax5 : Instr := .vmax ⟨5, 1, 2, 0, .n32, false, false, 0⟩
def bundle0 : BitVec 128 := bundleOf [sub7, vmax5]
def bundleWait : BitVec 128 := bundleOf [sub7, .wait 8 0 0, vmax5]

theorem witness_StepRunsBundle :
    let s := issuer bundle0 id
    let s0 := landDue (ageLoads s) s.core.bcnt.toNat
    ready s bundle0 = true ∧ (slotsOf bundle0).length = 4 ∧ (∀ i ∈ slotsOf bundle0, earlyRead s0.core i = false) ∧
    ((slotsRun (slotsOf bundle0) s0).map fun t => t.core.post) = some none := by decide +kernel

theorem witness_Fetches :
    let s := issuer bundle0 id
    let e : TlbEntry := ⟨1, 0x100000000, 4096, 0x4000000000, true, false, true⟩
    let t := { (tasked 0 fun c => { c with pc := 0x100000000 }).mapDie 0 (fun d => { d with icache := [e] }) with mem := s.mem }
    (isController s.coreId = true ∧ controllerByte s s.core.pc.toNat = none ∧ s.core.pc.toNat = 0x4000000000) ∧
    (isController t.coreId = false ∧ physFault t true 0x4000000000 = none ∧
      (reaches s s.here 0x4000000000 = true ∧ reaches t t.here 0x4000000000 = true) ∧
      tlbFind (t.die t.here).icache t.pasid t.core.pc.toNat = some e ∧ 0x4000000000 = e.pa + (t.core.pc.toNat - e.va)) ∧
    (∀ i, i < 16 → (byteAt s (0x4000000000 + i)).2 = false ∧ (byteAt t (0x4000000000 + i)).2 = false) := by decide +kernel

/-- Of BundleTraps: an undefined pattern in slot 0, two slots that write `s7`, and a slot 3 that traps after three that do not. -/
theorem witness_BundleTraps :
    let bad : BitVec 128 := 1
    let twice := bundleOf [sub7, .kpopc ⟨7, 3, 0, 0, .f32, false, false, 0⟩]
    let mldb := bundleOf [sub7, vmax5, .mldb .i4 false 1 0]
    let bare := bundleOf [.mfs 7 0xFFF 9]
    (mayIssue (issuer bad id) && fetch (issuer bad id) == .ok bad && (match decodeBundle bad with | .error _ => true | .ok _ => false)) =
      true ∧
    (mayIssue (issuer twice id) && fetch (issuer twice id) == .ok twice && clash (slotsOf twice)) = true ∧
    (mayIssue (issuer bare id) && fetch (issuer bare id) == .ok bare && !clash (slotsOf bare) &&
      (slotsOf bare).any (illegalNumber (issuer bare id))) = true ∧
    (ready (issuer mldb id) mldb = true ∧
      (match slotsOf mldb with
        | [a, b, c, i] => (match slotsRun [a, b, c] (issuer mldb id) with
          | some t => (match exec i t with
            | .next u => (match u.sig with
              | .trapped e => e.cause == 0x12
              | _ => false)
            | _ => false)
          | none => false)
        | _ => false) = true ∧
      ∀ i ∈ slotsOf mldb, earlyRead (issuer mldb id).core i = false) := by decide +kernel

theorem witness_BundleHolds :
    let s := issuer bundleWait fun c => { c with cnt := { c.cnt with tn := 1 } }
    let s0 := landDue (ageLoads s) s.core.bcnt.toNat
    ready s bundleWait = true ∧ (runSlots s0 (slotsOf bundleWait)).trap = none ∧
    (match slotsOf bundleWait with
      | [a, i, _, _] => (match slotsRun [a] s0 with
        | some t => (match exec i t with
          | .next u => (match u.sig with
            | .held _ _ => true
            | _ => false)
          | _ => false)
        | none => false)
      | _ => false) = true := by decide +kernel

/-- Of SlotsAnswer, SlotFrames and MemoryFrames. -/
theorem witness_SlotFrames :
    let i : Instr := .sub ⟨7, 0, 4, true, 0⟩
    isEvent i = false ∧ (slotsRun [i] (agent 0 id)).isSome = true ∧ isEvent .nop = false ∧ isEvent (.fence 0 .die 0 0) = false := by
  decide +kernel

/-- Of the clauses of SlotFrames and MemoryFrames: an instruction that is none of those named. -/
theorem witness_SlotFrames_others :
    (∀ l x b g, Instr.sub ⟨7, 0, 4, true, 0⟩ ≠ .mwbf l x b g) ∧ (∀ o, Instr.sub ⟨7, 0, 4, true, 0⟩ ≠ .mpush o) ∧
    (∀ sz d m g, Instr.sub ⟨7, 0, 4, true, 0⟩ ≠ .ld sz .fec d m g) ∧
    (∀ d e t x g, Instr.sub ⟨7, 0, 4, true, 0⟩ ≠ .splarv d e t x g) := ⟨nofun, nofun, nofun, nofun⟩

theorem witness_Landing :
    let s := agent 0 fun c => { c with pend := [⟨.s 5 1, 3, 2, none⟩, ⟨.s 5 2, 3, 2, some 9⟩, ⟨.v 6 1, 2, 2, none⟩, ⟨.s 7 9, 4, 2, none⟩] }
    s.core.pend = [⟨.s 5 1, 3, 2, none⟩] ++ ⟨.s 5 2, 3, 2, some 9⟩ :: [⟨.v 6 1, 2, 2, none⟩, ⟨.s 7 9, 4, 2, none⟩] ∧ 3 ≤ 3 ∧ 5#6 ≠ 0 ∧
    (∀ p ∈ [(⟨.v 6 1, 2, 2, none⟩ : Pend), ⟨.s 7 9, 4, 2, none⟩], p.due ≤ 3 → p.w.dest ≠ some (.s 5)) ∧
    (∀ p ∈ s.core.pend, p.due ≤ 3 → p.w.dest ≠ some (.s 7)) ∧ (∀ p ∈ (agent 0 id).core.pend, 3 < p.due) ∧
    (∀ p ∈ [(⟨.s 7 9, 4, 2, none⟩ : Pend)], p.due ≤ 3 → p.w.dest ≠ some (.v 6)) := by decide +kernel

theorem witness_FlagLanding :
    let p : Pend := ⟨.flags 3, 5, 1, none⟩
    let q : Pend := ⟨.sys 0x011 0x1F, 4, 3, none⟩
    let s := agent 0 fun c => { c with pend := [p, q] }
    let t := agent 0 fun c => { c with pend := [q, p] }
    p.due ≤ 5 ∧ q.due ≤ 5 ∧ s.core.pend = [p, q] ∧ t.core.pend = [q, p] := by decide +kernel

theorem witness_SystemWrites : (0x1_0000_0001#64).setWidth 32 ≠ 0#32 ∧ (0x1_0000_0000#64).setWidth 32 = 0#32 := by decide

/-- Of TrapEntry: a queue with room for one event, and a full one. -/
theorem witness_TrapEntry :
    (List.replicate 1023 (event 0 true)).length < 1024 ∧ ¬ (List.replicate 1024 (event 0 true)).length < 1024 ∧
    (tasked 0 id).core.task = some task0 ∧ (1 : BitVec 2) ≠ (tasked 0 id).here := by
  simp only [List.length_replicate]; decide +kernel

/-- Of DecodesWellFormed, DecodeEncode and EncodeDecode: a word with a lent byte, and one without. -/
theorem witness_Encoding :
    let i : Instr := .ldv .plain 3 (.imm 1 512) 0
    let j : Instr := .sub ⟨7, 0, 4, true, 0⟩
    decodeSlot 1 0x2831_0000 (some 8) = .ok i ∧ decodeSlot 0 0x0470_0490 none = .ok j ∧ j ≠ .nop ∧ i ≠ .nop ∧ i.WellFormed ∧
    j.WellFormed ∧ (encode i).map (fun e => (e.slot, e.word, e.ext, e.needs)) = some (1, 0x2831_0000, 8, true) ∧
    (encode j).map (fun e => (e.slot, e.word, e.needs)) = some (0, 0x0470_0490, false) := by decide +kernel

theorem witness_InvKept :
    let s := issuer bundle0 id
    (Memory.wf s.mem = true ∧ s.xd0.mode ≠ 3) ∧ (match step s with
      | .next t => t.core.pc == 0x4000000010 && t.time == 1
      | _ => false) = true := by decide +kernel

end Sys2Proof.Tests
end

/-! SUPPORT. Consuming loads and FEWAIT (R49, R51, R261, R272): what the checks before a full-empty access let through, what the
hand-offs of its granules change, and what the access does when its granules are full or one of them is empty. -/

namespace Sys2Proof.Machine

open Sys2Proof

/-! ### Checks that pass (R55, R267, R275) -/

theorem withEarly_off {s : State} (h : s.core.dbgctl.getLsbD 0 = false) (pas : List Nat) (k : Unit → Res) :
    withEarly s pas k = k () := by
  unfold withEarly
  rw [h]
  rfl

theorem withBytes_single {s : State} {n : Need} {va len lane : Nat} {segs : List Seg}
    (h : checkRange s n va len lane = .ok segs) (k : List (Nat × Nat) → Res) :
    withBytes s n [(va, len, lane)] k = k (segBytes segs) := by
  simp [withBytes, checkAll, h, withChecked]

theorem withAccess_some {s : State} {m : MemOp} {x : Access} (h : m.access s.core = some x) (k : Access → Res) :
    withAccess s m k = k x := by
  simp [withAccess, h]

theorem atLimit_ld {c : CoreState} (h : c.cnt.ld ≠ BitVec.allOnes 16) : c.atLimit 0 = false :=
  beq_eq_false_iff_ne.2 h

/-- A post-increment changes the exposed writes of the active agent alone (R258). -/
theorem accessDone_frame (x : Access) (s : State) : ∃ pend, x.done s = { s with core := { s.core with pend := pend } } := by
  unfold Access.done
  split
  · next r v _ => rcases later_cases s 1 (.a r v) with h | h <;> exact ⟨_, h⟩
  · exact ⟨_, rfl⟩

/-! ### Granules (R49) -/

theorem mem_granulesOf (pas : List Nat) (gr : Nat) : gr ∈ granulesOf pas ↔ ∃ pa ∈ pas, granule pa = gr := by
  suffices h : ∀ l : List Nat,
      gr ∈ pas.foldl (fun l pa => sinsert l (granule pa)) l ↔ gr ∈ l ∨ ∃ pa ∈ pas, granule pa = gr by
    simpa [granulesOf] using h []
  induction pas with
  | nil => simp
  | cons pa r ih =>
    intro l
    simp only [List.foldl_cons, ih, mem_sinsert, List.exists_mem_cons_iff, eq_comm (a := gr)]
    tauto

/-- The granules of an access are all full where each of its bytes lies in a full one. -/
theorem granulesOf_full (s : State) (pas : List Nat) :
    ((granulesOf pas).all fun gr => (kfind s.fe gr).isSome) = true ↔ ∀ pa ∈ pas, isFull s pa = true := by
  simp [List.all_eq_true, mem_granulesOf, isFull]

/-- What a full-empty access finds once its granules are full: the state after the hand-offs, with the granules emptied where
it clears them. -/
def tookFull (s : State) (pas : List Nat) (clr : Bool) : State :=
  let t := (granulesOf pas).foldl handOff s
  if clr then clearFull t (granulesOf pas) else t

theorem withFull_full {s : State} {pas : List Nat} (h : ∀ pa ∈ pas, isFull s pa = true) (clr : Bool) (k : State → Res) :
    withFull s pas clr k = k (tookFull s pas clr) :=
  if_pos ((granulesOf_full s pas).2 h)

theorem withFull_empty {s : State} {pas : List Nat} (h : ∃ pa ∈ pas, isFull s pa = false) (clr : Bool) (k : State → Res) :
    withFull s pas clr k = hold s .feWait := by
  refine if_neg fun hall => ?_
  obtain ⟨pa, hpa, he⟩ := h
  simp [(granulesOf_full s pas).1 hall pa hpa] at he

/-! ### Hand-offs (R51, R136) -/

/-- Hand-offs change what the active core has seen, read and observed, and nothing else. -/
theorem foldl_handOff_frame (gs : List Nat) (s : State) :
    ∃ seen own obs, gs.foldl handOff s = { s with core := { s.core with seen := seen, own := own, obs := obs } } := by
  induction gs generalizing s with
  | nil => exact ⟨_, _, _, rfl⟩
  | cons gr r ih =>
    obtain ⟨x, y, z, h⟩ := ih (handOff s gr)
    exact ⟨x, y, z, h⟩

/-- Taking full granules writes no byte and counts nothing. -/
theorem tookFull_keeps (s : State) (pas : List Nat) (clr : Bool) :
    (tookFull s pas clr).mem = s.mem ∧ (tookFull s pas clr).writes = s.writes ∧
      (tookFull s pas clr).core.cnt = s.core.cnt := by
  obtain ⟨_, _, _, h⟩ := foldl_handOff_frame (granulesOf pas) s
  cases clr <;> simp [tookFull, h]

/-- Reading writes no byte, moves no full-empty bit and counts nothing. -/
theorem coreRead_keeps (st : BitVec 4) (n : Nat) (pas : List Nat) (s : State) :
    (coreRead st n pas s).2.fe = s.fe ∧ (coreRead st n pas s).2.mem = s.mem ∧ (coreRead st n pas s).2.writes = s.writes ∧
      (coreRead st n pas s).2.core.cnt = s.core.cnt := by
  obtain ⟨_, _, _, h⟩ := coreRead_frame st n pas s
  simp [h]

/-! ### Consuming loads (R51, R261) -/

/-- The qualifier of a consuming load: `.fec` empties the granules, `.fe` leaves them full. -/
def consuming (clr : Bool) : LdQual := if clr then .fec else .fe

/-- The last step of a consuming load whose bytes `rs` have been read: its value waits for its landing, `ld` counts it, and the
post-increment becomes pending (R54, R258, R275). -/
def consumed (t : State) (shape : LoadShape) (rs : List ReadByte) (fin : State → State) : State :=
  let t := (lock t [shape.dest] (some [shape.result (rs.map (·.val))]) (some 0)).2
  fin { t with core := t.core.count 0 1 }

/-- What a consuming load does in `t`, the state that its hand-offs leave: it reads its bytes `todo`, and holds, traps or ends. -/
def consumeBytes (s : State) (st : BitVec 4) (todo : List (Nat × Nat × Nat)) (pas : List Nat) (shape : LoadShape)
    (fin : State → State) (t : State) : Res :=
  if !coreReadable t st t.core.seq pas then hold s .readiness
  else
    let (rs, t) := coreRead st t.core.seq pas t
    match (rs.zip todo).find? fun x => x.1.poison with
    | some (_, va, pa, lane) => trap s (poisonTrap s va pa lane)
    | none => ok (consumed t shape rs fin)

/-- A consuming load whose checks pass waits for its granules, and then reads its bytes. -/
theorem loadOut_consuming {s : State} {st : BitVec 4} {va len : Nat} {segs : List Seg}
    (hc : checkRange s ⟨true, false⟩ va len 0 = .ok segs) (hsp : ∀ pa ∈ (segBytes segs).map (·.2), inScratch pa = true)
    (hdbg : s.core.dbgctl.getLsbD 0 = false) (hld : s.core.cnt.ld ≠ BitVec.allOnes 16)
    (hb : s.core.loadsBefore st s.core.seq = true) (clr : Bool) (sc : Scope) (ea : Nat) (shape : LoadShape)
    (fin : State → State) :
    ∃ todo, loadOut s (consuming clr) st sc [(va, len, 0)] ea shape fin =
      withFull s ((segBytes segs).map (·.2)) clr (consumeBytes s st todo ((segBytes segs).map (·.2)) shape fin) := by
  have hall := List.all_eq_true.2 hsp
  refine ⟨((segBytes segs).zip ([(va, len, 0)].flatMap fun r => List.replicate r.2.1 r.2.2)).map
    fun x => (x.1.1, x.1.2, x.2), ?_⟩
  cases clr <;>
  · simp only [loadOut, consuming, withBytes_single hc, withEarly_off hdbg, atLimit_ld hld, hb, hall]
    rfl

theorem consumeBytes_clean {st : BitVec 4} {pas : List Nat} {t u : State} {rs : List ReadByte}
    (hr : coreReadable t st t.core.seq pas = true) (hrd : coreRead st t.core.seq pas t = (rs, u))
    (hp : ∀ b ∈ rs, b.poison = false) (s : State) (todo : List (Nat × Nat × Nat)) (shape : LoadShape)
    (fin : State → State) : consumeBytes s st todo pas shape fin t = .next (consumed u shape rs fin).clear := by
  have hnone : (rs.zip todo).find? (fun x => x.1.poison) = none :=
    List.find?_eq_none.2 fun x hx => by simp [hp _ (List.of_mem_zip hx).1]
  simp only [consumeBytes, hr, hrd, hnone]
  rfl

/-- The end of a consuming load raises `ld` and adds one lock, which holds its value; it leaves the store as it is. -/
theorem consumed_effect (t : State) (shape : LoadShape) (rs : List ReadByte) (x : Access) :
    let u := consumed t shape rs x.done
    u.fe = t.fe ∧ u.mem = t.mem ∧ u.writes = t.writes ∧ u.core.cnt.ld = t.core.cnt.ld + 1 ∧
      ∃ l : Lock, u.core.locks = t.core.locks ++ [l] ∧ l.result = some [shape.result (rs.map (·.val))] := by
  obtain ⟨_, h⟩ := accessDone_frame x
    { t with core := (lock t [shape.dest] (some [shape.result (rs.map (·.val))]) (some 0)).2.core.count 0 1 }
  have hu : consumed t shape rs x.done = _ := h
  rw [hu]
  exact ⟨rfl, rfl, rfl, rfl, _, rfl, rfl⟩

/-- Reading clean bytes ends a consuming load: beside what the reads themselves change, `ld` rises and one lock is added. -/
theorem consumeBytes_effect {st : BitVec 4} {pas : List Nat} {t : State} (hr : coreReadable t st t.core.seq pas = true)
    (hp : ∀ b ∈ (coreRead st t.core.seq pas t).1, b.poison = false) (s : State) (todo : List (Nat × Nat × Nat))
    (shape : LoadShape) (x : Access) :
    ∃ u, consumeBytes s st todo pas shape x.done t = .next u ∧ u.sig = .none ∧ u.fe = t.fe ∧ u.mem = t.mem ∧
      u.writes = t.writes ∧ u.core.cnt.ld = t.core.cnt.ld + 1 ∧
      ∃ l : Lock, u.core.locks = (coreRead st t.core.seq pas t).2.core.locks ++ [l] ∧
        l.result = some [shape.result ((coreRead st t.core.seq pas t).1.map (·.val))] := by
  obtain ⟨hfe, hmem, hwrites, hld, hlock⟩ :=
    consumed_effect (coreRead st t.core.seq pas t).2 shape (coreRead st t.core.seq pas t).1 x
  obtain ⟨hfe', hmem', hwrites', hcnt⟩ := coreRead_keeps st t.core.seq pas t
  exact ⟨_, consumeBytes_clean hr rfl hp s todo shape x.done, rfl, hfe.trans hfe', hmem.trans hmem',
    hwrites.trans hwrites', hld.trans (congrArg (·.ld + 1) hcnt), hlock⟩

/-! ### The instructions -/

theorem exec_ld (sz : BitVec 2) (q : LdQual) (d : BitVec 6) (m : MemOp) (g : GuardF) (s : State) :
    exec (.ld sz q d m g) s = execLd sz q d m g s := rfl

theorem exec_fewait (clr : Bool) (len : BitVec 6) (r : BitVec 4) (off : BitVec 14) (g : GuardF) (s : State) :
    exec (.fewait clr len r off g) s = execFewait clr len r off g s := rfl

/-- An aligned consuming LD goes on to its load. -/
theorem exec_ld_consuming {sz : BitVec 2} {m : MemOp} {g : GuardF} {s : State} {x : Access} (hg : s.core.guard g = true)
    (hm : m.access s.core = some x) (ha : x.ea.toNat % 2 ^ sz.toNat = 0) (clr : Bool) (d : BitVec 6) :
    exec (.ld sz (consuming clr) d m g) s = loadOut s (consuming clr) m.lent.stream m.lent.scope
      [(x.ea.toNat, 2 ^ sz.toNat, 0)] x.ea.toNat (.scalar d) x.done := by
  simp [exec_ld, execLd, guarded_on hg, withAccess_some hm, ha]

/-- An aligned FEWAIT within scratchpads, with the loads before it performed, waits for its granules (R272). -/
theorem exec_fewait_aligned {len : BitVec 6} {r : BitVec 4} {off : BitVec 14} {g : GuardF} {s : State} {segs : List Seg}
    (hg : s.core.guard g = true) (ha : ((s.core.rm r).ea (s.core.ra r) (off.signExtend 64)).toNat % 16 = 0)
    (hc : checkRange s ⟨true, false⟩ ((s.core.rm r).ea (s.core.ra r) (off.signExtend 64)).toNat
      (16 * (len.toNat + 1)) 0 = .ok segs)
    (hsp : ∀ pa ∈ (segBytes segs).map (·.2), inScratch pa = true) (hb : s.core.loadsBefore 0 s.core.seq = true)
    (clr : Bool) : exec (.fewait clr len r off g) s = withFull s ((segBytes segs).map (·.2)) clr ok := by
  have hall : ((segBytes segs).all fun b => inScratch b.2) = true :=
    List.all_eq_true.2 fun b hx => hsp _ (List.mem_map_of_mem hx)
  simp only [exec_fewait, execFewait, guarded_on hg, ha, withBytes_single hc, hall, hb]
  rfl

end Sys2Proof.Machine

namespace Sys2Proof.Rules

open Sys2Proof.Machine

/-- Once its granules are full and its bytes can be read, a consuming load ends with its value under a lock. -/
theorem consumingLoads : ConsumingLoads := by
  intro sz d m g s x segs clr hg hm hld hdbg ha hc pas hsp hb q
  obtain ⟨todo, hload⟩ := loadOut_consuming hc hsp hdbg hld hb clr m.lent.scope x.ea.toNat (.scalar d) x.done
  have hexec : exec (.ld sz q d m g) s = _ := (exec_ld_consuming hg hm ha clr d).trans hload
  refine ⟨fun he => hexec.trans (withFull_empty he clr _), ?_⟩
  intro hf _ t r hr hp
  obtain ⟨u, hnext, hsig, hfe, hmem, hwrites, hld, hlock⟩ := consumeBytes_effect hr hp s todo (.scalar d) x
  obtain ⟨hmem', hwrites', hcnt⟩ := tookFull_keeps s pas clr
  exact ⟨u, hexec.trans ((withFull_full hf clr _).trans hnext), hsig, hfe, hmem.trans hmem', hwrites.trans hwrites',
    hld.trans (congrArg (·.ld + 1) hcnt), hlock⟩

/-- FEWAIT does nothing but take its granules, or holds. -/
theorem fullEmptyWait : FullEmptyWait := by
  intro clr len r off g s segs hg ea n ha hc pas hsp hb
  have hexec := exec_fewait_aligned hg ha hc hsp hb clr
  exact ⟨fun hf => hexec.trans (withFull_full hf clr ok), fun he => hexec.trans (withFull_empty he clr ok)⟩

/-- Settles O13: the checks of a full-empty access pass, and whether its granules are full decides between its effect and a
hold. -/
theorem fullEmpty : Obligations.FullEmpty := ⟨consumingLoads, fullEmptyWait⟩

end Sys2Proof.Rules

/-! SUPPORT. The life of a task on its core (R16, R49, R50, R179, R334): settling and order-machine steps by what they keep, the
zeroing of a core's scratchpad byte by byte, the full-empty bits at a task's start, and the agent on turn at a task's end. -/

namespace Sys2Proof.Machine

open Sys2Proof

/-! ### What chains of steps keep -/

/-- What each step of a fold keeps, the fold keeps. -/
theorem foldl_keeps {α β : Type} (f : State → α) (g : State → β → State) (h : ∀ s x, f (g s x) = f s) (l : List β)
    (s : State) : f (l.foldl g s) = f s :=
  List.foldlRecOn (motive := fun t => f t = f s) l g rfl fun t ht x _ => (h t x).trans ht

/-- What moving one write into the base memory keeps, settling keeps (R129). -/
theorem settle_keeps {α : Type} (f : State → α)
    (h : ∀ s ws rel bytes, f (baseWrite { s with writes := ws } rel bytes) = f s) (s : State) : f (settle s) = f s := by
  suffices hn : ∀ n s, f (settleN n s) = f s from hn _ s
  intro n
  induction n with
  | zero => exact fun _ => rfl
  | succ n ih =>
    intro s
    simp only [settleN]
    split
    · split
      · exact (ih _).trans (h s _ _ _)
      · rfl
    · rfl

@[simp] theorem settle_core (s : State) : (settle s).core = s.core := settle_keeps (·.core) (fun _ _ _ _ => rfl) s
@[simp] theorem settle_coreId (s : State) : (settle s).coreId = s.coreId := settle_keeps (·.coreId) (fun _ _ _ _ => rfl) s
@[simp] theorem settle_fe (s : State) : (settle s).fe = s.fe := settle_keeps (·.fe) (fun _ _ _ _ => rfl) s

/-! ### Registers of a core without a task (R6, R50) -/

@[simp] theorem fresh_rs (r : Run) (i : BitVec 6) : (CoreState.fresh r).rs i = 0 := by
  simp [CoreState.rs, CoreState.fresh, Vector.get]

@[simp] theorem fresh_ra (r : Run) (i : BitVec 4) : (CoreState.fresh r).ra i = 0 := by
  simp [CoreState.ra, CoreState.fresh, Vector.get]

@[simp] theorem fresh_rv (r : Run) (i : BitVec 6) : (CoreState.fresh r).rv i = 0 := by
  simp [CoreState.rv, CoreState.fresh, Vector.get]

/-! ### The bytes of a scratchpad (R44) -/

theorem spAddr_eq (k off : Nat) : spAddr k off = 0x1100000000 + k * 0x100000 + off := rfl

theorem inSp_iff (k pa : Nat) :
    inSp k pa = true ↔ 0x1100000000 + k * 0x100000 ≤ pa ∧ pa < 0x1100000000 + (k + 1) * 0x100000 := by
  have h : inSp k pa = true ↔ spAddr k 0 ≤ pa ∧ pa < spAddr k 0 + Config.localSize := by simp [inSp]
  rw [h, spAddr_eq, show Config.localSize = 0x100000 from rfl]
  omega

theorem inSp_spAddr {k off : Nat} (h : off < 2 ^ 20) : inSp k (spAddr k off) = true := by
  rw [inSp_iff, spAddr_eq]
  omega

/-- A scratchpad begins and ends at a granule. -/
theorem inSp_granule (k pa : Nat) : inSp k (16 * granule pa) = inSp k pa := by
  rw [Bool.eq_iff_iff, inSp_iff, inSp_iff, granule]
  omega

/-! ### The zeroing of a scratchpad (R50) -/

theorem kget_filter {α : Type} (d : α) (keep : Nat → Bool) (l : List (Nat × α)) (x : Nat) :
    kget d (l.filter fun c => keep c.1) x = if keep x then kget d l x else d := by
  induction l with
  | nil => simp [kget]
  | cons c r ih =>
    obtain ⟨k, v⟩ := c
    by_cases hk : keep k <;> by_cases hx : k = x
    · subst hx; simp [kget, hk]
    · simp [kget, hk, hx, ih]
    · subst hx; simp [hk, ih]
    · simp [kget, hk, hx, ih]

/-- A write cut to the bytes outside a set of addresses gives the others as before. -/
theorem at_filter (w : Write) (keep : Nat → Bool) (pa : Nat) :
    ({ w with bytes := w.bytes.filter fun b => keep b.pa } : Write).at pa = if keep pa then w.at pa else none := by
  simp only [Write.at, List.find?_filter]
  split
  · next hk =>
    congr 1
    funext b
    by_cases hb : b.pa = pa <;> simp [hb, hk]
  · next hk =>
    refine List.find?_eq_none.2 fun b _ => ?_
    by_cases hb : b.pa = pa <;> simp [hb, hk]

theorem contains_filter (keep : Nat → Bool) (l : List Nat) (pa : Nat) :
    (l.filter keep).contains pa = (keep pa && l.contains pa) := by
  rw [Bool.eq_iff_iff]
  simp [and_comm]

/-- The latest value of a byte: that of the last write which gives it, or else the memory's (R130). -/
theorem byteAt_eq (s : State) (pa : Nat) :
    byteAt s pa = ((s.writes.reverse.findSome? (·.at pa)).map fun b => (b.val, b.poison)).getD
      (memGet s.mem pa, s.poison.contains pa) := by
  simp only [byteAt, homeByte]
  induction s.writes.reverse with
  | nil => rfl
  | cons w r ih =>
    simp only [List.find?_cons, List.findSome?_cons]
    cases h : w.at pa with
    | none => exact ih
    | some b => simp [h]

/-- Zeroing a core's scratchpad makes each of its bytes a clean 0, and leaves every other byte (R50). -/
theorem byteAt_wipeBytes (s : State) (k pa : Nat) :
    byteAt (wipeBytes s k) pa = if inSp k pa then (0, false) else byteAt s pa := by
  have hw : (wipeBytes s k).writes.reverse.findSome? (·.at pa) =
      if inSp k pa then none else s.writes.reverse.findSome? (·.at pa) := by
    simp only [wipeBytes, ← List.map_reverse, List.findSome?_map, Function.comp_def, at_filter _ (fun pa => !inSp k pa)]
    cases inSp k pa <;> simp
  have hm : memGet (wipeBytes s k).mem pa = if inSp k pa then 0 else memGet s.mem pa := by
    simp only [memGet, wipeBytes, kget_filter _ (fun pa => !inSp k pa)]
    cases inSp k pa <;> rfl
  have hp : (wipeBytes s k).poison.contains pa = (!inSp k pa && s.poison.contains pa) := contains_filter _ _ _
  simp only [byteAt_eq, hw, hm, hp]
  cases inSp k pa <;> rfl

/-! ### The core's return (R16, R50) -/

theorem forgetAsker_frame (s : State) (d : BitVec 2) (who : Asker) : ∃ dies, forgetAsker s d who = { s with dies := dies } := by
  unfold forgetAsker
  split <;> exact ⟨_, rfl⟩

@[simp] theorem agent_coreId (s : State) : s.agent s.coreId = s.core := if_pos rfl

/-- Zeroing the active core: dies aside, its scratchpad and barrier records and its own state change. -/
theorem wipeCore_active (s : State) : ∃ dies rate, wipeCore s s.coreId =
    { wipeStores { s with dies := dies } s.coreId with
      core := s.core.outlasting { CoreState.fresh .free with rate := rate } } := by
  obtain ⟨dies, h⟩ := forgetAsker_frame s (dieOf s.coreId) (.core s.coreId)
  obtain ⟨dies', h'⟩ := forgetAsker_frame { s with dies := dies } (dieOf s.coreId) (.fetch s.coreId)
  refine ⟨dies', s.xd0.rates.get (dieOf s.coreId).toFin, ?_⟩
  simp only [wipeCore, h, h', agent_coreId]
  exact if_pos rfl

theorem byteAt_wipeCore (s : State) (pa : Nat) :
    byteAt (wipeCore s s.coreId) pa = if inSp s.coreId pa then (0, false) else byteAt s pa := by
  obtain ⟨dies, rate, h⟩ := wipeCore_active s
  have hw := byteAt_wipeBytes { s with dies := dies } s.coreId pa
  rw [h]
  exact hw

theorem exec_coreReturn (s : State) : exec .coreReturn s = execCoreReturn s := rfl

/-- CORE_RETURN of an ended core that nothing holds back zeroes it; member 0's return may change its gang's die first. -/
theorem exec_coreReturn_enabled {s : State} (hrun : s.core.run = .ended) (hcmds : commandsLeft s = false)
    (hgang : ∀ t, s.core.task = some t → t.lead ≠ s.coreId ∨ ∀ g, heldGang s t = some g → g.left = 0) :
    ∃ dies, exec .coreReturn s = stepped (wipeCore { s with dies := dies } s.coreId) := by
  rw [exec_coreReturn, execCoreReturn]
  simp only [hrun, hcmds]
  cases ht : s.core.task with
  | none => exact ⟨s.dies, rfl⟩
  | some t =>
    have hfree : (t.lead == s.coreId && (heldGang s t).any fun g => 0 < g.left) = false := by
      rcases hgang t ht with hlead | hleft
      · simp [hlead]
      · cases hg : heldGang s t with
        | none => simp
        | some g => simp [hleft g hg]
    simp only [hfree]
    by_cases hlead : t.lead = s.coreId
    · exact ⟨(dropGang s t).dies, by simp [hlead]; rfl⟩
    · exact ⟨s.dies, by simp [hlead]⟩

/-! ### The agent on turn stays (R53, R179): landing -/

@[simp] theorem setAgent_coreId (s : State) (k : Nat) (c : CoreState) : (s.setAgent k c).coreId = s.coreId := by
  unfold State.setAgent
  split <;> rfl

@[simp] theorem pushEvent_coreId (s : State) (d : BitVec 2) (e : DieEvent) : (pushEvent s d e).1.coreId = s.coreId := by
  rcases pushEvent_cases s d e with ⟨_, h⟩ | ⟨_, h⟩ <;> simp [h]

@[simp] theorem admitTrap_coreId (s : State) (d : BitVec 2) : (admitTrap s d).coreId = s.coreId := by
  simp only [admitTrap]
  split
  · rfl
  · split
    · rfl
    · simp

@[simp] theorem popEvent_coreId (s : State) (d : BitVec 2) : (popEvent s d).coreId = s.coreId := by
  simp only [popEvent]
  split <;> simp

@[simp] theorem firmwareWrite_coreId (s : State) (d : BitVec 2) (n : BitVec 12) (x : Word) :
    (firmwareWrite s d n x).coreId = s.coreId := by
  unfold firmwareWrite
  split <;> simp

@[simp] theorem landOne_coreId (s : State) (w : RegWrite) : (landOne s w).coreId = s.coreId := by
  cases w with
  | a | m | v | flags => rfl
  | s | k | g => simp only [landOne]; split <;> rfl
  | sys n x => simp only [landOne]; split <;> simp

@[simp] theorem landDue_coreId (s : State) (n : Nat) : (landDue s n).coreId = s.coreId := by
  simp only [landDue]
  have hone (s : State) (p : Pend) : (landOne s p.w).coreId = s.coreId := landOne_coreId s p.w
  exact (foldl_keeps (·.coreId) _ hone _ _).trans (foldl_keeps (·.coreId) _ hone _ _)

@[simp] theorem landAll_coreId (s : State) : (landAll s).coreId = s.coreId := foldl_keeps (·.coreId) _ landDue_coreId _ s

/-! ### The agent on turn stays: placing writes and reading -/

@[simp] theorem raiseVector_coreId (s : State) (p : BitVec 2) (v : Nat) : (raiseVector s p v).coreId = s.coreId := by
  simp only [raiseVector]
  split
  · rfl
  · split
    · rfl
    · split <;> rfl

@[simp] theorem logCheck_coreId (s : State) (d : BitVec 2) (unit sev : BitVec 8) (loc : BitVec 16) (pa : Nat) :
    (logCheck s d unit sev loc pa).coreId = s.coreId := by
  simp [logCheck]

@[simp] theorem routed_coreId (s : State) (d : BitVec 2) (bytes : List WByte) : (routed s d bytes).2.coreId = s.coreId := by
  simp only [routed]
  split <;> simp

@[simp] theorem place_coreId (s : State) (d : BitVec 2) (p : Path) (core task prod : Nat) (rel : Option Release)
    (full : List Nat) (bytes : List WByte) : (place s d p core task prod rel full bytes).coreId = s.coreId := by
  simp only [place]
  refine (foldl_keeps (·.coreId) _ ?_ _ _).trans (routed_coreId s d bytes)
  exact fun _ _ => rfl

@[simp] theorem readByte_coreId (s : State) (d : BitVec 2) (q : Path) (own : List Nat) (pa : Nat) :
    (readByte s d q own pa).2.coreId = s.coreId := by
  rcases readByte_frame s d q own pa with h | h <;> rw [h]

@[simp] theorem readBytes_coreId (d : BitVec 2) (q : Path) (own pas : List Nat) (s : State) :
    (readBytes d q own pas s).2.2.coreId = s.coreId := by
  induction pas generalizing own s with
  | nil => rfl
  | cons pa r ih => exact (ih _ _).trans (readByte_coreId s d q own pa)

@[simp] theorem readVas_coreId (d : BitVec 2) (q : Path) (segs : List Seg) (vas : List Nat) (s : State) :
    (readVas d q segs vas s).2.coreId = s.coreId := readBytes_coreId _ _ _ _ _

/-! ### The agent on turn stays: splice contexts that close (R126, R127) -/

@[simp] theorem setSplice_coreId (s : State) (die : BitVec 2) (n : Nat) (x : SplCtx) : (setSplice s die n x).coreId = s.coreId :=
  rfl

@[simp] theorem spliceWrite_coreId (s : State) (die : BitVec 2) (x : SplCtx) (bytes : List WByte) :
    (spliceWrite s die x bytes).coreId = s.coreId := place_coreId _ _ _ _ _ _ _ _ _

@[simp] theorem fallbackRow_coreId (s : State) (die : BitVec 2) (x : SplCtx) (i : Nat) :
    (fallbackRow s die x i).2.coreId = s.coreId := by
  unfold fallbackRow
  split <;> simp

theorem foldl_spliceWrite_coreId {α : Type} (die : BitVec 2) (x : SplCtx) (ws : List (List WByte × α)) (s : State) :
    (ws.foldl (fun s w => spliceWrite s die x w.1) s).coreId = s.coreId :=
  foldl_keeps (·.coreId) (fun s w => spliceWrite s die x w.1) (fun s w => spliceWrite_coreId s die x w.1) ws s

@[simp] theorem releaseToken_coreId (s : State) (die : BitVec 2) (n i core : Nat) :
    (releaseToken s die n i core).coreId = s.coreId := by
  unfold releaseToken
  split
  · rfl
  · rw [setSplice_coreId, spliceWrite_coreId, foldl_spliceWrite_coreId]
    split <;> simp

@[simp] theorem orderToken_coreId (s : State) (die : BitVec 2) (n i : Nat) : (orderToken s die n i).coreId = s.coreId := by
  unfold orderToken
  split <;> rfl

@[simp] theorem releaseHeld_coreId (s : State) (die : BitVec 2) (n : Nat) : (releaseHeld s die n).coreId = s.coreId := by
  unfold releaseHeld
  split
  · rfl
  · split
    · exact foldl_keeps (·.coreId) _ (fun s i => releaseToken_coreId s die n i _) _ _
    · rfl

@[simp] theorem expire_coreId (s : State) (die : BitVec 2) (n : Nat) : (expire s die n).coreId = s.coreId := by
  simp only [expire]
  split
  · rfl
  · refine (releaseHeld_coreId _ die n).trans ((foldl_keeps (·.coreId) _ (fun s i => ?_) _ _).trans rfl)
    split
    · rfl
    · simp

@[simp] theorem expireDue_coreId (s : State) (die : BitVec 2) (n : Nat) : (expireDue s die n).coreId = s.coreId := by
  unfold expireDue
  split
  · rfl
  · split <;> simp

@[simp] theorem logEvent_coreId (s : State) (d : BitVec 2) (core pasid : Nat) (wid : Word) (t : TrapInfo) :
    (logEvent s d core pasid wid t).coreId = s.coreId := by
  simp only [logEvent]
  rcases pushEvent_cases s d ⟨t, core, pasid, wid, s.time, false⟩ with ⟨_, h⟩ | ⟨_, h⟩ <;> simp [h]

@[simp] theorem closeLogged_coreId (s : State) (die : BitVec 2) (n : Nat) (x : SplCtx) :
    (closeLogged s die n x).coreId = s.coreId := logEvent_coreId _ _ _ _ _ _

@[simp] theorem closeTask_coreId (s : State) (c : CoreState) : (closeTask s c).coreId = s.coreId := by
  refine foldl_keeps (·.coreId) _ (fun s x => ?_) _ _
  simp only
  split <;> simp

/-! ### The agent on turn stays: gangs and launches that end (R21, R328) -/

@[simp] theorem mapGang_coreId (s : State) (t : Task) (f : Gang → Gang) : (mapGang s t f).coreId = s.coreId := rfl

@[simp] theorem mapLaunch_coreId (s : State) (d : BitVec 2) (id : Nat) (f : Launch → Launch) :
    (mapLaunch s d id f).coreId = s.coreId := rfl

@[simp] theorem gangLeft_coreId (s : State) (t : Task) : (gangLeft s t).coreId = s.coreId := by
  unfold gangLeft
  split
  · split <;> rfl
  · rfl

@[simp] theorem refresh_coreId (s : State) : (refresh s).coreId = s.coreId :=
  foldl_keeps (·.coreId) refreshDie (fun _ _ => rfl) allDies s

@[simp] theorem finishLaunch_coreId (s : State) (d : BitVec 2) (l : Launch) : (finishLaunch s d l).coreId = s.coreId := by
  simp only [finishLaunch, refresh_coreId]
  split
  · split
    · exact raiseVector_coreId _ _ _
    · rfl
  · rfl

@[simp] theorem taskEnded_coreId (s : State) (t : Task) (k : Nat) (r : Release) : (taskEnded s t k r).coreId = s.coreId := by
  simp only [taskEnded]
  split
  · split <;> simp
  · simp

/-! ### The end of a task (R11, R179) -/

@[simp] theorem endTask_coreId (s : State) : (endTask s).coreId = s.coreId := by
  simp only [endTask, releaseNow]
  split <;> simp

theorem exec_taskEnd (s : State) : exec .taskEnd s = execTaskEnd s := rfl

/-! ### Full-empty bits at a task's start (R49) -/

theorem mem_of_kfind {α : Type} {l : List (Nat × α)} {x : Nat} {v : α} (h : kfind l x = some v) : (x, v) ∈ l := by
  induction l with
  | nil => simp [kfind] at h
  | cons c r ih =>
    obtain ⟨k, w⟩ := c
    simp only [kfind] at h
    split at h
    · next hk =>
      obtain rfl := hk
      simp [Option.some.inj h]
    · exact List.mem_cons_of_mem _ (ih h)

/-- No granule of a core's scratchpad is full, and no listed write is still to make one full. -/
def scratchEmpty (k : Nat) (s : State) : Prop :=
  (∀ g ∈ s.fe, inSp k (16 * g.1) = false) ∧ ∀ w ∈ s.writes, ∀ pa ∈ w.full, inSp k pa = false

theorem isFull_congr {s t : State} (h : s.fe = t.fe) (pa : Nat) : isFull s pa = isFull t pa := by
  rw [isFull, isFull, h]

theorem isFull_spAddr_of_empty {k off : Nat} {s : State} (h : scratchEmpty k s) (hoff : off < 2 ^ 20) :
    isFull s (spAddr k off) = false := by
  cases hf : kfind s.fe (granule (spAddr k off)) with
  | none => simp [isFull, hf]
  | some v =>
    have := h.1 _ (mem_of_kfind hf)
    rw [inSp_granule, inSp_spAddr hoff] at this
    cases this

theorem emptyScratch_empties (s : State) (k : Nat) : scratchEmpty k (emptyScratch s k) := by
  refine ⟨fun g hg => ?_, fun w hw pa hpa => ?_⟩
  · simpa using (List.mem_filter.1 hg).2
  · obtain ⟨v, _, rfl⟩ := List.mem_map.1 hw
    simpa using (List.mem_filter.1 hpa).2

/-- What filling lists was listed before, or is a granule of the bytes that fill. -/
theorem mem_fillAt {fe : List (Nat × Nat)} {d : BitVec 2} {id : Nat} {pas : List Nat} {g : Nat × Nat}
    (h : g ∈ fillAt fe d id pas) : g ∈ fe ∨ ∃ pa ∈ pas, g.1 = granule pa := by
  induction pas generalizing fe with
  | nil => exact .inl h
  | cons pa r ih =>
    rcases ih h with h | ⟨x, hx, e⟩
    · simp only at h
      split at h
      · split at h
        · rcases mem_kset h with rfl | h
          · exact .inr ⟨pa, List.mem_cons_self, rfl⟩
          · exact .inl h
        · exact .inl h
      · exact .inl h
    · exact .inr ⟨x, List.mem_cons_of_mem _ hx, e⟩

/-- Applying a write that fills nothing of a core's scratchpad leaves it empty. -/
theorem applyAt_scratchEmpty {k : Nat} {s : State} (h : scratchEmpty k s) (d : BitVec 2) (id : Nat) :
    scratchEmpty k (applyAt s d id) := by
  obtain ⟨hfe, hfull⟩ := h
  constructor
  · simp only [applyAt]
    split
    · next w hw =>
      split
      · exact hfe
      · intro g hg
        rcases mem_fillAt hg with hg | ⟨pa, hpa, e⟩
        · exact hfe g hg
        · rw [e, inSp_granule]
          exact hfull w (List.mem_of_find?_eq_some hw) pa hpa
    · exact hfe
  · intro w hw pa hpa
    obtain ⟨v, hv, rfl⟩ := List.mem_map.1 hw
    split at hpa <;> exact hfull v hv pa hpa

theorem drainIq_scratchEmpty {k : Nat} {s : State} (h : scratchEmpty k s) (d : BitVec 2) : scratchEmpty k (drainIq s d) :=
  List.foldlRecOn _ _ h fun _ ht id _ => applyAt_scratchEmpty ht d id

@[simp] theorem applyAt_core (s : State) (d : BitVec 2) (id : Nat) : (applyAt s d id).core = s.core := by
  simp only [applyAt]
  split
  · split <;> rfl
  · rfl

@[simp] theorem drainIq_core (s : State) (d : BitVec 2) : (drainIq s d).core = s.core :=
  foldl_keeps (·.core) _ (fun s id => applyAt_core s d id) _ s

/-! ### The start of a task (R20, R334) -/

/-- The active core is `c`, but for what acquires add to it, and the scratchpad of core `k` has every full-empty bit empty. -/
def startsAs (c : CoreState) (k : Nat) (s : State) : Prop :=
  scratchEmpty k s ∧ ∃ obs seen, s.core = { c with obs := obs, seen := seen }

theorem acquire_startsAs {c : CoreState} {k : Nat} {s : State} (h : startsAs c k s) (sc : Scope) (r : Release) :
    startsAs c k (acquire sc s r) := by
  obtain ⟨hempty, obs, seen, hcore⟩ := h
  have hraised : startsAs c k { s with core := { s.core with
      obs := r.obs.foldl sinsert s.core.obs, seen := raiseSeen s.core.seen r.core r.epoch } } :=
    ⟨hempty, _, _, by rw [hcore]⟩
  simp only [acquire]
  split
  · cases sc with
    | core | cluster | die => exact hraised
    | package | system =>
      exact ⟨drainIq_scratchEmpty hraised.1 _, by simpa only [drainIq_core] using hraised.2⟩
  · exact ⟨hempty, obs, seen, hcore⟩

theorem startAcquires_startsAs {c : CoreState} {k : Nat} {s : State} (h : startsAs c k s) (l : Launch) :
    startsAs c k (startAcquires s l) := by
  have hacq : startsAs c k ((l.rels ++ l.sigs).foldl (acquire .package) s) :=
    List.foldlRecOn _ _ h fun _ ht r _ => acquire_startsAs ht .package r
  obtain ⟨⟨hfe, hfull⟩, hcore⟩ := hacq
  refine ⟨⟨hfe, fun w hw pa hpa => ?_⟩, hcore⟩
  obtain ⟨v, hv, rfl⟩ := List.mem_map.1 hw
  split at hpa <;> exact hfull v hv pa hpa

theorem exec_toggleToken (s : State) : exec .toggleToken s = execToggleToken s := rfl

/-- The toggle of a free core to a new task without a preload: the core's first state, after the acquires of its launch. -/
theorem exec_toggleToken_fresh {s : State} {p : Plane} {t : Task} (hsh : s.core.shadow = some (p, t))
    (hrun : s.core.run = .free) (htask : s.core.task = none) (hres : resumes s p t = false) (hpre : p.preload = []) :
    ∃ u, startsAs (firstState s s.core p t) s.coreId u ∧ exec .toggleToken s = stepped (pokeScratch u s.coreId []) := by
  have hfirst : startsAs (firstState s s.core p t) s.coreId
      { emptyScratch s s.coreId with core := firstState s s.core p t } :=
    ⟨emptyScratch_empties s s.coreId, _, _, rfl⟩
  simp only [exec_toggleToken, execToggleToken, hsh, hrun, htask, hres, hpre]
  cases findLaunch { emptyScratch s s.coreId with core := firstState s s.core p t } t.home t.launch with
  | some l => exact ⟨_, startAcquires_startsAs hfirst l, rfl⟩
  | none => exact ⟨_, hfirst, rfl⟩

theorem launchSeed_ne_zero (wid : Word) : launchSeed wid ≠ 0 := by
  simp only [launchSeed]
  split
  · decide
  · assumption

end Sys2Proof.Machine

namespace Sys2Proof.Rules

open Sys2Proof.Machine

/-- A task's first state stands on its core, with the full-empty bits of its scratchpad empty. -/
theorem taskStart : TaskStart := by
  intro s p t hsh hrun htask hres hpre
  obtain ⟨u, ⟨hempty, obs, seen, hcore⟩, hexec⟩ := exec_toggleToken_fresh hsh hrun htask hres hpre
  have hcore' : (settle (pokeScratch u s.coreId [])).core = { firstState s s.core p t with obs := obs, seen := seen } :=
    (settle_core _).trans hcore
  have hfe : (settle (pokeScratch u s.coreId [])).fe = u.fe := settle_fe (pokeScratch u s.coreId [])
  have hfull (off : Nat) (hoff : off < 2 ^ 20) : isFull (settle (pokeScratch u s.coreId [])) (spAddr s.coreId off) = false :=
    (isFull_congr hfe _).trans (isFull_spAddr_of_empty hempty hoff)
  refine ⟨_, hexec, ?_⟩
  simp only [hcore']
  exact ⟨rfl, rfl, rfl, rfl, rfl, rfl, launchSeed_ne_zero p.wid, fresh_rs .running, fresh_ra .running, fresh_rv .running,
    rfl, rfl, rfl, rfl, rfl, hfull⟩

/-- Once its waits are over, a task's end takes place, on the same core. -/
theorem taskEnds : TaskEnds := by
  intro s hrun hafter hquiet hcnt harr
  have hexec : exec .taskEnd s = stepped (endTask s) := by
    simp [exec_taskEnd, execTaskEnd, hrun, hafter, hquiet, hcnt, harr]
  exact ⟨_, hexec, congrArg (·.run) (settle_core (endTask s)), congrArg (·.drainReq) (settle_core (endTask s)),
    (settle_coreId (endTask s)).trans (endTask_coreId s)⟩

/-- A core returns with a zeroed scratchpad and fresh registers, and every byte elsewhere stays. -/
theorem coreReturns : CoreReturns := by
  intro s hrun hcmds hgang
  obtain ⟨dies, hexec⟩ := exec_coreReturn_enabled hrun hcmds hgang
  obtain ⟨_, rate, hwipe⟩ := wipeCore_active { s with dies := dies }
  have hcore : (settle (wipeCore { s with dies := dies } s.coreId)).core =
      s.core.outlasting { CoreState.fresh .free with rate := rate } :=
    (settle_core _).trans (congrArg State.core hwipe)
  have hbyte (pa : Nat) : byteAt (settle (wipeCore { s with dies := dies } s.coreId)) pa =
      if inSp s.coreId pa then (0, false) else byteAt s pa :=
    (settle_byteAt _ pa).trans (byteAt_wipeCore { s with dies := dies } pa)
  refine ⟨_, hexec, ?_⟩
  simp only [hcore]
  refine ⟨rfl, rfl, fresh_rs .free, fresh_rv .free, rfl, rfl, fun off hoff => ?_, fun pa hpa => ?_⟩
  · exact (hbyte _).trans (if_pos (inSp_spAddr hoff))
  · exact (hbyte pa).trans (if_neg (by simp [hpa]))

/-- Settles O33: a task starts in its first state, ends once its waits are over, and leaves a zeroed core. -/
theorem taskLife : Obligations.TaskLife := ⟨taskStart, taskEnds, coreReturns⟩

end Sys2Proof.Rules

/-! SUPPORT. A task's identity and its stops (R12, R18, R19, R178 to R181): what each of their instructions answers where its guard
holds. -/

namespace Sys2Proof.Machine

open Sys2Proof

/-! ### Identity (R12, R18, R19, R178) -/

section
variable {d i : BitVec 6} {o : SR3} {g : GuardF} {s : State}

theorem exec_getf (h : s.core.guard g = true) :
    exec (.getf d i g) s = .next (s.wrote 1 (.s d (widField s.core.plane i.toNat))) :=
  show execGetf d i g s = _ from scalarOut_next h 1 d _

theorem exec_getid (h : s.core.guard g = true) :
    exec (.getid d i g) s = .next (s.wrote 1 (.s d (taskId s.coreId s.core i.toNat))) :=
  show execGetid d i g s = _ from guarded_on h _

theorem exec_hops (h : s.core.guard o.g = true) :
    exec (.hops o) s = .next (s.wrote 1 (.s o.d (hopsOf s.context (s.core.rs o.a) (s.core.rs o.b)))) :=
  show execHops o s = _ from guarded_on h _

end

/-- Selector 2 of GETID is the virtual die of the core's task. -/
theorem taskId_die {c : CoreState} {t : Task} (h : c.task = some t) (k : Nat) : taskId k c 2 = BitVec.ofNat 64 t.vd := by
  simp [taskId, h]

/-- The hop distance of two bound dies is that of their sockets in the row (R2, R18). -/
theorem hopsOf_bound {c : Option Ctx} {a b : Word} {x y : BitVec 2} (ha : boundDie c a = some x) (hb : boundDie c b = some y) :
    hopsOf c a b = BitVec.ofNat 64 (x.toNat - y.toNat + (y.toNat - x.toNat)) := by
  have hdist : max x.toNat y.toNat - min x.toNat y.toNat = x.toNat - y.toNat + (y.toNat - x.toNat) := by omega
  simp only [hopsOf, ha, hb, hdist]

theorem hopsOf_unbound {c : Option Ctx} {a b : Word} (h : boundDie c a = none ∨ boundDie c b = none) :
    hopsOf c a b = BitVec.allOnes 64 := by
  rcases h with h | h
  · simp [hopsOf, h]
  · cases ha : boundDie c a <;> simp [hopsOf, h, ha]

/-! ### END, DRAIN, TRAP and BRK (R179 to R181) -/

section
variable {code : BitVec 6} {g : GuardF} {s : State}

theorem exec_endTask (h : s.core.guard g = true) :
    exec (.endTask g) s = ok { s with core := { s.core with run := .ending } } :=
  show execEndTask g s = _ from guarded_on h _

/-- DRAIN goes on while a drain of its task is in progress, and traps otherwise (R180). -/
theorem exec_drain (h : s.core.guard g = true) :
    exec (.drain g) s = if s.core.drainRpc.isSome then ok { s with core := { s.core with run := .draining } }
      else trap s (endTrap s 0x06 0) :=
  show execDrain g s = _ from guarded_on h _

theorem exec_trap (h : s.core.guard g = true) : exec (.trap code g) s = softTrap s 0x01 (code.setWidth 8) :=
  show execTrap code g s = _ from guarded_on h _

theorem exec_brk (h : s.core.guard g = true) : exec (.brk g) s = softTrap s 0x02 0 :=
  show execBrk g s = _ from guarded_on h _

end

/-- A service trap leaves its record to be taken after the bundle, and changes nothing else (R181). -/
theorem softTrap_posts (s : State) (cause : Cause) (code : BitVec 8) :
    ∃ t : TrapInfo, t.cause = cause ∧ t.kind = 0 ∧ t.code = code ∧
      softTrap s cause code = .next { s with sig := .none, core := { s.core with post := some t } } :=
  ⟨_, rfl, rfl, rfl, rfl⟩

end Sys2Proof.Machine

namespace Sys2Proof.Rules

open Sys2Proof.Machine

/-- Every selector of GETF, GETID and HOPS answers with its field of the plane, the core's number or the context. -/
theorem identity : Identity := by
  intro d i o g s hg ho p
  have hid (n : BitVec 6) (h : i = n) :
      exec (.getid d i g) s = .next (s.wrote 1 (.s d (taskId s.coreId s.core n.toNat))) := h ▸ exec_getid hg
  refine ⟨exec_getf hg, hid 0, hid 1, hid 3, hid 4, hid 5, ?_, hid 6, ?_, ?_⟩
  · intro t ht hi
    rw [← taskId_die ht s.coreId]
    exact hid 2 hi
  · intro x y hx hy
    rw [exec_hops ho, hopsOf_bound hx hy]
  · intro hnone
    rw [exec_hops ho, hopsOf_unbound hnone]

/-- END and a DRAIN in a drain set what the core does next; TRAP and BRK leave a trap for after the bundle. -/
theorem taskStops : TaskStops := by
  intro code g s hg
  refine ⟨exec_endTask hg, fun hdrain => ?_, fun hnone => ?_, ?_, ?_⟩
  · exact (exec_drain hg).trans (if_pos (Option.isSome_iff_ne_none.2 hdrain))
  · exact ⟨endTrap s 0x06 0, rfl, (exec_drain hg).trans (if_neg (by simp [hnone]))⟩
  · obtain ⟨t, hcause, hkind, hcode, hpost⟩ := softTrap_posts s 0x01 (code.setWidth 8)
    have hwide : (code.setWidth 8).toNat = code.toNat := BitVec.toNat_setWidth_of_le (by decide)
    exact ⟨t, hcause, hkind, hcode ▸ hwide, (exec_trap hg).trans hpost⟩
  · obtain ⟨t, hcause, hkind, -, hpost⟩ := softTrap_posts s 0x02 0
    exact ⟨t, hcause, hkind, (exec_brk hg).trans hpost⟩

/-- Settles O9: the identity of a task, and what END, DRAIN, TRAP and BRK leave behind their bundle. -/
theorem identityAndStops : Obligations.IdentityAndStops := ⟨identity, taskStops⟩

end Sys2Proof.Rules

/-! SUPPORT. Placement, planes and the latency bound (R14, R330 to R334): an agent's state after an agent is changed, what a chain of
promises leaves in the shadow planes, which launch is chosen and for which dies, and drains that have been requested. -/

namespace Sys2Proof.Machine

open Sys2Proof

/-! ### One agent, changed -/

theorem agent_setAgent (s : State) (k j : Nat) (c : CoreState) :
    (s.setAgent k c).agent j = if j = k then c else s.agent j := by
  unfold State.setAgent
  by_cases hk : k = s.coreId
  · rw [if_pos hk]
    by_cases hj : j = k
    · simp [State.agent, hj, hk]
    · simp only [State.agent, if_neg hj, if_neg (fun h : j = s.coreId => hj (h.trans hk.symm))]
      rfl
  · rw [if_neg hk]
    by_cases hj : j = k
    · simp [State.agent, hj, hk, kfind_kset]
    · have hkj : ¬ k = j := fun h => hj h.symm
      simp only [State.agent, kfind_kset, if_neg hj, if_neg hkj]
      rfl

theorem agent_mapAgent (s : State) (k j : Nat) (f : CoreState → CoreState) :
    (s.mapAgent k f).agent j = if j = k then f (s.agent k) else s.agent j := agent_setAgent s k j _

@[simp] theorem agent_mapAgent_same (s : State) (k : Nat) (f : CoreState → CoreState) :
    (s.mapAgent k f).agent k = f (s.agent k) := (agent_mapAgent s k k f).trans (if_pos rfl)

@[simp] theorem clear_agent (s : State) (k : Nat) : s.clear.agent k = s.agent k := rfl
@[simp] theorem clear_die (s : State) (d : BitVec 2) : s.clear.die d = s.die d := rfl

/-! ### Shadow planes (R330, R334) -/

/-- An agent that is not listed has no promised task, so its shadow plane goes by the list alone. -/
theorem agent_shadow_congr {s t : State} (hcore : t.core = s.core) (hid : t.coreId = s.coreId) (hparked : t.parked = s.parked)
    (k : Nat) : (t.agent k).shadow = (s.agent k).shadow := by
  simp only [State.agent, hcore, hid, hparked]
  split
  · rfl
  · cases kfind s.parked k <;> rfl

theorem kfind_map {α β : Type} (f : Nat → α → β) (l : List (Nat × α)) (x : Nat) :
    kfind (l.map fun a => (a.1, f a.1 a.2)) x = (kfind l x).map (f x) := by
  induction l with
  | nil => rfl
  | cons c r ih =>
    obtain ⟨k, v⟩ := c
    simp only [List.map_cons, kfind, ih]
    split
    · next hk => rw [hk]; rfl
    · rfl

@[simp] theorem agent_setRates_shadow (s : State) (k : Nat) : ((setRates s).agent k).shadow = (s.agent k).shadow := by
  have hparked : kfind (setRates s).parked k = (kfind s.parked k).map fun c => { c with rate := rateOf s k c } := 
    kfind_map (fun k (c : CoreState) => ({ c with rate := rateOf s k c } : CoreState)) s.parked k
  have hid : (setRates s).coreId = s.coreId := rfl
  simp only [State.agent, hparked, hid]
  split
  · rfl
  · cases kfind s.parked k <;> rfl

theorem promise_shadow (s : State) (k j : Nat) (p : Plane) (t : Task) :
    ((promise s k p t).agent j).shadow = if j = k then some (p, t) else (s.agent j).shadow := by
  rw [promise, agent_mapAgent]
  split <;> rfl

/-- Each step of a chain promises the core of its item a task that fits the item, and no other core one. -/
def promisesEach {α : Type} (put : State → α → State) (core : α → Nat) (fit : α → Plane → Task → Prop) (x : α) : Prop :=
  ∀ s, ∃ p t, (∀ j, ((put s x).agent j).shadow = if j = core x then some (p, t) else (s.agent j).shadow) ∧ fit x p t

section
variable {α : Type} {put : State → α → State} {core : α → Nat} {fit : α → Plane → Task → Prop}

theorem foldl_promises_other {l : List α} (h : ∀ x ∈ l, promisesEach put core fit x) {k : Nat} (hk : k ∉ l.map core) (s : State) :
    ((l.foldl put s).agent k).shadow = (s.agent k).shadow := by
  refine List.foldlRecOn (motive := fun t => (t.agent k).shadow = (s.agent k).shadow) l put rfl fun t ht x hx => ?_
  obtain ⟨p, t', hshadow, -⟩ := h x hx t
  have hne : k ≠ core x := fun e => hk (e ▸ List.mem_map_of_mem hx)
  rw [hshadow, if_neg hne, ht]

/-- After a chain of promises to different cores, each of them holds its own. -/
theorem foldl_promises {l : List α} (h : ∀ x ∈ l, promisesEach put core fit x) (hnodup : (l.map core).Nodup) (s : State)
    {x : α} (hx : x ∈ l) : ∃ p t, ((l.foldl put s).agent (core x)).shadow = some (p, t) ∧ fit x p t := by
  induction l generalizing s with
  | nil => cases hx
  | cons y r ih =>
    obtain ⟨hy, hr⟩ := List.nodup_cons.1 hnodup
    have hrest : ∀ z ∈ r, promisesEach put core fit z := fun z hz => h z (List.mem_cons_of_mem y hz)
    rcases List.mem_cons.1 hx with rfl | hx
    · obtain ⟨p, t, hshadow, hfit⟩ := h x List.mem_cons_self s
      refine ⟨p, t, ?_, hfit⟩
      rw [List.foldl_cons, foldl_promises_other hrest hy, hshadow, if_pos rfl]
    · exact ih hrest hr (put s y) hx

end

/-! ### The chosen launch and its cores (R14, R330, R331) -/

theorem length_eraseDups_le : ∀ l : List Nat, l.eraseDups.length ≤ l.length
  | [] => by simp
  | a :: r => by
    have hrest := length_eraseDups_le (r.filter fun b => !b == a)
    have hfilter := List.length_filter_le (fun b => !b == a) r
    rw [List.eraseDups_cons, List.length_cons, List.length_cons]
    omega
termination_by l => l.length
decreasing_by exact Nat.lt_succ_of_le (List.length_filter_le _ _)

theorem nodup_of_length_eraseDups {l : List Nat} (h : l.eraseDups.length = l.length) : l.Nodup := by
  induction l with
  | nil => exact List.nodup_nil
  | cons a r ih =>
    rw [List.eraseDups_cons, List.length_cons, List.length_cons] at h
    have hle := length_eraseDups_le (r.filter fun b => !b == a)
    have hfilter := List.length_filter_le (fun b => !b == a) r
    have hall := List.length_filter_eq_length_iff.1 (show (r.filter fun b => !b == a).length = r.length by omega)
    rw [List.filter_eq_self.2 hall] at h
    exact List.nodup_cons.2 ⟨fun ha => by simpa using hall a ha, ih (by omega)⟩

/-- A placement names each core once, on the die of its member. -/
theorem goodCores_places {s : State} {small : Bool} {ds : List (BitVec 2)} {cores : List Nat}
    (h : goodCores s small ds cores = true) : cores.map dieOf = ds ∧ cores.Nodup := by
  simp only [goodCores, Bool.and_eq_true, beq_iff_eq] at h
  obtain ⟨⟨⟨hdies, -⟩, hlen⟩, -⟩ := h
  exact ⟨hdies, nodup_of_length_eraseDups hlen⟩

/-- Where the dies of the cores are those of the members, each member's core is on its die. -/
theorem die_of_mem_zip {α : Type} {ms : List (BitVec 2 × α)} {cores : List Nat} (h : cores.map dieOf = ms.map (·.1))
    {v : BitVec 2 × α} {k : Nat} (hvk : (v, k) ∈ ms.zip cores) : dieOf k = v.1 := by
  have hall : List.Forall₂ (fun v k => dieOf k = v.1) ms cores := by
    rw [← List.forall₂_eq_eq_eq, List.forall₂_map_left_iff, List.forall₂_map_right_iff] at h
    exact h.flip
  exact List.forall₂_zip hall hvk

/-- The scheduler chooses among the launches that wait, so the dies of `x` are those of its gang's members. -/
theorem chooseLaunch_needs {s : State} {d : BitVec 2} {x : Waiting} (h : chooseLaunch s d = some x) :
    x.needs = memberDies s d x.l x.gang x.drained := by
  obtain ⟨p, -, hp⟩ := List.mem_flatMap.1 (List.mem_of_find?_eq_some h)
  obtain ⟨l, -, hl⟩ := List.mem_filterMap.1 (List.mem_filter.1 hp).1
  split at hl
  · cases hl; rfl
  · cases hl

/-- Every saved member of a gang is the save of a task of it. -/
theorem savedMembers_task {s : State} {l : Launch} {g : Nat} {v : BitVec 2 × Nat × Save} (h : v ∈ savedMembers s l g) :
    ∃ t, v.2.2.core.task = some t ∧ t.launch = l.id ∧ t.gang = g := by
  have hall : ∀ v ∈ savedMembers s l g, drainedMember v.2.2 l g = true := by
    refine List.foldlRecOn (motive := fun acc : List (BitVec 2 × Nat × Save) => ∀ v ∈ acc, drainedMember v.2.2 l g = true)
      _ _ (by simp) fun acc hacc x hx v hv => ?_
    rcases List.mem_append.1 hv with hv | hv
    · exact hacc v ((List.takeWhile_sublist _).subset hv)
    · rcases List.mem_cons.1 hv with rfl | hv
      · obtain ⟨d, -, hd⟩ := List.mem_flatMap.1 hx
        obtain ⟨w, hw, rfl⟩ := List.mem_map.1 hd
        exact (List.mem_filter.1 hw).2
      · exact hacc v (List.mem_of_mem_drop hv)
  have hmember := hall v h
  unfold drainedMember at hmember
  split at hmember
  · next t ht =>
    simp only [Bool.and_eq_true, beq_iff_eq] at hmember
    exact ⟨t, ht, hmember⟩
  · cases hmember

theorem savedMembers_congr {s t : State} (h : ∀ d, (t.die d).saves = (s.die d).saves) (l : Launch) (g : Nat) :
    savedMembers t l g = savedMembers s l g := by
  simp only [savedMembers, h]

@[simp] theorem mapLaunch_saves (s : State) (d : BitVec 2) (id : Nat) (f : Launch → Launch) (e : BitVec 2) :
    ((mapLaunch s d id f).die e).saves = (s.die e).saves := by
  by_cases h : d = e
  · subst h; simp [mapLaunch]
  · simp [mapLaunch, State.die_mapDie_other _ _ _ _ h]

/-- Counting the launches that have been passed over leaves every save. -/
theorem foldl_bypassed_saves (s : State) (x : Waiting) (all ws : List Waiting) (t : State) (e : BitVec 2) :
    ((ws.foldl (bypassed s x all) t).die e).saves = (t.die e).saves := by
  refine foldl_keeps (fun t => (t.die e).saves) _ (fun t w => ?_) ws t
  simp only [bypassed]
  split <;> simp

/-! ### A new gang (R14, R330) -/

/-- The promise that `placeGang` makes to one core `x.1`, for member `x.2` of the gang. -/
def placeMember (d : BitVec 2) (l : Launch) (g lead : Nat) (ctx : Option Ctx) (s : State) (x : Nat × Nat) : State :=
  promise { s with nextId := s.nextId + 1 } x.1 { l.plane with wid := l.plane.widOf g x.2, member := x.2, bar := lead }
    ⟨l.id, g, d, lead, s.nextId, s.nextId, l.slot, l.pasid, (vdOf ctx (dieOf x.1)).getD 0, l.claims⟩

/-- A new gang's promises are all that placing it does to a shadow plane. -/
theorem placeGang_shadow (s : State) (d : BitVec 2) (l : Launch) (g : Nat) (cores : List Nat) (k : Nat) :
    ((placeGang s d l g cores).agent k).shadow =
      ((cores.zipIdx.foldl (placeMember d l g (cores.headD 0) (kfind (s.die d).active.ctxs l.slot)) s).agent k).shadow :=
  by refine agent_shadow_congr ?_ ?_ ?_ k <;> rfl

/-- What a core of a new gang is promised: its own member number and wid in the launch's plane, and a task of the gang. -/
def newMember (l : Launch) (g : Nat) (x : Nat × Nat) (p : Plane) (t : Task) : Prop :=
  p.wid = l.plane.widOf g x.2 ∧ p.member = x.2 ∧ p.entry = l.plane.entry ∧ t.launch = l.id ∧ t.gang = g ∧ t.claims = l.claims

theorem placeMember_promises (d : BitVec 2) (l : Launch) (g lead : Nat) (ctx : Option Ctx) (x : Nat × Nat) :
    promisesEach (placeMember d l g lead ctx) Prod.fst (newMember l g) x :=
  fun _ => ⟨_, _, fun j => promise_shadow _ x.1 j _ _, rfl, rfl, rfl, rfl, rfl, rfl⟩

theorem placeGang_members {cores : List Nat} (hnodup : cores.Nodup) (s : State) (d : BitVec 2) (l : Launch) (g : Nat)
    {x : Nat × Nat} (hx : x ∈ cores.zipIdx) :
    ∃ p t, ((placeGang s d l g cores).agent x.1).shadow = some (p, t) ∧ newMember l g x p t := by
  rw [placeGang_shadow]
  exact foldl_promises (fun y _ => placeMember_promises d l g _ _ y) (by rwa [List.zipIdx_map_fst]) s hx

theorem placeGang_lists (s : State) (d : BitVec 2) (l : Launch) (g : Nat) (cores : List Nat) :
    ∃ y ∈ ((placeGang s d l g cores).die d).active.gangs,
      y.launch = l.id ∧ y.index = g ∧ y.cores = cores ∧ y.left = cores.length :=
  ⟨⟨l.id, g, cores, cores.length, false, []⟩, by simp [placeGang, mapLaunch], rfl, rfl, rfl, rfl⟩

/-! ### A drained gang (R331, R353) -/

/-- A saved member of a drained gang with the core that it is to go on. -/
abbrev Placing := (BitVec 2 × Nat × Save) × Nat

/-- The promise that `replaceGang` makes to the core of one saved member. -/
def replaceMember (lead : Nat) (s : State) (x : Placing) : State :=
  match x.1.2.2.core.task with
  | some t => promise { s with nextId := s.nextId + 1 } x.2 { x.1.2.2.core.plane with bar := lead } { t with lead := lead, inst := s.nextId }
  | none => s

/-- A drained gang's promises are all that placing it does to a shadow plane. -/
theorem replaceGang_shadow (s : State) (d : BitVec 2) (l : Launch) (g : Nat) (cores : List Nat) (k : Nat) :
    ((replaceGang s d l g cores).agent k).shadow =
      ((((savedMembers s l g).zip cores).foldl (replaceMember (newLead s l g ((savedMembers s l g).zip cores))) s).agent k).shadow :=
  by
  refine agent_shadow_congr ?_ ?_ ?_ k
  all_goals
    simp only [replaceGang, mapLaunch, State.mapDie_core, State.mapDie_coreId, State.mapDie_parked]
    rfl

/-- What the core of a saved member is promised: the member's own wid, and a task of its gang. -/
def savedMember (l : Launch) (g : Nat) (x : Placing) (p : Plane) (t : Task) : Prop :=
  p.wid = x.1.2.2.core.plane.wid ∧ t.launch = l.id ∧ t.gang = g

theorem replaceMember_promises {s : State} {l : Launch} {g : Nat} {x : Placing} (hx : x.1 ∈ savedMembers s l g) (lead : Nat) :
    promisesEach (replaceMember lead) Prod.snd (savedMember l g) x := by
  obtain ⟨t, ht, hlaunch, hgang⟩ := savedMembers_task hx
  intro s
  simp only [replaceMember, ht]
  exact ⟨_, _, fun j => promise_shadow _ x.2 j _ _, rfl, hlaunch, hgang⟩

theorem replaceGang_members {s : State} {l : Launch} {g : Nat} {cores : List Nat} (hnodup : cores.Nodup)
    (hdies : cores.map dieOf = (savedMembers s l g).map (·.1)) (d : BitVec 2) {x : Placing} (hx : x ∈ (savedMembers s l g).zip cores) :
    ∃ p t, ((replaceGang s d l g cores).agent x.2).shadow = some (p, t) ∧ savedMember l g x p t := by
  have hlen : cores.length = (savedMembers s l g).length := by simpa using congrArg List.length hdies
  rw [replaceGang_shadow]
  exact foldl_promises (fun y hy => replaceMember_promises (List.of_mem_zip hy).1 _) (by rwa [List.map_snd_zip hlen.le]) s hx

/-! ### GANG_PLACEMENT (R330) -/

/-- The state in which the chosen gang is placed: the launches that it passes over have been counted (R331). -/
def passedOver (s : State) (die : BitVec 2) (x : Waiting) : State :=
  (waitingIn s (partOfDie s.xd0.mode die)).foldl (bypassed s x (waitingIn s (partOfDie s.xd0.mode die))) s

theorem savedMembers_passedOver (s : State) (die : BitVec 2) (x : Waiting) (l : Launch) (g : Nat) :
    savedMembers (passedOver s die x) l g = savedMembers s l g :=
  savedMembers_congr (fun e => foldl_bypassed_saves s x _ _ s e) l g

theorem exec_gangPlacement {die : BitVec 2} {cores : List Nat} {s : State} {x : Waiting} (hx : chooseLaunch s die = some x)
    (hgood : goodCores s x.small x.needs cores = true) :
    exec (.gangPlacement die cores) s = .next (setRates (if x.drained then replaceGang (passedOver s die x) die x.l x.gang cores
      else placeGang (passedOver s die x) die x.l x.gang cores)).clear := by
  change execGangPlacement die cores s = _
  simp only [execGangPlacement, hx, hgood]
  rfl

/-! ### Plane writes (R334) -/

/-- A core whose shadow plane a loader has written: that of its promised task, or the spare one. -/
def withPlane (w : PlaneData) (c : CoreState) : CoreState :=
  match c.shadow with
  | some (_, t) => { c with shadow := some (planeOf w, t) }
  | none => { c with spare := planeOf w }

theorem withPlane_plane (w : PlaneData) (c : CoreState) : (withPlane w c).plane = c.plane := by
  unfold withPlane
  split <;> rfl

/-- A die with bytes written into the microprogram store of one central array's sequencer. -/
def withMicro (a : BitVec 5) (w : PlaneData) (x : DieState) : DieState :=
  { x with micro := x.micro.set a.toNat (storeMicro (x.micro.get a.toFin) w.micro) a.isLt }

/-- The loader's answer to its write: whether it was dropped. -/
def State.answered (s : State) (dropped : Bool) : State := { s with dropped := dropped }

@[simp] theorem answered_agent (s : State) (b : Bool) (k : Nat) : (s.answered b).agent k = s.agent k := rfl
@[simp] theorem answered_die (s : State) (b : Bool) (d : BitVec 2) : (s.answered b).die d = s.die d := rfl

theorem exec_planeWrite_shadow (k : Nat) (w : PlaneData) (s : State) :
    exec (.planeWrite k .shadow w) s = .next ((s.mapAgent k (withPlane w)).answered false).clear := rfl

theorem exec_planeWrite_micro (k : Nat) (a : BitVec 5) (w : PlaneData) (s : State) :
    exec (.planeWrite k (.micro a) w) s = if centralBusy s (dieOf k) a then .next (s.answered true).clear
      else .next ((s.mapDie (dieOf k) (withMicro a w)).answered false).clear := rfl

theorem withMicro_get (a b : BitVec 5) (w : PlaneData) (x : DieState) :
    (withMicro a w x).micro.get b.toFin = if b = a then storeMicro (x.micro.get a.toFin) w.micro else x.micro.get b.toFin := by
  change (x.micro.set a.toNat _ a.isLt)[b.toNat] = if b = a then _ else x.micro[b.toNat]
  rw [Vector.getElem_set]
  simp [BitVec.toNat_eq, eq_comm]

/-! ### The latency bound (R333, R351) -/

/-- A drain of the core's task is requested, or in progress. -/
def drainAsked (c : CoreState) : Prop := c.drainReq ≠ none ∨ c.drainRpc ≠ none

theorem requestDrain_asks (s : State) (k : Nat) : drainAsked ((requestDrain s k).agent k) := by
  rw [requestDrain, agent_mapAgent_same]
  split
  · next h => simpa [drainAsked, Option.isSome_iff_ne_none] using h
  · exact .inl (by simp)

theorem requestDrain_keeps {s : State} {j : Nat} (h : drainAsked (s.agent j)) (k : Nat) :
    drainAsked ((requestDrain s k).agent j) := by
  by_cases hj : j = k
  · exact hj ▸ requestDrain_asks s k
  · rwa [requestDrain, agent_mapAgent, if_neg hj]

theorem foldl_requestDrain_asked {ks : List Nat} {k : Nat} (hk : k ∈ ks) (s : State) :
    drainAsked ((ks.foldl requestDrain s).agent k) := by
  induction ks generalizing s with
  | nil => cases hk
  | cons j r ih =>
    rcases List.mem_cons.1 hk with rfl | hk
    · exact List.foldlRecOn (motive := fun t => drainAsked (t.agent k)) r requestDrain (requestDrain_asks s k)
        fun _ ht i _ => requestDrain_keeps ht i
    · exact ih hk (requestDrain s j)

/-- The free cores of a die with those that gangs which drain already will leave. -/
def freeSoon (s : State) (vs : List (Launch × Gang)) (d : BitVec 2) : List Nat :=
  freeCores s d ++ (vs.filter fun x => draining s x.2).flatMap fun x => x.2.cores.filter fun k => dieOf k == d

theorem exec_latencyBound {die : BitVec 2} {id : Nat} {s : State} {l : Launch} {g : Nat} {dr : Bool} {gs : List Gang}
    (hl : (s.die die).active.launches.find? (fun l => l.id == id && l.eligible) = some l) (hg : nextGang l = some (g, dr))
    (hbound : latencyBound s (partOfDie s.xd0.mode die) ≠ 0)
    (hlate : l.since + 130 * latencyBound s (partOfDie s.xd0.mode die) < s.time)
    (hfits : fits (decide (l.plane.gsize ≤ 16)) (memberDies s die l g dr)
      (freeSoon s (victims s (partOfDie s.xd0.mode die) l.prio)) = false)
    (hpick : pickVictims (decide (l.plane.gsize ≤ 16)) (memberDies s die l g dr)
      (freeSoon s (victims s (partOfDie s.xd0.mode die) l.prio)) []
      ((victims s (partOfDie s.xd0.mode die) l.prio).filter fun x => !draining s x.2) = some gs)
    (hslots : ∀ d, slotsUsed s d + ((gs.flatMap (·.cores)).filter fun k => dieOf k == d).length ≤ 512) :
    exec (.latencyBound die id) s = .next ((gs.flatMap (·.cores)).foldl requestDrain s).clear := by
  have hroom : (allDies.any fun d => decide (((gs.flatMap (·.cores)).filter fun k => dieOf k == d) ≠ []) &&
      decide (512 < slotsUsed s d + ((gs.flatMap (·.cores)).filter fun k => dieOf k == d).length)) = false := by
    simp only [List.any_eq_false, Bool.and_eq_true, decide_eq_true_eq, not_and]
    intro d _ _
    exact Nat.not_lt.2 (hslots d)
  have hdue : ¬ s.time ≤ l.since + 130 * latencyBound s (partOfDie s.xd0.mode die) := Nat.not_le.2 hlate
  unfold freeSoon at hfits hpick
  change execLatencyBound die id s = _
  simp only [execLatencyBound, hl, hg, hfits, hpick, hroom, decide_eq_false hbound, decide_eq_false hdue]
  rfl

end Sys2Proof.Machine

namespace Sys2Proof.Rules

open Sys2Proof.Machine

/-- A chosen gang is placed by promises to its cores: of its next members for a new gang, of its saved ones for a drained gang. -/
theorem gangsPlaced : Placement := by
  intro die cores s x hx hgood
  obtain ⟨hdies, hnodup⟩ := goodCores_places hgood
  refine ⟨_, exec_gangPlacement hx hgood, fun hnew => ?_, fun hdrained => ?_⟩
  · rw [hnew]
    refine ⟨placeGang_lists _ die x.l x.gang cores, fun k i hki => ?_⟩
    obtain ⟨p, t, hshadow, hfit⟩ := placeGang_members hnodup (passedOver s die x) die x.l x.gang hki
    exact ⟨p, t, by simpa using hshadow, hfit⟩
  · have hneeds : cores.map dieOf = (savedMembers s x.l x.gang).map (·.1) := by
      rw [hdies, chooseLaunch_needs hx, hdrained]
      rfl
    intro v k hvk
    rw [hdrained]
    rw [← savedMembers_passedOver s die x] at hvk hneeds
    obtain ⟨p, t, hshadow, hwid, hlaunch, hgang⟩ := replaceGang_members hnodup hneeds die hvk
    exact ⟨p, t, by simpa using hshadow, hwid, hlaunch, hgang, die_of_mem_zip hneeds hvk⟩

/-- A plane write is dropped, or changes the shadow plane of its core or one microprogram store. -/
theorem planeWrites : PlaneWrites := by
  intro k w s
  refine ⟨rfl, ⟨_, exec_planeWrite_shadow k w s, rfl, ?_, ?_, ?_⟩, fun a hbusy => ?_, fun a hidle => ?_⟩
  · simp [withPlane_plane]
  · intro p t hpt
    simp [withPlane, hpt]
  · intro hnone
    simp [withPlane, hnone]
  · exact (exec_planeWrite_micro k a w s).trans (if_pos hbusy)
  · exact ⟨_, (exec_planeWrite_micro k a w s).trans (if_neg (by simp [hidle])), rfl, rfl, fun b => (by simp [withMicro_get])⟩

/-- Past its latency bound a launch has the drains of its victims requested, one core after another. -/
theorem latencyBoundDrains : LatencyBound := by
  intro die id s l g dr gs part ds small vs going free hl hg hbound hlate hfits hpick hslots
  exact ⟨_, exec_latencyBound hl hg hbound hlate hfits hpick hslots, fun k hk => foldl_requestDrain_asked hk s⟩

/-- Settles O32: a chosen gang's cores are promised its tasks, loaders' writes change what they name alone, and the latency bound
asks for drains. -/
theorem placement : Obligations.Placement := ⟨gangsPlaced, planeWrites, latencyBoundDrains⟩

end Sys2Proof.Rules

/-! SUPPORT. The host's window on device memory, and power and cooling (R17, R308, R310, R359 to R366): the base memory byte by byte,
what the host reads and writes of device memory, and what a change of the issue rates leaves. -/

namespace Sys2Proof.Machine

open Sys2Proof

/-! ### Messages and log entries (R348, R367) -/

/-- Raising a vector changes its function, and may send a message. -/
theorem raiseVector_frame (s : State) (p : BitVec 2) (v : Nat) :
    ∃ pfs msix, raiseVector s p v = { s with pfs := pfs, msix := msix } := by
  simp only [raiseVector]
  split
  · exact ⟨_, _, rfl⟩
  · split
    · exact ⟨_, _, rfl⟩
    · split <;> exact ⟨_, _, rfl⟩

theorem raiseAll_frame (s : State) (v : Nat) : ∃ pfs msix, raiseAll s v = { s with pfs := pfs, msix := msix } := by
  refine List.foldlRecOn (motive := fun t : State => ∃ pfs msix, t = { s with pfs := pfs, msix := msix }) allDies _
    ⟨s.pfs, s.msix, rfl⟩ ?_
  rintro t ⟨pfs, msix, rfl⟩ p -
  exact raiseVector_frame { s with pfs := pfs, msix := msix } p v

/-- The log entry of a dropped host write changes its die, and may send a message. -/
theorem hostDropped_frame (s : State) (a : Nat) :
    ∃ dies pfs msix, hostDropped s a = { s with dies := dies, pfs := pfs, msix := msix } := by
  obtain ⟨pfs, msix, h⟩ := raiseVector_frame _ _ _
  exact ⟨_, pfs, msix, h⟩

/-! ### The base memory (R129, R130) -/

/-- What the base memory gives of a byte: its value and its poison mark. -/
def baseByte (s : State) (pa : Nat) : Byte × Bool := (memGet s.mem pa, s.poison.contains pa)

/-- What some bytes give an address: the first entry for it, or else `b`. -/
def entryOr (bytes : List WByte) (pa : Nat) (b : Byte × Bool) : Byte × Bool :=
  ((bytes.find? fun x => x.pa == pa).map fun x => (x.val, x.poison)).getD b

theorem entryOr_at (w : Write) (pa : Nat) (b : Byte × Bool) :
    entryOr w.bytes pa b = ((w.at pa).map fun x => (x.val, x.poison)).getD b := rfl

theorem byteAt_of_no_writes {s : State} (h : s.writes = []) (pa : Nat) : byteAt s pa = baseByte s pa := by
  rw [byteAt_eq, h]
  rfl

theorem baseByte_baseWrite (s : State) (rel : Option Release) (bytes : List WByte) (pa : Nat) :
    baseByte (baseWrite s rel bytes) pa = entryOr bytes pa (baseByte s pa) := by
  rw [baseByte, memGet_baseWrite, poison_baseWrite, entryOr]
  cases bytes.find? fun x => x.pa == pa <;> rfl

/-- Writes made into the base memory one after another: of each byte the last write that gives it counts. -/
theorem baseByte_foldl_baseWrite (ws : List Write) (s : State) (pa : Nat) :
    baseByte (ws.foldl (fun s w => baseWrite s w.rel w.bytes) s) pa =
      ((ws.reverse.findSome? (·.at pa)).map fun b => (b.val, b.poison)).getD (baseByte s pa) := by
  induction ws generalizing s with
  | nil => rfl
  | cons w r ih =>
    rw [List.foldl_cons, ih, baseByte_baseWrite, entryOr_at, List.reverse_cons, List.findSome?_append]
    cases r.reverse.findSome? (·.at pa) with
    | some b => rfl
    | none => cases h : w.at pa <;> simp [h]

/-- Settling every write leaves the latest value of every byte. -/
theorem byteAt_settleAll (s : State) (pa : Nat) : byteAt (settleAll s) pa = byteAt s pa := by
  rw [byteAt_of_no_writes rfl, byteAt_eq]
  exact baseByte_foldl_baseWrite s.writes s pa

/-! ### Device memory that the host may reach (R310, R313) -/

/-- A byte of device memory of partition `p`: not control space, and no hole of the map. -/
def ownByte (s : State) (p : BitVec 2) (pa : Nat) : Prop :=
  regionOf pa ≠ .control ∧ regionOf pa ≠ .none ∧ regionOf pa ≠ .host ∧ partOwns s.xd0.mode p.toNat pa = true

/-- A byte that no function shows: a hole of the map, or host memory. -/
def outsideByte (pa : Nat) : Prop := regionOf pa = .none ∨ regionOf pa = .host

/-- What a host read gives of one byte, or none for an Unsupported Request. -/
def hostReadByte (s : State) (p : BitVec 2) (pa : Nat) : Option (Byte × Bool) :=
  match regionOf pa with
  | .control => if hostReads s p pa then (ctlByte s pa).map fun b =>
      if linked s hostSocket pa then (b, false) else (0, true) else none
  | .none | .host => none
  | _ => if partOwns s.xd0.mode p.toNat pa then some (if linked s hostSocket pa then byteAt s pa else (0, true)) else none

theorem hostRead_eq (s : State) (p : BitVec 2) (a len : Nat) :
    hostRead s p a len = if ((List.range len).map fun i => hostReadByte s p (a + i)).all (·.isSome)
      then some (((List.range len).map fun i => hostReadByte s p (a + i)).filterMap id) else none := rfl

/-- Whether a host write of one byte is accepted. -/
def hostWriteByte (s : State) (p : BitVec 2) (pa : Nat) : Bool :=
  match regionOf pa with
  | .control => hostWrites s p pa
  | .none | .host => false
  | _ => partOwns s.xd0.mode p.toNat pa

theorem hostMayWrite_eq (s : State) (p : BitVec 2) (a len : Nat) :
    hostMayWrite s p a len = (List.range len).all fun i => hostWriteByte s p (a + i) := rfl

theorem hostReadByte_own {s : State} {p : BitVec 2} {pa : Nat} (h : ownByte s p pa) :
    hostReadByte s p pa = some (if linked s hostSocket pa then byteAt s pa else (0, true)) := by
  obtain ⟨hctl, hnone, hhost, hown⟩ := h
  unfold hostReadByte
  split
  · next hr => exact absurd hr hctl
  · next hr => exact absurd hr hnone
  · next hr => exact absurd hr hhost
  · exact if_pos hown

theorem hostWriteByte_own {s : State} {p : BitVec 2} {pa : Nat} (h : ownByte s p pa) : hostWriteByte s p pa = true := by
  obtain ⟨hctl, hnone, hhost, hown⟩ := h
  unfold hostWriteByte
  split
  · next hr => exact absurd hr hctl
  · next hr => exact absurd hr hnone
  · next hr => exact absurd hr hhost
  · exact hown

theorem hostReadByte_outside {pa : Nat} (h : outsideByte pa) (s : State) (p : BitVec 2) : hostReadByte s p pa = none := by
  unfold hostReadByte
  rcases h with h | h <;> rw [h]

theorem hostWriteByte_outside {pa : Nat} (h : outsideByte pa) (s : State) (p : BitVec 2) : hostWriteByte s p pa = false := by
  unfold hostWriteByte
  rcases h with h | h <;> rw [h]

theorem hostRead_own {s : State} {p : BitVec 2} {a len : Nat} (h : ∀ i, i < len → ownByte s p (a + i)) :
    hostRead s p a len =
      some ((List.range len).map fun i => if linked s hostSocket (a + i) then byteAt s (a + i) else (0, true)) := by
  have hbytes : ((List.range len).map fun i => hostReadByte s p (a + i)) =
      ((List.range len).map fun i => if linked s hostSocket (a + i) then byteAt s (a + i) else (0, true)).map some := by
    rw [List.map_map]
    exact List.map_congr_left fun i hi => hostReadByte_own (h i (List.mem_range.1 hi))
  rw [hostRead_eq, hbytes]
  simp

theorem hostRead_outside {a len : Nat} (h : ∃ i, i < len ∧ outsideByte (a + i)) (s : State) (p : BitVec 2) :
    hostRead s p a len = none := by
  obtain ⟨i, hi, hout⟩ := h
  rw [hostRead_eq, if_neg]
  intro hall
  have := List.all_eq_true.1 hall _ (List.mem_map_of_mem (List.mem_range.2 hi))
  simp [hostReadByte_outside hout] at this

theorem hostMayWrite_own {s : State} {p : BitVec 2} {a len : Nat} (h : ∀ i, i < len → ownByte s p (a + i)) :
    hostMayWrite s p a len = true := by
  rw [hostMayWrite_eq, List.all_eq_true]
  exact fun i hi => hostWriteByte_own (h i (List.mem_range.1 hi))

theorem hostMayWrite_outside {a len : Nat} (h : ∃ i, i < len ∧ outsideByte (a + i)) (s : State) (p : BitVec 2) :
    hostMayWrite s p a len = false := by
  obtain ⟨i, hi, hout⟩ := h
  rw [hostMayWrite_eq, List.all_eq_false]
  exact ⟨i, List.mem_range.2 hi, by simp [hostWriteByte_outside hout]⟩

/-! ### A host write of device memory (R310, R359) -/

/-- The bytes of a host write, each at its address. -/
def windowBytes (a : Nat) (data : List Byte) : List WByte := data.zipIdx.map fun b => ⟨a + b.2, b.1, false⟩

theorem windowBytes_cons (a : Nat) (b : Byte) (r : List Byte) : windowBytes a (b :: r) = ⟨a, b, false⟩ :: windowBytes (a + 1) r := by
  simp only [windowBytes, List.zipIdx_cons, List.map_cons, Nat.add_zero, zero_add, List.zipIdx_succ, List.map_map]
  congr 1
  exact List.map_congr_left fun x _ => by simp [Nat.add_assoc, Nat.add_comm 1]

/-- An address takes the first of some bytes where it is the address's, and what the others give otherwise. -/
theorem entryOr_cons (b : WByte) (r : List WByte) (pa : Nat) (x : Byte × Bool) :
    entryOr (b :: r) pa x = if b.pa = pa then (b.val, b.poison) else entryOr r pa x := by
  by_cases h : b.pa = pa <;> simp [entryOr, h]

/-- The bytes of a host write that pass a filter give the addresses of its range that pass it their data. -/
theorem entryOr_windowBytes (keep : Nat → Bool) (data : List Byte) (a pa : Nat) (x : Byte × Bool) :
    entryOr ((windowBytes a data).filter fun b => keep b.pa) pa x =
      if keep pa = true ∧ a ≤ pa ∧ pa < a + data.length then (data.getD (pa - a) 0, false) else x := by
  induction data generalizing a with
  | nil => exact (if_neg fun ⟨_, hlo, hhi⟩ => Nat.not_lt.2 hlo hhi).symm
  | cons b r ih =>
    rw [windowBytes_cons, List.length_cons]
    rcases Nat.lt_trichotomy pa a with hlt | rfl | hgt
    · have hne : ¬ a = pa := by omega
      rw [if_neg (by omega), List.filter_cons]
      split <;> simp only [entryOr_cons, if_neg hne, ih] <;> exact if_neg (by omega)
    · rw [List.filter_cons]
      cases hk : keep pa with
      | true => simp [entryOr_cons]
      | false => simp [ih, hk]
    · have hne : ¬ a = pa := by omega
      have hsub : pa - a = pa - (a + 1) + 1 := by omega
      have hrange : (a + 1 ≤ pa ∧ pa < a + 1 + r.length) ↔ (a ≤ pa ∧ pa < a + (r.length + 1)) := by omega
      rw [List.filter_cons, hsub, List.getD_cons_succ]
      split <;> simp only [entryOr_cons, if_neg hne, ih, hrange]

/-- Everything settled, with the bytes of a host write that a route carries in the base memory (R359). -/
def hostStored (s : State) (a : Nat) (data : List Byte) : State :=
  baseWrite (settleAll s) none ((windowBytes a data).filter fun b => linked s hostSocket b.pa)

/-- Beside the bytes that it stores, a host write may log that it has dropped some. -/
theorem hostStore_frame (s : State) (a : Nat) (data : List Byte) :
    ∃ dies pfs msix, hostStore s a data = { hostStored s a data with dies := dies, pfs := pfs, msix := msix } := by
  simp only [hostStore]
  split
  · next b _ => exact hostDropped_frame (hostStored s a data) b.pa
  · exact ⟨_, _, _, rfl⟩

/-- A host write changes the bytes of its range to which a route leads from the host link, and no other byte. -/
theorem byteAt_hostStore (s : State) (a : Nat) (data : List Byte) (pa : Nat) :
    byteAt (hostStore s a data) pa = if linked s hostSocket pa = true ∧ a ≤ pa ∧ pa < a + data.length
      then (data.getD (pa - a) 0, false) else byteAt s pa := by
  obtain ⟨dies, pfs, msix, h⟩ := hostStore_frame s a data
  calc byteAt (hostStore s a data) pa
      = baseByte (hostStored s a data) pa := by rw [h]; exact byteAt_of_no_writes rfl pa
    _ = entryOr ((windowBytes a data).filter fun b => linked s hostSocket b.pa) pa (byteAt s pa) := by
        rw [hostStored, baseByte_baseWrite, ← byteAt_of_no_writes (s := settleAll s) rfl, byteAt_settleAll]
    _ = _ := entryOr_windowBytes (linked s hostSocket) data a pa _

theorem settleAll_core (s : State) : (settleAll s).core = s.core :=
  foldl_keeps (·.core) (fun s (w : Write) => baseWrite s w.rel w.bytes) (fun _ _ => rfl) s.writes s

theorem hostStore_core (s : State) (a : Nat) (data : List Byte) : (hostStore s a data).core = s.core := by
  obtain ⟨dies, pfs, msix, h⟩ := hostStore_frame s a data
  rw [h]
  exact settleAll_core s

/-! ### BAR0_REQUEST (R308, R310, R364, R366) -/

section
variable {p : BitVec 2} {ide : Bool} {a len : Nat} {data : List Byte} {s : State}

/-- A request of some length within the window, with as much data as it says, is one that the interface takes up. -/
theorem exec_bar0Request (hlen : 0 < len) (hend : a + len ≤ 2 ^ 40) (hdata : data.length = len) (w : Bool) :
    exec (.bar0Request p ⟨ide, w⟩ a len data) s =
      if !barOpen s p ide then ok (barAnswer s none)
      else if !w then ok (barAnswer s (hostRead s p a len))
      else if !hostMayWrite s p a len then ok (barAnswer s none)
      else if (windowAt a).isSome && swapping s p.toNat then notEnabled "BAR0_REQUEST"
      else if a < Config.controlEnd then
        if linked s hostSocket a then stepped (barAnswer (ctlWrite s a data) (some []))
        else ok (barAnswer (hostDropped s a) (some []))
      else ok (barAnswer (hostStore s a data) (some [])) := by
  change execBar0Request p ⟨ide, w⟩ a len data s = _
  exact if_neg (by simpa [hdata, Nat.ne_of_gt hlen] using hend)

theorem exec_bar0Request_closed (hlen : 0 < len) (hend : a + len ≤ 2 ^ 40) (hdata : data.length = len)
    (hopen : barOpen s p ide = false) (w : Bool) : exec (.bar0Request p ⟨ide, w⟩ a len data) s = ok (barAnswer s none) := by
  rw [exec_bar0Request hlen hend hdata, hopen]
  rfl

theorem exec_bar0Request_read (hlen : 0 < len) (hend : a + len ≤ 2 ^ 40) (hdata : data.length = len)
    (hopen : barOpen s p ide = true) :
    exec (.bar0Request p ⟨ide, false⟩ a len data) s = ok (barAnswer s (hostRead s p a len)) := by
  rw [exec_bar0Request hlen hend hdata, hopen]
  rfl

theorem exec_bar0Request_outside (hlen : 0 < len) (hend : a + len ≤ 2 ^ 40) (hdata : data.length = len)
    (hopen : barOpen s p ide = true) (hout : ∃ i, i < len ∧ outsideByte (a + i)) (w : Bool) :
    exec (.bar0Request p ⟨ide, w⟩ a len data) s = ok (barAnswer s none) := by
  rw [exec_bar0Request hlen hend hdata, hopen, hostRead_outside hout, hostMayWrite_outside hout]
  cases w <;> rfl

/-- No launch window lies in device memory above control space. -/
theorem windowAt_memory (ha : Config.controlEnd ≤ a) : windowAt a = none := by
  have hlow : ¬ a < 4 * blockSize := Nat.not_lt.2 (Nat.le_trans (by decide) ha)
  simp [windowAt, hlow]

theorem exec_bar0Request_write (hlen : 0 < len) (hend : a + len ≤ 2 ^ 40) (hdata : data.length = len)
    (hopen : barOpen s p ide = true) (hown : ∀ i, i < len → ownByte s p (a + i)) (ha : Config.controlEnd ≤ a) :
    exec (.bar0Request p ⟨ide, true⟩ a len data) s = ok (barAnswer (hostStore s a data) (some [])) := by
  rw [exec_bar0Request hlen hend hdata, hopen, hostMayWrite_own hown, windowAt_memory ha]
  exact if_neg (Nat.not_lt.2 ha)

end

/-! ### Issue rates (R17, R361) -/

theorem sixteenths_toNat (r : BitVec 4) : (sixteenths r).toNat = if r = 0 then 16 else r.toNat := by
  unfold sixteenths
  split
  · rfl
  · exact BitVec.toNat_setWidth_of_le (by decide)

/-- The rates of the dies that a cut asks for. -/
def cutRates (rates : List (BitVec 4)) : RegFile 2 (BitVec 5) := Vector.ofFn fun (i : Fin 4) => sixteenths (rates.getD i.val 0)

theorem cutRates_get (rates : List (BitVec 4)) (d : BitVec 2) :
    ((cutRates rates).get d.toFin).toNat = if rates.getD d.toNat 0 = 0 then 16 else (rates.getD d.toNat 0).toNat := by
  rw [← sixteenths_toNat]
  exact congrArg BitVec.toNat (Vector.getElem_ofFn d.isLt)

theorem replicate_rate (x : BitVec 5) (d : BitVec 2) : ((Vector.replicate (2 ^ 2) x).get d.toFin) = x :=
  Vector.getElem_replicate d.isLt

/-- Between `s` and `u` no slot has signalled and no byte or write has changed, and XD0 is `x`. -/
def powerStep (s u : State) (x : Xd0) : Prop := u.sig = .none ∧ u.mem = s.mem ∧ u.writes = s.writes ∧ u.xd0 = x

/-- Setting every agent's rate for a new XD0, and telling the functions, change none of these. -/
theorem powerStep_rated (s : State) (x : Xd0) : powerStep s (setRates { s with xd0 := x }).clear x := ⟨rfl, rfl, rfl, rfl⟩

theorem powerStep_told (s : State) (x : Xd0) (v : Nat) :
    powerStep s (raiseAll (setRates { s with xd0 := x }) v).clear x := by
  obtain ⟨pfs, msix, h⟩ := raiseAll_frame (setRates { s with xd0 := x }) v
  rw [h]
  exact powerStep_rated s x

section
variable {w tj : Nat} {rates : List (BitVec 4)} {s : State}

theorem cutDue_iff : cutDue s w tj = true ↔ s.xd0.pwrcap.toNat < w ∨ 950 < tj := by simp [cutDue]

/-- XD0 after a cut: the readings, the rates and that a cut is in force. -/
def cutXd0 (s : State) (w tj : Nat) (rates : List (BitVec 4)) : Xd0 :=
  { (setWatts s w tj).xd0 with rates := cutRates rates, cutting := true }

theorem exec_powerCut_eq (w tj : Nat) (rates : List (BitVec 4)) (s : State) : exec (.powerCut w tj rates) s =
    if !cutDue s w tj || 1100 < tj || rates.length ≠ 4 || !((List.finRange 4).all fun i =>
        ((cutRates rates).get i).toNat ≤ (s.xd0.rates.get i).toNat) || cutRates rates = s.xd0.rates then notEnabled "POWER_CUT"
    else ok (if s.xd0.cutting then setRates { s with xd0 := cutXd0 s w tj rates }
      else raiseAll (setRates { s with xd0 := cutXd0 s w tj rates }) 10) := rfl

theorem exec_powerCut (hdue : cutDue s w tj = true) (htj : tj ≤ 1100) (hlen : rates.length = 4)
    (hlower : ∀ d : BitVec 2, ((cutRates rates).get d.toFin).toNat ≤ (s.xd0.rates.get d.toFin).toNat)
    (hne : cutRates rates ≠ s.xd0.rates) :
    ∃ u, exec (.powerCut w tj rates) s = .next u ∧ powerStep s u (cutXd0 s w tj rates) := by
  have hall (i : Fin 4) : ((cutRates rates).get i).toNat ≤ (s.xd0.rates.get i).toNat := hlower (BitVec.ofFin i)
  rw [exec_powerCut_eq, if_neg (by simp [hdue, hlen, htj, hall, hne])]
  refine ⟨_, rfl, ?_⟩
  split
  · exact powerStep_rated s _
  · exact powerStep_told s _ 10

/-- XD0 after the end of a cut: the readings and full rates. -/
def fullXd0 (s : State) (w tj : Nat) : Xd0 :=
  { (setWatts s w tj).xd0 with rates := Vector.replicate _ 16, cutting := false, hot := false }

theorem exec_powerCutEnd (hcut : s.xd0.cutting = true) (hdue : cutDue s w tj = false) :
    ∃ u, exec (.powerCutEnd w tj) s = .next u ∧ powerStep s u (fullXd0 s w tj) := by
  refine ⟨_, ?_, powerStep_told s _ 10⟩
  change execPowerCutEnd w tj s = _
  exact if_neg (by simp [hcut, hdue])

/-- XD0 as the hottest junction rises above 110.0 °C: the reading, the time and the least rates. -/
def hotXd0 (s : State) (tj : Nat) : Xd0 :=
  { s.xd0 with tjmax := BitVec.ofNat 32 tj, rates := Vector.replicate _ 1, cutting := true, hot := true, hotAt := s.time }

theorem exec_thermalThrottle_rise (htj : 1100 < tj) (hcool : s.xd0.hot = false) :
    ∃ u, exec (.thermalThrottle tj) s = .next u ∧ powerStep s u (hotXd0 s tj) := by
  refine ⟨_, ?_, powerStep_told s _ 10⟩
  change execThermalThrottle tj s = _
  exact if_pos (by simp [htj, hcool])

/-- XD0 as the hottest junction has fallen again: the reading. -/
def coolXd0 (s : State) (tj : Nat) : Xd0 := { s.xd0 with tjmax := BitVec.ofNat 32 tj, hot := false }

theorem exec_thermalThrottle_fall (htj : tj ≤ 1100) (hhot : s.xd0.hot = true) :
    ∃ u, exec (.thermalThrottle tj) s = .next u ∧ powerStep s u (coolXd0 s tj) := by
  refine ⟨{ s with xd0 := coolXd0 s tj, sig := .none }, ?_, rfl, rfl, rfl, rfl⟩
  change execThermalThrottle tj s = _
  exact (if_neg (by simp [hhot])).trans (if_pos (by simp [htj, hhot]))

theorem exec_thermalShutdown (htj : 1150 < tj) (hhot : s.xd0.hot = true) (hlong : s.xd0.hotAt + shutdownCycles ≤ s.time) :
    exec (.thermalShutdown tj) s = ok { s with powered := false } := by
  change execThermalShutdown tj s = _
  exact if_neg (by simp [htj, hhot, hlong])

end

end Sys2Proof.Machine

namespace Sys2Proof.Rules

open Sys2Proof.Machine

/-- Whether the interface answers, and where the bytes lie, decides what a request on BAR0 does. -/
theorem bar0 : Bar0 := by
  intro p ide a len data s hlen hend hdata owned refused bytes
  refine ⟨fun hclosed w => ?_, fun hopen => ⟨fun hown => ?_, fun hout w => ?_, fun hown ha => ?_⟩⟩
  · refine exec_bar0Request_closed hlen hend hdata ?_ w
    rcases hclosed with h | h | ⟨h, hide⟩
    · simp [barOpen, h]
    · simp [barOpen, h]
    · simp [barOpen, h, hide]
  · rw [exec_bar0Request_read hlen hend hdata hopen, hostRead_own hown]
    rfl
  · exact exec_bar0Request_outside hlen hend hdata hopen hout w
  · refine ⟨_, exec_bar0Request_write hlen hend hdata hopen hown ha, rfl, rfl, hostStore_core s a data, fun i hi => ?_,
      fun pa hpa => ?_⟩
    · refine (byteAt_hostStore s a data (a + i)).trans ?_
      simp [hdata, hi]
    · exact (byteAt_hostStore s a data pa).trans (if_neg (by omega))

/-- Each step of the power manager sets XD0's rates and flags, and leaves every byte. -/
theorem powerAndCooling : PowerAndCooling := by
  intro w tj rates s now rate given
  have hgiven (d : BitVec 2) : ((cutRates rates).get d.toFin).toNat = given d := cutRates_get rates d
  refine ⟨fun hdue htj hlen hlower hdiff => ?_, fun hcut hw htj => ?_, fun htj hcool => ?_, fun htj hhot => ?_,
    fun htj hhot hlong => exec_thermalShutdown htj hhot hlong⟩
  · obtain ⟨d, hd⟩ := hdiff
    have hne : cutRates rates ≠ s.xd0.rates := fun h => hd (by rw [← hgiven, h])
    obtain ⟨u, hexec, hsig, hmem, hwrites, hx⟩ :=
      exec_powerCut (cutDue_iff.2 hdue) htj hlen (fun d => (hgiven d).trans_le (hlower d)) hne
    exact ⟨u, hexec, ⟨hsig, hmem, hwrites⟩, by rw [hx]; rfl, fun d => by simp only [rate, hx]; exact hgiven d⟩
  · have hidle : cutDue s w tj = false := by simpa [cutDue] using ⟨hw, htj⟩
    obtain ⟨u, hexec, hsig, hmem, hwrites, hx⟩ := exec_powerCutEnd hcut hidle
    refine ⟨u, hexec, ⟨hsig, hmem, hwrites⟩, by rw [hx]; rfl, by rw [hx]; rfl, fun d => ?_⟩
    simp only [rate, hx]
    exact congrArg BitVec.toNat (replicate_rate 16 d)
  · obtain ⟨u, hexec, hsig, hmem, hwrites, hx⟩ := exec_thermalThrottle_rise htj hcool
    refine ⟨u, hexec, ⟨hsig, hmem, hwrites⟩, by rw [hx]; rfl, fun d => ?_⟩
    simp only [rate, hx]
    exact congrArg BitVec.toNat (replicate_rate 1 d)
  · obtain ⟨u, hexec, hsig, hmem, hwrites, hx⟩ := exec_thermalThrottle_fall htj hhot
    exact ⟨u, hexec, ⟨hsig, hmem, hwrites⟩, by rw [hx]; rfl, fun d => by simp only [rate, hx]; rfl⟩

/-- Settles O48: what a request on BAR0 answers and writes, and what each step of power management leaves of the rates. -/
theorem hostAndPower : Obligations.HostAndPower := ⟨bar0, powerAndCooling⟩

end Sys2Proof.Rules

/-! SUPPORT. Compares, guard operations and scalar floating point (R33, R167 to R172): what each of their instructions answers
where its guard holds, and the classes of FCLASS. -/

namespace Sys2Proof.Machine

open Sys2Proof

/-! ### Compares and guards (R167, R168) -/

section
variable {o : SR} {d : BitVec 6} {x y g : GuardF} {s : State}

theorem exec_cmp (cc : CmpCond) (h : s.core.guard o.g = true) :
    exec (.cmp cc o) s = .next (s.wrote 1 (.g (lo3 o.d) (cmpHolds cc (s.core.rs o.a) (o.opB s.core)))) :=
  show execCmp cc o s = _ from guardOut_next h o.d _

theorem exec_gand (h : s.core.guard g = true) :
    exec (.gand d x y g) s = .next (s.wrote 1 (.g (lo3 d) (s.core.guard x && s.core.guard y))) :=
  show execGand d x y g s = _ from guardOut_next h d _

theorem exec_gor (h : s.core.guard g = true) :
    exec (.gor d x y g) s = .next (s.wrote 1 (.g (lo3 d) (s.core.guard x || s.core.guard y))) :=
  show execGor d x y g s = _ from guardOut_next h d _

theorem exec_gnot (h : s.core.guard g = true) :
    exec (.gnot d x g) s = .next (s.wrote 1 (.g (lo3 d) (!s.core.guard x))) :=
  show execGnot d x g s = _ from guardOut_next h d _

end

theorem cmpHolds_ne (a b : Word) : cmpHolds .ne a b = decide (a ≠ b) := by
  simp [cmpHolds, bne, beq_eq_decide]

/-! ### The rounding mode of `fmt` (R33) -/

theorem withRnd_known {s : State} (h : rndReserved s.core.rnd = false) (k : Env → Res) :
    withRnd s k = k (s.env s.core.rnd) := by
  simp [withRnd, h]

theorem withRnd_reserved {s : State} (h : rndReserved s.core.rnd = true) (k : Env → Res) :
    withRnd s k = formatFault s := by
  simp [withRnd, h]

theorem trapsWith_trap (s : State) (t : TrapInfo) : trapsWith s (trap s t) t.cause := ⟨t, rfl, rfl⟩

theorem trapsWith_formatFault (s : State) : trapsWith s (formatFault s) 0x12 := trapsWith_trap s _

/-- The illegal-format fault of an operation that takes its mode from `fmt`. -/
theorem trapsWith_withRnd {s : State} (h : rndReserved s.core.rnd = true) (k : Env → Res) :
    trapsWith s (withRnd s k) 0x12 := withRnd_reserved h k ▸ trapsWith_formatFault s

/-! ### Scalar floating point that rounds (R169, R170) -/

theorem exec_fadd (o : SR3) (s : State) :
    exec (.fadd o) s = floatOut o (fun c => fltAdd .f32 (c.rf o.a) (c.rf o.b)) s := rfl

theorem exec_fsub (o : SR3) (s : State) :
    exec (.fsub o) s = floatOut o (fun c => fltAdd .f32 (c.rf o.a) (c.rf o.b).neg) s := rfl

theorem exec_fmul (o : SR3) (s : State) :
    exec (.fmul o) s = floatOut o (fun c => fltMul .f32 (c.rf o.a) (c.rf o.b)) s := rfl

theorem exec_ffma (o : SR3) (s : State) :
    exec (.ffma o) s = floatOut o (fun c => fltFma .f32 (c.rf o.a) (c.rf o.b) (c.rf o.d)) s := rfl

/-- A one-hot word. -/
theorem one_shiftLeft_eq (n : Nat) : 1#64 <<< n = BitVec.ofNat 64 (2 ^ n) :=
  BitVec.eq_of_toNat_eq (by simp [Nat.shiftLeft_eq])

section
variable {o : SR3} {s : State} (h : s.core.guard o.g = true)
include h

theorem floatOut_eq (f : CoreState → Env → Nat × Env) : floatOut o f s =
    withRnd s fun env => .next (laterEnv s 4 (.s o.d (BitVec.ofNat 64 (f s.core env).1)) (f s.core env).2).clear :=
  guarded_on h _

theorem floatOut_next (hr : rndReserved s.core.rnd = false) (f : CoreState → Env → Nat × Env) : floatOut o f s =
    .next (laterEnv s 4 (.s o.d (BitVec.ofNat 64 (f s.core (s.env s.core.rnd)).1)) (f s.core (s.env s.core.rnd)).2).clear :=
  (floatOut_eq h f).trans (withRnd_known hr _)

theorem floatOut_traps (hr : rndReserved s.core.rnd = true) (f : CoreState → Env → Nat × Env) :
    trapsWith s (floatOut o f s) 0x12 :=
  floatOut_eq h f ▸ trapsWith_withRnd hr _

/-- FCVT rounds the value of its source into its target under `fmt`.RND. -/
theorem exec_fcvt (tt ss : Ty) : exec (.fcvt o.d o.a tt ss o.g) s = withRnd s fun env =>
    let r := tyRound tt false (tyNum ss ((s.core.rs o.a).toNat % 2 ^ ss.bits)) env
    .next (laterEnv s 4 (.s o.d (extendTy tt r.1)) r.2).clear :=
  show execFcvt o.d o.a tt ss o.g s = _ from guarded_on h _

/-! ### Scalar floating point that does not round (R169, R171, R172) -/

theorem exec_fmin :
    exec (.fmin o) s = .next (s.wrote 4 (.s o.d ((f32Bits (Num.minX (s.core.rf o.a) (s.core.rf o.b))).setWidth 64))) :=
  show execFmin o s = _ from scalarOut_next h 4 o.d _

theorem exec_fmax :
    exec (.fmax o) s = .next (s.wrote 4 (.s o.d ((f32Bits (Num.maxX (s.core.rf o.a) (s.core.rf o.b))).setWidth 64))) :=
  show execFmax o s = _ from scalarOut_next h 4 o.d _

theorem exec_fcmp (cc : FCmpCond) :
    exec (.fcmp cc o) s = .next (s.wrote 1 (.g (lo3 o.d) (fcmpHolds cc (s.core.rf o.a) (s.core.rf o.b)))) :=
  show execFcmp cc o s = _ from guardOut_next h o.d _

theorem exec_fclass :
    exec (.fclass o.d o.a o.g) s =
      .next (s.wrote 4 (.s o.d (BitVec.ofNat 64 (2 ^ fclassBit ((s.core.rs o.a).setWidth 32))))) := by
  rw [← one_shiftLeft_eq]
  exact scalarOut_next h 4 o.d fun c => 1#64 <<< fclassBit ((c.rs o.a).setWidth 32)

end

/-- The class of a sign, an exponent field and a fraction field of FP32 (R172). -/
def floatClass (neg : Bool) (ex fr : Nat) : Nat :=
  if ex = 255 then (if fr ≠ 0 then 8 else if neg then 0 else 7)
  else if ex = 0 then (if fr = 0 then (if neg then 3 else 4) else (if neg then 2 else 5))
  else if neg then 1 else 6

/-- FCLASS finds the class of the fields of the low word. -/
theorem fclassBit_eq (x : Word) :
    fclassBit (x.setWidth 32) = floatClass (x.getLsbD 31) (x.toNat / 2 ^ 23 % 256) (x.toNat % 2 ^ 23) := by
  have hex : ((x.setWidth 32).extractLsb' 23 8).toNat = x.toNat / 2 ^ 23 % 256 := by
    simp only [BitVec.extractLsb'_toNat, BitVec.toNat_setWidth, Nat.shiftRight_eq_div_pow]
    omega
  have hfr : ((x.setWidth 32).extractLsb' 0 23).toNat = x.toNat % 2 ^ 23 := by
    simp only [BitVec.extractLsb'_toNat, BitVec.toNat_setWidth, Nat.shiftRight_zero]
    omega
  have hneg : (x.setWidth 32).getLsbD 31 = x.getLsbD 31 := by simp
  rw [← hex, ← hfr, ← hneg]
  simp only [fclassBit, floatClass, BitVec.toNat_eq, ne_eq]
  rfl

/-- Of the nine classes, the fields name exactly one. -/
theorem floatClass_iff (neg : Bool) (ex fr : Nat) :
    let n := floatClass neg ex fr
    n < 9 ∧ (n = 0 ↔ neg = true ∧ ex = 255 ∧ fr = 0) ∧ (n = 1 ↔ neg = true ∧ ex ≠ 255 ∧ ex ≠ 0) ∧
      (n = 2 ↔ neg = true ∧ ex = 0 ∧ fr ≠ 0) ∧ (n = 3 ↔ neg = true ∧ ex = 0 ∧ fr = 0) ∧
      (n = 4 ↔ neg = false ∧ ex = 0 ∧ fr = 0) ∧ (n = 5 ↔ neg = false ∧ ex = 0 ∧ fr ≠ 0) ∧
      (n = 6 ↔ neg = false ∧ ex ≠ 255 ∧ ex ≠ 0) ∧ (n = 7 ↔ neg = false ∧ ex = 255 ∧ fr = 0) ∧
      (n = 8 ↔ ex = 255 ∧ fr ≠ 0) := by
  unfold floatClass
  cases neg <;> by_cases hinf : ex = 255 <;> by_cases hzero : ex = 0 <;> by_cases hfr : fr = 0 <;>
    simp [hinf, hzero, hfr]

end Sys2Proof.Machine

namespace Sys2Proof.Rules

open Sys2Proof.Machine

/-- A compare writes what its condition says of the operands' values, and a guard operation its Boolean value. -/
theorem guardResults : GuardResults := by
  intro o d x y g s hg ho a b
  exact ⟨exec_cmp .eq ho, cmpHolds_ne a b ▸ exec_cmp .ne ho, exec_cmp .lt ho, exec_cmp .le ho, exec_cmp .ltu ho,
    exec_cmp .leu ho, exec_gand hg, exec_gor hg, exec_gnot hg⟩

/-- Every scalar operation that rounds goes through `withRnd`. -/
theorem scalarFloats : ScalarFloats := by
  intro o tt ss s hg a b env out cv
  refine ⟨fun hr => ⟨?_, ?_, ?_, ?_, ?_⟩, fun hr => ⟨?_, ?_, ?_, ?_, ?_⟩⟩
  · exact (exec_fadd o s).trans (floatOut_next hg hr _)
  · exact (exec_fsub o s).trans (floatOut_next hg hr _)
  · exact (exec_fmul o s).trans (floatOut_next hg hr _)
  · exact (exec_ffma o s).trans (floatOut_next hg hr _)
  · exact (exec_fcvt hg tt ss).trans (withRnd_known hr _)
  · exact exec_fadd o s ▸ floatOut_traps hg hr _
  · exact exec_fsub o s ▸ floatOut_traps hg hr _
  · exact exec_fmul o s ▸ floatOut_traps hg hr _
  · exact exec_ffma o s ▸ floatOut_traps hg hr _
  · exact exec_fcvt hg tt ss ▸ trapsWith_withRnd hr _

/-- Nothing of `fmt` decides an operation that does not round. -/
theorem scalarFloatCompares : ScalarFloatCompares := by
  intro o s hg a b
  refine ⟨exec_fmin hg, exec_fmax hg, exec_fcmp hg .eq, exec_fcmp hg .ne, exec_fcmp hg .lt, exec_fcmp hg .le,
    exec_fcmp hg .uno, ?_⟩
  intro neg ex fr
  obtain ⟨hlt, hclass⟩ := floatClass_iff neg ex fr
  exact ⟨_, hlt, fclassBit_eq (s.core.rs o.a) ▸ exec_fclass hg, hclass⟩

/-- Settles O7: every compare, guard operation and scalar floating operation completes with its result, and one that rounds
traps on a reserved mode. -/
theorem guardsAndScalarFloats : Obligations.GuardsAndScalarFloats := ⟨guardResults, scalarFloats, scalarFloatCompares⟩

end Sys2Proof.Rules

/-! SUPPORT. System registers (R177, R182, R184, R305, R306): what SETFMT, MFS, MTS and ERET answer in task and in firmware mode,
by the number of the register. -/

namespace Sys2Proof.Machine

open Sys2Proof

/-! ### SETFMT, MFS and MTS at a task (R177, R184) -/

/-- SETFMT takes a value within the fields of `fmt`, and refuses any other with the illegal-format fault. -/
theorem exec_setfmt {a : BitVec 6} {g : GuardF} {s : State} (hg : s.core.guard g = true) : exec (.setfmt a g) s =
    if (s.core.rs a).extractLsb' 20 44 = 0 then .next (s.wrote 4 (.sys 0x010 (s.core.rs a)))
    else trap s (endTrap s 0x12 (s.core.rs a)) :=
  show execSetfmt a g s = _ from guarded_on hg _

theorem taskSysReg_lt {n : BitVec 12} (h : taskSysReg n = true) : n.toNat < 0x100 := by
  simp only [taskSysReg, Bool.or_eq_true, Bool.and_eq_true, decide_eq_true_eq, beq_iff_eq] at h
  rcases h with ⟨_, hle⟩ | rfl
  · omega
  · decide

/-- No number of a task's register is illegal, in either mode (R306). -/
theorem firmwareIllegal_low {n : BitVec 12} (h : n.toNat < 0x100) (write : Bool) : firmwareIllegal n write = false := by
  simp [firmwareIllegal, Nat.not_le.2 h]

section
variable {a : BitVec 6} {n : BitVec 12} {g : GuardF} {s : State} (hg : s.core.guard g = true)
include hg

theorem exec_mfs : exec (.mfs a n g) s =
    if isController s.coreId && firmwareIllegal n false then trap s (endTrap s 0x03 0)
    else if 0x100 ≤ n.toNat && !isController s.coreId then privilege s
    else if n = 0x011 && s.core.chains then hold s .chain
    else .next (s.wrote 1 (.s a (s.sysReg n))) :=
  show execMfs a n g s = _ from guarded_on hg _

theorem exec_mts : exec (.mts a n g) s =
    if isController s.coreId && firmwareIllegal n true then trap s (endTrap s 0x03 0)
    else if 0x100 ≤ n.toNat && !isController s.coreId then privilege s
    else if n = 0x010 then
      if (s.core.rs a).extractLsb' 20 12 = 0 then .next (s.wrote 4 (.sys n (s.core.rs a)))
      else trap s (endTrap s 0x12 (s.core.rs a))
    else if n = 0x013 && 5 ≤ ((s.core.rs a).extractLsb' 0 3).toNat then trap s (endTrap s 0x05 (s.core.rs a))
    else .next (s.wrote 1 (.sys n (s.core.rs a))) :=
  show execMts a n g s = _ from guarded_on hg _

/-- MFS of a task's register waits at `fflags` for ladder chains alone (R117). -/
theorem exec_mfs_low (hn : n.toNat < 0x100) (hchain : n ≠ 0x011#12 ∨ s.core.chains = false) :
    exec (.mfs a n g) s = .next (s.wrote 1 (.s a (s.core.sysRead n))) := by
  have hfree : ¬(n = 0x011 && s.core.chains) = true := by rcases hchain with h | h <;> simp [h]
  rw [exec_mfs hg, firmwareIllegal_low hn, Bool.and_false, if_neg Bool.false_ne_true, if_neg (by simp [Nat.not_le.2 hn]),
    if_neg hfree, State.sysReg, if_pos hn]

/-- MTS of a task's register refuses a value of `fmt` or of the loop depth that is out of range. -/
theorem exec_mts_low (hn : n.toNat < 0x100) : exec (.mts a n g) s =
    if n = 0x010 then
      if (s.core.rs a).extractLsb' 20 12 = 0 then .next (s.wrote 4 (.sys n (s.core.rs a)))
      else trap s (endTrap s 0x12 (s.core.rs a))
    else if n = 0x013 && 5 ≤ ((s.core.rs a).extractLsb' 0 3).toNat then trap s (endTrap s 0x05 (s.core.rs a))
    else .next (s.wrote 1 (.sys n (s.core.rs a))) := by
  rw [exec_mts hg, firmwareIllegal_low hn, Bool.and_false, if_neg Bool.false_ne_true, if_neg (by simp [Nat.not_le.2 hn])]

/-! ### Firmware's registers (R184, R306) -/

theorem exec_mfs_privilege (hs : s.coreId < 512) (hn : 0x100 ≤ n.toNat) : exec (.mfs a n g) s = privilege s := by
  have htask : isController s.coreId = false := by simpa [isController] using hs
  rw [exec_mfs hg, htask]
  simp [hn]

theorem exec_mts_privilege (hs : s.coreId < 512) (hn : 0x100 ≤ n.toNat) : exec (.mts a n g) s = privilege s := by
  have htask : isController s.coreId = false := by simpa [isController] using hs
  rw [exec_mts hg, htask]
  simp [hn]

theorem exec_mfs_illegal (hs : 512 ≤ s.coreId) (hn : firmwareIllegal n false = true) :
    exec (.mfs a n g) s = trap s (endTrap s 0x03 0) :=
  (exec_mfs hg).trans (if_pos (by simp [isController, hs, hn]))

theorem exec_mts_illegal (hs : 512 ≤ s.coreId) (hn : firmwareIllegal n true = true) :
    exec (.mts a n g) s = trap s (endTrap s 0x03 0) :=
  (exec_mts hg).trans (if_pos (by simp [isController, hs, hn]))

theorem exec_mfs_firmware (hs : 512 ≤ s.coreId) (hn : 0x100 ≤ n.toNat) (hok : firmwareIllegal n false = false) :
    exec (.mfs a n g) s = .next (s.wrote 1 (.s a ((s.die s.here).sysRead n))) := by
  have hne : n ≠ 0x011#12 := by rintro rfl; simp at hn
  rw [exec_mfs hg, hok, Bool.and_false, if_neg Bool.false_ne_true, if_neg (by simp [isController, hs]),
    if_neg (by simp [hne]), State.sysReg, if_neg (Nat.not_lt.2 hn)]

theorem exec_mts_firmware (hs : 512 ≤ s.coreId) (hn : 0x100 ≤ n.toNat) (hok : firmwareIllegal n true = false) :
    exec (.mts a n g) s = .next (s.wrote 1 (.sys n (s.core.rs a))) := by
  have hfmt : n ≠ 0x010 := by rintro rfl; simp at hn
  have hloop : n ≠ 0x013#12 := by rintro rfl; simp at hn
  rw [exec_mts hg, hok, Bool.and_false, if_neg Bool.false_ne_true, if_neg (by simp [isController, hs]), if_neg hfmt,
    if_neg (by simp [hloop])]

/-! ### ERET (R182, R305) -/

theorem exec_eret : exec (.eret g) s =
    if isController s.coreId then
      ok { (s.setDie s.here (leaveHandler (s.die s.here)).1) with
        core := { s.core with jump := some (leaveHandler (s.die s.here)).2 } }
    else privilege s :=
  show execEret g s = _ from guarded_on hg _

end

theorem firmwareReg_ge {n : BitVec 12} (h : firmwareReg n = true) : 0x100 ≤ n.toNat := by
  have hall : ∀ m ∈ [0x100#12, 0x101#12, 0x102#12, 0x103#12, 0x104#12, 0x105#12, 0x106#12, 0x110#12, 0x111#12, 0x1E0#12,
      0x1F0#12], 0x100 ≤ m.toNat := by simp
  exact hall n (of_decide_eq_true h)

/-- A number above a task's is illegal where it is not listed, or where the access is against the register's own. -/
theorem firmwareIllegal_high {n : BitVec 12} (h : 0x100 ≤ n.toNat) (write : Bool) :
    firmwareIllegal n write = (!firmwareReg n || if write then firmwareRO n else firmwareWO n) := by
  simp [firmwareIllegal, h]

/-- The bits of `x` from `k` up to `k + w` are zero just where the field below the higher end fits below the lower one. -/
theorem extractLsb'_eq_zero_iff (x : Word) (k w : Nat) : x.extractLsb' k w = 0 ↔ x.toNat % 2 ^ (k + w) < 2 ^ k := by
  rw [← BitVec.toNat_inj, BitVec.extractLsb'_toNat, Nat.shiftRight_eq_div_pow, pow_add, Nat.mod_mul]
  have hlt : x.toNat % 2 ^ k < 2 ^ k := Nat.mod_lt _ (by positivity)
  constructor
  · intro h
    simp_all
  · intro h
    have : x.toNat / 2 ^ k % 2 ^ w < 1 := by
      by_contra hc
      have := Nat.mul_le_mul_left (2 ^ k) (Nat.le_of_not_lt hc)
      omega
    simpa using this

end Sys2Proof.Machine

namespace Sys2Proof.Rules

open Sys2Proof.Machine

/-- At a task's register neither the mode nor a privilege decides, so the value alone does. -/
theorem taskRegisters : SystemRegisters := by
  intro a n g s hg hn x
  have hlow := taskSysReg_lt hn
  have hword : x.toNat % 2 ^ (20 + 44) = x.toNat := Nat.mod_eq_of_lt x.isLt
  have hdepth : (x.extractLsb' 0 3).toNat = x.toNat % 8 := by simp [BitVec.extractLsb'_toNat]
  have hfit (w : Nat) : x.extractLsb' 20 w = 0 ↔ x.toNat % 2 ^ (20 + w) < 2 ^ 20 := extractLsb'_eq_zero_iff x 20 w
  refine ⟨fun h => ?_, fun h => ?_, exec_mfs_low hg hlow, fun hfmt h => ?_, fun hfmt h => ?_, fun hloop h => ?_,
    fun hfmt h => ?_⟩
  · exact (exec_setfmt hg).trans (if_pos ((hfit 44).2 (hword.symm ▸ h)))
  · rw [exec_setfmt hg, if_neg (mt (hfit 44).1 (Nat.not_lt.2 (hword.symm ▸ h)))]
    exact trapsWith_trap s _
  · rw [exec_mts_low hg hlow, if_pos hfmt, if_pos ((hfit 12).2 h)]
  · rw [exec_mts_low hg hlow, if_pos hfmt, if_neg (mt (hfit 12).1 (Nat.not_lt.2 h))]
    exact trapsWith_trap s _
  · rw [exec_mts_low hg hlow, if_neg (by simp [hloop]), if_pos (by simpa [hloop, x, hdepth] using h)]
    exact trapsWith_trap s _
  · have hfree : ¬(n = 0x013 && 5 ≤ (x.extractLsb' 0 3).toNat) = true := by
      simp only [Bool.and_eq_true, decide_eq_true_eq, not_and, hdepth]
      exact fun hloop => Nat.not_le.2 (Nat.lt_succ_of_le (h hloop))
    rw [exec_mts_low hg hlow, if_neg hfmt, if_neg hfree]

/-- A task reaches ERET and the registers of firmware mode through the privilege trap alone. -/
theorem privilegeTrap : PrivilegeTrap := by
  intro a n g s hg hs
  have htrap : trapsWith s (privilege s) 0x04 := trapsWith_trap s _
  refine ⟨?_, fun hn => ⟨?_, ?_⟩⟩
  · rw [exec_eret hg, if_neg (by simpa [isController] using hs)]
    exact htrap
  · exact exec_mfs_privilege hg hs hn ▸ htrap
  · exact exec_mts_privilege hg hs hn ▸ htrap

/-- In firmware mode the lists of R306 decide between an access and an illegal instruction. -/
theorem firmwareMode : FirmwareMode := by
  intro a n g s hg hs
  refine ⟨?_, fun hreg hwo => ?_, fun hreg hro => ?_, fun hn hbad => ?_, fun hn hbad => ?_⟩
  · rw [exec_eret hg, if_pos (by simpa [isController] using hs)]
    rfl
  · have hn := firmwareReg_ge hreg
    exact exec_mfs_firmware hg hs hn (by simpa [firmwareIllegal_high hn, hreg, firmwareWO] using hwo)
  · have hn := firmwareReg_ge hreg
    exact exec_mts_firmware hg hs hn (by simp [firmwareIllegal_high hn, hreg, hro])
  · rw [exec_mfs_illegal hg hs (by simpa [firmwareIllegal_high hn, firmwareWO] using hbad)]
    exact trapsWith_trap s _
  · rw [exec_mts_illegal hg hs (by simpa [firmwareIllegal_high hn] using hbad)]
    exact trapsWith_trap s _

/-- A landing MTS writes its register's fields. -/
theorem systemWrites : SystemWrites := by
  intro c x i
  refine ⟨rfl, rfl, rfl, rfl, ?_, ?_, ?_, fun h => if_neg h, fun h => if_pos h, rfl, rfl, rfl, rfl, rfl⟩
  · fin_cases i <;> exact Vector.getElem_set_self _
  · fin_cases i <;> exact Vector.getElem_set_self _
  · fin_cases i <;> exact Vector.getElem_set_self _

/-- Settles O10: the moves of system registers and ERET in both modes, and what a landing MTS writes. -/
theorem systemRegisters : Obligations.SystemRegisters := ⟨taskRegisters, privilegeTrap, firmwareMode, systemWrites⟩

end Sys2Proof.Rules

/-! SUPPORT. Rounding (R26, R35 to R37): a rounding away from the stochastic mode has one result and adds the same flags to any
others, and its result is a code of its format. -/

namespace Sys2Proof.Machine

open Sys2Proof

/-! ### Flags that a rounding raises (R35, R36) -/

/-- Under `env`, `f` has one result, and adds the same flags to whatever flags stand raised; it leaves the mode, SAT and the
LFSR state as they are. -/
def onlyRaises (env : Env) (f : Env → Nat × Env) : Prop :=
  ∃ x g, ∀ fl, f { env with fl := fl } = (x, { env with fl := fl ||| g })

theorem Env.raiseIf_eq (e : Env) (c : Bool) (g : Flags) : e.raiseIf c g = { e with fl := e.fl ||| if c then g else 0 } := by
  cases c <;> simp [Env.raiseIf, Env.raise]

theorem onlyRaises_raise (env : Env) (x : Nat) (g : Flags) : onlyRaises env fun e => (x, e.raise g) :=
  ⟨x, g, fun _ => rfl⟩

theorem onlyRaises_const (env : Env) (x : Nat) : onlyRaises env fun e => (x, e) := ⟨x, 0, fun _ => by simp⟩

theorem onlyRaises.comp_raiseIf {env : Env} {f : Env → Nat × Env} (h : onlyRaises env f) (c : Bool) (g : Flags) :
    onlyRaises env fun e => f (e.raiseIf c g) := by
  obtain ⟨x, g', hf⟩ := h
  refine ⟨x, (if c then g else 0) ||| g', fun fl => ?_⟩
  have hraised := hf (fl ||| if c then g else 0)
  simpa only [Env.raiseIf_eq, BitVec.or_assoc] using hraised

/-- Away from the stochastic mode no rounding steps the LFSR (R36). -/
theorem roundMag_lfsr {rnd : BitVec 3} (h : rnd ≠ 5) (neg : Bool) (m : Nat) (e u : Int) (s : BitVec 32) :
    (roundMag rnd neg m e u s).lfsr = s := by
  simp only [roundMag, if_neg h]
  split
  · rfl
  · split <;> rfl

theorem roundFin_onlyRaises {env : Env} (h : env.rnd ≠ 5) (f : Fmt) (ovfnan neg : Bool) (m : Nat) (e : Int) :
    onlyRaises env (f.roundFin ovfnan neg m e) := by
  refine ⟨(f.roundFin ovfnan neg m e env).1, (f.roundFin ovfnan neg m e { env with fl := 0 }).2.fl, fun fl => ?_⟩
  simp only [Fmt.roundFin, roundMag_lfsr h]
  split_ifs <;> simp [Env.raiseIf_eq, Env.raise, Fmt.overflow, BitVec.or_assoc]

theorem round_onlyRaises {env : Env} (h : env.rnd ≠ 5) (f : Fmt) (ovfnan : Bool) (x : Num) :
    onlyRaises env (f.round ovfnan x) := by
  cases x with
  | nan => exact onlyRaises_const env _
  | fin n m e => exact roundFin_onlyRaises h f ovfnan n m e
  | inf n =>
    unfold Fmt.round
    cases f.hasInf
    · exact onlyRaises_raise env _ _
    · exact onlyRaises_const env _

theorem fltAdd_onlyRaises {env : Env} (h : env.rnd ≠ 5) (f : Fmt) (a b : Num) : onlyRaises env (fltAdd f a b) :=
  (round_onlyRaises h f false (Num.addX (env.rnd == 2) a b).1).comp_raiseIf (Num.addX (env.rnd == 2) a b).2 Flags.nv

theorem fltMul_onlyRaises {env : Env} (h : env.rnd ≠ 5) (f : Fmt) (a b : Num) : onlyRaises env (fltMul f a b) :=
  (round_onlyRaises h f false (Num.mulX a b).1).comp_raiseIf (Num.mulX a b).2 Flags.nv

theorem fltFma_onlyRaises {env : Env} (h : env.rnd ≠ 5) (f : Fmt) (a b c : Num) : onlyRaises env (fltFma f a b c) :=
  (round_onlyRaises h f false (Num.addX (env.rnd == 2) (Num.mulX a b).1 c).1).comp_raiseIf
    ((Num.mulX a b).2 || (Num.addX (env.rnd == 2) (Num.mulX a b).1 c).2) Flags.nv

/-! ### Codes fit their format (R26, R37) -/

section
variable (f : Fmt)

/-- A sign, an exponent field and a fraction field together are a code of the format. -/
theorem Fmt.fields_lt (neg : Bool) {ex mt : Nat} (hex : ex < 2 ^ f.eb) (hmt : mt < 2 ^ f.mb) :
    f.signBits neg ||| ex <<< f.mb ||| mt < 2 ^ (f.eb + f.mb + 1) := by
  have hsign : f.signBits neg < 2 ^ (f.eb + f.mb + 1) := by
    cases neg <;> simp [Fmt.signBits, Nat.one_shiftLeft, Nat.pow_lt_pow_succ]
  have hexp : ex <<< f.mb < 2 ^ (f.eb + f.mb + 1) := by
    rw [Nat.shiftLeft_eq, pow_succ, pow_add]
    have := Nat.mul_lt_mul_of_pos_right hex (Nat.two_pow_pos f.mb)
    omega
  have hfrac : mt < 2 ^ (f.eb + f.mb + 1) := hmt.trans_le (Nat.pow_le_pow_right (by decide) (by omega))
  exact Nat.or_lt_two_pow (Nat.or_lt_two_pow hsign hexp) hfrac

theorem Fmt.expMax_lt : f.expMax < 2 ^ f.eb := by
  have := Nat.two_pow_pos f.eb
  unfold Fmt.expMax
  split <;> omega

theorem Fmt.mantMax_lt : f.mantMax < 2 ^ f.mb := by
  have := Nat.two_pow_pos f.mb
  unfold Fmt.mantMax
  split <;> omega

theorem Fmt.maxBits_lt (neg : Bool) : f.signBits neg ||| f.maxBits < 2 ^ (f.eb + f.mb + 1) := by
  rw [Fmt.maxBits, ← Nat.lor_assoc]
  exact f.fields_lt neg f.expMax_lt f.mantMax_lt

theorem Fmt.infBits_lt (neg : Bool) : f.infBits neg < 2 ^ (f.eb + f.mb + 1) := by
  have h := f.fields_lt neg (Nat.sub_lt (Nat.two_pow_pos f.eb) one_pos) (Nat.two_pow_pos f.mb)
  rwa [Nat.or_zero, Nat.or_comm] at h

theorem Fmt.nanBits_lt (h : 0 < f.mb) : f.nanBits < 2 ^ (f.eb + f.mb + 1) := by
  unfold Fmt.nanBits
  split
  · have hquiet : 1 <<< (f.mb - 1) < 2 ^ f.mb := by
      rw [Nat.one_shiftLeft]
      exact Nat.pow_lt_pow_right (by decide) (by omega)
    have hcode := f.fields_lt false (Nat.sub_lt (Nat.two_pow_pos f.eb) one_pos) hquiet
    rwa [show f.signBits false = 0 from rfl, Nat.zero_or] at hcode
  · have := Nat.two_pow_pos (f.eb + f.mb)
    rw [pow_succ]
    omega

theorem Fmt.overflow_lt (h : 0 < f.mb) (ovfnan neg up : Bool) (e : Env) :
    f.overflow ovfnan neg up e < 2 ^ (f.eb + f.mb + 1) := by
  simp only [Fmt.overflow]
  split_ifs
  · exact f.infBits_lt neg
  · exact f.maxBits_lt neg
  · exact f.nanBits_lt h
  · exact f.maxBits_lt neg

/-- A multiple of a unit that is not above the greatest finite value has a code. -/
theorem Fmt.encodeExact_lt (neg : Bool) {q : Nat} {u : Int} (hle : u ≤ f.expMax - f.bias - f.mb)
    (hq : u = f.expMax - f.bias - f.mb → q ≤ f.mantMax + 2 ^ f.mb) : f.encodeExact neg q u < 2 ^ (f.eb + f.mb + 1) := by
  have hmant := f.mantMax_lt
  have hexp := f.expMax_lt
  have hpow : 2 ^ (f.mb + 1) = 2 * 2 ^ f.mb := by rw [pow_succ, Nat.mul_comm]
  have hmod (q : Nat) : q % 2 ^ f.mb < 2 ^ f.mb := Nat.mod_lt _ (Nat.two_pow_pos f.mb)
  unfold Fmt.encodeExact
  split
  next q' u' hq' =>
    refine f.fields_lt neg (lt_of_le_of_lt ?_ hexp) (hmod q')
    split_ifs at hq' with htop <;> obtain ⟨rfl, rfl⟩ := Prod.mk.inj hq'
    · have hne : u ≠ f.expMax - f.bias - f.mb := fun he => by have := hq he; omega
      split <;> omega
    · split <;> omega

theorem Fmt.roundFin_lt (h : 0 < f.mb) (ovfnan neg : Bool) (m : Nat) (e : Int) (env : Env) :
    (f.roundFin ovfnan neg m e env).1 < 2 ^ (f.eb + f.mb + 1) := by
  simp only [Fmt.roundFin]
  split
  · have hzero := f.fields_lt neg (Nat.two_pow_pos f.eb) (Nat.two_pow_pos f.mb)
    rwa [Nat.zero_shiftLeft, Nat.or_zero, Nat.or_zero] at hzero
  · split
    · exact f.overflow_lt h ovfnan neg _ env
    · next hfit =>
      simp only [Bool.or_eq_true, decide_eq_true_eq, Bool.and_eq_true, not_or, not_lt, not_and] at hfit
      exact f.encodeExact_lt neg hfit.1 hfit.2

theorem Fmt.round_lt (h : 0 < f.mb) (ovfnan : Bool) (x : Num) (env : Env) :
    (f.round ovfnan x env).1 < 2 ^ (f.eb + f.mb + 1) := by
  cases x with
  | nan => exact f.nanBits_lt h
  | fin n m e => exact f.roundFin_lt h ovfnan n m e env
  | inf n =>
    simp only [Fmt.round]
    split
    · exact f.infBits_lt n
    · split
      · exact f.nanBits_lt h
      · exact f.maxBits_lt n

end

end Sys2Proof.Machine

/-! SUPPORT. Atomics (R42, R269, R270): how they issue, and what each operation writes. -/

namespace Sys2Proof.Machine

open Sys2Proof

/-! ### Atomics at issue (R269, R270) -/

theorem exec_amo {ar : Bool} {op : AmoOp} {d b : BitVec 6} {r : BitVec 4} {g : GuardF} {s : State}
    (hg : s.core.guard g = true) :
    exec (.amo ar op d b r g) s = atomicOut s ar (.amo op (s.core.rs b) s.core.sat) d r 8 :=
  show execAmo ar op d b r g s = _ from guarded_on hg _

theorem exec_cas {ar wide : Bool} {d b : BitVec 6} {r : BitVec 4} {g : GuardF} {s : State} (hg : s.core.guard g = true) :
    exec (.cas ar wide d b r g) s = atomicOut s ar (.cas (if wide then 8 else 4) (s.core.rs d) (s.core.rs b)) d r
      (if wide then 8 else 4) :=
  show execCas ar wide d b r g s = _ from guarded_on hg _

/-- An aligned atomic whose bytes pass the checks and lie outside host memory becomes a pending load. -/
theorem atomicOut_issues {s : State} {r : BitVec 4} {n : Nat} {segs : List Seg}
    (hld : s.core.cnt.ld ≠ BitVec.allOnes 16) (hdbg : s.core.dbgctl.getLsbD 0 = false)
    (ha : ((s.core.rm r).ea (s.core.ra r) 0).toNat % n = 0)
    (hc : checkRange s ⟨true, true⟩ ((s.core.rm r).ea (s.core.ra r) 0).toNat n 0 = .ok segs)
    (hdev : ∀ y ∈ segBytes segs, regionOf y.2 ≠ .host) (ar : Bool) (op : AtomicOp) (d : BitVec 6) :
    atomicOut s ar op d r n = .next (issueLoad s 0 ((segBytes segs).map fun y => (y.1, y.2, 0)) (.scalar d) none
      (some (op, ar))).clear := by
  have hnone : (segBytes segs).find? (fun b => regionOf b.2 == .host) = none :=
    List.find?_eq_none.2 fun y hy => by simp [hdev y hy]
  simp only [atomicOut, ha, withBytes_single hc, hnone, withEarly_off hdbg, atLimit_ld hld]
  rfl

/-! ### What an atomic writes (R269, R270) -/

/-- It makes no difference which of two equal words is the lesser. -/
theorem ite_slt_min (a b : Word) : (if a.slt b then a else b) = if a.toInt ≤ b.toInt then a else b := by
  rcases lt_trichotomy a.toInt b.toInt with h | h | h
  · simp [BitVec.slt, h, h.le]
  · simp [BitVec.eq_of_toInt_eq h]
  · simp [BitVec.slt, h.not_gt, h.not_ge]

theorem ite_slt_max (a b : Word) : (if a.slt b then b else a) = if b.toInt ≤ a.toInt then a else b := by
  simp only [BitVec.slt, decide_eq_true_eq, ← not_le, ite_not]

/-- FADD keeps the high word of the old value, and puts the rounded sum of the low words below it (R42). -/
theorem faddWord_eq (sat : Bool) (old x : Word) :
    let p := Fmt.f32.decode (old.toNat % 2 ^ 32)
    let q := Fmt.f32.decode (x.toNat % 2 ^ 32)
    let r := Fmt.f32.round false (Num.addX false p q).1 (Env.rneSat sat)
    (faddWord sat old x).1.toNat / 2 ^ 32 = old.toNat / 2 ^ 32 ∧ (faddWord sat old x).1.toNat % 2 ^ 32 = r.1 ∧
      (faddWord sat old x).2 = r.2.fl ||| (if (Num.addX false p q).2 then Flags.nv else 0) := by
  intro p q r
  obtain ⟨y, g, hround⟩ := round_onlyRaises (env := Env.rneSat sat) (by simp [Env.rneSat]) .f32 false (Num.addX false p q).1
  have hr : r = (y, { Env.rneSat sat with fl := 0 ||| g }) := hround 0
  have hy : y < 2 ^ 32 := by
    have hlt := Fmt.f32.round_lt (by decide) false (Num.addX false p q).1 (Env.rneSat sat)
    rwa [show Fmt.f32.round false _ _ = _ from hr] at hlt
  have hfadd : faddWord sat old x =
      (old.extractLsb' 32 32 ++ BitVec.ofNat 32 y, 0 ||| (if (Num.addX false p q).2 then Flags.nv else 0) ||| g) := by
    have hsum : fltAdd .f32 p q (Env.rneSat sat) = _ :=
      (congrArg _ (Env.raiseIf_eq (Env.rneSat sat) (Num.addX false p q).2 Flags.nv)).trans (hround _)
    simp only [faddWord, f32Num, BitVec.toNat_setWidth]
    rw [hsum]
    rfl
  rw [hfadd, hr]
  have hhigh : (old.extractLsb' 32 32).toNat = old.toNat / 2 ^ 32 := by
    rw [BitVec.extractLsb'_toNat, Nat.shiftRight_eq_div_pow]
    omega
  have hword : (old.extractLsb' 32 32 ++ BitVec.ofNat 32 y).toNat = old.toNat / 2 ^ 32 * 2 ^ 32 + y := by
    rw [BitVec.toNat_append, hhigh, BitVec.toNat_ofNat, Nat.mod_eq_of_lt hy, Nat.shiftLeft_eq, Nat.mul_comm,
      Nat.two_pow_add_eq_or_of_lt hy]
  refine ⟨(congrArg (· / 2 ^ 32) hword).trans (by omega), (congrArg (· % 2 ^ 32) hword).trans (by omega), ?_⟩
  rw [BitVec.or_assoc, BitVec.or_assoc, BitVec.or_comm g]

theorem cas_apply (n : Nat) (e x old : Word) : (AtomicOp.cas n e x).apply old =
    (if old.toNat % 2 ^ (8 * n) = e.toNat % 2 ^ (8 * n) then some x else none, 0) := rfl

end Sys2Proof.Machine

namespace Sys2Proof.Rules

open Sys2Proof.Machine

/-- Both atomics issue through `atomicOut`. -/
theorem atomicsIssue : Atomics := by
  intro ar wide op d b r g s segs hg hld hdbg ea goes
  refine ⟨fun ha hc hdev => ?_, fun ha hc hdev => ?_⟩
  · exact (exec_amo hg).trans (atomicOut_issues hld hdbg ha hc hdev ar _ d)
  · exact (exec_cas hg).trans (atomicOut_issues hld hdbg ha hc hdev ar _ d)

/-- What each operation writes. -/
theorem atomicValues : AtomicValues := by
  intro old x e sat
  refine ⟨rfl, ?_, ?_, rfl, rfl, rfl, rfl, ?_, ?_, cas_apply 4 e x old⟩
  · exact congrArg (some · , 0) (ite_slt_min old x)
  · exact congrArg (some ·, 0) (ite_slt_max old x)
  · obtain ⟨hhigh, hlow, hfl⟩ := faddWord_eq sat old x
    exact ⟨_, _, rfl, hhigh, hlow, hfl⟩
  · rw [cas_apply, Nat.mod_eq_of_lt old.isLt, Nat.mod_eq_of_lt e.isLt]
    simp only [BitVec.toNat_inj]

/-- Settles O16: the checks of an atomic pass and it issues with its operation, whose value each operation fixes. -/
theorem atomics : Obligations.Atomics := ⟨atomicsIssue, atomicValues⟩

end Sys2Proof.Rules

/-! SUPPORT. Lanes and floating vector instructions (R33, R186, R187, R190, R192 to R195): the lanes of a register made of lanes, lane
functions that only raise flags, and what each floating instruction of slot 2 answers. -/

namespace Sys2Proof.Machine

open Sys2Proof

/-! ### Numbers made of fields of one width -/

/-- The number whose fields of `w` bits are the low bits of `xs`, the first in the lowest place. -/
def packNat (w : Nat) (xs : List Nat) : Nat := xs.foldr (fun x n => x % 2 ^ w + (n <<< w)) 0

theorem packNat_cons (w x : Nat) (xs : List Nat) : packNat w (x :: xs) = x % 2 ^ w + 2 ^ w * packNat w xs := by
  rw [Nat.mul_comm, ← Nat.shiftLeft_eq]
  rfl

theorem packNat_field (w : Nat) (xs : List Nat) (i : Nat) : packNat w xs / 2 ^ (w * i) % 2 ^ w = xs.getD i 0 % 2 ^ w := by
  have hpos := Nat.two_pow_pos w
  induction xs generalizing i with
  | nil => simp [packNat]
  | cons x xs ih =>
    rw [packNat_cons]
    cases i with
    | zero => simp
    | succ i =>
      have hlow : (x % 2 ^ w + 2 ^ w * packNat w xs) / 2 ^ w = packNat w xs := by
        rw [Nat.add_mul_div_left _ _ hpos, Nat.div_eq_of_lt (Nat.mod_lt _ hpos), Nat.zero_add]
      rw [Nat.mul_succ, Nat.add_comm (w * i), pow_add, ← Nat.div_div_eq_div_mul, hlow, ih]
      simp

/-- A field of a bit vector that is made of fields. -/
theorem extractLsb'_packNat {n w i : Nat} (h : w * (i + 1) ≤ n) (xs : List Nat) :
    ((BitVec.ofNat n (packNat w xs)).extractLsb' (w * i) w).toNat = xs.getD i 0 % 2 ^ w := by
  have hsplit : 2 ^ n = 2 ^ (w * i) * 2 ^ (n - w * i) := by rw [← pow_add]; congr 1; grind
  have hdvd : 2 ^ w ∣ 2 ^ (n - w * i) := pow_dvd_pow 2 (by grind)
  rw [BitVec.extractLsb'_toNat, BitVec.toNat_ofNat, Nat.shiftRight_eq_div_pow, hsplit, Nat.mod_mul_right_div_self,
    Nat.mod_mod_of_dvd _ hdvd, packNat_field]

/-! ### Lanes (R186, R187) -/

theorem laneAt_lt (w : Nat) (v : VReg) (i : Nat) : laneAt w v i < 2 ^ w := BitVec.isLt _

theorem laneAt_ofLanes {t : Ty} {i : Nat} (h : i < t.lanes) (xs : List Nat) :
    laneAt t.bits (ofLanes t.bits xs) i = xs.getD i 0 % 2 ^ t.bits :=
  extractLsb'_packNat (Nat.mul_comm .. ▸ Nat.mul_le_of_le_div _ _ _ h) xs

theorem kept_lt (o : VOp) (c : CoreState) (i : Nat) : VOp.kept o c i < 2 ^ o.t.bits := by
  unfold VOp.kept
  split
  · exact Nat.two_pow_pos _
  · exact laneAt_lt _ _ _

/-! ### Lane functions run over the lanes -/

/-- Each lane's value is what its function gives under some environment that the lanes before it leave. -/
theorem mapLanes_getElem? (f : Nat → Env → Nat × Env) (l : List Nat) (env : Env) (j : Nat) :
    ∃ e, (mapLanes f l env).1[j]? = l[j]?.map fun i => (f i e).1 := by
  induction l generalizing env j with
  | nil => exact ⟨env, rfl⟩
  | cons i r ih =>
    cases j with
    | zero => exact ⟨env, rfl⟩
    | succ j => exact ih (f i env).2 j

theorem mapLanes_cons (f : Nat → Env → Nat × Env) (i : Nat) (r : List Nat) (env : Env) : mapLanes f (i :: r) env =
    ((f i env).1 :: (mapLanes f r (f i env).2).1, (mapLanes f r (f i env).2).2) := rfl

theorem mapLanes_const (x : Nat → Nat) (l : List Nat) (env : Env) : mapLanes (fun i e => (x i, e)) l env = (l.map x, env) := by
  induction l with
  | nil => rfl
  | cons i r ih => simp [mapLanes, ih]

/-- What a function that only raises flags gives under its own environment. -/
theorem onlyRaises.at_env {env : Env} {f : Env → Nat × Env} (h : onlyRaises env f) :
    ∃ g, (f env).2.fl = env.fl ||| g ∧ ∀ fl, f { env with fl := fl } = ((f env).1, { env with fl := fl ||| g }) := by
  obtain ⟨x, g, hf⟩ := h
  have henv : f env = _ := hf env.fl
  exact ⟨g, by rw [henv], fun fl => by rw [hf, henv]⟩

/-- Lane functions that only raise flags do not see one another: each gives its lane as if it stood alone, and the flags are
those of all together. -/
theorem mapLanes_onlyRaises {f : Nat → Env → Nat × Env} {env : Env} {l : List Nat} (h : ∀ i ∈ l, onlyRaises env (f i))
    (fl : Flags) :
    ∃ g, mapLanes f l { env with fl := fl } = (l.map fun i => (f i env).1, { env with fl := fl ||| g }) ∧
      ∀ b, (env.fl ||| g).getLsbD b = true ↔ env.fl.getLsbD b = true ∨ ∃ i ∈ l, (f i env).2.fl.getLsbD b = true := by
  induction l generalizing fl with
  | nil => exact ⟨0, by simp [mapLanes], by simp⟩
  | cons i r ih =>
    obtain ⟨gi, hfl, hi⟩ := (h i (List.mem_cons_self ..)).at_env
    obtain ⟨g, hr, hbits⟩ := ih (fun j hj => h j (List.mem_cons_of_mem i hj)) (fl ||| gi)
    refine ⟨gi ||| g, ?_, fun b => ?_⟩
    · rw [mapLanes_cons, hi fl]
      dsimp only
      rw [hr, BitVec.or_assoc, List.map_cons]
    · have hb := hbits b
      simp only [BitVec.getLsbD_or, Bool.or_eq_true, List.exists_mem_cons_iff, hfl] at hb ⊢
      grind

/-! ### Lane-by-lane results (R187) -/

/-- An exposed result under an environment that nothing has stepped, with no flag, is an exposed result alone. -/
theorem laterEnv_unstepped (s : State) (lat : Nat) (w : RegWrite) (rnd : BitVec 3) :
    laterEnv s lat w (s.env rnd) = later s lat w :=
  later_dropped (w := .flags 0) rfl (later s lat w) lat

/-- The lane function of a lane-by-lane operation, with its disabled lanes. -/
def maskedLane (o : VOp) (c : CoreState) (f : Nat → Env → Nat × Env) (i : Nat) (e : Env) : Nat × Env :=
  if VOp.on o c i then f i e else (VOp.kept o c i, e)

theorem laneOut_eq (o : VOp) (lat : Nat) (env : Env) (f : Nat → Env → Nat × Env) (s : State) :
    let r := mapLanes (maskedLane o s.core f) (List.range o.t.lanes) env
    laneOut o lat env f s = .next (laterEnv s lat (.v o.d (ofLanes o.t.bits r.1)) r.2).clear := rfl

theorem maskedLane_on {o : VOp} {c : CoreState} {i : Nat} (h : VOp.on o c i = true) (f : Nat → Env → Nat × Env) (e : Env) :
    maskedLane o c f i e = f i e := if_pos h

theorem maskedLane_off {o : VOp} {c : CoreState} {i : Nat} (h : VOp.on o c i = false) (f : Nat → Env → Nat × Env) (e : Env) :
    maskedLane o c f i e = (VOp.kept o c i, e) := if_neg (by simp [h])

/-- A lane-by-lane operation that neither rounds nor raises a flag. -/
theorem plainLanes_givesLanes (o : VOp) (lat : Nat) (f : Nat → Nat) (s : State) :
    givesLanes s o lat f (plainLanes o lat f s) := by
  have hmasked : maskedLane o s.core (fun i e => (f i, e)) = fun i e =>
      (if VOp.on o s.core i then f i else VOp.kept o s.core i, e) := by
    funext i e
    unfold maskedLane
    split <;> rfl
  have hout := laneOut_eq o lat (s.env 0) (fun i e => (f i, e)) s
  simp only [hmasked, mapLanes_const, laterEnv_unstepped] at hout
  refine ⟨_, hout, fun i hi => ?_⟩
  rw [laneAt_ofLanes hi]
  simp only [List.getD_eq_getElem?_getD, List.getElem?_map, List.getElem?_range hi, Option.map_some, Option.getD_some]
  split
  · rfl
  · exact Nat.mod_eq_of_lt (kept_lt o s.core i)

theorem maskedLane_onlyRaises (o : VOp) (c : CoreState) {f : Nat → Env → Nat × Env} {env : Env} {i : Nat}
    (h : onlyRaises env (f i)) : onlyRaises env (maskedLane o c f i) := by
  cases hon : VOp.on o c i with
  | true => exact funext (maskedLane_on hon f) ▸ h
  | false => exact funext (maskedLane_off hon f) ▸ onlyRaises_const env _

/-- A lane-by-lane operation whose lanes only raise flags, away from the stochastic mode. -/
theorem laneOut_roundsLanes (o : VOp) (lat : Nat) {env : Env} {f : Nat → Env → Nat × Env} (s : State)
    (h : env.rnd ≠ 5 → ∀ i, onlyRaises env (f i)) : roundsLanes s o lat env f (laneOut o lat env f s) := by
  refine ⟨_, _, laneOut_eq o lat env f s, fun i hi hoff => ?_, fun hrnd => ?_⟩
  · obtain ⟨e, he⟩ := mapLanes_getElem? (maskedLane o s.core f) (List.range o.t.lanes) env i
    rw [laneAt_ofLanes hi, List.getD_eq_getElem?_getD, he, List.getElem?_range hi, Option.map_some, maskedLane_off hoff]
    exact Nat.mod_eq_of_lt (kept_lt o s.core i)
  · obtain ⟨g, hmap, hbits⟩ := mapLanes_onlyRaises (l := List.range o.t.lanes)
      (fun i _ => maskedLane_onlyRaises o s.core (h hrnd i)) env.fl
    rw [show mapLanes (maskedLane o s.core f) (List.range o.t.lanes) env = _ from hmap]
    refine ⟨rfl, fun i hi hon => ?_, fun b => (hbits b).trans ?_⟩
    · rw [laneAt_ofLanes hi]
      simp only [List.getD_eq_getElem?_getD, List.getElem?_map, List.getElem?_range hi, Option.map_some, Option.getD_some,
        maskedLane_on hon]
    · constructor
      · rintro (hb | ⟨i, hi, hb⟩)
        · exact .inl hb
        · cases hon : VOp.on o s.core i with
          | true => exact .inr ⟨i, List.mem_range.1 hi, hon, maskedLane_on hon f env ▸ hb⟩
          | false => exact .inl (by rwa [maskedLane_off hon] at hb)
      · rintro (hb | ⟨i, hi, hon, hb⟩)
        · exact .inl hb
        · exact .inr ⟨i, List.mem_range.2 hi, (maskedLane_on hon f env).symm ▸ hb⟩

/-! ### Rounding selectors (R190) -/

/-- A selector that names a mode, or names `fmt`.RND where that is not reserved, chooses its environment. -/
theorem withSel_chosen {s : State} {sel : BitVec 3} {env : Env} (h : (sel.toNat ≤ 5 ∧ env = s.env sel) ∨
    (sel = 7 ∧ rndReserved s.core.rnd = false ∧ env = s.env s.core.rnd)) (k : Env → Res) : withSel s sel k = k env := by
  rcases h with ⟨hmode, rfl⟩ | ⟨rfl, hrnd, rfl⟩
  · exact if_neg fun he => by simp [he] at hmode
  · exact withRnd_known hrnd k

theorem trapsWith_withSel {s : State} {sel : BitVec 3} (hsel : sel = 7) (h : rndReserved s.core.rnd = true) (k : Env → Res) :
    trapsWith s (withSel s sel k) 0x12 := by
  subst hsel
  exact trapsWith_withRnd h k

/-! ### Lanes that round (R192, R195) -/

theorem roundIntegral_onlyRaises {env : Env} (h : env.rnd ≠ 5) (f : Fmt) (x : Num) : onlyRaises env (roundIntegral f x) := by
  cases x with
  | nan => exact onlyRaises_const env _
  | inf n => exact onlyRaises_const env _
  | fin n m e =>
    exact ⟨exactBits f (.fin n (roundMag env.rnd n m e 0 env.lfsr).q 0), 0, fun fl => by
      simp [roundIntegral, roundMag_lfsr h]⟩

theorem scaleFn_onlyRaises {env : Env} (h : env.rnd ≠ 5) (f : Fmt) (a n : Num) : onlyRaises env (scaleFn f a n) := by
  cases n with
  | nan => exact onlyRaises_const env _
  | inf neg => cases neg <;> exact onlyRaises_const env _
  | fin neg m e =>
    cases a with
    | nan => exact onlyRaises_const env _
    | inf k => exact round_onlyRaises h f false ((Num.inf k).scale (clampInt (-1024) 1024 (floorInt neg m e)))
    | fin k p q => exact round_onlyRaises h f false ((Num.fin k p q).scale (clampInt (-1024) 1024 (floorInt neg m e)))

theorem isInt_of_isF {t : Ty} (h : t.isF = true) : t.isInt = false := by simp [Ty.isInt, Ty.isFloat, h]

/-- A floating operation on two sources, lane by lane. -/
theorem floatLanes_roundsLanes (o : VOp) (lat : Nat) {env : Env} {f : Num → Num → Env → Nat × Env} (s : State)
    (h : env.rnd ≠ 5 → ∀ a b, onlyRaises env (f a b)) :
    roundsLanes s o lat env (fun i => f (numLane s o.t o.a i) (numLane s o.t o.b i)) (floatLanes o lat env f s) :=
  laneOut_roundsLanes o lat s fun hrnd _ => h hrnd _ _

/-- A lane function that brings its own flags. -/
theorem fnLanes_roundsLanes (o : VOp) (lat : Nat) (f : Num → Nat × Flags) (s : State) :
    roundsLanes s o lat (s.env 0) (fun i e => ((f (numLane s o.t o.a i)).1, e.raise (f (numLane s o.t o.a i)).2))
      (fnLanes o lat f s) :=
  laneOut_roundsLanes o lat s fun _ _ => onlyRaises_raise _ _ _

section
variable {o : VOp} {s : State}

/-- The rounding selector of VADD and VSUB. -/
def addMode (o : VOp) : BitVec 3 := if o.v then o.c.extractLsb' 0 3 else 7

theorem exec_vadd_float (h : o.t.isInt = false) : exec (.vadd o) s =
    withSel s (addMode o) fun env => floatLanes o 4 env (fltAdd (tyFmt o.t)) s :=
  show execVadd o s = _ from if_neg (by simp [h])

theorem exec_vsub_float (h : o.t.isInt = false) : exec (.vsub o) s =
    withSel s (addMode o) fun env => floatLanes o 4 env (fun a b => fltAdd (tyFmt o.t) a b.neg) s :=
  show execVsub o s = _ from if_neg (by simp [h])

theorem exec_vmul_float (h : o.t.isInt = false) : exec (.vmul o) s =
    withRnd s fun env => floatLanes o 4 env (fltMul (tyFmt o.t)) s :=
  show execVmul o s = _ from if_neg (by simp [h])

theorem exec_vfma : exec (.vfma o) s = withRnd s fun env => laneOut o 4 env (fun i => fltFma (tyFmt o.t)
    (numLane s o.t o.a i) (numLane s o.t o.b i) (numLane s o.t (if o.v then o.c else o.d) i)) s := rfl

theorem exec_vfms : exec (.vfms o) s = withRnd s fun env => laneOut o 4 env (fun i => fltFma (tyFmt o.t)
    (numLane s o.t o.a i) (numLane s o.t o.b i) (numLane s o.t (if o.v then o.c else o.d) i).neg) s := rfl

theorem exec_vrndi : exec (.vrndi o) s =
    withSel s (o.b.extractLsb' 0 3) fun env => floatLanes o 4 env (fun a _ => roundIntegral (tyFmt o.t) a) s := rfl

theorem exec_vscale : exec (.vscale o) s = floatLanes o 4 (s.env 0) (scaleFn (tyFmt o.t)) s := rfl

/-- VMIN, VMAX, VABS and VNEG of a floating type pick an exact value for each lane. -/
theorem pickLanes_float (h : o.t.isInt = false) (fi : Int → Int → Int) (ff : Num → Num → Num) :
    givesLanes s o 2 (fun i => exactBits (tyFmt o.t) (ff (numLane s o.t o.a i) (numLane s o.t o.b i)))
      (pickLanes o fi ff s) := by
  rw [pickLanes, h]
  exact plainLanes_givesLanes o 2 (fun i => exactBits (tyFmt o.t) (ff (numLane s o.t o.a i) (numLane s o.t o.b i))) s

end

end Sys2Proof.Machine

namespace Sys2Proof.Rules

open Sys2Proof.Machine

/-- Each instruction chooses its environment, and its lanes then only raise flags away from the stochastic mode. -/
theorem roundingLanes : VectorFloats := by
  intro o s env hf f a b c mode
  have hint := isInt_of_isF hf
  have hadd (e : Env) : roundsLanes s o 4 e (fun i => fltAdd f (a i) (b i)) (floatLanes o 4 e (fltAdd f) s) :=
    floatLanes_roundsLanes o 4 s fun h => fltAdd_onlyRaises h f
  have hsub (e : Env) : roundsLanes s o 4 e (fun i => fltAdd f (a i) (b i).neg)
      (floatLanes o 4 e (fun a b => fltAdd f a b.neg) s) :=
    floatLanes_roundsLanes o 4 (f := fun a b => fltAdd f a b.neg) s fun h a b => fltAdd_onlyRaises h f a b.neg
  have hsum (h : (mode.toNat ≤ 5 ∧ env = s.env mode) ∨
      (mode = 7 ∧ rndReserved s.core.rnd = false ∧ env = s.env s.core.rnd)) :
      roundsLanes s o 4 env (fun i => fltAdd f (a i) (b i)) (exec (.vadd o) s) ∧
        roundsLanes s o 4 env (fun i => fltAdd f (a i) (b i).neg) (exec (.vsub o) s) := by
    rw [exec_vadd_float hint, exec_vsub_float hint, withSel_chosen (sel := addMode o) h, withSel_chosen (sel := addMode o) h]
    exact ⟨hadd env, hsub env⟩
  refine ⟨fun hmode henv => hsum (.inl ⟨hmode, henv⟩), fun hmode hrnd henv => hsum (.inr ⟨hmode, hrnd, henv⟩), ?_, ?_, ?_,
    ?_⟩
  · rintro hrnd rfl
    rw [exec_vmul_float hint, exec_vfma, exec_vfms, withRnd_known hrnd, withRnd_known hrnd, withRnd_known hrnd]
    exact ⟨floatLanes_roundsLanes o 4 s fun h => fltMul_onlyRaises h f,
      laneOut_roundsLanes o 4 s fun h i => fltFma_onlyRaises h f (a i) (b i) (c i),
      laneOut_roundsLanes o 4 s fun h i => fltFma_onlyRaises h f (a i) (b i) (c i).neg⟩
  · intro hrnd
    rw [exec_vadd_float hint, exec_vsub_float hint, exec_vrndi, exec_vmul_float hint, exec_vfma, exec_vfms]
    exact ⟨fun hmode => ⟨trapsWith_withSel hmode hrnd _, trapsWith_withSel hmode hrnd _⟩,
      fun hb => trapsWith_withSel (by rw [hb]; rfl) hrnd _, trapsWith_withRnd hrnd _, trapsWith_withRnd hrnd _,
      trapsWith_withRnd hrnd _⟩
  · intro h
    have hsel : ((o.b.extractLsb' 0 3).toNat ≤ 5 ∧ env = s.env (o.b.extractLsb' 0 3)) ∨
        (o.b.extractLsb' 0 3 = 7 ∧ rndReserved s.core.rnd = false ∧ env = s.env s.core.rnd) := by
      refine h.imp (fun ⟨hb, henv⟩ => ⟨?_, henv⟩) fun ⟨hb, hrest⟩ => ⟨by rw [hb]; rfl, hrest⟩
      simp only [BitVec.extractLsb'_toNat, Nat.shiftRight_zero]
      omega
    rw [exec_vrndi, withSel_chosen hsel]
    exact floatLanes_roundsLanes o 4 (f := fun a _ => roundIntegral f a) s fun h a _ => roundIntegral_onlyRaises h f a
  · rintro rfl
    rw [exec_vscale]
    exact floatLanes_roundsLanes o 4 s fun h => scaleFn_onlyRaises h f

/-- Nothing of `fmt` reaches these instructions: four give exact values, and six bring their own flags. -/
theorem vectorFunctions : VectorFunctions := by
  intro o s hint f a b env fn
  exact ⟨pickLanes_float hint min Num.minX, pickLanes_float hint max Num.maxX,
    pickLanes_float hint (fun a _ => a.natAbs) fun a _ => a.abs, pickLanes_float hint (fun a _ => -a) fun a _ => a.neg,
    fnLanes_roundsLanes o 6 (rcpFn f) s, fnLanes_roundsLanes o 6 (rsqFn f) s, fnLanes_roundsLanes o 6 (log2Fn f) s,
    fnLanes_roundsLanes o 6 fexp2Fn s, fnLanes_roundsLanes o 2 (getexpFn f) s, fnLanes_roundsLanes o 2 (getmanFn f) s⟩

/-- Settles O36: the lanes of a floating instruction are rounded each by itself, and its flags are those of its enabled
lanes. -/
theorem vectorFloats : Obligations.VectorFloats := ⟨roundingLanes, vectorFunctions⟩

end Sys2Proof.Rules

/-! SUPPORT. The weight buffer and the staged B (R47, R214, R216 to R218): the local window, the bytes that MWBF copies, the tile
that MLDB expands, and the end of its fill. -/

namespace Sys2Proof.Machine

open Sys2Proof

/-! ### The local window (R47) -/

/-- A range that is not empty has an offset in the scratchpad where it lies wholly in the local window, at a tile core. -/
theorem localOff_eq (s : State) {va len : Nat} (h : 0 < len) : localOff s va len =
    if 0x7FF000000000 ≤ va ∧ va + len ≤ 0x7FF000100000 ∧ s.coreId < 512 then some (va - 0x7FF000000000) else none := by
  have hwithin : (decide (Config.localBase ≤ va) &&
      decide (va + (if len = 0 then 1 else len) ≤ Config.localBase + Config.localSize)) = true ↔
        0x7FF000000000 ≤ va ∧ va + len ≤ 0x7FF000100000 := by
    simp only [if_neg (Nat.pos_iff_ne_zero.1 h), Bool.and_eq_true, decide_eq_true_eq]
    rfl
  unfold localOff windowOf
  by_cases hwin : 0x7FF000000000 ≤ va ∧ va + len ≤ 0x7FF000100000
  · simp only [if_pos (hwithin.2 hwin), isController, ← and_assoc, and_iff_right hwin, decide_eq_true_eq]
    by_cases hs : s.coreId < 512
    · rw [if_pos hs, if_neg (Nat.not_le.2 hs)]
      rfl
    · rw [if_neg hs, if_pos (Nat.not_lt.1 hs)]
  · simp only [if_neg (mt hwithin.1 hwin), ← and_assoc, hwin, false_and, if_false]
    split
    · next heq => split_ifs at heq
    · rfl

/-! ### Reads of the scratchpad at a bundle (R114, R131) -/

theorem coreRead_length (st : BitVec 4) (n : Nat) (pas : List Nat) (s : State) : (coreRead st n pas s).1.length = pas.length := by
  induction pas generalizing s with
  | nil => rfl
  | cons pa r ih => exact congrArg (· + 1) (ih _)

theorem withRead0_readsNow {s t : State} {pas : List Nat} {bs : List ReadByte} (h : readsNow s pas bs t)
    (k : List ReadByte → State → Res) : withRead0 s pas k = k bs t := by
  obtain ⟨_, hdbg, hb, hr, hread, _⟩ := h
  simp only [withRead0, withEarly_off hdbg, hb, hr, hread]
  rfl

theorem withRace_readsNow {s t : State} {pas : List Nat} {bs : List ReadByte} (h : readsNow s pas bs t) (k : Unit → Res) :
    withRace s pas k = k () := by
  unfold withRace
  obtain ⟨hctl | hrace, _⟩ := h
  · exact if_pos (decide_eq_true hctl)
  · rw [hrace]
    exact ite_self _

/-! ### Bytes written one after another -/

/-- Bytes put at rising addresses. -/
theorem memGet_foldl_memSet (bs : List ReadByte) (m : List Host.Cell) (a k x : Nat) :
    memGet ((bs.zipIdx k).foldl (fun m r => memSet m (a + r.2) r.1.val) m) x =
      if a + k ≤ x ∧ x < a + k + bs.length then ((bs[x - (a + k)]?).map (·.val)).getD 0 else memGet m x := by
  induction bs generalizing m k with
  | nil => exact (if_neg (by simp)).symm
  | cons b r ih =>
    rw [List.zipIdx_cons, List.foldl_cons, ih, memGet_memSet, List.length_cons]
    rcases Nat.lt_trichotomy x (a + k) with hlt | rfl | hgt
    · rw [if_neg (by omega), if_neg (by omega), if_neg (by omega)]
    · rw [if_neg (by omega), if_pos rfl, if_pos (by omega), Nat.sub_self]
      rfl
    · have hsub : x - (a + k) = x - (a + (k + 1)) + 1 := by omega
      rw [hsub, List.getElem?_cons_succ, if_neg (c := a + k = x) (by omega)]
      exact if_congr (by omega) rfl rfl

/-! ### MWBF (R216) -/

/-- The core once MWBF has put `rs` at `off`: errors among the bytes that it replaces are gone. -/
def filledBuffer (c : CoreState) (off n : Nat) (rs : List ReadByte) : CoreState :=
  { c with
    wbuf := rs.zipIdx.foldl (fun m r => memSet m (off + r.2) r.1.val) c.wbuf
    wbufErr := c.wbufErr.filter fun e => e < off || off + n ≤ e }

/-- The bytes that MWBF moves, for its field LEN. -/
def mwbfBytes (len : BitVec 6) : Nat := 64 * (len.toNat + 1)

theorem mwbfBytes_pos (len : BitVec 6) : 0 < mwbfBytes len := Nat.mul_pos (by decide) (Nat.succ_pos _)

/-- Both ranges of an MWBF are aligned and lie in the local window and in the weight buffer. -/
def mwbfFits (va off n : Nat) : Prop :=
  0x7FF000000000 ≤ va ∧ va + n ≤ 0x7FF000100000 ∧ va % 64 = 0 ∧ off % 64 = 0 ∧ off + n ≤ 131072

/-- The last step of an MWBF that has read `rs` from `pas`, in the state `t` that its reads leave: a poisoned byte traps, and clean
ones are copied. -/
def copyIn (s : State) (va off n : Nat) (pas : List Nat) (rs : List ReadByte) (t : State) : Res :=
  match (rs.zip pas.zipIdx).find? fun r => r.1.poison with
  | some (_, pa, i) => trap s (poisonTrap s (va + i) pa 0)
  | none => ok { t with core := filledBuffer t.core off n rs }

theorem copyIn_clean {rs : List ReadByte} (h : ∀ b ∈ rs, b.poison = false) (s t : State) (va off n : Nat) (pas : List Nat) :
    copyIn s va off n pas rs t = ok { t with core := filledBuffer t.core off n rs } := by
  have hnone : (rs.zip pas.zipIdx).find? (fun r => r.1.poison) = none :=
    List.find?_eq_none.2 fun y hy => by simp [h _ (List.of_mem_zip hy).1]
  simp only [copyIn, hnone]

section
variable {len : BitVec 6} {x : BitVec 4} {b : BitVec 6} {g : GuardF} {s : State} (hg : s.core.guard g = true)
include hg

theorem exec_mwbf_outside (h : localOff s (s.core.ra x).toNat (mwbfBytes len) = none) :
    exec (.mwbf len x b g) s = trap s (matrixTrap s (s.core.ra x)) := by
  change execMwbf len x b g s = _
  rw [mwbfBytes] at h
  simp only [execMwbf, guarded_on hg, h]

theorem exec_mwbf_inside {o : Nat} (h : localOff s (s.core.ra x).toNat (mwbfBytes len) = some o) :
    exec (.mwbf len x b g) s =
      if (s.core.ra x).toNat % 64 ≠ 0 then trap s (matrixTrap s (s.core.ra x))
      else if (s.core.rs b).toNat % 64 ≠ 0 || 131072 < (s.core.rs b).toNat + mwbfBytes len then
        trap s (matrixTrap s (s.core.rs b))
      else withRace s (localBytes s o (mwbfBytes len)) fun _ => withRead0 s (localBytes s o (mwbfBytes len))
        (copyIn s (s.core.ra x).toNat (s.core.rs b).toNat (mwbfBytes len) (localBytes s o (mwbfBytes len))) := by
  change execMwbf len x b g s = _
  rw [mwbfBytes] at h
  simp only [execMwbf, guarded_on hg, h]
  rfl

/-- A range that is misaligned, or that is not wholly within its store, is a matrix fault (R214, R216). -/
theorem exec_mwbf_traps (h : ¬mwbfFits (s.core.ra x).toNat (s.core.rs b).toNat (mwbfBytes len)) :
    trapsWith s (exec (.mwbf len x b g) s) 0x0E := by
  have hoff := localOff_eq s (va := (s.core.ra x).toNat) (mwbfBytes_pos len)
  split_ifs at hoff with hwin
  · rw [exec_mwbf_inside hg hoff]
    split_ifs with hva hbuf
    · exact trapsWith_trap s _
    · exact trapsWith_trap s _
    · exact absurd ⟨hwin.1, hwin.2.1, Decidable.not_not.1 hva, by simpa using hbuf⟩ h
  · rw [exec_mwbf_outside hg hoff]
    exact trapsWith_trap s _

/-- MWBF copies the clean bytes that it reads. -/
theorem exec_mwbf_copies (h : mwbfFits (s.core.ra x).toNat (s.core.rs b).toNat (mwbfBytes len)) (hs : s.coreId < 512)
    {bs : List ReadByte} {t : State}
    (hr : readsNow s (localBytes s ((s.core.ra x).toNat - 0x7FF000000000) (mwbfBytes len)) bs t) :
    exec (.mwbf len x b g) s =
      ok { t with core := filledBuffer t.core (s.core.rs b).toNat (mwbfBytes len) bs } := by
  obtain ⟨hlo, hhi, hva, hoff, hend⟩ := h
  obtain ⟨_, _, _, _, _, hclean⟩ := id hr
  rw [exec_mwbf_inside hg ((localOff_eq s (mwbfBytes_pos len)).trans (if_pos ⟨hlo, hhi, hs⟩)), if_neg (by simp [hva]),
    if_neg (by simp [hoff, hend]), withRace_readsNow hr, withRead0_readsNow hr, copyIn_clean hclean]

end

/-! ### MLDB and the end of its fill (R217, R218) -/

/-- The tile that MLDB expands: the values of the staged B, row by row. -/
def expandedTile (f : StoredFmt) (sp : Bool) (t : List Byte) : Vector Num 1024 :=
  Vector.ofFn fun x => (tileElem f sp t (x.val / 32) (x.val % 32)).1

theorem expandedTile_getElem? (f : StoredFmt) (sp : Bool) (t : List Byte) {k j : Nat} (hk : k < 32) (hj : j < 32) :
    (expandedTile f sp t).toArray[32 * k + j]? = some (tileElem f sp t k j).1 := by
  have hlt : 32 * k + j < 1024 := by omega
  have hrow : (32 * k + j) / 32 = k := by omega
  have hcol : (32 * k + j) % 32 = j := by omega
  simp [expandedTile, hlt, hrow, hcol]

section
variable {f : StoredFmt} {sp : Bool} {a : BitVec 6} {g : GuardF} {s : State}

/-- The bytes of the tile that MLDB names. -/
def tileAt (s : State) (f : StoredFmt) (sp : Bool) (a : BitVec 6) : List Byte :=
  (List.range (tileBytes f sp)).map fun i => memGet s.core.wbuf ((s.core.rs a).toNat + i)

theorem exec_mldb (hg : s.core.guard g = true) : exec (.mldb f sp a g) s =
    if !bfAccepts f s.core.bf then formatFault s
    else if (s.core.rs a).toNat % 64 ≠ 0 || 131072 < (s.core.rs a).toNat + tileBytes f sp then
      trap s (matrixTrap s (s.core.rs a))
    else if s.core.wbufErr.any fun e => (s.core.rs a).toNat ≤ e && e < (s.core.rs a).toNat + tileBytes f sp then
      trap s (accTrap s)
    else if s.core.fill.isSome then hold s .fillRunning
    else ok { s with core := { s.core with
      fill := some (expandedTile f sp (tileAt s f sp a), if tileReserved f sp (tileAt s f sp a) then Flags.nv else 0) } } :=
  show execMldb f sp a g s = _ from guarded_on hg _

theorem exec_mdrainSwap (hg : s.core.guard g = true) : exec (.mdrainSwap g) s =
    if s.core.fill.isSome then hold s .fillRunning else ok { s with core := { s.core with bActive := s.core.bStaged } } :=
  show execMdrainSwap g s = _ from guarded_on hg _

theorem exec_weightFillEnd {m : Vector Num 1024} {fl : Flags} (h : s.core.fill = some (m, fl)) : exec .weightFillEnd s =
    ok { s with core := { s.core with
      bStaged := m, fill := none, fflags := s.core.fflags ||| fl.setWidth 32 } } := by
  change execWeightFillEnd s = _
  simp only [execWeightFillEnd, h]
  rfl

end

end Sys2Proof.Machine

namespace Sys2Proof.Rules

open Sys2Proof.Machine

/-- MWBF ends in `filledBuffer`, MLDB in the expanded tile, and the checks before them decide each fault. -/
theorem weightBuffer : WeightBuffer := by
  intro len x b a f sp g s hg va n off good at0 size
  refine ⟨fun hbad => exec_mwbf_traps hg hbad, fun hgood hs bs t hr => ?_, fun hbf => ?_, fun hbf hbad => ?_,
    fun hbf halign hend => ⟨fun herr => ?_, fun hclean => ?_⟩, fun m fl h => exec_weightFillEnd h, fun hfill => ?_,
    fun hfill => ?_⟩
  · obtain ⟨_, _, _, _, hread, _⟩ := id hr
    obtain ⟨own, obs, ch, hframe⟩ := coreRead_frame 0 s.core.seq (localBytes s (va - 0x7FF000000000) n) s
    have hlen := coreRead_length 0 s.core.seq (localBytes s (va - 0x7FF000000000) n) s
    rw [hread] at hframe hlen
    have hbs : bs.length = n := by simpa [localBytes] using hlen
    have ht : t = { s with core := { s.core with own := own, obs := obs }, choice := ch } := hframe
    have hget (i : Nat) := memGet_foldl_memSet bs t.core.wbuf off 0 i
    refine ⟨_, exec_mwbf_copies hg hgood hs hr, rfl, by rw [ht]; rfl, by rw [ht]; exact ⟨rfl, rfl, rfl, rfl, rfl⟩,
      fun i hi => ?_, fun i hi => ?_⟩
    · refine (hget (off + i)).trans ((if_pos (by omega)).trans ?_)
      rw [Nat.add_zero, Nat.add_sub_cancel_left]
    · refine (hget i).trans ((if_neg (by omega)).trans ?_)
      rw [ht]
  · rw [exec_mldb hg, hbf]
    exact trapsWith_formatFault s
  · rw [exec_mldb hg, hbf, if_neg (by simp), if_pos (by simpa using hbad)]
    exact trapsWith_trap s _
  · rw [exec_mldb hg, hbf, if_neg (by simp), if_neg (by simpa using ⟨halign, hend⟩), if_pos (by simpa using herr)]
    exact trapsWith_trap s _
  · have hok : ¬(s.core.wbufErr.any fun e => (s.core.rs a).toNat ≤ e && e < (s.core.rs a).toNat + tileBytes f sp) = true := by
      simp only [List.any_eq_true, Bool.and_eq_true, decide_eq_true_eq, not_exists, not_and]
      intro e he hlo hhi
      rcases hclean e he with h | h <;> omega
    rw [exec_mldb hg, hbf, if_neg (by simp), if_neg (by simpa using ⟨halign, hend⟩), if_neg hok]
    refine ⟨fun hfill => if_pos (Option.isSome_iff_ne_none.2 hfill), fun hfill => ?_⟩
    rw [hfill]
    refine ⟨_, _, rfl, ?_, fun k j hk hj => expandedTile_getElem? f sp _ hk hj⟩
    split
    · exact .inr rfl
    · exact .inl rfl
  · exact (exec_mdrainSwap hg).trans (if_pos (Option.isSome_iff_ne_none.2 hfill))
  · exact (exec_mdrainSwap hg).trans (if_neg (by simp [hfill]))

end Sys2Proof.Rules

/-! SUPPORT. Beats of the matrix array (R33, R37, R39, R42, R115, R219 to R221, R226): the rows that a beat writes, what it multiplies,
its flags, and the elements of floating beats. -/

namespace Sys2Proof.Machine

open Sys2Proof

/-! ### Rows of the accumulator store (R56, R115) -/

theorem rowElem_ofElems (xs : List (BitVec 32)) {j : Nat} (h : j < 32) : rowElem (ofElems xs) j = xs.getD j 0 := by
  have hfold : xs.foldr (fun x n => x.toNat + n * 2 ^ 32) 0 = packNat 32 (xs.map BitVec.toNat) := by
    induction xs with
    | nil => rfl
    | cons x r ih =>
      rw [List.map_cons, packNat_cons, List.foldr_cons, ih, Nat.mod_eq_of_lt x.isLt, Nat.mul_comm]
  have hpack : ofElems xs = BitVec.ofNat 1024 (packNat 32 (xs.map BitVec.toNat)) := congrArg _ hfold
  apply BitVec.eq_of_toNat_eq
  rw [hpack, rowElem, extractLsb'_packNat (by omega)]
  cases hx : xs[j]? with
  | none => simp [hx]
  | some x => simp [hx, Nat.mod_eq_of_lt x.isLt]

theorem accRow_setRow (c : CoreState) (r q : Nat) (x : AccRow) :
    (c.setRow r x).accRow q = if r = q then x else c.accRow q := kget_kput 0 c.acc r q x

/-- Some rows from `b` on, each written anew. -/
def writeRows (c : CoreState) (b : Nat) (f : Nat → AccRow) (hs : List Nat) : CoreState :=
  hs.foldl (fun c h => c.setRow (b + h) (f h)) c

theorem writeRows_frame (c : CoreState) (b : Nat) (f : Nat → AccRow) (hs : List Nat) :
    ∃ acc err, writeRows c b f hs = { c with acc := acc, accErr := err } := by
  induction hs generalizing c with
  | nil => exact ⟨c.acc, c.accErr, rfl⟩
  | cons h r ih =>
    obtain ⟨acc, err, hr⟩ := ih (c.setRow (b + h) (f h))
    exact ⟨acc, err, hr⟩

theorem accRow_writeRows (c : CoreState) (b : Nat) (f : Nat → AccRow) (hs : List Nat) (h : Nat) :
    (writeRows c b f hs).accRow (b + h) = if h ∈ hs then f h else c.accRow (b + h) := by
  induction hs generalizing c with
  | nil => rfl
  | cons k r ih =>
    rw [writeRows, List.foldl_cons, ← writeRows, ih, accRow_setRow]
    by_cases hk : k = h
    · subst hk
      simp
    · simp [hk, Ne.symm hk]

theorem accRow_writeRows_other (c : CoreState) (b : Nat) (f : Nat → AccRow) {hs : List Nat} {q : Nat}
    (hq : ∀ h ∈ hs, q ≠ b + h) : (writeRows c b f hs).accRow q = c.accRow q := by
  induction hs generalizing c with
  | nil => rfl
  | cons k r ih =>
    rw [writeRows, List.foldl_cons, ← writeRows, ih _ fun h hh => hq h (List.mem_cons_of_mem k hh), accRow_setRow,
      if_neg (hq k (List.mem_cons_self ..)).symm]

/-! ### What a beat multiplies (R219, R220) -/

/-- The rows of a beat beside its own: the second row of a pair of 4-bit rows. -/
def beatHalves (c : CoreState) : List Nat := if is4Code c.af && is4Code c.bf then [0, 1] else [0]

/-- The first accumulator row of a beat. -/
def beatBase (o : Beat) : Nat := 32 * o.t.toNat + o.r.toNat

/-- Element k of the A row of half h, with the window of MSHIFT. -/
def beatElem (c : CoreState) (o : Beat) (shift : Option Nat) (h k : Nat) : Num × Bool :=
  match shift with
  | none => aElem c.af (c.rv o.a) h k
  | some n => if k + n < 32 then aElem c.af (c.rv o.a) 0 (k + n) else aElem c.af (c.rv (o.a + 1)) 0 (k + n - 32)

/-- The A row of half h. -/
def beatA (c : CoreState) (o : Beat) (shift : Option Nat) (h : Nat) : List Num :=
  (List.range 32).map fun k => (beatElem c o shift h k).1

/-- Whether the A rows hold a reserved code. -/
def beatReserved (c : CoreState) (o : Beat) (shift : Option Nat) : Bool :=
  (beatHalves c).any fun h => (List.range 32).any fun k => (beatElem c o shift h k).2

theorem beatRows_eq (s : State) (o : Beat) (shift : Option Nat) : beatRows s o shift =
    ((beatHalves s.core).map fun h => (beatBase o + h, beatA s.core o shift h), beatReserved s.core o shift) := by
  cases shift <;> simp only [beatRows, beatA, beatReserved, List.map_map, List.any_map] <;> rfl

theorem column_eq (b : Vector Num 1024) (a : Nat → Num) (n j : Nat) : column b ((List.range n).map a) j =
    (List.range n).map fun k => (a k, (b.toArray[32 * k + j]?).getD Num.zero) := by
  refine List.ext_getElem (by simp [column]) fun k _ _ => ?_
  simp [column]

/-! ### The beats (R220, R221) -/

/-- The row and the flags of half h of a beat. -/
def beatHalf (s : State) (o : Beat) (push : Bool) (shift : Option Nat) (h : Nat) : AccRow × Flags :=
  beatRow s push (beatBase o + h) (beatA s.core o shift h)

/-- The flags of a beat: those of its halves, and NV where its A rows hold a reserved code. -/
def beatFlags (s : State) (o : Beat) (push : Bool) (shift : Option Nat) : Flags :=
  (beatHalves s.core).foldl (fun f h => f ||| (beatHalf s o push shift h).2)
    (if beatReserved s.core o shift then Flags.nv else 0)

/-- The core with the rows of a beat written. -/
def beatStored (s : State) (o : Beat) (push : Bool) (shift : Option Nat) : CoreState :=
  writeRows s.core (beatBase o) (fun h => (beatHalf s o push shift h).1) (beatHalves s.core)

/-- The state after a beat that runs. -/
def beatNext (s : State) (o : Beat) (push drain : Bool) (shift : Option Nat) : State :=
  { s with
    core := { beatStored s o push shift with
      beat := some (beatFlags s o push shift)
      bActive := if drain then (beatStored s o push shift).bStaged else (beatStored s o push shift).bActive }
    choice := s.choice + 1
    sig := .none }

section
variable {o : Beat} {push drain : Bool} {shift : Option Nat} {s : State} (hg : s.core.guard o.g = true)
include hg

/-- A combination of formats that R33 does not list, an odd row of a pair and a shifted 4-bit row are format faults. -/
theorem beatOut_format (h : beatFormed s.core = false ∨ (is4Code s.core.af && is4Code s.core.bf && o.r.getLsbD 0) = true ∨
    (shift.isSome && is4Code s.core.af) = true) : beatOut o push drain shift s = formatFault s := by
  unfold beatOut
  rw [guarded_on hg]
  dsimp only
  cases hf : beatFormed s.core with
  | false => rfl
  | true => rw [if_neg (by simp), if_pos (by simpa [hf] using h)]

variable (hf : beatFormed s.core = true) (hodd : (is4Code s.core.af && is4Code s.core.bf && o.r.getLsbD 0) = false)
  (hshift : (shift.isSome && is4Code s.core.af) = false)
include hf hodd hshift

theorem beatOut_owned (h : s.core.owned o.t.toNat = true) : beatOut o push drain shift s = trap s (ladderTrap s) := by
  unfold beatOut
  rw [guarded_on hg]
  dsimp only
  rw [if_neg (by simp [hf]), if_neg (by rw [hodd, hshift]; simp), if_pos h]

theorem beatOut_runs (hbeat : s.core.beat = none) (hfill : s.core.fill = none) (hfree : s.core.owned o.t.toNat = false)
    (hbad : ∀ r, s.core.rowBad r = false) : beatOut o push drain shift s = .next (beatNext s o push drain shift) := by
  unfold beatOut
  rw [guarded_on hg]
  dsimp only
  rw [if_neg (by simp [hf]), if_neg (by rw [hodd, hshift]; simp), if_neg (by simp [hfree]), if_neg (by simp [hbad]),
    if_neg (by simp [hbeat]), if_neg (by simp [hfill]), beatRows_eq]
  simp only [ok, beatNext, beatStored, writeRows, beatFlags, beatHalf, List.map_map, List.foldl_map, Function.comp_def]

end

/-! ### What a beat leaves -/

section
variable (s : State) (o : Beat) (push drain : Bool) (shift : Option Nat)

theorem beatNext_core : ∃ acc err, (beatNext s o push drain shift).core = { s.core with
    acc := acc, accErr := err, beat := some (beatFlags s o push shift),
    bActive := if drain then s.core.bStaged else s.core.bActive } := by
  obtain ⟨acc, err, h⟩ := writeRows_frame s.core (beatBase o) (fun h => (beatHalf s o push shift h).1) (beatHalves s.core)
  exact ⟨acc, err, by simp only [beatNext, beatStored, h]⟩

theorem beatNext_accRow {h : Nat} (hh : h ∈ beatHalves s.core) :
    (beatNext s o push drain shift).core.accRow (beatBase o + h) = (beatHalf s o push shift h).1 :=
  (accRow_writeRows s.core (beatBase o) (fun h => (beatHalf s o push shift h).1) _ h).trans (if_pos hh)

theorem beatNext_accRow_other {q : Nat} (hq : ∀ h ∈ beatHalves s.core, q ≠ beatBase o + h) :
    (beatNext s o push drain shift).core.accRow q = s.core.accRow q :=
  accRow_writeRows_other s.core (beatBase o) (fun h => (beatHalf s o push shift h).1) hq

/-- A beat moves no byte and writes no register but the active B of a drain; its flags wait for its completion. -/
theorem beatNext_keeps : sameStore s (beatNext s o push drain shift) ∧
    (beatNext s o push drain shift).core.bActive = (if drain then s.core.bStaged else s.core.bActive) ∧
    (beatNext s o push drain shift).core.v = s.core.v ∧ (beatNext s o push drain shift).core.s = s.core.s ∧
    (beatNext s o push drain shift).core.fflags = s.core.fflags := by
  obtain ⟨acc, err, hcore⟩ := beatNext_core s o push drain shift
  rw [hcore]
  exact ⟨⟨rfl, rfl, rfl, rfl, rfl⟩, rfl, rfl, rfl, rfl⟩

end

/-- Element j of half h of a beat, with its flags. -/
def beatCell (s : State) (o : Beat) (push : Bool) (shift : Option Nat) (h j : Nat) : BitVec 32 × Flags :=
  let old := rowElem (s.core.accRow (beatBase o + h)) j
  let ps := (List.range 32).map fun k => ((beatElem s.core o shift h k).1, (s.core.bActive.toArray[32 * k + j]?).getD Num.zero)
  if s.core.accf = 8 then
    beatInt push s.core.sat old (Config.freeAcc (64 * s.choice + 32 * ((beatBase o + h) % 2) + j)) ps
  else beatFloat push s.core.sat old ps

theorem beatHalf_eq (s : State) (o : Beat) (push : Bool) (shift : Option Nat) (h : Nat) : beatHalf s o push shift h =
    (ofElems ((List.range 32).map fun j => (beatCell s o push shift h j).1),
      (List.range 32).foldl (fun f j => f ||| (beatCell s o push shift h j).2) 0) := by
  simp only [beatHalf, beatRow, beatA, column_eq, List.map_map, List.foldl_map]
  rfl

theorem beatHalf_elem (s : State) (o : Beat) (push : Bool) (shift : Option Nat) (h : Nat) {j : Nat} (hj : j < 32) :
    rowElem (beatHalf s o push shift h).1 j = (beatCell s o push shift h j).1 := by
  rw [beatHalf_eq, rowElem_ofElems _ hj]
  simp [hj]

/-- An element that a beat has written. -/
theorem beatNext_elem (s : State) (o : Beat) (push drain : Bool) (shift : Option Nat) {h j : Nat} (hh : h ∈ beatHalves s.core)
    (hj : j < 32) : rowElem ((beatNext s o push drain shift).core.accRow (beatBase o + h)) j = (beatCell s o push shift h j).1 := by
  rw [beatNext_accRow s o push drain shift hh, beatHalf_elem s o push shift h hj]

/-! ### Flags ORed together -/

/-- Flags within a set, ORed together, are within it. -/
theorem foldl_or_within {α : Type} (m : Flags) (g : α → Flags) (l : List α) (h : ∀ x ∈ l, g x &&& m = 0) {f : Flags}
    (hf : f &&& m = 0) : l.foldl (fun f x => f ||| g x) f &&& m = 0 := by
  have hor {a b : Flags} (ha : a &&& m = 0) (hb : b &&& m = 0) : (a ||| b) &&& m = 0 := by
    rw [BitVec.and_comm, BitVec.and_or_distrib_left, BitVec.and_comm m, BitVec.and_comm m, ha, hb]
    rfl
  exact List.foldlRecOn (motive := fun f => f &&& m = 0) l _ hf fun f hf x hx => hor hf (h x hx)

/-- A flag that some of a list raise is raised where one of them raises it. -/
theorem foldl_or_ite {α : Type} (p : α → Bool) (g : Flags) (l : List α) (q : Bool) :
    l.foldl (fun f x => f ||| if p x then g else 0) (if q then g else 0) = if q || l.any p then g else 0 := by
  induction l generalizing q with
  | nil => simp
  | cons x r ih =>
    have hor : (if q then g else 0) ||| (if p x then g else 0) = if q || p x then g else 0 := by
      cases q <;> cases p x <;> simp
    rw [List.foldl_cons, hor, ih, List.any_cons, Bool.or_assoc]

/-- Flags beyond NV and OF, which no beat raises (R219). -/
def notBeatFlags : Flags := ~~~(Flags.nv ||| Flags.ovf)

/-- An integer result of a beat, modulo 2^32 or saturated, and OF where it does not fit (R220). -/
def intCell (sat : Bool) (x : Int) : BitVec 32 × Flags :=
  (BitVec.ofInt 32 (if sat then max (-(2 ^ 31)) (min (2 ^ 31 - 1) x) else x),
    if sat && (decide (x < -(2 ^ 31)) || decide (2 ^ 31 - 1 < x)) then Flags.ovf else 0)

/-- An integer element of a beat whose exact sum is the integer `v`. -/
theorem beatInt_some {ps : List (Num × Num)} {v : Int}
    (h : (ps.foldl (fun x p => (Num.addX false x (Num.mulX p.1 p.2).1).1) Num.zero).toInt? = some v) (push sat : Bool)
    (old free : BitVec 32) : beatInt push sat old free ps = intCell sat (if push then v else old.toInt + v) := by
  simp only [beatInt, h]
  generalize (if push then v else old.toInt + v) = x
  rw [show tyLeast .i32 = -(2 ^ 31) from rfl, show tyGreatest .i32 = 2 ^ 31 - 1 from rfl]
  unfold intCell clampInt
  cases sat with
  | false => rfl
  | true =>
    simp only [Bool.true_and, Bool.or_eq_true, decide_eq_true_eq, if_true]
    split_ifs with hout hlo hhi
    · rw [min_eq_right (by omega), max_eq_left (by omega)]
    · rw [min_eq_left (by omega), max_eq_right (by omega)]
    · omega
    · rw [min_eq_right (by omega), max_eq_right (by omega)]

theorem beatInt_cases (push sat : Bool) (old free : BitVec 32) (ps : List (Num × Num)) :
    beatInt push sat old free ps = (free, 0) ∨ ∃ x, beatInt push sat old free ps = intCell sat x := by
  cases h : (ps.foldl (fun x p => (Num.addX false x (Num.mulX p.1 p.2).1).1) Num.zero).toInt? with
  | none => exact .inl (by simp only [beatInt, h])
  | some v => exact .inr ⟨_, beatInt_some h push sat old free⟩

theorem beatCell_flags (s : State) (o : Beat) (push : Bool) (shift : Option Nat) (h j : Nat) :
    (beatCell s o push shift h j).2 &&& notBeatFlags = 0 := by
  simp only [beatCell]
  split
  · rcases beatInt_cases push s.core.sat (rowElem (s.core.accRow (beatBase o + h)) j)
      (Config.freeAcc (64 * s.choice + 32 * ((beatBase o + h) % 2) + j)) _ with hfree | ⟨x, hx⟩
    · rw [hfree]
      exact BitVec.zero_and
    · rw [hx, intCell]
      dsimp only
      split <;> rfl
  · exact (BitVec.and_assoc ..).trans BitVec.and_zero

theorem beatFlags_within (s : State) (o : Beat) (push : Bool) (shift : Option Nat) :
    beatFlags s o push shift &&& notBeatFlags = 0 := by
  refine foldl_or_within _ _ _ (fun h _ => ?_) (by split <;> rfl)
  rw [beatHalf_eq]
  exact foldl_or_within _ _ _ (fun j _ => beatCell_flags s o push shift h j) rfl

/-! ### Formats and pairs (R33, R219) -/

theorem is4Code_iff (x : BitVec 4) : is4Code x = true ↔ x = 5 ∨ x = 7 := by simp [is4Code]

theorem beatFormed_iff (c : CoreState) : beatFormed c = true ↔ (c.af.toNat ≤ 5 ∧ c.bf.toNat ≤ 5 ∧ c.accf = 0) ∨
    ((c.af = 6 ∨ c.af = 7) ∧ (c.bf = 6 ∨ c.bf = 7) ∧ c.accf = 8) := by
  simp [beatFormed, and_assoc]

theorem mem_beatHalves (c : CoreState) (h : Nat) :
    h ∈ beatHalves c ↔ h = 0 ∨ (((c.af = 5 ∨ c.af = 7) ∧ (c.bf = 5 ∨ c.bf = 7)) ∧ h = 1) := by
  rw [← is4Code_iff, ← is4Code_iff, ← Bool.and_eq_true, beatHalves]
  split <;> simp [*]

theorem getLsbD_zero_eq (x : BitVec 5) : x.getLsbD 0 = decide (x.toNat % 2 = 1) := Nat.testBit_zero _

/-- The second half of a pair starts at an even row. -/
theorem oddPair_eq_false {c : CoreState} {o : Beat}
    (h : (c.af = 5 ∨ c.af = 7) ∧ (c.bf = 5 ∨ c.bf = 7) → o.r.toNat % 2 = 0) :
    (is4Code c.af && is4Code c.bf && o.r.getLsbD 0) = false := by
  rw [← is4Code_iff, ← is4Code_iff, ← Bool.and_eq_true] at h
  cases hp : is4Code c.af && is4Code c.bf with
  | false => rfl
  | true => rw [getLsbD_zero_eq, h hp]; rfl

/-! ### The instructions of a beat (R219, R221) -/

theorem exec_mpush (o : Beat) (s : State) : exec (.mpush o) s = beatOut o true false none s := rfl
theorem exec_mshift (o : Beat) (n : BitVec 5) (s : State) :
    exec (.mshift o n) s = beatOut o false false (some n.toNat) s := rfl
theorem exec_macc (o : Beat) (s : State) : exec (.macc o) s = beatOut o false false none s := rfl
theorem exec_mdrain (o : Beat) (s : State) : exec (.mdrain o) s = beatOut o false true none s := rfl

theorem exec_beatComplete {s : State} {f : Flags} (h : s.core.beat = some f) : exec .beatComplete s =
    ok { s with core := { s.core with beat := none, fflags := s.core.fflags ||| f.setWidth 32 } } := by
  change execBeatComplete s = _
  simp only [execBeatComplete, h]
  rfl

/-- The window of MSHIFT runs over two registers. -/
theorem beatElem_shift (c : CoreState) (o : Beat) (n h k : Nat) : (beatElem c o (some n) h k).1 =
    if k + n < 32 then (aElem c.af (c.rv o.a) 0 (k + n)).1 else (aElem c.af (c.rv (o.a + 1)) 0 (k + n - 32)).1 :=
  apply_ite Prod.fst ..

end Sys2Proof.Machine

namespace Sys2Proof.Rules

open Sys2Proof.Machine

/-- A beat that may run leaves `beatNext`, whose elements are those of `beatFloat`; every other case is decided by its format or by
the owner of its tile. -/
theorem beats : Beats := by
  intro o n s hg hbeat hfill c row pair formed free window sum rowA added writes
  have hpair : (is4Code c.af && is4Code c.bf) = true ↔ pair := by rw [Bool.and_eq_true, is4Code_iff, is4Code_iff]
  have hrun (hf : formed) (hodd : pair → o.r.toNat % 2 = 0) (hfree : free) (push drain : Bool) (shift : Option Nat)
      (hshift : (shift.isSome && is4Code c.af) = false) :
      beatOut o push drain shift s = .next (beatNext s o push drain shift) :=
    beatOut_runs hg ((beatFormed_iff c).2 hf) (oddPair_eq_false hodd) hshift hbeat hfill hfree.1 hfree.2
  have hwrites {i : Instr} {push drain : Bool} {shift : Option Nat}
      (hi : exec i s = .next (beatNext s o push drain shift)) : writes i drain := by
    obtain ⟨hstore, hactive, hregs⟩ := beatNext_keeps s o push drain shift
    refine ⟨_, _, hi, rfl, rfl, beatFlags_within s o push shift, hactive, fun r hr hr1 => ?_, hstore, hregs⟩
    refine beatNext_accRow_other s o push drain shift fun h hh => ?_
    rcases (mem_beatHalves c h).1 hh with rfl | ⟨hp, rfl⟩
    · exact hr
    · exact hr1 hp
  have hshift (h5 : c.af ≠ 5) (h7 : c.af ≠ 7) : ((some n.toNat).isSome && is4Code c.af) = false :=
    Bool.eq_false_iff.2 (mt (is4Code_iff c.af).1 (not_or.2 ⟨h5, h7⟩))
  refine ⟨fun hbad => ?_, fun hf hsingle howned => ?_, fun hf hodd hfree => ?_, fun h4 hf => ?_, fun h5 h7 hf hfree => ?_,
    fun hf hacc hodd hfree h hh j hj => ?_, fun f => ?_⟩
  · have hfault (push drain : Bool) : trapsWith s (beatOut o push drain none s) 0x12 := by
      rw [beatOut_format hg]
      · exact trapsWith_formatFault s
      · refine hbad.imp (fun h => ?_) fun ⟨hp, hodd⟩ => .inl ?_
        · exact Bool.eq_false_iff.2 (mt (beatFormed_iff c).1 h)
        · rw [Bool.and_eq_true]
          exact ⟨hpair.2 hp, (getLsbD_zero_eq o.r).trans (decide_eq_true hodd)⟩
    exact ⟨hfault true false, hfault false false, hfault false true⟩
  · have hfault (push drain : Bool) : trapsWith s (beatOut o push drain none s) 0x0D := by
      rw [beatOut_owned hg ((beatFormed_iff c).2 hf) (oddPair_eq_false fun hp => absurd hp hsingle) rfl howned]
      exact trapsWith_trap s _
    exact ⟨hfault true false, hfault false false, hfault false true⟩
  · have hnext (push drain : Bool) := hrun hf hodd hfree push drain none rfl
    exact ⟨hwrites (hnext true false), hwrites (hnext false false), hwrites (hnext false true)⟩
  · rw [exec_mshift, beatOut_format hg (.inr (.inr (by simpa using (is4Code_iff c.af).2 h4)))]
    exact trapsWith_formatFault s
  · exact hwrites (hrun hf (fun hp => (hp.1.elim h5 h7).elim) hfree false false _ (hshift h5 h7))
  · have hcell {i : Instr} {push drain : Bool} {shift : Option Nat} {u : State} {k : Nat} (hk : k ∈ beatHalves c)
        (hi : exec i s = .next (beatNext s o push drain shift)) (hu : exec i s = .next u) :
        rowElem (u.core.accRow (row + k)) j = (beatFloat push c.sat (rowElem (c.accRow (row + k)) j)
          ((List.range 32).map fun q =>
            ((beatElem c o shift k q).1, (c.bActive.toArray[32 * q + j]?).getD Machine.Num.zero))).1 := by
      obtain rfl := Host.Outcome.next.inj (hi.symm.trans hu)
      exact (beatNext_elem s o push drain shift hk hj).trans (congrArg Prod.fst (if_neg (by simp [c, hacc])))
    have hnext (push drain : Bool) := hrun hf hodd hfree push drain none rfl
    have hpush := (exec_mpush o s).trans (hnext true false)
    have hadd := (exec_macc o s).trans (hnext false false)
    have hdrain := (exec_mdrain o s).trans (hnext false true)
    have hmem : h ∈ beatHalves c := (mem_beatHalves c h).2 hh
    refine ⟨fun u hu => hcell hmem hpush hu, fun u hu => hcell hmem hadd hu, fun u hu => hcell hmem hdrain hu,
      fun h5 h7 u hu => ?_⟩
    have hwindow := (exec_mshift o n s).trans (hrun hf hodd hfree false false _ (hshift h5 h7))
    have hzero := hcell ((mem_beatHalves c 0).2 (.inl rfl)) hwindow hu
    simp only [beatElem_shift] at hzero
    exact hzero
  · refine (exec_beatComplete rfl).trans ?_
    rw [← hbeat]
    rfl

end Sys2Proof.Rules

/-! SUPPORT. Integer beats (R39, R219, R220): sums of products of integers are exact, and each element is that sum modulo 2^32 or
saturated. -/

namespace Sys2Proof.Machine

open Sys2Proof

/-! ### Exact sums of integers (R39, R219) -/

/-- The value is the integer `v`, in units of 1. -/
def isIntNum (x : Num) (v : Int) : Prop := ∃ n m, x = .fin n m 0 ∧ scaleTo n m 0 0 = v

theorem scaleTo_zero (n : Bool) (m : Nat) : scaleTo n m 0 0 = if n then -(m : Int) else m := by simp [scaleTo]

/-- A sign and a magnitude give back their integer. -/
theorem scaleTo_natAbs (v : Int) : scaleTo (decide (v < 0)) v.natAbs 0 0 = v := by
  rw [scaleTo_zero]
  by_cases h : v < 0 <;> simp only [h, decide_true, decide_false, if_true, if_false, Bool.false_eq_true] <;> omega

theorem isIntNum_ofInt (v : Int) : isIntNum (Num.ofInt v) v := ⟨_, _, rfl, scaleTo_natAbs v⟩

theorem isIntNum_mulX {x y : Num} {v w : Int} (hx : isIntNum x v) (hy : isIntNum y w) : isIntNum (Num.mulX x y).1 (v * w) := by
  obtain ⟨a, m, rfl, rfl⟩ := hx
  obtain ⟨b, n, rfl, rfl⟩ := hy
  refine ⟨a != b, m * n, rfl, ?_⟩
  rw [scaleTo_zero, scaleTo_zero, scaleTo_zero]
  cases a <;> cases b <;> simp

theorem isIntNum_addX {x y : Num} {v w : Int} (hx : isIntNum x v) (hy : isIntNum y w) : isIntNum (Num.addX false x y).1 (v + w) := by
  obtain ⟨a, m, rfl, rfl⟩ := hx
  obtain ⟨b, n, rfl, rfl⟩ := hy
  simp only [Num.addX, min_self]
  by_cases h : scaleTo a m 0 0 + scaleTo b n 0 0 = 0
  · rw [if_pos h]
    exact ⟨_, 0, rfl, by rw [h, scaleTo_zero]; simp⟩
  · rw [if_neg h]
    exact ⟨_, _, rfl, scaleTo_natAbs _⟩

theorem toInt?_of_isIntNum {x : Num} {v : Int} (h : isIntNum x v) : x.toInt? = some v := by
  obtain ⟨n, m, rfl, rfl⟩ := h
  rfl

/-- The running sum of products of integers. -/
theorem isIntNum_foldl (a b : Nat → Int) (l : List Nat) {x : Num} {v : Int} (h : isIntNum x v) :
    isIntNum ((l.map fun k => (Num.ofInt (a k), Num.ofInt (b k))).foldl (fun x p => (Num.addX false x (Num.mulX p.1 p.2).1).1) x)
      (v + (l.map fun k => a k * b k).sum) := by
  induction l generalizing x v with
  | nil => simpa using h
  | cons k r ih =>
    rw [List.map_cons, List.foldl_cons, List.map_cons, List.sum_cons, ← add_assoc]
    exact ih (isIntNum_addX h (isIntNum_mulX (isIntNum_ofInt (a k)) (isIntNum_ofInt (b k))))

/-! ### Integer beats (R219, R220) -/

/-- The integer type of an A row. -/
def beatTy (c : CoreState) : Ty := if c.af = 6 then .i8 else .i4

theorem aElem_int {c : CoreState} (h : c.af = 6 ∨ c.af = 7) (v : VReg) (i k : Nat) : aElem c.af v i k =
    (Num.ofInt (tyToInt (beatTy c) (laneAt (beatTy c).bits v (32 * i + k))), false) := by
  rcases h with h | h <;> simp only [beatTy, h] <;> rfl

/-- An element of an integer beat: the sum of its products, with the old element unless it is a push. -/
theorem beatCell_int {s : State} {o : Beat} {shift : Option Nat} {h j : Nat} {a b : Nat → Int} (hacc : s.core.accf = 8)
    (ha : ∀ k, k < 32 → (beatElem s.core o shift h k).1 = Num.ofInt (a k))
    (hb : ∀ k, k < 32 → s.core.bActive.toArray[32 * k + j]? = some (Num.ofInt (b k))) (push : Bool) :
    beatCell s o push shift h j = intCell s.core.sat
      (if push then ((List.range 32).map fun k => a k * b k).sum
        else (rowElem (s.core.accRow (beatBase o + h)) j).toInt + ((List.range 32).map fun k => a k * b k).sum) := by
  have hps : ((List.range 32).map fun k => ((beatElem s.core o shift h k).1,
      (s.core.bActive.toArray[32 * k + j]?).getD Num.zero)) =
        (List.range 32).map fun k => (Num.ofInt (a k), Num.ofInt (b k)) :=
    List.map_congr_left fun k hk => by rw [ha k (List.mem_range.1 hk), hb k (List.mem_range.1 hk)]; rfl
  have hsum := isIntNum_foldl a b (List.range 32) (x := Num.zero) (v := 0) ⟨false, 0, rfl, rfl⟩
  rw [Int.zero_add] at hsum
  simp only [beatCell, hacc, hps]
  exact beatInt_some (toInt?_of_isIntNum hsum) push s.core.sat _ _

/-- Whether an integer does not fit INT32. -/
def beyondI32 (x : Int) : Bool := decide (x < -(2 ^ 31)) || decide (2 ^ 31 - 1 < x)

section
variable {s : State} {o : Beat} {push : Bool} {shift : Option Nat} {x : Nat → Nat → Int}
  (hx : ∀ h ∈ beatHalves s.core, ∀ j, j < 32 → beatCell s o push shift h j = intCell s.core.sat (x h j))
include hx

theorem beatHalf_flags_int {h : Nat} (hh : h ∈ beatHalves s.core) : (beatHalf s o push shift h).2 =
    if (List.range 32).any fun j => s.core.sat && beyondI32 (x h j) then Flags.ovf else 0 := by
  rw [beatHalf_eq]
  calc (List.range 32).foldl (fun f j => f ||| (beatCell s o push shift h j).2) 0
      = (List.range 32).foldl (fun f j => f ||| if s.core.sat && beyondI32 (x h j) then Flags.ovf else 0) 0 :=
        List.foldl_ext _ _ _ fun f j hj => by rw [hx h hh j (List.mem_range.1 hj)]; rfl
    _ = _ := foldl_or_ite (fun j => s.core.sat && beyondI32 (x h j)) Flags.ovf _ false

/-- The flags of a beat whose elements are integer results: OF where one of them does not fit under SAT. -/
theorem beatFlags_int (hres : beatReserved s.core o shift = false) : beatFlags s o push shift =
    if (beatHalves s.core).any fun h => (List.range 32).any fun j => s.core.sat && beyondI32 (x h j) then Flags.ovf else 0 := by
  unfold beatFlags
  rw [hres]
  calc (beatHalves s.core).foldl (fun f h => f ||| (beatHalf s o push shift h).2) 0
      = (beatHalves s.core).foldl (fun f h => f |||
          if (List.range 32).any fun j => s.core.sat && beyondI32 (x h j) then Flags.ovf else 0) 0 :=
        List.foldl_ext _ _ _ fun f h hh => by rw [beatHalf_flags_int hx hh]
    _ = _ := foldl_or_ite (fun h => (List.range 32).any fun j => s.core.sat && beyondI32 (x h j)) Flags.ovf _ false

theorem beatFlags_int_ovf (hres : beatReserved s.core o shift = false) : beatFlags s o push shift = Flags.ovf ↔
    s.core.sat = true ∧ ∃ h ∈ beatHalves s.core, ∃ j, j < 32 ∧ (x h j < -(2 ^ 31) ∨ 2 ^ 31 - 1 < x h j) := by
  have hany : (beatFlags s o push shift = Flags.ovf) ↔
      ((beatHalves s.core).any fun h => (List.range 32).any fun j => s.core.sat && beyondI32 (x h j)) = true := by
    rw [beatFlags_int hx hres]
    split
    · next h => simp [h]
    · next h => simp [h, Flags.ovf]
  rw [hany]
  simp only [List.any_eq_true, List.mem_range, Bool.and_eq_true, beyondI32, Bool.or_eq_true, decide_eq_true_eq]
  constructor
  · rintro ⟨h, hh, j, hj, hsat, hout⟩
    exact ⟨hsat, h, hh, j, hj, hout⟩
  · rintro ⟨hsat, h, hh, j, hj, hout⟩
    exact ⟨h, hh, j, hj, hsat, hout⟩

theorem beatFlags_int_cases (hres : beatReserved s.core o shift = false) :
    beatFlags s o push shift = 0 ∨ beatFlags s o push shift = Flags.ovf := by
  rw [beatFlags_int hx hres]
  split
  · exact .inr rfl
  · exact .inl rfl

end

/-- The window of MSHIFT over two registers of integers. -/
theorem beatElem_shift_int {c : CoreState} (h : c.af = 6 ∨ c.af = 7) (o : Beat) (n i k : Nat) :
    beatElem c o (some n) i k = (Num.ofInt
      (if k + n < 32 then tyToInt (beatTy c) (laneAt (beatTy c).bits (c.rv o.a) (k + n))
        else tyToInt (beatTy c) (laneAt (beatTy c).bits (c.rv (o.a + 1)) (k + n - 32))), false) := by
  simp only [beatElem, aElem_int h, Nat.mul_zero, Nat.zero_add]
  split <;> rfl

end Sys2Proof.Machine

namespace Sys2Proof.Rules

open Sys2Proof.Machine

/-- Where A and B are integers, each element of a beat is an `intCell` of the exact sum. -/
theorem integerBeats : IntegerBeats := by
  intro o n s b hg hbeat hfill c row pair ta lane haf hbf hacc hodd howned hbad hb sum gives rows old whole
  have hformed : beatFormed c = true := (beatFormed_iff c).2 (.inr ⟨haf, hbf, hacc⟩)
  have h7 (x : BitVec 4) (hx : x = 6 ∨ x = 7) : (x = 5 ∨ x = 7) ↔ x = 7 := by rcases hx with rfl | rfl <;> decide
  have heven := oddPair_eq_false (c := c) (o := o) fun ⟨ha, hb⟩ => hodd ⟨(h7 _ haf).1 ha, (h7 _ hbf).1 hb⟩
  have hrows : beatHalves c = rows := by
    have hpair : (is4Code c.af && is4Code c.bf) = true ↔ pair := by
      rw [Bool.and_eq_true, is4Code_iff, is4Code_iff, h7 _ haf, h7 _ hbf]
    simp only [beatHalves, hpair, rows]
  have hgives {i : Instr} {push drain : Bool} {shift : Option Nat} {x : Nat → Nat → Int} (hres : beatReserved c o shift = false)
      (hi : exec i s = .next (beatNext s o push drain shift))
      (hx : ∀ h j, j < 32 → beatCell s o push shift h j = intCell c.sat (x h j)) : gives i rows x := by
    have hcells : ∀ h ∈ beatHalves s.core, ∀ j, j < 32 → beatCell s o push shift h j = intCell s.core.sat (x h j) :=
      fun h _ => hx h
    refine ⟨_, beatFlags s o push shift, hi, rfl, rfl, fun h hh j hj => ?_, beatFlags_int_cases hcells hres,
      hrows ▸ beatFlags_int_ovf hcells hres⟩
    exact (beatNext_elem s o push drain shift (hrows ▸ hh) hj).trans (congrArg Prod.fst (hx h j hj))
  have hrun (push drain : Bool) : beatOut o push drain none s = .next (beatNext s o push drain none) :=
    beatOut_runs hg hformed heven rfl hbeat hfill howned hbad
  have helem (h k : Nat) : beatElem c o none h k = (Num.ofInt (lane o.a (32 * h + k)), false) := aElem_int haf _ h k
  have hclean : beatReserved c o none = false := by simp [beatReserved, helem]
  have hcell (push : Bool) (h j : Nat) (hj : j < 32) : beatCell s o push none h j = _ :=
    beatCell_int hacc (fun k _ => congrArg Prod.fst (helem h k)) (fun k hk => hb k j hk hj) push
  refine ⟨hgives hclean ((exec_mpush o s).trans (hrun true false)) (hcell true),
    hgives hclean ((exec_macc o s).trans (hrun false false)) (hcell false),
    hgives hclean ((exec_mdrain o s).trans (hrun false true)) (hcell false), fun h6 => ?_⟩
  have hsingle : rows = [0] := if_neg fun hp => absurd (h6.symm.trans hp.1) (by decide)
  have hshift : ((some n.toNat).isSome && is4Code s.core.af) = false := by
    rw [show s.core.af = 6 from h6]
    rfl
  have hwindow (h k : Nat) := beatElem_shift_int haf o n.toNat h k
  rw [← hsingle]
  exact hgives (by simp [beatReserved, hwindow])
    ((exec_mshift o n s).trans (beatOut_runs hg hformed heven hshift hbeat hfill howned hbad)) fun h j hj =>
      beatCell_int hacc (fun k _ => congrArg Prod.fst (hwindow h k)) (fun k hk => hb k j hk hj) false

/-- Settles O39: the weight buffer is filled and staged as its checks say, and each beat writes the rounded or exact sums of its
products to its own rows. -/
theorem weightsAndBeats : Obligations.WeightsAndBeats := ⟨weightBuffer, beats, integerBeats⟩

end Sys2Proof.Rules

/-! SUPPORT. Loads at issue (R54, R55, R138, R260 to R266, R275): what the checks before a load let through, the lanes of a vector
access, and what a load that issues changes. -/

namespace Sys2Proof.Machine

open Sys2Proof

/-! ### Checks that pass (R138, R267) -/

theorem withRace_free {s : State} {pas : List Nat} (h : 512 ≤ s.coreId ∨ raceOf s s.coreId s.core.seen pas = none)
    (k : Unit → Res) : withRace s pas k = k () := by
  unfold withRace
  rcases h with h | h
  · exact if_pos (decide_eq_true h)
  · rw [h]
    exact ite_self _

theorem withBytes_ok {s : State} {n : Need} {rs : List (Nat × Nat × Nat)} {segs : List Seg}
    (h : checkAll (fun r : Nat × Nat × Nat => checkRange s n r.1 r.2.1 r.2.2) rs = .ok segs) (k : List (Nat × Nat) → Res) :
    withBytes s n rs k = k (segBytes segs) := by
  rw [withBytes, h]
  rfl

/-- Checks of a list that agree on its members give the same. -/
theorem checkAll_congr {α : Type} {f g : α → Checked} {l : List α} (h : ∀ x ∈ l, f x = g x) : checkAll f l = checkAll g l := by
  induction l with
  | nil => rfl
  | cons x r ih =>
    obtain ⟨hx, hr⟩ := List.forall_mem_cons.1 h
    simp only [checkAll, hx, ih hr]

theorem checkAll_map {α β : Type} (f : β → Checked) (g : α → β) (l : List α) :
    checkAll f (l.map g) = checkAll (fun x => f (g x)) l := by
  induction l with
  | nil => rfl
  | cons x r ih => simp only [List.map_cons, checkAll, ih]

/-- Aligned lanes whose ranges pass go on. -/
theorem withLanes_ok {s : State} {w : Nat} {check : Nat × Nat → Checked} {ls : List (Nat × Nat)} {segs : List Seg}
    (ha : ∀ l ∈ ls, l.2 % w = 0) (hc : checkAll check ls = .ok segs) (k : Unit → Res) : withLanes s w check ls k = k () := by
  have hlane : checkAll (checkLane s w check) ls = .ok segs :=
    (checkAll_congr fun l hl => if_neg (not_not.2 (ha l hl))).trans hc
  rw [withLanes, hlane]
  rfl

/-! ### The load that goes out (R262) -/

/-- The bytes that a load reads, each with its lane. -/
def laneBytes (segs : List Seg) (lanes : List Nat) : List (Nat × Nat × Nat) :=
  ((segBytes segs).zip lanes).map fun b => (b.1.1, b.1.2, b.2)

/-- A plain load whose ranges pass, without a race or an early read, issues. -/
theorem loadOut_plain {s : State} {rs : List (Nat × Nat × Nat)} {segs : List Seg}
    (hc : checkAll (fun r : Nat × Nat × Nat => checkRange s ⟨true, false⟩ r.1 r.2.1 r.2.2) rs = .ok segs)
    (hrace : 512 ≤ s.coreId ∨ raceOf s s.coreId s.core.seen ((segBytes segs).map (·.2)) = none)
    (hdbg : s.core.dbgctl.getLsbD 0 = false) (hld : s.core.cnt.ld ≠ BitVec.allOnes 16)
    (st : BitVec 4) (sc : Scope) (ea : Nat) (shape : LoadShape) (fin : State → State) :
    loadOut s .plain st sc rs ea shape fin = .next (fin (issueLoad s st
      (laneBytes segs (rs.flatMap fun r => List.replicate r.2.1 r.2.2)) shape none none)).clear := by
  simp only [loadOut, withBytes_ok hc, withRace_free hrace, withEarly_off hdbg, atLimit_ld hld]
  rfl

theorem checkAll_single {α : Type} {f : α → Checked} {x : α} {segs : List Seg} (h : f x = .ok segs) :
    checkAll f [x] = .ok segs := by
  simp [checkAll, h]

/-- The same for a load of one range. -/
theorem loadOut_range {s : State} {va len : Nat} {segs : List Seg} (hc : checkRange s ⟨true, false⟩ va len 0 = .ok segs)
    (hrace : 512 ≤ s.coreId ∨ raceOf s s.coreId s.core.seen ((segBytes segs).map (·.2)) = none)
    (hdbg : s.core.dbgctl.getLsbD 0 = false) (hld : s.core.cnt.ld ≠ BitVec.allOnes 16)
    (st : BitVec 4) (sc : Scope) (ea : Nat) (shape : LoadShape) (fin : State → State) :
    loadOut s .plain st sc [(va, len, 0)] ea shape fin =
      .next (fin (issueLoad s st (laneBytes segs (List.replicate len 0)) shape none none)).clear := by
  refine (loadOut_plain (checkAll_single hc) hrace hdbg hld st sc ea shape fin).trans ?_
  simp only [List.flatMap_cons, List.flatMap_nil, List.append_nil]

/-- Lanes that are aligned and pass issue as one load. -/
theorem loadLanes_issues {s : State} {w : Nat} {ls : List (Nat × Nat)} {segs : List Seg} (ha : ∀ l ∈ ls, l.2 % w = 0)
    (hc : checkAll (fun l : Nat × Nat => checkRange s ⟨true, false⟩ l.2 w l.1) ls = .ok segs)
    (hrace : 512 ≤ s.coreId ∨ raceOf s s.coreId s.core.seen ((segBytes segs).map (·.2)) = none)
    (hdbg : s.core.dbgctl.getLsbD 0 = false) (hld : s.core.cnt.ld ≠ BitVec.allOnes 16)
    (d : BitVec 6) (st : BitVec 4) (old : VReg) (x : Access) :
    loadLanes s d w ls st old x = .next (x.done (issueLoad s st (laneBytes segs (ls.flatMap fun l => List.replicate w l.1))
      (.lanes d w (ls.map (·.1)) old) none none)).clear := by
  have hranges : checkAll (fun r : Nat × Nat × Nat => checkRange s ⟨true, false⟩ r.1 r.2.1 r.2.2)
      (ls.map fun l => (l.2, w, l.1)) = .ok segs := (checkAll_map _ _ ls).trans hc
  refine (withLanes_ok ha hc _).trans ((loadOut_plain hranges hrace hdbg hld st .die _ _ _).trans ?_)
  rw [List.flatMap_map]

/-! ### The instructions -/

section
variable {d : BitVec 6} {m : MemOp} {g : GuardF} {s : State}

theorem exec_ld_plain {x : Access} (hg : s.core.guard g = true) (hm : m.access s.core = some x) (sz : BitVec 2) :
    exec (.ld sz .plain d m g) s = loadOut s .plain m.lent.stream m.lent.scope [(x.ea.toNat, 2 ^ sz.toNat, 0)] x.ea.toNat
      (.scalar d) x.done := by
  simp [exec_ld, execLd, guarded_on hg, withAccess_some hm]

theorem exec_ldv_aligned {x : Access} (hg : s.core.guard g = true) (hm : m.access s.core = some x) (ha : x.ea.toNat % 16 = 0)
    (q : LdQual) : exec (.ldv q d m g) s =
      loadOut s q m.lent.stream .die [(x.ea.toNat, 256, 0)] x.ea.toNat (.lanes d 256 [0] 0) x.done := by
  change execLdv q d m g s = _
  simp only [execLdv, guarded_on hg, withAccess_some hm, if_neg (not_not.2 ha)]

theorem exec_ldvs (hg : s.core.guard g = true) (w : BitVec 2) : exec (.ldvs w d m g) s =
    loadLanes s d (2 ^ w.toNat) (stridedLanes (m.lanesAt s.core) (s.core.rs m.index) (2 ^ w.toNat)) m.lent.stream 0
      (m.lanesAt s.core) :=
  show execLdvs w d m g s = _ from guarded_on hg _

theorem exec_ldvx (hg : s.core.guard g = true) (k : BitVec 4) : exec (.ldvx k d m g) s =
    loadLanes s d 4 (indexedLanes (m.lanesAt s.core) (s.core.rv m.index) (s.core.rk k)) m.lent.stream (s.core.rv d)
      (m.lanesAt s.core) :=
  show execLdvx k d m g s = _ from guarded_on hg _

end

/-! ### What a load changes as it issues (R52, R54, R275) -/

/-- Whether a load's destination is exposed: every byte lies in the core's own scratchpad, and it is no acquire and no atomic. -/
def loadExposed (s : State) (todo : List (Nat × Nat × Nat)) (acq : Option Scope) (atomic : Option (AtomicOp × Bool)) : Bool :=
  acq.isNone && atomic.isNone && todo.all fun b => ownScratch s b.2.1

/-- The pending load that an issue adds. -/
def newLoad (s : State) (st : BitVec 4) (todo : List (Nat × Nat × Nat)) (sh : LoadShape) (acq : Option Scope)
    (atomic : Option (AtomicOp × Bool)) : LoadEntry :=
  ⟨s.core.seq, s.core.seq, st, s.core.pc, todo, [], none, sh, acq, atomic,
    if loadExposed s todo acq atomic then some (s.core.bcnt.toNat + 6) else none, s.time, []⟩

/-- A load that issues takes a number, is counted and joins the pending ones; where its destination is interlocked, a lock is
added. -/
theorem issueLoad_eq (s : State) (st : BitVec 4) (todo : List (Nat × Nat × Nat)) (sh : LoadShape) (acq : Option Scope)
    (atomic : Option (AtomicOp × Bool)) : issueLoad s st todo sh acq atomic = { s with core := { s.core with
      seq := s.core.seq + 1
      locks := if loadExposed s todo acq atomic then s.core.locks
        else s.core.locks ++ [⟨s.core.seq, [sh.dest].filter (· != .s 0), none, some 0⟩]
      loads := s.core.loads ++ [newLoad s st todo sh acq atomic]
      cnt := s.core.cnt.add 0 1 } } := by
  unfold issueLoad newLoad
  cases h : loadExposed s todo acq atomic <;> rw [loadExposed] at h <;> simp only [h] <;> rfl

theorem loadExposed_iff {s : State} {todo : List (Nat × Nat × Nat)} {acq : Option Scope} :
    loadExposed s todo acq none = true ↔ acq = none ∧ ∀ b ∈ todo, regionOf b.2.1 = .sp s.coreId := by
  simp [loadExposed, ownScratch]

end Sys2Proof.Machine

namespace Sys2Proof.Rules

open Sys2Proof.Machine

/-- Both plain loads go out as one load of their range. -/
theorem plainLoads : PlainLoads := by
  intro sz d m g s x q v hg hm hld hdbg n ok
  exact ⟨fun hc hrace => (exec_ld_plain hg hm sz).trans (loadOut_range hc hrace hdbg hld _ _ _ _ _),
    fun ha hc hrace => (exec_ldv_aligned hg hm ha .plain).trans (loadOut_range hc hrace hdbg hld _ _ _ _ _)⟩

/-- Where the bytes lie decides whether the destination is exposed or locked. -/
theorem loadIssue : LoadIssue := by
  intro s st todo sh acq t own
  have ht : t = _ := issueLoad_eq s st todo sh acq none
  have hown : own ↔ loadExposed s todo acq none = true := loadExposed_iff.symm
  rw [ht]
  refine ⟨⟨newLoad s st todo sh acq none, rfl, rfl, rfl, rfl, rfl, fun h => ?_, fun h => ?_⟩, fun h => ?_, fun h hd => ?_,
    rfl, rfl, rfl, rfl, rfl, rfl⟩
  · exact if_pos (hown.1 h)
  · exact if_neg (hown.not.1 h)
  · exact if_pos (hown.1 h)
  · refine ⟨_, if_neg (hown.not.1 h), ?_, rfl⟩
    exact List.filter_eq_self.2 (by simpa using hd)

/-- The lanes of a strided load and of a gather go out together. -/
theorem laneLoads : LaneLoads := by
  intro w k d m g s segs hg hld hdbg hrace x strided gathered goes
  exact ⟨fun ha hc => (exec_ldvs hg w).trans (loadLanes_issues ha hc hrace hdbg hld d _ 0 x),
    fun ha hc => (exec_ldvx hg k).trans (loadLanes_issues ha hc hrace hdbg hld d _ _ x)⟩

/-- Settles O12: a load whose checks pass issues, and its issue adds one pending load, exposed or interlocked. -/
theorem loadsIssue : Obligations.LoadsIssue := ⟨plainLoads, loadIssue, laneLoads⟩

end Sys2Proof.Rules

/-! SUPPORT. Landing (R52, R53, R184, R185, R275): what one landing write leaves of the agent on turn, and what a chain of landing
writes leaves in each register. -/

namespace Sys2Proof.Machine

open Sys2Proof

/-! ### One write that lands -/

/-- An event that enters or leaves a die's queue changes what an agent is doing at most (R305). -/
theorem pushEvent_core (s : State) (d : BitVec 2) (e : DieEvent) : (pushEvent s d e).1.core = s.core := by
  rcases pushEvent_cases s d e with ⟨_, h⟩ | ⟨_, h⟩ <;> simp only [h, State.mapDie_core]

theorem setAgent_core {s : State} {k : Nat} {c : CoreState} (h : k = s.coreId → ∃ run, c = { s.core with run := run }) :
    ∃ run, (s.setAgent k c).core = { s.core with run := run } := by
  unfold State.setAgent
  split
  · next hk => exact h hk
  · exact ⟨_, rfl⟩

theorem admitTrap_core (s : State) (d : BitVec 2) : ∃ run, (admitTrap s d).core = { s.core with run := run } := by
  simp only [admitTrap]
  split
  · exact ⟨_, rfl⟩
  · split
    · exact ⟨_, rfl⟩
    · next k _ _ t n _ =>
      rw [← pushEvent_core s d (eventOf k (s.agent k) t n)]
      refine setAgent_core fun hk => ⟨.suspended t n (pushEvent s d (eventOf k (s.agent k) t n)).2, ?_⟩
      rw [pushEvent_coreId] at hk
      rw [pushEvent_core, show s.agent k = s.core from if_pos hk]

theorem popEvent_core (s : State) (d : BitVec 2) : ∃ run, (popEvent s d).core = { s.core with run := run } := by
  simp only [popEvent]
  split
  · exact ⟨_, pushEvent_core _ _ _⟩
  · exact admitTrap_core _ d

theorem firmwareWrite_core (s : State) (d : BitVec 2) (n : BitVec 12) (x : Word) :
    ∃ run, (firmwareWrite s d n x).core = { s.core with run := run } := by
  unfold firmwareWrite
  split
  · exact popEvent_core s d
  · exact ⟨_, rfl⟩

/-- A task's system registers are all that an MTS to one of them changes (R184). -/
theorem sysWrite_frame (c : CoreState) (n : BitVec 12) (x : Word) : ∃ fmt fflags tstat loops rsst dbgctl,
    c.sysWrite n x = { c with fmt := fmt, fflags := fflags, tstat := tstat, loops := loops, rsst := rsst, dbgctl := dbgctl } := by
  unfold CoreState.sysWrite
  split <;> exact ⟨_, _, _, _, _, _, rfl⟩

theorem landOne_sys_core (s : State) (n : BitVec 12) (x : Word) : ∃ run fmt fflags tstat loops rsst dbgctl,
    (landOne s (.sys n x)).core = { s.core with
      run := run, fmt := fmt, fflags := fflags, tstat := tstat, loops := loops, rsst := rsst, dbgctl := dbgctl } := by
  simp only [landOne]
  split
  · exact ⟨_, sysWrite_frame s.core n x⟩
  · obtain ⟨run, h⟩ := firmwareWrite_core s s.here n x
    exact ⟨run, _, _, _, _, _, _, h⟩

/-- A landing write leaves what is outstanding and what is counted. -/
@[simp] theorem landOne_pend (s : State) (w : RegWrite) : (landOne s w).core.pend = s.core.pend := by
  cases w with
  | a | m | v | flags => rfl
  | s | k | g => simp only [landOne]; split <;> rfl
  | sys n x => obtain ⟨_, _, _, _, _, _, _, h⟩ := landOne_sys_core s n x; rw [h]

@[simp] theorem landOne_cnt (s : State) (w : RegWrite) : (landOne s w).core.cnt = s.core.cnt := by
  cases w with
  | a | m | v | flags => rfl
  | s | k | g => simp only [landOne]; split <;> rfl
  | sys n x => obtain ⟨_, _, _, _, _, _, _, h⟩ := landOne_sys_core s n x; rw [h]

/-- A landing write leaves every register that is not its destination. -/
theorem landOne_rs_other {w : RegWrite} {i : BitVec 6} (h : w.dest ≠ some (.s i)) (s : State) :
    (landOne s w).core.rs i = s.core.rs i := by
  cases w with
  | a | m | v | flags => rfl
  | k | g => simp only [landOne]; split <;> rfl
  | sys n x => obtain ⟨_, _, _, _, _, _, _, hsys⟩ := landOne_sys_core s n x; rw [hsys]; rfl
  | s j x =>
    by_cases hj : j = 0
    · simp only [landOne, if_pos hj]
    · have hne : j ≠ i := fun he => h (congrArg (fun i => some (RegRef.s i)) he)
      rw [landOne_rs s j i x hj, if_neg hne]

theorem landOne_rv_other {w : RegWrite} {i : BitVec 6} (h : w.dest ≠ some (.v i)) (s : State) :
    (landOne s w).core.rv i = s.core.rv i := by
  cases w with
  | a | m | flags => rfl
  | s | k | g => simp only [landOne]; split <;> rfl
  | sys n x => obtain ⟨_, _, _, _, _, _, _, hsys⟩ := landOne_sys_core s n x; rw [hsys]; rfl
  | v j x =>
    have hne : j ≠ i := fun he => h (congrArg (fun i => some (RegRef.v i)) he)
    rw [landOne_rv, if_neg hne]

/-! ### Writes that land one after another -/

theorem foldl_landOne_pend (ws : List RegWrite) (s : State) : (ws.foldl landOne s).core.pend = s.core.pend :=
  foldl_keeps (·.core.pend) landOne landOne_pend ws s

theorem foldl_landOne_cnt (ws : List RegWrite) (s : State) : (ws.foldl landOne s).core.cnt = s.core.cnt :=
  foldl_keeps (·.core.cnt) landOne landOne_cnt ws s

theorem foldl_landOne_rs_other {ws : List RegWrite} {i : BitVec 6} (h : ∀ w ∈ ws, w.dest ≠ some (.s i)) (s : State) :
    (ws.foldl landOne s).core.rs i = s.core.rs i :=
  List.foldlRecOn (motive := fun t : State => t.core.rs i = s.core.rs i) ws _ rfl
    fun t ht w hw => (landOne_rs_other (h w hw) t).trans ht

theorem foldl_landOne_rv_other {ws : List RegWrite} {i : BitVec 6} (h : ∀ w ∈ ws, w.dest ≠ some (.v i)) (s : State) :
    (ws.foldl landOne s).core.rv i = s.core.rv i :=
  List.foldlRecOn (motive := fun t : State => t.core.rv i = s.core.rv i) ws _ rfl
    fun t ht w hw => (landOne_rv_other (h w hw) t).trans ht

/-- The last write of a register stays. -/
theorem foldl_landOne_rs_last {l r : List RegWrite} {i : BitVec 6} (hi : i ≠ 0) (h : ∀ w ∈ r, w.dest ≠ some (.s i)) (x : Word)
    (s : State) : ((l ++ .s i x :: r).foldl landOne s).core.rs i = x := by
  rw [List.foldl_append, List.foldl_cons, foldl_landOne_rs_other h, landOne_rs _ _ _ _ hi, if_pos rfl]

theorem foldl_landOne_rv_last {l r : List RegWrite} {i : BitVec 6} (h : ∀ w ∈ r, w.dest ≠ some (.v i)) (x : VReg) (s : State) :
    ((l ++ .v i x :: r).foldl landOne s).core.rv i = x := by
  rw [List.foldl_append, List.foldl_cons, foldl_landOne_rv_other h, landOne_rv, if_pos rfl]

/-! ### What is due (R52, R185) -/

/-- The writes of a list that are due, in the order in which they land: the flags last. -/
def dueWrites (ps : List Pend) (n : Nat) : List RegWrite :=
  (((ps.filter fun p => p.due ≤ n).filter fun p => !p.w.isFlags) ++ (ps.filter fun p => p.due ≤ n).filter fun p => p.w.isFlags).map
    (·.w)

/-- The agent without what is due, and with the loads among it counted no longer. -/
def withoutDue (s : State) (n : Nat) : State :=
  { s with core := { s.core with
      pend := s.core.pend.filter fun p => n < p.due
      cnt := s.core.cnt.add 0 (-loadCount (s.core.pend.filter fun p => p.due ≤ n)) } }

theorem landDue_eq (s : State) (n : Nat) : landDue s n = (dueWrites s.core.pend n).foldl landOne (withoutDue s n) := by
  rw [dueWrites, List.foldl_map, List.foldl_append]
  rfl

theorem mem_dueWrites {ps : List Pend} {n : Nat} {w : RegWrite} (h : w ∈ dueWrites ps n) : ∃ p ∈ ps, p.due ≤ n ∧ p.w = w := by
  obtain ⟨p, hp, rfl⟩ := List.mem_map.1 h
  refine ⟨p, ?_⟩
  rcases List.mem_append.1 hp with hp | hp <;> simpa using (List.mem_filter.1 (List.mem_filter.1 hp).1)

/-- No due write has a destination that none of the due entries has. -/
theorem dueWrites_dest {ps : List Pend} {n : Nat} {d : Option RegRef} (h : ∀ p ∈ ps, p.due ≤ n → p.w.dest ≠ d) :
    ∀ w ∈ dueWrites ps n, w.dest ≠ d := by
  intro w hw
  obtain ⟨p, hp, hdue, rfl⟩ := mem_dueWrites hw
  exact h p hp hdue

/-- Flags have no destination. -/
theorem dest_of_isFlags {w : RegWrite} (h : w.isFlags = true) : w.dest = none := by
  cases w with
  | flags => rfl
  | s | a | m | v | k | g | sys => cases h

/-- A due write with a destination lands after every write issued before it, and before those issued after it and the flags. -/
theorem dueWrites_split {l r : List Pend} {q : Pend} {n : Nat} {d : RegRef} (hq : q.due ≤ n) (hd : q.w.dest = some d)
    (h : ∀ p ∈ r, p.due ≤ n → p.w.dest ≠ some d) :
    ∃ a b, dueWrites (l ++ q :: r) n = a ++ q.w :: b ∧ ∀ w ∈ b, w.dest ≠ some d := by
  have hflags : q.w.isFlags = false := by
    cases hf : q.w.isFlags with
    | false => rfl
    | true => rw [dest_of_isFlags hf] at hd; cases hd
  refine ⟨((l.filter fun p => p.due ≤ n).filter fun p => !p.w.isFlags).map (·.w),
    ((r.filter fun p => p.due ≤ n).filter fun p => !p.w.isFlags).map (·.w) ++
      (((l ++ q :: r).filter fun p => p.due ≤ n).filter fun p => p.w.isFlags).map (·.w), ?_, ?_⟩
  · simp [dueWrites, hq, hflags]
  · intro w hw
    rcases List.mem_append.1 hw with hw | hw <;> obtain ⟨p, hp, rfl⟩ := List.mem_map.1 hw
    · have hp := List.mem_filter.1 (List.mem_filter.1 hp).1
      exact h p hp.1 (by simpa using hp.2)
    · rw [dest_of_isFlags (List.mem_filter.1 hp).2]
      exact nofun

/-- Where nothing is due, nothing lands. -/
theorem landDue_none {s : State} {n : Nat} (h : ∀ p ∈ s.core.pend, n < p.due) : landDue s n = s := by
  have hdue : (s.core.pend.filter fun p => p.due ≤ n) = [] :=
    List.filter_eq_nil_iff.2 fun p hp => by simpa using h p hp
  have hkept : (s.core.pend.filter fun p => n < p.due) = s.core.pend :=
    List.filter_eq_self.2 fun p hp => by simpa using h p hp
  have hcnt : s.core.cnt.add 0 (-loadCount []) = s.core.cnt := by
    simp [Counters.add, loadCount]
  rw [landDue_eq, dueWrites, hdue, withoutDue, hdue, hkept, hcnt]
  rfl

end Sys2Proof.Machine

namespace Sys2Proof.Rules

open Sys2Proof.Machine

/-- What is due lands write by write, so that the last due write of a register decides. -/
theorem dueResults : Landing := by
  intro s n u
  have hu : u = (dueWrites s.core.pend n).foldl landOne (withoutDue s n) := landDue_eq s n
  refine ⟨?_, landDue_none, fun i h => ?_, fun i h => ?_, fun l r q i x hpend hw hq hi h => ?_,
    fun l r q i x hpend hw hq h => ?_, ?_⟩
  · rw [hu, foldl_landOne_pend]
    rfl
  · rw [hu, foldl_landOne_rs_other (dueWrites_dest h)]
    rfl
  · rw [hu, foldl_landOne_rv_other (dueWrites_dest h)]
    rfl
  · obtain ⟨a, b, heq, hb⟩ := dueWrites_split (l := l) (d := .s i) hq (by rw [hw]; rfl) h
    rw [hu, hpend, heq, hw, foldl_landOne_rs_last hi hb]
  · obtain ⟨a, b, heq, hb⟩ := dueWrites_split (l := l) (d := .v i) hq (by rw [hw]; rfl) h
    rw [hu, hpend, heq, hw, foldl_landOne_rv_last hb]
  · rw [hu, foldl_landOne_cnt]
    rfl

/-- In either order of issue the two writes land as MTS, then flags. -/
theorem flagLanding : FlagLanding := by
  intro s n p q x f hp hq hpw hqw hpend
  have hdue : dueWrites s.core.pend n = [.sys 0x011 x, .flags f] := by
    rcases hpend with h | h <;> simp [h, dueWrites, hp, hq, hpw, hqw, RegWrite.isFlags]
  rw [landDue_eq, hdue]
  rfl

/-- Settles O53: due results land in issue order, the flags last, and the loads among them are counted no longer. -/
theorem landing : Obligations.Landing := ⟨dueResults, flagLanding⟩

end Sys2Proof.Rules

/-! SUPPORT. Writes that take their coherence place (R49, R130, R137, R359): what placing bytes leaves of every byte, of the agent on
turn and of the full-empty bits, and the drain of a store. -/

namespace Sys2Proof.Machine

open Sys2Proof

/-! ### Entries for an address -/

theorem byteAt_congr {s t : State} (hwrites : t.writes = s.writes) (hmem : t.mem = s.mem) (hpoison : t.poison = s.poison)
    (pa : Nat) : byteAt t pa = byteAt s pa := by
  rw [byteAt_eq, byteAt_eq, hwrites, hmem, hpoison]

theorem entryOr_none {bytes : List WByte} {pa : Nat} (h : ∀ b ∈ bytes, b.pa ≠ pa) (x : Byte × Bool) : entryOr bytes pa x = x := by
  rw [entryOr, List.find?_eq_none.2 fun b hb => by simpa using h b hb]
  rfl

theorem entryOr_some {bytes : List WByte} {pa : Nat} {b : WByte} (h : bytes.find? (fun b => b.pa == pa) = some b)
    (x : Byte × Bool) : entryOr bytes pa x = (b.val, b.poison) := by
  rw [entryOr, h]
  rfl

/-- A filter that keeps the entries for an address does not change what the bytes give it. -/
theorem entryOr_filter {bytes : List WByte} {pa : Nat} {keep : WByte → Bool} (h : ∀ b ∈ bytes, b.pa = pa → keep b = true)
    (x : Byte × Bool) : entryOr (bytes.filter keep) pa x = entryOr bytes pa x := by
  induction bytes with
  | nil => rfl
  | cons b r ih =>
    obtain ⟨hb, hr⟩ := List.forall_mem_cons.1 h
    rw [List.filter_cons, entryOr_cons]
    by_cases hpa : b.pa = pa
    · rw [if_pos (hb hpa), if_pos hpa, entryOr_cons, if_pos hpa]
    · rw [if_neg hpa, ← ih hr]
      split
      · rw [entryOr_cons, if_neg hpa]
      · rfl

/-- Of the bytes whose address passes a test, those for one address are all there or none. -/
theorem entryOr_filter_pa (keep : Nat → Bool) (bytes : List WByte) (pa : Nat) (x : Byte × Bool) :
    entryOr (bytes.filter fun b => keep b.pa) pa x = if keep pa then entryOr bytes pa x else x := by
  split
  · next h => exact entryOr_filter (fun b _ hb => by rw [hb]; exact h) x
  · next h =>
    refine entryOr_none (fun b hb hpa => h ?_) x
    rw [← hpa]
    exact (List.mem_filter.1 hb).2

/-- Bytes cut at the multiples of a size and given part by part give each address what they give together. -/
theorem foldl_entryOr_bySize (size n : Nat) (bytes : List WByte) (h : bytes.length ≤ n) (pa : Nat) (x : Byte × Bool) :
    (bySize size n bytes).foldl (fun x g => entryOr g pa x) x = entryOr bytes pa x := by
  induction n generalizing bytes x with
  | zero =>
    obtain rfl : bytes = [] := List.length_eq_zero_iff.1 (Nat.le_zero.1 h)
    rfl
  | succ n ih =>
    cases bytes with
    | nil => rfl
    | cons b r =>
      have hlen : (r.filter fun y => y.pa / size != b.pa / size).length ≤ n :=
        (List.length_filter_le _ r).trans (Nat.le_of_succ_le_succ h)
      simp only [bySize, List.foldl_cons]
      rw [ih _ hlen, entryOr_cons, entryOr_cons]
      by_cases hg : pa / size = b.pa / size
      · have hrest : ∀ y ∈ r.filter fun y => y.pa / size != b.pa / size, y.pa ≠ pa := by
          intro y hy hpa
          simp [hpa, hg] at hy
        rw [entryOr_none hrest, entryOr_filter fun y _ hy => by simp [hy, hg]]
      · have hne : ¬ b.pa = pa := fun h => hg (by rw [h])
        have hpart : ∀ y ∈ r.filter fun y => y.pa / size == b.pa / size, y.pa ≠ pa := by
          intro y hy hpa
          simp [hpa, hg] at hy
        rw [if_neg hne, if_neg hne, entryOr_none hpart, entryOr_filter fun y _ hy => by simp [hy, hg]]

/-! ### Placing one write (R130) -/

theorem byteAt_placeOne (s : State) (d : BitVec 2) (p : Path) (c t n : Nat) (r : Option Release) (full : List Nat)
    (bytes : List WByte) (pa : Nat) : byteAt (placeOne s d p c t n r full bytes) pa = entryOr bytes pa (byteAt s pa) := by
  rw [byteAt_eq, byteAt_eq, placeOne_writes, List.reverse_append, List.findSome?_append, entryOr]
  simp only [List.reverse_cons, List.reverse_nil, List.nil_append, List.findSome?_cons, List.findSome?_nil, Write.at]
  cases bytes.find? fun b => b.pa == pa <;> rfl

/-- A drop that is logged changes its die, and may send a message (R348). -/
theorem logCheck_frame (s : State) (d : BitVec 2) (unit sev : BitVec 8) (loc : BitVec 16) (pa : Nat) :
    ∃ dies pfs msix, logCheck s d unit sev loc pa = { s with dies := dies, pfs := pfs, msix := msix } := by
  obtain ⟨pfs, msix, h⟩ := raiseVector_frame _ _ _
  exact ⟨_, pfs, msix, h⟩

theorem routed_frame (s : State) (d : BitVec 2) (bytes : List WByte) :
    ∃ dies pfs msix, (routed s d bytes).2 = { s with dies := dies, pfs := pfs, msix := msix } := by
  simp only [routed]
  split
  · exact logCheck_frame s d _ _ _ _
  · exact ⟨_, _, _, rfl⟩

theorem routed_byteAt (s : State) (d : BitVec 2) (bytes : List WByte) (pa : Nat) :
    byteAt (routed s d bytes).2 pa = byteAt s pa := by
  obtain ⟨_, _, _, h⟩ := routed_frame s d bytes
  rw [h]
  rfl

@[simp] theorem routed_core (s : State) (d : BitVec 2) (bytes : List WByte) : (routed s d bytes).2.core = s.core := by
  obtain ⟨_, _, _, h⟩ := routed_frame s d bytes
  rw [h]

@[simp] theorem routed_fe (s : State) (d : BitVec 2) (bytes : List WByte) : (routed s d bytes).2.fe = s.fe := by
  obtain ⟨_, _, _, h⟩ := routed_frame s d bytes
  rw [h]

/-! ### Full-empty bits that fill (R49) -/

/-- The granule of a byte that fills at its own die is full, and one that was full stays so. -/
theorem fillAt_isSome {fe : List (Nat × Nat)} {d : BitVec 2} {id : Nat} {pas : List Nat} {gr : Nat}
    (h : (kfind fe gr).isSome = true ∨ ∃ pa ∈ pas, granule pa = gr ∧ ∃ k, regionOf pa = .sp k ∧ dieOf k = d) :
    (kfind (fillAt fe d id pas) gr).isSome = true := by
  induction pas generalizing fe with
  | nil =>
    obtain h | ⟨pa, hpa, _⟩ := h
    · exact h
    · cases hpa
  | cons pa r ih =>
    refine ih ?_
    obtain h | ⟨q, hq, hgr, k, hk, hd⟩ := h
    · left
      beta_reduce
      split
      · split
        · rw [kfind_kset]
          split
          · rfl
          · exact h
        · exact h
      · exact h
    · obtain rfl | hq := List.mem_cons.1 hq
      · left
        simp [hk, hd, hgr, kfind_kset]
      · exact .inr ⟨q, hq, hgr, k, hk, hd⟩

/-! ### A write of the active core (R130, R137) -/

/-- The bytes that the active core places: those that it reaches, as one write, if there are any. -/
def corePlaced (s : State) (r : Option Release) (full : Bool) (bytes : List WByte) : State :=
  let go := (routed s s.here bytes).1
  let t := (routed s s.here bytes).2
  if go = [] then t else placeOne t t.here .core t.coreId t.uid 0 r (if full then go.map (·.pa) else []) go

/-- A write of the active core takes an epoch where it is a release, places its bytes and tags them, and is known to the core. -/
theorem coreWrite_eq (s : State) (rel : Option Scope) (full : Bool) (bytes : List WByte) : ∃ r t tag obs own,
    (t = s ∨ t = s.stepEpoch s.coreId) ∧ coreWrite s rel full bytes =
      { tagBytes (corePlaced t r full bytes) tag bytes with core := { (corePlaced t r full bytes).core with
        obs := obs, own := own } } := by
  cases rel with
  | none => exact ⟨none, s, _, _, _, .inl rfl, rfl⟩
  | some sc => exact ⟨some (releaseNow s sc).1, _, _, _, _, .inr rfl, rfl⟩

theorem corePlaced_core (s : State) (r : Option Release) (full : Bool) (bytes : List WByte) :
    (corePlaced s r full bytes).core = s.core := by
  simp only [corePlaced]
  split <;> simp

theorem corePlaced_byteAt (s : State) (r : Option Release) (full : Bool) (bytes : List WByte) (pa : Nat) :
    byteAt (corePlaced s r full bytes) pa = if reaches s s.here pa then entryOr bytes pa (byteAt s pa) else byteAt s pa := by
  rw [← entryOr_filter_pa (reaches s s.here)]
  simp only [corePlaced]
  split
  · next h =>
    rw [routed_byteAt]
    exact (congrArg (entryOr · pa (byteAt s pa)) h).symm
  · rw [byteAt_placeOne, routed_byteAt]
    rfl

/-- A byte written full at its own die leaves its granule full. -/
theorem corePlaced_isFull {s : State} {bytes : List WByte} {b : WByte} (hb : b ∈ bytes) (hr : reaches s s.here b.pa = true)
    {k : Nat} (hk : regionOf b.pa = .sp k) (hd : dieOf k = s.here) (r : Option Release) :
    isFull (corePlaced s r true bytes) b.pa = true := by
  have hgo : b ∈ (routed s s.here bytes).1 := List.mem_filter.2 ⟨hb, hr⟩
  have hhere : (routed s s.here bytes).2.here = s.here := congrArg dieOf (routed_coreId s s.here bytes)
  simp only [corePlaced]
  rw [if_neg (List.ne_nil_of_mem hgo)]
  exact fillAt_isSome (.inr ⟨b.pa, List.mem_map_of_mem hgo, rfl, k, hk, hd.trans hhere.symm⟩)

/-- A write of the active core changes, of what is its own, what it has seen alone. -/
theorem coreWrite_core (s : State) (rel : Option Scope) (full : Bool) (bytes : List WByte) :
    ∃ obs own, (coreWrite s rel full bytes).core = { s.core with obs := obs, own := own } := by
  obtain ⟨r, t, tag, obs, own, ht, h⟩ := coreWrite_eq s rel full bytes
  refine ⟨obs, own, ?_⟩
  rw [h, corePlaced_core]
  rcases ht with rfl | rfl <;> rfl

/-- Of the bytes that the core writes those that it reaches become the latest ones, and every other byte stays. -/
theorem coreWrite_byteAt (s : State) (rel : Option Scope) (full : Bool) (bytes : List WByte) (pa : Nat) :
    byteAt (coreWrite s rel full bytes) pa = if reaches s s.here pa then entryOr bytes pa (byteAt s pa) else byteAt s pa := by
  obtain ⟨r, t, tag, obs, own, ht, h⟩ := coreWrite_eq s rel full bytes
  rw [h]
  refine (corePlaced_byteAt t r full bytes pa).trans ?_
  rcases ht with rfl | rfl <;> rfl

theorem coreWrite_isFull {s : State} {bytes : List WByte} {b : WByte} (hb : b ∈ bytes) (hr : reaches s s.here b.pa = true)
    {k : Nat} (hk : regionOf b.pa = .sp k) (hd : dieOf k = s.here) (rel : Option Scope) :
    isFull (coreWrite s rel true bytes) b.pa = true := by
  obtain ⟨r, t, tag, obs, own, ht, h⟩ := coreWrite_eq s rel true bytes
  rw [h]
  rcases ht with rfl | rfl
  · exact corePlaced_isFull hb hr hk hd r
  · exact corePlaced_isFull (s := s.stepEpoch s.coreId) hb hr hk hd r

/-! ### STORE_DRAIN (R130) -/

/-- The state in which a core's drained store has taken its coherence place. -/
def drained (s : State) (e : StoreEntry) : State :=
  coreWrite { s with core := { s.core with sq := s.core.sq.erase e } } e.rel e.setFe e.bytes

theorem drained_core (s : State) (e : StoreEntry) :
    ∃ obs own, (drained s e).core = { s.core with sq := s.core.sq.erase e, obs := obs, own := own } :=
  coreWrite_core { s with core := { s.core with sq := s.core.sq.erase e } } e.rel e.setFe e.bytes

theorem drained_byteAt (s : State) (e : StoreEntry) (pa : Nat) :
    byteAt (drained s e) pa = if reaches s s.here pa then entryOr e.bytes pa (byteAt s pa) else byteAt s pa :=
  coreWrite_byteAt { s with core := { s.core with sq := s.core.sq.erase e } } e.rel e.setFe e.bytes pa

/-- The counters after a store has drained: it is counted no longer with its last part. -/
def drainedCount (s : State) (e : StoreEntry) : Counters :=
  if e.counts = true ∧ ∀ x ∈ s.core.mcast, x.seq ≠ e.seq then s.core.cnt.add 1 (-1) else s.core.cnt

/-- The head of a tile core's queue that is ready drains. -/
theorem exec_storeDrain {stream : BitVec 4} {s : State} {e : StoreEntry} (hs : s.coreId < 512)
    (he : s.core.sq.find? (fun x => x.stream == stream) = some e) (hready : drainReady s e = true) :
    exec (.storeDrain stream) s =
      stepped { drained s e with core := { (drained s e).core with cnt := drainedCount s e } } := by
  have htask : isController s.coreId = false := by simpa [isController] using hs
  obtain ⟨obs, own, hcore⟩ := drained_core s e
  have hlast : (e.counts && !(drained s e).core.mcast.any fun x => x.seq == e.seq) = true ↔
      e.counts = true ∧ ∀ x ∈ s.core.mcast, x.seq ≠ e.seq := by
    simp [hcore]
  have hexec : exec (.storeDrain stream) s = stepped (if e.counts && !(drained s e).core.mcast.any fun x => x.seq == e.seq
      then { drained s e with core := (drained s e).core.count 1 (-1) } else drained s e) := by
    change execStoreDrain stream s = _
    simp only [execStoreDrain, he, hready, htask]
    rfl
  rw [hexec, drainedCount]
  by_cases h : e.counts = true ∧ ∀ x ∈ s.core.mcast, x.seq ≠ e.seq
  · rw [if_pos (hlast.2 h), if_pos h, CoreState.count, hcore]
  · rw [if_neg (mt hlast.1 h), if_neg h, show s.core.cnt = (drained s e).core.cnt by rw [hcore]]

end Sys2Proof.Machine

namespace Sys2Proof.Rules

open Sys2Proof.Machine

/-- The store's bytes take their place as one write of the core, and its queue and counter lose it. -/
theorem storeDrain : StoreDrains := by
  intro stream s e hs he hready hreach
  obtain ⟨obs, own, hcore⟩ := drained_core s e
  refine ⟨_, exec_storeDrain hs he hready, ?_⟩
  simp only [settle_core, hcore]
  have hbyte (pa : Nat) : byteAt (settle { drained s e with core := { (drained s e).core with cnt := drainedCount s e } }) pa =
      if reaches s s.here pa then entryOr e.bytes pa (byteAt s pa) else byteAt s pa :=
    (settle_byteAt _ pa).trans (drained_byteAt s e pa)
  rw [hcore] at hbyte
  refine ⟨trivial, fun pa b hb => ?_, fun pa hpa => ?_, fun hfe b hb k hk hd => ?_, ?_, trivial, trivial, trivial, trivial, trivial⟩
  · have hr : reaches s s.here pa = true := by
      have hmem := hreach b (List.mem_of_find?_eq_some hb)
      rwa [show b.pa = pa by simpa using List.find?_some hb] at hmem
    exact (hbyte pa).trans ((if_pos hr).trans (entryOr_some hb _))
  · refine (hbyte pa).trans ?_
    rw [entryOr_none hpa, ite_self]
  · have hfull : isFull (drained s e) b.pa = true := by
      rw [drained, hfe]
      exact coreWrite_isFull (s := { s with core := { s.core with sq := s.core.sq.erase e } }) hb (hreach b hb) hk hd e.rel
    exact (isFull_congr (settle_fe _) b.pa).trans hfull
  · simp only [drainedCount, Counters.add]
    split <;> simp [BitVec.sub_eq_add_neg]

/-- Settles O17: a store that drains writes its own bytes and no other. -/
theorem storeDrains : Obligations.StoreDrains := storeDrain

end Sys2Proof.Rules

/-! SUPPORT. Loads and atomics that perform (R52 to R54, R130, R267, R269 to R271, R275): a read of a load's next access, where a
load's value goes, and an atomic at its home. -/

namespace Sys2Proof.Machine

open Sys2Proof

/-! ### A load's value (R52 to R54, R275) -/

/-- A load that performs leaves the pending ones, and only they, the counters, the exposed writes and the locks change. -/
theorem performLoad_frame (s : State) (e : LoadEntry) (ws : List RegWrite) : ∃ cnt pend locks, performLoad s e ws =
    { s with core := { s.core with
      loads := s.core.loads.filter fun x => x.tok != e.tok, cnt := cnt, pend := pend, locks := locks } } := by
  unfold performLoad
  simp only
  split
  · split <;> exact ⟨_, _, _, rfl⟩
  · exact ⟨_, _, _, rfl⟩

/-- An interlocked value waits for its landing. -/
theorem performLoad_locked {e : LoadEntry} (h : e.due = none) (s : State) (ws : List RegWrite) : performLoad s e ws =
    { s with core := { s.core with
      loads := s.core.loads.filter fun x => x.tok != e.tok
      locks := s.core.locks.map fun l => if l.tok = e.tok then { l with result := some ws } else l } } := by
  simp only [performLoad, h]

/-- An exposed value takes its place among the writes in flight. -/
theorem performLoad_exposed {e : LoadEntry} {n : Nat} (h : e.due = some n) {w : RegWrite} (hw : w.dropped = false) (s : State) :
    performLoad s e [w] = { s with core := { s.core with
      loads := s.core.loads.filter fun x => x.tok != e.tok
      pend := insertPend [{ w := w, due := n, since := n - 6, ld := some (e.cycle + 6) }] s.core.pend (n - 6) } } := by
  simp [performLoad, h, hw]

theorem insertPend_nil (l : List Pend) (n : Nat) : insertPend [] l n = l := by
  simp [insertPend]

/-- An exposed value for `s0` is gone at once, and `ld` falls. -/
theorem performLoad_dropped {e : LoadEntry} {n : Nat} (h : e.due = some n) {w : RegWrite} (hw : w.dropped = true) (s : State) :
    performLoad s e [w] = { s with core := { s.core with
      loads := s.core.loads.filter fun x => x.tok != e.tok
      cnt := s.core.cnt.add 0 (-1) } } := by
  simp [performLoad, h, hw, insertPend_nil, CoreState.count]

/-- A load's value is dropped just where its destination is `s0` (R145). -/
theorem result_dropped (x : LoadShape) (bs : List Byte) : (x.result bs).dropped = decide (x.dest = .s 0) := by
  cases x with
  | scalar d => simp [LoadShape.result, LoadShape.dest, RegWrite.dropped, Bool.beq_eq_decide_eq]
  | lanes => rfl

/-! ### LOAD_PERFORM (R130) -/

theorem stepped_next (s : State) : stepped s = .next (settle s).clear := rfl

theorem settle_tags (s : State) : (settle s).tags = s.tags := settle_keeps (·.tags) (fun _ _ _ _ => rfl) s

/-- The reads of a load's next access, which does not see the multicast stores that landed since it issued (R68). -/
def nextRead (s : State) (e : LoadEntry) : List ReadByte × State :=
  coreRead e.stream e.seq ((firstAccess e.shape e.todo).map (·.2.1)) (s.without e.hidden)

/-- The state after them: they change the core's record of what it has read, and spend choices. -/
def loadRead (s : State) (e : LoadEntry) : State := { (nextRead s e).2 with writes := s.writes }

theorem loadRead_frame (s : State) (e : LoadEntry) :
    ∃ own obs ch, loadRead s e = { s with core := { s.core with own := own, obs := obs }, choice := ch } := by
  obtain ⟨own, obs, ch, h⟩ := coreRead_frame e.stream e.seq ((firstAccess e.shape e.todo).map (·.2.1)) (s.without e.hidden)
  exact ⟨own, obs, ch, by rw [loadRead, nextRead, h]; rfl⟩

/-- The load after the clean read of its next access. -/
def loadAdvanced (s : State) (e : LoadEntry) : LoadEntry :=
  { e with
    todo := e.todo.drop (firstAccess e.shape e.todo).length
    got := e.got ++ (nextRead s e).1.map (·.val) }

theorem firstAccess_length_le (x : LoadShape) (todo : List (Nat × Nat × Nat)) : (firstAccess x todo).length ≤ todo.length := by
  cases todo with
  | nil => exact Nat.le_refl 0
  | cons b r => exact Nat.succ_le_succ (List.takeWhile_sublist _).length_le

/-- Nothing is left to read just where the next access is the whole of the rest. -/
theorem loadAdvanced_todo (s : State) (e : LoadEntry) :
    (loadAdvanced s e).todo = [] ↔ e.todo.length = (firstAccess e.shape e.todo).length := by
  have hle := firstAccess_length_le e.shape e.todo
  rw [loadAdvanced, List.drop_eq_nil_iff]
  omega

/-- A load whose turn has come reads its next access; with the last one its value is there. -/
theorem exec_loadPerform {tok : Nat} {s : State} {e : LoadEntry}
    (he : s.core.loads.find? (fun x => x.tok == tok && x.atomic.isNone) = some e)
    (hb : s.core.loadsBefore e.stream e.seq = true) (hacq : e.acq = none) (hbad : e.bad = none)
    (hr : coreReadable (s.without e.hidden) e.stream e.seq ((firstAccess e.shape e.todo).map (·.2.1)) = true)
    (hclean : ∀ b ∈ (nextRead s e).1, b.poison = false) :
    exec (.loadPerform tok) s = if (loadAdvanced s e).todo ≠ [] then
        stepped { loadRead s e with core := { (loadRead s e).core with
          loads := (loadRead s e).core.loads.map fun x => if x.tok = tok then loadAdvanced s e else x } }
      else stepped (performLoad (loadRead s e) (loadAdvanced s e) [e.shape.result (loadAdvanced s e).got]) := by
  have hnone : ((nextRead s e).1.zip (firstAccess e.shape e.todo)).find? (fun x => x.1.poison) = none :=
    List.find?_eq_none.2 fun x hx => by simp [hclean _ (List.of_mem_zip hx).1]
  have hkept : loadAdvanced s e = { loadAdvanced s e with acq := none, bad := none } := by rw [loadAdvanced, hacq, hbad]
  rw [nextRead] at hnone
  change execLoadPerform tok s = _
  rw [hkept]
  simp only [execLoadPerform, he, hb, hr, hacq, hbad, hnone, Bool.not_true, Bool.or_self, Bool.false_eq_true, if_false]
  by_cases h : (loadAdvanced s e).todo ≠ []
  · rw [if_pos h]
    exact if_pos h
  · rw [if_neg h]
    exact if_neg h

/-! ### ATOMIC (R269 to R271) -/

/-- The bytes that an atomic writes: those of its value, each at its address. -/
def wordBytes (pas : List Nat) (v : Word) : List WByte :=
  (pas.zip (bytesOfNat pas.length v.toNat)).map fun x => ⟨x.1, x.2, false⟩

theorem wordBytes_pa {pas : List Nat} {v : Word} {b : WByte} (h : b ∈ wordBytes pas v) : b.pa ∈ pas := by
  obtain ⟨x, hx, rfl⟩ := List.mem_map.1 h
  exact (List.of_mem_zip hx).1

/-- Each address of a list without repeats is given its own byte. -/
theorem entryOr_zip {pas : List Nat} (hnodup : pas.Nodup) {bs : List Byte} {x : Nat × Byte} (hx : x ∈ pas.zip bs)
    (y : Byte × Bool) : entryOr ((pas.zip bs).map fun x => ⟨x.1, x.2, false⟩) x.1 y = (x.2, false) := by
  induction pas generalizing bs with
  | nil => cases hx
  | cons pa r ih =>
    cases bs with
    | nil => cases hx
    | cons b bs =>
      obtain ⟨hpa, hr⟩ := List.nodup_cons.1 hnodup
      rw [List.zip_cons_cons, List.map_cons, entryOr_cons]
      obtain rfl | hx := List.mem_cons.1 hx
      · exact if_pos rfl
      · have hne : ¬ pa = x.1 := fun h => hpa (by rw [h]; exact (List.of_mem_zip hx).1)
        exact (if_neg hne).trans (ih hr hx)

/-- The result of an atomic: the old value, and the flags that its operation raises. -/
def atomicResult (op : AtomicOp) (d : BitVec 6) (old : Word) : List RegWrite :=
  if (op.apply old).2 = 0 then [.s d old] else [.s d old, .flags (op.apply old).2]

/-- What a tile core's atomic without `.ar` does once its reads have told it the old value: its write, if it makes one, takes
its place, and the old value is its result. -/
def atomicDone (s : State) (e : LoadEntry) (op : AtomicOp) (d : BitVec 6) (old : Word) : State :=
  performLoad (match (op.apply old).1 with
    | some v => coreWrite s none false (wordBytes (e.todo.map (·.2.1)) v)
    | none => s) e (atomicResult op d old)

section
variable {tok : Nat} {s : State} {e : LoadEntry} {op : AtomicOp} {d : BitVec 6}

/-- An atomic whose turn has come, of a tile core and over clean bytes that it reaches, acts at their home. -/
theorem exec_atomic (hs : s.coreId < 512) (he : s.core.loads.find? (fun x => x.tok == tok && x.atomic.isSome) = some e)
    (hop : e.atomic = some (op, false)) (hd : e.shape = .scalar d) (hb : s.core.loadsBefore e.stream e.seq = true)
    (hsq : ∀ x ∈ s.core.sq, x.stream = e.stream → e.seq ≤ x.seq)
    (hpas : ∀ pa ∈ e.todo.map (·.2.1), reaches s s.here pa = true ∧ (byteAt s pa).2 = false) :
    ∃ obs own, exec (.atomic tok) s = stepped (atomicDone { s with core := { s.core with obs := obs, own := own } } e op d
      (BitVec.ofNat 64 (natOfBytes ((e.todo.map (·.2.1)).map fun pa => (byteAt s pa).1)))) := by
  have htask : isController s.coreId = false := by simpa [isController] using hs
  have hempty : (s.core.sq.all fun x => x.stream != e.stream || decide (e.seq ≤ x.seq)) = true := by
    simpa [or_iff_not_imp_left] using hsq
  have hreads : ((e.todo.map (·.2.1)).map fun pa => if !reaches s s.here pa then (⟨0, true, 0, false⟩ : ReadByte)
      else homeByte s pa) = (e.todo.map (·.2.1)).map (homeByte s) :=
    List.map_congr_left fun pa hpa => by simp [(hpas pa hpa).1]
  have hnone : (((e.todo.map (·.2.1)).map (homeByte s)).zip e.todo).find? (fun x => x.1.poison) = none := by
    refine List.find?_eq_none.2 fun x hx => ?_
    obtain ⟨pa, hpa, hx⟩ := List.mem_map.1 (List.of_mem_zip hx).1
    have hclean : (homeByte s pa).poison = false := (hpas pa hpa).2
    simp [← hx, hclean]
  have hvals : ((e.todo.map (·.2.1)).map (homeByte s)).map (·.val) = (e.todo.map (·.2.1)).map fun pa => (byteAt s pa).1 := by
    rw [List.map_map]
    rfl
  let ids := (((e.todo.map (·.2.1)).map (homeByte s)).map (·.src)).filter (· ≠ 0)
  refine ⟨ids.foldl sinsert s.core.obs, ids.foldl sinsert s.core.own, ?_⟩
  change execAtomic tok s = _
  simp only [execAtomic, he, hop, hd, hb, hempty, htask, Bool.false_and, Bool.false_eq_true, if_false, hreads, hnone, hvals]
  rfl

theorem atomicDone_byteAt (old : Word) (pa : Nat) : byteAt (atomicDone s e op d old) pa = match (op.apply old).1 with
    | some v => if reaches s s.here pa then entryOr (wordBytes (e.todo.map (·.2.1)) v) pa (byteAt s pa) else byteAt s pa
    | none => byteAt s pa := by
  unfold atomicDone
  obtain ⟨_, _, _, h⟩ := performLoad_frame (match (op.apply old).1 with
    | some v => coreWrite s none false (wordBytes (e.todo.map (·.2.1)) v)
    | none => s) e (atomicResult op d old)
  rw [h]
  cases (op.apply old).1 with
  | some v => exact coreWrite_byteAt s none false _ pa
  | none => rfl

theorem atomicDone_core (hdue : e.due = none) (old : Word) : ∃ obs own, (atomicDone s e op d old).core = { s.core with
    loads := s.core.loads.filter fun x => x.tok != e.tok
    locks := s.core.locks.map fun l => if l.tok = e.tok then { l with result := some (atomicResult op d old) } else l
    obs := obs
    own := own } := by
  rw [atomicDone, performLoad_locked hdue]
  cases (op.apply old).1 with
  | some v =>
    obtain ⟨obs, own, h⟩ := coreWrite_core s none false (wordBytes (e.todo.map (·.2.1)) v)
    exact ⟨obs, own, by simp only [h]⟩
  | none => exact ⟨_, _, rfl⟩

end

end Sys2Proof.Machine

namespace Sys2Proof.Rules

open Sys2Proof.Machine

/-- A clean read of a load's next access, and with the last one the place of its value. -/
theorem loadPerforms : LoadPerforms := by
  intro tok s e he hb hacq hbad now hr r got hclean
  have hexec := exec_loadPerform he hb hacq hbad hr hclean
  obtain ⟨own, obs, ch, ht⟩ := loadRead_frame s e
  have htodo : (loadAdvanced s e).todo = [] ↔ e.todo.length = now.length := loadAdvanced_todo s e
  by_cases hlast : (loadAdvanced s e).todo = []
  · rw [if_neg (not_not.2 hlast), ht] at hexec
    obtain ⟨cnt, pend, locks, hframe⟩ := performLoad_frame (loadRead s e) (loadAdvanced s e)
      [e.shape.result (loadAdvanced s e).got]
    rw [ht] at hframe
    refine ⟨_, hexec, ?_⟩
    simp only [settle_core, settle_fe, settle_tags]
    refine ⟨by rw [hframe], by rw [hframe], by rw [hframe], by rw [hframe], by rw [hframe],
      fun h => absurd (htodo.1 hlast) h, fun _ => ⟨by rw [hframe]; rfl, fun n hn => ⟨fun hd => ?_, fun hd => ?_⟩, fun hn => ?_⟩⟩
    · rw [performLoad_exposed (e := loadAdvanced s e) hn ((result_dropped _ _).trans (decide_eq_false hd))]
      exact ⟨rfl, rfl⟩
    · rw [performLoad_dropped (e := loadAdvanced s e) hn ((result_dropped _ _).trans (decide_eq_true hd))]
      exact ⟨rfl, by simp [Counters.add, BitVec.sub_eq_add_neg]⟩
    · rw [performLoad_locked (e := loadAdvanced s e) hn]
      rfl
  · rw [if_pos hlast, ht] at hexec
    refine ⟨_, hexec, ?_⟩
    simp only [settle_core, settle_fe, settle_tags]
    exact ⟨trivial, trivial, trivial, trivial, trivial, fun _ => rfl, fun h => absurd (htodo.2 h) hlast⟩

/-- The bytes of an atomic are read and written in one step, and its old value waits under its lock. -/
theorem atomicActs : AtomicActs := by
  intro tok s e op d hs he hop hd hdue hb hsq pas hnodup hpas old
  obtain ⟨obs, own, hexec⟩ := exec_atomic hs he hop hd hb hsq hpas
  let t : State := { s with core := { s.core with obs := obs, own := own } }
  obtain ⟨obs', own', hcore⟩ := atomicDone_core (s := t) (op := op) (d := d) hdue old
  have hbyte (pa : Nat) := (settle_byteAt _ pa).trans (atomicDone_byteAt (s := t) (e := e) (op := op) (d := d) old pa)
  refine ⟨_, hexec, ?_, ?_, fun pa hpa => (hbyte pa).trans ?_, fun hnone pa => (hbyte pa).trans ?_,
    fun v hv x hx => (hbyte x.1).trans ?_⟩
  · exact congrArg (·.loads) ((settle_core _).trans hcore)
  · exact congrArg (·.locks) ((settle_core _).trans hcore)
  · split
    · next v _ =>
      have hother : ∀ b ∈ wordBytes (e.todo.map (·.2.1)) v, b.pa ≠ pa := fun b hb hne => hpa (hne ▸ wordBytes_pa hb)
      rw [entryOr_none hother]
      exact ite_self _
    · rfl
  · rw [hnone]
    rfl
  · rw [hv]
    exact (if_pos (hpas x.1 (List.of_mem_zip hx).1).1).trans (entryOr_zip hnodup hx _)

/-- Settles O18: a load performs access by access, and an atomic acts in one step on its own bytes alone. -/
theorem loadsAndAtomicsPerform : Obligations.LoadsAndAtomicsPerform := ⟨loadPerforms, atomicActs⟩

end Sys2Proof.Rules

/-! SUPPORT. Commands that enter their queue (R229, R232, R233), and COPY, COPYM and RELAY (R68, R235, R236, R238). -/

namespace Sys2Proof.Machine

open Sys2Proof

/-! ### Checks that pass (R229) -/

theorem withChecked_ok {s : State} {c : Checked} {segs : List Seg} (h : c = .ok segs) (k : List Seg → Res) :
    withChecked s c k = k segs := by
  rw [h]
  rfl

theorem withChecked_bad {s : State} {c : Checked} {t : TrapInfo} (h : c = .bad t) (k : List Seg → Res) :
    withChecked s c k = trap s t := by
  rw [h]
  rfl

/-! ### A command that has room (R229 step 5, R232, R233) -/

/-- The new command of the active core, and the state that holds it. -/
def issuedCmd (s : State) (p : Path) (b : CmdBody) (segs : List Seg) (dest : Option (BitVec 6)) (f : Cmd → Cmd) : Cmd :=
  { f (newCmd s p b (stakePages s (s.caught ++ segs))) with tok := dest.map fun _ => s.core.seq }

def issued (s : State) (p : Path) (b : CmdBody) (segs : List Seg) (dest : Option (BitVec 6)) (f : Cmd → Cmd) : State :=
  let t := match dest with
    | some d => (lock s [.s d] none (if p == Path.splice then some 5 else none)).2
    | none => s
  { t with
    cmds := s.cmds ++ [issuedCmd s p b segs dest f]
    nextId := s.nextId + 1
    caught := []
    core := t.core.count (pathClass p) 1 }

theorem submit_room {s : State} {p : Path} {segs : List Seg} (h : roomFor s p segs) (b : CmdBody) (dest : Option (BitVec 6))
    (f : Cmd → Cmd) (fin : State → State) :
    submit s p b segs dest f fin = .next (fin (issued s p b segs dest f)).clear := by
  obtain ⟨hqueue, hcount, hstakes⟩ := h
  simp only [submit, hqueue, hcount, hstakes, Bool.or_self, Bool.false_eq_true, if_false]
  cases dest <;> rfl

theorem issued_core (s : State) (p : Path) (b : CmdBody) (segs : List Seg) (dest : Option (BitVec 6)) (f : Cmd → Cmd) :
    ∃ seq locks, (issued s p b segs dest f).core =
      { s.core with seq := seq, locks := locks, cnt := s.core.cnt.add (pathClass p) 1 } := by
  cases dest <;> exact ⟨_, _, rfl⟩

/-- A destination other than `s0` is interlocked under the command's token. -/
theorem issued_locks (s : State) (p : Path) (b : CmdBody) (segs : List Seg) {d : BitVec 6} (hd : d ≠ 0) (f : Cmd → Cmd) :
    ∃ l : Lock, (issued s p b segs (some d) f).core.locks = s.core.locks ++ [l] ∧ l.regs = [.s d] ∧ l.result = none ∧
      (issuedCmd s p b segs (some d) f).tok = some l.tok :=
  ⟨_, rfl, List.filter_eq_self.2 (by simpa using hd), rfl, rfl⟩

/-- The post-increments that follow a command change the exposed writes alone, by the agent's own count and writes (R258). -/
theorem accessDone_pend (x : Access) {s t : State} (hpend : s.core.pend = t.core.pend) (hbcnt : s.core.bcnt = t.core.bcnt) :
    (x.done s).core.pend = (x.done t).core.pend := by
  unfold Access.done
  cases x.post with
  | none => exact hpend
  | some p =>
    simp only [later]
    split
    · exact hpend
    · simp only [hpend, hbcnt]

theorem accessDone_bcnt (x : Access) (s : State) : (x.done s).core.bcnt = s.core.bcnt := by
  obtain ⟨pend, h⟩ := accessDone_frame x s
  rw [h]

/-- What a command's queue, counter and post-increments leave is what R229 says of an issue. -/
theorem enqueued_issued {s u : State} {p : Path} {b : CmdBody} {segs : List Seg} {dest : Option (BitVec 6)} {f : Cmd → Cmd}
    {pend : List Pend} (hu : u = { issued s p b segs dest f with core := { (issued s p b segs dest f).core with pend := pend } })
    (hid : ∀ c, (f c).id = c.id ∧ (f c).core = c.core ∧ (f c).path = c.path ∧ (f c).pc = c.pc)
    (hnew : ∀ c, (f c).started = c.started ∧ (f c).finished = c.finished ∧ (f c).out = c.out) :
    enqueued s u.clear p (issuedCmd s p b segs dest f) := by
  obtain ⟨seq, locks, hcore⟩ := issued_core s p b segs dest f
  obtain ⟨hid, hc, hpath, hpc⟩ := hid (newCmd s p b (stakePages s (s.caught ++ segs)))
  obtain ⟨hstart, hfin, hout⟩ := hnew (newCmd s p b (stakePages s (s.caught ++ segs)))
  rw [hu, hcore]
  cases dest <;> exact ⟨rfl, rfl, rfl, hid, hc, hpath, hpc, hstart, hfin, hout, rfl, ⟨rfl, rfl, rfl, rfl, rfl⟩, rfl, rfl, rfl, rfl,
    rfl, rfl, rfl⟩

/-- A command without a destination that has room is issued; what follows it may change the exposed writes. -/
theorem submit_enqueues {s : State} {p : Path} {segs : List Seg} (hroom : roomFor s p segs) (b : CmdBody) {fin : State → State}
    (hfin : ∀ t, ∃ pend, fin t = { t with core := { t.core with pend := pend } }) :
    ∃ u c, submit s p b segs none id fin = .next u ∧ enqueued s u p c ∧ c.body = b ∧ c.tok = none ∧
      u = (fin (issued s p b segs none id)).clear := by
  obtain ⟨pend, h⟩ := hfin (issued s p b segs none id)
  exact ⟨_, issuedCmd s p b segs none id, submit_room hroom b none id fin,
    enqueued_issued h (fun _ => ⟨rfl, rfl, rfl, rfl⟩) (fun _ => ⟨rfl, rfl, rfl⟩), rfl, rfl, rfl⟩

/-! ### Ranges that no engine takes (R68, R233) -/

/-- An engine's range that lies neither in the local window nor in plain memory is refused. -/
theorem checkEngine_barred {va n : Nat} (hn : n ≠ 0) (hplain : windowOf va n ≠ .plain) (hloc : ∀ off, windowOf va n ≠ .loc off)
    (s : State) (p : Path) (need : Need) : checkEngine s p need va n = .bad (accessTrap s va) := by
  rw [checkEngine, if_neg hn]
  split
  · next h => exact absurd h (hloc _)
  · next h => exact absurd h hplain
  · rfl

/-! ### COPY and COPYM (R235, R236) -/

/-- The post-increments of a command with two address operands: those of the second are made last. -/
def doneTwice (x y : Access) (s : State) : State := x.done (y.done s)

theorem doneTwice_frame (x y : Access) (s : State) : ∃ pend, doneTwice x y s = { s with core := { s.core with pend := pend } } := by
  obtain ⟨_, hy⟩ := accessDone_frame y s
  obtain ⟨pend, hx⟩ := accessDone_frame x (y.done s)
  exact ⟨pend, by rw [doneTwice, hx, hy]⟩

theorem doneTwice_pend (x y : Access) {s t : State} (hpend : s.core.pend = t.core.pend) (hbcnt : s.core.bcnt = t.core.bcnt) :
    (doneTwice x y s).core.pend = (doneTwice x y t).core.pend :=
  accessDone_pend x (accessDone_pend y hpend hbcnt) (by simp only [accessDone_bcnt, hbcnt])

section
variable {d a : EAddr} {g : GuardF} {s : State} {src dst : List Seg} {off : Nat} (hg : s.core.guard g = true)
include hg

theorem exec_copy (len : CopyLen) : exec (.copy d a len g) s =
    withChecked s (checkEngine s .copy ⟨true, false⟩ (a.access s.core).ea.toNat (CopyLen.bytes len s.core)) fun src =>
      withChecked s (checkEngine s .copy ⟨false, true⟩ (d.access s.core).ea.toNat (CopyLen.bytes len s.core)) fun dst =>
        submit s .copy (.copy dst src (CopyLen.bytes len s.core) (heldBy s dst)) (src ++ dst) none id
          (doneTwice (a.access s.core) (d.access s.core)) :=
  show execCopy d a len g s = _ from guarded_on hg _

theorem exec_copym_local {len : CopymLen} (hs : s.coreId < 512)
    (hloc : windowOf (d.access s.core).ea.toNat (CopymLen.bytes len s.core) = .loc off)
    (hsrc : checkEngine s .copy ⟨true, false⟩ (a.access s.core).ea.toNat (CopymLen.bytes len s.core) = .ok src)
    (m : BitVec 6) : ∃ held, exec (.copym d a len m g) s = submit s .copy (.copym src off (CopymLen.bytes len s.core)
      ((s.core.rs m).setWidth 16) held) src none id (doneTwice (a.access s.core) (d.access s.core)) := by
  have htask : isController s.coreId = false := by simpa [isController] using hs
  refine ⟨heldBy s ((maskCores s.coreId ((s.core.rs m).extractLsb' 0 16)).map fun k => ⟨0, spAddr k off, 1⟩), ?_⟩
  rw [BitVec.setWidth_eq_extractLsb' (by decide)]
  change execCopym d a len m g s = _
  simp only [execCopym, guarded_on hg, hloc, htask, hsrc]
  rfl

theorem exec_copym_outside {len : CopymLen}
    (hout : ∀ off, windowOf (d.access s.core).ea.toNat (CopymLen.bytes len s.core) ≠ .loc off) (m : BitVec 6) :
    exec (.copym d a len m g) s = trap s (accessTrap s (d.access s.core).ea.toNat) := by
  change execCopym d a len m g s = _
  simp only [execCopym, guarded_on hg]

end

end Sys2Proof.Machine

namespace Sys2Proof.Rules

open Sys2Proof.Machine

/-- COPY and COPYM enter their queue where their ranges pass, and trap where a range lies in a window that is not theirs. -/
theorem copies : CopyCommands := by
  intro d a len clen m g s src dst off hg sa da pend
  have hissue (b : CmdBody) (segs : List Seg) (hroom : roomFor s .copy segs) :
      ∃ u c, submit s .copy b segs none id (doneTwice sa da) = .next u ∧ enqueued s u .copy c ∧ u.core.pend = pend ∧
        c.body = b := by
    obtain ⟨u, c, hu, henq, hbody, -, rfl⟩ := submit_enqueues hroom b (doneTwice_frame sa da)
    exact ⟨_, c, hu, henq, doneTwice_pend sa da rfl rfl, hbody⟩
  refine ⟨fun hsrc hdst hroom => ?_, fun hs hloc hsrc hroom => ?_, ⟨fun hbar => ?_, fun hsrc hbar => ?_⟩, fun hout => ?_⟩
  · rw [exec_copy hg, withChecked_ok hsrc, withChecked_ok hdst]
    exact hissue _ _ hroom
  · obtain ⟨held, hexec⟩ := exec_copym_local hg hs hloc hsrc m
    obtain ⟨u, c, hu, henq, hpend, hbody⟩ := hissue _ _ hroom
    exact ⟨u, c, held, hexec.trans hu, henq, hpend, hbody⟩
  · obtain ⟨hn, hplain, hloc⟩ := hbar
    rw [exec_copy hg, withChecked_bad (checkEngine_barred hn hplain hloc s _ _)]
    exact trapsWith_trap s _
  · obtain ⟨hn, hplain, hloc⟩ := hbar
    rw [exec_copy hg, withChecked_ok hsrc, withChecked_bad (checkEngine_barred hn hplain hloc s _ _)]
    exact trapsWith_trap s _
  · rw [exec_copym_outside hg hout]
    exact trapsWith_trap s _

end Sys2Proof.Rules

namespace Sys2Proof.Machine

open Sys2Proof

/-! ### RELAY (R238) -/

/-- A relay whose types, lay, ranks or extents breach R238 is refused. -/
theorem relayOk_false {dh ah : Shape} {lay : Nat} {tr : Bool}
    (h : ah.ty ≠ dh.ty ∨ 4 < lay ∨ (tr = true ∧ ah.rank < 2) ∨ (dh.ty = .e2m1k ∧ (lay ≠ 4 ∨ tr = true)) ∨
      (tr = false ∧ ∃ x ∈ ah.ext.zip dh.ext, x.2 < x.1)) : relayOk dh ah lay tr = false := by
  refine Bool.eq_false_iff.2 fun hok => ?_
  simp only [relayOk, Bool.and_eq_true, beq_iff_eq, Bool.or_eq_true, Bool.not_eq_true', decide_eq_true_eq, Bool.and_eq_false_iff,
    List.all_eq_true] at hok
  obtain ⟨⟨⟨⟨⟨⟨⟨hty, hrank⟩, hlay⟩, he2⟩, htr⟩, hext⟩, -⟩, -⟩ := hok
  rcases h with h | h | ⟨h, hlow⟩ | ⟨hd, h⟩ | ⟨rfl, x, hx, hlt⟩
  · exact h hty
  · omega
  · rcases hrank with hr | hr
    · rw [h] at hr; cases hr
    · omega
  · rcases h with h | h
    · simp [hd, h] at he2
    · simp [hd, h] at htr
  · have := hext x hx
    omega

/-- A relay whose records pass their capture and their shapes goes on with them. -/
theorem exec_relay {tr : Bool} {d a : BitVec 8} {lay : BitVec 4} {vc : BitVec 6} {g : GuardF} {s t : State} {r r' : RawRec}
    {dh ah : Shape} (hg : s.core.guard g = true) (hcap : passes (captureHandles [d, a] s) [r, r'] t)
    (hshapes : passesWith (withShapes t [r, r']) [dh, ah]) :
    let n : Shape := { dh with lay := lay.toNat }
    let v : Option Nat := if vc = 0 then none else some (s.core.rs vc).toNat
    let els := (List.range n.count).filter fun l => within v (n.row l)
    exec (.relay tr d a lay vc g) s =
      if !relayOk dh ah lay.toNat tr then trap t (shapeTrap t r.va)
      else
        withChecked t (checkEngines t .copy ⟨false, true⟩ [(r.va + 10, 1)]) fun rp =>
          withChecked t (checkEngines t .copy ⟨true, false⟩ (ah.rangesOf (els.filterMap (relaySource n ah tr)))) fun sp =>
            withChecked t (checkEngines t .copy ⟨false, true⟩ (n.rangesOf els)) fun dp =>
              submit t .copy (.relay { n with segs := dp } { ah with segs := sp } lay.toNat tr v rp (heldBy t dp))
                (rp ++ sp ++ dp) none id id := by
  change execRelay tr d a lay vc g s = _
  rw [execRelay, guarded_on hg, hcap, hshapes]

end Sys2Proof.Machine

namespace Sys2Proof.Rules

open Sys2Proof.Machine

/-- Once its records have passed, a relay's shapes decide between the queue and the shape fault. -/
theorem relayCommand : RelayCommand := by
  intro tr d a lay vc g s t r r' dh ah rp sp dp hg hcap hshapes
  have hexec := exec_relay (tr := tr) (lay := lay) (vc := vc) hg hcap hshapes
  refine ⟨fun hbad => ?_, relayOk_false, ?_⟩
  · rw [hexec, hbad]
    exact trapsWith_trap t _
  · intro hok n v els hrp hsp hdp hroom
    obtain ⟨u, c, hu, henq, hbody, -, -⟩ := submit_enqueues hroom
      (.relay { n with segs := dp } { ah with segs := sp } lay.toNat tr v rp (heldBy t dp)) (fin := id) (fun t => ⟨_, rfl⟩)
    refine ⟨u, c, hexec.trans ?_, henq, hbody⟩
    rw [hok, if_neg (by simp), withChecked_ok hrp, withChecked_ok hsp, withChecked_ok hdp]
    exact hu

/-- Settles O23: the copy commands enter their queue, or trap by window or shape. -/
theorem copyCommands : Obligations.CopyCommands := ⟨copies, relayCommand⟩

end Sys2Proof.Rules

/-! SUPPORT. Network commands (R68, R249 to R253, R370, R371): the descriptor that they capture, the message that they queue, and
what NXWAIT and NXSTAT answer. -/

namespace Sys2Proof.Machine

open Sys2Proof

/-! ### A command with a destination (R54, R229) -/

/-- A command with a destination that has room is issued, and its destination is pending. -/
theorem submit_awaits {s : State} {p : Path} {segs : List Seg} (hroom : roomFor s p segs) (b : CmdBody) (d : BitVec 6)
    {fin : State → State} (hfin : ∀ t, ∃ pend, fin t = { t with core := { t.core with pend := pend } }) :
    ∃ u c, submit s p b segs (some d) id fin = .next u ∧ enqueued s u p c ∧ c.body = b ∧ awaited s u c d := by
  obtain ⟨pend, h⟩ := hfin (issued s p b segs (some d) id)
  refine ⟨_, issuedCmd s p b segs (some d) id, submit_room hroom b (some d) id fin,
    enqueued_issued h (fun _ => ⟨rfl, rfl, rfl, rfl⟩) (fun _ => ⟨rfl, rfl, rfl⟩), rfl, fun hd => ?_⟩
  rw [h]
  exact issued_locks s p b segs hd id

/-! ### Messages (R249 to R251, R371) -/

/-- The message that a network command queues: its descriptor's, with the endpoint and the values of its entropy set. -/
def routedMessage (m : Message) (e : Endpoint) (values : List (BitVec 16)) : Message :=
  { m with proto := BitVec.ofNat 2 e.proto, port0 := e.port0, nport := e.nport, entropy := values }

/-- The check of the local range that a network command reads or writes; an atomic has none. -/
def checkMessage (s : State) (k : NxKind) (m : Message) : Checked :=
  match k with
  | .wr => checkEngine s .network ⟨true, false⟩ m.lva.toNat m.len
  | .rd => checkEngine s .network ⟨false, true⟩ m.lva.toNat m.len
  | .amo => .ok []

/-- The body of a network command. -/
def messageBody (k : NxKind) (m : Message) : CmdBody :=
  match k with
  | .wr => .nxwr m
  | .rd => .nxrd m
  | .amo => .nxamo m

section
variable {s : State} {x : EAddr}

/-- A descriptor that is not aligned, or lies in plain memory, takes the shape fault. -/
theorem issueMessage_shape (h : (x.access s.core).ea.toNat % 16 ≠ 0 ∨ windowOf (x.access s.core).ea.toNat 48 = .plain)
    (k : NxKind) (d : Option (BitVec 6)) : trapsWith s (issueMessage k d x s) 0x13 := by
  simp only [issueMessage]
  split
  · exact trapsWith_trap s _
  · next hok =>
    rcases h with h | h
    · exact absurd (by simp [h]) hok
    · rw [h]
      exact trapsWith_trap s _

/-- One in another window than the local one takes the access trap. -/
theorem issueMessage_access (hs : s.coreId < 512) (ha : (x.access s.core).ea.toNat % 16 = 0)
    (hplain : windowOf (x.access s.core).ea.toNat 48 ≠ .plain) (hloc : ∀ off, windowOf (x.access s.core).ea.toNat 48 ≠ .loc off)
    (k : NxKind) (d : Option (BitVec 6)) : trapsWith s (issueMessage k d x s) 0x08 := by
  have htask : isController s.coreId = false := by simpa [isController] using hs
  simp only [issueMessage]
  rw [if_neg (by simp [ha, htask])]
  exact trapsWith_trap s _

/-- A descriptor that passes its capture and R249's table, with a legal endpoint and an entropy set, queues its message once its
local range has passed. -/
theorem issueMessage_submits {t t1 t' : State} {off : Nat} {b : List Byte} {m : Message} {e : Endpoint} {values : List (BitVec 16)}
    {segs : List Seg} {k : NxKind} (hs : s.coreId < 512) (ha : (x.access s.core).ea.toNat % 16 = 0)
    (hloc : windowOf (x.access s.core).ea.toNat 48 = .loc off) (hcap : passes (capture s (x.access s.core).ea.toNat 32) b t)
    (hm : parseMessage k off b = some m) (he : passes (withEndpoint t (x.access s.core).ea.toNat m.ep) e t1)
    (hroce : e.proto = 1 → roceOk m = true) (hv : passes (withEntropy t1 m.eset) values t')
    (hc : checkMessage t' k m = .ok segs) (d : Option (BitVec 6)) : issueMessage k d x s =
      submit t' .network (messageBody k { routedMessage m e values with segs := segs }) segs d id (x.access s.core).done := by
  have htask : isController s.coreId = false := by simpa [isController] using hs
  have hlegal : ¬(e.proto = 1 && !roceOk m) = true := by
    intro h
    simp only [Bool.and_eq_true, decide_eq_true_eq, Bool.not_eq_true'] at h
    rw [hroce h.1] at h
    cases h.2
  simp only [issueMessage]
  rw [if_neg (by simp [ha, htask]), hloc]
  simp only
  rw [hcap]
  simp only [hm]
  rw [he, if_neg hlegal, hv]
  cases k <;> exact withChecked_ok hc _

end

/-! ### NXWAIT and NXSTAT (R252, R253) -/

/-- Marks on the listed writes that leave their bytes change no byte. -/
theorem byteAt_mapWrites (s : State) {f : Write → Write} (h : ∀ w, (f w).bytes = w.bytes) (pa : Nat) :
    byteAt { s with writes := s.writes.map f } pa = byteAt s pa := by
  have hat : (fun w => (f w).at pa) = fun w : Write => w.at pa := funext fun w => by simp only [Write.at, h w]
  rw [byteAt_eq, byteAt_eq]
  simp only [← List.map_reverse, List.findSome?_map]
  exact congrArg (fun g => ((s.writes.reverse.findSome? g).map fun b => (b.val, b.poison)).getD _) hat

theorem joinAt_byteAt (s : State) (d : BitVec 2) (ps : List Path) (sel : Write → Bool) (pa : Nat) :
    byteAt (joinAt s d ps sel) pa = byteAt s pa :=
  byteAt_mapWrites s (fun w => by split <;> rfl) pa

section
variable {c v d p : BitVec 6} {g : GuardF} {s : State} (hg : s.core.guard g = true)
include hg

theorem exec_nxwait : exec (.nxwait c v g) s =
    if 1024 ≤ (s.core.rs c).toNat then trap s (shapeTrap s (s.core.rs c).toNat)
    else if !reached (s.arrival (s.core.rs c).toNat) ((s.core.rs v).setWidth 32) then hold s .nxwait
    else stepped (joinCore s ((s.writes.filter fun w => w.path == .network &&
      (kget [] (s.die s.here).active.arrMsgs (1024 * s.slot + (s.core.rs c).toNat)).contains w.prod).map (·.id))) :=
  show execNxwait c v g s = _ from guarded_on hg _

/-- A counter that has not reached its target holds the bundle. -/
theorem exec_nxwait_holds (hn : (s.core.rs c).toNat < 1024)
    (hr : 2 ^ 31 ≤ (s.arrival (s.core.rs c).toNat - (s.core.rs v).setWidth 32).toNat) :
    exec (.nxwait c v g) s = hold s .nxwait := by
  rw [exec_nxwait hg, if_neg (Nat.not_le.2 hn), if_pos (by simp only [reached, Nat.not_lt.2 hr, decide_false, Bool.not_false])]

/-- One that has reached it lets the core see the messages that raised it, and changes no byte. -/
theorem exec_nxwait_passes (hn : (s.core.rs c).toNat < 1024)
    (hr : (s.arrival (s.core.rs c).toNat - (s.core.rs v).setWidth 32).toNat < 2 ^ 31) :
    ∃ u, exec (.nxwait c v g) s = .next u ∧ u.sig = .none ∧ (∃ obs, u.core = { s.core with obs := obs }) ∧
      ∀ pa, byteAt u pa = byteAt s pa := by
  rw [exec_nxwait hg, if_neg (Nat.not_le.2 hn), if_neg (by simp only [reached, hr, decide_true, Bool.not_true]; simp)]
  exact ⟨_, rfl, rfl, ⟨_, settle_core _⟩, fun pa => (settle_byteAt _ pa).trans (joinAt_byteAt s s.here [.core] _ pa)⟩

/-- A word with bits above its fields is refused. -/
theorem exec_nxstat_reserved (hx : 2 ^ 18 ≤ (s.core.rs p).toNat) :
    exec (.nxstat d p g) s = trap s (shapeTrap s (s.core.rs p).toNat) := by
  have hne : (s.core.rs p).extractLsb' 18 46 ≠ 0 := by
    rw [Ne, extractLsb'_eq_zero_iff, Nat.mod_eq_of_lt (s.core.rs p).isLt]
    omega
  change execNxstat d p g s = _
  rw [execNxstat, guarded_on hg]
  exact if_pos hne

/-- The word that a selector of NXSTAT answers, and the free choices spent by then. -/
def nxstatWord (s : State) (x : Word) (sel : BitVec 2) : Word × Nat :=
  match sel with
  | 0#2 => (pathWord (s.path s.part s.slot (x.extractLsb' 0 12).toNat (x.extractLsb' 12 4).toNat), s.choice)
  | 1#2 => ((s.arrival (x.extractLsb' 0 10).toNat).setWidth 64, s.choice)
  | 2#2 =>
    (if (Config.rcccCredit (x.extractLsb' 0 12).toNat s.choice).getLsbD 63 then 0x7FFFFFFFFFFFFFFF
      else Config.rcccCredit (x.extractLsb' 0 12).toNat s.choice, s.choice + 1)
  | _ => (0, s.choice)

theorem exec_nxstat {sel : BitVec 2} (hx : (s.core.rs p).toNat < 2 ^ 18) (hsel : (s.core.rs p).extractLsb' 16 2 = sel) :
    exec (.nxstat d p g) s = .next { s.locked [.s d] [.s d (nxstatWord s (s.core.rs p) sel).1] with
      choice := (nxstatWord s (s.core.rs p) sel).2 } := by
  have hzero : ¬ (s.core.rs p).extractLsb' 18 46 ≠ 0 := by
    rw [not_not, extractLsb'_eq_zero_iff, Nat.mod_eq_of_lt (s.core.rs p).isLt]
    exact hx
  have hcases : ∀ y : BitVec 2, y = 0#2 ∨ y = 1#2 ∨ y = 2#2 ∨ y = 3#2 := by decide
  change execNxstat d p g s = _
  rw [execNxstat, guarded_on hg]
  refine (if_neg hzero).trans ?_
  rw [hsel]
  rcases hcases sel with rfl | rfl | rfl | rfl <;> rfl

end

end Sys2Proof.Machine

namespace Sys2Proof.Rules

open Sys2Proof.Machine

/-- A descriptor's place decides between a trap and the queue, for each of the three commands. -/
theorem networkMessages : NetworkCommands := by
  intro d x g s t t1 t' off b m e values segs hg hs va traps
  have hwr : exec (.nxwr x g) s = issueMessage .wr none x s := show execNxwr x g s = _ from guarded_on hg _
  have hrd : exec (.nxrd x g) s = issueMessage .rd none x s := show execNxrd x g s = _ from guarded_on hg _
  have hamo : exec (.nxamo d x g) s = issueMessage .amo (some d) x s := show execNxamo d x g s = _ from guarded_on hg _
  refine ⟨fun h => ?_, fun ha hplain hloc => ?_, fun hloc ha hcap => ⟨?_, ?_, ?_⟩⟩
  · simp only [traps, hwr, hrd, hamo]
    exact ⟨issueMessage_shape h _ _, issueMessage_shape h _ _, issueMessage_shape h _ _⟩
  · simp only [traps, hwr, hrd, hamo]
    exact ⟨issueMessage_access hs ha hplain hloc _ _, issueMessage_access hs ha hplain hloc _ _,
      issueMessage_access hs ha hplain hloc _ _⟩
  · intro hm he hroce hv hc hroom
    obtain ⟨u, c, hu, henq, hbody, htok, -⟩ := submit_enqueues hroom
      (messageBody .wr { routedMessage m e values with segs := segs }) (accessDone_frame (x.access s.core))
    exact ⟨u, c, (hwr.trans (issueMessage_submits hs ha hloc hcap hm he hroce hv hc none)).trans hu, henq, htok, hbody⟩
  · intro hm he hroce hv hc hroom
    obtain ⟨u, c, hu, henq, hbody, htok, -⟩ := submit_enqueues hroom
      (messageBody .rd { routedMessage m e values with segs := segs }) (accessDone_frame (x.access s.core))
    exact ⟨u, c, (hrd.trans (issueMessage_submits hs ha hloc hcap hm he hroce hv hc none)).trans hu, henq, htok, hbody⟩
  · intro hm he hroce hv hc hroom
    obtain ⟨u, c, hu, henq, hbody, hwait⟩ := submit_awaits hroom
      (messageBody .amo { routedMessage m e values with segs := segs }) d (accessDone_frame (x.access s.core))
    exact ⟨u, c, (hamo.trans (issueMessage_submits hs ha hloc hcap hm he hroce hv hc (some d))).trans hu, henq, hwait, hbody⟩

/-- A counter's value decides between a hold and the join, and a selector's word is answered under a lock. -/
theorem networkWaits : NetworkWaits := by
  intro c v d p g s hg n x
  refine ⟨fun hn => ?_, fun hn hr => exec_nxwait_holds hg hn hr, fun hn hr => ?_, fun hx => ?_, fun hx => ?_⟩
  · rw [exec_nxwait hg, if_pos hn]
    exact trapsWith_trap s _
  · obtain ⟨u, hu, hsig, ⟨obs, hcore⟩, hbyte⟩ := exec_nxwait_passes hg hn hr
    exact ⟨u, hu, hsig, by rw [hcore], hbyte⟩
  · rw [exec_nxstat_reserved hg hx]
    exact trapsWith_trap s _
  · exact ⟨_, _, exec_nxstat hg hx rfl, congrArg fun sel => (nxstatWord s x sel).1, congrArg fun sel => (nxstatWord s x sel).1,
      congrArg fun sel => (nxstatWord s x sel).1⟩

/-- Settles O26: network commands queue their message, and NXWAIT and NXSTAT answer from the counters and paths. -/
theorem networkCommands : Obligations.NetworkCommands := ⟨networkMessages, networkWaits⟩

end Sys2Proof.Rules

/-! SUPPORT. Claims, translations, page responses and invalidations (R44, R337 to R342, R346): what the scheduler's own steps leave
of the active agent, of the launches and of the caches. -/

namespace Sys2Proof.Machine

open Sys2Proof

/-! ### Quiet steps: splice contexts, logs, reads and page requests leave agents, launches, saves and caches -/

/-- Two states of a die with the same launches, gangs, saves and caches. -/
structure DieState.Quiet (x y : DieState) : Prop where
  active : y.active = x.active
  saves : y.saves = x.saves
  tlb : y.tlb = x.tlb
  upper : y.upper = x.upper
  icache : y.icache = x.icache

/-- Two states with the same agents, time, launches, saves and caches. -/
structure Quiet (s t : State) : Prop where
  core : t.core = s.core
  coreId : t.coreId = s.coreId
  parked : t.parked = s.parked
  time : t.time = s.time
  die : ∀ e, (s.die e).Quiet (t.die e)

theorem Quiet.refl (s : State) : Quiet s s := ⟨rfl, rfl, rfl, rfl, fun _ => ⟨rfl, rfl, rfl, rfl, rfl⟩⟩

theorem Quiet.of_dies {s t : State} (core : t.core = s.core) (coreId : t.coreId = s.coreId) (parked : t.parked = s.parked)
    (time : t.time = s.time) (dies : t.dies = s.dies) : Quiet s t where
  core := core
  coreId := coreId
  parked := parked
  time := time
  die e := by
    simp only [State.die, dies]
    exact ⟨rfl, rfl, rfl, rfl, rfl⟩

theorem Quiet.trans {s t u : State} (h : Quiet s t) (k : Quiet t u) : Quiet s u where
  core := k.core.trans h.core
  coreId := k.coreId.trans h.coreId
  parked := k.parked.trans h.parked
  time := k.time.trans h.time
  die e := {
    active := (k.die e).active.trans (h.die e).active
    saves := (k.die e).saves.trans (h.die e).saves
    tlb := (k.die e).tlb.trans (h.die e).tlb
    upper := (k.die e).upper.trans (h.die e).upper
    icache := (k.die e).icache.trans (h.die e).icache }

theorem Quiet.foldl {α : Type} {g : State → α → State} (h : ∀ s x, Quiet s (g s x)) (l : List α) (s : State) :
    Quiet s (l.foldl g s) :=
  List.foldlRecOn (motive := Quiet s) l g (.refl s) fun _ ht x _ => ht.trans (h _ x)

/-- A change of a die is quiet if it keeps that die's launches, saves and caches. -/
theorem Quiet.setDie (s : State) (d : BitVec 2) {x : DieState} (h : (s.die d).Quiet x) : Quiet s (s.setDie d x) where
  core := rfl
  coreId := rfl
  parked := rfl
  time := rfl
  die e := by
    rw [State.die_setDie]
    split
    · rename_i hd
      exact hd ▸ h
    · exact (Quiet.refl s).die e

theorem Quiet.mapDie (s : State) (d : BitVec 2) {f : DieState → DieState} (h : (s.die d).Quiet (f (s.die d))) :
    Quiet s (s.mapDie d f) := .setDie s d h

theorem Quiet.raiseVector (s : State) (p : BitVec 2) (v : Nat) : Quiet s (raiseVector s p v) := by
  obtain ⟨_, _, h⟩ := raiseVector_frame s p v
  rw [h]
  exact .of_dies rfl rfl rfl rfl rfl

theorem Quiet.logCheck (s : State) (d : BitVec 2) (unit sev : BitVec 8) (loc : BitVec 16) (pa : Nat) :
    Quiet s (logCheck s d unit sev loc pa) := by
  refine Quiet.trans (Quiet.setDie s d ?_) (.raiseVector _ _ _)
  exact ⟨rfl, rfl, rfl, rfl, rfl⟩

theorem Quiet.routed (s : State) (d : BitVec 2) (bytes : List WByte) : Quiet s (routed s d bytes).2 := by
  simp only [Machine.routed]
  split
  · exact .logCheck s d _ _ _ _
  · exact .refl s

theorem Quiet.place (s : State) (d : BitVec 2) (p : Path) (core task prod : Nat) (rel : Option Release) (full : List Nat)
    (bytes : List WByte) : Quiet s (place s d p core task prod rel full bytes) :=
  Quiet.trans (.routed s d bytes) (.foldl
    (g := fun s g => placeOne s d p core task prod rel ((g.map (·.pa)).filter full.contains) g)
    (fun _ _ => .of_dies rfl rfl rfl rfl rfl) _ _)

theorem Quiet.readByte (s : State) (d : BitVec 2) (q : Path) (own : List Nat) (pa : Nat) :
    Quiet s (readByte s d q own pa).2 := by
  rcases readByte_frame s d q own pa with h | h <;> rw [h]
  · exact .refl s
  · exact .of_dies rfl rfl rfl rfl rfl

theorem Quiet.readBytes (d : BitVec 2) (q : Path) (own pas : List Nat) (s : State) : Quiet s (readBytes d q own pas s).2.2 := by
  induction pas generalizing own s with
  | nil => exact .refl s
  | cons pa r ih => exact (Quiet.readByte s d q own pa).trans (ih _ _)

theorem Quiet.logEvent (s : State) (d : BitVec 2) (core pasid : Nat) (wid : Word) (t : TrapInfo) :
    Quiet s (logEvent s d core pasid wid t) := by
  simp only [Machine.logEvent]
  rcases pushEvent_cases s d ⟨t, core, pasid, wid, s.time, false⟩ with ⟨_, h⟩ | ⟨_, h⟩ <;> rw [h] <;>
    exact .mapDie s d ⟨rfl, rfl, rfl, rfl, rfl⟩

/-! ### Splice contexts are quiet (R123 to R127) -/

theorem Quiet.setSplice (s : State) (d : BitVec 2) (n : Nat) (x : SplCtx) : Quiet s (setSplice s d n x) :=
  .mapDie s d ⟨rfl, rfl, rfl, rfl, rfl⟩

theorem Quiet.spliceWrite (s : State) (d : BitVec 2) (x : SplCtx) (bytes : List WByte) : Quiet s (spliceWrite s d x bytes) :=
  (Quiet.place s d .splice x.core x.task x.id none (bytes.map (·.pa)) bytes).trans
    (.of_dies rfl rfl rfl rfl rfl)

theorem Quiet.fallbackRow (s : State) (d : BitVec 2) (x : SplCtx) (i : Nat) : Quiet s (fallbackRow s d x i).2 := by
  unfold Machine.fallbackRow
  split
  · exact .refl s
  · exact .readBytes _ _ _ _ _

theorem Quiet.foldl_spliceWrite {α : Type} (d : BitVec 2) (x : SplCtx) (ws : List (List WByte × α)) (s : State) :
    Quiet s (ws.foldl (fun s w => Machine.spliceWrite s d x w.1) s) :=
  .foldl (fun s w => .spliceWrite s d x w.1) ws s

theorem Quiet.releaseToken (s : State) (d : BitVec 2) (n i core : Nat) : Quiet s (releaseToken s d n i core) := by
  have row (x : SplCtx) (subst : Bool) :
      Quiet s (if subst then Machine.fallbackRow s d x i else (([], false), s)).2 := by
    split
    · exact .fallbackRow s d x i
    · exact .refl s
  unfold Machine.releaseToken
  split
  · exact .refl s
  · exact (((row _ _).trans (.foldl_spliceWrite d _ _ _)).trans (.spliceWrite _ d _ _)).trans (.setSplice _ d n _)

theorem Quiet.orderToken (s : State) (d : BitVec 2) (n i : Nat) : Quiet s (orderToken s d n i) := by
  unfold Machine.orderToken
  split
  · exact .refl s
  · exact .setSplice s d n _

theorem Quiet.releaseHeld (s : State) (d : BitVec 2) (n : Nat) : Quiet s (releaseHeld s d n) := by
  unfold Machine.releaseHeld
  split
  · exact .refl s
  · split
    · exact .foldl (fun s i => .releaseToken s d n i _) _ _
    · exact .refl s

theorem Quiet.expire (s : State) (d : BitVec 2) (n : Nat) : Quiet s (expire s d n) := by
  simp only [Machine.expire]
  split
  · exact .refl s
  · refine Quiet.trans (Quiet.trans (.setSplice s d n _) (.foldl (fun s i => ?_) _ _)) (.releaseHeld _ d n)
    split
    · exact .refl s
    · exact (Quiet.setSplice s d n _).trans (.orderToken _ d n i)

theorem Quiet.expireDue (s : State) (d : BitVec 2) (n : Nat) : Quiet s (expireDue s d n) := by
  unfold Machine.expireDue
  split
  · exact .refl s
  · split
    · exact .expire s d n
    · exact .refl s

theorem Quiet.closeSplice (s : State) (d : BitVec 2) (n : Nat) : Quiet s (closeSplice s d n) :=
  .mapDie s d ⟨rfl, rfl, rfl, rfl, rfl⟩

theorem Quiet.closeTask (s : State) (c : CoreState) : Quiet s (closeTask s c) := by
  refine .foldl (fun s x => ?_) _ s
  simp only
  split
  · exact ((Quiet.expireDue s _ _).trans (.closeSplice _ _ _)).trans (.logEvent _ _ _ _ _ _)
  · exact .expireDue s _ _

/-! ### Requests for translations and pages are quiet (R337, R350) -/

theorem Quiet.addAts (s : State) (d : BitVec 2) (who : Asker) (reqs : List (Nat × Nat × Bool)) : Quiet s (addAts s d who reqs) := by
  unfold Machine.addAts
  split
  · exact .refl s
  · exact .mapDie s d ⟨rfl, rfl, rfl, rfl, rfl⟩

theorem Quiet.forgetAsker (s : State) (d : BitVec 2) (who : Asker) : Quiet s (forgetAsker s d who) := by
  unfold Machine.forgetAsker
  split
  · exact .mapDie s d ⟨rfl, rfl, rfl, rfl, rfl⟩
  · exact .refl s

theorem Quiet.retryPage (s : State) (d : BitVec 2) (who : Asker) (pasid p : Nat) : Quiet s (retryPage s d who pasid p) :=
  (Quiet.mapDie s d ⟨rfl, rfl, rfl, rfl, rfl⟩).trans (.addAts _ d who _)

theorem Quiet.endPri (s : State) (d : BitVec 2) (pasid : Nat) : Quiet s (endPri s d pasid) :=
  (Quiet.forgetAsker s d _).trans (.mapDie _ d ⟨rfl, rfl, rfl, rfl, rfl⟩)

theorem Quiet.addPri (s : State) (d : BitVec 2) (pasid : Nat) (pages : List Nat) : Quiet s (addPri s d pasid pages) := by
  refine .foldl (fun s p => ?_) pages s
  unfold addPri1
  split
  · exact .mapDie s d ⟨rfl, rfl, rfl, rfl, rfl⟩
  · exact .refl s

theorem Quiet.setCode (s : State) (d : BitVec 2) (slot : Nat) (seq : BitVec 16) (code : Nat) :
    Quiet s (setCode s d slot seq code) := by
  unfold Machine.setCode
  split
  · exact .mapDie s d ⟨rfl, rfl, rfl, rfl, rfl⟩
  · exact .refl s

theorem Quiet.tablePart (s : State) (d : BitVec 2) (pasid : Nat) (own : List Nat) (cs : List Claim) (va len : Nat) :
    Quiet s (tablePart s d pasid own cs va len).2.2 := by
  unfold Machine.tablePart
  simp only
  split
  · exact .refl s
  · split
    · exact .refl s
    · split <;> exact .refl s
    · split
      · exact .refl s
      · exact .readBytes _ _ _ _ _

theorem Quiet.checkTable (s : State) (d : BitVec 2) (pasid : Nat) (own : List Nat) (r : LaunchRec) :
    Quiet s (checkTable s d pasid own r).2 := by
  have part (s : State) (own : List Nat) (va len : Nat) {x : TabRead} (h : Machine.tablePart s d pasid own r.claims va len = x) :
      Quiet s x.2.2 := h ▸ .tablePart s d pasid own r.claims va len
  unfold Machine.checkTable
  simp only
  split
  · exact .refl s
  · split
    · exact part _ _ _ _ ‹_›
    · rename_i h
      have hhead := part _ _ _ _ h
      split
      · exact hhead
      · split
        · exact hhead.trans (part _ _ _ _ ‹_›)
        · exact hhead.trans (part _ _ _ _ ‹_›)

/-! ### What taking up a host record keeps (R326, R350) -/

/-- Two states with the same active agent, and with the same shared and image cache at every die. -/
structure CachesKept (s t : State) : Prop where
  core : t.core = s.core
  tlb : ∀ e, (t.die e).tlb = (s.die e).tlb
  icache : ∀ e, (t.die e).icache = (s.die e).icache

theorem Quiet.cachesKept {s t : State} (h : Quiet s t) : CachesKept s t :=
  ⟨h.core, fun e => (h.die e).tlb, fun e => (h.die e).icache⟩

theorem CachesKept.trans {s t u : State} (h : CachesKept s t) (k : CachesKept t u) : CachesKept s u :=
  ⟨k.core.trans h.core, fun e => (k.tlb e).trans (h.tlb e), fun e => (k.icache e).trans (h.icache e)⟩

theorem CachesKept.foldl {α : Type} {g : State → α → State} (h : ∀ s x, CachesKept s (g s x)) (l : List α) (s : State) :
    CachesKept s (l.foldl g s) :=
  List.foldlRecOn (motive := CachesKept s) l g (Quiet.refl s).cachesKept fun _ ht x _ => ht.trans (h _ x)

theorem CachesKept.mapDie (s : State) (d : BitVec 2) {f : DieState → DieState}
    (htlb : ∀ x, (f x).tlb = x.tlb) (hic : ∀ x, (f x).icache = x.icache) : CachesKept s (s.mapDie d f) where
  core := rfl
  tlb e := by
    rw [State.mapDie, State.die_setDie]
    split
    · rename_i hd
      rw [htlb, hd]
    · rfl
  icache e := by
    rw [State.mapDie, State.die_setDie]
    split
    · rename_i hd
      rw [hic, hd]
    · rfl

theorem CachesKept.refresh (s : State) : CachesKept s (refresh s) := by
  refine .foldl (g := refreshDie) (fun s d => ?_) allDies s
  simp only [refreshDie]
  refine .mapDie s d ?_ ?_ <;> exact fun _ => rfl

theorem CachesKept.enqueueLaunch (s : State) (d : BitVec 2) (slot pasid : Nat) (r : LaunchRec) (keep : Nat)
    (drains : List DrainRange) (preload : List Preload) (rels : List Release) :
    CachesKept s (enqueueLaunch s d slot pasid r keep drains preload rels) :=
  let h := CachesKept.mapDie s d (f := fun x => { x with active := { x.active with launches := x.active.launches ++ _ } })
    (fun _ => rfl) (fun _ => rfl)
  ⟨h.core, h.tlb, h.icache⟩

theorem CachesKept.takeRecord (s : State) (d : BitVec 2) (slot : Nat) (seq : BitVec 16) (b : List Byte) :
    CachesKept s (takeRecord s d slot seq b) := by
  have code (s : State) (n : Nat) : CachesKept s (setCode s d slot seq n) := (Quiet.setCode s d slot seq n).cachesKept
  have later (s : State) : CachesKept s
      (setCode (s.mapDie d fun x => { x with checks := x.checks ++ [⟨slot, seq, b⟩] }) d slot seq 0xFF) := by
    refine CachesKept.trans (.mapDie s d ?_ ?_) (code _ _) <;> exact fun _ => rfl
  have table {pasid : Nat} {r : LaunchRec} {x : TabCheck × State} (h : checkTable s d pasid [] r = x) : CachesKept s x.2 :=
    h ▸ (Quiet.checkTable s d pasid [] r).cachesKept
  simp only [Machine.takeRecord]
  split
  · exact code s 5
  · split
    · exact code s 5
    · split
      · exact code s 4
      · split
        · split
          · refine .trans (table ‹_›) (.trans ?_ (code _ _))
            exact (Quiet.endPri _ d _).cachesKept
          · refine .trans (table ‹_›) (.trans ?_ (later _))
            exact (Quiet.addAts _ d _ _).cachesKept
          · refine .trans (table ‹_›) ?_
            split
            · refine .trans ?_ (code _ _)
              exact (Quiet.endPri _ d _).cachesKept
            · refine .trans ?_ (later _)
              exact (Quiet.addPri _ d _ _).cachesKept
          · refine .trans (table ‹_›) (.trans (.trans ?_ (.refresh _)) (code _ _))
            exact (Quiet.endPri _ d _).cachesKept.trans (.enqueueLaunch _ d _ _ _ _ _ _ _)
        · exact code s _

theorem CachesKept.recheck (s : State) (d : BitVec 2) : CachesKept s (recheck s d) := by
  refine CachesKept.trans (.mapDie s d (f := fun x => { x with checks := [] }) ?_ ?_) (.foldl ?_ _ _)
  · exact fun _ => rfl
  · exact fun _ => rfl
  · exact fun s c => .takeRecord s d c.slot c.seq c.bytes

theorem ok_eq (s : State) : ok s = .next s.clear := rfl

theorem State.die_clear (s : State) (d : BitVec 2) : s.clear.die d = s.die d := rfl

/-! ### A launch of the list, after a change of that launch and after the dies judge their launches anew (R329) -/

/-- A launch stays in its die's list as the dies judge their launches: with its number, its lease and what it has found. -/
theorem refreshDie_launch (s : State) (e d : BitVec 2) {l : Launch} (h : l ∈ (s.die d).active.launches) :
    ∃ m ∈ ((refreshDie s e).die d).active.launches, m.id = l.id ∧ m.lease = l.lease ∧ m.found = l.found := by
  by_cases hd : e = d
  · subst hd
    simp only [refreshDie, State.die_mapDie_same]
    refine ⟨_, List.mem_map_of_mem h, ?_⟩
    split <;> exact ⟨rfl, rfl, rfl⟩
  · exact ⟨l, by rwa [refreshDie, State.die_mapDie_other _ _ _ _ hd], rfl, rfl, rfl⟩

theorem refresh_launch (s : State) (d : BitVec 2) {l : Launch} (h : l ∈ (s.die d).active.launches) :
    ∃ m ∈ ((refresh s).die d).active.launches, m.id = l.id ∧ m.lease = l.lease ∧ m.found = l.found := by
  refine List.foldlRecOn (motive := fun t : State => ∃ m ∈ (t.die d).active.launches, m.id = l.id ∧ m.lease = l.lease ∧
    m.found = l.found) allDies refreshDie ⟨l, h, rfl, rfl, rfl⟩ fun t ht e _ => ?_
  obtain ⟨m, hm, hid, hlease, hfound⟩ := ht
  obtain ⟨n, hn, hid', hlease', hfound'⟩ := refreshDie_launch t e d hm
  exact ⟨n, hn, hid'.trans hid, hlease'.trans hlease, hfound'.trans hfound⟩

theorem mapLaunch_launches (s : State) (d : BitVec 2) (id : Nat) (f : Launch → Launch) :
    ((mapLaunch s d id f).die d).active.launches = (s.die d).active.launches.map fun l => if l.id = id then f l else l := by
  simp [mapLaunch]

theorem mapLaunch_ats (s : State) (d : BitVec 2) (id : Nat) (f : Launch → Launch) :
    ((mapLaunch s d id f).die d).ats = (s.die d).ats := by
  simp [mapLaunch]

/-- A change of the launches of a number is a change of each of them in its list. -/
theorem mem_mapLaunch {s : State} {d : BitVec 2} {l : Launch} (h : l ∈ (s.die d).active.launches) (f : Launch → Launch) :
    f l ∈ ((mapLaunch s d l.id f).die d).active.launches := by
  rw [mapLaunch_launches]
  exact List.mem_map.2 ⟨l, h, if_pos rfl⟩

/-- A search finds the one element of a list that meets its test. -/
theorem find?_eq_some_of_unique {α : Type} {p : α → Bool} {l : List α} {x : α} (hx : x ∈ l) (hp : p x = true)
    (h : ∀ y ∈ l, p y = true → y = x) : l.find? p = some x := by
  obtain ⟨y, hy⟩ := Option.isSome_iff_exists.1 (List.find?_isSome.2 ⟨x, hx, hp⟩)
  rw [hy, h y (List.mem_of_find?_eq_some hy) (List.find?_some hy)]

/-! ### Requests for translations reach the die's list (R337) -/

/-- Whether a list of requests holds one of an asker. -/
def asksFor (l : List AtsReq) (who : Asker) (r : Nat × Nat × Bool) : Bool :=
  l.any fun q => q.pasid == r.1 && q.page == r.2.1 && q.exec == r.2.2 && q.askers.contains who

theorem asked_eq (s : State) (d : BitVec 2) (who : Asker) (reqs : List (Nat × Nat × Bool)) :
    asked s d who reqs = reqs.all (asksFor (s.die d).ats who) := rfl

theorem asksFor_askAts (l : List AtsReq) (who : Asker) (r : Nat × Nat × Bool) : asksFor (askAts l who r) who r = true := by
  simp only [askAts, asksFor]
  split
  · rename_i h
    obtain ⟨q, hq, hsame⟩ := List.any_eq_true.1 h
    refine List.any_eq_true.2 ⟨_, List.mem_map_of_mem hq, ?_⟩
    by_cases hc : who ∈ q.askers <;> simp_all
  · simp

/-- A request of an asker stays as it asks for more. -/
theorem asksFor_askAts_of_asksFor {l : List AtsReq} {who : Asker} {r : Nat × Nat × Bool} (h : asksFor l who r = true)
    (x : Nat × Nat × Bool) : asksFor (askAts l who x) who r = true := by
  obtain ⟨q, hq, hr⟩ := List.any_eq_true.1 h
  have hc : who ∈ q.askers := by
    simp only [Bool.and_eq_true, List.contains_eq_mem, decide_eq_true_eq] at hr
    exact hr.2
  simp only [askAts]
  split
  · exact List.any_eq_true.2 ⟨q, List.mem_map.2 ⟨q, hq, by simp [hc]⟩, hr⟩
  · exact List.any_eq_true.2 ⟨q, List.mem_append_left _ hq, hr⟩

theorem asksFor_foldl (who : Asker) (r : Nat × Nat × Bool) (reqs : List (Nat × Nat × Bool)) (l : List AtsReq)
    (h : asksFor l who r = true ∨ r ∈ reqs) : asksFor (reqs.foldl (fun l r => askAts l who r) l) who r = true := by
  induction reqs generalizing l with
  | nil => simpa using h
  | cons x reqs ih =>
    refine ih _ ?_
    rcases h with h | h
    · exact .inl (asksFor_askAts_of_asksFor h x)
    · rcases List.mem_cons.1 h with rfl | h
      · exact .inl (asksFor_askAts l who r)
      · exact .inr h

theorem asked_addAts (s : State) (d : BitVec 2) (who : Asker) (reqs : List (Nat × Nat × Bool)) :
    asked (addAts s d who reqs) d who reqs = true := by
  rw [asked_eq, List.all_eq_true]
  intro r hr
  have hne : reqs ≠ [] := List.ne_nil_of_mem hr
  simpa [addAts, hne] using asksFor_foldl who r reqs (s.die d).ats (.inr hr)

/-! ### A cancelled launch (R346) -/

/-- Every launch of a number in a die's active bank is cancelled. -/
def AllCancelled (d : BitVec 2) (id : Nat) (s : State) : Prop := ∀ m ∈ (s.die d).active.launches, m.id = id → m.cancelled = true

/-- A state whose launches at a die are among those of one that has them cancelled. -/
theorem AllCancelled.of_subset {d : BitVec 2} {id : Nat} {s t : State} (h : AllCancelled d id s)
    (hsub : (t.die d).active.launches ⊆ (s.die d).active.launches) : AllCancelled d id t := fun m hm => h m (hsub hm)

theorem AllCancelled.of_active {d : BitVec 2} {id : Nat} {s t : State} (h : AllCancelled d id s)
    (ht : (t.die d).active.launches = (s.die d).active.launches) : AllCancelled d id t := h.of_subset (ht ▸ List.Subset.refl _)

theorem AllCancelled.of_quiet {d : BitVec 2} {id : Nat} {s t : State} (h : AllCancelled d id s) (k : Quiet s t) :
    AllCancelled d id t := h.of_active (congrArg Bank.launches (k.die d).active)

/-- A change of launches that takes no cancelling back. -/
theorem AllCancelled.mapLaunch {d : BitVec 2} {id : Nat} {s : State} (h : AllCancelled d id s) {f : Launch → Launch}
    (hc : ∀ l, l.cancelled = true → (f l).cancelled = true) :
    AllCancelled d id (mapLaunch s d id f) := by
  intro m hm hm'
  rw [mapLaunch_launches] at hm
  obtain ⟨l, hl, rfl⟩ := List.mem_map.1 hm
  by_cases hl' : l.id = id
  · rw [if_pos hl']
    exact hc l (h l hl hl')
  · rw [if_neg hl'] at hm'
    contradiction

/-- A bank's change at a die that keeps its launches keeps those of every die. -/
theorem mapDie_launches (s : State) (d e : BitVec 2) {f : DieState → DieState}
    (h : ∀ x, (f x).active.launches = x.active.launches) :
    ((s.mapDie d f).die e).active.launches = (s.die e).active.launches := by
  rw [State.mapDie, State.die_setDie]
  split
  · rename_i hd
    rw [h, hd]
  · rfl

theorem mapGang_launches (s : State) (t : Task) (f : Gang → Gang) (e : BitVec 2) :
    ((mapGang s t f).die e).active.launches = (s.die e).active.launches := mapDie_launches s t.home e fun _ => rfl

theorem sweepGangs_launches (s : State) (d : BitVec 2) (id : Nat) (e : BitVec 2) :
    ((sweepGangs s d id).die e).active.launches = (s.die e).active.launches := mapDie_launches s d e fun _ => rfl

/-- Giving up a launch's saved tasks leaves it cancelled. -/
theorem AllCancelled.discardSaves {d : BitVec 2} {s : State} {l : Launch} (h : AllCancelled d l.id s) :
    AllCancelled d l.id (discardSaves s d l) := by
  unfold Machine.discardSaves
  refine .mapLaunch (.of_active ?_ (sweepGangs_launches _ d l.id d)) (fun _ hc => hc)
  refine List.foldlRecOn (motive := AllCancelled d l.id) allDies _ h fun s hs e _ => ?_
  refine List.foldlRecOn (motive := AllCancelled d l.id) _ _ hs fun s hs v _ => ?_
  have hclosed : AllCancelled d l.id (closeTask (s.mapDie e fun x => { x with saves := kdel x.saves v.1 }) v.2.core) := by
    refine .of_quiet (hs.of_active ?_) (.closeTask _ _)
    exact mapDie_launches s e d fun _ => rfl
  simp only
  split
  · exact .mapLaunch (hclosed.of_active (mapGang_launches _ _ _ d)) (fun _ hc => hc)
  · exact hclosed

theorem AllCancelled.dropOver {d : BitVec 2} {id : Nat} {s : State} (h : AllCancelled d id s) :
    AllCancelled d id (dropOver s d id) := by
  unfold Machine.dropOver
  split
  · split
    · refine h.of_subset ?_
      simp only [dropLaunch, State.die_mapDie_same]
      exact fun _ hm => (List.mem_filter.1 hm).1
    · exact h
  · exact h

/-- The state of a die's launches with those of a number marked as cancelled, after the record of R346. -/
def markCancelled (s : State) (d : BitVec 2) (l : Launch) (t : TrapInfo) : State :=
  mapLaunch (logEvent s d 0xFFFF l.pasid 0 t) d l.id fun l => { l with cancelled := true }

theorem cancelRunning_eq (s : State) (d : BitVec 2) (l : Launch) (t : TrapInfo) :
    cancelRunning s d l t = dropOver (discardSaves (markCancelled s d l t) d l) d l.id := rfl

theorem markCancelled_cancels (s : State) (d : BitVec 2) (l : Launch) (t : TrapInfo) :
    AllCancelled d l.id (markCancelled s d l t) := by
  intro m hm hm'
  rw [markCancelled, mapLaunch_launches] at hm
  obtain ⟨n, -, rfl⟩ := List.mem_map.1 hm
  split at hm' <;> split
  · rfl
  · contradiction
  · rfl
  · contradiction

theorem cancelRunning_cancels (s : State) (d : BitVec 2) (l : Launch) (t : TrapInfo) :
    AllCancelled d l.id (cancelRunning s d l t) := by
  rw [cancelRunning_eq]
  exact (markCancelled_cancels s d l t).discardSaves.dropOver

/-! ### A cancelled launch with no task left leaves its die -/

/-- Without a saved task of a launch there is none to give up. -/
theorem discardSaves_of_none {s : State} {d : BitVec 2} {l : Launch}
    (h : ∀ e, ∀ v ∈ (s.die e).saves, ∀ t, v.2.core.task = some t → t.launch ≠ l.id) :
    discardSaves s d l = mapLaunch (sweepGangs s d l.id) d l.id fun l => { l with drained := [] } := by
  have hnone (e : BitVec 2) :
      ((s.die e).saves.filter fun v => v.2.core.task.any fun t => t.launch == l.id && t.home == d) = [] := by
    rw [List.filter_eq_nil_iff]
    intro v hv hmine
    obtain ⟨t, ht, hl⟩ := (Option.any_eq_true _ _).1 hmine
    exact h e v hv t ht (by simp_all)
  have hfold (g : State → BitVec 2 → State) (h : ∀ e, g s e = s) : allDies.foldl g s = s := by
    refine List.foldlRecOn (motive := fun t : State => t = s) allDies g rfl ?_
    rintro _ rfl e -
    exact h e
  simp only [discardSaves]
  rw [hfold]
  intro e
  rw [hnone e]
  rfl

theorem findLaunch_congr {s t : State} {d : BitVec 2} (h : (t.die d).active.launches = (s.die d).active.launches) (id : Nat) :
    findLaunch t d id = findLaunch s d id := by
  simp only [findLaunch, h]

/-- A change of the launches of a number that keeps the number changes the launch that is found. -/
theorem findLaunch_mapLaunch (s : State) (d : BitVec 2) (id : Nat) {f : Launch → Launch} (hf : ∀ l, (f l).id = l.id) :
    findLaunch (mapLaunch s d id f) d id = (findLaunch s d id).map f := by
  have hid (l : Launch) : (if l.id = id then f l else l).id = l.id := by split <;> simp [hf]
  simp only [findLaunch, mapLaunch_launches, List.find?_map, Function.comp_def, hid]
  cases h : (s.die d).active.launches.find? fun l => l.id == id with
  | none => rfl
  | some l => simpa using fun hl => absurd (by simpa using List.find?_some h) hl

theorem not_mem_dropLaunch (s : State) (d : BitVec 2) (id : Nat) :
    ∀ m ∈ ((dropLaunch s d id).die d).active.launches, m.id ≠ id := by
  simp [dropLaunch]

/-- A launch all of whose placed tasks have ended, with none saved, is gone once it is cancelled. -/
theorem cancelRunning_drops {s : State} {d : BitVec 2} {l : Launch} (t : TrapInfo) (hl : findLaunch s d l.id = some l)
    (hend : l.ended = l.placed * l.plane.gsize)
    (hsaves : ∀ e, ∀ v ∈ (s.die e).saves, ∀ t, v.2.core.task = some t → t.launch ≠ l.id) :
    ∀ m ∈ ((cancelRunning s d l t).die d).active.launches, m.id ≠ l.id := by
  have hlog := Quiet.logEvent s d 0xFFFF l.pasid 0 t
  have hmark : findLaunch (markCancelled s d l t) d l.id = some { l with cancelled := true } := by
    rw [markCancelled, findLaunch_mapLaunch _ d l.id (by exact fun _ => rfl),
      findLaunch_congr (congrArg Bank.launches (hlog.die d).active), hl]
    rfl
  have hkept : ∀ e, ∀ v ∈ ((markCancelled s d l t).die e).saves, ∀ t, v.2.core.task = some t → t.launch ≠ l.id := by
    intro e
    rw [markCancelled, mapLaunch_saves, (hlog.die e).saves]
    exact hsaves e
  have hfind : findLaunch (discardSaves (markCancelled s d l t) d l) d l.id = some { l with cancelled := true, drained := [] } := by
    rw [discardSaves_of_none hkept, findLaunch_mapLaunch _ d l.id (by exact fun _ => rfl),
      findLaunch_congr (sweepGangs_launches _ d l.id d), hmark]
    rfl
  have hover : Launch.over { l with cancelled := true, drained := [] } = true := by simp [Launch.over, hend]
  rw [cancelRunning_eq, dropOver, hfind]
  simp only [hover, if_true]
  exact not_mem_dropLaunch _ d l.id

/-! ### Caches (R337, R342) -/

/-- A cache of at least one entry holds the entry that it has taken last, and never more entries than it has room for. -/
theorem mem_cacheEntry {n : Nat} (hn : 0 < n) (l : List TlbEntry) (e : TlbEntry) : e ∈ cacheEntry n l e := by
  simp only [cacheEntry]
  rw [List.drop_append_of_le_length (by simp; omega)]
  simp

theorem length_cacheEntry_le (n : Nat) (l : List TlbEntry) (e : TlbEntry) : (cacheEntry n l e).length ≤ n := by
  simp only [cacheEntry, List.length_drop]
  omega

theorem cacheSize_pos (c : Nat) : 0 < cacheSize c := by
  unfold cacheSize
  split <;> omega

/-- An answer enters the shared cache if it grants a read or a write. -/
theorem atsAnswer_tlb (x : DieState) (q : AtsReq) (e : TlbEntry) :
    (x.atsAnswer q e).tlb = if (e.r || e.w) = true then cacheEntry 8192 x.tlb e else x.tlb := by
  simp only [DieState.atsAnswer, apply_ite DieState.tlb, ite_self]

/-- An answer enters the image cache if a fetch asked and it may execute and read or write. -/
theorem atsAnswer_icache (x : DieState) (q : AtsReq) (e : TlbEntry) : (x.atsAnswer q e).icache =
    if q.exec = true ∧ e.x = true ∧ (e.r || e.w) = true then cacheEntry 8192 x.icache e else x.icache := by
  simp only [DieState.atsAnswer, apply_ite DieState.icache, ite_self, Bool.and_eq_true, and_assoc]

/-- An entry of the shared cache that refills another one. -/
theorem agendaMove_refill {s : State} {d : BitVec 2} {c : Nat} {e : TlbEntry} (hc : c ≤ schedulerCache) (he : e ∈ (s.die d).tlb) :
    agendaMove s (.refill d c e) = .next (s.setDie d { s.die d with
      upper := kset (s.die d).upper c (cacheEntry (cacheSize c) (kget [] (s.die d).upper c) e) }) := by
  simp [agendaMove, refillCache, hc, he]

theorem kget_kset {α : Type} (z : α) (l : List (Nat × α)) (x : Nat) (v : α) : kget z (kset l x v) x = v := by
  simp [kget_eq_kfind, kfind_kset]

/-- The accesses in flight that use an entry that an invalidation removes. -/
def usesRemoved (s : State) (pasid va size : Nat) : List (Nat × Nat × Nat) :=
  let gone := allDies.flatMap fun d => ((s.die d).translations.filter fun e => e.meets pasid va size).map fun e => (e.pa, e.size)
  ((s.coreId, s.core) :: s.parked).flatMap fun a =>
    if (a.2.task.map (·.pasid)) == some pasid then usesOf gone a.1 a.2 else []

/-- A bank whose launches have found no entry that an invalidation meets. -/
def Bank.unfound (b : Bank) (pasid va size : Nat) : Bank :=
  { b with launches := b.launches.map fun l => { l with found := l.found.filter fun e => !e.meets pasid va size } }

/-- A die without the entries that an invalidation meets. -/
def DieState.invalidated (x : DieState) (pasid va size : Nat) : DieState :=
  { x.forget (·.meets pasid va size) with
    icache := x.icache.filter fun e => !e.meets pasid va size
    active := Bank.unfound x.active pasid va size
    shadow := Bank.unfound x.shadow pasid va size }

/-- The dies without the entries that an invalidation meets. -/
def forgetEverywhere (s : State) (pasid va size : Nat) : State :=
  allDies.foldl (fun s d => s.mapDie d fun x => x.invalidated pasid va size) s

theorem exec_atsInvalidation {pasid va size : Nat} (s : State) (h : size ≤ 2 ^ 31) : exec (.atsInvalidation pasid va size) s =
    ok { forgetEverywhere s pasid va size with
      invals := (forgetEverywhere s pasid va size).invals ++ [⟨pasid, va, size, usesRemoved s pasid va size⟩] } := by
  change execAtsInvalidation pasid va size s = _
  exact if_neg (Nat.not_lt.2 h)

/-- No cache of translations of a die keeps an entry that an invalidation meets. -/
theorem not_meets_of_mem_invalidated {x : DieState} {pasid va size : Nat} {e : TlbEntry}
    (he : e ∈ (x.invalidated pasid va size).translations) : e.meets pasid va size = false := by
  simp only [DieState.translations, DieState.invalidated, DieState.forget, List.mem_append, List.mem_flatMap, List.mem_map] at he
  rcases he with ⟨_, ⟨c, -, rfl⟩, he⟩ | he
  · simpa using (List.mem_filter.1 he).2
  · simpa using (List.mem_filter.1 he).2

/-- A change of every die changes each of them once. -/
theorem die_foldl_mapDie {ds : List (BitVec 2)} (hnd : ds.Nodup) (s : State) (f : DieState → DieState) (e : BitVec 2) :
    (ds.foldl (fun s d => s.mapDie d f) s).die e = if e ∈ ds then f (s.die e) else s.die e := by
  induction ds generalizing s with
  | nil => rfl
  | cons d ds ih =>
    obtain ⟨hd, hnd⟩ := List.nodup_cons.1 hnd
    rw [List.foldl_cons, ih hnd]
    by_cases he : d = e
    · subst he
      simp [hd]
    · simp [State.die_mapDie_other _ _ _ _ he, Ne.symm he]

theorem die_foldl_allDies (s : State) (f : DieState → DieState) (e : BitVec 2) :
    (allDies.foldl (fun s d => s.mapDie d f) s).die e = f (s.die e) := by
  have hall : ∀ e : BitVec 2, e ∈ allDies := by decide
  rw [die_foldl_mapDie (by decide) s f e, if_pos (hall e)]

end Sys2Proof.Machine

namespace Sys2Proof.Rules

open Sys2Proof.Machine

theorem claimResidency : ClaimResidency := by
  intro die id s l segs hl huniq hid hlease hc hrev hswap pages
  have hfind : (s.die die).active.launches.find? (fun l => l.id == id && l.lease.isNone && !l.cancelled &&
      !revoked s (partOfDie s.xd0.mode die) l && !swapping s (partOfDie s.xd0.mode die)) = some l := by
    refine find?_eq_some_of_unique hl (by simp [hid, hlease, hc, hrev, hswap]) fun m hm hp => huniq m hm ?_
    simp only [Bool.and_eq_true, beq_iff_eq] at hp
    exact hp.1.1.1.1
  refine ⟨fun hok hroom => ?_, fun reqs hmiss hask => ?_⟩
  · have hl' : l ∈ ((forgetAsker s die (.lease id)).die die).active.launches := by
      rwa [((Quiet.forgetAsker s die _).die die).active]
    obtain ⟨m, hm, hmid, hml, -⟩ := refresh_launch _ die
      (mem_mapLaunch hl' fun l => { l with lease := some pages, held := segs, pri := [], found := [] })
    subst hid
    have hrun : exec (.claimResidency die l.id) s = ok (refresh (mapLaunch (forgetAsker s die (.lease l.id)) die l.id
        fun l => { l with lease := some pages, held := segs, pri := [], found := [] })) := by
      change execClaimResidency die l.id s = _
      simp only [execClaimResidency, hfind, hok]
      exact if_neg (Nat.not_lt.2 hroom)
    exact ⟨_, hrun.trans (ok_eq _), m, by rwa [State.die_clear], hmid, hml⟩
  · have hl' : l ∈ ((addAts s die (.lease id) reqs).die die).active.launches := by
      rwa [((Quiet.addAts s die _ _).die die).active]
    have hm := mem_mapLaunch hl' fun m => { m with found := foundPages (s.die die) l }
    subst hid
    have hrun : exec (.claimResidency die l.id) s = ok (mapLaunch (addAts s die (.lease l.id) reqs) die l.id
        fun m => { m with found := foundPages (s.die die) l }) := by
      change execClaimResidency die l.id s = _
      simp only [execClaimResidency, hfind, hmiss, hask, Bool.false_and, Bool.false_eq_true, if_false]
    refine ⟨_, hrun.trans (ok_eq _), ?_⟩
    rw [asked_eq, State.die_clear, mapLaunch_ats, ← asked_eq]
    exact ⟨asked_addAts s die (.lease l.id) reqs, _, hm, rfl, rfl, hlease⟩

theorem translationArrives : TranslationArrives := by
  intro die r s q hsize hva haddr hq bar key e
  have hkey : busKey s (partOfDie s.xd0.mode die) r.addr = key := by
    simp only [busKey, Bool.and_eq_true, decide_eq_true_eq]
    rfl
  have hrun : exec (.atsCompletion die r) s = ok (recheck (s.mapDie die fun x => x.atsAnswer q e) die) := by
    change execAtsCompletion die r s = _
    simp only [execAtsCompletion, hsize, hva, haddr, hq, hkey]
    rfl
  have hkept := CachesKept.recheck (s.mapDie die fun x => x.atsAnswer q e) die
  have hic := (hkept.icache die).trans (congrArg DieState.icache (State.die_mapDie_same s die _))
  have htlb := (hkept.tlb die).trans (congrArg DieState.tlb (State.die_mapDie_same s die _))
  refine ⟨_, hrun, hkept.core, fun hx hrx hrw => ?_, fun h => ?_, fun hrw => ?_, fun c hc x hx => ?_⟩
  · refine (congrArg (e ∈ ·) hic).mpr ?_
    rw [atsAnswer_icache, if_pos ⟨hx, hrx, hrw⟩]
    exact mem_cacheEntry (by omega) _ e
  · refine hic.trans ?_
    rw [atsAnswer_icache, if_neg]
    rintro ⟨hx, hrx, hrw⟩
    rcases h with ⟨-, h⟩ | h
    · exact Bool.false_ne_true (h.symm.trans hrx)
    · exact Bool.false_ne_true (h.symm.trans hrw)
  · refine (congrArg (e ∈ ·) htlb).mpr ?_
    rw [atsAnswer_tlb, if_pos hrw]
    exact mem_cacheEntry (by omega) _ e
  · refine ⟨List.mem_append_right _ hx, _, agendaMove_refill hc hx, ?_⟩
    simp only [State.die_setDie_same, kget_kset, State.setDie_core, and_true, true_and]
    exact ⟨mem_cacheEntry (cacheSize_pos c) _ x, length_cacheEntry_le (cacheSize c) _ x⟩

theorem pageResponses : PageResponses := by
  intro die id page s l hl
  have hid : l.id = id := by
    have h := List.find?_some hl
    simp only [Bool.and_eq_true, beq_iff_eq] at h
    exact h.1
  subst hid
  refine ⟨?_, ?_⟩
  · have hask := asked_addAts ((mapLaunch s die l.id fun l => { l with pri := answerPage l.pri page true }).mapDie die
      fun x => { x with atsFail := x.atsFail.filter (· != (.lease l.id, l.pasid, page)) }) die (.lease l.id) [(l.pasid, page, false)]
    rw [asked_eq] at hask
    simp only [List.all_cons, List.all_nil, Bool.and_true, asksFor, List.any_eq_true, Bool.and_eq_true, beq_iff_eq,
      List.contains_eq_mem, decide_eq_true_eq] at hask
    obtain ⟨q, hq, ⟨⟨hp, hpage⟩, hx⟩, hwho⟩ := hask
    have hrun : exec (.pageResponse die l.id page true) s = ok (retryPage
        (mapLaunch s die l.id fun l => { l with pri := answerPage l.pri page true }) die (.lease l.id) l.pasid page) := by
      change execPageResponse die l.id page true s = _
      simp only [execPageResponse, hl, if_true]
    exact ⟨_, q, hrun.trans (ok_eq _), hq, hp, hpage, hx, hwho⟩
  · have hrun : exec (.pageResponse die l.id page false) s =
        ok (cancelLaunch (forgetAsker s die (.lease l.id)) die l 0x14 2 (BitVec.ofNat 64 page)) := by
      change execPageResponse die l.id page false s = _
      simp only [execPageResponse, hl, Bool.false_eq_true, if_false]
    have hquiet := Quiet.forgetAsker s die (.lease l.id)
    refine ⟨_, hrun.trans (ok_eq _), ?_⟩
    rw [State.die_clear, cancelLaunch]
    refine ⟨cancelRunning_cancels _ die l _, fun hfind hend hsaves => cancelRunning_drops _ ?_ hend fun e => ?_⟩
    · rwa [findLaunch_congr (congrArg Bank.launches (hquiet.die die).active)]
    · rw [(hquiet.die e).saves]
      exact hsaves e

theorem invalidations : Invalidations := by
  intro pasid va size s
  refine ⟨fun hsize => ?_, fun i rest hi hstakes huses => ?_⟩
  · have hdie (d : BitVec 2) : (forgetEverywhere s pasid va size).die d = (s.die d).invalidated pasid va size :=
      die_foldl_allDies s _ d
    have hinv : (forgetEverywhere s pasid va size).invals = s.invals := foldl_keeps (·.invals) _ (fun _ _ => rfl) allDies s
    have hcore : (forgetEverywhere s pasid va size).core = s.core := foldl_keeps (·.core) _ (fun _ _ => rfl) allDies s
    refine ⟨_, ⟨pasid, va, size, usesRemoved s pasid va size⟩, (exec_atsInvalidation s hsize).trans (ok_eq _), ?_, rfl, rfl, rfl,
      fun d => ?_, hcore⟩
    · rw [hinv]
      rfl
    rw [State.die_clear]
    refine ⟨?_, ?_, ?_⟩
    · exact congrArg DieState.tlb (hdie d)
    · intro e he
      exact not_meets_of_mem_invalidated ((hdie d) ▸ he)
    · exact congrArg DieState.icache (hdie d)
  · change execInvalidationCompletion s = _
    have hnone : ((allStakes s).any fun p => p.meets i.pasid i.va i.size) = false := by
      rw [List.any_eq_false]
      exact fun p hp => Bool.eq_false_iff.1 (hstakes p hp)
    have hall : i.uses.all (performed s) = true := List.all_eq_true.2 huses
    simp only [execInvalidationCompletion, hi, List.find?_cons, hnone, hall, Bool.not_false, Bool.and_true, List.erase_cons_head]
    rfl

/-- Settles O31: each clause by its own lemma; what the scheduler's steps keep of launches and caches is said once (`Quiet`,
`CachesKept`). -/
theorem translations : Obligations.Translations := ⟨claimResidency, translationArrives, pageResponses, invalidations⟩

end Sys2Proof.Rules

/-! SUPPORT. What a slot instruction leaves as it issues (R52, R54, R141): first the operations that the meanings share, then the
checks and captures before them, then each family of instructions. -/

namespace Sys2Proof.Machine

open Sys2Proof

/-! ### What is left -/

/-- The registers that change only as a result lands or as a bundle completes. -/
def CoreState.landed (c : CoreState) :=
  (c.s, c.a, c.m, c.v, c.k, c.g, c.fmt, c.fflags, c.tstat, c.pc, c.bcnt, c.dpc, c.dbgctl)

/-- From `s` to `t` no register and no other agent has changed, nor the accumulators unless `acc` excepts them, nor the weight
buffer unless `wbuf` does. -/
structure Leaves (acc wbuf : Bool) (s t : State) : Prop where
  regs : t.core.landed = s.core.landed
  coreId : t.coreId = s.coreId
  parked : t.parked = s.parked
  time : t.time = s.time
  acc : acc = false → t.core.acc = s.core.acc
  wbuf : wbuf = false → t.core.wbuf = s.core.wbuf

/-- An answer whose next state, if it is one, leaves what `Leaves` says. -/
def Frames (acc wbuf : Bool) (s : State) (r : Res) : Prop := ∀ t, r = .next t → Leaves acc wbuf s t

section
variable {A W : Bool} {s t u : State}

theorem Leaves.refl (s : State) : Leaves A W s s := ⟨rfl, rfl, rfl, rfl, fun _ => rfl, fun _ => rfl⟩

theorem Leaves.trans (h : Leaves A W s t) (k : Leaves A W t u) : Leaves A W s u where
  regs := k.regs.trans h.regs
  coreId := k.coreId.trans h.coreId
  parked := k.parked.trans h.parked
  time := k.time.trans h.time
  acc hA := (k.acc hA).trans (h.acc hA)
  wbuf hW := (k.wbuf hW).trans (h.wbuf hW)

theorem Leaves.foldl {α : Type} {g : State → α → State} (h : ∀ s x, Leaves A W s (g s x)) (l : List α) (s : State) :
    Leaves A W s (l.foldl g s) :=
  List.foldlRecOn (motive := Leaves A W s) l g (.refl s) fun _ ht x _ => ht.trans (h _ x)

/-- A step that keeps the active agent's state keeps what it holds. -/
theorem Leaves.of_core (core : t.core = s.core) (coreId : t.coreId = s.coreId) (parked : t.parked = s.parked)
    (time : t.time = s.time) : Leaves A W s t :=
  ⟨congrArg _ core, coreId, parked, time, fun _ => congrArg _ core, fun _ => congrArg _ core⟩

theorem Quiet.leaves (h : Quiet s t) : Leaves A W s t := .of_core h.core h.coreId h.parked h.time

theorem Leaves.ite {c : Prop} [Decidable c] (ht : Leaves A W s t) (hu : Leaves A W s u) :
    Leaves A W s (if c then t else u) := by
  split
  · exact ht
  · exact hu

/-! ### Shared operations -/

theorem Leaves.later (h : Leaves A W s u) (lat : Nat) (w : RegWrite) : Leaves A W s (later u lat w) := by
  refine h.trans ?_
  rcases later_cases u lat w with e | e <;> rw [e]
  · exact .refl u
  · exact ⟨rfl, rfl, rfl, rfl, fun _ => rfl, fun _ => rfl⟩

theorem Leaves.laterEnv (h : Leaves A W s u) (lat : Nat) (w : RegWrite) (e : Env) : Leaves A W s (laterEnv u lat w e) := by
  refine .later (.later ?_ lat w) lat _
  exact h.trans ⟨rfl, rfl, rfl, rfl, fun _ => rfl, fun _ => rfl⟩

theorem Leaves.lock (h : Leaves A W s u) (r : List RegRef) (x : Option (List RegWrite)) (n : Option (BitVec 3)) :
    Leaves A W s (lock u r x n).2 := h.trans ⟨rfl, rfl, rfl, rfl, fun _ => rfl, fun _ => rfl⟩

theorem Leaves.count (h : Leaves A W s u) (i : BitVec 3) (d : BitVec 16) : Leaves A W s { u with core := u.core.count i d } :=
  h.trans ⟨rfl, rfl, rfl, rfl, fun _ => rfl, fun _ => rfl⟩

theorem Leaves.done (h : Leaves A W s u) (x : Access) : Leaves A W s (x.done u) := by
  unfold Access.done
  split
  · exact h.later 1 _
  · exact h

theorem Leaves.jumpTo (h : Leaves A W s u) (target : Word) (pops : Bool) : Leaves A W s (jumpTo u target pops) :=
  h.trans ⟨rfl, rfl, rfl, rfl, fun _ => rfl, fun _ => rfl⟩

theorem Leaves.setLadder (h : Leaves A W s u) (l : BitVec 2) (x : Ladder) : Leaves A W s (u.setCore (u.core.setLadder l x)) :=
  h.trans ⟨rfl, rfl, rfl, rfl, fun _ => rfl, fun _ => rfl⟩

theorem Leaves.enqueue (h : Leaves A W s u) (stream : BitVec 4) (gs : List (List WByte)) (setFe : Bool) (rel : Option Scope)
    (counts : Bool) : Leaves A W s (enqueue u stream gs setFe rel counts) :=
  h.trans ⟨rfl, rfl, rfl, rfl, fun _ => rfl, fun _ => rfl⟩

theorem Leaves.issueLoad (h : Leaves A W s u) (stream : BitVec 4) (todo : List (Nat × Nat × Nat)) (shape : LoadShape)
    (acq : Option Scope) (atomic : Option (AtomicOp × Bool)) : Leaves A W s (issueLoad u stream todo shape acq atomic) := by
  refine h.trans ?_
  rw [issueLoad_eq]
  exact ⟨rfl, rfl, rfl, rfl, fun _ => rfl, fun _ => rfl⟩

theorem Leaves.settle (h : Leaves A W s u) : Leaves A W s (settle u) :=
  h.trans (.of_core (settle_core u) (settle_coreId u) (settle_keeps (·.parked) (fun _ _ _ _ => rfl) u)
    (settle_keeps (·.time) (fun _ _ _ _ => rfl) u))

theorem Leaves.coreRead (st : BitVec 4) (n : Nat) (pas : List Nat) (s : State) : Leaves A W s (coreRead st n pas s).2 := by
  obtain ⟨_, _, _, e⟩ := coreRead_frame st n pas s
  rw [e]
  exact ⟨rfl, rfl, rfl, rfl, fun _ => rfl, fun _ => rfl⟩

theorem Leaves.applyAt (s : State) (d : BitVec 2) (id : Nat) : Leaves A W s (applyAt s d id) := by
  refine .of_core (applyAt_core s d id) ?_ ?_ ?_ <;>
  · simp only [Machine.applyAt]
    split
    · split <;> rfl
    · rfl

theorem Leaves.drainIq (s : State) (d : BitVec 2) : Leaves A W s (drainIq s d) := .foldl (fun s id => .applyAt s d id) _ s

theorem Leaves.joinAt (s : State) (d : BitVec 2) (ps : List Path) (sel : Write → Bool) : Leaves A W s (joinAt s d ps sel) :=
  .of_core rfl rfl rfl rfl

theorem Leaves.acquire (sc : Scope) (s : State) (r : Release) : Leaves A W s (acquire sc s r) := by
  unfold Machine.acquire
  split
  · cases sc
    case package | system =>
      refine .trans ?_ (.drainIq _ _)
      exact ⟨rfl, rfl, rfl, rfl, fun _ => rfl, fun _ => rfl⟩
    all_goals exact ⟨rfl, rfl, rfl, rfl, fun _ => rfl, fun _ => rfl⟩
  · exact .refl s

theorem Leaves.handOff (s : State) (gr : Nat) : Leaves A W s (handOff s gr) :=
  ⟨rfl, rfl, rfl, rfl, fun _ => rfl, fun _ => rfl⟩

theorem Leaves.joinCore (s : State) (ids : List Nat) : Leaves A W s (joinCore s ids) :=
  ⟨rfl, rfl, rfl, rfl, fun _ => rfl, fun _ => rfl⟩

/-! ### Answers -/

theorem Frames.ok (h : Leaves A W s u) : Frames A W s (ok u) := by
  rintro _ ⟨⟩
  exact h.trans (.of_core rfl rfl rfl rfl)

theorem Frames.trap (h : Leaves A W s u) (t : TrapInfo) : Frames A W s (trap u t) := by
  rintro _ ⟨⟩
  exact h.trans (.of_core rfl rfl rfl rfl)

theorem Frames.hold (h : Leaves A W s u) (w : Hold) : Frames A W s (hold u w) := by
  rintro _ ⟨⟩
  exact h.trans (.of_core rfl rfl rfl rfl)

theorem Frames.holdAts (h : Leaves A W s u) (reqs : List (Nat × Nat × Bool)) : Frames A W s (holdAts u reqs) := by
  rintro _ ⟨⟩
  exact h.trans (.of_core rfl rfl rfl rfl)

theorem Frames.stepped (h : Leaves A W s u) : Frames A W s (stepped u) := .ok h.settle

theorem Frames.ite {c : Prop} [Decidable c] {a b : Res} (ha : Frames A W s a) (hb : Frames A W s b) :
    Frames A W s (if c then a else b) := by
  split
  · exact ha
  · exact hb

/-! ### Checks and captures before the effect (R157, R229) -/

theorem Frames.guarded {g : GuardF} {k : State → Res} (hk : Frames A W s (k s)) : Frames A W s (guarded g s k) :=
  .ite hk (.ok (.refl s))

theorem Frames.withRnd (h : Leaves A W s u) {k : Env → Res} (hk : ∀ e, Frames A W s (k e)) : Frames A W s (withRnd u k) :=
  .ite (.trap h _) (hk _)

theorem Frames.withSel (h : Leaves A W s u) (sel : BitVec 3) {k : Env → Res} (hk : ∀ e, Frames A W s (k e)) :
    Frames A W s (withSel u sel k) := .ite (.withRnd h hk) (hk _)

theorem Frames.withChecked (h : Leaves A W s u) {c : Checked} {k : List Seg → Res} (hk : ∀ segs, Frames A W s (k segs)) :
    Frames A W s (withChecked u c k) := by
  rcases withChecked_cases u c k with ⟨segs, -, e⟩ | ⟨r, -, e⟩ | ⟨t, -, e⟩ <;> rw [e]
  · exact hk segs
  · exact .holdAts h r
  · exact .trap h t

theorem Frames.withBytes (h : Leaves A W s u) {n : Need} {rs : List (Nat × Nat × Nat)} {k : List (Nat × Nat) → Res}
    (hk : ∀ bs, Frames A W s (k bs)) : Frames A W s (withBytes u n rs k) := .withChecked h fun _ => hk _

theorem Frames.withLanes (h : Leaves A W s u) {w : Nat} {k : Nat × Nat → Checked} {ls : List (Nat × Nat)} {f : Unit → Res}
    (hf : Frames A W s (f ())) : Frames A W s (withLanes u w k ls f) := .withChecked h fun _ => hf

theorem Frames.withRace (h : Leaves A W s u) {pas : List Nat} {k : Unit → Res} (hk : Frames A W s (k ())) :
    Frames A W s (withRace u pas k) := by
  rcases withRace_cases u pas k with e | ⟨t, e⟩ <;> rw [e]
  · exact hk
  · exact .trap h t

theorem Frames.withEarly (h : Leaves A W s u) {pas : List Nat} {k : Unit → Res} (hk : Frames A W s (k ())) :
    Frames A W s (withEarly u pas k) := by
  rcases withEarly_cases u pas k with e | ⟨t, e⟩ <;> rw [e]
  · exact hk
  · exact .trap h t

theorem Frames.withRead0 (h : Leaves A W s u) {pas : List Nat} {k : List ReadByte → State → Res}
    (hk : ∀ bs t, Leaves A W s t → Frames A W s (k bs t)) : Frames A W s (withRead0 u pas k) := by
  rcases withRead0_cases u pas k with e | e | ⟨t, e⟩ <;> rw [e]
  · exact hk _ _ (h.trans (.coreRead _ _ _ u))
  · exact .hold h _
  · exact .trap h t

theorem Frames.withFull (h : Leaves A W s u) {pas : List Nat} {clr : Bool} {k : State → Res}
    (hk : ∀ t, Leaves A W s t → Frames A W s (k t)) : Frames A W s (withFull u pas clr k) := by
  rcases withFull_cases u pas clr k with ⟨t, rfl, e⟩ | e <;> rw [e]
  · have hfull : Leaves A W s ((granulesOf pas).foldl handOff u) :=
      h.trans (.foldl .handOff _ u)
    split
    · exact hk _ (hfull.trans (.of_core rfl rfl rfl rfl))
    · exact hk _ hfull
  · exact .hold h _

theorem Frames.withChain (h : Leaves A W s u) {l : BitVec 2} {k : Unit → Res} (hk : Frames A W s (k ())) :
    Frames A W s (withChain u l k) := .ite (.hold h _) hk

theorem Frames.withAccess (h : Leaves A W s u) {m : MemOp} {k : Access → Res} (hk : ∀ x, Frames A W s (k x)) :
    Frames A W s (withAccess u m k) := by
  rcases withAccess_cases u m k with ⟨x, -, e⟩ | ⟨-, e⟩ <;> rw [e]
  · exact hk x
  · exact .trap h _

theorem Frames.capture (h : Leaves A W s u) {va len : Nat} {k : List Byte → State → Res}
    (hk : ∀ b t, Leaves A W s t → Frames A W s (k b t)) : Frames A W s (capture u va len k) := by
  refine .withChecked h fun segs => .withRead0 h fun bs t ht => ?_
  simp only
  split
  · exact .trap h _
  · exact hk _ _ (ht.trans (.of_core rfl rfl rfl rfl))

theorem Frames.captureHandle (h : Leaves A W s u) {n : BitVec 8} {k : RawRec → State → Res}
    (hk : ∀ r t, Leaves A W s t → Frames A W s (k r t)) : Frames A W s (captureHandle u n k) :=
  .ite (hk _ u h) (.capture h fun _ t ht => .ite (hk _ t ht) (.capture ht fun _ t ht => hk _ t ht))

theorem Frames.captureHandles {hs : List (BitVec 8)} (h : Leaves A W s u) {k : List RawRec → State → Res}
    (hk : ∀ rs t, Leaves A W s t → Frames A W s (k rs t)) : Frames A W s (captureHandles hs u k) := by
  induction hs generalizing u k with
  | nil => exact hk [] u h
  | cons n hs ih => exact .captureHandle h fun r t ht => ih ht fun rs t ht => hk (r :: rs) t ht

theorem Frames.withShapes (h : Leaves A W s u) {rs : List RawRec} {k : List Shape → Res}
    (hk : ∀ xs, Frames A W s (k xs)) : Frames A W s (withShapes u rs k) := by
  induction rs generalizing k with
  | nil => exact hk []
  | cons r rs ih =>
    unfold Machine.withShapes
    split
    · exact ih fun xs => hk _
    · exact .trap h _

theorem Frames.captureLocator (h : Leaves A W s u) {va : Nat} {k : Locator → State → Res}
    (hk : ∀ l t, Leaves A W s t → Frames A W s (k l t)) : Frames A W s (captureLocator u va k) := by
  refine .ite (.trap h _) (.withChecked h fun segs => .capture h fun b t ht => ?_)
  split
  · exact .trap ht _
  · exact hk _ t ht

theorem Frames.withTable (h : Leaves A W s u) {l : Locator} {n : Need} {ovs : Nat} {k : Locator → Res}
    (hk : ∀ l, Frames A W s (k l)) : Frames A W s (withTable u l n ovs k) :=
  .withChecked h fun _ => .withChecked h fun _ => hk _

/-- A command enters its queue (R229, R232). -/
theorem Frames.submit (h : Leaves A W s u) (p : Path) (b : CmdBody) (segs : List Seg) (dest : Option (BitVec 6))
    (f : Cmd → Cmd) {fin : State → State} (hfin : ∀ t, Leaves A W s t → Leaves A W s (fin t)) :
    Frames A W s (submit u p b segs dest f fin) := by
  refine .ite (.hold h _) (.ok (hfin _ ?_))
  cases dest
  · exact h.trans ⟨rfl, rfl, rfl, rfl, fun _ => rfl, fun _ => rfl⟩
  · exact h.trans ⟨rfl, rfl, rfl, rfl, fun _ => rfl, fun _ => rfl⟩

/-! ### Slot 0 (R160 to R184) -/

theorem frames_scalarOut (g : GuardF) (lat : Nat) (d : BitVec 6) (f : CoreState → Word) : Frames A W s (scalarOut g lat d f s) :=
  .guarded (.ok (.later (.refl s) _ _))

theorem frames_srOut (o : SR) (lat : Nat) (f : Word → Word → Word) : Frames A W s (srOut o lat f s) := frames_scalarOut _ _ _ _

theorem frames_shiftOut (o : SR) (f : Word → Nat → Word) : Frames A W s (shiftOut o f s) := frames_scalarOut _ _ _ _

theorem frames_divOut (o : SR) (f : Word → Word → Word) : Frames A W s (divOut o f s) := .guarded (.ok (.lock (.refl s) _ _ _))

theorem frames_guardOut (g : GuardF) (d : BitVec 6) (f : CoreState → Bool) : Frames A W s (guardOut g d f s) :=
  .guarded (.ok (.later (.refl s) _ _))

theorem frames_floatOut (o : SR3) (f : CoreState → Env → Nat × Env) : Frames A W s (floatOut o f s) :=
  .guarded (.withRnd (.refl s) fun _ => .ok (.laterEnv (.refl s) _ _ _))

theorem frames_fcvt (d a : BitVec 6) (tt ss : Ty) (g : GuardF) : Frames A W s (execFcvt d a tt ss g s) :=
  .guarded (.withRnd (.refl s) fun _ => .ok (.laterEnv (.refl s) _ _ _))

theorem frames_br (disp : BitVec 22) (g : GuardF) : Frames A W s (execBr disp g s) := .guarded (.ok (.jumpTo (.refl s) _ _))

theorem frames_indirect (x : Word) (pops : Bool) : Frames A W s (indirect s x pops) :=
  .ite (.ok (.jumpTo (.refl s) _ _)) (.trap (.refl s) _)

theorem frames_jmp (a : BitVec 6) (g : GuardF) : Frames A W s (execJmp a g s) := .guarded (frames_indirect _ _)

theorem frames_call (disp : BitVec 22) (g : GuardF) : Frames A W s (execCall disp g s) :=
  .guarded (.ok (.jumpTo (.later (.refl s) _ _) _ _))

theorem frames_ret (g : GuardF) : Frames A W s (execRet g s) := .guarded (frames_indirect _ _)

theorem frames_openLoop (n : Word) (disp : BitVec 10) : Frames A W s (openLoop s n disp) :=
  .ite (.ok (.jumpTo (.refl s) _ _)) (.ite (.trap (.refl s) _) (.ok ⟨rfl, rfl, rfl, rfl, fun _ => rfl, fun _ => rfl⟩))

theorem frames_setfmt (a : BitVec 6) (g : GuardF) : Frames A W s (execSetfmt a g s) :=
  .guarded (.ite (.ok (.later (.refl s) _ _)) (.trap (.refl s) _))

theorem frames_getid (d n : BitVec 6) (g : GuardF) : Frames A W s (execGetid d n g s) := .guarded (.ok (.later (.refl s) _ _))

theorem frames_hops (o : SR3) : Frames A W s (execHops o s) := .guarded (.ok (.later (.refl s) _ _))

theorem frames_endTask (g : GuardF) : Frames A W s (execEndTask g s) :=
  .guarded (.ok ⟨rfl, rfl, rfl, rfl, fun _ => rfl, fun _ => rfl⟩)

theorem frames_drain (g : GuardF) : Frames A W s (execDrain g s) :=
  .guarded (.ite (.ok ⟨rfl, rfl, rfl, rfl, fun _ => rfl, fun _ => rfl⟩) (.trap (.refl s) _))

theorem frames_softTrap (c : Cause) (code : BitVec 8) : Frames A W s (softTrap s c code) :=
  .ok ⟨rfl, rfl, rfl, rfl, fun _ => rfl, fun _ => rfl⟩

theorem frames_mfs (d : BitVec 6) (n : BitVec 12) (g : GuardF) : Frames A W s (execMfs d n g s) :=
  .guarded (.ite (.trap (.refl s) _) (.ite (.trap (.refl s) _) (.ite (.hold (.refl s) _) (.ok (.later (.refl s) _ _)))))

theorem frames_mts (a : BitVec 6) (n : BitVec 12) (g : GuardF) : Frames A W s (execMts a n g s) :=
  .guarded (.ite (.trap (.refl s) _) (.ite (.trap (.refl s) _) (.ite
    (.ite (.ok (.later (.refl s) _ _)) (.trap (.refl s) _)) (.ite (.trap (.refl s) _) (.ok (.later (.refl s) _ _))))))

theorem frames_eret (g : GuardF) : Frames A W s (execEret g s) :=
  .guarded (.ite (.ok ⟨rfl, rfl, rfl, rfl, fun _ => rfl, fun _ => rfl⟩) (.trap (.refl s) _))

/-! ### Slot 1: addresses, loads, stores and atomics (R257 to R273) -/

theorem frames_amov (k : AmovKind) (d a : BitVec 6) (g : GuardF) : Frames A W s (execAmov k d a g s) :=
  .guarded (.ok (.later (.refl s) _ _))

theorem frames_aadd (d a : BitVec 4) (b : AOpnd) (g : GuardF) : Frames A W s (execAadd d a b g s) :=
  .guarded (.ok (.later (.refl s) _ _))

theorem frames_alea (d : BitVec 4) (b : AleaBase) (off : BitVec 24) (g : GuardF) : Frames A W s (execAlea d b off g s) :=
  .guarded (.ok (.later (.refl s) _ _))

theorem frames_asetm (m : MMode) (d a : BitVec 4) (inc : BitVec 14) (len : BitVec 4) (g : GuardF) :
    Frames A W s (execAsetm m d a inc len g s) := .guarded (.ok (.later (.refl s) _ _))

theorem frames_loadOut (q : LdQual) (st : BitVec 4) (sc : Scope) (rs : List (Nat × Nat × Nat)) (ea : Nat) (shape : LoadShape)
    (x : Access) : Frames A W s (loadOut s q st sc rs ea shape x.done) := by
  have issues (todo : List (Nat × Nat × Nat)) (acq : Option Scope) : Frames A W s
      (if s.core.atLimit 0 then hold s .queue else ok (x.done (issueLoad s st todo shape acq none))) :=
    .ite (.hold (.refl s) _) (.ok (.done (.issueLoad (.refl s) _ _ _ _ _) x))
  refine .withBytes (.refl s) fun bs => ?_
  have consumes (clr : Bool) (pas : List Nat) (todo : List (Nat × Nat × Nat)) : Frames A W s
      (if !pas.all inScratch then trap s (addressTrap s (BitVec.ofNat 64 ea))
      else withEarly s pas fun _ =>
        if s.core.atLimit 0 || !s.core.loadsBefore st s.core.seq then hold s .readiness
        else withFull s pas clr fun t =>
          if !coreReadable t st t.core.seq pas then hold s .readiness
          else
          let (rs, t) := coreRead st t.core.seq pas t
          match (rs.zip todo).find? fun x => x.1.poison with
          | some (_, va, pa, lane) => trap s (poisonTrap s va pa lane)
          | none =>
            let t := (lock t [shape.dest] (some [shape.result (rs.map (·.val))]) (some 0)).2
            ok (x.done { t with core := t.core.count 0 1 })) := by
    refine .ite (.trap (.refl s) _) (.withEarly (.refl s) (.ite (.hold (.refl s) _) (.withFull (.refl s) fun t ht => ?_)))
    refine .ite (.hold (.refl s) _) ?_
    simp only
    split
    · exact .trap (.refl s) _
    · exact .ok (.done (.count (.lock (ht.trans (.coreRead _ _ _ t)) _ _ _) _ _) x)
  cases q
  case plain => exact .withRace (.refl s) (.withEarly (.refl s) (issues _ _))
  case acq => exact .withEarly (.refl s) (issues _ _)
  case fe => exact consumes false _ _
  case fec => exact consumes true _ _

theorem frames_ld (sz : BitVec 2) (q : LdQual) (d : BitVec 6) (m : MemOp) (g : GuardF) : Frames A W s (execLd sz q d m g s) :=
  .guarded (.withAccess (.refl s) fun x => .ite (.trap (.refl s) _) (frames_loadOut _ _ _ _ _ _ x))

theorem frames_ldv (q : LdQual) (d : BitVec 6) (m : MemOp) (g : GuardF) : Frames A W s (execLdv q d m g s) :=
  .guarded (.withAccess (.refl s) fun x => .ite (.trap (.refl s) _) (frames_loadOut _ _ _ _ _ _ x))

theorem frames_loadLanes (d : BitVec 6) (w : Nat) (ls : List (Nat × Nat)) (st : BitVec 4) (old : VReg) (x : Access) :
    Frames A W s (loadLanes s d w ls st old x) := .withLanes (.refl s) (frames_loadOut _ _ _ _ _ _ x)

theorem frames_ldvs (w : BitVec 2) (d : BitVec 6) (m : MemOp) (g : GuardF) : Frames A W s (execLdvs w d m g s) :=
  .guarded (frames_loadLanes _ _ _ _ _ _)

theorem frames_ldvx (k : BitVec 4) (d : BitVec 6) (m : MemOp) (g : GuardF) : Frames A W s (execLdvx k d m g s) :=
  .guarded (frames_loadLanes _ _ _ _ _ _)

/-- A store joins its queue, and its multicast part the list of those to land. -/
theorem frames_storeOut (cut : Nat → List WByte → List (List WByte)) (st : BitVec 4) (ps : List Piece1) (plain setFe : Bool)
    (rel : Option Scope) (x : Access) : Frames A W s (storeOut s cut st ps plain setFe rel x.done) := by
  refine .withChecked (.refl s) fun _ => ?_
  have race {pas : List Nat} {k : Unit → Res} (hk : Frames A W s (k ())) :
      Frames A W s (if plain then withRace s pas k else k ()) := .ite (.withRace (.refl s) hk) hk
  refine race (.ite (.hold (.refl s) _) (.ite (.hold (.refl s) _) (.ite (.hold (.refl s) _) ?_)))
  have counted (c : Prop) [Decidable c] :
      Leaves A W s (if c then x.done s else { x.done s with core := (x.done s).core.count 1 1 }) := by
    split
    · exact .done (.refl s) x
    · exact .count (.done (.refl s) x) _ _
  have queued (c : Prop) [Decidable c] {u : State} (h : Leaves A W s u) (gs : List (List WByte)) :
      Leaves A W s (if c then u else enqueue u st gs setFe rel true) := by
    split
    · exact h
    · exact .enqueue h _ _ _ _ _
  refine .ite (.ok (queued _ (counted _) _)) (.ok ?_)
  cases rel
  · exact (queued _ (counted _) _).trans ⟨rfl, rfl, rfl, rfl, fun _ => rfl, fun _ => rfl⟩
  · exact (queued _ (counted _) _).trans ⟨rfl, rfl, rfl, rfl, fun _ => rfl, fun _ => rfl⟩

theorem frames_st (sz : BitVec 2) (q : StQual) (d : BitVec 6) (m : MemOp) (g : GuardF) : Frames A W s (execSt sz q d m g s) := by
  refine .guarded (.withAccess (.refl s) fun x => .ite (.trap (.refl s) _) ?_)
  split
  · exact .ite (frames_storeOut _ _ _ _ _ _ x) (.trap (.refl s) _)
  · exact frames_storeOut _ _ _ _ _ _ x
  · exact frames_storeOut _ _ _ _ _ _ x

theorem frames_stv (k : BitVec 4) (d : BitVec 6) (m : MemOp) (g : GuardF) : Frames A W s (execStv k d m g s) :=
  .guarded (.withAccess (.refl s) fun x => .ite (.trap (.refl s) _) (.ite (.trap (.refl s) _) (frames_storeOut _ _ _ _ _ _ x)))

theorem frames_storeLanes (v : VReg) (w : Nat) (ls : List (Nat × Nat)) (st : BitVec 4) (x : Access) :
    Frames A W s (storeLanes s v w ls st x) := by
  unfold storeLanes
  exact .withLanes (.refl s) (frames_storeOut _ _ _ _ _ _ x)

theorem frames_stvs (w : BitVec 2) (d : BitVec 6) (m : MemOp) (g : GuardF) : Frames A W s (execStvs w d m g s) :=
  .guarded (frames_storeLanes _ _ _ _ _)

theorem frames_stvx (k : BitVec 4) (d : BitVec 6) (m : MemOp) (g : GuardF) : Frames A W s (execStvx k d m g s) :=
  .guarded (frames_storeLanes _ _ _ _ _)

theorem frames_pref (m : MemOp) (g : GuardF) : Frames A W s (execPref m g s) :=
  .guarded (.withAccess (.refl s) fun x => .ok (.done (.refl s) x))

theorem frames_atomicOut (ar : Bool) (op : AtomicOp) (d : BitVec 6) (x : BitVec 4) (n : Nat) :
    Frames A W s (atomicOut s ar op d x n) := by
  refine .ite (.trap (.refl s) _) (.withBytes (.refl s) fun bs => ?_)
  split
  · exact .trap (.refl s) _
  · exact .withEarly (.refl s) (.ite (.hold (.refl s) _) (.ok (.issueLoad (.refl s) _ _ _ _ _)))

theorem frames_amo (ar : Bool) (op : AmoOp) (d b : BitVec 6) (x : BitVec 4) (g : GuardF) :
    Frames A W s (execAmo ar op d b x g s) := .guarded (frames_atomicOut _ _ _ _ _)

theorem frames_cas (ar wide : Bool) (d b : BitVec 6) (x : BitVec 4) (g : GuardF) :
    Frames A W s (execCas ar wide d b x g s) := .guarded (frames_atomicOut _ _ _ _ _)

theorem frames_fewait (clr : Bool) (len : BitVec 6) (x : BitVec 4) (off : BitVec 14) (g : GuardF) :
    Frames A W s (execFewait clr len x off g s) :=
  .guarded (.ite (.trap (.refl s) _) (.withBytes (.refl s) fun _ => .ite (.trap (.refl s) _) (.ite (.hold (.refl s) _)
    (.withFull (.refl s) fun _ ht => .ok ht))))

/-! ### Slot 1: fences, counters, barriers and snapshots (R134, R135, R274 to R280) -/

theorem leaves_fenceJoin (ps : List Path) (sc : Scope) : Leaves A W s (fenceJoin s ps sc) := by
  cases sc
  case core => exact .refl s
  case cluster | die => exact .joinAt s _ _ _
  case package | system => exact (Leaves.drainIq s _).trans (.foldl (fun s d => .joinAt s d _ _) allDies _)

theorem frames_fence (ps : BitVec 6) (sc : Scope) (st : BitVec 16) (g : GuardF) : Frames A W s (execFence ps sc st g s) :=
  .guarded (.ite (.hold (.refl s) _) (.ite (.hold (.refl s) _) (.stepped (leaves_fenceJoin _ _))))

theorem frames_wait (cl l : BitVec 6) (g : GuardF) : Frames A W s (execWait cl l g s) :=
  .guarded (.ite (.stepped (.foldl (fun s _ => .joinCore s _) _ s)) (.hold (.refl s) _))

theorem leaves_sendArrival (n : BitVec 10) (c : Nat) (i : Bool) : Leaves A W s (sendArrival s n c i) :=
  ⟨rfl, rfl, rfl, rfl, fun _ => rfl, fun _ => rfl⟩

theorem frames_barinit (n : BitVec 10) (c : BitVec 14) (g : GuardF) : Frames A W s (execBarinit n c g s) :=
  .guarded (.ite (.trap (.refl s) _) (.ok (leaves_sendArrival _ _ _)))

theorem frames_bararv (n : BitVec 10) (c : BitVec 14) (g : GuardF) : Frames A W s (execBararv n c g s) :=
  .guarded (.ite (.trap (.refl s) _) (.ok (leaves_sendArrival _ _ _)))

theorem frames_bararw (n : BitVec 10) (c : BitVec 14) (g : GuardF) : Frames A W s (execBararw n c g s) :=
  .guarded (.ite (.trap (.refl s) _) (.ok ⟨rfl, rfl, rfl, rfl, fun _ => rfl, fun _ => rfl⟩))

theorem leaves_finishPhase (x : Split) (rels : List Release) : Leaves A W s (finishPhase s x rels) :=
  (Leaves.foldl (Leaves.acquire s.gangScope) rels s).trans ⟨rfl, rfl, rfl, rfl, fun _ => rfl, fun _ => rfl⟩

theorem frames_barwt (n : BitVec 10) (g : GuardF) : Frames A W s (execBarwt n g s) := by
  refine .guarded (.ite (.trap (.refl s) _) ?_)
  split
  · split
    · exact .stepped (leaves_finishPhase _ _)
    · exact .hold (.refl s) _
  · exact .ite (.hold (.refl s) _) (.ok (.refl s))

theorem frames_snap (g : GuardF) : Frames A W s (execSnap g s) := by
  refine .guarded (.ite (.ok ?_) (.ok (.refl s)))
  unfold snapTrigger
  simp only
  split
  · exact .refl s
  · exact .of_core rfl rfl rfl rfl

/-! ### Slot 1: engine commands (R229 to R253) -/

theorem frames_copy (d a : EAddr) (len : CopyLen) (g : GuardF) : Frames A W s (execCopy d a len g s) :=
  .guarded (.withChecked (.refl s) fun _ => .withChecked (.refl s) fun _ =>
    .submit (.refl s) _ _ _ _ _ fun _ ht => .done (.done ht _) _)

theorem frames_copym (d a : EAddr) (len : CopymLen) (m : BitVec 6) (g : GuardF) : Frames A W s (execCopym d a len m g s) := by
  refine .guarded ?_
  simp only
  split
  · exact .ite (.trap (.refl s) _) (.withChecked (.refl s) fun _ =>
      .submit (.refl s) _ _ _ _ _ fun _ ht => .done (.done ht _) _)
  · exact .trap (.refl s) _

theorem frames_relay (t : Bool) (d a : BitVec 8) (lay : BitVec 4) (vc : BitVec 6) (g : GuardF) :
    Frames A W s (execRelay t d a lay vc g s) := by
  refine .guarded (.captureHandles (.refl s) fun raw u hu => .withShapes hu fun shs => ?_)
  split
  · exact .ite (.trap hu _) (.withChecked hu fun _ => .withChecked hu fun _ => .withChecked hu fun _ =>
      .submit hu _ _ _ _ _ fun _ ht => ht)
  · exact .trap hu _

theorem Frames.withSources (h : Leaves A W s u) {k : TopKind} {d : Shape} {srcs rest : List Shape} {vc : Option Nat} {i : Nat}
    {f : List Shape → Res} (hf : ∀ xs, Frames A W s (f xs)) : Frames A W s (withSources u k d srcs vc i rest f) := by
  induction rest generalizing i f with
  | nil => exact hf []
  | cons a r ih => exact .withChecked h fun segs => ih fun xs => hf _

theorem frames_issueTop (x : TopCmd) : Frames A W s (issueTop x s) := by
  refine .ite (.trap (.refl s) _) (.captureHandles (.refl s) fun raw u hu => .withShapes hu fun shs => ?_)
  split
  · exact .trap hu _
  · exact .ite (.trap hu _) (.ite (.trap hu _) (.withSources hu fun _ => .withChecked hu fun _ => .withChecked hu fun _ =>
      .ite (.submit hu _ _ _ _ _ fun _ ht => ht) (.submit hu _ _ _ _ _ fun _ ht => ht)))

theorem frames_top3 (k : TopKind) (o : Top3) : Frames A W s (top3 k o s) := .guarded (frames_issueTop _)

theorem frames_ewcvt (ovn : Bool) (d a : BitVec 8) (p : BitVec 6) (g : GuardF) : Frames A W s (execEwcvt ovn d a p g s) :=
  .guarded (frames_issueTop _)

theorem frames_reduce (op : RedOp) (d a : BitVec 8) (p : BitVec 6) (g : GuardF) : Frames A W s (execReduce op d a p g s) :=
  .guarded (frames_issueTop _)

theorem frames_placeq (w a : BitVec 6) (g : GuardF) : Frames A W s (execPlaceq w a g s) := by
  refine .guarded ?_
  simp only
  split
  · exact .trap (.refl s) _
  · exact .ite (.trap (.refl s) _) (frames_issueTop _)

theorem frames_kvfind (d q : BitVec 6) (l : EAddr) (g : GuardF) : Frames A W s (execKvfind d q l g s) :=
  .guarded (.captureLocator (.refl s) fun _ _ hu => .withTable hu fun _ => .submit hu _ _ _ _ _ fun _ ht => .done ht _)

theorem frames_kvfree (d q b : BitVec 6) (l : EAddr) (g : GuardF) : Frames A W s (execKvfree d q b l g s) := by
  refine .guarded (.captureLocator (.refl s) fun _ _ hu => .ite (.trap hu _) (.ite ?_ (.withTable hu fun _ => ?_))) <;>
  exact .submit hu _ _ _ _ _ fun _ ht => .done ht _

theorem frames_kvapp (d : BitVec 6) (x : EAddr) (vc : BitVec 6) (g : GuardF) : Frames A W s (execKvapp d x vc g s) := by
  refine .guarded (.capture (.refl s) fun b t ht => .captureHandles ht fun raw u hu => .withShapes hu fun shs => ?_)
  split
  · refine .ite (.trap hu _) (.captureLocator hu fun loc v hv => .ite (.trap hv _) (.ite ?_ (.withTable hv fun _ => ?_))) <;>
    exact .withChecked hv fun _ => .withChecked hv fun _ => .withChecked hv fun _ => .withChecked hv fun _ =>
      .withChecked hv fun _ => .submit hv _ _ _ _ _ fun _ ht => .done ht _
  · exact .trap hu _

theorem frames_setband (b : BitVec 6) (x l : EAddr) (g : GuardF) : Frames A W s (execSetband b x l g s) :=
  .guarded (.captureLocator (.refl s) fun _ _ hu => .capture hu fun _ _ hv => .ite (.trap hv _) (.ite (.trap hv _)
    (.withChecked hv fun _ => .submit hv _ _ _ _ _ fun _ ht => .done (.done ht _) _)))

theorem frames_issueAttn (h : Leaves A W s u) (xa : Access) (st : Nat) (a : Attn) : Frames A W s (issueAttn u xa st a) :=
  .withChecked h fun _ => .withChecked h fun _ => .withChecked h fun _ => .withChecked h fun _ => .withChecked h fun _ =>
    .withChecked h fun _ => .withChecked h fun _ => .withChecked h fun _ => .submit h _ _ _ _ _ fun _ ht => .done ht _

theorem frames_attn (x : EAddr) (p : BitVec 6) (g : GuardF) : Frames A W s (execAttn x p g s) := by
  refine .guarded (.ite (.trap (.refl s) _) (.capture (.refl s) fun b t ht => .captureHandles ht fun raw u hu =>
    .withShapes hu fun shs => ?_))
  split
  · refine .ite (.trap hu _) (.captureLocator hu fun loc v hv => .ite (.trap hv _) (.ite (.trap hv _) (.ite ?_ ?_)))
    · exact frames_issueAttn hv _ _ _
    · exact .withTable hv fun _ => frames_issueAttn hv _ _ _
  · exact .trap hu _

/-! ### Slot 1: splices, messages and launches (R119 to R128, R249 to R254) -/

theorem Leaves.expireDue (s : State) (d : BitVec 2) (n : Nat) : Leaves A W s (expireDue s d n) := (Quiet.expireDue s d n).leaves

theorem Leaves.readBytes (h : Leaves A W s u) (d : BitVec 2) (q : Path) (own pas : List Nat) :
    Leaves A W s (readBytes d q own pas u).2.2 := h.trans (Quiet.readBytes d q own pas u).leaves

/-- A context's change, at a die, after what an instruction has done. -/
theorem Leaves.setSplice (h : Leaves A W s u) (d : BitVec 2) (n : Nat) (x : SplCtx) : Leaves A W s (setSplice u d n x) :=
  h.trans (Quiet.setSplice u d n x).leaves

theorem Leaves.advance (d : BitVec 2) (n : Nat) (is : List Nat) (s : State) : Leaves A W s (advance d n is s) := by
  induction is generalizing s with
  | nil => exact .refl s
  | cons i r ih =>
    unfold Machine.advance
    split
    · exact .refl s
    · split
      · exact ih s
      · split
        · exact (Quiet.orderToken s d n i).leaves.trans (ih _)
        · exact .refl s

theorem Leaves.takeRow (h : Leaves A W s u) (d : BitVec 2) (n : Nat) (cl : Nat × Nat × Nat) (b : List Byte) (p : Bool) :
    Leaves A W s (takeRow u d n cl b p) := by
  unfold Machine.takeRow
  split
  · exact h
  · simp only
    split
    · exact .setSplice h d n _
    · exact .setSplice h d n _
    · exact .setSplice h d n _
    · refine .ite (.setSplice h d n _) (.ite (.trans ?_ (.advance d n _ _)) (.trans ?_ (Quiet.orderToken _ d n _).leaves)) <;>
      exact .setSplice h d n _
    · exact h

theorem frames_splarv (d e t : BitVec 6) (x : EAddr) (g : GuardF) : Frames A W s (execSplarv d e t x g s) := by
  have finish (u : State) (hu : Leaves A W s u) (pages : List Stake) (code : Nat) : Frames A W s
      (if s.core.atLimit 5 || stakesFull s pages then hold s .queue
      else
        let (tok, u) := lock u [.s d] (some [.s d (BitVec.ofNat 64 code)]) (some 5)
        stepped (stakeFor ((x.access s.core).done { u with core := u.core.count 5 1 }) tok pages)) :=
    .ite (.hold (.refl s) _) (.stepped ((Leaves.done (.count (.lock hu _ _ _) _ _) _).trans
      ⟨rfl, rfl, rfl, rfl, fun _ => rfl, fun _ => rfl⟩))
  refine .guarded ?_
  simp only
  split
  · exact finish _ (.expireDue s _ _) _ _
  · exact finish _ (.expireDue s _ _) _ _
  · exact .withChecked (.refl s) fun _ => finish _ (.takeRow (.readBytes (.expireDue s _ _) _ _ _ _) _ _ _ _ _) _ _

theorem frames_openSplice (nb : Option (BitVec 3)) (c : BitVec 6) (x : EAddr) : Frames A W s (openSplice nb c x s) := by
  refine .ite (.trap (.refl s) _) (.capture (.refl s) fun b u hu => ?_)
  split
  · exact .trap hu _
  · refine .withChecked hu fun _ => .captureHandles hu fun raw v hv => .withChecked hv fun _ => .withChecked hv fun _ => ?_
    have hread (d : BitVec 2) (pas : List Nat) := Leaves.readBytes hv d .splice [] pas
    simp only
    split
    · exact .trap hv _
    · split
      · exact .trap hv _
      · exact .trap hv _
      · exact .trap hv _
      · cases nb
        case none =>
          refine .ite (.trap hv _) (.ite (.hold hv _) (.ite (.hold hv _) (.ok (.done ?_ _))))
          exact (hread _ _).trans (.of_core rfl rfl rfl rfl)
        case some k =>
          refine .ite (.trap hv _) (.ite (.ok (.done (.lock ?_ _ _ _) _)) (.ite (.hold hv _) (.ok (.done (.lock ?_ _ _ _) _)))) <;>
          exact (hread _ _).trans (.of_core rfl rfl rfl rfl)

theorem frames_splopen (c : BitVec 6) (x : EAddr) (g : GuardF) : Frames A W s (execSplopen c x g s) :=
  .guarded (frames_openSplice _ _ _)

theorem frames_splopenNb (c : BitVec 6) (k : BitVec 3) (x : EAddr) (g : GuardF) : Frames A W s (execSplopenNb c k x g s) :=
  .guarded (frames_openSplice _ _ _)

theorem frames_splclose (d c : BitVec 6) (g : GuardF) : Frames A W s (execSplclose d c g s) := by
  refine .guarded ?_
  simp only
  split
  · exact .stepped (.lock (.expireDue s _ _) _ _ _)
  · exact .stepped ((Leaves.lock (.expireDue s _ _) _ _ _).trans (Quiet.closeSplice _ _ _).leaves)

theorem frames_splstat (d c l : BitVec 6) (g : GuardF) : Frames A W s (execSplstat d c l g s) :=
  .guarded (.stepped (.lock (.expireDue s _ _) _ _ _))

theorem Frames.withCtxTable (h : Leaves A W s u) {va len : Nat} {k : List Byte → State → Res}
    (hk : ∀ b t, Leaves A W s t → Frames A W s (k b t)) : Frames A W s (withCtxTable u va len k) :=
  .withChecked h fun _ => .ite (.trap h _) (hk _ _ ((Leaves.readBytes h _ _ _ _).trans (.of_core rfl rfl rfl rfl)))

theorem Frames.withEndpoint (h : Leaves A W s u) {va : Nat} {ep : BitVec 12} {k : Endpoint → State → Res}
    (hk : ∀ e t, Leaves A W s t → Frames A W s (k e t)) : Frames A W s (withEndpoint u va ep k) := by
  unfold Machine.withEndpoint
  split
  · exact .trap h _
  · refine .ite (.trap h _) (.withCtxTable h fun b t ht => ?_)
    split
    · exact .trap ht _
    · exact hk _ _ ht

theorem Frames.withEntropy (h : Leaves A W s u) {set : BitVec 6} {k : List (BitVec 16) → State → Res}
    (hk : ∀ vs t, Leaves A W s t → Frames A W s (k vs t)) : Frames A W s (withEntropy u set k) := by
  unfold Machine.withEntropy
  split
  · exact hk _ _ h
  · exact .withCtxTable h fun _ t ht => hk _ t ht

theorem frames_issueMessage (k : NxKind) (d : Option (BitVec 6)) (x : EAddr) : Frames A W s (issueMessage k d x s) := by
  refine .ite (.trap (.refl s) _) ?_
  split
  · refine .capture (.refl s) fun b t ht => ?_
    split
    · exact .trap ht _
    · exact .withEndpoint ht fun e u hu => .ite (.trap hu _) (.withEntropy hu fun vs v hv => .withChecked hv fun _ =>
        .submit hv _ _ _ _ _ fun _ hw => .done hw _)
  · exact .trap (.refl s) _
  · exact .trap (.refl s) _

theorem frames_nxwait (c v : BitVec 6) (g : GuardF) : Frames A W s (execNxwait c v g s) :=
  .guarded (.ite (.trap (.refl s) _) (.ite (.hold (.refl s) _) (.stepped (.joinCore s _))))

theorem frames_nxstat (d p : BitVec 6) (g : GuardF) : Frames A W s (execNxstat d p g s) := by
  refine .guarded (.ite (.trap (.refl s) _) ?_)
  simp only
  split
  · exact .ok (.lock (.refl s) _ _ _)
  · exact .ok (.lock (.refl s) _ _ _)
  · refine .ok (.lock ?_ _ _ _)
    exact .of_core rfl rfl rfl rfl
  · exact .ok (.lock (.refl s) _ _ _)

theorem frames_launch (d : BitVec 6) (x : EAddr) (g : GuardF) : Frames A W s (execLaunch d x g s) := by
  have go (rec : Option (List Byte)) (pages : List Stake) {u : State} (h : Leaves A W s u) (xa : Access) : Frames A W s
      (let (tok, u) := lock u [.s d] none none
       let u := stakeFor (xa.done u) tok pages
       ok { u with core := { u.core with after := u.core.after ++ [.launch tok rec] }, caught := [] }) :=
    .ok ((Leaves.done (.lock h _ _ _) xa).trans ⟨rfl, rfl, rfl, rfl, fun _ => rfl, fun _ => rfl⟩)
  exact .guarded (.ite (go _ _ (.refl s) _) (.capture (.refl s) fun b t ht => .ite (.hold ht _) (go _ _ ht _)))

/-! ### Slot 2: lanes (R186 to R212) -/

theorem frames_laneOut (o : VOp) (lat : Nat) (env : Env) (f : Nat → Env → Nat × Env) : Frames A W s (laneOut o lat env f s) :=
  .ok (.laterEnv (.refl s) _ _ _)

theorem frames_floatLanes (o : VOp) (lat : Nat) (env : Env) (f : Num → Num → Env → Nat × Env) :
    Frames A W s (floatLanes o lat env f s) := frames_laneOut _ _ _ _

theorem frames_intLanes (o : VOp) (lat : Nat) (f : Int → Int → Int) : Frames A W s (intLanes o lat f s) :=
  frames_laneOut _ _ _ _

theorem frames_fusedLanes (o : VOp) (f : Num → Num → Num → Env → Nat × Env) : Frames A W s (fusedLanes o f s) :=
  .withRnd (.refl s) fun _ => frames_laneOut _ _ _ _

theorem frames_addLanes (o : VOp) (sub : Bool) : Frames A W s (addLanes o sub s) :=
  .ite (frames_intLanes _ _ _) (.withSel (.refl s) _ fun _ => frames_floatLanes _ _ _ _)

theorem frames_vmul (o : VOp) : Frames A W s (execVmul o s) :=
  .ite (frames_intLanes _ _ _) (.withRnd (.refl s) fun _ => frames_floatLanes _ _ _ _)

theorem frames_pickLanes (o : VOp) (fi : Int → Int → Int) (ff : Num → Num → Num) : Frames A W s (pickLanes o fi ff s) :=
  .ite (frames_intLanes _ _ _) (frames_floatLanes _ _ _ _)

theorem frames_vrndi (o : VOp) : Frames A W s (execVrndi o s) := .withSel (.refl s) _ fun _ => frames_floatLanes _ _ _ _

theorem frames_vcvt (o : VOp) : Frames A W s (execVcvt o s) := .withSel (.refl s) _ fun _ => .ok (.laterEnv (.refl s) _ _ _)

theorem frames_vcvti (o : VOp) : Frames A W s (execVcvti o s) := .withSel (.refl s) _ fun _ => frames_laneOut _ _ _ _

theorem frames_vpackb (o : VOp) : Frames A W s (execVpackb o s) := .withRnd (.refl s) fun _ => .ok (.laterEnv (.refl s) _ _ _)

theorem frames_vredsum (o : VOp) : Frames A W s (execVredsum o s) :=
  .ite (.ok (.later (.refl s) _ _)) (.ok (.later (.later (.refl s) _ _) _ _))

theorem frames_vdot4 (o : VOp) : Frames A W s (execVdot4 o s) := .ok (.laterEnv (.refl s) _ _ _)

/-- An instruction whose one effect is an exposed result. -/
theorem frames_result (lat : Nat) (w : RegWrite) : Frames A W s (ok (later s lat w)) := .ok (.later (.refl s) _ _)

theorem Leaves.setSump (h : Leaves A W s u) (n : BitVec 2) (x : Sump) : Leaves A W s (u.setCore (u.core.setSump n x)) :=
  h.trans ⟨rfl, rfl, rfl, rfl, fun _ => rfl, fun _ => rfl⟩

theorem frames_sumpin (o : VOp) : Frames A W s (execSumpin o s) :=
  .ite (.trap (.refl s) _) (.ite (.trap (.refl s) _) (.withRace (.refl s)
    (.ok (.setSump (.ite (.refl s) (.enqueue (.refl s) _ _ _ _ _)) _ _))))

theorem frames_sumpout (o : VOp) : Frames A W s (execSumpout o s) := by
  refine .ite (.trap (.refl s) _) (.withRace (.refl s) (.withRead0 (.refl s) fun _ u hu => ?_))
  simp only
  split
  · exact .trap (.refl s) _
  · exact .ok (.setSump (.lock hu _ _ _) _ _)

theorem frames_sumpcfg (n : BitVec 2) (a : BitVec 6) (g : GuardF) : Frames A W s (execSumpcfg n a g s) :=
  .guarded (.ite (.trap (.refl s) _) (.ok (.setSump (.refl s) _ _)))

/-! ### Slot 3: the weight buffer, beats and accumulators (R213 to R226) -/

theorem frames_mldb (f : StoredFmt) (sp : Bool) (a : BitVec 6) (g : GuardF) : Frames A W s (execMldb f sp a g s) :=
  .guarded (.ite (.trap (.refl s) _) (.ite (.trap (.refl s) _) (.ite (.trap (.refl s) _) (.ite (.hold (.refl s) _)
    (.ok ⟨rfl, rfl, rfl, rfl, fun _ => rfl, fun _ => rfl⟩)))))

/-- MWBF writes the weight buffer and nothing else of what is left. -/
theorem frames_mwbf (len : BitVec 6) (x : BitVec 4) (b : BitVec 6) (g : GuardF) : Frames A true s (execMwbf len x b g s) := by
  refine .guarded ?_
  simp only
  split
  · exact .trap (.refl s) _
  · refine .ite (.trap (.refl s) _) (.ite (.trap (.refl s) _) (.withRace (.refl s) (.withRead0 (.refl s) fun _ u hu => ?_)))
    split
    · exact .trap (.refl s) _
    · exact .ok (hu.trans ⟨rfl, rfl, rfl, rfl, fun _ => rfl, nofun⟩)

/-- A core's rows of accumulators are no register of `landed`, and no weight. -/
theorem Leaves.of_rows {c : CoreState} (h : Leaves true W s u) (hregs : c.landed = u.core.landed) (hw : c.wbuf = u.core.wbuf) :
    Leaves true W s { u with core := c } := h.trans ⟨hregs, rfl, rfl, rfl, nofun, fun _ => hw⟩

end

/-! ### Rows of accumulators -/

theorem setTile_landed (c : CoreState) (t : Nat) (rows : List AccRow) : (c.setTile t rows).landed = c.landed :=
  List.foldlRecOn (motive := fun x : CoreState => x.landed = c.landed) _ _ rfl fun _ h _ _ => h

theorem setTile_wbuf (c : CoreState) (t : Nat) (rows : List AccRow) : (c.setTile t rows).wbuf = c.wbuf :=
  List.foldlRecOn (motive := fun x : CoreState => x.wbuf = c.wbuf) _ _ rfl fun _ h _ _ => h

theorem foldl_setTile_landed {α : Type} (f : α → Nat) (g : α → List AccRow) (l : List α) (c : CoreState) :
    (l.foldl (fun c x => c.setTile (f x) (g x)) c).landed = c.landed :=
  List.foldlRecOn (motive := fun x : CoreState => x.landed = c.landed) _ _ rfl fun _ h _ _ => (setTile_landed _ _ _).trans h

theorem foldl_setTile_wbuf {α : Type} (f : α → Nat) (g : α → List AccRow) (l : List α) (c : CoreState) :
    (l.foldl (fun c x => c.setTile (f x) (g x)) c).wbuf = c.wbuf :=
  List.foldlRecOn (motive := fun x : CoreState => x.wbuf = c.wbuf) _ _ rfl fun _ h _ _ => (setTile_wbuf _ _ _).trans h

section
variable {A W : Bool} {s u : State}

theorem frames_beatOut (o : Beat) (push drain : Bool) (shift : Option Nat) : Frames true W s (beatOut o push drain shift s) := by
  refine .guarded (.ite (.trap (.refl s) _) (.ite (.trap (.refl s) _) (.ite (.trap (.refl s) _) ?_)))
  refine .ite (.trap (.refl s) _) (.ite (.hold (.refl s) _) (.ite (.hold (.refl s) _) (.ok ?_)))
  have rows (outs : List (Nat × AccRow × Flags)) :
      (outs.foldl (fun c r => c.setRow r.1 r.2.1) s.core).landed = s.core.landed ∧
        (outs.foldl (fun c r => c.setRow r.1 r.2.1) s.core).wbuf = s.core.wbuf :=
    List.foldlRecOn (motive := fun x : CoreState => x.landed = s.core.landed ∧ x.wbuf = s.core.wbuf) _ _ ⟨rfl, rfl⟩
      fun _ h _ _ => h
  exact ⟨(rows _).1, rfl, rfl, rfl, nofun, fun _ => (rows _).2⟩

theorem frames_mdrainSwap (g : GuardF) : Frames A W s (execMdrainSwap g s) :=
  .guarded (.ite (.hold (.refl s) _) (.ok ⟨rfl, rfl, rfl, rfl, fun _ => rfl, fun _ => rfl⟩))

theorem frames_mzero (t : BitVec 6) (g : GuardF) : Frames true W s (execMzero t g s) :=
  .guarded (.ite (.trap (.refl s) _) (.ok (.of_rows (.refl s) (setTile_landed _ _ _) (setTile_wbuf _ _ _))))

theorem frames_acmovv (v : BitVec 6) (p : BitVec 10) (g : GuardF) : Frames A W s (execAcmovv v p g s) :=
  .guarded (.ite (.trap (.refl s) _) (.ite (.trap (.refl s) _) (.ite (.trap (.refl s) _) (.ite (.hold (.refl s) _)
    (.ok (.laterEnv (.refl s) _ _ _))))))

theorem frames_acmova (v : BitVec 6) (p : BitVec 10) (g : GuardF) : Frames true W s (execAcmova v p g s) :=
  .guarded (.ite (.trap (.refl s) _) (.ok (.of_rows (.refl s) rfl rfl)))

theorem frames_acld (t : BitVec 6) (x : BitVec 4) (g : GuardF) : Frames true W s (execAcld t x g s) := by
  refine .guarded ?_
  simp only
  split
  · exact .trap (.refl s) _
  · refine .ite (.trap (.refl s) _) (.ite (.trap (.refl s) _) (.withRace (.refl s) (.withRead0 (.refl s) fun _ u hu => ?_)))
    split
    · exact .trap (.refl s) _
    · exact .ok (.of_rows hu (setTile_landed _ _ _) (setTile_wbuf _ _ _))

theorem Leaves.storeLocal (h : Leaves A W s u) (off : Nat) (b : List (Byte × Bool)) : Leaves A W s (storeLocal u off b) :=
  .enqueue h _ _ _ _ _

theorem frames_acst (t : BitVec 6) (x : BitVec 4) (g : GuardF) : Frames A W s (execAcst t x g s) := by
  refine .guarded ?_
  simp only
  split
  · exact .trap (.refl s) _
  · exact .ite (.trap (.refl s) _) (.ite (.trap (.refl s) _) (.withRace (.refl s) (.ite (.hold (.refl s) _)
      (.ok (.storeLocal (.refl s) _ _)))))

/-! ### Slot 3: ladders (R108 to R118, R227) -/

theorem frames_ldrcfg (l : BitVec 2) (a b : BitVec 6) (g : GuardF) : Frames A W s (execLdrcfg l a b g s) :=
  .guarded (.ite (.trap (.refl s) _) (.withChain (.refl s) (.ok (.setLadder (.refl s) _ _))))

theorem frames_ldrclr (l : BitVec 2) (g : GuardF) : Frames A W s (execLdrclr l g s) :=
  .guarded (.withChain (.refl s) (.ite (.ok (.setLadder (.refl s) _ _)) (.ok (.refl s))))

theorem frames_ldrstep (l : BitVec 2) (t : BitVec 6) (g : GuardF) : Frames A W s (execLdrstep l t g s) :=
  .guarded (.ite (.trap (.refl s) _) (.withChain (.refl s) (.ok (.setLadder (.refl s) _ _))))

theorem frames_ldrread (l : BitVec 2) (t : BitVec 6) (g : GuardF) : Frames true W s (execLdrread l t g s) :=
  .guarded (.ite (.trap (.refl s) _) (.withChain (.refl s) (.ite (.trap (.refl s) _)
    (.ok (.later (.of_rows (.refl s) (setTile_landed _ _ _) (setTile_wbuf _ _ _)) _ _)))))

theorem frames_ldrrung (d : BitVec 6) (gd : BitVec 3) (l : BitVec 2) (lv q : BitVec 4) (g : GuardF) :
    Frames A W s (execLdrrung d gd l lv q g s) :=
  .guarded (.ite (.trap (.refl s) _) (.withChain (.refl s) (.ite (.trap (.refl s) _) (.ok (.lock (.refl s) _ _ _)))))

theorem frames_ldrcnt (d : BitVec 6) (l : BitVec 2) (g : GuardF) : Frames A W s (execLdrcnt d l g s) :=
  .guarded (.withChain (.refl s) (.ok (.lock (.refl s) _ _ _)))

theorem frames_ldrsave (l : BitVec 2) (x : BitVec 4) (g : GuardF) : Frames A W s (execLdrsave l x g s) := by
  refine .guarded ?_
  simp only
  split
  · exact .trap (.refl s) _
  · exact .ite (.trap (.refl s) _) (.withRace (.refl s) (.withChain (.refl s) (.ok (.storeLocal (.refl s) _ _))))

theorem frames_ldrload (l : BitVec 2) (x : BitVec 4) (g : GuardF) : Frames true W s (execLdrload l x g s) := by
  refine .guarded ?_
  simp only
  split
  · exact .trap (.refl s) _
  · refine .ite (.trap (.refl s) _) (.withRace (.refl s) (.withRead0 (.refl s) fun _ t ht => .ite (.trap (.refl s) _) ?_))
    split
    · exact .trap (.refl s) _
    · split
      · exact .trap (.refl s) _
      · refine .withRace (.refl s) (.withRead0 ht fun _ u hu => .withChain (.refl s) (.ok (.of_rows hu ?_ ?_)))
        · exact (foldl_setTile_landed _ _ _ _).trans (foldl_setTile_landed _ _ _ _)
        · exact (foldl_setTile_wbuf _ _ _ _).trans (foldl_setTile_wbuf _ _ _ _)

end

end Sys2Proof.Machine

namespace Sys2Proof.Machine

open Sys2Proof

/-! ### Every slot instruction -/

/-- An answer to a slot instruction that leaves what it must: the accumulators, unless the instruction writes them, and the
weights, unless it is MWBF. -/
def SlotLeaves (i : Instr) (s : State) (r : Res) : Prop :=
  ∃ A W, Frames A W s r ∧ (A = true → writesAcc i) ∧ (W = true → ∃ l x b g, i = .mwbf l x b g)

theorem SlotLeaves.all {i : Instr} {s : State} {r : Res} (h : Frames false false s r) : SlotLeaves i s r :=
  ⟨false, false, h, nofun, nofun⟩

theorem SlotLeaves.butAcc {i : Instr} {s : State} {r : Res} (h : Frames true false s r) (hi : writesAcc i) : SlotLeaves i s r :=
  ⟨true, false, h, fun _ => hi, nofun⟩

theorem exec_leaves (i : Instr) (s : State) (hi : isEvent i = false) : SlotLeaves i s (exec i s) := by
  unfold exec
  cases i with
  -- slot 0
  | nop | mnop => exact .all (.ok (.refl s))
  | add | sub | and | or | xor | andn | min | max | minu | maxu | mul | mulh | mulhu => exact .all (frames_srOut _ _ _)
  | shl | shr | sra | rol => exact .all (frames_shiftOut _ _)
  | clz | ctz | popc | bfx | bfi | sel | movi | movhi | fmin | fmax | fclass | getf => exact .all (frames_scalarOut _ _ _ _)
  | div | divu | rem | remu => exact .all (frames_divOut _ _)
  | cmp | fcmp | gand | gor | gnot => exact .all (frames_guardOut _ _ _)
  | fadd | fsub | fmul | ffma => exact .all (frames_floatOut _ _)
  | fcvt => exact .all (frames_fcvt _ _ _ _ _)
  | br => exact .all (frames_br _ _)
  | jmp => exact .all (frames_jmp _ _)
  | call => exact .all (frames_call _ _)
  | ret => exact .all (frames_ret _)
  | loop | loopReg => exact .all (.guarded (frames_openLoop _ _))
  | setfmt => exact .all (frames_setfmt _ _)
  | getid => exact .all (frames_getid _ _ _)
  | hops => exact .all (frames_hops _)
  | endTask => exact .all (frames_endTask _)
  | drain => exact .all (frames_drain _)
  | trap | brk => exact .all (.guarded (frames_softTrap _ _))
  | mfs => exact .all (frames_mfs _ _ _)
  | mts => exact .all (frames_mts _ _ _)
  | eret => exact .all (frames_eret _)
  -- slot 1
  | amov => exact .all (frames_amov _ _ _ _)
  | aadd => exact .all (frames_aadd _ _ _ _)
  | alea => exact .all (frames_alea _ _ _ _)
  | asetm => exact .all (frames_asetm _ _ _ _ _ _)
  | ld => exact .all (frames_ld _ _ _ _ _)
  | st => exact .all (frames_st _ _ _ _ _)
  | ldv => exact .all (frames_ldv _ _ _ _)
  | stv => exact .all (frames_stv _ _ _ _)
  | ldvs => exact .all (frames_ldvs _ _ _ _)
  | stvs => exact .all (frames_stvs _ _ _ _)
  | ldvx => exact .all (frames_ldvx _ _ _ _)
  | stvx => exact .all (frames_stvx _ _ _ _)
  | pref => exact .all (frames_pref _ _)
  | amo => exact .all (frames_amo _ _ _ _ _ _)
  | cas => exact .all (frames_cas _ _ _ _ _ _)
  | fewait => exact .all (frames_fewait _ _ _ _ _)
  | fence => exact .all (frames_fence _ _ _ _)
  | wait => exact .all (frames_wait _ _ _)
  | barinit => exact .all (frames_barinit _ _ _)
  | bararv => exact .all (frames_bararv _ _ _)
  | barwt => exact .all (frames_barwt _ _)
  | bararw => exact .all (frames_bararw _ _ _)
  | snap => exact .all (frames_snap _)
  | copy => exact .all (frames_copy _ _ _ _)
  | copym => exact .all (frames_copym _ _ _ _ _)
  | relay => exact .all (frames_relay _ _ _ _ _ _)
  | ewadd | ewmul | ewfma | ewmax | gemv | gemm => exact .all (frames_top3 _ _)
  | ewcvt => exact .all (frames_ewcvt _ _ _ _ _)
  | reduce => exact .all (frames_reduce _ _ _ _ _)
  | placeq => exact .all (frames_placeq _ _ _)
  | attn => exact .all (frames_attn _ _ _)
  | kvfind => exact .all (frames_kvfind _ _ _ _)
  | kvapp => exact .all (frames_kvapp _ _ _ _)
  | kvfree => exact .all (frames_kvfree _ _ _ _ _)
  | setband => exact .all (frames_setband _ _ _ _)
  | splopen => exact .all (frames_splopen _ _ _)
  | splopenNb => exact .all (frames_splopenNb _ _ _ _)
  | splarv => exact .all (frames_splarv _ _ _ _ _)
  | splclose => exact .all (frames_splclose _ _ _)
  | splstat => exact .all (frames_splstat _ _ _ _)
  | nxwr | nxrd | nxamo => exact .all (.guarded (frames_issueMessage _ _ _))
  | nxwait => exact .all (frames_nxwait _ _ _)
  | nxstat => exact .all (frames_nxstat _ _ _)
  | launch => exact .all (frames_launch _ _ _)
  | sumpcfg => exact .all (frames_sumpcfg _ _ _)
  -- slot 2
  | vadd | vsub => exact .all (frames_addLanes _ _)
  | vmul => exact .all (frames_vmul _)
  | vfma | vfms => exact .all (frames_fusedLanes _ _)
  | vmin | vmax | vabs | vneg => exact .all (frames_pickLanes _ _ _)
  | vrcp | vrsq | vfexp2 | vlog2 | vscale | vgetexp | vgetman | vunpb | vsat | vand | vor | vxor | vnot | vmov | vshl | vshr
  | vsra | viota | vbcast | vperm | vslide => exact .all (frames_laneOut _ _ _ _)
  | vrndi => exact .all (frames_vrndi _)
  | vcvt => exact .all (frames_vcvt _)
  | vcvti => exact .all (frames_vcvti _)
  | vpackb => exact .all (frames_vpackb _)
  | vcmp | vsel | vmovs | vins | vredmax | vcompr | vexpnd | kand | kor | kxor | knot | kpopc | kfirst | kset | sumpcnt =>
    exact .all (frames_result _ _)
  | vredsum => exact .all (frames_vredsum _)
  | vdot4 => exact .all (frames_vdot4 _)
  | sumpin => exact .all (frames_sumpin _)
  | sumpout => exact .all (frames_sumpout _)
  -- slot 3
  | mldb => exact .all (frames_mldb _ _ _ _)
  | mwbf l x b g => exact ⟨false, true, frames_mwbf l x b g, nofun, fun _ => ⟨l, x, b, g, rfl⟩⟩
  | mpush | mshift | macc | mdrain => exact .butAcc (frames_beatOut _ _ _ _) (by simp [writesAcc])
  | mdrainSwap => exact .all (frames_mdrainSwap _)
  | mzero => exact .butAcc (frames_mzero _ _) (by simp [writesAcc])
  | acmovv => exact .all (frames_acmovv _ _ _)
  | acmova => exact .butAcc (frames_acmova _ _ _) (by simp [writesAcc])
  | acld => exact .butAcc (frames_acld _ _ _) (by simp [writesAcc])
  | acst => exact .all (frames_acst _ _ _)
  | ldrcfg => exact .all (frames_ldrcfg _ _ _ _)
  | ldrstep => exact .all (frames_ldrstep _ _ _)
  | ldrread => exact .butAcc (frames_ldrread _ _ _) (by simp [writesAcc])
  | ldrrung => exact .all (frames_ldrrung _ _ _ _ _ _)
  | ldrcnt => exact .all (frames_ldrcnt _ _ _)
  | ldrsave => exact .all (frames_ldrsave _ _ _)
  | ldrload => exact .butAcc (frames_ldrload _ _ _) (by simp [writesAcc])
  | ldrclr => exact .all (frames_ldrclr _ _)
  -- a row without an encoding is no slot instruction
  | _ => exact absurd (show true = false from hi) Bool.noConfusion

end Sys2Proof.Machine

namespace Sys2Proof.Rules

open Sys2Proof.Machine

/-- Settles O51: every slot instruction goes through checks and captures to an effect that leaves the registers; the slot 3
instructions that write accumulators or weights are told apart. -/
theorem slotFrames : Obligations.SlotFrames := by
  intro i s t hi ht
  obtain ⟨A, W, hframes, hA, hW⟩ := exec_leaves i s hi
  obtain ⟨hregs, hid, hparked, htime, hacc, hwbuf⟩ := hframes t ht
  simp only [CoreState.landed, Prod.mk.injEq] at hregs
  obtain ⟨hs, ha, hm, hv, hk, hg, hfmt, hff, hts, hpc, hb, hd, hdbg⟩ := hregs
  refine ⟨hs, ha, hm, hv, hk, hg, hfmt, hff, hts, hpc, hb, hd, hdbg, hid, hparked, htime, fun h => hacc ?_, fun h => hwbuf ?_⟩
  · exact Bool.eq_false_iff.2 fun e => h (hA e)
  · exact Bool.eq_false_iff.2 fun e => by
      obtain ⟨l, x, b, g, rfl⟩ := hW e
      exact h l x b g rfl

end Sys2Proof.Rules

/-! SUPPORT. A FENCE of package scope applies the writes that wait at its die (R132, R134), and a write that is applied fills
full-empty bits (R49). -/

namespace Sys2Proof.Machine

open Sys2Proof

/-- What a fence of package scope leaves of the full-empty bits is what emptying its die's queue of writes leaves. -/
theorem fenceJoin_package_fe (s : State) (ps : List Path) : (fenceJoin s ps .package).fe = (drainIq s s.here).fe :=
  foldl_keeps (·.fe) (fun s d => joinAt s d ps fun w => ps.contains w.path) (fun _ _ => rfl) allDies _

/-- A write by the copy engine of a core of die 1 into the scratchpad of core 0, whose granule becomes full where it is applied. -/
def fillingWrite : Write := ⟨1, .copy, 1, 128, 0, [⟨spAddr 0 0, 1, false⟩], [1], [], [spAddr 0 0], [], none, 7⟩

/-- The state after reset, where that write has arrived at die 0 and waits to be applied. -/
def arrivedFilling : State :=
  { State.reset.mapDie 0 fun d => { d with iq := [1] } with writes := [fillingWrite], nextId := 2 }

theorem arrivedFilling_iq : (arrivedFilling.die 0).iq = [1] := rfl

/-- Applying it fills its granule. -/
theorem drainIq_arrivedFilling_fe : (drainIq arrivedFilling 0).fe = [(granule (spAddr 0 0), 1)] := by
  simp only [drainIq, arrivedFilling_iq, List.foldl_cons, List.foldl_nil]
  decide

/-- A core that has observed no write waits for none. -/
theorem allApplied_nil (s : State) : allApplied s [] = true := by
  simp [allApplied]

/-- The fence passes: the core has neither a store nor a load outstanding, and has observed no write. -/
theorem exec_fence_arrivedFilling :
    exec (.fence 1 .package 0 0) arrivedFilling = stepped (fenceJoin arrivedFilling (pathsOf 1) .package) := by
  have hready : fenceReady arrivedFilling.core 0 = true := rfl
  have happlied : allApplied (drainIq arrivedFilling arrivedFilling.here) arrivedFilling.core.obs = true := allApplied_nil _
  change execFence 1 .package 0 0 arrivedFilling = _
  rw [execFence, guarded_on (guard_always _)]
  simp only [hready, happlied, Bool.not_true, Bool.and_false, Bool.false_eq_true, if_false]

end Sys2Proof.Machine

namespace Sys2Proof.Rules

open Sys2Proof.Machine

/-- Refutes O52: a FENCE of package scope applies the writes that wait in its die's queue (R132, R134), and one whose granules are
marked fills their full-empty bits there (R49), so that `fe` changes although FENCE is no consuming form. -/
theorem not_memoryFrames : ¬ Obligations.MemoryFrames := by
  intro h
  obtain ⟨-, hfe⟩ := h (.fence 1 .package 0 0) arrivedFilling _ (by decide) (by simp [passesDeadline]) exec_fence_arrivedFilling
  have hkept : (fenceJoin arrivedFilling (pathsOf 1) .package).fe = arrivedFilling.fe :=
    (settle_fe _).symm.trans (hfe (by simp [emptiesFull]))
  rw [fenceJoin_package_fe] at hkept
  exact absurd (drainIq_arrivedFilling_fe.symm.trans hkept) (List.cons_ne_nil _ _)

end Sys2Proof.Rules

/-! SUPPORT. Steps of engine commands (R51, R77, R99 to R107, R130, R232, R237, R359): what logs, reads and placed writes leave of a
command's die and of the translations, and the bytes that a command's write makes. -/

namespace Sys2Proof.Machine

open Sys2Proof

/-! ### Steps aside: logs, reads and placed writes leave agents, commands, routes and translations -/

theorem State.pf_setPf (s : State) (p q : BitVec 2) (x : Pf) : (s.setPf p x).pf q = if p = q then x else s.pf q := by
  simp only [State.pf, State.setPf, Vector.get_eq_getElem, Vector.getElem_set]
  simp [BitVec.toNat_inj]

/-- What routes and rows need of a die. -/
structure DieState.Aside (x y : DieState) : Prop where
  retired : y.retired = x.retired
  crst : y.crst = x.crst
  rows : y.rows = x.rows

/-- Two states with the same agents, commands, routes, launches, translations and rows. -/
structure Aside (s t : State) : Prop where
  quiet : Quiet s t
  cmds : t.cmds = s.cmds
  links : t.links = s.links
  mode : t.xd0.mode = s.xd0.mode
  tdi : ∀ p, (t.pf p).tdi = (s.pf p).tdi
  die : ∀ e, (s.die e).Aside (t.die e)

theorem Aside.refl (s : State) : Aside s s := ⟨.refl s, rfl, rfl, rfl, fun _ => rfl, fun _ => ⟨rfl, rfl, rfl⟩⟩

theorem Aside.trans {s t u : State} (h : Aside s t) (k : Aside t u) : Aside s u where
  quiet := h.quiet.trans k.quiet
  cmds := k.cmds.trans h.cmds
  links := k.links.trans h.links
  mode := k.mode.trans h.mode
  tdi p := (k.tdi p).trans (h.tdi p)
  die e := ⟨(k.die e).retired.trans (h.die e).retired, (k.die e).crst.trans (h.die e).crst, (k.die e).rows.trans (h.die e).rows⟩

/-- A step that changes neither dies nor functions is aside if it is quiet and keeps the commands and routes. -/
theorem Aside.of_dies {s t : State} (quiet : Quiet s t) (cmds : t.cmds = s.cmds) (links : t.links = s.links)
    (mode : t.xd0.mode = s.xd0.mode) (pfs : t.pfs = s.pfs) (dies : t.dies = s.dies) : Aside s t where
  quiet := quiet
  cmds := cmds
  links := links
  mode := mode
  tdi p := by simp only [State.pf, pfs]
  die e := by
    simp only [State.die, dies]
    exact ⟨rfl, rfl, rfl⟩

theorem Aside.foldl {α : Type} {g : State → α → State} (h : ∀ s x, Aside s (g s x)) (l : List α) (s : State) :
    Aside s (l.foldl g s) :=
  List.foldlRecOn (motive := Aside s) l g (.refl s) fun _ ht x _ => ht.trans (h _ x)

theorem Aside.setDie (s : State) (d : BitVec 2) {x : DieState} (hq : (s.die d).Quiet x) (h : (s.die d).Aside x) :
    Aside s (s.setDie d x) where
  quiet := .setDie s d hq
  cmds := rfl
  links := rfl
  mode := rfl
  tdi _ := rfl
  die e := by
    rw [State.die_setDie]
    split
    · rename_i hd
      exact hd ▸ h
    · exact (Aside.refl s).die e

/-- A change of a function that keeps its TDI state keeps every function's. -/
theorem tdi_setPf (s : State) (p q : BitVec 2) {x : Pf} (h : x.tdi = (s.pf p).tdi) : ((s.setPf p x).pf q).tdi = (s.pf q).tdi := by
  rw [State.pf_setPf]
  split
  · rename_i hp
    exact hp ▸ h
  · rfl

theorem tdi_raiseVector (s : State) (p q : BitVec 2) (v : Nat) : ((raiseVector s p v).pf q).tdi = (s.pf q).tdi := by
  simp only [raiseVector]
  split
  · rfl
  · split
    · exact tdi_setPf s p q rfl
    · split
      · exact tdi_setPf s p q rfl
      · exact tdi_setPf s p q (x := { s.pf p with
          pending := (s.pf p).pending &&& ~~~(1#80 <<< v), sent := kset (s.pf p).sent v s.time }) rfl

theorem Aside.raiseVector (s : State) (p : BitVec 2) (v : Nat) : Aside s (raiseVector s p v) := by
  have htdi (q : BitVec 2) := tdi_raiseVector s p q v
  obtain ⟨_, _, h⟩ := raiseVector_frame s p v
  rw [h] at htdi ⊢
  exact ⟨.of_dies rfl rfl rfl rfl rfl, rfl, rfl, rfl, htdi, fun _ => ⟨rfl, rfl, rfl⟩⟩

theorem Aside.logCheck (s : State) (d : BitVec 2) (unit sev : BitVec 8) (loc : BitVec 16) (pa : Nat) :
    Aside s (logCheck s d unit sev loc pa) := by
  refine Aside.trans (Aside.setDie s d ?_ ?_) (.raiseVector _ _ _)
  · exact ⟨rfl, rfl, rfl, rfl, rfl⟩
  · exact ⟨rfl, rfl, rfl⟩

theorem Aside.routed (s : State) (d : BitVec 2) (bytes : List WByte) : Aside s (routed s d bytes).2 := by
  simp only [Machine.routed]
  split
  · exact .logCheck s d _ _ _ _
  · exact .refl s

theorem Aside.place (s : State) (d : BitVec 2) (p : Path) (core task prod : Nat) (rel : Option Release) (full : List Nat)
    (bytes : List WByte) : Aside s (place s d p core task prod rel full bytes) :=
  (Aside.routed s d bytes).trans (.foldl
    (g := fun s g => placeOne s d p core task prod rel ((g.map (·.pa)).filter full.contains) g)
    (fun _ _ => .of_dies (.of_dies rfl rfl rfl rfl rfl) rfl rfl rfl rfl rfl) _ _)

theorem Aside.engineWrite (s : State) (c : Cmd) (full : List Nat) (bytes : List WByte) : Aside s (engineWrite s c full bytes) :=
  (Aside.place s c.die c.path c.core c.task c.id none full bytes).trans
    (.of_dies (.of_dies rfl rfl rfl rfl rfl) rfl rfl rfl rfl rfl)

theorem Aside.settle (s : State) : Aside s (settle s) := by
  refine .of_dies (.of_dies ?_ ?_ ?_ ?_ ?_) ?_ ?_ ?_ ?_ ?_
  · exact settle_core s
  · exact settle_coreId s
  · exact settle_keeps (·.parked) (fun _ _ _ _ => rfl) s
  · exact settle_keeps (·.time) (fun _ _ _ _ => rfl) s
  · exact settle_keeps (·.dies) (fun _ _ _ _ => rfl) s
  · exact settle_keeps (·.cmds) (fun _ _ _ _ => rfl) s
  · exact settle_keeps (·.links) (fun _ _ _ _ => rfl) s
  · exact settle_keeps (·.xd0.mode) (fun _ _ _ _ => rfl) s
  · exact settle_keeps (·.pfs) (fun _ _ _ _ => rfl) s
  · exact settle_keeps (·.dies) (fun _ _ _ _ => rfl) s

/-! ### Silent steps: they change no byte either -/

/-- A step aside that changes no byte's latest value. -/
structure Silent (s t : State) : Prop where
  aside : Aside s t
  byteAt : ∀ pa, byteAt t pa = byteAt s pa

theorem Silent.refl (s : State) : Silent s s := ⟨.refl s, fun _ => rfl⟩

theorem Silent.trans {s t u : State} (h : Silent s t) (k : Silent t u) : Silent s u :=
  ⟨h.aside.trans k.aside, fun pa => (k.byteAt pa).trans (h.byteAt pa)⟩

theorem Silent.settle (s : State) : Silent s (settle s) := ⟨.settle s, settle_byteAt s⟩

theorem Silent.logCheck (s : State) (d : BitVec 2) (unit sev : BitVec 8) (loc : BitVec 16) (pa : Nat) :
    Silent s (logCheck s d unit sev loc pa) := by
  refine ⟨.logCheck s d unit sev loc pa, fun _ => ?_⟩
  obtain ⟨_, _, _, h⟩ := logCheck_frame s d unit sev loc pa
  rw [h]
  rfl

theorem Silent.logEvent (s : State) (d : BitVec 2) (core pasid : Nat) (wid : Word) (t : TrapInfo) :
    Silent s (logEvent s d core pasid wid t) := by
  simp only [Machine.logEvent]
  rcases pushEvent_cases s d ⟨t, core, pasid, wid, s.time, false⟩ with ⟨_, h⟩ | ⟨_, h⟩ <;> rw [h] <;>
    exact ⟨.setDie s d ⟨rfl, rfl, rfl, rfl, rfl⟩ ⟨rfl, rfl, rfl⟩, fun _ => rfl⟩

theorem Silent.logCmd (s : State) (c : Cmd) (t : TrapInfo) : Silent s (logCmd s c t) := .logEvent s _ _ _ _ _

theorem Silent.choice (s : State) (n : Nat) : Silent s { s with choice := n } :=
  ⟨.of_dies (.of_dies rfl rfl rfl rfl rfl) rfl rfl rfl rfl rfl, fun _ => rfl⟩

theorem Silent.readByte (s : State) (d : BitVec 2) (q : Path) (own : List Nat) (pa : Nat) :
    Silent s (readByte s d q own pa).2 := by
  rcases readByte_frame s d q own pa with h | h <;> rw [h]
  · exact .refl s
  · exact .choice s _

theorem Silent.readBytes (d : BitVec 2) (q : Path) (own pas : List Nat) (s : State) : Silent s (readBytes d q own pas s).2.2 := by
  induction pas generalizing own s with
  | nil => exact .refl s
  | cons pa r ih => exact (Silent.readByte s d q own pa).trans (ih _ _)

theorem Silent.readVasOwn (d : BitVec 2) (q : Path) (segs : List Seg) (own vas : List Nat) (s : State) :
    Silent s (readVasOwn d q segs own vas s).2.2 := .readBytes d q own _ s

theorem Silent.readVas (d : BitVec 2) (q : Path) (segs : List Seg) (vas : List Nat) (s : State) :
    Silent s (readVas d q segs vas s).2 := .readVasOwn d q segs [] vas s

/-- A site uses its own routes: afterwards the state's links come back as they were. -/
theorem Aside.withLinks {s t : State} (h : Aside { s with links := [] } t) : Aside s { t with links := s.links } where
  quiet := ⟨h.quiet.core, h.quiet.coreId, h.quiet.parked, h.quiet.time, h.quiet.die⟩
  cmds := h.cmds
  links := rfl
  mode := h.mode
  tdi := h.tdi
  die := h.die

theorem Silent.readAtSite (s : State) (c : Cmd) (home : Nat) (segs : List Seg) (vas : List Nat) :
    Silent s (readAtSite s c home segs vas).2 :=
  have h := Silent.readVas c.die .tensor segs vas { s with links := [] }
  ⟨h.aside.withLinks, h.byteAt⟩

theorem Silent.attnPool (c : Cmd) (blocks : List Nat) (h : Shape) (own : List Nat) (s : State) :
    Silent s (attnPool c blocks h own s).2.2.2 :=
  List.foldlRecOn (motive := fun t : List (List (List Num)) × Option Nat × List Nat × State => Silent s t.2.2.2) blocks _
    (.refl s) fun _ ht _ _ => ht.trans (.readVasOwn _ _ _ _ _ _)

theorem Silent.turnsOf (s : State) (c : Cmd) (l : Locator) (own : List Nat) (n : Nat) : Silent s (turnsOf s c l own n).2 := by
  simp only [Machine.turnsOf]
  split
  · exact .refl s
  · exact .readBytes _ _ _ _ _

theorem Silent.attnData (s : State) (c : Cmd) (a : Attn) : Silent s (attnData s c a).2 :=
  (((Silent.readVasOwn _ _ _ _ _ s).trans (.attnPool c _ _ _ _)).trans (.attnPool c _ _ _ _)).trans (.turnsOf _ c _ _ _)

theorem Silent.siteDropped (s : State) (c : Cmd) (socket pa : Nat) : Silent s (siteDropped s c socket pa) := .logCheck s _ _ _ _ _

/-! ### What a step aside leaves of routes, agents and translations -/

section
variable {s t : State} (h : Aside s t)
include h

theorem Aside.linked (a pa : Nat) : linked t a pa = linked s a pa := by simp only [Machine.linked, h.mode, h.links]

theorem Aside.outOfUse (d : BitVec 2) (pa : Nat) : outOfUse t d pa = outOfUse s d pa := by
  simp only [Machine.outOfUse, h.mode, h.tdi, (h.die _).retired]

theorem Aside.reaches (d : BitVec 2) (pa : Nat) : reaches t d pa = reaches s d pa := by
  simp only [Machine.reaches, h.linked, h.outOfUse]

theorem Aside.agent (k : Nat) : t.agent k = s.agent k := by
  simp only [State.agent, State.idle, h.quiet.core, h.quiet.coreId, h.quiet.parked, (h.die _).crst]

theorem Aside.guardHolds (g : Nat × Option Nat) : guardHolds t g = guardHolds s g := by
  simp only [Machine.guardHolds, h.agent]

theorem Aside.physFault (core : Bool) (pa : Nat) : physFault t core pa = physFault s core pa := by
  simp only [Machine.physFault, State.here, h.quiet.coreId, h.mode, h.outOfUse]
  rfl

theorem Aside.atDie (c : Cmd) : Aside (atDie s c) (atDie t c) :=
  { h with quiet := { h.quiet with coreId := rfl } }

theorem Aside.locAddr (c : Cmd) (l : Locator) (va : Nat) : locAddr t c l va = locAddr s c l va := by
  simp only [Machine.locAddr, lateAddr, latePlace, DieState.translations, (h.atDie c).physFault, (h.quiet.die _).active,
    (h.quiet.die _).upper, (h.quiet.die _).tlb]

theorem Aside.setCmd (c : Cmd) : Aside (setCmd s c) (setCmd t c) where
  quiet := ⟨h.quiet.core, h.quiet.coreId, h.quiet.parked, h.quiet.time, h.quiet.die⟩
  cmds := by simp only [Machine.setCmd, h.cmds]
  links := h.links
  mode := h.mode
  tdi := h.tdi
  die := h.die

theorem Aside.findCmd (id : Nat) : findCmd t id = findCmd s id := by simp only [Machine.findCmd, h.cmds]

end

/-! ### The bytes of an engine's write (R51, R130, R237, R359) -/

theorem byteAt_place (s : State) (d : BitVec 2) (p : Path) (core task prod : Nat) (rel : Option Release) (full : List Nat)
    (bytes : List WByte) (pa : Nat) : byteAt (place s d p core task prod rel full bytes) pa =
      if reaches s d pa then entryOr bytes pa (byteAt s pa) else byteAt s pa := by
  have hfold (gs : List (List WByte)) (s : State) :
      byteAt (gs.foldl (fun s g => placeOne s d p core task prod rel ((g.map (·.pa)).filter full.contains) g) s) pa =
        gs.foldl (fun x g => entryOr g pa x) (byteAt s pa) := by
    induction gs generalizing s with
    | nil => rfl
    | cons g r ih => exact (ih _).trans (by rw [byteAt_placeOne]; rfl)
  refine (hfold _ _).trans ?_
  rw [byGranule, foldl_entryOr_bySize _ _ _ le_rfl]
  refine (congrArg (entryOr _ pa) (routed_byteAt s d bytes pa)).trans ?_
  exact entryOr_filter_pa (reaches s d) bytes pa _

theorem byteAt_engineWrite (s : State) (c : Cmd) (full : List Nat) (bytes : List WByte) (pa : Nat) :
    byteAt (engineWrite s c full bytes) pa = if reaches s c.die pa then entryOr bytes pa (byteAt s pa) else byteAt s pa :=
  byteAt_place s c.die c.path c.core c.task c.id none full bytes pa

/-- Whether a command's write may land: its guard, where it has one, holds (R237). -/
def EngWrite.free (w : EngWrite) (s : State) : Bool :=
  match w.guard with
  | some g => guardHolds s g
  | none => true

theorem performWrite_eq (s : State) (c : Cmd) (w : EngWrite) (rest : List EngWrite) : ∃ full info,
    performWrite s c w rest =
      if w.free s then engineWrite (setCmd s { c with out := rest }) c full w.bytes
      else logCmd (setCmd s { c with out := rest }) c info := ⟨_, _, rfl⟩

theorem Aside.performWrite (s : State) (c : Cmd) (w : EngWrite) (rest : List EngWrite) :
    Aside (Machine.setCmd s { c with out := rest }) (performWrite s c w rest) := by
  obtain ⟨_, _, h⟩ := performWrite_eq s c w rest
  rw [h]
  split
  · exact .engineWrite _ _ _ _
  · exact (Silent.logCmd _ _ _).aside

theorem byteAt_performWrite (s : State) (c : Cmd) (w : EngWrite) (rest : List EngWrite) (pa : Nat) :
    byteAt (performWrite s c w rest) pa =
      if w.free s && reaches s c.die pa then entryOr w.bytes pa (byteAt s pa) else byteAt s pa := by
  obtain ⟨_, _, h⟩ := performWrite_eq s c w rest
  rw [h]
  cases w.free s with
  | true => exact byteAt_engineWrite _ _ _ _ _
  | false => exact (Silent.logCmd _ _ _).byteAt pa

/-! ### Commands in the list -/

theorem findCmd_id {s : State} {id : Nat} {c : Cmd} (h : findCmd s id = some c) : c.id = id := by
  simpa using List.find?_some h

theorem findCmd_setCmd {s : State} {id : Nat} {c c' : Cmd} (h : findCmd s id = some c) (hid : c'.id = c.id) :
    findCmd (setCmd s c') id = some c' := by
  have hc := findCmd_id h
  obtain ⟨l, r, hl, hbefore⟩ := (List.find?_eq_some_iff_append.1 h).2
  have hfirst : ∀ x ∈ l, x.id ≠ id := fun x hx => by simpa using hbefore x hx
  simp only [findCmd, setCmd, hl, List.map_append, List.map_cons, List.find?_append]
  rw [List.find?_eq_none.2]
  · simp [hid, hc]
  · intro y hy
    obtain ⟨x, hx, rfl⟩ := List.mem_map.1 hy
    rw [if_neg (by rw [hid, hc]; exact hfirst x hx)]
    simpa using hfirst x hx

/-! ### Writes from a piece's site (R77, R359) -/

/-- The site that a write goes out from. -/
def writeSite (c : Cmd) (w : EngWrite) : Nat := siteSocket c (((c.pieces[w.piece]?).map (·.home)).getD nowhere)

/-- Whether a byte is in use and a route leads to it from a site. -/
def siteReaches (s : State) (c : Cmd) (site pa : Nat) : Bool := linked s site pa && !outOfUse s c.die pa

theorem reaches_no_links (s : State) (d : BitVec 2) (pa : Nat) : reaches { s with links := [] } d pa = !outOfUse s d pa := by
  have h : linked { s with links := [] } d.toNat pa = true := by
    simp only [linked, reachable]
    split <;> rfl
  simp only [reaches, h]
  rfl

theorem writeFromSite_eq (s : State) (c : Cmd) (w : EngWrite) (go : State → EngWrite → State) : ∃ t, Silent s t ∧
    writeFromSite s c w go =
      { go { t with links := [] } { w with bytes := w.bytes.filter fun b => linked t (writeSite c w) b.pa } with
        links := t.links } := by
  refine ⟨_, ?_, rfl⟩
  split
  · exact .siteDropped s c _ _
  · exact .refl s

theorem Aside.writeFromSite (s : State) (c : Cmd) (w : EngWrite) (rest : List EngWrite) :
    Aside (Machine.setCmd s { c with out := rest }) (writeFromSite s c w fun s w => Machine.performWrite s c w rest) := by
  obtain ⟨t, ht, h⟩ := writeFromSite_eq s c w fun s w => Machine.performWrite s c w rest
  rw [h]
  have hgo := Aside.performWrite { t with links := [] } c
    { w with bytes := w.bytes.filter fun b => Machine.linked t (writeSite c w) b.pa } rest
  exact (ht.aside.setCmd _).trans (Aside.withLinks (s := Machine.setCmd t { c with out := rest }) hgo)

theorem byteAt_writeFromSite (s : State) (c : Cmd) (w : EngWrite) (rest : List EngWrite) (pa : Nat) :
    byteAt (writeFromSite s c w fun s w => performWrite s c w rest) pa =
      if w.free s && siteReaches s c (writeSite c w) pa then entryOr w.bytes pa (byteAt s pa) else byteAt s pa := by
  obtain ⟨t, ht, h⟩ := writeFromSite_eq s c w fun s w => performWrite s c w rest
  have hfree : ({ w with bytes := w.bytes.filter fun b => linked t (writeSite c w) b.pa } : EngWrite).free
      { t with links := [] } = w.free s := by
    simp only [EngWrite.free]
    split
    · exact ht.aside.guardHolds _
    · rfl
  have hbyte : byteAt { t with links := [] } pa = byteAt s pa := ht.byteAt pa
  rw [h]
  refine (byteAt_performWrite _ c _ rest pa).trans ?_
  rw [hfree, reaches_no_links, hbyte, entryOr_filter_pa (linked t (writeSite c w)), ht.aside.linked, ht.aside.outOfUse]
  by_cases hl : linked s (writeSite c w) pa = true <;> simp [siteReaches, hl]

/-! ### What a write leaves of the bytes -/

/-- A write lands: of its bytes those that go out take a value that `value` allows, with the write's mark; every other byte stays,
and all do where its guard fails. -/
def Lands (s : State) (w : EngWrite) (goes : Nat → Bool) (value : WByte → Byte → Prop) (u : State) : Prop :=
  (w.guard = none ∨ (∃ g, w.guard = some g ∧ guardHolds s g = true) →
    (∀ pa b, w.bytes.find? (fun b => b.pa == pa) = some b → goes pa = true → ∃ v, byteAt u pa = (v, b.poison) ∧ value b v) ∧
    ∀ pa, (∀ b ∈ w.bytes, b.pa ≠ pa) ∨ goes pa = false → byteAt u pa = byteAt s pa) ∧
  ((∃ g, w.guard = some g ∧ guardHolds s g = false) → ∀ pa, byteAt u pa = byteAt s pa)

theorem EngWrite.free_of_guard {w : EngWrite} {s : State} (h : w.guard = none ∨ ∃ g, w.guard = some g ∧ guardHolds s g = true) :
    w.free s = true := by
  obtain h | ⟨g, h, hg⟩ := h
  · simp only [EngWrite.free, h]
  · simp only [EngWrite.free, h, hg]

/-- A write lands that makes each of its bytes, with a value of its own, the latest one where it goes out. -/
theorem lands_of_byteAt {s u : State} {w : EngWrite} {goes : Nat → Bool} {value : WByte → Byte → Prop} (val : WByte → Byte)
    (hval : ∀ b, value b (val b))
    (h : ∀ pa, byteAt u pa = if w.free s && goes pa then
      entryOr (w.bytes.map fun b => { b with val := val b }) pa (byteAt s pa) else byteAt s pa) : Lands s w goes value u := by
  refine ⟨fun hg => ⟨fun pa b hb hgo => ⟨val b, ?_, hval b⟩, fun pa hpa => ?_⟩, ?_⟩
  · have hmap : (w.bytes.map fun b => { b with val := val b }).find? (fun b => b.pa == pa) = some { b with val := val b } := by
      rw [List.find?_map]
      exact congrArg (Option.map _) hb
    rw [h, EngWrite.free_of_guard hg, hgo]
    exact entryOr_some hmap _
  · rw [h]
    obtain hpa | hpa := hpa
    · rw [entryOr_none (by simpa using hpa), ite_self]
    · rw [hpa, Bool.and_false]
      rfl
  · rintro ⟨g, hg, hfalse⟩ pa
    rw [h, show w.free s = false by simp only [EngWrite.free, hg, hfalse]]
    rfl

/-- Of a write the bytes as they are. -/
theorem lands_whole {s u : State} {w : EngWrite} {goes : Nat → Bool} (h : ∀ pa, byteAt u pa =
      if w.free s && goes pa then entryOr w.bytes pa (byteAt s pa) else byteAt s pa) :
    Lands s w goes (fun b v => v = b.val) u :=
  lands_of_byteAt (·.val) (fun _ => rfl) fun pa => by rw [h, List.map_id']

/-! ### ENGINE_WRITE -/

theorem getElem?_setPiece (ps : List Piece) (n : Nat) (f : Piece → Piece) (m : Nat) :
    (setPiece ps n f)[m]? = (ps[m]?).map fun p => if m = n then f p else p := by
  simp [setPiece, Function.comp_def]

/-- The command once its write `w` is made: the piece that it is of can fail no longer. -/
def Cmd.wrote (c : Cmd) (w : EngWrite) : Cmd :=
  { c with pieces := setPiece c.pieces w.piece fun p => { p with wrote := true } }

/-- The command once its `i`-th write is made. -/
def Cmd.made (c : Cmd) (i : Nat) (w : EngWrite) : Cmd := { c.wrote w with out := c.out.eraseIdx i }

theorem Cmd.map_wrote {α : Type} {f : Piece → α} (h : ∀ p b, f { p with wrote := b } = f p) (c : Cmd) (w : EngWrite) (n : Nat) :
    ((c.wrote w).pieces[n]?).map f = (c.pieces[n]?).map f := by
  simp only [Cmd.wrote, getElem?_setPiece, Option.map_map]
  refine congrArg (Option.map · _) (funext fun p => ?_)
  simp only [Function.comp]
  split
  · exact h p true
  · rfl

theorem writeSite_wrote (c : Cmd) (w : EngWrite) : writeSite (c.wrote w) w = writeSite c w := by
  simp only [writeSite, Cmd.map_wrote (f := (·.home)) fun _ _ => rfl]
  rfl

section
variable {id i : Nat} {s : State} {c : Cmd} {w : EngWrite}

theorem exec_engineWrite (hc : findCmd s id = some c) (hstart : startCmd s c = none) (hw : c.out[i]? = some w)
    (hgo : writeMayGo s c i w = true) : exec (.engineWrite id i) s = stepped (makeWrite s c i w) := by
  change execEngineWrite id i s = _
  simp only [execEngineWrite, hc, hstart, hw, hgo]
  rfl

theorem exec_engineWrite_start {t : State} (hc : findCmd s id = some c) (hstart : startCmd s c = some t) :
    exec (.engineWrite id i) s = stepped t := by
  change execEngineWrite id i s = _
  simp only [execEngineWrite, hc, hstart]

/-- A write is made: the step that made it keeps the registers and takes it off the list. -/
theorem made_of {t : State} {p : State → Prop} (hexec : exec (.engineWrite id i) s = stepped t) (hcore : t.core = s.core)
    (hout : (findCmd t id).map (·.out) = some (c.out.eraseIdx i)) (hp : p (settle t).clear) :
    ∃ u, exec (.engineWrite id i) s = .next u ∧ u.sig = .none ∧ (findCmd u id).map (·.out) = some (c.out.eraseIdx i) ∧
      u.core.s = s.core.s ∧ u.core.v = s.core.v ∧ p u := by
  have hset : (settle t).core = s.core := (settle_core t).trans hcore
  refine ⟨_, hexec.trans (ok_eq _), rfl, ?_, congrArg (·.s) hset, congrArg (·.v) hset, hp⟩
  exact (congrArg (Option.map (·.out)) ((Aside.settle t).findCmd id)).trans hout

/-- A write is made by a step that is aside once the write is off the list. -/
theorem made_of_aside {t : State} {p : State → Prop} (hexec : exec (.engineWrite id i) s = stepped t)
    (hc : findCmd s id = some c) (h : Aside (setCmd s (c.made i w)) t) (hp : p (settle t).clear) :
    ∃ u, exec (.engineWrite id i) s = .next u ∧ u.sig = .none ∧ (findCmd u id).map (·.out) = some (c.out.eraseIdx i) ∧
      u.core.s = s.core.s ∧ u.core.v = s.core.v ∧ p u := by
  refine made_of hexec h.quiet.core ?_ hp
  rw [h.findCmd, findCmd_setCmd (c' := c.made i w) hc rfl]
  rfl

theorem makeWrite_controller (h : isController c.core = true) :
    makeWrite s c i w = controllerCopy s (c.wrote w) w (c.out.eraseIdx i) := if_pos h

/-- A write of a command that is neither a tensor operation nor a SETBAND. -/
theorem makeWrite_plain (hcore : isController c.core = false)
    (htop : ∀ k d ss vc st r sat h e n, c.body ≠ .top k d ss vc st r sat h e n) (hband : ∀ dst src, c.body ≠ .setband dst src) :
    makeWrite s c i w = performWrite s (c.wrote w) w (c.out.eraseIdx i) := by
  simp only [makeWrite, Cmd.wrote, hcore, Bool.false_eq_true, if_false]

theorem makeWrite_setband {dst : List Seg} {src : List Byte} (hcore : isController c.core = false) (h : c.body = .setband dst src) :
    makeWrite s c i w = performWrite s (c.wrote w) (bandWrite s dst src) (c.out.eraseIdx i) := by
  simp only [makeWrite, Cmd.wrote, hcore, Bool.false_eq_true, if_false, h]

/-- A write of a tensor operation's piece. -/
theorem makeWrite_top {k : TopKind} {d : Shape} {ss : List Shape} {vc : Option Nat} {st : Option (List Seg)} {r : BitVec 3}
    {sat hm enc cen : Bool} (hcore : isController c.core = false) (h : c.body = .top k d ss vc st r sat hm enc cen) :
    makeWrite s c i w = if d.spl then spliceBytes s (c.wrote w) d w (c.out.eraseIdx i)
      else writeFromSite s (c.wrote w) (if d.ty.is4 then shareNibbles s (c.wrote w) k d ss vc w else w)
        fun s w' => performWrite s (c.wrote w) w' (c.out.eraseIdx i) := by
  simp only [makeWrite, Cmd.wrote, hcore, Bool.false_eq_true, if_false, h]

/-- A controller's write outside control space that some memory takes. -/
theorem controllerCopy_memory {rest : List EngWrite} (hcontrol : regionOf ((w.bytes.head?.map (·.pa)).getD 0) ≠ .control)
    (hnone : regionOf ((w.bytes.head?.map (·.pa)).getD 0) ≠ .none) (hhost : regionOf ((w.bytes.head?.map (·.pa)).getD 0) ≠ .host) :
    controllerCopy s c w rest = performWrite s c w rest := by
  simp only [controllerCopy]

/-- A controller's write that nothing takes is dropped. -/
theorem controllerCopy_dropped {rest : List EngWrite}
    (h : regionOf ((w.bytes.head?.map (·.pa)).getD 0) = .control ∧ reaches s c.die ((w.bytes.head?.map (·.pa)).getD 0) = false ∨
      regionOf ((w.bytes.head?.map (·.pa)).getD 0) = .none ∨ regionOf ((w.bytes.head?.map (·.pa)).getD 0) = .host) :
    Silent (setCmd s { c with out := rest }) (controllerCopy s c w rest) := by
  simp only [controllerCopy]
  obtain ⟨hreg, hreach⟩ | hreg | hreg := h <;> simp only [hreg]
  · rw [if_neg (by rw [hreach]; exact Bool.false_ne_true)]
    exact .logCheck _ _ _ _ _ _
  · exact .refl _
  · exact .refl _

end

/-! ### Bytes that hold two 4-bit elements (R77) -/

section
variable (k : TopKind) (d : Shape) (srcs : List Shape) (vc : Option Nat)

/-- Whether one of the elements `own` is the low, or the high, nibble of a byte. -/
def ownsNibble (own : List Nat) (pa : Nat) (high : Bool) : Bool :=
  own.any fun l => d.high l == high && segAt d.segs (d.addr l) == some pa

/-- A byte as a piece writes it: of a nibble that is not the piece's own the value before. -/
def sharedByte (s : State) (own : List Nat) (b : WByte) : Byte :=
  match ownsNibble d own b.pa false, ownsNibble d own b.pa true with
  | true, false => (byteAt s b.pa).1.extractLsb' 4 4 ++ b.val.extractLsb' 0 4
  | false, true => b.val.extractLsb' 4 4 ++ (byteAt s b.pa).1.extractLsb' 0 4
  | _, _ => b.val

theorem shareNibbles_eq (s : State) (c : Cmd) (w : EngWrite) : shareNibbles s c k d srcs vc w =
    { w with bytes := w.bytes.map fun b =>
        { b with val := sharedByte d s (liveElems k d srcs vc (((c.pieces[w.piece]?).map (·.elems)).getD [])) b } } := by
  simp only [shareNibbles]
  refine congrArg (fun l => ({ w with bytes := l } : EngWrite)) (List.map_congr_left fun b _ => ?_)
  simp only [sharedByte]
  cases hl : ownsNibble d _ b.pa false <;> cases hh : ownsNibble d _ b.pa true <;>
    simp only [ownsNibble] at hl hh <;> simp only [hl, hh] <;> rfl

theorem sharedByte_nibbles (s : State) (own : List Nat) (b : WByte) :
    (sharedByte d s own b).extractLsb' 0 4 =
      (if ownsNibble d own b.pa true && !ownsNibble d own b.pa false then (byteAt s b.pa).1 else b.val).extractLsb' 0 4 ∧
    (sharedByte d s own b).extractLsb' 4 4 =
      (if ownsNibble d own b.pa false && !ownsNibble d own b.pa true then (byteAt s b.pa).1 else b.val).extractLsb' 4 4 := by
  have low (x y : BitVec 4) : (x ++ y).extractLsb' 0 4 = y := BitVec.extractLsb'_append_eq_right
  have high (x y : BitVec 4) : (x ++ y).extractLsb' 4 4 = x := BitVec.extractLsb'_append_eq_left
  cases hl : ownsNibble d own b.pa false <;> cases hh : ownsNibble d own b.pa true <;> simp [sharedByte, hl, hh, low, high]

end

/-! ### Rows delivered to splice windows (R122) -/

/-- The delivery of row `r` of a command's destination, if it is whole. -/
def deliverRow (id : Nat) (d : Shape) (s : State) (r : Nat) : State :=
  let n := d.ext.headD 1 * (d.ty.bits / 8)
  let va := d.addr (r * d.ext.headD 1)
  match findCmd s id with
  | none => s
  | some c =>
    let bs := (List.range n).map fun i => kfind c.spl (va + i)
    if bs.all (·.isSome) then
      match windowOf va n with
      | .splice v x off =>
        match boundDie (kfind (s.die c.die).active.ctxs c.slot) (BitVec.ofNat 64 v) with
        | some die =>
          (setCmd s { c with spl := (List.range n).foldl (fun l i => kdel l (va + i)) c.spl }).mapDie die fun y =>
            { y with rows := y.rows ++
              [⟨c.id, BitVec.ofNat 6 x, c.pasid, off / 2 ^ 28, off % 2 ^ 28 / n, bs.map (·.getD 0), false⟩] }
        | none => s
      | _ => s
    else s

theorem deliverRows_eq (s : State) (c : Cmd) (d : Shape) :
    deliverRows s c d = (List.range d.rows).foldl (deliverRow c.id d) s := rfl

/-- Two states between which rows of a command have been delivered: its gathered bytes at the addresses that `touched` excludes
stay. -/
structure Delivers (id : Nat) (touched : Nat → Prop) (s t : State) : Prop where
  core : t.core = s.core
  byteAt : ∀ pa, byteAt t pa = byteAt s pa
  active : ∀ e, (t.die e).active = (s.die e).active
  rows : ∀ e, ∀ x ∈ (s.die e).rows, x ∈ (t.die e).rows
  cmd : ∀ c, findCmd s id = some c → ∃ l, findCmd t id = some { c with spl := l } ∧ ∀ a, ¬ touched a → kfind l a = kfind c.spl a

theorem Delivers.refl (id : Nat) (touched : Nat → Prop) (s : State) : Delivers id touched s s :=
  ⟨rfl, fun _ => rfl, fun _ => rfl, fun _ _ h => h, fun c h => ⟨c.spl, h, fun _ _ => rfl⟩⟩

theorem Delivers.trans {id : Nat} {touched : Nat → Prop} {s t u : State} (h : Delivers id touched s t)
    (k : Delivers id touched t u) : Delivers id touched s u where
  core := k.core.trans h.core
  byteAt pa := (k.byteAt pa).trans (h.byteAt pa)
  active e := (k.active e).trans (h.active e)
  rows e x hx := k.rows e x (h.rows e x hx)
  cmd c hc := by
    obtain ⟨l, hl, hkeep⟩ := h.cmd c hc
    obtain ⟨m, hm, hkeep'⟩ := k.cmd _ hl
    exact ⟨m, hm, fun a ha => (hkeep' a ha).trans (hkeep a ha)⟩

theorem Delivers.foldl {id : Nat} {touched : Nat → Prop} {g : State → Nat → State} (l : List Nat)
    (h : ∀ s, ∀ r ∈ l, Delivers id touched s (g s r)) (s : State) : Delivers id touched s (l.foldl g s) :=
  List.foldlRecOn (motive := Delivers id touched s) l g (.refl id touched s) fun _ ht r hr => ht.trans (h _ r hr)

theorem kfind_foldl_kdel {α : Type} (va a : Nat) (is : List Nat) (l : List (Nat × α)) (h : ∀ i ∈ is, va + i ≠ a) :
    kfind (is.foldl (fun l i => kdel l (va + i)) l) a = kfind l a := by
  induction is generalizing l with
  | nil => rfl
  | cons i r ih =>
    obtain ⟨hi, hr⟩ := List.forall_mem_cons.1 h
    exact (ih _ hr).trans (by rw [kfind_kdel, if_neg hi])

/-- A row takes its own bytes alone from those gathered. -/
theorem Delivers.deliverRow {id : Nat} {d : Shape} {r : Nat} {touched : Nat → Prop}
    (h : ∀ j < d.ext.headD 1 * (d.ty.bits / 8), touched (d.addr (r * d.ext.headD 1) + j)) (s : State) :
    Delivers id touched s (deliverRow id d s r) := by
  simp only [Machine.deliverRow]
  split
  · exact .refl id touched s
  · rename_i c hc
    split
    · split
      · split
        · refine ⟨rfl, fun _ => rfl, fun e => ?_, fun e x hx => ?_, fun c' hc' => ?_⟩
          · rw [State.mapDie, State.die_setDie]
            split
            · next he => exact he ▸ rfl
            · rfl
          · rw [State.mapDie, State.die_setDie]
            split
            · next he => exact List.mem_append_left _ (he ▸ hx)
            · exact hx
          · obtain rfl : c = c' := Option.some.inj (hc.symm.trans hc')
            refine ⟨_, findCmd_setCmd (c' := { c with spl := _ }) hc rfl,
              fun a ha => kfind_foldl_kdel _ a _ _ fun i hi heq => ha ?_⟩
            exact heq ▸ h i (List.mem_range.1 hi)
        · exact .refl id touched s
      · exact .refl id touched s
    · exact .refl id touched s

/-- A row that is whole is delivered to the die that its window is bound to. -/
theorem mem_rows_deliverRow {id : Nat} {d : Shape} {s : State} {r : Nat} {c : Cmd} {x y off : Nat} {die : BitVec 2}
    (hc : findCmd s id = some c)
    (hwhole : ∀ j < d.ext.headD 1 * (d.ty.bits / 8), (kfind c.spl (d.addr (r * d.ext.headD 1) + j)).isSome = true)
    (hwin : windowOf (d.addr (r * d.ext.headD 1)) (d.ext.headD 1 * (d.ty.bits / 8)) = .splice x y off)
    (hdie : boundDie (kfind (s.die c.die).active.ctxs c.slot) (BitVec.ofNat 64 x) = some die) :
    (⟨c.id, BitVec.ofNat 6 y, c.pasid, off / 2 ^ 28, off % 2 ^ 28 / (d.ext.headD 1 * (d.ty.bits / 8)),
      (List.range (d.ext.headD 1 * (d.ty.bits / 8))).map fun j => (kfind c.spl (d.addr (r * d.ext.headD 1) + j)).getD 0, false⟩ :
      Row) ∈ ((deliverRow id d s r).die die).rows := by
  have hall : ((List.range (d.ext.headD 1 * (d.ty.bits / 8))).map fun i =>
      kfind c.spl (d.addr (r * d.ext.headD 1) + i)).all (·.isSome) = true := by
    simpa using hwhole
  simp only [deliverRow, hc, hall, hwin, hdie, if_true, State.die_mapDie_same, List.map_map]
  exact List.mem_append_right _ (List.mem_singleton.2 rfl)

/-- The rows before `r` leave the bytes of a row that they do not meet, so that it is delivered if it was whole. -/
theorem mem_rows_deliverRows {d : Shape} {s : State} {c : Cmd} {r x y off : Nat} {die : BitVec 2}
    (hc : findCmd s c.id = some c) (hr : r < d.rows)
    (happart : ∀ q < r, d.addr (q * d.ext.headD 1) + d.ext.headD 1 * (d.ty.bits / 8) ≤ d.addr (r * d.ext.headD 1) ∨
      d.addr (r * d.ext.headD 1) + d.ext.headD 1 * (d.ty.bits / 8) ≤ d.addr (q * d.ext.headD 1))
    (hwhole : ∀ j < d.ext.headD 1 * (d.ty.bits / 8), (kfind c.spl (d.addr (r * d.ext.headD 1) + j)).isSome = true)
    (hwin : windowOf (d.addr (r * d.ext.headD 1)) (d.ext.headD 1 * (d.ty.bits / 8)) = .splice x y off)
    (hdie : boundDie (kfind (s.die c.die).active.ctxs c.slot) (BitVec.ofNat 64 x) = some die) :
    (⟨c.id, BitVec.ofNat 6 y, c.pasid, off / 2 ^ 28, off % 2 ^ 28 / (d.ext.headD 1 * (d.ty.bits / 8)),
      (List.range (d.ext.headD 1 * (d.ty.bits / 8))).map fun j => (kfind c.spl (d.addr (r * d.ext.headD 1) + j)).getD 0, false⟩ :
      Row) ∈ ((deliverRows s c d).die die).rows := by
  obtain ⟨k, hk⟩ := Nat.exists_eq_add_of_lt hr
  have hrange : List.range d.rows = List.range r ++ r :: (List.range k).map (r + 1 + ·) := by
    rw [show d.rows = r + 1 + k by omega, List.range_add, List.range_succ, List.append_assoc]
    rfl
  have hbefore : Delivers c.id
      (fun a => ∀ j < d.ext.headD 1 * (d.ty.bits / 8), a ≠ d.addr (r * d.ext.headD 1) + j) s
      ((List.range r).foldl (deliverRow c.id d) s) := by
    refine .foldl _ (fun s q hq => .deliverRow (fun j hj i hi => ?_) s) s
    have := happart q (List.mem_range.1 hq)
    omega
  obtain ⟨l, hl, hkeep⟩ := hbefore.cmd c hc
  have hrow : ∀ j < d.ext.headD 1 * (d.ty.bits / 8),
      kfind l (d.addr (r * d.ext.headD 1) + j) = kfind c.spl (d.addr (r * d.ext.headD 1) + j) :=
    fun j hj => hkeep _ fun h => h j hj rfl
  have hmem := mem_rows_deliverRow (c := { c with spl := l }) hl (fun j hj => by rw [hrow j hj]; exact hwhole j hj) hwin
    (die := die) (by rw [hbefore.active]; exact hdie)
  rw [deliverRows_eq, hrange, List.foldl_append, List.foldl_cons]
  refine (Delivers.foldl (touched := fun _ => True) _ (fun s q _ => .deliverRow (fun _ _ => trivial) s) _).rows die _ ?_
  rwa [List.map_congr_left fun j hj => by rw [hrow j (List.mem_range.1 hj)]] at hmem

theorem Delivers.deliverRows (s : State) (c : Cmd) (d : Shape) : Delivers c.id (fun _ => True) s (deliverRows s c d) :=
  .foldl _ (fun s _ _ => .deliverRow (fun _ _ => trivial) s) s

/-- The bytes of a piece's write into splice windows to whose dies a route leads. -/
def splicesTo (s : State) (c : Cmd) (w : EngWrite) : List WByte :=
  w.bytes.filter fun b =>
    ((spliceDie s c (b.pa - 2 ^ 66)).filter fun x => !reachable s.links (writeSite c w) x.toNat).isNone

theorem spliceBytes_eq (s : State) (c : Cmd) (d : Shape) (w : EngWrite) (rest : List EngWrite) : ∃ t, Silent s t ∧
    spliceBytes s c d w rest =
      deliverRows (setCmd t { c with out := rest, spl := (splicesTo s c w).foldl (fun l b => kset l (b.pa - 2 ^ 66) b.val) c.spl })
        { c with out := rest, spl := (splicesTo s c w).foldl (fun l b => kset l (b.pa - 2 ^ 66) b.val) c.spl } d := by
  refine ⟨_, ?_, rfl⟩
  split
  · exact .siteDropped s c _ _
  · exact .refl s

/-- The command once its `i`-th write, into splice windows, is made. -/
def Cmd.spliced (c : Cmd) (s : State) (i : Nat) (w : EngWrite) : Cmd :=
  { c.made i w with spl := (splicesTo s (c.wrote w) w).foldl (fun l b => kset l (b.pa - 2 ^ 66) b.val) c.spl }

theorem splicesTo_all {s : State} {c : Cmd} {w : EngWrite}
    (h : ∀ b ∈ w.bytes, ∀ y, spliceDie s c (b.pa - 2 ^ 66) = some y → reachable s.links (writeSite c w) y.toNat = true) :
    splicesTo s c w = w.bytes := by
  refine List.filter_eq_self.2 fun b hb => ?_
  cases hy : spliceDie s c (b.pa - 2 ^ 66) with
  | none => rfl
  | some y => simp [h b hb y hy]

/-- Where every byte's window is reached the command has gathered all the bytes of the write. -/
theorem spliced_spl {s : State} {c : Cmd} {i : Nat} {w : EngWrite}
    (h : ∀ b ∈ w.bytes, ∀ y, spliceDie s c (b.pa - 2 ^ 66) = some y → reachable s.links (writeSite c w) y.toNat = true) :
    (c.spliced s i w).spl = w.bytes.foldl (fun l b => kset l (b.pa - 2 ^ 66) b.val) c.spl := by
  have hdie (va : Nat) : spliceDie s (c.wrote w) va = spliceDie s c va := rfl
  have hall : splicesTo s (c.wrote w) w = w.bytes := splicesTo_all fun b hb y hy => by
    rw [writeSite_wrote]
    exact h b hb y (hdie _ ▸ hy)
  simp only [Cmd.spliced, hall]

/-! ### The issuing task (R234) and COMMAND_RETIRE (R130, R232) -/

/-- A change of the issuing task changes agents or what a die has saved. -/
theorem mapTask_frame (s : State) (c : Cmd) (f : CoreState → CoreState) :
    ∃ core parked dies, mapTask s c f = { s with core := core, parked := parked, dies := dies } := by
  simp only [mapTask, State.mapAgent, State.setAgent]
  split
  · split <;> exact ⟨_, _, _, rfl⟩
  · exact ⟨_, _, _, rfl⟩

/-- The issuing task on the active agent. -/
theorem mapTask_core {s : State} {c : Cmd} (h : c.of s.coreId s.core = true) (f : CoreState → CoreState) :
    mapTask s c f = { s with core := f s.core } := by
  simp only [mapTask, Cmd.agent, h, if_true, State.mapAgent, State.setAgent, State.agent]

theorem byteAt_mapTask (s : State) (c : Cmd) (f : CoreState → CoreState) (pa : Nat) : byteAt (mapTask s c f) pa = byteAt s pa := by
  obtain ⟨_, _, _, h⟩ := mapTask_frame s c f
  rw [h]
  rfl

theorem mapTask_cmds (s : State) (c : Cmd) (f : CoreState → CoreState) : (mapTask s c f).cmds = s.cmds := by
  obtain ⟨_, _, _, h⟩ := mapTask_frame s c f
  rw [h]

theorem findCmd_mapTask (s : State) (c : Cmd) (f : CoreState → CoreState) (id : Nat) :
    findCmd (mapTask s c f) id = findCmd s id := by
  simp only [findCmd, mapTask_cmds]

theorem kvResult_frame (s : State) (c : Cmd) : ∃ r, kvResult s c = { c with result := r } := by
  simp only [kvResult]
  split
  · exact ⟨_, rfl⟩
  · exact ⟨_, rfl⟩
  · exact ⟨c.result, rfl⟩

/-- What a command still does as it retires is aside, and gives it a result at most. -/
theorem lastActs_frame (s : State) (c : Cmd) : Aside s (lastActs s c).1 ∧ ∃ r, (lastActs s c).2 = { c with result := r } := by
  simp only [lastActs]
  split
  · exact ⟨.engineWrite _ _ _ _, c.result, rfl⟩
  · split
    · exact ⟨.engineWrite _ _ _ _, c.result, rfl⟩
    · exact ⟨.refl s, c.result, rfl⟩
  · exact ⟨.engineWrite _ _ _ _, c.result, rfl⟩
  · refine ⟨?_, kvResult_frame s c⟩
    dsimp only
    split
    · exact .refl s
    · exact (Silent.choice s _).aside

/-- A copy does nothing more. -/
theorem lastActs_copy {s : State} {c : Cmd} {dst src : List Seg} {n : Nat} {g : List (Nat × Option Nat)}
    (h : c.body = .copy dst src n g) : lastActs s c = (s, c) := by
  simp [lastActs, kvResult, h]

/-- What its command's retirement does to the issuing task. -/
def Cmd.retireTask (c : Cmd) (x : CoreState) : CoreState :=
  let x := if c.path == Path.splice then x else x.count (pathClass c.path) (-1)
  let x := x.orFlags c.flags
  match c.tok, c.result with
  | some t, some v => x.answer t v
  | _, _ => x

theorem retire_eq (s : State) (c : Cmd) :
    retire s c = settle { mapTask s c c.retireTask with
      cmds := (mapTask s c c.retireTask).cmds.filter fun x => x.id != c.id } := rfl

theorem Cmd.retireTask_counts {c : Cmd} (h : c.path ≠ .splice) (x : CoreState) :
    (c.retireTask x).cnt = x.cnt.add (pathClass c.path) (-1) ∧ (c.retireTask x).fflags = x.fflags ||| c.flags.setWidth 32 := by
  have hpath : (c.path == Path.splice) = false := by simpa using h
  simp only [Cmd.retireTask, hpath, Bool.false_eq_true, if_false]
  split <;> exact ⟨rfl, rfl⟩

theorem exec_commandRetire {id : Nat} {s : State} {c : Cmd} (hc : findCmd s id = some c) (h : mayRetire s c = true) :
    exec (.commandRetire id) s = stepped (retire (lastActs s c).1 (lastActs s c).2) := by
  change execCommandRetire id s = _
  simp only [execCommandRetire, hc, h]
  rfl

/-! ### Pieces (R77, R79, R80, R86) -/

/-- A step of a command whose last act is to note how far it is. -/
theorem next_setCmd {i : Instr} {id : Nat} {s t : State} {c c' : Cmd} (hexec : exec i s = stepped (setCmd t c'))
    (hc : findCmd t id = some c) (hid : c'.id = c.id) :
    exec i s = .next (settle (setCmd t c')).clear ∧ findCmd (settle (setCmd t c')).clear id = some c' :=
  ⟨hexec.trans (ok_eq _), ((Aside.settle _).findCmd id).trans (findCmd_setCmd hc hid)⟩

/-- A command and what it becomes as its piece `n` starts. -/
structure Cmd.StartsPiece (c c' : Cmd) (n : Nat) : Prop where
  id : c'.id = c.id
  started : c'.started = true
  piece : (c'.pieces[n]?).map (·.started) = (c.pieces[n]?).map fun _ => true

theorem started_setPiece {f : Piece → Piece} (hf : ∀ p, (f p).started = true) (ps : List Piece) (n : Nat) :
    ((setPiece ps n f)[n]?).map (·.started) = (ps[n]?).map fun _ => true := by
  simp [getElem?_setPiece, Function.comp_def, hf]

/-- An injected error that is taken changes a die's injection register alone. -/
theorem Silent.setEinj (s : State) (d : BitVec 2) (e : Word) : Silent s (s.mapDie d fun x => { x with einj := e }) :=
  ⟨.setDie s d ⟨rfl, rfl, rfl, rfl, rfl⟩ ⟨rfl, rfl, rfl⟩, fun _ => rfl⟩

theorem Cmd.startsPiece (c : Cmd) (n : Nat) {f : Piece → Piece} (hf : ∀ p, (f p).started = true) (ships : List Ship)
    (out : List EngWrite) :
    c.StartsPiece { c with started := true, ships := ships, out := out, pieces := setPiece c.pieces n f } n :=
  ⟨rfl, rfl, started_setPiece hf c.pieces n⟩

/-- A piece that runs reads, may take an injected error, and notes its results. -/
theorem runPiece_frame (s : State) (c : Cmd) (n : Nat) (p : Piece) (k : TopKind) (d : Shape) (srcs : List Shape) (vc : Option Nat)
    (rnd : BitVec 3) (sat : Bool) : ∃ t c', Silent s t ∧ c.StartsPiece c' n ∧
      runPiece s c n p k d srcs vc rnd sat = setCmd t c' := by
  unfold runPiece
  dsimp only
  refine ⟨_, _, ?_, ?_, rfl⟩
  · exact (Silent.readAtSite s c _ _ _).trans (.setEinj _ _ _)
  · exact c.startsPiece n (fun _ => rfl) _ _

theorem runAttn_frame (s : State) (c : Cmd) (a : Attn) : ∃ t c', Silent s t ∧ c.StartsPiece c' 0 ∧ runAttn s c a = setCmd t c' := by
  unfold runAttn
  dsimp only
  refine ⟨_, _, ?_, ?_, rfl⟩
  · split
    · exact .refl s
    · exact .attnData s c a
  · exact c.startsPiece 0 (fun _ => rfl) c.ships _

/-- Whether the site of a piece takes it now: a face piece when its turn has come, any other when its command may start. -/
def siteTakes (s : State) (c : Cmd) (n : Nat) (p : Piece) : Prop :=
  (p.site ≠ .face ∧ (c.started = true ∨ topMayStart s c = true)) ∨
    (p.site = .face ∧ c.started = true ∧ s.xd0.hot = false ∧ faceReady s c.id n p = true)

/-- A piece that its site takes runs, its command started. -/
theorem startTopPiece_eq {s : State} {c : Cmd} {n : Nat} {p : Piece} (hc : findCmd s c.id = some c) (hp : p.started = false)
    (h : siteTakes s c n p) (k : TopKind) (d : Shape) (srcs : List Shape) (vc : Option Nat) (rnd : BitVec 3) (sat : Bool) :
    ∃ t c', startTopPiece s c n p k d srcs vc rnd sat = some (runPiece t { c with started := true } n p k d srcs vc rnd sat) ∧
      t.core = s.core ∧ (∀ pa, byteAt t pa = byteAt s pa) ∧ findCmd t c.id = some c' ∧ c'.id = c.id := by
  obtain ⟨hsite, hmay⟩ | ⟨hsite, hstarted, -, hready⟩ := h
  · have hmay' : (!(c.started || topMayStart s c)) = false := by
      rw [Bool.not_eq_false', Bool.or_eq_true]
      exact hmay
    have hface : (p.site == Site.face) = false := by simpa using hsite
    simp only [startTopPiece, hp, hmay', hface, Bool.or_false, Bool.false_eq_true, if_false]
    split
    · exact ⟨s, c, rfl, rfl, fun _ => rfl, hc, rfl⟩
    · exact ⟨_, _, rfl, rfl, fun _ => rfl, findCmd_setCmd (c' := { c with started := true }) hc rfl, rfl⟩
  · simp only [startTopPiece, hp, hstarted, hsite, hready, Bool.true_or, Bool.not_true, Bool.or_false, Bool.false_eq_true, if_false,
      beq_self_eq_true, if_true]
    exact ⟨_, c, rfl, rfl, fun _ => rfl, hc, rfl⟩

section
variable {id n : Nat} {s : State} {c : Cmd} {p : Piece} (hc : findCmd s id = some c) (hpiece : c.pieces[n]? = some p)
include hc hpiece

theorem exec_pieceStart_top {k : TopKind} {d : Shape} {ss : List Shape} {vc : Option Nat} {st : Option (List Seg)}
    {rnd : BitVec 3} {sat hm enc cen : Bool} (hbody : c.body = .top k d ss vc st rnd sat hm enc cen) (hbar : faceBarred s p = false)
    {t : State} (ht : startTopPiece s c n p k d ss vc rnd sat = some t) : exec (.pieceStart id n) s = stepped t := by
  change execPieceStart id n s = _
  simp only [execPieceStart, hc, hpiece, hbody, hbar, ht]
  rfl

theorem exec_pieceStart_attn {a : Attn} (hbody : c.body = .attn a) (hp : p.started = false)
    (hblocks : (a.n + 63) / 64 ≤ a.blocks.length) (hmay : c.started = true ∨ kvMayStart s c = true) :
    exec (.pieceStart id n) s = stepped (runAttn s c a) := by
  have hlen : decide (a.blocks.length < attnBlocks a) = false := decide_eq_false (Nat.not_lt.2 hblocks)
  have hmay' : (c.started || kvMayStart s c) = true := by simpa using hmay
  change execPieceStart id n s = _
  simp only [execPieceStart, hc, hpiece, hbody, hp, hlen, hmay']
  rfl

theorem exec_pieceComplete (hstarted : p.started = true) (hout : p.out = none) (hwrites : ∀ w ∈ c.out, w.piece ≠ n) :
    exec (.pieceComplete id n) s = stepped (settleFaces (finishPiece s c n p)) := by
  have hany : (c.out.any fun w => w.piece == n) = false := by simpa using hwrites
  change execPieceComplete id n s = _
  simp only [execPieceComplete, hc, hpiece, hstarted, hout, hany]
  rfl

end

/-- The command once its piece `n` has completed or failed. -/
def Cmd.finishedPiece (c : Cmd) (n : Nat) (p : Piece) : Cmd :=
  { c with
    pieces := setPiece c.pieces n fun q => { q with out := some q.fate }
    flags := if p.fate = 0 then c.flags ||| p.flags else c.flags }

theorem finishPiece_ok {c : Cmd} {p : Piece} (h : p.fate = 0) (s : State) (n : Nat) :
    finishPiece s c n p = setCmd s (c.finishedPiece n p) := if_pos h

theorem finishPiece_failed {c : Cmd} {p : Piece} (h : p.fate ≠ 0) (s : State) (n : Nat) :
    Silent (mapTask (setCmd s (c.finishedPiece n p)) c fun x => { x with tstat := x.tstat ||| 1 }) (finishPiece s c n p) := by
  rw [show finishPiece s c n p = failPiece (setCmd s (c.finishedPiece n p)) c n p from if_neg h]
  exact .logCmd _ _ _

/-- A piece that has completed or failed is noted with its command, and no byte changes. -/
theorem finishPiece_frame {id : Nat} {s : State} {c : Cmd} (hc : findCmd s id = some c) (n : Nat) (p : Piece) :
    findCmd (finishPiece s c n p) id = some (c.finishedPiece n p) ∧ ∀ pa, byteAt (finishPiece s c n p) pa = byteAt s pa := by
  have hset : findCmd (setCmd s (c.finishedPiece n p)) id = some (c.finishedPiece n p) := findCmd_setCmd hc rfl
  by_cases h : p.fate = 0
  · rw [finishPiece_ok h]
    exact ⟨hset, fun _ => rfl⟩
  · have hsilent := finishPiece_failed (c := c) h s n
    refine ⟨?_, fun pa => (hsilent.byteAt pa).trans (byteAt_mapTask _ _ _ pa)⟩
    rw [hsilent.aside.findCmd, findCmd_mapTask, hset]

/-! ### The writes of a locator step (R101, R102) -/

theorem entryOr_append (l r : List WByte) (pa : Nat) (x : Byte × Bool) :
    entryOr (l ++ r) pa x = entryOr l pa (entryOr r pa x) := by
  simp only [entryOr, List.find?_append]
  cases l.find? fun b => b.pa == pa <;> rfl

/-- A byte that is written clean. -/
def cleanByte (y : Nat × Byte) : WByte := ⟨y.1, y.2, false⟩

theorem landed_of_byteAt {s u : State} {d : BitVec 2} {ws : List (Nat × Byte)} (h : ∀ pa, byteAt u pa =
      if reaches s d pa then entryOr (ws.map cleanByte) pa (byteAt s pa) else byteAt s pa) : landed s u d ws := by
  refine ⟨fun pa b hb hreach => ?_, fun pa hpa => ?_⟩
  · have hmap : (ws.map cleanByte).find? (fun y => y.pa == pa) = some (cleanByte (pa, b)) := by
      rw [List.find?_map]
      exact congrArg (Option.map cleanByte) hb
    rw [h, if_pos hreach, entryOr_some hmap]
    rfl
  · rw [h]
    obtain hpa | hpa := hpa
    · rw [entryOr_none (fun b hb => by
        obtain ⟨y, hy, rfl⟩ := List.mem_map.1 hb
        exact hpa y hy), ite_self]
    · rw [hpa]
      rfl

/-- The bytes that a locator step writes from `va` on, at their addresses. -/
def locBytes (s : State) (c : Cmd) (l : Locator) (va : Nat) (bs : List Byte) : List (Nat × Byte) :=
  bs.zipIdx.filterMap fun b => (locAddr s c l (va + b.2)).map fun p => (p, b.1)

/-- Between two states a command has written `ws` and nothing else; of an address that is listed twice the first stands. -/
structure Lays (s : State) (c : Cmd) (t : State) (ws : List (Nat × Byte)) : Prop where
  aside : Aside s t
  byteAt : ∀ pa, byteAt t pa =
    if reaches s c.die pa then entryOr (ws.map cleanByte) pa (byteAt s pa) else byteAt s pa

theorem Lays.refl (s : State) (c : Cmd) : Lays s c s [] := ⟨.refl s, fun _ => (ite_self _).symm⟩

theorem Lays.locWrite {s t : State} {c : Cmd} {ws : List (Nat × Byte)} (h : Lays s c t ws) (l : Locator) (va : Nat)
    (bs : List Byte) : Lays s c (locWrite t c l va bs) (locBytes s c l va bs ++ ws) where
  aside := h.aside.trans (.engineWrite t c [] _)
  byteAt pa := by
    have hbytes : (bs.zipIdx.filterMap fun b => (locAddr t c l (va + b.2)).map fun p => (⟨p, b.1, false⟩ : WByte)) =
        (locBytes s c l va bs).map cleanByte := by
      simp only [locBytes, List.map_filterMap, h.aside.locAddr, Option.map_map]
      rfl
    refine (byteAt_engineWrite t c [] _ pa).trans ?_
    rw [hbytes, h.aside.reaches, h.byteAt, List.map_append, entryOr_append]
    split <;> rfl

/-- A block that is freed: its entry loses VAL, and where an overflow record named it the last record takes that one's place. -/
def freedBytes (s : State) (c : Cmd) (l : Locator) (e : Nat) (r : Option Nat) : List (Nat × Byte) :=
  let entry := locBytes s c l (l.table + 16 * e) { (entryAt s c l e).1 with val := false }.toBytes
  let n := (liveOv s c l).1
  let count := locBytes s c l (l.desc + 12) (bytesOfNat 4 (n - 1))
  match r with
  | none => entry
  | some x =>
    if x + 1 = n then count ++ entry
    else count ++ locBytes s c l (l.ovfl + 16 * x) (locRead s c l (l.ovfl + 16 * (n - 1)) 16).1 ++ entry

/-- A block is freed unless an overflow record must move and the last one reads uncorrectable. -/
def freeable (s : State) (c : Cmd) (l : Locator) (r : Option Nat) : Prop :=
  ∀ x, r = some x → x + 1 ≠ (liveOv s c l).1 → (locRead s c l (l.ovfl + 16 * ((liveOv s c l).1 - 1)) 16).2 = none

section
variable {s : State} {c : Cmd} {l : Locator} {e x : Nat} {b : List Byte} (hx : x + 1 ≠ (liveOv s c l).1)
include hx

theorem freeBlock_moves (hread : locRead s c l (l.ovfl + 16 * ((liveOv s c l).1 - 1)) 16 = (b, none)) :
    freeBlock s c l e (some x) = some (locWrite (locWrite (locWrite s c l (l.table + 16 * e)
      { (entryAt s c l e).1 with val := false }.toBytes) c l (l.ovfl + 16 * x) b) c l (l.desc + 12)
        (bytesOfNat 4 ((liveOv s c l).1 - 1))) := by
  simp only [freeBlock]
  rw [if_neg hx, hread]

theorem freeBlock_stuck {pa : Nat} (hread : locRead s c l (l.ovfl + 16 * ((liveOv s c l).1 - 1)) 16 = (b, some pa)) :
    freeBlock s c l e (some x) = none := by
  simp only [freeBlock]
  rw [if_neg hx, hread]

end

theorem freeBlock_some {s : State} {c : Cmd} {l : Locator} {e : Nat} {r : Option Nat} (h : freeable s c l r) :
    ∃ t, freeBlock s c l e r = some t ∧ Lays s c t (freedBytes s c l e r) := by
  have hentry : Lays s c (locWrite s c l (l.table + 16 * e) { (entryAt s c l e).1 with val := false }.toBytes)
      (locBytes s c l (l.table + 16 * e) { (entryAt s c l e).1 with val := false }.toBytes) := by
    simpa using (Lays.refl s c).locWrite l (l.table + 16 * e) { (entryAt s c l e).1 with val := false }.toBytes
  cases r with
  | none => exact ⟨_, rfl, hentry⟩
  | some x =>
    by_cases hx : x + 1 = (liveOv s c l).1
    · refine ⟨_, if_pos hx, ?_⟩
      simp only [freedBytes, if_pos hx]
      exact hentry.locWrite l _ _
    · rcases hread : locRead s c l (l.ovfl + 16 * ((liveOv s c l).1 - 1)) 16 with ⟨b, bad⟩
      obtain rfl : bad = none := by simpa [hread] using h x rfl hx
      refine ⟨_, freeBlock_moves hx hread, ?_⟩
      simp only [freedBytes, if_neg hx, hread, List.append_assoc]
      exact (hentry.locWrite l _ _).locWrite l _ _

theorem freedBytes_last {s : State} {c : Cmd} {l : Locator} {e x : Nat} (hx : x + 1 = (liveOv s c l).1) :
    freedBytes s c l e (some x) = locBytes s c l (l.desc + 12) (bytesOfNat 4 ((liveOv s c l).1 - 1)) ++
      locBytes s c l (l.table + 16 * e) { (entryAt s c l e).1 with val := false }.toBytes := if_pos hx

theorem freedBytes_moves {s : State} {c : Cmd} {l : Locator} {e x : Nat} (hx : x + 1 ≠ (liveOv s c l).1) :
    freedBytes s c l e (some x) = locBytes s c l (l.desc + 12) (bytesOfNat 4 ((liveOv s c l).1 - 1)) ++
      locBytes s c l (l.ovfl + 16 * x) (locRead s c l (l.ovfl + 16 * ((liveOv s c l).1 - 1)) 16).1 ++
      locBytes s c l (l.table + 16 * e) { (entryAt s c l e).1 with val := false }.toBytes := if_neg hx

/-! ### LOCATOR_STEP (R99, R101, R107) -/

/-- The command, started. -/
def Cmd.start (c : Cmd) : Cmd := { c with started := true }

theorem exec_locatorStep {id : Nat} {s t : State} {c : Cmd} (hc : findCmd s id = some c)
    (hmay : c.started = true ∨ kvMayStart s c = true) (ht : locatorStep s c = some t) :
    exec (.locatorStep id) s = stepped t := by
  have hmay' : (c.started || kvMayStart s c) = true := by rwa [Bool.or_eq_true]
  change execLocatorStep id s = _
  simp only [execLocatorStep, hc, hmay', ht]
  rfl

/-- A step of a command ends in the state in which the command is noted. -/
theorem steps_of {i : Instr} {id : Nat} {s t : State} {c c' : Cmd} {p : State → Cmd → Prop}
    (hexec : exec i s = stepped (setCmd t c')) (hc : findCmd t id = some c) (hid : c'.id = c.id) (hstarted : c'.started = true)
    (hp : p (settle (setCmd t c')).clear c') :
    ∃ u c', exec i s = .next u ∧ u.sig = .none ∧ findCmd u id = some c' ∧ c'.started = true ∧ p u c' :=
  have h := next_setCmd hexec hc hid
  ⟨_, c', h.1, rfl, h.2, hstarted, hp⟩

section
variable {s : State} {c : Cmd} {l : Locator} {seq lblk : BitVec 32} (hbody : c.body = .kvfind l seq lblk)
  (hopen : c.finished = false)
include hbody hopen

theorem locatorStep_kvfind_block {e : Nat} {r : Option Nat} (hfound : lookup s c.start l seq.toNat lblk.toNat = .block e r) :
    locatorStep s c = some (setCmd s { c.start with finished := true, result := some (BitVec.ofNat 64 e) }) := by
  simp only [Cmd.start, hbody, hopen] at hfound
  simp only [locatorStep, Cmd.start, hbody, hopen, hfound, Bool.false_eq_true, if_false]

theorem locatorStep_kvfind_absent (hfound : lookup s c.start l seq.toNat lblk.toNat = .absent) :
    locatorStep s c = some (setCmd s { c.start with finished := true, result := some (BitVec.allOnes 64) }) := by
  simp only [Cmd.start, hbody, hopen] at hfound
  simp only [locatorStep, Cmd.start, hbody, hopen, hfound, Bool.false_eq_true, if_false]

theorem locatorStep_kvfind_error {pa : Nat} (hfound : lookup s c.start l seq.toNat lblk.toNat = .error pa) :
    locatorStep s c = some (setCmd { s with choice := s.choice + 1 }
      { c.start with finished := true, result := some (Config.freeLocator s.choice) }) := by
  simp only [Cmd.start, hbody, hopen] at hfound
  simp only [locatorStep, Cmd.start, hbody, hopen, hfound, Bool.false_eq_true, if_false]

end

section
variable {s : State} {c : Cmd} {l : Locator} {seq lo hi : BitVec 32} {next freed : Nat} {err : Bool}
  (hbody : c.body = .kvfree l seq lo hi next freed err) (hnext : next ≤ hi.toNat)
include hbody hnext

/-- Where the logical block is absent a KVFREE goes on. -/
theorem locatorStep_kvfree_absent (hfound : lookup s c.start l seq.toNat next = .absent) :
    locatorStep s c = some (setCmd s { c.start with body := .kvfree l seq lo hi (next + 1) freed err }) := by
  simp only [Cmd.start, hbody] at hfound
  simp only [locatorStep, Cmd.start, hbody, if_neg (Nat.not_lt.2 hnext), hfound]

/-- An error in the lookup is kept in mind. -/
theorem locatorStep_kvfree_error {pa : Nat} (hfound : lookup s c.start l seq.toNat next = .error pa) :
    locatorStep s c = some (setCmd s { c.start with body := .kvfree l seq lo hi (next + 1) freed true }) := by
  simp only [Cmd.start, hbody] at hfound
  simp only [locatorStep, Cmd.start, hbody, if_neg (Nat.not_lt.2 hnext), hfound]

/-- A block that is found and freed is counted. -/
theorem locatorStep_kvfree_freed {e : Nat} {r : Option Nat} {t : State}
    (hfound : lookup s c.start l seq.toNat next = .block e r) (ht : freeBlock s c.start l e r = some t) :
    locatorStep s c = some (setCmd t { c.start with body := .kvfree l seq lo hi (next + 1) (freed + 1) err }) := by
  simp only [Cmd.start, hbody] at hfound ht
  simp only [locatorStep, Cmd.start, hbody, if_neg (Nat.not_lt.2 hnext), hfound, ht]

/-- A block that is found and cannot be freed is not counted, and the error is kept in mind. -/
theorem locatorStep_kvfree_stuck {e : Nat} {r : Option Nat}
    (hfound : lookup s c.start l seq.toNat next = .block e r) (ht : freeBlock s c.start l e r = none) :
    locatorStep s c = some (setCmd s { c.start with body := .kvfree l seq lo hi (next + 1) freed true }) := by
  simp only [Cmd.start, hbody] at hfound ht
  simp only [locatorStep, Cmd.start, hbody, if_neg (Nat.not_lt.2 hnext), hfound, ht]

end

/-- An ATTN with what its first block, found in the state `s`, tells it: the turn, and the band that it uses, captured in `t`. -/
def attnFirst (s t : State) (c : Cmd) (a : Attn) (e : Nat) : Attn :=
  let x := (entryAt s c a.loc e).1
  let known : Bool := x.turn != 2 || (a.bset == x.bset && a.band.isSome)
  if a.blocks.length = 0 then
    { a with
      turn := x.turn
      bset := x.bset
      band := if x.turn ≠ 2 then none else if known then a.band else some (captureBand t c a.loc x.bset) }
  else a

section
variable {s : State} {c : Cmd} {a : Attn} {p : Piece} (hbody : c.body = .attn a) (hpieces : c.pieces = [p])
  (hp : p.started = false) (hblocks : a.blocks.length < (a.n + 63) / 64)
include hbody hpieces hp hblocks

/-- A lookup that fails ends an ATTN with its outcome. -/
theorem locatorStep_attn_absent (hfound : lookup s c.start a.loc a.seq.toNat a.blocks.length = .absent) :
    locatorStep s c = some (setCmd s { c.start with
      pieces := [{ p with started := true, shipped := 0, fate := 3, failPa := 0 }] }) := by
  have hmore : ¬ attnBlocks a ≤ a.blocks.length := Nat.not_le.2 hblocks
  simp only [Cmd.start, hbody, hpieces] at hfound
  simp only [locatorStep, Cmd.start, hbody, hpieces, hp, hmore, hfound, decide_false, Bool.or_false, Bool.false_eq_true, if_false]

theorem locatorStep_attn_error {pa : Nat} (hfound : lookup s c.start a.loc a.seq.toNat a.blocks.length = .error pa) :
    locatorStep s c = some (setCmd s { c.start with
      pieces := [{ p with started := true, shipped := 0, fate := 2, failPa := pa }] }) := by
  have hmore : ¬ attnBlocks a ≤ a.blocks.length := Nat.not_le.2 hblocks
  simp only [Cmd.start, hbody, hpieces] at hfound
  simp only [locatorStep, Cmd.start, hbody, hpieces, hp, hmore, hfound, decide_false, Bool.or_false, Bool.false_eq_true, if_false]

/-- A block that an ATTN finds joins its list; its issuing task may take a fault for the band. -/
theorem locatorStep_attn_block {e : Nat} {r : Option Nat}
    (hfound : lookup s c.start a.loc a.seq.toNat a.blocks.length = .block e r) : ∃ t,
    (t = s ∨ ∃ va n, t = lateFault s c.start a.loc va n) ∧ locatorStep s c = some (setCmd t { c.start with
      body := .attn { attnFirst s t c.start a e with blocks := (attnFirst s t c.start a e).blocks ++ [e] } }) := by
  have hmore : ¬ attnBlocks a ≤ a.blocks.length := Nat.not_le.2 hblocks
  simp only [Cmd.start, hbody, hpieces] at hfound
  simp only [locatorStep, Cmd.start, hbody, hpieces, hp, hmore, hfound, decide_false, Bool.or_false, Bool.false_eq_true, if_false]
  refine ⟨_, ?_, rfl⟩
  split
  · exact .inr ⟨_, _, rfl⟩
  · exact .inl rfl

end

/-- What one says of each thing that a lookup may find, where it finds nothing. -/
theorem Found.of_absent {f : Found} {p : Prop} {q : Nat → Prop} {k : Nat → Option Nat → Prop} (hf : f = .absent) (h : p) :
    (f = .absent → p) ∧ (∀ pa, f = .error pa → q pa) ∧ ∀ e r, f = .block e r → k e r := by
  subst hf
  exact ⟨fun _ => h, nofun, nofun⟩

/-- The same where it meets an error. -/
theorem Found.of_error {f : Found} {p : Prop} {q : Nat → Prop} {k : Nat → Option Nat → Prop} {pa : Nat} (hf : f = .error pa)
    (h : q pa) : (f = .absent → p) ∧ (∀ pa, f = .error pa → q pa) ∧ ∀ e r, f = .block e r → k e r := by
  subst hf
  exact ⟨nofun, fun _ he => Found.error.inj he ▸ h, nofun⟩

/-- The same where it finds a block. -/
theorem Found.of_block {f : Found} {p : Prop} {q : Nat → Prop} {k : Nat → Option Nat → Prop} {e : Nat} {r : Option Nat}
    (hf : f = .block e r) (h : k e r) : (f = .absent → p) ∧ (∀ pa, f = .error pa → q pa) ∧ ∀ e r, f = .block e r → k e r := by
  subst hf
  refine ⟨nofun, nofun, fun e' r' he => ?_⟩
  obtain ⟨rfl, rfl⟩ := Found.block.inj he
  exact h

/-- A KVFREE that finds a block frees it and counts it, or keeps in mind that it could not. -/
theorem kvfree_block {id : Nat} {s : State} {c : Cmd} {l : Locator} {seq lo hi : BitVec 32} {next freed e : Nat} {err : Bool}
    {r : Option Nat} (hc : findCmd s id = some c) (hmay : c.started = true ∨ kvMayStart s c = true)
    (hbody : c.body = .kvfree l seq lo hi next freed err) (hnext : next ≤ hi.toNat)
    (hfound : lookup s c.start l seq.toNat next = .block e r) :
    ∃ u c', exec (.locatorStep id) s = .next u ∧ u.sig = .none ∧ findCmd u id = some c' ∧ c'.started = true ∧
      (freeable s c.start l r →
        c'.body = .kvfree l seq lo hi (next + 1) (freed + 1) err ∧ landed s u c.die (freedBytes s c.start l e r)) ∧
      (¬ freeable s c.start l r →
        c'.body = .kvfree l seq lo hi (next + 1) freed true ∧ ∀ pa, byteAt u pa = byteAt s pa) := by
  by_cases hfree : freeable s c.start l r
  · obtain ⟨t, ht, hlays⟩ := freeBlock_some (e := e) hfree
    refine steps_of (exec_locatorStep hc hmay (locatorStep_kvfree_freed hbody hnext hfound ht))
      ((hlays.aside.findCmd id).trans hc) rfl rfl ⟨fun _ => ⟨rfl, ?_⟩, fun h => absurd hfree h⟩
    exact landed_of_byteAt fun pa => (settle_byteAt _ pa).trans (hlays.byteAt pa)
  · have hstuck : freeBlock s c.start l e r = none := by
      simp only [freeable, not_forall] at hfree
      obtain ⟨x, rfl, hx, hlast⟩ := hfree
      obtain ⟨pa, hpa⟩ := Option.ne_none_iff_exists'.1 hlast
      exact freeBlock_stuck hx (Prod.ext rfl hpa)
    exact steps_of (exec_locatorStep hc hmay (locatorStep_kvfree_stuck hbody hnext hfound hstuck)) hc rfl rfl
      ⟨fun h => absurd h hfree, fun _ => ⟨rfl, settle_byteAt _⟩⟩

theorem attnFirst_same (s t : State) (c : Cmd) (a : Attn) (e : Nat) :
    (attnFirst s t c a e).blocks = a.blocks ∧ (attnFirst s t c a e).q = a.q ∧ (attnFirst s t c a e).kp = a.kp ∧
      (attnFirst s t c a e).vp = a.vp ∧ (attnFirst s t c a e).o = a.o ∧ (attnFirst s t c a e).n = a.n := by
  simp only [attnFirst]
  split <;> exact ⟨rfl, rfl, rfl, rfl, rfl, rfl⟩

theorem attnFirst_turn {a : Attn} (h : a.blocks = []) (s t : State) (c : Cmd) (e : Nat) :
    (attnFirst s t c a e).turn = (entryAt s c a.loc e).1.turn := by
  simp only [attnFirst, h, List.length_nil, if_true]

theorem attnFirst_later {a : Attn} (h : a.blocks ≠ []) (s t : State) (c : Cmd) (e : Nat) : attnFirst s t c a e = a :=
  if_neg (mt List.length_eq_zero_iff.1 h)

/-- A fault that a locator step finds waits for its task; no byte and no command changes. -/
theorem lateFault_frame (s : State) (c : Cmd) (l : Locator) (va n : Nat) :
    (∀ pa, byteAt (lateFault s c l va n) pa = byteAt s pa) ∧ ∀ id, findCmd (lateFault s c l va n) id = findCmd s id := by
  simp only [lateFault]
  split
  · exact ⟨byteAt_mapTask _ _ _, findCmd_mapTask _ _ _⟩
  · exact ⟨fun _ => rfl, fun _ => rfl⟩

/-! ### SETBAND (R107) -/

theorem startCmd_setband {s : State} {c : Cmd} {dst : List Seg} {src : List Byte} (hbody : c.body = .setband dst src)
    (hnew : c.started = false) (hmay : kvMayStart s c = true) :
    startCmd s c = some (setCmd s { c.start with finished := true, out := [bandWrite s dst src] }) := by
  simp only [startCmd, Cmd.start, hnew, hbody, hmay, Bool.false_eq_true, if_false, if_true]

theorem startCmd_started {s : State} {c : Cmd} (h : c.started = true) : startCmd s c = none := by
  simp only [startCmd, h, if_true]

/-- A write of a command whose path is not that of copies may go at once. -/
theorem writeMayGo_tensor {s : State} {c : Cmd} (h : c.path = .tensor) (i : Nat) (w : EngWrite) : writeMayGo s c i w = true := by
  simp only [writeMayGo, h]

/-- The band table that a SETBAND writes: the captured one with the next version. -/
def bandBytes (s : State) (dst : List Seg) (src : List Byte) : List (Nat × Byte) :=
  let pas := segAddrs dst
  let ver := natOfBytes ((pas.take 4).map fun p => (byteAt s p).1)
  pas.zip (bytesOfNat 4 ((ver + 1) % 2 ^ 32) ++ src.drop 4)

theorem landed_bandWrite (s : State) (c : Cmd) (dst : List Seg) (src : List Byte) (rest : List EngWrite) :
    landed s (settle (performWrite s c (bandWrite s dst src) rest)).clear c.die (bandBytes s dst src) :=
  landed_of_byteAt fun pa => (settle_byteAt _ pa).trans (byteAt_performWrite s c (bandWrite s dst src) rest pa)

end Sys2Proof.Machine

namespace Sys2Proof.Rules

open Sys2Proof.Machine

/-- A command that retires leaves its list, and its task counts it no longer. -/
theorem commandRetires : CommandRetires := by
  intro id s c hc hmay
  obtain ⟨haside, r, hr⟩ := lastActs_frame s c
  refine ⟨_, (exec_commandRetire hc hmay).trans (ok_eq _), rfl, ?_, fun hof hpath => ?_, ?_⟩
  · refine (Aside.settle _).cmds.trans ?_
    rw [retire_eq, (Aside.settle _).cmds, mapTask_cmds, haside.cmds, hr]
    exact congrArg (fun n => s.cmds.filter fun x => x.id != n) (findCmd_id hc)
  · have hof' : Cmd.of { c with result := r } (lastActs s c).1.coreId (lastActs s c).1.core = true := by
      rw [haside.quiet.core, haside.quiet.coreId]
      exact hof
    have hcore : (settle (retire (lastActs s c).1 (lastActs s c).2)).core = Cmd.retireTask { c with result := r } s.core := by
      rw [settle_core, hr, retire_eq, settle_core, mapTask_core hof', haside.quiet.core]
    obtain ⟨hcnt, hflags⟩ := Cmd.retireTask_counts (c := { c with result := r }) hpath s.core
    exact ⟨(congrArg (·.cnt) hcore).trans hcnt, (congrArg (·.fflags) hcore).trans hflags⟩
  · rintro ⟨dst, src, n, g, hbody⟩ pa
    refine (settle_byteAt _ pa).trans ?_
    rw [lastActs_copy hbody, retire_eq, settle_byteAt]
    exact byteAt_mapTask s c _ pa

/-- A piece starts with its reads, and completes with its outcome. -/
theorem pieces : Pieces := by
  intro id n s c p hc hpiece
  have hid := findCmd_id hc
  subst hid
  refine ⟨fun k d ss vc st rnd sat hm enc cen hbody hp htakes => ?_, fun a hbody hp hblocks hmay hn => ?_,
    fun hstarted hout hwrites => ?_⟩
  · obtain ⟨t, c0, ht, hcore, hbyte, hfind, hid⟩ := startTopPiece_eq hc hp htakes k d ss vc rnd sat
    obtain ⟨u, c', hu, hstarts, hrun⟩ := runPiece_frame t { c with started := true } n p k d ss vc rnd sat
    rw [hrun] at ht
    have hbar : faceBarred s p = false := by
      obtain ⟨hsite, -⟩ | ⟨-, -, hhot, -⟩ := htakes
      · simp [faceBarred, hsite]
      · simp [faceBarred, hhot]
    obtain ⟨hexec, hfound⟩ := next_setCmd (exec_pieceStart_top hc hpiece hbody hbar ht) ((hu.aside.findCmd _).trans hfind)
      (hstarts.id.trans hid.symm)
    refine ⟨_, c', hexec, rfl, hfound, hstarts.started, hstarts.piece.trans (congrArg _ hpiece), fun pa => ?_, ?_⟩
    · exact (settle_byteAt _ pa).trans ((hu.byteAt pa).trans (hbyte pa))
    · exact (settle_core _).trans (hu.aside.quiet.core.trans hcore)
  · subst hn
    obtain ⟨u, c', hu, hstarts, hrun⟩ := runAttn_frame s c a
    obtain ⟨hexec, hfound⟩ := next_setCmd ((exec_pieceStart_attn hc hpiece hbody hp hblocks hmay).trans (congrArg stepped hrun))
      ((hu.aside.findCmd _).trans hc) hstarts.id
    exact ⟨_, c', hexec, hfound, hstarts.piece.trans (congrArg _ hpiece), fun pa => (settle_byteAt _ pa).trans (hu.byteAt pa)⟩
  · obtain ⟨hfound, hbyte⟩ := finishPiece_frame hc n p
    refine ⟨_, c.finishedPiece n p, (exec_pieceComplete hc hpiece hstarted hout hwrites).trans (ok_eq _), ?_, ?_, fun pa => ?_,
      fun hfate => ⟨if_pos hfate, ?_⟩, fun hfate => ⟨if_neg hfate, fun hof => ?_⟩⟩
    · exact ((Aside.settle _).findCmd _).trans hfound
    · simp [Cmd.finishedPiece, getElem?_setPiece, hpiece]
    · exact (settle_byteAt _ pa).trans (hbyte pa)
    · refine (settle_core _).trans ?_
      rw [finishPiece_ok hfate]
      rfl
    · have hcore := (finishPiece_failed (c := c) hfate s n).aside.quiet.core
      rw [mapTask_core (s := setCmd s (c.finishedPiece n p)) hof] at hcore
      exact congrArg (·.tstat) ((settle_core (settleFaces _)).trans hcore)

/-- A locator step looks its block up, and does with it what its command is for. -/
theorem locatorSteps : LocatorSteps := by
  intro id s c l seq hc hmay
  refine ⟨fun lblk hbody hopen => ?_, fun lo hi next freed err hbody hnext => ?_, fun a p hbody hpieces hp hblocks => ?_,
    fun dst src i hbody hpath hcore => ⟨fun hnew => ?_, fun w hstarted hw => ?_⟩⟩
  · cases hfound : lookup s c.start l seq.toNat lblk.toNat with
    | block e r =>
      refine steps_of (exec_locatorStep hc hmay (locatorStep_kvfind_block hbody hopen hfound)) hc rfl rfl
        ⟨rfl, fun e' r' h => ?_, fun h => ?_, settle_byteAt _⟩
      · cases hfound.symm.trans h
        rfl
      · cases hfound.symm.trans h
    | absent =>
      refine steps_of (exec_locatorStep hc hmay (locatorStep_kvfind_absent hbody hopen hfound)) hc rfl rfl
        ⟨rfl, fun e' r' h => ?_, fun h => rfl, settle_byteAt _⟩
      cases hfound.symm.trans h
    | error pa =>
      refine steps_of (exec_locatorStep hc hmay (locatorStep_kvfind_error hbody hopen hfound)) hc rfl rfl
        ⟨rfl, fun e' r' h => ?_, fun h => ?_, settle_byteAt _⟩
      · cases hfound.symm.trans h
      · cases hfound.symm.trans h
  · cases hfound : lookup s c.start l seq.toNat next with
    | absent =>
      exact steps_of (exec_locatorStep hc hmay (locatorStep_kvfree_absent hbody hnext hfound)) hc rfl rfl
        (Found.of_absent hfound ⟨rfl, settle_byteAt _⟩)
    | error pa =>
      exact steps_of (exec_locatorStep hc hmay (locatorStep_kvfree_error hbody hnext hfound)) hc rfl rfl
        (Found.of_error hfound ⟨rfl, settle_byteAt _⟩)
    | block e r =>
      obtain ⟨u, c', hexec, hsig, hfind, hstarted, hfreed, hstuck⟩ := kvfree_block hc hmay hbody hnext hfound
      refine ⟨u, c', hexec, hsig, hfind, hstarted, Found.of_block hfound
        ⟨fun hr => ?_, fun x hr => ⟨fun hx => ?_, fun hx hlast => ?_, fun hx hlast => ?_⟩⟩⟩ <;> subst hr
      · exact hfreed nofun
      · obtain ⟨hafter, hland⟩ := hfreed fun y hy hne => absurd (Option.some.inj hy ▸ hx) hne
        rw [freedBytes_last (c := c.start) hx] at hland
        exact ⟨hafter, hland⟩
      · obtain ⟨hafter, hland⟩ := hfreed fun _ _ _ => hlast
        rw [freedBytes_moves (c := c.start) hx] at hland
        exact ⟨hafter, hland⟩
      · exact hstuck fun h => hlast (h x rfl hx)
  · cases hfound : lookup s c.start a.loc a.seq.toNat a.blocks.length with
    | absent =>
      exact steps_of (exec_locatorStep hc hmay (locatorStep_attn_absent hbody hpieces hp hblocks hfound)) hc rfl rfl
        ⟨settle_byteAt _, Found.of_absent hfound ⟨rfl, rfl⟩⟩
    | error pa =>
      exact steps_of (exec_locatorStep hc hmay (locatorStep_attn_error hbody hpieces hp hblocks hfound)) hc rfl rfl
        ⟨settle_byteAt _, Found.of_error hfound ⟨rfl, rfl⟩⟩
    | block e r =>
      obtain ⟨t, ht, hstep⟩ := locatorStep_attn_block hbody hpieces hp hblocks hfound
      have hframe : (∀ pa, byteAt t pa = byteAt s pa) ∧ ∀ id, findCmd t id = findCmd s id := by
        obtain rfl | ⟨va, n, rfl⟩ := ht
        · exact ⟨fun _ => rfl, fun _ => rfl⟩
        · exact lateFault_frame s c.start a.loc va n
      obtain ⟨hbyte, hfind⟩ := hframe
      obtain ⟨hb, hq, hkp, hvp, ho, hn⟩ := attnFirst_same s t c.start a e
      refine steps_of (exec_locatorStep hc hmay hstep) ((hfind id).trans hc) rfl rfl
        ⟨fun pa => (settle_byteAt _ pa).trans (hbyte pa), Found.of_block hfound ⟨rfl, _, rfl, congrArg (· ++ [e]) hb, hq, hkp, hvp,
          ho, hn, fun hnil => attnFirst_turn hnil s t _ e, fun hnil => ?_⟩⟩
      rw [attnFirst_later hnil]
  · have hmay' : kvMayStart s c = true := hmay.resolve_left (by rw [hnew]; exact Bool.false_ne_true)
    obtain ⟨hexec, hfound⟩ := next_setCmd (exec_engineWrite_start (i := i) hc (startCmd_setband hbody hnew hmay')) hc rfl
    exact ⟨_, _, hexec, rfl, hfound, rfl, rfl, rfl, settle_byteAt _⟩
  · have hexec := exec_engineWrite hc (startCmd_started hstarted) hw (writeMayGo_tensor hpath i w)
    rw [makeWrite_setband hcore hbody] at hexec
    obtain ⟨u, hu, hsig, hout, -, -, hland⟩ := made_of_aside (p := fun u => landed s u c.die (bandBytes s dst src)) hexec hc (w := w)
      (.performWrite s (c.wrote w) _ _) (landed_bandWrite s (c.wrote w) dst src _)
    exact ⟨u, hu, hsig, hout, hland⟩

/-- A command's write goes to memory, to splice windows or to control space by its kind and its issuer. -/
theorem engineWrites : EngineWrites := by
  intro id i s c w hc
  refine ⟨fun t ht => (exec_engineWrite_start hc ht).trans (ok_eq _), fun hstart hw hgo => ?_⟩
  have hexec := exec_engineWrite hc hstart hw hgo
  have hplain {t : State} (ht : t = performWrite s (c.wrote w) w (c.out.eraseIdx i)) :
      Lands s w (reaches s c.die) (fun b v => v = b.val) (settle t).clear :=
    lands_whole fun pa => (settle_byteAt _ pa).trans (ht ▸ byteAt_performWrite s (c.wrote w) w _ pa)
  refine ⟨fun hcore htop hband => ?_,
    fun k d ss vc st r sat h e n hcore hbody => ⟨fun hspl h4 => ?_, fun hspl h4 => ?_, fun hspl => ?_⟩,
    fun hcore => ⟨fun hreg hreach => ?_, fun hgone => ?_, fun hcontrol hnone hhost => ?_⟩⟩
  · rw [makeWrite_plain hcore htop hband] at hexec
    exact made_of_aside hexec hc (w := w) (.performWrite s (c.wrote w) w _) (hplain rfl)
  · rw [makeWrite_top hcore hbody, if_neg (by rw [hspl]; exact Bool.false_ne_true),
      if_neg (by rw [h4]; exact Bool.false_ne_true)] at hexec
    refine made_of_aside hexec hc (w := w) (.writeFromSite s (c.wrote w) w _) (lands_whole fun pa => ?_)
    refine (settle_byteAt _ pa).trans ((byteAt_writeFromSite s (c.wrote w) w _ pa).trans ?_)
    rw [writeSite_wrote]
    rfl
  · rw [makeWrite_top hcore hbody, if_neg (by rw [hspl]; exact Bool.false_ne_true), if_pos h4, shareNibbles_eq,
      Cmd.map_wrote (f := (·.elems)) fun _ _ => rfl] at hexec
    refine made_of_aside hexec hc (w := w) (.writeFromSite s (c.wrote w) _ _)
      (lands_of_byteAt _ (sharedByte_nibbles d s _) fun pa => ?_)
    refine (settle_byteAt _ pa).trans ((byteAt_writeFromSite s (c.wrote w) _ _ pa).trans ?_)
    change (if w.free s && siteReaches s c (writeSite (c.wrote w) w) pa then _ else _) = _
    rw [writeSite_wrote]
    rfl
  · rw [makeWrite_top hcore hbody, if_pos hspl] at hexec
    obtain ⟨t, ht, heq⟩ := spliceBytes_eq s (c.wrote w) d w (c.out.eraseIdx i)
    rw [heq] at hexec
    have hid := findCmd_id hc
    subst hid
    have hdel := Delivers.deliverRows (setCmd t (c.spliced s i w)) (c.spliced s i w) d
    have hcmd : findCmd (setCmd t (c.spliced s i w)) c.id = some (c.spliced s i w) :=
      findCmd_setCmd ((ht.aside.findCmd c.id).trans hc) rfl
    refine made_of hexec (hdel.core.trans ht.aside.quiet.core) ?_ ⟨fun pa => ?_, ?_⟩
    · obtain ⟨l, hl, -⟩ := hdel.cmd _ hcmd
      exact congrArg (Option.map (·.out)) hl
    · exact (settle_byteAt _ pa).trans ((hdel.byteAt pa).trans (ht.byteAt pa))
    · intro kept size at_ hroute r x y off die hr happart hwhole hwin hdie
      have hkept : (c.spliced s i w).spl = kept := spliced_spl hroute
      rw [← hkept] at hwhole ⊢
      have hmem := mem_rows_deliverRows (s := setCmd t (c.spliced s i w)) hcmd hr happart hwhole hwin (die := die)
        ((congrArg (fun b => boundDie (kfind b.ctxs c.slot) (BitVec.ofNat 64 x)) (ht.aside.quiet.die c.die).active).trans hdie)
      exact ((Aside.settle _).die die).rows.symm ▸ hmem
  · rw [makeWrite_controller hcore] at hexec
    refine ⟨(setCmd s (c.made i w)).cmds, ?_, ?_⟩
    · exact (congrArg (Option.map (·.out)) (findCmd_setCmd (c' := c.made i w) hc rfl)).trans rfl
    · refine (hexec.trans (ok_eq _)).trans ?_
      simp only [controllerCopy, hreg, show reaches s (c.wrote w).die _ = true from hreach]
      rfl
  · rw [makeWrite_controller hcore] at hexec
    have hdropped := controllerCopy_dropped (c := c.wrote w) (rest := c.out.eraseIdx i) hgone
    exact made_of_aside hexec hc (w := w) hdropped.aside fun pa => (settle_byteAt _ pa).trans (hdropped.byteAt pa)
  · rw [makeWrite_controller hcore, controllerCopy_memory hcontrol hnone hhost] at hexec
    exact made_of_aside hexec hc (w := w) (.performWrite s (c.wrote w) w _) (hplain rfl)

/-- Settles O42: writes, pieces and locator steps of engine commands, and how a command retires. -/
theorem engineSteps : Obligations.EngineSteps := ⟨engineWrites, commandRetires, pieces, locatorSteps⟩

end Sys2Proof.Rules

/-! SUPPORT. Tensor commands (R229, R239 to R244): from the checks of a TOP to its place in the tensor queue, and what a PLACEQ word
names (R81, R244). -/

namespace Sys2Proof.Machine

open Sys2Proof

/-! ### A tensor operation whose checks pass (R229) -/

/-- Once its format, records, shapes, status address and ranges have passed, a TOP goes to the tensor queue with its pieces; one
that is only planned goes there with the status bytes of those pieces. -/
theorem issueTop_submits {x : TopCmd} {s t : State} {raw : List RawRec} {d : Shape} {srcs srcs' : List Shape} {dseg sseg : List Seg}
    (hrnd : s.core.rnd.toNat < 5) (hcap : passes (captureHandles (x.d :: x.srcs) s) raw t)
    (hshapes : passesWith (withShapes t raw) (d :: srcs)) (hok : topOk x.kind d srcs = true) (hspl : d.spl = false)
    (hst : x.status % 8 = 0) (hsrcs : passesWith (withSources t x.kind d srcs x.vc 0 srcs) srcs') :
    let dOp := operandOf t d
    let ops := srcs.map (operandOf t)
    let pl := placeTop t x.kind dOp ops x.vc
    checkTensor t (destNeed x.kind) d (destElems x.kind d srcs x.vc (ops.headD dOp)) = .ok dseg →
    checkEngine t .tensor ⟨false, true⟩ x.status (if x.status = 0 then 0 else 8 + 8 * pl.pieces.length) = .ok sseg →
    let all := dseg ++ srcs'.flatMap (·.segs) ++ sseg
    ∃ reads, issueTop x s =
      if x.plan then submit t .tensor (.placeq sseg (statusBytes pl.pieces pl.hm pl.enc pl.cen 2)) all none id id
      else submit t .tensor
        (.top x.kind { d with segs := dseg } srcs' x.vc (if x.status = 0 then none else some sseg) t.core.rnd t.core.sat
          pl.hm pl.enc pl.cen) all none
        (fun c => { c with pieces := pl.pieces, reads := reads, writes := some x.d }) id := by
  intro dOp ops pl hdseg hsseg all
  refine ⟨x.srcs ++ (match x.kind with | .ewfma => [x.d] | _ => []), ?_⟩
  rw [issueTop, if_neg (by omega), hcap, hshapes]
  simp only [hok, hspl, hst, Bool.not_true, Bool.false_and, Bool.or_self, Bool.false_eq_true, if_false, ne_eq, not_true_eq_false]
  exact (hsrcs _).trans ((withChecked_ok hdseg _).trans (withChecked_ok hsseg _))

/-- A command that has room enters its queue with whatever its instruction notes in it beside who issued it and how far it is. -/
theorem submit_noted_enqueues {s : State} {p : Path} {segs : List Seg} (hroom : roomFor s p segs) (b : CmdBody) {f : Cmd → Cmd}
    (hid : ∀ c, (f c).id = c.id ∧ (f c).core = c.core ∧ (f c).path = c.path ∧ (f c).pc = c.pc)
    (hnew : ∀ c, (f c).started = c.started ∧ (f c).finished = c.finished ∧ (f c).out = c.out) :
    ∃ u, submit s p b segs none f id = .next u ∧ enqueued s u p (issuedCmd s p b segs none f) :=
  ⟨_, submit_room hroom b none f id, enqueued_issued (u := id (issued s p b segs none f)) rfl hid hnew⟩

/-! ### The instructions (R239 to R242, R244) -/

section
variable {s : State} {g : GuardF}

theorem top3_on {o : Top3} (hg : s.core.guard o.g = true) {vc : Option Nat} {st : Nat} (hp : pairOf s.core o.p = (vc, st))
    (k : TopKind) : top3 k o s = issueTop ⟨k, o.d, [o.a, o.b], vc, st, false⟩ s := by
  rw [top3, guarded_on hg, hp]

theorem exec_ewcvt_on (hg : s.core.guard g = true) {p : BitVec 6} {vc : Option Nat} {st : Nat} (hp : pairOf s.core p = (vc, st))
    (ovn : Bool) (d a : BitVec 8) : exec (.ewcvt ovn d a p g) s = issueTop ⟨.ewcvt ovn, d, [a], vc, st, false⟩ s := by
  change execEwcvt ovn d a p g s = _
  rw [execEwcvt, guarded_on hg, hp]

theorem exec_reduce_on (hg : s.core.guard g = true) {p : BitVec 6} {vc : Option Nat} {st : Nat} (hp : pairOf s.core p = (vc, st))
    (op : RedOp) (d a : BitVec 8) : exec (.reduce op d a p g) s = issueTop ⟨.reduce op, d, [a], vc, st, false⟩ s := by
  change execReduce op d a p g s = _
  rw [execReduce, guarded_on hg, hp]

theorem exec_placeq_illegal (hg : s.core.guard g = true) {w a : BitVec 6}
    (h : placeqTop (s.core.rs w) (s.core.rs a).toNat = none) :
    exec (.placeq w a g) s = trap s (endTrap s 0x03 (s.core.rs w)) := by
  change execPlaceq w a g s = _
  simp only [execPlaceq, guarded_on hg, h]

theorem exec_placeq_top (hg : s.core.guard g = true) {w a : BitVec 6} {x : TopCmd} {st : Nat} (ha : (s.core.rs a).toNat = st)
    (h : placeqTop (s.core.rs w) st = some x) :
    exec (.placeq w a g) s = if st = 0 then trap s (shapeTrap s 0) else issueTop x s := by
  change execPlaceq w a g s = _
  simp only [execPlaceq, guarded_on hg, ha, h]

end

end Sys2Proof.Machine

namespace Sys2Proof.Rules

open Sys2Proof.Machine

/-- A tensor operation that passes its checks enters its queue, whichever instruction issues it, and so does a PLACEQ of it. -/
theorem tensorIssues : TensorCommands := by
  intro k dn ss vc st s t raw d srcs srcs' dseg sseg hrnd hcap hshapes hok hspl hst dOp ops pl hsrcs hdseg hsseg hroom goes
  have hissue (plan : Bool) :=
    issueTop_submits (x := ⟨k, dn, ss, vc, st, plan⟩) hrnd hcap hshapes hok hspl hst hsrcs hdseg hsseg
  have hgoes {i : Instr} (hi : exec i s = issueTop ⟨k, dn, ss, vc, st, false⟩ s) : goes i := by
    obtain ⟨reads, htop⟩ := hissue false
    obtain ⟨u, hu, henq⟩ := submit_noted_enqueues hroom
      (.top k { d with segs := dseg } srcs' vc (if st = 0 then none else some sseg) t.core.rnd t.core.sat pl.hm pl.enc pl.cen)
      (f := fun c => { c with pieces := pl.pieces, reads := reads, writes := some dn })
      (fun _ => ⟨rfl, rfl, rfl, rfl⟩) (fun _ => ⟨rfl, rfl, rfl⟩)
    exact ⟨u, _, hi.trans (htop.trans hu), henq, rfl, rfl, rfl⟩
  refine ⟨fun o hg hdn hss hp => ?_, fun a p g ovn op hg hss hp => ?_, fun w a g hg hne _ ha hword => ?_⟩
  · subst hdn hss
    have htop (k' : TopKind) := top3_on hg hp k'
    exact ⟨fun hk => hgoes (hk ▸ htop .ewadd), fun hk => hgoes (hk ▸ htop .ewmul), fun hk => hgoes (hk ▸ htop .ewfma),
      fun hk => hgoes (hk ▸ htop .ewmax), fun hk => hgoes (hk ▸ htop .gemv), fun hk => hgoes (hk ▸ htop .gemm)⟩
  · subst hss
    exact ⟨fun hk => hgoes (hk ▸ exec_ewcvt_on hg hp ovn dn a), fun hk => hgoes (hk ▸ exec_reduce_on hg hp op dn a)⟩
  · obtain ⟨_, htop⟩ := hissue true
    obtain ⟨u, hu, henq⟩ := submit_noted_enqueues hroom (.placeq sseg (statusBytes pl.pieces pl.hm pl.enc pl.cen 2)) (f := id)
      (fun _ => ⟨rfl, rfl, rfl, rfl⟩) (fun _ => ⟨rfl, rfl, rfl⟩)
    exact ⟨u, _, (exec_placeq_top hg ha hword).trans ((if_neg hne).trans (htop.trans hu)), henq, rfl, rfl⟩

/-- A PLACEQ traps on a word that names no tensor operation, and else on a missing status area. -/
theorem placeqFaults : PlaceqFaults := by
  intro w a g s hg
  refine ⟨fun hword => ?_, fun hword ha => ?_⟩
  · rw [exec_placeq_illegal hg hword]
    exact trapsWith_trap s _
  · obtain ⟨x, hx⟩ := Option.ne_none_iff_exists'.1 hword
    have hst : (s.core.rs a).toNat = 0 := congrArg BitVec.toNat ha
    rw [exec_placeq_top hg rfl hx, if_pos hst]
    exact trapsWith_trap s _

/-- Settles O24: tensor operations and PLACEQ enter the tensor queue once their checks pass, and PLACEQ's two faults. -/
theorem tensorCommands : Obligations.TensorCommands := ⟨tensorIssues, placeqFaults⟩

end Sys2Proof.Rules

/-! SUPPORT. Locator commands and ATTN (R91, R92, R97 to R103, R107, R245 to R247): from the checks of each to its place in the tensor
queue, what an allocation takes, and what the locator step of a KVAPP writes. -/

namespace Sys2Proof.Machine

open Sys2Proof

/-! ### Locator commands whose checks pass (R97, R99, R101, R107) -/

/-- The bits of a word above those that its value takes are zero. -/
theorem extractLsb'_eq_zero {x : Word} {n : Nat} (m : Nat) (h : x.toNat < 2 ^ n) : x.extractLsb' n m = 0 := by
  refine BitVec.eq_of_toNat_eq ?_
  rw [BitVec.extractLsb'_toNat, Nat.shiftRight_eq_div_pow, Nat.div_eq_of_lt h]
  rfl

section
variable {s t : State} {g : GuardF} {l : EAddr} {loc loc' : Locator} (hg : s.core.guard g = true)
  (hcap : passes (captureLocator s ((l.access s.core).ea).toNat) loc t)
include hg hcap

theorem exec_kvfind_submits (htable : passesWith (withTable t loc ⟨true, false⟩ loc.ovcnt) loc') (d q : BitVec 6) :
    exec (.kvfind d q l g) s = submit t .tensor
      (.kvfind loc' ((s.core.rs q).extractLsb' 0 32) ((s.core.rs q).extractLsb' 32 32)) loc'.segs (some d) id
      (l.access s.core).done := by
  change execKvfind d q l g s = _
  rw [execKvfind, guarded_on hg]
  exact (hcap _).trans (htable _)

/-- A KVFREE of an empty range of blocks touches no table. -/
theorem exec_kvfree_submits {q b : BitVec 6} (hseq : (s.core.rs q).toNat < 2 ^ 32)
    (htable : if ((s.core.rs b).extractLsb' 32 32).toNat < ((s.core.rs b).extractLsb' 0 32).toNat then loc' = loc
      else passesWith (withTable t loc ⟨true, true⟩ loc.ovcnt) loc') (d : BitVec 6) :
    exec (.kvfree d q b l g) s = submit t .tensor
      (.kvfree loc' ((s.core.rs q).extractLsb' 0 32) ((s.core.rs b).extractLsb' 0 32) ((s.core.rs b).extractLsb' 32 32)
        ((s.core.rs b).extractLsb' 0 32).toNat 0 false) loc'.segs (some d) id (l.access s.core).done := by
  have hhigh := extractLsb'_eq_zero 32 hseq
  change execKvfree d q b l g s = _
  rw [execKvfree, guarded_on hg]
  refine (hcap _).trans ?_
  rw [if_neg (not_not.2 hhigh)]
  dsimp only
  split at htable <;> rename_i hrange
  · rw [if_pos hrange, htable]
  · rw [if_neg hrange]
    exact htable _

theorem exec_setband_submits {x : EAddr} {b : BitVec 6} {t' : State} {src : List Byte} {dst : List Seg}
    (hsrc : passes (capture t ((x.access s.core).ea).toNat 144) src t') (hset : (s.core.rs b).toNat < 256)
    (hband : bandOk src = true)
    (hdst : checkEngine t' .tensor ⟨true, true⟩ (loc.bandt + 256 * (s.core.rs b).toNat) 144 = .ok dst) :
    exec (.setband b x l g) s =
      submit t' .tensor (.setband dst src) (loc.segs ++ dst) none id (doneTwice (l.access s.core) (x.access s.core)) := by
  have hhigh := extractLsb'_eq_zero (n := 8) 56 hset
  change execSetband b x l g s = _
  rw [execSetband, guarded_on hg]
  refine ((hcap _).trans (hsrc _)).trans ?_
  rw [if_neg (not_not.2 hhigh), hband]
  exact withChecked_ok hdst _

end

/-! ### KVAPP (R100, R247) -/

/-- A KVAPP whose descriptor, records and locator are in order: its ranges and its queue. -/
def issueKvapp (s : State) (d : BitVec 6) (xa : Access) (b : List Byte) (rows : Nat) (kp vp ks vs : Shape) (loc : Locator) : Res :=
  let dd := kp.ext.headD 1
  let cls := fieldNat b 4 1
  let pool (h : Shape) : Checked := if rows = 0 then .ok [] else checkPool s ⟨false, true⟩ h
  let source (h : Shape) : Checked := checkTensor s ⟨true, false⟩ { h with spl := false } (List.range (dd * rows))
  withChecked s (checkEngine s .tensor ⟨true, false⟩ loc.turnt (if cls == 1 && rows ≠ 0 then 8 * (dd / 2) else 0)) fun tseg =>
  withChecked s (source ks) fun kss => withChecked s (source vs) fun vss =>
  withChecked s (pool kp) fun kps => withChecked s (pool vp) fun vps =>
    submit s .tensor
      (.kvapp { loc with segs := loc.segs ++ tseg } (BitVec.ofNat 32 (fieldNat b 8 4)) (BitVec.ofNat 8 cls)
        (BitVec.ofNat 8 (fieldNat b 5 1)) (BitVec.ofNat 64 (fieldNat b 16 8)) rows s.core.sat { kp with segs := kps }
        { vp with segs := vps } { ks with segs := kss } { vs with segs := vss } 0)
      (loc.segs ++ tseg ++ kss ++ vss ++ kps ++ vps) (some d) id xa.done

/-- Whether a KVAPP's descriptor and records are in order (R100). -/
def appendOk (b : List Byte) (kp vp ks vs : Shape) : Bool :=
  let dd := kp.ext.headD 1
  let cls := fieldNat b 4 1
  (cls == 1 || cls == 2) && (cls == 2 || fieldNat b 5 1 == 0) && fieldNat b 6 2 == 0 && fieldNat b 12 4 == 0 &&
    fieldNat b 32 32 == 0 && poolOk kp && poolOk vp && vp.ext.headD 1 == dd && sourceOk dd ks && sourceOk dd vs

/-- Once its descriptor, records and locator have passed, a KVAPP goes on to its ranges. -/
theorem exec_kvapp_issues {s t1 t2 t3 : State} {x : EAddr} {vc : BitVec 6} {g : GuardF} {b : List Byte} {raw : List RawRec}
    {kp vp ks vs : Shape} {loc loc' : Locator} {rows : Nat} (hg : s.core.guard g = true)
    (hrows : rows = if vc = 0 then 64 else min (s.core.rs vc).toNat 64)
    (hcap : passes (capture s ((x.access s.core).ea).toNat 64) b t1)
    (hhandles : passes (captureHandles ((List.range 4).map fun i => BitVec.ofNat 8 (fieldNat b i 1)) t1) raw t2)
    (hshapes : passesWith (withShapes t2 raw) [kp, vp, ks, vs]) (hok : appendOk b kp vp ks vs = true)
    (hloc : passes (captureLocator t2 (fieldNat b 24 8)) loc t3) (hkp : loc.p ≤ kp.ext.getD 2 1) (hvp : loc.p ≤ vp.ext.getD 2 1)
    (htable : if rows = 0 then loc' = loc else passesWith (withTable t3 loc ⟨true, true⟩ 4096) loc') (d : BitVec 6) :
    exec (.kvapp d x vc g) s = issueKvapp t3 d (x.access s.core) b rows kp vp ks vs loc' := by
  have hgood : (!appendOk b kp vp ks vs) = false := by rw [hok]; rfl
  have hfits : (decide (kp.ext.getD 2 1 < loc.p) || decide (vp.ext.getD 2 1 < loc.p)) = false := by
    simpa using ⟨hkp, hvp⟩
  change execKvapp d x vc g s = _
  rw [execKvapp, guarded_on hg, ← hrows]
  refine (hcap _).trans ((hhandles _).trans ((hshapes _).trans ?_))
  refine (if_neg (ne_true_of_eq_false hgood)).trans ((hloc _).trans ((if_neg (ne_true_of_eq_false hfits)).trans ?_))
  split at htable
  · next h =>
    subst htable
    exact if_pos h
  · next h => exact (if_neg h).trans (htable _)

/-- A KVAPP whose ranges pass goes to the tensor queue. -/
theorem issueKvapp_submits {s : State} {b : List Byte} {rows : Nat} {kp vp ks vs : Shape} {loc : Locator}
    {tseg kss vss kps vps : List Seg}
    (htseg : checkEngine s .tensor ⟨true, false⟩ loc.turnt
      (if fieldNat b 4 1 = 1 ∧ rows ≠ 0 then 8 * (kp.ext.headD 1 / 2) else 0) = .ok tseg)
    (hkss : checkTensor s ⟨true, false⟩ { ks with spl := false } (List.range (kp.ext.headD 1 * rows)) = .ok kss)
    (hvss : checkTensor s ⟨true, false⟩ { vs with spl := false } (List.range (kp.ext.headD 1 * rows)) = .ok vss)
    (hkps : (if rows = 0 then Checked.ok [] else checkPool s ⟨false, true⟩ kp) = .ok kps)
    (hvps : (if rows = 0 then Checked.ok [] else checkPool s ⟨false, true⟩ vp) = .ok vps) (d : BitVec 6) (xa : Access) :
    issueKvapp s d xa b rows kp vp ks vs loc = submit s .tensor
      (.kvapp { loc with segs := loc.segs ++ tseg } (BitVec.ofNat 32 (fieldNat b 8 4)) (BitVec.ofNat 8 (fieldNat b 4 1))
        (BitVec.ofNat 8 (fieldNat b 5 1)) (BitVec.ofNat 64 (fieldNat b 16 8)) rows s.core.sat { kp with segs := kps }
        { vp with segs := vps } { ks with segs := kss } { vs with segs := vss } 0)
      (loc.segs ++ tseg ++ kss ++ vss ++ kps ++ vps) (some d) id xa.done := by
  simp only [issueKvapp, Bool.and_eq_true, beq_iff_eq, decide_eq_true_eq]
  rw [withChecked_ok htseg, withChecked_ok hkss, withChecked_ok hvss, withChecked_ok hkps, withChecked_ok hvps]

/-! ### ATTN (R91, R92, R245) -/

/-- The attention that a descriptor names, with its operands, at the state whose SAT it takes. -/
def newAttn (s : State) (b : List Byte) (q kp vp o : Shape) (ml : Option Shape) (loc : Locator) (n : Nat) : Attn :=
  ⟨q, kp, vp, o, ml, loc, BitVec.ofNat 32 (fieldNat b 8 4), n, BitVec.ofNat 64 (fieldNat b 16 8),
    BitVec.ofNat 32 (fieldNat b 12 4), (fieldNat b 5 1).testBit 0, s.core.sat, none, false, false, none, [], 0, 0⟩

/-- Once its descriptor, records and locator have passed, an ATTN goes on to its ranges. A null last record names no state
output. -/
theorem exec_attn_issues {s t1 t2 t3 : State} {x : EAddr} {p : BitVec 6} {g : GuardF} {b : List Byte} {raw : List RawRec}
    {q kp vp o : Shape} {ml : List Shape} {loc loc' : Locator} {vc : Option Nat} {n st : Nat} (hg : s.core.guard g = true)
    (hpair : pairOf s.core p = (vc, st)) (hn : n = vc.getD 0) (halign : ((x.access s.core).ea).toNat % 64 = 0)
    (hcap : passes (capture s ((x.access s.core).ea).toNat 64) b t1)
    (hhandles : passes (captureHandles ((List.range 5).map fun i => BitVec.ofNat 8 (fieldNat b i 1)) t1) raw t2)
    (hshapes : ∀ r, raw.getLast? = some r →
      passesWith (withShapes t2 (if r.va = 0 then raw.dropLast else raw)) (q :: kp :: vp :: o :: ml)) (hraw : raw ≠ [])
    (hmode : fieldNat b 5 1 < 2) (h6 : fieldNat b 6 2 = 0) (h32 : fieldNat b 32 32 = 0)
    (hok : attnOk q kp vp o ml.head? ((fieldNat b 5 1).testBit 0) = true)
    (hloc : passes (captureLocator t2 (fieldNat b 24 8)) loc t3) (hkp : loc.p ≤ kp.ext.getD 2 1) (hvp : loc.p ≤ vp.ext.getD 2 1)
    (hstatus : st % 8 = 0) (htable : if n = 0 then loc' = loc else passesWith (withTable t3 loc ⟨true, false⟩ loc.ovcnt) loc') :
    exec (.attn x p g) s = issueAttn t3 (x.access s.core) st (newAttn t3 b q kp vp o ml.head? loc' n) := by
  have hr := List.getLast?_eq_some_getLast hraw
  set r := raw.getLast hraw
  have hnull : (if (match raw.getLast? with | some r => r.va == 0 | none => true) = true then raw.dropLast else raw) =
      if r.va = 0 then raw.dropLast else raw := by
    simp only [hr, beq_iff_eq]
  have hgood : (decide (2 ≤ fieldNat b 5 1) || decide (fieldNat b 6 2 ≠ 0) || decide (fieldNat b 32 32 ≠ 0) ||
      !attnOk q kp vp o ml.head? ((fieldNat b 5 1).testBit 0)) = false := by
    rw [hok]
    simp [h6, h32, hmode]
  have hfits : (decide (kp.ext.getD 2 1 < loc.p) || decide (vp.ext.getD 2 1 < loc.p)) = false := by
    simpa using ⟨hkp, hvp⟩
  change execAttn x p g s = _
  rw [execAttn, guarded_on hg, hpair]
  dsimp only
  rw [← hn]
  refine (if_neg (not_not.2 halign)).trans ((hcap _).trans ((hhandles _).trans ?_))
  refine (congrArg (fun l => withShapes t2 l _) hnull).trans ((hshapes r hr _).trans ?_)
  refine (if_neg (ne_true_of_eq_false hgood)).trans ((hloc _).trans ((if_neg (ne_true_of_eq_false hfits)).trans ?_))
  refine (if_neg (not_not.2 hstatus)).trans ?_
  split at htable
  · next h =>
    subst htable h
    exact if_pos rfl
  · next h => exact (if_neg h).trans (htable _)

/-- The band set whose table an ATTN must have translated as it issues (R107). -/
def attnBand (s : State) (a : Attn) : Option Nat :=
  if a.n = 0 then none else bandSet s (newCmd s .tensor (.kvfind a.loc a.seq 0) []) a.loc a.seq.toNat

/-- An ATTN with the pieces that its checks have translated, as its command holds it. -/
def Attn.translated (a : Attn) (s : State) (tseg bseg qs ks vs os ms sseg : List Seg) (st : Nat) (enc hm : Bool) : Attn :=
  let loc := { a.loc with segs := a.loc.segs ++ tseg ++ bseg }
  { a with
    q := { a.q with segs := qs }, kp := { a.kp with segs := ks }, vp := { a.vp with segs := vs }, o := { a.o with segs := os }
    ml := a.ml.map fun m => { m with segs := ms }
    loc := loc
    band := (attnBand s a).map (captureBand s (newCmd s .tensor (.kvfind a.loc a.seq 0) []) loc)
    bset := (attnBand s a).getD 0
    enc := enc
    hm := hm
    status := if st = 0 then none else some sseg }

/-- The check of the state output of an ATTN, where it has one. -/
def checkMl (s : State) (ml : Option Shape) : Checked :=
  match ml with
  | some m => checkTensor s ⟨false, true⟩ { m with spl := false } (List.range m.count)
  | none => .ok []

/-- An ATTN whose ranges pass goes to the tensor queue as one piece. -/
theorem issueAttn_submits {s : State} {st : Nat} {a : Attn} {tseg bseg qs ks vs os ms sseg : List Seg}
    (htseg : checkEngine s .tensor ⟨true, false⟩ a.loc.turnt (if a.n = 0 then 0 else 8 * (a.q.ext.headD 1 / 2)) = .ok tseg)
    (hbseg : checkEngines s .tensor ⟨true, false⟩ (bandRange a.loc (attnBand s a)) = .ok bseg)
    (hqs : checkTensor s ⟨true, false⟩ { a.q with spl := false } (List.range a.q.count) = .ok qs)
    (hks : (if a.n = 0 then Checked.ok [] else checkPool s ⟨true, false⟩ a.kp) = .ok ks)
    (hvs : (if a.n = 0 then Checked.ok [] else checkPool s ⟨true, false⟩ a.vp) = .ok vs)
    (hos : checkTensor s ⟨false, true⟩ { a.o with spl := false } (List.range a.o.count) = .ok os)
    (hms : checkMl s a.ml = .ok ms)
    (hsseg : checkEngine s .tensor ⟨false, true⟩ st (if st = 0 then 0 else 16) = .ok sseg) (xa : Access) :
    ∃ enc hm piece, issueAttn s xa st a = submit s .tensor (.attn (a.translated s tseg bseg qs ks vs os ms sseg st enc hm))
      (a.loc.segs ++ tseg ++ bseg ++ qs ++ ks ++ vs ++ os ++ ms ++ sseg) none (fun c => { c with pieces := [piece] }) xa.done := by
  rw [issueAttn]
  -- What the command notes of keys and bytes, and its piece, are read off the goal once every check has passed.
  refine ⟨?_, ?_, ?_, ?_⟩
  rotate_left 3
  refine (withChecked_ok htseg _).trans ?_
  refine (withChecked_ok hbseg _).trans ?_
  refine (withChecked_ok hqs _).trans ?_
  refine (withChecked_ok hks _).trans ?_
  refine (withChecked_ok hvs _).trans ?_
  refine (withChecked_ok hos _).trans ?_
  refine (withChecked_ok hms _).trans ?_
  refine (withChecked_ok hsseg _).trans ?_
  rfl

/-- A command with pieces that has room is issued with them; what follows it may change the exposed writes. -/
theorem submit_pieces_enqueues {s : State} {p : Path} {segs : List Seg} (hroom : roomFor s p segs) (b : CmdBody) (ps : List Piece)
    {fin : State → State} (hfin : ∀ t, ∃ pend, fin t = { t with core := { t.core with pend := pend } }) :
    ∃ u, submit s p b segs none (fun c => { c with pieces := ps }) fin = .next u ∧
      enqueued s u p (issuedCmd s p b segs none fun c => { c with pieces := ps }) := by
  obtain ⟨pend, h⟩ := hfin (issued s p b segs none fun c => { c with pieces := ps })
  exact ⟨_, submit_room hroom b none _ fin, enqueued_issued h (fun _ => ⟨rfl, rfl, rfl, rfl⟩) (fun _ => ⟨rfl, rfl, rfl⟩)⟩

end Sys2Proof.Machine

namespace Sys2Proof.Rules

open Sys2Proof.Machine

/-- KVFIND, KVFREE and SETBAND go from their captured locator through their ranges to the queue. -/
theorem locatorCommands : LocatorCommands := by
  intro d q b x l g s t t' loc loc' src dst hg va y z lo hi hcap
  refine ⟨fun htable hroom => ?_, fun htable hroom hseq => ?_, fun hsrc hset hband hdst hroom => ?_⟩
  · obtain ⟨u, c, hu, henq, hbody, hwait⟩ := submit_awaits hroom (.kvfind loc' (y.extractLsb' 0 32) (y.extractLsb' 32 32)) d
      (accessDone_frame (l.access s.core))
    exact ⟨u, c, (exec_kvfind_submits hg hcap htable d q).trans hu, henq, hwait, hbody⟩
  · obtain ⟨u, c, hu, henq, hbody, hwait⟩ := submit_awaits hroom (.kvfree loc' (y.extractLsb' 0 32) lo hi lo.toNat 0 false) d
      (accessDone_frame (l.access s.core))
    exact ⟨u, c, (exec_kvfree_submits hg hcap hseq htable d).trans hu, henq, hwait, hbody⟩
  · obtain ⟨u, c, hu, henq, hbody, -, -⟩ := submit_enqueues hroom (.setband dst src)
      (doneTwice_frame (l.access s.core) (x.access s.core))
    exact ⟨u, c, (exec_setband_submits hg hcap hsrc hset hband hdst).trans hu, henq, hbody⟩

/-- A KVAPP goes from its captures through its ranges to the queue. -/
theorem kvAppend : KvAppend := by
  intro d x vc g s t1 t2 t3 b raw kp vp ks vs loc loc' tseg kss vss kps vps hg va rows dd cls bset _ hcap hhandles hshapes hcls h6 h12
    h32 hkp hvp hdd hks hvs hloc hpk hpv htable htseg hkss hvss hkps hvps hroom
  have hok : appendOk b kp vp ks vs = true := by
    simp only [appendOk, Bool.and_eq_true, Bool.or_eq_true, beq_iff_eq]
    have hclass : (cls = 1 ∨ cls = 2) ∧ (cls = 2 ∨ bset = 0) :=
      hcls.elim (fun h => ⟨.inl h.1, .inr h.2⟩) fun h => ⟨.inr h, .inl h⟩
    exact ⟨⟨⟨⟨⟨⟨⟨⟨hclass, h6⟩, h12⟩, h32⟩, hkp⟩, hvp⟩, hdd⟩, hks⟩, hvs⟩
  obtain ⟨u, c, hu, henq, hbody, hwait⟩ := submit_awaits hroom _ d (accessDone_frame (x.access s.core))
  refine ⟨u, c, ?_, henq, hwait, hbody⟩
  rw [exec_kvapp_issues hg rfl hcap hhandles hshapes hok hloc hpk hpv htable, issueKvapp_submits htseg hkss hvss hkps hvps]
  exact hu

/-- An ATTN goes from its captures through its ranges to the queue. -/
theorem attention : Attention := by
  intro x p g s t1 t2 t3 b raw q kp vp o ml loc loc' tseg bseg qs ks vs os ms sseg hg va n st norm seq halign hcap hhandles hshapes
    hraw hmode h6 h32 hok hloc hkp hvp htable band all htseg hbseg hqs hks hvs hos hms hnone hst hsseg hroom
  have hml : checkMl t3 ml.head? = .ok ms := by
    cases hm : ml.head? with
    | none => exact congrArg Checked.ok (hnone hm).symm
    | some m => exact hms m hm
  let a := newAttn t3 b q kp vp o ml.head? loc' n
  obtain ⟨enc, hm, piece, hsub⟩ := issueAttn_submits (a := a) htseg hbseg hqs hks hvs hos hml hsseg (x.access s.core)
  obtain ⟨u, hu, henq⟩ := submit_pieces_enqueues hroom (.attn (a.translated t3 tseg bseg qs ks vs os ms sseg st enc hm)) [piece]
    (accessDone_frame (x.access s.core))
  have hissue := exec_attn_issues hg Prod.mk.eta.symm rfl halign hcap hhandles hshapes hraw hmode h6 h32 hok hloc hkp hvp hst htable
  exact ⟨u, _, _, hissue.trans (hsub.trans hu), henq, rfl, rfl, rfl, rfl, rfl, rfl, rfl, rfl, rfl, rfl, rfl, rfl⟩

end Sys2Proof.Rules

namespace Sys2Proof.Machine

open Sys2Proof

/-! ### What an allocation takes (R98, R100, R102) -/

section
variable (s : State) (c : Cmd) (l : Locator)

/-- Some entries that all read well and are taken. -/
def Taken (es : List Nat) : Prop := ∀ x ∈ es, (entryAt s c l x).2 = none ∧ (entryAt s c l x).1.val = true

/-- The first of some entries that is free, all before it being taken. -/
def FirstFree (es : List Nat) (e : Nat) : Prop :=
  ∃ before after, es = before ++ e :: after ∧ (entryAt s c l e).2 = none ∧ (entryAt s c l e).1.val = false ∧ Taken s c l before

/-- Some entries of which one reads uncorrectable, all before it being taken. -/
def Spoilt (es : List Nat) : Prop :=
  ∃ before e after, es = before ++ e :: after ∧ (entryAt s c l e).2 ≠ none ∧ Taken s c l before

end

section
variable {s : State} {c : Cmd} {l : Locator} {es : List Nat} {e : Nat}

theorem firstFree_cons (e : Nat) (r : List Nat) : firstFree s c l (e :: r) =
    if (entryAt s c l e).2 ≠ none then .inr () else if (entryAt s c l e).1.val then firstFree s c l r else .inl (some e) := by
  rw [firstFree]
  rcases entryAt s c l e with ⟨x, _ | pa⟩ <;> rfl

/-- A search goes on behind entries that are taken. -/
theorem firstFree_append (h : Taken s c l es) (r : List Nat) : firstFree s c l (es ++ r) = firstFree s c l r := by
  induction es with
  | nil => rfl
  | cons e es ih =>
    obtain ⟨⟨hread, hval⟩, hes⟩ := List.forall_mem_cons.1 h
    rw [List.cons_append, firstFree_cons, if_neg (not_not.2 hread), if_pos hval]
    exact ih hes

theorem firstFree_taken (h : Taken s c l es) : firstFree s c l es = .inl none := by
  simpa [firstFree] using firstFree_append h []

theorem firstFree_free (h : FirstFree s c l es e) : firstFree s c l es = .inl (some e) := by
  obtain ⟨before, after, rfl, hread, hval, htaken⟩ := h
  rw [firstFree_append htaken, firstFree_cons, if_neg (not_not.2 hread), hval]
  rfl

theorem firstFree_spoilt (h : Spoilt s c l es) : firstFree s c l es = .inr () := by
  obtain ⟨before, e, after, rfl, hread, htaken⟩ := h
  rw [firstFree_append htaken, firstFree_cons, if_pos hread]

end

section
variable (s : State) (c : Cmd) (l : Locator) (seq lblk turn bset e : Nat) (ovf : Bool)

/-- The window that an allocation searches first. -/
abbrev probeWindow : List Nat := (List.range 8).map fun j => (probeStart l seq lblk + j) % l.p

/-- The entry of a block that has just been allocated. -/
def newEntry : Entry := ⟨seq, lblk, c.pasid, true, ovf, turn, 0, bset⟩

/-- The overflow record of a block. -/
def overRecord : List Byte := bytesOfNat 4 seq ++ bytesOfNat 4 lblk ++ bytesOfNat 8 e

/-- The state once entry `e` is allocated, through the overflow list where `ovf` says so. -/
def allocated : State :=
  let t := locWrite s c l (l.table + 16 * e) (newEntry c seq lblk turn bset ovf).toBytes
  let n := (liveOv s c l).1
  if ovf then locWrite (locWrite t c l (l.ovfl + 16 * n) (overRecord seq lblk e)) c l (l.desc + 12) (bytesOfNat 4 (n + 1)) else t

/-- The bytes that an allocation writes: the entry, and where it goes through the overflow list the record and the count. -/
def allocBytes : List (Nat × Byte) :=
  let entry := locBytes s c l (l.table + 16 * e) (newEntry c seq lblk turn bset ovf).toBytes
  let n := (liveOv s c l).1
  if ovf then
    locBytes s c l (l.desc + 12) (bytesOfNat 4 (n + 1)) ++ locBytes s c l (l.ovfl + 16 * n) (overRecord seq lblk e) ++ entry
  else entry

theorem Lays.allocated : Lays s c (allocated s c l seq lblk turn bset e ovf) (allocBytes s c l seq lblk turn bset e ovf) := by
  have hentry := (Lays.refl s c).locWrite l (l.table + 16 * e) (newEntry c seq lblk turn bset ovf).toBytes
  rw [List.append_nil] at hentry
  cases ovf with
  | false => exact hentry
  | true =>
    simp only [Machine.allocated, allocBytes, if_true, List.append_assoc]
    exact (hentry.locWrite l _ _).locWrite l _ _

variable {s c l seq lblk turn bset e ovf}

/-- What an allocation does with the entry that it finds: through the overflow list it needs the count and room. -/
theorem allocate_found (h : freeEntry s c l (probeStart l seq lblk) = .inl (e, ovf)) :
    allocate s c l seq lblk turn bset =
      if ovf && (liveOv s c l).2.isSome then .inr 3
      else if ovf && 4096 ≤ (liveOv s c l).1 then .inr 1
      else .inl (allocated s c l seq lblk turn bset e ovf, e) := by
  rw [allocate, h]
  rfl

theorem allocate_none {code : Nat} (h : freeEntry s c l (probeStart l seq lblk) = .inr code) :
    allocate s c l seq lblk turn bset = .inr code := by
  rw [allocate, h]

/-- An allocation that succeeds writes the bytes of some entry and nothing else. -/
theorem allocate_lays {t : State} (h : allocate s c l seq lblk turn bset = .inl (t, e)) : ∃ ws, Lays s c t ws := by
  rcases hfree : freeEntry s c l (probeStart l seq lblk) with ⟨e', ovf⟩ | code
  · rw [allocate_found hfree] at h
    split_ifs at h
    obtain ⟨rfl, -⟩ := Prod.mk.inj (Sum.inl.inj h)
    exact ⟨_, .allocated s c l seq lblk turn bset e' ovf⟩
  · rw [allocate_none hfree] at h
    cases h

/-! An allocation searches its window, and where that is full the table. -/

theorem freeEntry_window (h : FirstFree s c l (probeWindow l seq lblk) e) :
    freeEntry s c l (probeStart l seq lblk) = .inl (e, false) := by
  rw [freeEntry, firstFree_free h]

theorem freeEntry_window_spoilt (h : Spoilt s c l (probeWindow l seq lblk)) :
    freeEntry s c l (probeStart l seq lblk) = .inr 3 := by
  rw [freeEntry, firstFree_spoilt h]

theorem freeEntry_table (hwindow : Taken s c l (probeWindow l seq lblk)) (h : FirstFree s c l (List.range l.p) e) :
    freeEntry s c l (probeStart l seq lblk) = .inl (e, true) := by
  rw [freeEntry, firstFree_taken hwindow, firstFree_free h]

theorem freeEntry_table_spoilt (hwindow : Taken s c l (probeWindow l seq lblk)) (h : Spoilt s c l (List.range l.p)) :
    freeEntry s c l (probeStart l seq lblk) = .inr 3 := by
  rw [freeEntry, firstFree_taken hwindow, firstFree_spoilt h]

theorem freeEntry_full (hwindow : Taken s c l (probeWindow l seq lblk)) (h : Taken s c l (List.range l.p)) :
    freeEntry s c l (probeStart l seq lblk) = .inr 1 := by
  rw [freeEntry, firstFree_taken hwindow, firstFree_taken h]

end

end Sys2Proof.Machine

namespace Sys2Proof.Rules

open Sys2Proof.Machine

/-- An allocation takes the first free entry of its window, else the first of the table, or answers why it cannot. -/
theorem allocations : Allocations := by
  intro s c l seq lblk turn bset start window table free taken spoilt count put entry gives code
  have hgives {e : Nat} {ovf : Bool} (hfree : freeEntry s c l (probeStart l seq lblk) = .inl (e, ovf))
      (hread : (ovf && count.2.isSome) = false) (hroom : (ovf && decide (4096 ≤ count.1)) = false) :
      gives e (allocBytes s c l seq lblk turn bset e ovf) := by
    have hlays := Lays.allocated s c l seq lblk turn bset e ovf
    refine ⟨_, (allocate_found hfree).trans ((if_neg (ne_true_of_eq_false hread)).trans (if_neg (ne_true_of_eq_false hroom))),
      landed_of_byteAt hlays.byteAt, hlays.aside.quiet.core, hlays.aside.cmds⟩
  refine ⟨fun e h => ?_, fun e hwindow htable hread hroom => ?_, fun e hwindow htable hread hroom => ?_, fun hwindow htable => ?_,
    fun h => ?_, fun hwindow htable => ?_, fun e hwindow htable hread => ?_⟩
  · exact hgives (freeEntry_window h) rfl rfl
  · exact hgives (freeEntry_table hwindow htable) (by rw [hread]; rfl) (by simpa using hroom)
  · have hread' : (true && count.2.isSome) = false := by rw [hread]; rfl
    exact (allocate_found (freeEntry_table hwindow htable)).trans
      ((if_neg (ne_true_of_eq_false hread')).trans (if_pos (by simpa using hroom)))
  · exact allocate_none (freeEntry_full hwindow htable)
  · exact allocate_none (freeEntry_window_spoilt h)
  · exact allocate_none (freeEntry_table_spoilt hwindow htable)
  · exact (allocate_found (freeEntry_table hwindow htable)).trans (if_pos (by simpa [Option.isSome_iff_ne_none] using hread))

end Sys2Proof.Rules

namespace Sys2Proof.Machine

open Sys2Proof

/-! ### A row of a KVAPP (R100, R103) -/

theorem Silent.sourceRow (s : State) (c : Cmd) (h : Shape) (own : List Nat) (t : Nat) :
    Silent s (sourceRow s c h own t).2.2 := .readVasOwn _ _ _ _ _ _

theorem Lays.of_silent {s t : State} (h : Silent s t) (c : Cmd) : Lays s c t [] :=
  ⟨h.aside, fun pa => (h.byteAt pa).trans (ite_self _).symm⟩

theorem Lays.engineWrite {s t : State} {c : Cmd} {ws : List (Nat × Byte)} (h : Lays s c t ws) (bs : List (Nat × Byte)) :
    Lays s c (engineWrite t c [] (bs.map cleanByte)) (bs ++ ws) where
  aside := h.aside.trans (.engineWrite t c [] _)
  byteAt pa := by
    refine (byteAt_engineWrite t c [] _ pa).trans ?_
    rw [h.aside.reaches, h.byteAt, List.map_append, entryOr_append]
    split <;> rfl

/-- The bytes that a row writes into its slot of a pool, at their addresses. -/
def poolBytes (h : Shape) (e slot : Nat) (bs : List Byte) : List (Nat × Byte) :=
  (((rangeList (poolRow h e slot)).zip bs).foldl (fun o x => kset o x.1 x.2) ([] : List (Nat × Byte))).filterMap fun b =>
    (segAt h.segs b.1).map fun p => (p, b.2)

theorem Lays.poolWrite {s t : State} {c : Cmd} {ws : List (Nat × Byte)} (h : Lays s c t ws) (p : Shape) (e slot : Nat)
    (bs : List Byte) : Lays s c (poolWrite t c p e slot bs) (poolBytes p e slot bs ++ ws) := by
  have hwrite := h.engineWrite (poolBytes p e slot bs)
  simp only [poolBytes, List.map_filterMap, Option.map_map] at hwrite
  exact hwrite

/-- The key of a row as its slot takes it, with its flags: rotated by the turn table where the entry's TURN is 1. -/
def turnedKey (s : State) (c : Cmd) (l : Locator) (own : List Nat) (e : Nat) (pos : Word) (sat : Bool) (kr : List Num) :
    List Num × Flags :=
  if (entryAt s c l e).1.turn = 1 then rotateRow sat pos (turnsOf s c l own (kr.length / 2)).1.1 kr else (kr, 0)

/-- An entry whose FILL covers a slot. -/
def Entry.filled (x : Entry) (slot : Nat) : Entry := { x with fill := max x.fill (slot + 1) }

/-- The state in which a row's key and value are written into slot `slot` of block `e`, whose entry is `x`, with its FILL. -/
def writtenRow (s : State) (c : Cmd) (l : Locator) (e slot : Nat) (sat : Bool) (kp vp : Shape) (x : Entry) (kr vr : List Num) :
    State :=
  locWrite (poolWrite (poolWrite s c kp e slot (rowToBytes kp.ty sat kr).1) c vp e slot (rowToBytes vp.ty sat vr).1) c l
    (l.table + 16 * e) (x.filled slot).toBytes

theorem Lays.writtenRow {s t : State} {c : Cmd} (h : Silent s t) (l : Locator) (e slot : Nat) (sat : Bool) (kp vp : Shape)
    (x : Entry) (kr vr : List Num) : Lays s c (writtenRow t c l e slot sat kp vp x kr vr)
      (locBytes s c l (l.table + 16 * e) (x.filled slot).toBytes ++
        poolBytes vp e slot (rowToBytes vp.ty sat vr).1 ++ poolBytes kp e slot (rowToBytes kp.ty sat kr).1) := by
  have hpools := ((Lays.of_silent h c).poolWrite kp e slot (rowToBytes kp.ty sat kr).1).poolWrite vp e slot
    (rowToBytes vp.ty sat vr).1
  rw [List.append_nil] at hpools
  rw [List.append_assoc]
  exact hpools.locWrite l _ _

/-- Two states with the same commands and bytes. -/
def Unwritten (s t : State) : Prop := (∀ pa, byteAt t pa = byteAt s pa) ∧ ∀ id, findCmd t id = findCmd s id

theorem Silent.unwritten {s t : State} (h : Silent s t) : Unwritten s t := ⟨h.byteAt, h.aside.findCmd⟩

theorem Unwritten.trans {s t u : State} (h : Unwritten s t) (k : Unwritten t u) : Unwritten s u :=
  ⟨fun pa => (k.1 pa).trans (h.1 pa), fun id => (k.2 id).trans (h.2 id)⟩

section
variable {s0 s : State} {c : Cmd} {l : Locator} {own : List Nat} {e slot : Nat} {pos : Word} {sat : Bool} {kp vp : Shape}
  {kr vr : List Num}

/-- A turn table that reads uncorrectable stops a row, and none of it stays. -/
theorem putRow_stops (hturn : (entryAt s c l e).1.turn = 1) (hbad : (turnsOf s c l own (kr.length / 2)).1.2 ≠ none) :
    ∃ u, putRow s0 s c l own e slot pos sat kp vp kr vr = (u, .inr 3) ∧ Unwritten s0 u := by
  have hbad' := Option.isSome_iff_ne_none.2 hbad
  refine ⟨lateFault { s0 with choice := (turnsOf s c l own (kr.length / 2)).2.choice } c l l.turnt (8 * (kr.length / 2)), ?_,
    (Silent.choice s0 _).unwritten.trans (lateFault_frame _ c l _ _)⟩
  simp only [putRow, hturn, if_true, hbad']

/-- Any other row is written. -/
theorem putRow_written {fs : List Word} {t : State}
    (h : (if (entryAt s c l e).1.turn = 1 then turnsOf s c l own (kr.length / 2) else (([], none), s)) = ((fs, none), t)) :
    let k := if (entryAt s c l e).1.turn = 1 then rotateRow sat pos fs kr else (kr, 0)
    putRow s0 s c l own e slot pos sat kp vp kr vr =
      (writtenRow t c l e slot sat kp vp (entryAt s c l e).1 k.1 vr,
        .inl (k.2 ||| (rowToBytes kp.ty sat k.1).2 ||| (rowToBytes vp.ty sat vr).2)) := by
  rw [putRow, h]
  rfl

/-- Where the turn table, if it is needed, reads well, a row's key and value go into the slot, and FILL. -/
theorem putRow_puts (hturn : (entryAt s c l e).1.turn = 1 → (turnsOf s c l own (kr.length / 2)).1.2 = none) :
    let k := turnedKey s c l own e pos sat kr
    ∃ u, putRow s0 s c l own e slot pos sat kp vp kr vr =
        (u, .inl (k.2 ||| (rowToBytes kp.ty sat k.1).2 ||| (rowToBytes vp.ty sat vr).2)) ∧
      Lays s c u (locBytes s c l (l.table + 16 * e) ((entryAt s c l e).1.filled slot).toBytes ++
        poolBytes vp e slot (rowToBytes vp.ty sat vr).1 ++ poolBytes kp e slot (rowToBytes kp.ty sat k.1).1) := by
  by_cases h : (entryAt s c l e).1.turn = 1
  · have hturns : turnsOf s c l own (kr.length / 2) =
        (((turnsOf s c l own (kr.length / 2)).1.1, none), (turnsOf s c l own (kr.length / 2)).2) := by rw [← hturn h]
    have hput := putRow_written (s0 := s0) (slot := slot) (pos := pos) (sat := sat) (kp := kp) (vp := vp) (vr := vr)
      ((if_pos h).trans hturns)
    simp only [if_pos h] at hput
    simp only [turnedKey, if_pos h]
    exact ⟨_, hput, .writtenRow (.turnsOf s c l own (kr.length / 2)) l e slot sat kp vp _ _ vr⟩
  · have hput := putRow_written (s0 := s0) (own := own) (slot := slot) (pos := pos) (sat := sat) (kp := kp) (vp := vp) (kr := kr)
      (vr := vr) (if_neg h)
    simp only [if_neg h] at hput
    simp only [turnedKey, if_neg h]
    exact ⟨_, hput, .writtenRow (.refl s) l e slot sat kp vp _ _ vr⟩

end

section
variable (s : State) (c : Cmd) (l : Locator) (own : List Nat) (seq : BitVec 32) (cls bset : BitVec 8) (pos : Word) (sat : Bool)
  (kp vp : Shape) (kr vr : List Num)

/-- A row that has been read goes into the block of its position, which is found or allocated. -/
def blockRow : State × Sum Flags Nat :=
  let lblk := pos.toNat / 64 % 2 ^ 32
  let put (t : State) (e : Nat) := putRow s t c l own e (pos.toNat % 64) pos sat kp vp kr vr
  match lookup s c l seq.toNat lblk with
  | .error _ => (s, .inr 3)
  | .block e _ => put s e
  | .absent =>
    match allocate s c l seq.toNat lblk cls.toNat bset.toNat with
    | .inl (t, e) => put t e
    | .inr code => (s, .inr code)

/-- Whether entry `e` is of another class. -/
def classDiffers (e : Nat) : Bool :=
  (entryAt s c l e).1.turn != cls.toNat || (entryAt s c l e).1.bset != bset.toNat

/-- The same, once the class of the sequence's first block agrees. -/
def classRow : State × Sum Flags Nat :=
  let row := blockRow s c l own seq cls bset pos sat kp vp kr vr
  match lookup s c l seq.toNat 0 with
  | .error _ => (s, .inr 3)
  | .block e _ => if classDiffers s c l cls bset e then (s, .inr 2) else row
  | .absent => row

variable {s c l own seq cls bset pos sat kp vp kr vr}

theorem classDiffers_iff {e : Nat} : classDiffers s c l cls bset e = true ↔
    (entryAt s c l e).1.turn ≠ cls.toNat ∨ (entryAt s c l e).1.bset ≠ bset.toNat := by
  simp [classDiffers]

theorem classRow_error {pa : Nat} (h : lookup s c l seq.toNat 0 = .error pa) :
    classRow s c l own seq cls bset pos sat kp vp kr vr = (s, .inr 3) := by
  rw [classRow, h]

theorem classRow_differs {e : Nat} {r : Option Nat} (h : lookup s c l seq.toNat 0 = .block e r)
    (hdiff : classDiffers s c l cls bset e = true) : classRow s c l own seq cls bset pos sat kp vp kr vr = (s, .inr 2) := by
  rw [classRow, h]
  exact if_pos hdiff

theorem classRow_agrees (h : lookup s c l seq.toNat 0 = .absent ∨
      ∃ e r, lookup s c l seq.toNat 0 = .block e r ∧ ¬ classDiffers s c l cls bset e = true) :
    classRow s c l own seq cls bset pos sat kp vp kr vr = blockRow s c l own seq cls bset pos sat kp vp kr vr := by
  obtain h | ⟨e, r, h, hsame⟩ := h
  · rw [classRow, h]
  · rw [classRow, h]
    exact if_neg hsame

theorem blockRow_error {pa : Nat} (h : lookup s c l seq.toNat (pos.toNat / 64 % 2 ^ 32) = .error pa) :
    blockRow s c l own seq cls bset pos sat kp vp kr vr = (s, .inr 3) := by
  rw [blockRow, h]

theorem blockRow_found {e : Nat} {r : Option Nat} (h : lookup s c l seq.toNat (pos.toNat / 64 % 2 ^ 32) = .block e r) :
    blockRow s c l own seq cls bset pos sat kp vp kr vr = putRow s s c l own e (pos.toNat % 64) pos sat kp vp kr vr := by
  rw [blockRow, h]

section
variable (h : lookup s c l seq.toNat (pos.toNat / 64 % 2 ^ 32) = .absent)
include h

theorem blockRow_full {code : Nat}
    (hall : allocate s c l seq.toNat (pos.toNat / 64 % 2 ^ 32) cls.toNat bset.toNat = .inr code) :
    blockRow s c l own seq cls bset pos sat kp vp kr vr = (s, .inr code) := by
  simp only [blockRow, h, hall]

theorem blockRow_fresh {t : State} {e : Nat}
    (hall : allocate s c l seq.toNat (pos.toNat / 64 % 2 ^ 32) cls.toNat bset.toNat = .inl (t, e)) :
    blockRow s c l own seq cls bset pos sat kp vp kr vr = putRow s t c l own e (pos.toNat % 64) pos sat kp vp kr vr := by
  simp only [blockRow, h, hall]

end

end

/-- A row of a KVAPP is read, and then goes into its block. -/
theorem appendRow_eq (s : State) (c : Cmd) (l : Locator) (seq : BitVec 32) (cls bset : BitVec 8) (pos : Word) (t : Nat) (sat : Bool)
    (kp vp ks vs : Shape) :
    let key := sourceRow s c ks [] t
    let value := sourceRow key.2.2 c vs key.2.1 t
    appendRow s c l seq cls bset pos t sat kp vp ks vs =
      if key.1.2 || value.1.2 then (value.2.2, .inr 3)
      else classRow value.2.2 c l value.2.1 seq cls bset pos sat kp vp key.1.1 value.1.1 := by
  simp only [appendRow, classRow, blockRow]
  rcases sourceRow s c ks [] t with ⟨⟨kr, b1⟩, own1, s1⟩
  rcases sourceRow s1 c vs own1 t with ⟨⟨vr, b2⟩, own, u⟩
  cases b1 || b2 with
  | true => rfl
  | false =>
    rcases lookup u c l seq.toNat 0 <;> rcases lookup u c l seq.toNat (pos.toNat / 64 % 2 ^ 32) <;> rfl

section
variable {s u : State} {c : Cmd} {l : Locator} {seq : BitVec 32} {cls bset : BitVec 8} {pos0 : Word} {rows : Nat} {sat : Bool}
  {kp vp ks vs : Shape} {next : Nat} (hbody : c.body = .kvapp l seq cls bset pos0 rows sat kp vp ks vs next)
  (hopen : c.finished = false) (hnext : next < rows)
include hbody hopen hnext

/-- A row that is appended is counted. -/
theorem locatorStep_kvapp_row {f : Flags}
    (hrow : appendRow s c.start l seq cls bset (pos0 + BitVec.ofNat 64 next) next sat kp vp ks vs = (u, .inl f)) :
    locatorStep s c = some (setCmd u { c.start with
      flags := c.flags ||| f
      body := .kvapp l seq cls bset pos0 rows sat kp vp ks vs (next + 1)
      result := some (BitVec.ofNat 64 (next + 1)) }) := by
  simp only [Cmd.start, hbody, hopen] at hrow
  simp only [locatorStep, Cmd.start, hbody, hopen, decide_eq_false (Nat.not_le.2 hnext), Bool.or_self, Bool.false_eq_true, if_false,
    hrow]

/-- A code ends the command with the rows that it has appended. -/
theorem locatorStep_kvapp_stop {code : Nat}
    (hrow : appendRow s c.start l seq cls bset (pos0 + BitVec.ofNat 64 next) next sat kp vp ks vs = (u, .inr code)) :
    locatorStep s c = some (setCmd u { c.start with
      finished := true, result := some (BitVec.ofNat 64 (code * 2 ^ 56 + next)) }) := by
  simp only [Cmd.start, hbody, hopen] at hrow
  simp only [locatorStep, Cmd.start, hbody, hopen, decide_eq_false (Nat.not_le.2 hnext), Bool.or_self, Bool.false_eq_true, if_false,
    hrow]

end

end Sys2Proof.Machine

namespace Sys2Proof.Rules

open Sys2Proof.Machine

/-- A KVAPP's step reads its row, looks its block up or allocates it, and writes the row there, or stops with a code. -/
theorem appendSteps : AppendSteps := by
  intro id s c l seq cls bset pos0 rows sat kp vp ks vs next hc hbody hopen hnext hmay k pos lblk slot key value own t steps stops row
    differs puts first found agrees
  have hread : Silent s t := (Silent.sourceRow s k ks [] next).trans (.sourceRow _ k vs _ next)
  have hrow : appendRow s k l seq cls bset pos next sat kp vp ks vs = if key.1.2 || value.1.2 then (t, .inr 3)
      else classRow t k l own seq cls bset pos sat kp vp key.1.1 value.1.1 := appendRow_eq s k l seq cls bset pos next sat kp vp ks vs
  clear_value value key
  have hstops {u : State} {code : Nat} (h : appendRow s k l seq cls bset pos next sat kp vp ks vs = (u, .inr code))
      (hu : Unwritten s u) : stops code :=
    steps_of (exec_locatorStep hc hmay (locatorStep_kvapp_stop hbody hopen hnext h)) ((hu.2 id).trans hc) rfl rfl
      ⟨rfl, rfl, rfl, fun pa => (settle_byteAt _ pa).trans (hu.1 pa)⟩
  have hputs {t' : State} {e : Nat} (ht : Aside t t') (h : appendRow s k l seq cls bset pos next sat kp vp ks vs =
      putRow t t' k l own e slot pos sat kp vp key.1.1 value.1.1) : puts t' e := by
    have hdone {kr : List Machine.Num} {f : Flags} (hkey : turnedKey t' k l own e pos sat key.1.1 = (kr, f))
        (hturns : (entryAt t' k l e).1.turn = 1 → (turnsOf t' k l own (key.1.1.length / 2)).1.2 = none) :
        steps fun u c' => c'.finished = false ∧
          c'.flags = c.flags ||| (f ||| (rowToBytes kp.ty sat kr).2 ||| (rowToBytes vp.ty sat value.1.1).2) ∧
          c'.body = .kvapp l seq cls bset pos0 rows sat kp vp ks vs (next + 1) ∧
          c'.result = some (BitVec.ofNat 64 (next + 1)) ∧
          landed t' u c.die (locBytes t' k l (l.table + 16 * e) ((entryAt t' k l e).1.filled slot).toBytes ++
            poolBytes vp e slot (rowToBytes vp.ty sat value.1.1).1 ++ poolBytes kp e slot (rowToBytes kp.ty sat kr).1) := by
      obtain ⟨u, hput, hlays⟩ := putRow_puts (s0 := t) (slot := slot) (pos := pos) (sat := sat) (kp := kp) (vp := vp)
        (vr := value.1.1) hturns
      rw [hkey] at hput hlays
      have hfind : findCmd u id = some c := (((hread.aside.trans ht).trans hlays.aside).findCmd id).trans hc
      exact steps_of (exec_locatorStep hc hmay (locatorStep_kvapp_row hbody hopen hnext (h.trans hput))) hfind rfl rfl
        ⟨hopen, rfl, rfl, rfl, landed_of_byteAt fun pa => (settle_byteAt _ pa).trans (hlays.byteAt pa)⟩
    refine ⟨fun hturn => ?_, fun hturn hgood => ?_, fun hturn hbad => ?_⟩
    · exact hdone (if_neg hturn) fun h => absurd h hturn
    · exact hdone (if_pos hturn) fun _ => hgood
    · obtain ⟨u, hput, hu⟩ := putRow_stops hturn hbad
      exact hstops (h.trans hput) (hread.unwritten.trans hu)
  refine ⟨hread.byteAt, fun hbad => ?_, fun hkey hvalue => ?_⟩
  · exact hstops (hrow.trans (if_pos (by simpa using hbad))) hread.unwritten
  · have hclass := hrow.trans (if_neg (by rw [hkey, hvalue]; decide))
    have hblock (h : agrees) := hclass.trans (classRow_agrees (h.imp_right fun ⟨e, r, hfirst, hsame⟩ =>
      ⟨e, r, hfirst, mt classDiffers_iff.1 hsame⟩))
    refine ⟨fun pa hfirst => ?_, fun e r hfirst hdiff => ?_, fun h pa hfound => ?_, fun h e r hfound => ?_,
      fun h hfound => ⟨fun n hall => ?_, fun t' e hall => ?_⟩⟩
    · exact hstops (hclass.trans (classRow_error hfirst)) hread.unwritten
    · exact hstops (hclass.trans (classRow_differs hfirst (classDiffers_iff.2 hdiff))) hread.unwritten
    · exact hstops ((hblock h).trans (blockRow_error hfound)) hread.unwritten
    · exact hputs (.refl t) ((hblock h).trans (blockRow_found hfound))
    · exact hstops ((hblock h).trans (blockRow_full hfound hall)) hread.unwritten
    · obtain ⟨ws, hlays⟩ := allocate_lays hall
      exact hputs hlays.aside ((hblock h).trans (blockRow_fresh hfound hall))

/-- Settles O25: locator commands, KVAPP and ATTN enter the tensor queue once their checks pass, an allocation takes the first free
entry, and a KVAPP's step appends its row or stops with a code. -/
theorem attentionAndLocator : Obligations.AttentionAndLocator :=
  ⟨locatorCommands, kvAppend, attention, allocations, appendSteps⟩

end Sys2Proof.Rules

/-! SUPPORT. Splice contexts (R119 to R128): what a context's change and the unit's reads leave, how an SPLOPEN that passes its checks
ends, and what SPLCLOSE and SPLSTAT answer. -/

namespace Sys2Proof.Machine

open Sys2Proof

/-! ### Contexts at a die (R119, R121) -/

/-- The number of a context in a command's word. -/
theorem extractLsb'_six (x : Word) : (x.extractLsb' 0 6).toNat = x.toNat % 64 := by simp [BitVec.extractLsb'_toNat]

theorem State.die_of_dies {s t : State} (h : t.dies = s.dies) (d : BitVec 2) : t.die d = s.die d := by simp only [State.die, h]

theorem findSplice_of_dies {s t : State} (h : t.dies = s.dies) (d : BitVec 2) (n : Nat) : findSplice t d n = findSplice s d n := by
  rw [findSplice, findSplice, State.die_of_dies h]

theorem here_of_coreId {s t : State} (h : t.coreId = s.coreId) : t.here = s.here := congrArg dieOf h

/-- The number of a context finds the context that was set there. -/
@[simp] theorem findSplice_setSplice (s : State) (d : BitVec 2) (n : Nat) (x : SplCtx) :
    findSplice (setSplice s d n x) d n = some x := by
  simp [findSplice, setSplice, State.mapDie, kfind_kset]

/-- Reads spend free choices, and change nothing else. -/
theorem readBytes_frame (d : BitVec 2) (q : Path) (own pas : List Nat) (s : State) :
    ∃ ch, (readBytes d q own pas s).2.2 = { s with choice := ch } := by
  induction pas generalizing own s with
  | nil => exact ⟨s.choice, rfl⟩
  | cons pa r ih =>
    have hrest (own : List Nat) {t : State} {ch : Nat} (ht : t = { s with choice := ch }) :
        ∃ ch, (readBytes d q own r t).2.2 = { s with choice := ch } := by
      obtain ⟨ch', h⟩ := ih own t
      exact ⟨ch', by rw [h, ht]⟩
    rcases readByte_frame s d q own pa with h | h
    · exact hrest _ (ch := s.choice) h
    · exact hrest _ h

/-! ### SPLOPEN (R119 to R121) -/

/-- The guard that the `.nb` form answers in; SPLOPEN itself answers nothing. -/
def openAnswer (nb : Option (BitVec 3)) (s : State) (b : Bool) : State :=
  match nb with
  | some k => (lock s [.g k] (some [.g k b]) none).2
  | none => s

/-- How an SPLOPEN ends whose checks have passed at `s` and whose tables have been read by `s1`: it waits or answers 0 where the
store has no room, waits for free stakes, or opens `y`. -/
def endOpen (nb : Option (BitVec 3)) (xa : Access) (n : Nat) (s s1 : State) (p : SplDesc) (y : SplCtx) (all : List Stake) : Res :=
  if 8192 < (spliceUse s s.here).1 + p.tcount || 8192 < (spliceUse s s.here).2 + p.pages then
    match nb with
    | some _ => ok (xa.done (openAnswer nb { s1 with caught := [] } false))
    | none => hold s .splopen
  else if stakesFull s all then hold s .queue
  else ok (xa.done (openAnswer nb { setSplice s1 s1.here n y with nextId := s1.nextId + 1, caught := [] } true))

/-- An SPLOPEN whose descriptor, records and tables pass, on a number that is not open, comes to its end with a context of its
descriptor. -/
theorem openSplice_ends {c : BitVec 6} {x : EAddr} {s t1 t2 : State} {b : List Byte} {p : SplDesc} {raw : List RawRec}
    {rseg oseg fseg : List Seg} {oh : Shape}
    (halign : ((x.access s.core).ea).toNat % 64 = 0) (hcap : passes (capture s ((x.access s.core).ea).toNat 64) b t1)
    (hparse : parseSplice b = some p) (hroute : checkEngines t1 .splice ⟨true, false⟩ p.planes = .ok rseg)
    (hhandles : passes (captureHandles (p.outh :: (if p.policy = 2 then [p.fbh] else [])) t1) raw t2)
    (hout : checkRecord t2 ⟨false, true⟩ (raw.headD ⟨0, 0, none⟩) = .ok oseg)
    (hfall : checkAll (checkRecord t2 ⟨true, false⟩) raw.tail = .ok fseg)
    (hclean : ∀ y ∈ (readBytes t2.here .splice [] (segAddrs rseg) t2).1, y.poison = false)
    (hids : p.idsOk ((readBytes t2.here .splice [] (segAddrs rseg) t2).1.map (·.val)) = true)
    (hgood : (raw.headD ⟨0, 0, none⟩).good p.outOk = some oh) (hfb : ∀ r ∈ raw.tail, r.good p.fbOk ≠ none)
    (hone : raw.tail.length ≤ 1) (hclosed : findSplice t2 t2.here ((s.core.rs c).toNat % 64) = none) (hpages : p.pages ≤ 8192)
    (nb : Option (BitVec 3)) :
    ∃ fb stakes, openSplice nb c x s = endOpen nb (x.access s.core) ((s.core.rs c).toNat % 64) t2
      (readBytes t2.here .splice [] (segAddrs rseg) t2).2.2 p
      (newContext (readBytes t2.here .splice [] (segAddrs rseg) t2).2.2 p
        ((readBytes t2.here .splice [] (segAddrs rseg) t2).1.map (·.val)) { oh with segs := oseg } fb stakes)
      (stakePages t2 (t2.caught ++ rseg ++ oseg ++ fseg)) := by
  have hnone : ((readBytes t2.here .splice [] (segAddrs rseg) t2).1.zip (segBytes rseg)).find? (fun y => y.1.poison) = none :=
    List.find?_eq_none.2 fun y hy => by simp [hclean _ (List.of_mem_zip hy).1]
  have hfree : ((findSplice t2 t2.here ((s.core.rs c).toNat % 64)).isSome || decide (8192 < p.pages)) = false := by
    simp [hclosed, hpages]
  rw [openSplice, if_neg (not_not.2 halign), hcap]
  simp only [hparse]
  rw [withChecked_ok hroute, hhandles, withChecked_ok hout, withChecked_ok hfall]
  simp only [hnone, hids, hgood, extractLsb'_six]
  rcases hraw : raw.tail with _ | ⟨r, _ | ⟨r', rest⟩⟩
  · simp only [List.map_nil]
    rw [if_neg (ne_true_of_eq_false hfree)]
    cases nb <;> exact ⟨_, _, rfl⟩
  · obtain ⟨f, hf⟩ := Option.ne_none_iff_exists'.1 (hfb r (by simp [hraw]))
    simp only [List.map_cons, List.map_nil, hf]
    rw [if_neg (ne_true_of_eq_false hfree)]
    cases nb <;> exact ⟨_, _, rfl⟩
  · rw [hraw] at hone
    simp at hone

section
variable {nb : Option (BitVec 3)} {xa : Access} {n : Nat} {s s1 : State} {p : SplDesc} {y : SplCtx} {all : List Stake}

theorem endOpen_opens (hroom : (spliceUse s s.here).1 + p.tcount ≤ 8192 ∧ (spliceUse s s.here).2 + p.pages ≤ 8192)
    (hstakes : stakesFull s all = false) : endOpen nb xa n s s1 p y all =
      ok (xa.done (openAnswer nb { setSplice s1 s1.here n y with nextId := s1.nextId + 1, caught := [] } true)) := by
  unfold endOpen
  rw [if_neg (by simpa using hroom), if_neg (ne_true_of_eq_false hstakes)]

theorem endOpen_full (hroom : ¬ ((spliceUse s s.here).1 + p.tcount ≤ 8192 ∧ (spliceUse s s.here).2 + p.pages ≤ 8192)) :
    endOpen nb xa n s s1 p y all = match nb with
      | some _ => ok (xa.done (openAnswer nb { s1 with caught := [] } false))
      | none => hold s .splopen := by
  unfold endOpen
  rw [if_pos (by simp only [Bool.or_eq_true, decide_eq_true_eq]; omega)]

end

/-- A post-increment leaves dies, numbers and interlocked results. -/
theorem accessDone_keeps (xa : Access) (s : State) :
    (xa.done s).dies = s.dies ∧ (xa.done s).nextId = s.nextId ∧ (xa.done s).core.locks = s.core.locks := by
  obtain ⟨_, h⟩ := accessDone_frame xa s
  rw [h]
  exact ⟨rfl, rfl, rfl⟩

/-- The answer of an SPLOPEN changes the active agent alone. -/
theorem openAnswer_keeps (nb : Option (BitVec 3)) (s : State) (b : Bool) :
    (openAnswer nb s b).dies = s.dies ∧ (openAnswer nb s b).nextId = s.nextId := by
  cases nb <;> exact ⟨rfl, rfl⟩

/-! ### SPLCLOSE and SPLSTAT (R128) -/

theorem closeSplice_splices (s : State) (d : BitVec 2) (n : Nat) :
    ((closeSplice s d n).die d).splices = kdel (s.die d).splices n :=
  congrArg DieState.splices (State.die_setDie_same s d _)

section
variable {d c : BitVec 6} {g : GuardF} {s : State} (hg : s.core.guard g = true)
include hg

theorem exec_splclose {n : Nat} (hn : n = (s.core.rs c).toNat % 64) : exec (.splclose d c g) s =
    match (expireDue s s.here n).ownSplice n with
    | none => stepped (lock (expireDue s s.here n) [.s d] (some [.s d 0]) none).2
    | some x => stepped (closeSplice (lock (expireDue s s.here n) [.s d] (some [.s d (BitVec.ofNat 64 x.outstanding)]) none).2
        (expireDue s s.here n).here n) := by
  rw [hn, ← extractLsb'_six]
  exact (show exec (.splclose d c g) s = execSplclose d c g s from rfl).trans (guarded_on hg _)

theorem exec_splstat {n : Nat} (hn : n = (s.core.rs c).toNat % 64) (sel : BitVec 6) : exec (.splstat d c sel g) s =
    stepped (lock (expireDue s s.here n) [.s d] (some [.s d (BitVec.ofNat 64
      (match (expireDue s s.here n).ownSplice n with
        | some x => spliceStat (expireDue s s.here n) x sel.toNat
        | none => 0))]) none).2 := by
  rw [hn, ← extractLsb'_six]
  exact (show exec (.splstat d c sel g) s = execSplstat d c sel g s from rfl).trans (guarded_on hg _)

end

end Sys2Proof.Machine

namespace Sys2Proof.Rules

open Sys2Proof.Machine

/-- An SPLOPEN whose checks pass opens its context where the die has room, and waits or answers 0 where it has none. -/
theorem spliceOpen : SpliceOpen := by
  intro cr k x g s t1 t2 b p raw rseg oseg fseg oh hg n va fbs rd halign hcap hparse hroute hhandles hout hfall hclean hids hgood hfb
    hone hclosed hpages room opened
  have hends := openSplice_ends halign hcap hparse hroute hhandles hout hfall hclean hids hgood hfb hone hclosed hpages
  obtain ⟨ch, hread⟩ := readBytes_frame t2.here .splice [] (segAddrs rseg) t2
  rw [hread] at hends
  have hplain : exec (.splopen cr x g) s = openSplice none cr x s := guarded_on hg _
  have hnb : exec (.splopenNb cr k x g) s = openSplice (some k) cr x s := guarded_on hg _
  refine ⟨fun hroom hstakes => ?_, fun hfull => ?_⟩
  · have hopen (nb : Option (BitVec 3)) : ∃ y, openSplice nb cr x s = ok ((x.access s.core).done (openAnswer nb
          { setSplice { t2 with choice := ch } t2.here n y with nextId := t2.nextId + 1, caught := [] } true)) ∧
        opened ((x.access s.core).done (openAnswer nb
          { setSplice { t2 with choice := ch } t2.here n y with nextId := t2.nextId + 1, caught := [] } true)).clear := by
      obtain ⟨fb, stakes, h⟩ := hends nb
      refine ⟨_, h.trans (endOpen_opens hroom hstakes), ?_⟩
      obtain ⟨hdies, hnext, _⟩ := accessDone_keeps (x.access s.core) (openAnswer nb
        { setSplice { t2 with choice := ch } t2.here n _ with nextId := t2.nextId + 1, caught := [] } true)
      obtain ⟨hdies', hnext'⟩ := openAnswer_keeps nb
        { setSplice { t2 with choice := ch } t2.here n _ with nextId := t2.nextId + 1, caught := [] } true
      exact ⟨rfl, hnext.trans hnext', _, (findSplice_of_dies (hdies.trans hdies') _ _).trans (findSplice_setSplice _ _ _ _),
        rfl, rfl, rfl, rfl, rfl, rfl, rfl, rfl⟩
    obtain ⟨y, hexec, hopened⟩ := hopen none
    obtain ⟨y', hexec', hopened'⟩ := hopen (some k)
    exact ⟨⟨_, hplain.trans hexec, hopened, (accessDone_keeps _ _).2.2⟩,
      ⟨_, _, hnb.trans hexec', hopened', (accessDone_keeps _ _).2.2, rfl, rfl⟩⟩
  · obtain ⟨fb, stakes, h⟩ := hends none
    obtain ⟨fb', stakes', h'⟩ := hends (some k)
    exact ⟨⟨_, hplain.trans (h.trans (endOpen_full hfull))⟩, ⟨_, _, hnb.trans (h'.trans (endOpen_full hfull)), rfl,
      (accessDone_keeps _ _).1, (accessDone_keeps _ _).2.2, rfl, rfl⟩⟩

/-- SPLCLOSE and SPLSTAT answer by the context as their deadline has left it, and 0 where the PASID owns none. -/
theorem spliceCloseAndStatus : SpliceCloseAndStatus := by
  intro d c sel g s hg hd n s0 answered
  have hq : Quiet s s0 := Quiet.expireDue s s.here n
  have hregs : [RegRef.s d].filter (· != .s 0) = [RegRef.s d] := by simpa using hd
  have hanswered {t : State} (v : Word) (h : t.core = (lock s0 [.s d] (some [.s d v]) none).2.core) :
      answered (settle t).clear v := by
    have hcore : (settle t).clear.core = (lock s [.s d] (some [.s d v]) none).2.core := by
      rw [State.clear_core, settle_core, h]
      simp only [lock, hq.core]
    exact ⟨rfl, (congrArg CoreState.cnt hcore : _ = (lock s _ _ _).2.core.cnt), _, congrArg CoreState.locks hcore, hregs, rfl⟩
  have hdies (t : State) : (settle t).dies = t.dies := settle_keeps (·.dies) (fun _ _ _ _ => rfl) t
  refine ⟨fun hnone => ?_, fun x hx hown => ?_⟩
  · rw [exec_splclose hg rfl, exec_splstat hg rfl, show (expireDue s s.here n).ownSplice n = none from hnone]
    exact ⟨⟨_, rfl, hanswered 0 rfl, hdies _⟩, ⟨_, rfl, hanswered 0 rfl, hdies _⟩⟩
  · have hhere : s0.here = s.here := here_of_coreId hq.coreId
    have hsome : s0.ownSplice n = some x := by
      have hpasid : s0.pasid = s.pasid := by simp only [State.pasid, hq.core]
      rw [State.ownSplice, hhere, hx, hpasid]
      simp [hown]
    have hcount : x.outstanding = if x.passed then 0 else x.tokens.countP fun t => !t.released := by
      rw [SplCtx.outstanding, List.countP_eq_length_filter]
    rw [exec_splclose hg rfl, exec_splstat hg rfl, show (expireDue s s.here n).ownSplice n = some x from hsome, ← hcount]
    refine ⟨⟨_, rfl, hanswered _ rfl, ?_⟩, ⟨_, rfl, hanswered _ rfl, hdies _⟩⟩
    rw [show (expireDue s s.here n).here = s.here from hhere]
    exact (congrArg DieState.splices (State.die_of_dies (hdies _) s.here)).trans (closeSplice_splices _ _ n)

/-- Settles O27: SPLOPEN opens, waits or answers 0; SPLCLOSE and SPLSTAT answer. -/
theorem spliceOpens : Obligations.SpliceOpens := ⟨spliceOpen, spliceCloseAndStatus⟩

end Sys2Proof.Rules

/-! SUPPORT. Tokens of splice contexts (R122 to R127): what an accepted row, a place in the release order, a release and the deadline
leave of every token; and what SPLARV answers (R123). -/

namespace Sys2Proof.Machine

open Sys2Proof

/-! ### Tokens (R121) -/

@[simp] theorem setTok_length (x : SplCtx) (i : Nat) (f : Token → Token) : (x.setTok i f).tokens.length = x.tokens.length := by
  simp [SplCtx.setTok]

theorem tok_setTok (x : SplCtx) (i j : Nat) (f : Token → Token) :
    (x.setTok i f).tok j = if j = i ∧ j < x.tokens.length then f (x.tok j) else x.tok j := by
  simp only [SplCtx.setTok, SplCtx.tok, List.getD_eq_getElem?_getD, List.getElem?_map, List.getElem?_zipIdx]
  by_cases hi : j = i
  · subst hi
    by_cases hj : j < x.tokens.length <;> simp [hj]
  · simp [hi, Function.comp_def]

theorem tok_setTok_same {x : SplCtx} {i : Nat} (h : i < x.tokens.length) (f : Token → Token) :
    (x.setTok i f).tok i = f (x.tok i) := (tok_setTok x i i f).trans (if_pos ⟨rfl, h⟩)

theorem tok_setTok_other {i j : Nat} (h : j ≠ i) (x : SplCtx) (f : Token → Token) : (x.setTok i f).tok j = x.tok j :=
  (tok_setTok x i j f).trans (if_neg fun hj => h hj.1)

/-- A change of one token that keeps a field of it keeps that field of every token. -/
theorem tok_setTok_keeps {α : Type} (p : Token → α) {f : Token → Token} (h : ∀ t, p (f t) = p t) (x : SplCtx) (i j : Nat) :
    p ((x.setTok i f).tok j) = p (x.tok j) := by
  rw [tok_setTok]
  split
  · exact h _
  · rfl

/-! ### Steps of the splice unit stand aside (R122 to R127) -/

theorem Aside.ite {s t u : State} {p : Prop} [Decidable p] (ht : Aside s t) (hu : Aside s u) : Aside s (if p then t else u) := by
  split
  · exact ht
  · exact hu

theorem Aside.setSplice (s : State) (d : BitVec 2) (n : Nat) (x : SplCtx) : Aside s (setSplice s d n x) :=
  .setDie s d ⟨rfl, rfl, rfl, rfl, rfl⟩ ⟨rfl, rfl, rfl⟩

theorem Aside.spliceWrite (s : State) (d : BitVec 2) (x : SplCtx) (bytes : List WByte) : Aside s (spliceWrite s d x bytes) :=
  (Aside.place s d .splice x.core x.task x.id none (bytes.map (·.pa)) bytes).trans
    (.of_dies (.of_dies rfl rfl rfl rfl rfl) rfl rfl rfl rfl rfl)

theorem Aside.foldl_spliceWrite {α : Type} (d : BitVec 2) (x : SplCtx) (ws : List (List WByte × α)) (s : State) :
    Aside s (ws.foldl (fun s w => Machine.spliceWrite s d x w.1) s) :=
  .foldl (fun s w => .spliceWrite s d x w.1) ws s

theorem Aside.fallbackRow (s : State) (d : BitVec 2) (x : SplCtx) (i : Nat) : Aside s (fallbackRow s d x i).2 := by
  unfold Machine.fallbackRow
  split
  · exact .refl s
  · exact (Silent.readVas d .splice _ _ s).aside

theorem Aside.releaseToken (s : State) (d : BitVec 2) (n i core : Nat) : Aside s (releaseToken s d n i core) := by
  have hrow (x : SplCtx) (subst : Bool) :
      Aside s (if subst then Machine.fallbackRow s d x i else (([], false), s)).2 := by
    split
    · exact .fallbackRow s d x i
    · exact .refl s
  unfold Machine.releaseToken
  split
  · exact .refl s
  · exact (((hrow _ _).trans (.foldl_spliceWrite d _ _ _)).trans (.spliceWrite _ d _ _)).trans
      (.setSplice _ d n _)

theorem Aside.orderToken (s : State) (d : BitVec 2) (n i : Nat) : Aside s (orderToken s d n i) := by
  unfold Machine.orderToken
  split
  · exact .refl s
  · exact .setSplice s d n _

theorem Aside.releaseHeld (s : State) (d : BitVec 2) (n : Nat) : Aside s (releaseHeld s d n) := by
  unfold Machine.releaseHeld
  split
  · exact .refl s
  · split
    · exact .foldl (fun s i => .releaseToken s d n i _) _ _
    · exact .refl s

/-- At the deadline a token that has not entered the release order enters it, timed out if it is not complete. -/
def timeOut (d : BitVec 2) (n : Nat) (s : State) (i : Nat) : State :=
  match findSplice s d n with
  | none => s
  | some x => orderToken
      (setSplice s d n (if x.complete (x.tok i) then x else x.setTok i fun t => { t with timed := true })) d n i

theorem expire_eq {s : State} {d : BitVec 2} {n : Nat} {x : SplCtx} (h : findSplice s d n = some x) :
    expire s d n = releaseHeld (((List.range x.tcount).filter fun i => !x.ordered i).foldl (timeOut d n)
      (setSplice s d n { x with passed := true })) d n := by
  simp only [expire, h]
  rfl

theorem Aside.timeOut (s : State) (d : BitVec 2) (n i : Nat) : Aside s (timeOut d n s i) := by
  unfold Machine.timeOut
  split
  · exact .refl s
  · exact (Aside.setSplice s d n _).trans (.orderToken _ d n i)

theorem Aside.expire (s : State) (d : BitVec 2) (n : Nat) : Aside s (expire s d n) := by
  cases h : findSplice s d n with
  | none => simpa only [Machine.expire, h] using .refl s
  | some x =>
    rw [expire_eq h]
    exact ((Aside.setSplice s d n _).trans (.foldl (fun s i => .timeOut s d n i) _ _)).trans (.releaseHeld _ d n)

theorem Aside.expireDue (s : State) (d : BitVec 2) (n : Nat) : Aside s (expireDue s d n) := by
  unfold Machine.expireDue
  split
  · exact .refl s
  · split
    · exact .expire s d n
    · exact .refl s

theorem Aside.advance (d : BitVec 2) (n : Nat) (is : List Nat) (s : State) : Aside s (advance d n is s) := by
  induction is generalizing s with
  | nil => exact .refl s
  | cons i r ih =>
    unfold Machine.advance
    split
    · exact .refl s
    · split
      · exact ih s
      · split
        · exact (Aside.orderToken s d n i).trans (ih _)
        · exact .refl s

theorem Aside.takeRow (s : State) (d : BitVec 2) (n : Nat) (cl : Nat × Nat × Nat) (b : List Byte) (p : Bool) :
    Aside s (takeRow s d n cl b p) := by
  unfold Machine.takeRow
  split
  · exact .refl s
  · simp only
    split
    · exact .setSplice s d n _
    · exact .setSplice s d n _
    · exact .setSplice s d n _
    · exact .ite (.setSplice s d n _) (.ite ((Aside.setSplice s d n _).trans (.advance d n _ _))
        ((Aside.setSplice s d n _).trans (.orderToken _ d n _)))
    · exact .refl s

/-! ### The release order (R123, R124) -/

/-- A token that is released, and one that has timed out. -/
def Token.freed (t : Token) : Token := { t with released := true }
def Token.expired (t : Token) : Token := { t with timed := true }

section
variable {s : State} {d : BitVec 2} {n : Nat} {x : SplCtx} (h : findSplice s d n = some x)
include h

theorem findSplice_orderToken (i : Nat) : findSplice (orderToken s d n i) d n = some { x with held := x.held ++ [i] } := by
  simp only [orderToken, h]
  exact findSplice_setSplice s d n _

theorem findSplice_timeOut (i : Nat) : findSplice (timeOut d n s i) d n =
    some { (if x.complete (x.tok i) then x else x.setTok i Token.expired) with held := x.held ++ [i] } := by
  simp only [timeOut, h]
  rw [findSplice_orderToken (findSplice_setSplice s d n _)]
  split <;> rfl

/-- A release takes the token out of the order, and marks it. -/
theorem findSplice_releaseToken (i core : Nat) : ∃ out fb, findSplice (releaseToken s d n i core) d n =
    some { x.setTok i Token.freed with
      held := x.held.filter (· != i), outSh := out, fbSh := fb } := by
  simp only [releaseToken, h]
  exact ⟨_, _, findSplice_setSplice _ d n _⟩

end

/-- Token order changes nothing but which tokens stand in the release order. -/
theorem findSplice_advance {d : BitVec 2} {n : Nat} (is : List Nat) {s : State} {x : SplCtx} (h : findSplice s d n = some x) :
    ∃ held, findSplice (advance d n is s) d n = some { x with held := held } := by
  induction is generalizing s x with
  | nil => exact ⟨x.held, h⟩
  | cons i r ih =>
    simp only [advance, h]
    split
    · exact ih h
    · split
      · have hrest := ih (findSplice_orderToken h i)
        exact hrest
      · exact ⟨x.held, h⟩

/-- A token once a row has arrived as its routing entry `k`. -/
def Token.took (k : Nat) (bytes : List Byte) (poison : Bool) (t : Token) : Token :=
  { t with
    arrived := t.arrived ||| (1#8 <<< k)
    poison := if poison then t.poison ||| (1#8 <<< k) else t.poison
    rows := kset t.rows k bytes }

/-- A row that passes the tests changes its token; one that completes it puts it in the release order, at once where the policy
does so. -/
theorem findSplice_takeRow {s : State} {d : BitVec 2} {n : Nat} {x : SplCtx} (h : findSplice s d n = some x) {i : Nat}
    (hi : i < x.tokens.length) (k : Nat) (bytes : List Byte) (poison : Bool) :
    ∃ y, findSplice (takeRow s d n (0, i, k) bytes poison) d n = some y ∧
      (y.tok i).arrived = (x.tok i).arrived ||| (1#8 <<< k) ∧ (y.tok i).released = (x.tok i).released ∧
      (x.tokOrder = false → (x.tok i).arrived ||| (1#8 <<< k) = x.mask → i ∈ y.held) := by
  have htok := tok_setTok_same hi (Token.took k bytes poison)
  have hset := findSplice_setSplice s d n (x.setTok i (Token.took k bytes poison))
  have hcomplete : (x.setTok i (Token.took k bytes poison)).complete ((x.setTok i (Token.took k bytes poison)).tok i) =
      ((x.tok i).arrived ||| (1#8 <<< k) == x.mask) := by
    rw [htok]
    rfl
  have htake : takeRow s d n (0, i, k) bytes poison =
      if !((x.tok i).arrived ||| (1#8 <<< k) == x.mask) then setSplice s d n (x.setTok i (Token.took k bytes poison))
      else if x.tokOrder then advance d n (List.range x.tcount) (setSplice s d n (x.setTok i (Token.took k bytes poison)))
      else orderToken (setSplice s d n (x.setTok i (Token.took k bytes poison))) d n i := by
    rw [← hcomplete]
    simp only [takeRow, h]
    rfl
  suffices hheld : ∃ held, findSplice (takeRow s d n (0, i, k) bytes poison) d n =
        some { x.setTok i (Token.took k bytes poison) with held := held } ∧
      (x.tokOrder = false → (x.tok i).arrived ||| (1#8 <<< k) = x.mask → i ∈ held) by
    obtain ⟨held, hfind, horder⟩ := hheld
    exact ⟨_, hfind, (congrArg Token.arrived htok :), (congrArg Token.released htok :), horder⟩
  rw [htake]
  split
  · next hnot => exact ⟨x.held, hset, fun _ hmask => by simp [hmask] at hnot⟩
  · split
    · next horder =>
      obtain ⟨held, hadv⟩ := findSplice_advance (List.range x.tcount) hset
      exact ⟨held, hadv, fun hplain => by simp [horder] at hplain⟩
    · exact ⟨_, findSplice_orderToken hset i, fun _ _ => by simp⟩

/-! ### What releases and the deadline leave of a token (R126, R127) -/

/-- `y` is the context `x` after releases and places taken in the release order: a token that was in the order or released still is
one or the other. -/
structure SplCtx.Later (x y : SplCtx) : Prop where
  passed : y.passed = x.passed
  kk : y.kk = x.kk
  length : y.tokens.length = x.tokens.length
  arrived : ∀ i, (y.tok i).arrived = (x.tok i).arrived
  timed : ∀ i, (x.tok i).timed = true → (y.tok i).timed = true
  out : ∀ i, i < x.tokens.length → (x.tok i).released = true ∨ i ∈ x.held → (y.tok i).released = true ∨ i ∈ y.held

theorem SplCtx.Later.refl (x : SplCtx) : x.Later x := ⟨rfl, rfl, rfl, fun _ => rfl, fun _ h => h, fun _ _ h => h⟩

theorem SplCtx.Later.trans {x y z : SplCtx} (h : x.Later y) (k : y.Later z) : x.Later z where
  passed := k.passed.trans h.passed
  kk := k.kk.trans h.kk
  length := k.length.trans h.length
  arrived i := (k.arrived i).trans (h.arrived i)
  timed i hi := k.timed i (h.timed i hi)
  out i hi ho := k.out i (h.length ▸ hi) (h.out i hi ho)

theorem SplCtx.Later.complete {x y : SplCtx} (h : x.Later y) (i : Nat) : y.complete (y.tok i) = x.complete (x.tok i) := by
  simp only [SplCtx.complete, SplCtx.mask, h.kk, h.arrived]

/-- Between `s` and `t` the context `n` of a die has gone on as releases and the release order let it. -/
def goesOn (d : BitVec 2) (n : Nat) (s t : State) : Prop :=
  ∀ x, findSplice s d n = some x → ∃ y, findSplice t d n = some y ∧ x.Later y

theorem goesOn.refl (d : BitVec 2) (n : Nat) (s : State) : goesOn d n s s := fun x h => ⟨x, h, .refl x⟩

theorem goesOn.trans {d : BitVec 2} {n : Nat} {s t u : State} (h : goesOn d n s t) (k : goesOn d n t u) : goesOn d n s u := by
  intro x hx
  obtain ⟨y, hy, hxy⟩ := h x hx
  obtain ⟨z, hz, hyz⟩ := k y hy
  exact ⟨z, hz, hxy.trans hyz⟩

theorem goesOn.foldl {d : BitVec 2} {n : Nat} {g : State → Nat → State} (h : ∀ s i, goesOn d n s (g s i)) (l : List Nat)
    (s : State) : goesOn d n s (l.foldl g s) :=
  List.foldlRecOn (motive := goesOn d n s) l g (.refl d n s) fun _ ht i _ => ht.trans (h _ i)

theorem releaseToken_goesOn (s : State) (d : BitVec 2) (n i core : Nat) : goesOn d n s (releaseToken s d n i core) := by
  intro x hx
  obtain ⟨out, fb, h⟩ := findSplice_releaseToken hx i core
  refine ⟨_, h, rfl, rfl, setTok_length x i Token.freed, tok_setTok_keeps (f := Token.freed) (·.arrived) (fun _ => rfl) x i,
    fun j hj => ?_, fun j hj ho => ?_⟩
  · exact (tok_setTok_keeps (f := Token.freed) (·.timed) (fun _ => rfl) x i j).trans hj
  · by_cases hji : j = i
    · subst hji
      exact .inl (congrArg Token.released (tok_setTok_same hj Token.freed))
    · refine ho.imp (fun hr => ?_) fun hheld => List.mem_filter.2 ⟨hheld, by simpa using hji⟩
      exact (congrArg Token.released (tok_setTok_other hji x Token.freed)).trans hr

/-- A token whose time is over stands in the release order. -/
theorem timeOut_goesOn (s : State) (d : BitVec 2) (n i : Nat) : goesOn d n s (timeOut d n s i) := by
  intro x hx
  refine ⟨_, findSplice_timeOut hx i, ?_⟩
  have hout (y : SplCtx) (hrel : ∀ j, (y.tok j).released = (x.tok j).released) (j : Nat)
      (ho : (x.tok j).released = true ∨ j ∈ x.held) : (y.tok j).released = true ∨ j ∈ x.held ++ [i] :=
    ho.imp (fun h => (hrel j).trans h) fun h => List.mem_append_left _ h
  split
  · exact ⟨rfl, rfl, rfl, fun _ => rfl, fun _ h => h, fun j _ ho => hout x (fun _ => rfl) j ho⟩
  · refine ⟨rfl, rfl, setTok_length x i Token.expired, tok_setTok_keeps (f := Token.expired) (·.arrived) (fun _ => rfl) x i,
      fun j hj => ?_, fun j _ ho => hout _ (tok_setTok_keeps (f := Token.expired) (·.released) (fun _ => rfl) x i) j ho⟩
    change ((x.setTok i Token.expired).tok j).timed = true
    rw [tok_setTok]
    split
    · rfl
    · exact hj

/-- Every token of the list enters the release order, timed out if it is not complete. -/
theorem foldl_timeOut {d : BitVec 2} {n : Nat} (l : List Nat) {s : State} {x : SplCtx} (hx : findSplice s d n = some x) :
    ∃ y, findSplice (l.foldl (timeOut d n) s) d n = some y ∧ x.Later y ∧ ∀ i ∈ l, i < x.tokens.length →
      ((y.tok i).released = true ∨ i ∈ y.held) ∧ (x.complete (x.tok i) = false → (y.tok i).timed = true) := by
  induction l generalizing s x with
  | nil => exact ⟨x, hx, .refl x, fun _ h => absurd h List.not_mem_nil⟩
  | cons k r ih =>
    obtain ⟨y, hy, hxy⟩ := timeOut_goesOn s d n k x hx
    have hheld : k ∈ y.held ∧ (k < x.tokens.length → x.complete (x.tok k) = false → (y.tok k).timed = true) := by
      obtain rfl := Option.some.inj ((findSplice_timeOut hx k).symm.trans hy)
      refine ⟨by simp, fun hk hc => ?_⟩
      rw [if_neg (ne_true_of_eq_false hc)]
      exact congrArg Token.timed (tok_setTok_same hk Token.expired)
    obtain ⟨z, hz, hyz, hr⟩ := ih hy
    refine ⟨z, hz, hxy.trans hyz, fun i hi hlen => ?_⟩
    have hlen' : i < y.tokens.length := hxy.length ▸ hlen
    rcases List.mem_cons.1 hi with rfl | hi
    · exact ⟨hyz.out i hlen' (.inr hheld.1), fun hc => hyz.timed i (hheld.2 hlen hc)⟩
    · exact ⟨(hr i hi hlen').1, fun hc => (hr i hi hlen').2 ((hxy.complete i).trans hc)⟩

theorem releaseHeld_goesOn (s : State) (d : BitVec 2) (n : Nat) : goesOn d n s (releaseHeld s d n) := by
  unfold releaseHeld
  split
  · exact .refl d n s
  · split
    · exact .foldl (fun s i => releaseToken_goesOn s d n i _) _ s
    · exact .refl d n s

/-- The deadline of a context passes: each token that was not in the release order is released or held there. -/
theorem findSplice_expire {s : State} {d : BitVec 2} {n : Nat} {x : SplCtx} (hx : findSplice s d n = some x) :
    ∃ y, findSplice (expire s d n) d n = some y ∧ y.passed = true ∧
      ∀ i, i < x.tcount → i < x.tokens.length → x.ordered i = false →
        ((y.tok i).released = true ∨ i ∈ y.held) ∧ (x.complete (x.tok i) = false → (y.tok i).timed = true) := by
  obtain ⟨y, hy, hxy, hl⟩ := foldl_timeOut ((List.range x.tcount).filter fun i => !x.ordered i)
    (findSplice_setSplice s d n { x with passed := true })
  obtain ⟨z, hz, hyz⟩ := releaseHeld_goesOn _ d n y hy
  rw [expire_eq hx]
  refine ⟨z, hz, hyz.passed.trans hxy.passed, fun i hi hlen hord => ?_⟩
  obtain ⟨hout, htimed⟩ := hl i (List.mem_filter.2 ⟨List.mem_range.2 hi, by simp [hord]⟩) hlen
  exact ⟨hyz.out i (hxy.length ▸ hlen) hout, fun hc => hyz.timed i (htimed hc)⟩

/-- A deadline that has passed, or has not come, changes nothing. -/
theorem expireDue_early {s : State} {d : BitVec 2} {n : Nat} {x : SplCtx} (hx : findSplice s d n = some x)
    (h : x.passed = true ∨ s.time < x.deadline) : expireDue s d n = s := by
  simp only [expireDue, hx]
  refine if_neg ?_
  rcases h with h | h <;> simp [h]

/-! ### SPLARV (R122, R123, R233) -/

theorem classify_of_find {s t : State} {d : BitVec 2} {n : Nat} (h : findSplice t d n = findSplice s d n) (pasid token expert : Nat) :
    classify t d n pasid token expert = classify s d n pasid token expert := by simp only [classify, h]

/-- The first test: the context is open, and the PASID owns it. -/
theorem classify_five_iff (s : State) (d : BitVec 2) (n pasid token expert : Nat) :
    (classify s d n pasid token expert).1 = 5 ↔ ∀ x, findSplice s d n = some x → x.owner ≠ pasid := by
  cases h : findSplice s d n with
  | none => simp [classify, h]
  | some x =>
    simp only [classify, h, Option.some.injEq, forall_eq']
    by_cases hown : x.owner = pasid
    · simp only [hown, ne_eq, not_true_eq_false, if_false, iff_false]
      split
      · simp
      · split
        · simp
        · split_ifs <;> simp
    · simp [hown]

/-- How an SPLARV ends at `u`, whose bundle began at `s`: it waits, or answers `code` and stakes `pages`. -/
def endArrival (s u : State) (d : BitVec 6) (xa : Access) (pages : List Stake) (code : Nat) : Res :=
  if s.core.atLimit 5 || stakesFull s pages then hold s .queue
  else
    stepped (stakeFor (xa.done { (lock u [.s d] (some [.s d (BitVec.ofNat 64 code)]) (some 5)).2 with
      core := (lock u [.s d] (some [.s d (BitVec.ofNat 64 code)]) (some 5)).2.core.count 5 1 }) u.core.seq pages)

theorem endArrival_answers {s u : State} {d : BitVec 6} {pages : List Stake} (hd : d ≠ 0) (hsp : s.core.cnt.sp ≠ BitVec.allOnes 16)
    (hpages : stakesFull s pages = false) (hcore : u.core = s.core) (xa : Access) (code : Nat) :
    ∃ v, endArrival s u d xa pages code = .next v ∧
      (v.sig = .none ∧ v.core.cnt.sp = s.core.cnt.sp + 1 ∧ v.core.staked = s.core.staked ++ [(s.core.seq, pages)] ∧
        ∃ l : Lock, v.core.locks = s.core.locks ++ [l] ∧ l.tok = s.core.seq ∧ l.regs = [.s d] ∧
          l.result = some [.s d (BitVec.ofNat 64 code)] ∧ l.counts = some 5) ∧
      v.dies = u.dies := by
  have hlimit : s.core.atLimit 5 = false := beq_eq_false_iff_ne.2 hsp
  obtain ⟨_, hdone⟩ := accessDone_frame xa { (lock u [.s d] (some [.s d (BitVec.ofNat 64 code)]) (some 5)).2 with
    core := (lock u [.s d] (some [.s d (BitVec.ofNat 64 code)]) (some 5)).2.core.count 5 1 }
  rw [endArrival, hlimit, hpages, hdone, stepped_next, ← hcore]
  refine ⟨_, rfl, ⟨rfl, ?_⟩, settle_keeps (·.dies) (fun _ _ _ _ => rfl) _⟩
  rw [State.clear_core, settle_core]
  exact ⟨rfl, rfl, _, rfl, rfl, List.filter_eq_self.2 (by simpa using hd), rfl, rfl⟩

section
variable {d e tk : BitVec 6} {x : EAddr} {g : GuardF} {s s0 : State} {n : Nat} {cl : Nat × Nat × Nat} (hg : s.core.guard g = true)
  (hn : n = (s.core.rs e).toNat % 64) (h0 : s0 = expireDue s s.here n)
  (hcl : cl = classify s0 s.here n s.pasid (s.core.rs tk).toNat ((s.core.rs e).toNat / 256 % 256))
include hg hn h0 hcl

theorem exec_splarv : exec (.splarv d e tk x g) s = match cl.1, findSplice s0 s.here n with
    | 5, _ | _, none => endArrival s s0 d (x.access s.core) [] 5
    | code, some c =>
      withChecked s (checkEngine s .splice ⟨true, false⟩ (x.access s.core).ea.toNat (c.d * ((afmtTy c.afmt).bits / 8))) fun segs =>
        endArrival s (takeRow (readBytes s.here .splice [] (segAddrs segs) s0).2.2 s.here n cl
            ((readBytes s.here .splice [] (segAddrs segs) s0).1.map (·.val))
            ((readBytes s.here .splice [] (segAddrs segs) s0).1.any (·.poison)))
          d (x.access s.core) (stakePages s segs)
          (if code = 0 && (readBytes s.here .splice [] (segAddrs segs) s0).1.any (·.poison) then 4 else code) := by
  have hhere : s0.here = s.here := here_of_coreId (h0 ▸ (Quiet.expireDue s s.here n).coreId)
  have hread (pas : List Nat) : (readBytes s.here .splice [] pas s0).2.2.here = s.here :=
    (here_of_coreId (Quiet.readBytes _ _ _ _ _).coreId).trans hhere
  have hex : ((s.core.rs e).extractLsb' 8 8).toNat = (s.core.rs e).toNat / 256 % 256 := by
    simp [BitVec.extractLsb'_toNat, Nat.shiftRight_eq_div_pow]
  rw [show exec (.splarv d e tk x g) s = execSplarv d e tk x g s from rfl, execSplarv, guarded_on hg]
  simp only [extractLsb'_six, ← hn, ← h0, hhere, hex, ← hcl, hread]
  rfl

/-- No such context, or another PASID's: the answer is 5, and no row is read. -/
theorem exec_splarv_unowned (h : ∀ c, findSplice s0 s.here n = some c → c.owner ≠ s.pasid) :
    exec (.splarv d e tk x g) s = endArrival s s0 d (x.access s.core) [] 5 := by
  have hfive : cl.1 = 5 := hcl ▸ (classify_five_iff ..).2 h
  rw [exec_splarv hg hn h0 hcl, hfive]
  cases findSplice s0 s.here n <;> rfl

theorem exec_splarv_owned {c : SplCtx} {segs : List Seg} (hc : findSplice s0 s.here n = some c) (hown : c.owner = s.pasid)
    (hsegs : checkEngine s .splice ⟨true, false⟩ (x.access s.core).ea.toNat (c.d * ((afmtTy c.afmt).bits / 8)) = .ok segs) :
    exec (.splarv d e tk x g) s =
      endArrival s (takeRow (readBytes s.here .splice [] (segAddrs segs) s0).2.2 s.here n cl
          ((readBytes s.here .splice [] (segAddrs segs) s0).1.map (·.val))
          ((readBytes s.here .splice [] (segAddrs segs) s0).1.any (·.poison)))
        d (x.access s.core) (stakePages s segs)
        (if cl.1 = 0 && (readBytes s.here .splice [] (segAddrs segs) s0).1.any (·.poison) then 4 else cl.1) := by
  have hfive : cl.1 ≠ 5 := hcl ▸ mt (classify_five_iff ..).1 fun h => h c hc hown
  rw [exec_splarv hg hn h0 hcl, hc]
  split
  · next h => exact absurd h hfive
  · next h _ => cases h
  · next h _ =>
    cases h
    exact withChecked_ok hsegs _

end

end Sys2Proof.Machine

namespace Sys2Proof.Rules

open Sys2Proof.Machine

/-- An SPLARV answers the code of the first test that holds; a row that passes them all sets its routing entry. -/
theorem spliceArrivalAnswer : SpliceArrivalAnswer := by
  intro d e tk x g s segs hg hd hsp n ex s0 cl answered
  have hcore : s0.core = s.core := (Quiet.expireDue s s.here n).core
  have hunowned (h : ∀ c, findSplice s0 s.here n = some c → c.owner ≠ s.pasid) :
      ∃ u, exec (.splarv d e tk x g) s = .next u ∧ answered u 5 [] := by
    obtain ⟨u, hend, hans, _⟩ := endArrival_answers hd hsp (pages := []) rfl hcore (x.access s.core) 5
    exact ⟨u, (exec_splarv_unowned hg rfl rfl rfl h).trans hend, hans⟩
  refine ⟨fun hnone => hunowned fun c hc => ?_, fun c hc => ⟨fun hown => hunowned fun c' hc' => ?_, fun hown hsegs hroom => ?_⟩⟩
  · rw [hnone] at hc
    cases hc
  · obtain rfl := Option.some.inj (hc.symm.trans hc')
    exact hown
  · have hexec := exec_splarv_owned (d := d) (tk := tk) (n := n) (s0 := s0) (cl := cl) hg rfl rfl rfl hc hown hsegs
    obtain ⟨ch, hread⟩ := readBytes_frame s.here .splice [] (segAddrs segs) s0
    rw [hread] at hexec
    have hends (bytes : List Byte) (bad : Bool) (code : Nat) :=
      endArrival_answers hd hsp hroom (u := takeRow { s0 with choice := ch } s.here n cl bytes bad)
        ((Aside.takeRow _ _ _ _ _ _).quiet.core.trans hcore) (x.access s.core) code
    refine ⟨fun hcode => ?_, fun i k hpass hi hk => ?_⟩
    · obtain ⟨u, hend, hans, _⟩ := hends _ _ cl.1
      exact ⟨u, hexec.trans ((congrArg _ (if_neg (by simp [hcode]))).trans hend), hans⟩
    · intro bad
      obtain ⟨u, hend, hans, hdies⟩ := hends _ bad (if bad then 4 else 0)
      have hanswer : (if (decide (cl.1 = 0) && bad) = true then 4 else cl.1) = if bad then 4 else 0 := by
        simp only [hpass, decide_true, Bool.true_and]
      obtain ⟨y, hfind, harrived, hreleased, _⟩ := findSplice_takeRow (s := { s0 with choice := ch }) hc hi k
        ((readBytes s.here .splice [] (segAddrs segs) s0).1.map (·.val)) bad
      rw [← hpass] at hfind
      exact ⟨u, hexec.trans ((congrArg _ hanswer).trans hend), hans, y, (findSplice_of_dies hdies _ _).trans hfind, harrived,
        hreleased⟩

/-- A row leaves its queue; one that passes the tests sets its routing entry, and one that completes its token puts the token in
the release order. -/
theorem rowsArrive : SpliceRows := by
  intro die s r rest hrows n
  have hdies (t : State) : (settle t).dies = t.dies := settle_keeps (·.dies) (fun _ _ _ _ => rfl) t
  let s1 := s.mapDie die fun d => { d with rows := rest }
  have hexec : exec (.spliceArrival die) s = match findSplice (expireDue s1 die n) die n with
      | none => stepped (expireDue s1 die n)
      | some x => stepped (takeRow (expireDue s1 die n) die n
          (classify (expireDue s1 die n) die n r.pasid (x.tbase + r.token) r.expert) r.bytes r.poison) := by
    change execSpliceArrival die s = _
    simp only [execSpliceArrival, hrows]
    rfl
  have hdie : s1.die die = { s.die die with rows := rest } := State.die_setDie_same s die _
  have hrest {t : State} (h : Aside s1 t) : ((settle t).clear.die die).rows = rest := by
    rw [State.die_of_dies (t := (settle t).clear) (hdies t), (h.die die).rows, hdie]
  have hfind : findSplice s1 die n = findSplice s die n := by rw [findSplice, hdie, findSplice]
  have hdue := Aside.expireDue s1 die n
  rw [hexec]
  cases hc : findSplice (expireDue s1 die n) die n with
  | none =>
    refine ⟨_, rfl, hrest hdue, fun x i k hx hearly => ?_⟩
    have hx1 := hfind.trans hx
    rw [expireDue_early hx1 hearly, hx1] at hc
    cases hc
  | some c =>
    refine ⟨_, rfl, hrest (hdue.trans (.takeRow _ _ _ _ _ _)), fun x i k hx hearly hi hcl hk => ?_⟩
    have hx1 := hfind.trans hx
    rw [expireDue_early hx1 hearly] at hc ⊢
    obtain rfl := Option.some.inj (hx1.symm.trans hc)
    obtain ⟨y, htake, hy⟩ := findSplice_takeRow hx1 hi k r.bytes r.poison
    rw [classify_of_find hfind, hcl]
    exact ⟨y, (findSplice_of_dies (hdies _) die n).trans htake, hy⟩

/-- The next release is that of the first token in the order, where the opener is resident. -/
theorem spliceReleases : SpliceReleases := by
  intro die n s x i r hx hheld
  refine ⟨fun haway => ?_, fun hhere hi => ?_⟩
  · simp only [releaseNext, hx, haway]
  · obtain ⟨a, ha⟩ := Option.ne_none_iff_exists'.1 hhere
    obtain ⟨out, fb, hfind⟩ := findSplice_releaseToken hx i a
    refine ⟨settle (releaseToken s die n i a), _, ?_, (findSplice_of_dies ?_ die n).trans hfind,
      congrArg Token.released (tok_setTok_same hi Token.freed), rfl, fun j hj => tok_setTok_other hj x Token.freed, ?_⟩
    · simp only [releaseNext, hx, ha, hheld]
    · exact settle_keeps (·.dies) (fun _ _ _ _ => rfl) _
    · exact (settle_core _).trans (Quiet.releaseToken s die n i a).core

/-- The deadline of an open context passes at its cycle or later. -/
theorem spliceDeadlines : SpliceDeadlines := by
  intro die ctx s x hx hopen hdue
  obtain ⟨y, hy, hpassed, htokens⟩ := findSplice_expire hx
  refine ⟨(settle (expire s die ctx.toNat)).clear, y, ?_, (findSplice_of_dies ?_ die _).trans hy, hpassed, htokens⟩
  · change execSpliceDeadline die ctx s = _
    simp only [execSpliceDeadline, hx, hopen, Bool.false_or, decide_eq_true_eq]
    rw [if_neg (Nat.not_lt.2 hdue)]
    exact stepped_next _
  · exact settle_keeps (·.dies) (fun _ _ _ _ => rfl) (expire s die ctx.toNat)

/-- Settles O28: SPLARV's answers, arriving rows, releases and deadlines of splice contexts. -/
theorem spliceRows : Obligations.SpliceRows := ⟨spliceArrivalAnswer, rowsArrive, spliceReleases, spliceDeadlines⟩

end Sys2Proof.Rules

/-! SUPPORT. Tiles and ladders (R56, R108 to R114, R117): rows after a tile is written, element by element operations of two tiles,
and the ladder instructions that act on one ladder. -/

namespace Sys2Proof.Machine

open Sys2Proof

/-! ### Tiles (R56) -/

@[simp] theorem tile_length (c : CoreState) (t : Nat) : (c.tile t).length = 32 := by simp [CoreState.tile]

theorem tile_getD (c : CoreState) (t : Nat) {i : Nat} (h : i < 32) : (c.tile t).getD i 0 = c.accRow (32 * t + i) := by
  simp [CoreState.tile, h]

@[simp] theorem zeroTile_length : zeroTile.length = 32 := List.length_replicate

theorem zeroTile_getD (i : Nat) : zeroTile.getD i 0 = 0 := by
  rw [zeroTile, List.getD_eq_getElem?_getD, List.getElem?_replicate]
  split <;> rfl

theorem setTile_eq_writeRows (c : CoreState) (t : Nat) (rows : List AccRow) :
    c.setTile t rows = writeRows c (32 * t) (fun i => rows.getD i 0) (List.range rows.length) := by
  have hzip : rows.zipIdx = (List.range rows.length).map fun i => (rows.getD i 0, i) :=
    List.ext_getElem (by simp) fun i h _ => by
      have hi : i < rows.length := by simpa using h
      simp [hi]
  rw [CoreState.setTile, hzip, List.foldl_map]
  rfl

/-- A written tile: its rows, and all others as they were. -/
theorem accRow_setTile (c : CoreState) (t : Nat) {rows : List AccRow} (h : rows.length = 32) (r : Nat) :
    (c.setTile t rows).accRow r = if r / 32 = t then rows.getD (r % 32) 0 else c.accRow r := by
  rw [setTile_eq_writeRows, h]
  by_cases hr : r / 32 = t
  · have hrow : r = 32 * t + r % 32 := by omega
    rw [if_pos hr]
    conv_lhs => rw [hrow]
    rw [accRow_writeRows, if_pos (List.mem_range.2 (Nat.mod_lt _ (by decide)))]
  · rw [if_neg hr]
    refine accRow_writeRows_other _ _ _ fun i hi => ?_
    have := List.mem_range.1 hi
    omega

theorem setTile_frame (c : CoreState) (t : Nat) (rows : List AccRow) :
    ∃ acc err, c.setTile t rows = { c with acc := acc, accErr := err } := by
  rw [setTile_eq_writeRows]
  exact writeRows_frame c _ _ _

@[simp] theorem setTile_ladder (c : CoreState) (t : Nat) (rows : List AccRow) (l : BitVec 2) :
    (c.setTile t rows).ladder l = c.ladder l := by
  obtain ⟨_, _, h⟩ := setTile_frame c t rows
  rw [h]
  rfl

@[simp] theorem setTile_fflags (c : CoreState) (t : Nat) (rows : List AccRow) : (c.setTile t rows).fflags = c.fflags := by
  obtain ⟨_, _, h⟩ := setTile_frame c t rows
  rw [h]

/-- Some tiles from `b` on, each written anew. -/
def writeTiles (c : CoreState) (b : Nat) (f : Nat → List AccRow) (ks : List Nat) : CoreState :=
  ks.foldl (fun c k => c.setTile (b + k) (f k)) c

theorem accRow_writeTiles (c : CoreState) (b : Nat) {f : Nat → List AccRow} {ks : List Nat} (h : ∀ k ∈ ks, (f k).length = 32)
    (r : Nat) : (writeTiles c b f ks).accRow r =
      if b ≤ r / 32 ∧ r / 32 - b ∈ ks then (f (r / 32 - b)).getD (r % 32) 0 else c.accRow r := by
  induction ks generalizing c with
  | nil => simp [writeTiles]
  | cons k ks ih =>
    rw [writeTiles, List.foldl_cons, ← writeTiles, ih _ fun k' hk => h k' (List.mem_cons_of_mem k hk),
      accRow_setTile _ _ (h k (List.mem_cons_self ..))]
    by_cases hin : b ≤ r / 32 ∧ r / 32 - b ∈ ks
    · rw [if_pos hin, if_pos ⟨hin.1, List.mem_cons_of_mem k hin.2⟩]
    · by_cases hk : r / 32 = b + k
      · have hsub : r / 32 - b = k := by omega
        rw [if_neg hin, if_pos hk, if_pos ⟨by omega, hsub ▸ List.mem_cons_self ..⟩, hsub]
      · rw [if_neg hin, if_neg hk, if_neg]
        rintro ⟨hb, hmem⟩
        rcases List.mem_cons.1 hmem with h' | h'
        · omega
        · exact hin ⟨hb, h'⟩

@[simp] theorem writeTiles_ladder (c : CoreState) (b : Nat) (f : Nat → List AccRow) (ks : List Nat) (l : BitVec 2) :
    (writeTiles c b f ks).ladder l = c.ladder l :=
  List.foldlRecOn (motive := fun x : CoreState => x.ladder l = c.ladder l) ks _ rfl fun _ h _ _ => (setTile_ladder _ _ _ _).trans h

/-! ### One ladder of a core (R108) -/

theorem ladder_setLadder (c : CoreState) (l k : BitVec 2) (x : Ladder) :
    (c.setLadder l x).ladder k = if l = k then x else c.ladder k := by
  change (c.ladders.set l.toNat x l.isLt)[k.toNat] = if l = k then x else c.ladders[k.toNat]
  rw [Vector.getElem_set]
  simp [BitVec.toNat_eq]

@[simp] theorem ladder_setLadder_same (c : CoreState) (l : BitVec 2) (x : Ladder) : (c.setLadder l x).ladder l = x :=
  (ladder_setLadder c l l x).trans (if_pos rfl)

@[simp] theorem accRow_setLadder (c : CoreState) (l : BitVec 2) (x : Ladder) (r : Nat) : (c.setLadder l x).accRow r = c.accRow r := rfl

theorem clearRungs_eq (c : CoreState) (x : Ladder) :
    clearRungs c x = writeTiles c x.base.toNat (fun _ => zeroTile) (List.range x.n.toNat) := rfl

/-- The rungs of a cleared ladder hold +0, and no other tile has changed. -/
theorem accRow_clearRungs (c : CoreState) (x : Ladder) (r : Nat) : (clearRungs c x).accRow r =
    if x.base.toNat ≤ r / 32 ∧ r / 32 < x.base.toNat + x.n.toNat then 0 else c.accRow r := by
  rw [clearRungs_eq, accRow_writeTiles _ _ fun _ _ => zeroTile_length, zeroTile_getD]
  exact if_congr (by rw [List.mem_range]; omega) rfl rfl

@[simp] theorem clearRungs_ladder (c : CoreState) (x : Ladder) (l : BitVec 2) : (clearRungs c x).ladder l = c.ladder l :=
  writeTiles_ladder c _ _ _ l

theorem withChain_free {s : State} {l : BitVec 2} (h : (s.core.ladder l).chain = none) (k : Unit → Res) : withChain s l k = k () := by
  simp [withChain, h]

theorem withChain_waits {s : State} {l : BitVec 2} (h : (s.core.ladder l).chain ≠ none) (k : Unit → Res) :
    withChain s l k = hold s .chain := by
  simp [withChain, Option.isSome_iff_ne_none, h]

/-! ### Flags ORed together, bit by bit -/

theorem getLsbD_foldl_or {α : Type} {w : Nat} (g : α → BitVec w) (l : List α) (f : BitVec w) (q : Nat) :
    (l.foldl (fun f x => f ||| g x) f).getLsbD q = true ↔ f.getLsbD q = true ∨ ∃ x ∈ l, (g x).getLsbD q = true := by
  induction l generalizing f with
  | nil => simp
  | cons x r ih => rw [List.foldl_cons, ih, BitVec.getLsbD_or, Bool.or_eq_true, List.exists_mem_cons_iff, or_assoc]

theorem getLsbD_foldl_or_zero {α : Type} {w : Nat} (g : α → BitVec w) (l : List α) (q : Nat) :
    (l.foldl (fun f x => f ||| g x) 0).getLsbD q = true ↔ ∃ x ∈ l, (g x).getLsbD q = true :=
  (getLsbD_foldl_or g l 0 q).trans (or_iff_right (by simp))

/-! ### Two tiles, element by element (R110, R112) -/

/-- One element of an operation of two FP32 elements, with its flags. -/
def cellOp (op : Num → Num → Num × Flags) (a b : BitVec 32) : BitVec 32 × Flags :=
  (f32Bits (op (f32Num a) (f32Num b)).1, (op (f32Num a) (f32Num b)).2)

/-- An operation of two rows, and of two tiles. -/
def zipRow (op : Num → Num → Num × Flags) (a b : AccRow) : AccRow × Flags :=
  (ofElems ((List.range 32).map fun j => (cellOp op (rowElem a j) (rowElem b j)).1),
    (List.range 32).foldl (fun f j => f ||| (cellOp op (rowElem a j) (rowElem b j)).2) 0)

def zipTile (op : Num → Num → Num × Flags) (a b : List AccRow) : List AccRow × Flags :=
  (((a.zip b).map fun x => zipRow op x.1 x.2).map (·.1), ((a.zip b).map fun x => zipRow op x.1 x.2).foldl (fun f r => f ||| r.2) 0)

theorem addTiles_eq (a b : List AccRow) : addTiles a b = zipTile (addF32 false) a b := by
  have hrow (a b : AccRow) : addRows a b = zipRow (addF32 false) a b := by
    simp only [addRows, zipRow, List.map_map, List.foldl_map]
    rfl
  simp only [addTiles, zipTile, hrow]

theorem fmaTile_eq (w : Num) (a b : List AccRow) : fmaTile w a b = zipTile (fmaF32 false w) a b := by
  have hrow (a b : AccRow) : fmaRows w a b = zipRow (fmaF32 false w) a b := by
    simp only [fmaRows, zipRow, List.map_map, List.foldl_map]
    rfl
  simp only [fmaTile, zipTile, hrow]

/-- A tile and flags have the elements `e`, and the flags that some element raises. -/
structure HasCells (p : List AccRow × Flags) (e : Nat → Nat → BitVec 32 × Flags) : Prop where
  length : p.1.length = 32
  elem : ∀ i j, i < 32 → j < 32 → rowElem (p.1.getD i 0) j = (e i j).1
  flag : ∀ q, p.2.getLsbD q = true ↔ ∃ i j, i < 32 ∧ j < 32 ∧ (e i j).2.getLsbD q = true

/-- A tile that has raised no flag yet. -/
theorem HasCells.start {t : List AccRow} (h : t.length = 32) : HasCells (t, 0) fun i j => (rowElem (t.getD i 0) j, 0) where
  length := h
  elem _ _ _ _ := rfl
  flag q := by simp

theorem zipTile_cells (op : Num → Num → Num × Flags) {a b : List AccRow} (ha : a.length = 32) (hb : b.length = 32) :
    HasCells (zipTile op a b) fun i j => cellOp op (rowElem (a.getD i 0) j) (rowElem (b.getD i 0) j) where
  length := by simp [zipTile, ha, hb]
  elem i j hi hj := by
    have hrow : (zipTile op a b).1.getD i 0 = (zipRow op (a.getD i 0) (b.getD i 0)).1 := by
      simp [zipTile, List.zip, ha, hb, hi]
    rw [hrow, zipRow, rowElem_ofElems _ hj]
    simp [hj]
  flag q := by
    have hmem (x : AccRow × AccRow) : x ∈ a.zip b ↔ ∃ i, i < 32 ∧ x = (a.getD i 0, b.getD i 0) := by
      rw [List.mem_iff_getElem]
      constructor
      · rintro ⟨i, h, rfl⟩
        have hi : i < 32 := by simpa [ha, hb] using h
        exact ⟨i, hi, by simp [ha, hb, hi]⟩
      · rintro ⟨i, hi, rfl⟩
        exact ⟨i, by simpa [ha, hb] using hi, by simp [ha, hb, hi]⟩
    have hrow (x : AccRow × AccRow) : (zipRow op x.1 x.2).2.getLsbD q = true ↔
        ∃ j ∈ List.range 32, (cellOp op (rowElem x.1 j) (rowElem x.2 j)).2.getLsbD q = true :=
      getLsbD_foldl_or_zero _ _ q
    have htile : (zipTile op a b).2.getLsbD q = true ↔ ∃ x ∈ a.zip b, (zipRow op x.1 x.2).2.getLsbD q = true := by
      rw [zipTile, List.foldl_map]
      exact getLsbD_foldl_or_zero (fun x : AccRow × AccRow => (zipRow op x.1 x.2).2) _ q
    simp only [htile, hrow, List.mem_range]
    constructor
    · rintro ⟨x, hx, j, hj, hq⟩
      obtain ⟨i, hi, rfl⟩ := (hmem x).1 hx
      exact ⟨i, j, hi, hj, hq⟩
    · rintro ⟨i, j, hi, hj, hq⟩
      exact ⟨_, (hmem _).2 ⟨i, hi, rfl⟩, j, hj, hq⟩

/-- One more tile is taken into an accumulated one, and the flags are ORed. -/
theorem HasCells.step {p : List AccRow × Flags} {e : Nat → Nat → BitVec 32 × Flags} (h : HasCells p e)
    (op : Num → Num → Num × Flags) {a : List AccRow} (ha : a.length = 32) :
    HasCells ((zipTile op a p.1).1, p.2 ||| (zipTile op a p.1).2) fun i j =>
      ((cellOp op (rowElem (a.getD i 0) j) (e i j).1).1, (e i j).2 ||| (cellOp op (rowElem (a.getD i 0) j) (e i j).1).2) where
  length := (zipTile_cells op ha h.length).length
  elem i j hi hj := by rw [(zipTile_cells op ha h.length).elem i j hi hj, h.elem i j hi hj]
  flag q := by
    rw [BitVec.getLsbD_or, Bool.or_eq_true, h.flag, (zipTile_cells op ha h.length).flag, ← exists_or]
    refine exists_congr fun i => ?_
    rw [← exists_or]
    refine exists_congr fun j => ?_
    by_cases hij : i < 32 ∧ j < 32
    · simp only [hij.1, hij.2, true_and, h.elem i j hij.1 hij.2, BitVec.getLsbD_or, Bool.or_eq_true]
    · constructor
      · rintro (⟨hi, hj, _⟩ | ⟨hi, hj, _⟩) <;> exact absurd ⟨hi, hj⟩ hij
      · rintro ⟨hi, hj, _⟩
        exact absurd ⟨hi, hj⟩ hij

/-! ### LDRREAD (R112) -/

/-- One element of the weighted sum of rungs, from the first of the list on. -/
def readCell (c : CoreState) (x : Ladder) (rungs : List Nat) (e : Nat → Nat → BitVec 32 × Flags) (i j : Nat) : BitVec 32 × Flags :=
  rungs.foldl (fun p k =>
    let r := fmaF32 false (f32Num ((x.w.toArray[k]?).getD 0))
      (f32Num (rowElem (c.accRow (32 * (x.base.toNat + k) + i)) j)) (f32Num p.1)
    (f32Bits r.1, p.2 ||| r.2)) (e i j)

/-- Cells agree where their tile has elements. -/
theorem HasCells.congr {p : List AccRow × Flags} {e e' : Nat → Nat → BitVec 32 × Flags} (h : HasCells p e)
    (heq : ∀ i j, i < 32 → e i j = e' i j) : HasCells p e' where
  length := h.length
  elem i j hi hj := heq i j hi ▸ h.elem i j hi hj
  flag q := (h.flag q).trans (exists_congr fun i => exists_congr fun j => and_congr_right fun hi => by rw [heq i j hi])

/-- One rung more of the sum, for every element. -/
def readStep (c : CoreState) (x : Ladder) (p : List AccRow × Flags) (k : Nat) : List AccRow × Flags :=
  let r := zipTile (fmaF32 false (f32Num ((x.w.toArray[k]?).getD 0))) (c.tile (x.base.toNat + k)) p.1
  (r.1, p.2 ||| r.2)

theorem readRungs_eq (c : CoreState) (x : Ladder) : readRungs c x =
    ((List.range x.n.toNat).reverse.filter fun i => x.occ.getLsbD i).foldl (readStep c x) (zeroTile, 0) := by
  simp only [readRungs, fmaTile_eq]
  rfl

theorem HasCells.read {p : List AccRow × Flags} {e : Nat → Nat → BitVec 32 × Flags} (h : HasCells p e) (c : CoreState) (x : Ladder)
    (rungs : List Nat) : HasCells (rungs.foldl (readStep c x) p) (readCell c x rungs e) := by
  induction rungs generalizing p e with
  | nil => exact h
  | cons k r ih =>
    have hstep := h.step (fmaF32 false (f32Num ((x.w.toArray[k]?).getD 0))) (tile_length c (x.base.toNat + k))
    exact ih (hstep.congr (e' := readCell c x [k] e) fun i j hi => by
      rw [tile_getD c _ hi]
      rfl)

/-- The tile that LDRREAD writes, and its flags. -/
theorem readRungs_cells (c : CoreState) (x : Ladder) : HasCells (readRungs c x)
    (readCell c x ((List.range x.n.toNat).reverse.filter fun i => x.occ.getLsbD i) fun _ _ => (0, 0)) := by
  rw [readRungs_eq]
  refine ((HasCells.start zeroTile_length).congr fun i j _ => ?_).read c x _
  rw [zeroTile_getD]
  exact congrArg (·, 0) BitVec.extractLsb'_zero

end Sys2Proof.Machine

namespace Sys2Proof.Machine

open Sys2Proof

/-! ### LDRCFG (R109) -/

/-- The reserved bits of an LDRCFG operand. -/
theorem reserved_eq_zero_iff (x : Word) : x &&& ~~~0x1F3F#64 = 0 ↔ x.toNat / 2 ^ 13 = 0 ∧ x.toNat / 64 % 4 = 0 := by
  have hmask : ∀ i < 64, (0x1F3F#64).getLsbD i = !(decide (13 ≤ i) || (decide (6 ≤ i) && decide (i < 8))) := by decide
  have hbit (i : Nat) (hi : i < 64) : (x &&& ~~~0x1F3F#64).getLsbD i =
      (x.getLsbD i && (decide (13 ≤ i) || (decide (6 ≤ i) && decide (i < 8)))) := by
    rw [BitVec.getLsbD_and, BitVec.getLsbD_not, hmask i hi, Bool.not_not, decide_eq_true hi, Bool.true_and]
  have hbits : x &&& ~~~0x1F3F#64 = 0 ↔ x.extractLsb' 13 51 = 0 ∧ x.extractLsb' 6 2 = 0 := by
    constructor
    · intro h
      refine ⟨BitVec.eq_of_getLsbD_eq fun i hi => ?_, BitVec.eq_of_getLsbD_eq fun i hi => ?_⟩
      · have hhigh := hbit (13 + i) (by omega)
        rw [h] at hhigh
        simpa [hi] using hhigh.symm
      · have hlow := hbit (6 + i) (by omega)
        rw [h] at hlow
        simpa [hi, show 6 + i < 8 by omega] using hlow.symm
    · rintro ⟨h13, h6⟩
      refine BitVec.eq_of_getLsbD_eq fun i hi => ?_
      have hhigh := congrArg (BitVec.getLsbD · (i - 13)) h13
      have hlow := congrArg (BitVec.getLsbD · (i - 6)) h6
      simp only [BitVec.getLsbD_extractLsb'] at hhigh hlow
      rw [hbit i hi]
      by_cases h1 : 13 ≤ i
      · rw [Nat.add_sub_cancel' h1, decide_eq_true (by omega), Bool.true_and] at hhigh
        simp [hhigh]
      · by_cases h2 : 6 ≤ i ∧ i < 8
        · rw [Nat.add_sub_cancel' h2.1, decide_eq_true (by omega), Bool.true_and] at hlow
          simp [hlow]
        · rw [← Bool.decide_and, decide_eq_false h1, decide_eq_false h2]
          simp
  rw [hbits, extractLsb'_eq_zero_iff, extractLsb'_eq_zero_iff]
  have := x.isLt
  omega

/-- The operand of an LDRCFG: no reserved bit, at most 16 rungs, in the store, and on no tile of another ladder. -/
def cfgFits (c : CoreState) (l : BitVec 2) (v : Nat) : Prop :=
  v / 2 ^ 13 = 0 ∧ v / 64 % 4 = 0 ∧ v / 256 % 32 ≤ 16 ∧ v % 64 + v / 256 % 32 ≤ 64 ∧
    ∀ k, k ≠ l → ∀ i, v % 64 ≤ i → i < v % 64 + v / 256 % 32 → (c.ladder k).owns i = false

/-- The check of LDRCFG. -/
def cfgRefused (c : CoreState) (l : BitVec 2) (x : Word) : Bool :=
  x &&& ~~~0x1F3F#64 ≠ 0 || 16 < (x.extractLsb' 8 5).toNat || 64 < (x.extractLsb' 0 6).toNat + (x.extractLsb' 8 5).toNat ||
    (List.range (x.extractLsb' 8 5).toNat).any fun i => ((List.range 4).filter fun i => i ≠ l.toNat).any fun j =>
      (c.ladder (BitVec.ofNat 2 j)).owns ((x.extractLsb' 0 6).toNat + i)

theorem extractLsb'_rungs (x : Word) : (x.extractLsb' 8 5).toNat = x.toNat / 256 % 32 := by
  simp [BitVec.extractLsb'_toNat, Nat.shiftRight_eq_div_pow]

theorem cfgRefused_iff (c : CoreState) (l : BitVec 2) (x : Word) : cfgRefused c l x = true ↔ ¬cfgFits c l x.toNat := by
  have hclash : ((List.range (x.toNat / 256 % 32)).any fun i => ((List.range 4).filter fun i => i ≠ l.toNat).any fun j =>
      (c.ladder (BitVec.ofNat 2 j)).owns (x.toNat % 64 + i)) = true ↔
      ¬∀ k, k ≠ l → ∀ i, x.toNat % 64 ≤ i → i < x.toNat % 64 + x.toNat / 256 % 32 → (c.ladder k).owns i = false := by
    simp only [List.any_eq_true, List.mem_range, List.mem_filter, decide_eq_true_eq, not_forall, Bool.not_eq_false]
    constructor
    · rintro ⟨i, hi, j, ⟨hj, hne⟩, hown⟩
      refine ⟨BitVec.ofNat 2 j, fun h => hne ?_, x.toNat % 64 + i, by omega, by omega, hown⟩
      rw [← h, BitVec.toNat_ofNat, Nat.mod_eq_of_lt hj]
    · rintro ⟨k, hne, i, hlo, hhi, hown⟩
      refine ⟨i - x.toNat % 64, by omega, k.toNat, ⟨k.isLt, fun h => hne (BitVec.eq_of_toNat_eq h)⟩, ?_⟩
      rwa [BitVec.ofNat_toNat, BitVec.setWidth_eq, Nat.add_sub_cancel' hlo]
  simp only [cfgRefused, extractLsb'_six, extractLsb'_rungs, Bool.or_eq_true, decide_eq_true_eq, hclash, ne_eq, reserved_eq_zero_iff,
    cfgFits, ← Nat.not_le, not_and_or, or_assoc]

/-- The ladder that LDRCFG sets up, with the weights of its vector. -/
def configured (x : Word) (v : VReg) : Ladder :=
  ⟨x.extractLsb' 8 5 ≠ 0, x.extractLsb' 0 6, x.extractLsb' 8 5, Vector.ofFn fun i => BitVec.ofNat 32 (laneAt 32 v i.val), 0, 0, 0, false,
    if x.extractLsb' 8 5 = 0 then none else some .zero⟩

/-! ### What each ladder instruction does (R109 to R113) -/

/-- The word that LDRCNT answers. -/
def ladderCount (x : Ladder) : Word :=
  if x.cfg then 0#14 ++ BitVec.ofBool (x.pz ≠ 0) ++ BitVec.ofBool x.sat ++ x.occ ++ x.c else 0

theorem toNat_append_add {m n : Nat} (x : BitVec m) (y : BitVec n) : (x ++ y).toNat = y.toNat + x.toNat * 2 ^ n := by
  rw [BitVec.toNat_append, Nat.shiftLeft_eq, Nat.mul_comm, ← Nat.two_pow_add_eq_or_of_lt y.isLt, Nat.add_comm]

theorem ladderCount_eq (x : Ladder) : ladderCount x = if x.cfg then
    BitVec.ofNat 64 (x.c.toNat + x.occ.toNat * 2 ^ 32 + (if x.sat then 2 ^ 48 else 0) + (if x.pz ≠ 0 then 2 ^ 49 else 0)) else 0 := by
  have hbool (b : Bool) : (BitVec.ofBool b).toNat = if b then 1 else 0 := by cases b <;> rfl
  unfold ladderCount
  refine ite_congr rfl (fun _ => BitVec.eq_of_toNat_eq ?_) fun _ => rfl
  have hc := x.c.isLt
  have hocc := x.occ.isLt
  have hsum : x.c.toNat + x.occ.toNat * 2 ^ 32 + (if x.sat then 2 ^ 48 else 0) + (if x.pz ≠ 0 then 2 ^ 49 else 0) < 2 ^ 64 := by
    split_ifs <;> omega
  rw [BitVec.toNat_ofNat, Nat.mod_eq_of_lt hsum]
  simp only [toNat_append_add, hbool, decide_eq_true_eq, BitVec.toNat_ofNat, Nat.zero_mod]
  split_ifs <;> omega

section
variable {l : BitVec 2} {a b d : BitVec 6} {gd : BitVec 3} {lv q : BitVec 4} {g : GuardF} {s : State} (hg : s.core.guard g = true)
include hg

theorem exec_ldrcfg : exec (.ldrcfg l a b g) s = if cfgRefused s.core l (s.core.rs a) then trap s (ladderTrap s)
    else withChain s l fun _ => ok (s.setCore (s.core.setLadder l (configured (s.core.rs a) (s.core.rv b)))) :=
  show execLdrcfg l a b g s = _ from guarded_on hg _

theorem exec_ldrclr : exec (.ldrclr l g) s = withChain s l fun _ =>
    if (s.core.ladder l).cfg then ok (s.setCore (s.core.setLadder l
      { s.core.ladder l with c := 0, occ := 0, pz := 0, sat := false, chain := some .zero }))
    else ok s :=
  show execLdrclr l g s = _ from guarded_on hg _

theorem exec_ldrstep : exec (.ldrstep l a g) s =
    if !(s.core.ladder l).cfg || s.core.owned a.toNat then trap s (ladderTrap s)
    else withChain s l fun _ => ok (s.setCore (s.core.setLadder l { s.core.ladder l with
      chain := some (.step (s.core.tile a.toNat) ((List.range 32).any fun i => s.core.rowBad (32 * a.toNat + i))) })) :=
  show execLdrstep l a g s = _ from guarded_on hg _

theorem exec_ldrread : exec (.ldrread l a g) s =
    if !(s.core.ladder l).cfg || s.core.owned a.toNat then trap s (ladderTrap s)
    else withChain s l fun _ =>
      if (s.core.ladder l).occ &&& (s.core.ladder l).pz ≠ 0 then trap s (accTrap s)
      else ok (laterFlags { s with core := s.core.setTile a.toNat (readRungs s.core (s.core.ladder l)).1 } 1
        (ladderFlags (readRungs s.core (s.core.ladder l)).2)) :=
  show execLdrread l a g s = _ from guarded_on hg _

theorem exec_ldrrung : exec (.ldrrung d gd l lv q g) s =
    if !(s.core.ladder l).cfg || (s.core.ladder l).n.toNat ≤ lv.toNat then trap s (ladderTrap s)
    else withChain s l fun _ =>
      if (s.core.ladder l).pz.getLsbD lv.toNat then trap s (accTrap s)
      else .next (s.locked [.v d, .g gd]
        [.v d (if (s.core.ladder l).occ.getLsbD lv.toNat then
          s.core.accRow (32 * ((s.core.ladder l).base.toNat + lv.toNat) + 2 * q.toNat + 1) ++
            s.core.accRow (32 * ((s.core.ladder l).base.toNat + lv.toNat) + 2 * q.toNat) else 0),
          .g gd ((s.core.ladder l).occ.getLsbD lv.toNat)]) :=
  show execLdrrung d gd l lv q g s = _ from guarded_on hg _

theorem exec_ldrcnt : exec (.ldrcnt d l g) s =
    withChain s l fun _ => .next (s.locked [.s d] [.s d (ladderCount (s.core.ladder l))]) :=
  show execLdrcnt d l g s = _ from guarded_on hg _

end

end Sys2Proof.Machine

namespace Sys2Proof.Rules

open Sys2Proof.Machine

/-- Each ladder instruction waits for its ladder's chain, takes the ladder fault, or does what R109 to R113 say. -/
theorem ladderInstructions : Ladders := by
  intro l a b d gd lv q g s hg c x v base n good
  have htrap (p : Prop) [Decidable p] (h : p) (r : Res) :
      trapsWith s (if p then trap s (ladderTrap s) else r) 0x0D := by
    rw [if_pos h]
    exact trapsWith_trap s _
  have hbad (h : x.cfg = false ∨ c.owned a.toNat = true) : (!x.cfg || c.owned a.toNat) = true := by
    rcases h with h | h <;> simp [h]
  have hfits (h : good) : cfgRefused c l (c.rs a) = false := Bool.eq_false_iff.2 fun hr => (cfgRefused_iff _ _ _).1 hr h
  rw [exec_ldrcfg hg, exec_ldrclr hg, exec_ldrstep hg, exec_ldrread hg, exec_ldrrung hg, exec_ldrcnt hg]
  refine ⟨fun h => htrap _ ((cfgRefused_iff c l (c.rs a)).2 h) _, fun h hfree => ?_, fun hbusy h => ?_, fun hfree hcfg => ?_,
    fun hfree hcfg => ?_, fun h => ⟨htrap _ (hbad h) _, htrap _ (hbad h) _⟩, fun hcfg hown hfree => ?_, fun h => htrap _ ?_ _,
    fun hcfg hlv hfree hpz => ?_, fun hfree => ?_⟩
  · refine ⟨configured (c.rs a) (c.rv b), ?_, ?_, extractLsb'_six _, extractLsb'_rungs _, rfl, rfl, rfl, rfl, fun i => ?_⟩
    · rw [if_neg (ne_true_of_eq_false (hfits h)), withChain_free hfree]
      rfl
    · refine decide_eq_decide.2 (not_congr ?_)
      rw [← BitVec.toNat_inj, extractLsb'_rungs]
      rfl
    · exact Vector.getElem_ofFn i.isLt
  · rw [if_neg (ne_true_of_eq_false (hfits h))]
    exact ⟨withChain_waits hbusy _, withChain_waits hbusy _, withChain_waits hbusy _⟩
  · exact (withChain_free hfree _).trans (if_pos hcfg)
  · exact (withChain_free hfree _).trans (if_neg (ne_true_of_eq_false hcfg))
  · have hgood : ¬(!x.cfg || c.owned a.toNat) = true := by simp [hcfg, hown]
    rw [if_neg hgood, if_neg hgood, withChain_free hfree, withChain_free hfree]
    have hcells := readRungs_cells c x
    exact ⟨⟨_, rfl⟩, fun hpz => (if_pos hpz).symm ▸ trapsWith_trap s _, fun hpz =>
      ⟨_, _, if_neg (not_not.2 hpz), hcells.length, hcells.elem, hcells.flag⟩⟩
  · rw [Bool.or_eq_true, Bool.not_eq_true', decide_eq_true_eq]
    exact h
  · have hgood : ¬(!x.cfg || decide (x.n.toNat ≤ lv.toNat)) = true := by simp [hcfg, hlv]
    exact (if_neg hgood).trans ((withChain_free hfree _).trans (if_neg (ne_true_of_eq_false hpz)))
  · rw [withChain_free hfree, ladderCount_eq]

end Sys2Proof.Rules

/-! SUPPORT. The chain of a ladder (R110, R111, R117): the carry climbs over the occupied rungs, and comes to rest in the first empty
rung or in the top one. -/

namespace Sys2Proof.Machine

open Sys2Proof

/-! ### Single bits of OCC and PZ -/

theorem getLsbD_and_not_bit {n k : Nat} (hk : k < 16) (x : BitVec 16) :
    (x &&& ~~~(1#16 <<< n)).getLsbD k = if k = n then false else x.getLsbD k := by
  have hone : (1#16).getLsbD (k - n) = decide (k - n = 0) := by simp [BitVec.getLsbD_one]
  rw [BitVec.getLsbD_and, BitVec.getLsbD_not, BitVec.getLsbD_shiftLeft, hone]
  by_cases h : k = n
  · simp [h]
  · by_cases hlt : k < n
    · simp [h, hk, hlt]
    · simp [h, hk, hlt, show k - n ≠ 0 by omega]

theorem getLsbD_or_bit {n k : Nat} (hk : k < 16) (x : BitVec 16) :
    (x ||| (1#16 <<< n)).getLsbD k = if k = n then true else x.getLsbD k := by
  have hone : (1#16).getLsbD (k - n) = decide (k - n = 0) := by simp [BitVec.getLsbD_one]
  rw [BitVec.getLsbD_or, BitVec.getLsbD_shiftLeft, hone]
  by_cases h : k = n
  · simp [h, h ▸ hk]
  · by_cases hlt : k < n
    · simp [h, hlt]
    · simp [h, show k - n ≠ 0 by omega]

/-! ### The carry climbs (R110) -/

/-- One element of the carry that has been merged with the rungs below `n`. -/
def mergeCell (c : CoreState) (x : Ladder) (t : List AccRow) (n i j : Nat) : BitVec 32 × Flags :=
  (List.range n).foldl (fun p k =>
    let r := addF32 false (f32Num (rowElem (c.accRow (32 * (x.base.toNat + k) + i)) j)) (f32Num p.1)
    (f32Bits r.1, p.2 ||| r.2)) (rowElem (t.getD i 0) j, 0)

theorem mergeCell_succ (c : CoreState) (x : Ladder) (t : List AccRow) (n i j : Nat) : mergeCell c x t (n + 1) i j =
    ((cellOp (addF32 false) (rowElem (c.accRow (32 * (x.base.toNat + n) + i)) j) (mergeCell c x t n i j).1).1,
      (mergeCell c x t n i j).2 |||
        (cellOp (addF32 false) (rowElem (c.accRow (32 * (x.base.toNat + n) + i)) j) (mergeCell c x t n i j).1).2) := by
  rw [mergeCell, List.range_succ, List.foldl_append]
  rfl

/-- `c'` is the core `c` once the carry of ladder `l` has left the rungs below `n`: they are empty and +0. -/
structure Climbed (c : CoreState) (l : BitVec 2) (n : Nat) (c' : CoreState) : Prop where
  fflags : c'.fflags = c.fflags
  ladder : ∃ occ pz, c'.ladder l = { c.ladder l with occ := occ, pz := pz }
  occ : ∀ k, k < 16 → (c'.ladder l).occ.getLsbD k = if k < n then false else (c.ladder l).occ.getLsbD k
  pz : ∀ k, k < 16 → (c'.ladder l).pz.getLsbD k = if k < n then false else (c.ladder l).pz.getLsbD k
  row : ∀ r, c'.accRow r =
    if (c.ladder l).base.toNat ≤ r / 32 ∧ r / 32 < (c.ladder l).base.toNat + n then 0 else c.accRow r

theorem Climbed.start (c : CoreState) (l : BitVec 2) : Climbed c l 0 c where
  fflags := rfl
  ladder := ⟨_, _, rfl⟩
  occ _ _ := rfl
  pz _ _ := rfl
  row r := (if_neg (by omega)).symm

theorem Climbed.base {c c' : CoreState} {l : BitVec 2} {n : Nat} (h : Climbed c l n c') :
    (c'.ladder l).base = (c.ladder l).base := by
  obtain ⟨_, _, hl⟩ := h.ladder
  rw [hl]

theorem Climbed.rungs {c c' : CoreState} {l : BitVec 2} {n : Nat} (h : Climbed c l n c') : (c'.ladder l).n = (c.ladder l).n := by
  obtain ⟨_, _, hl⟩ := h.ladder
  rw [hl]

/-- The rung that the carry meets is as it was. -/
theorem Climbed.tile_getD {c c' : CoreState} {l : BitVec 2} {n i : Nat} (h : Climbed c l n c') (hi : i < 32) :
    (c'.tile ((c'.ladder l).base.toNat + n)).getD i 0 = c.accRow (32 * ((c.ladder l).base.toNat + n) + i) := by
  rw [Machine.tile_getD _ _ hi, h.row, h.base, if_neg (by omega)]

/-- The carry leaves one rung more. -/
theorem Climbed.step {c c' : CoreState} {l : BitVec 2} {n : Nat} (h : Climbed c l n c') :
    Climbed c l (n + 1) ((c'.setTile ((c'.ladder l).base.toNat + n) zeroTile).setLadder l
      { c'.ladder l with
        occ := (c'.ladder l).occ &&& ~~~(1#16 <<< n)
        pz := (c'.ladder l).pz &&& ~~~(1#16 <<< n) }) where
  fflags := by rw [CoreState.setLadder_fflags, setTile_fflags, h.fflags]
  ladder := by
    obtain ⟨occ, pz, hl⟩ := h.ladder
    refine ⟨occ &&& ~~~(1#16 <<< n), pz &&& ~~~(1#16 <<< n), ?_⟩
    rw [ladder_setLadder_same, hl]
  occ k hk := by
    rw [ladder_setLadder_same, getLsbD_and_not_bit hk, h.occ k hk, ← ite_or]
    exact if_congr (by omega) rfl rfl
  pz k hk := by
    rw [ladder_setLadder_same, getLsbD_and_not_bit hk, h.pz k hk, ← ite_or]
    exact if_congr (by omega) rfl rfl
  row r := by
    rw [accRow_setLadder, accRow_setTile _ _ zeroTile_length, zeroTile_getD, h.row, h.base, ← ite_or]
    exact if_congr (by omega) rfl rfl

/-- The places of a rung: below that of the carry, at it, and above. -/
theorem ite_eq_ite_lt {α : Type} (k n : Nat) (a b x : α) :
    (if k = n then a else if k < n then b else x) = if k < n then b else if k = n then a else x := by
  by_cases h : k = n
  · rw [if_pos h, if_neg h.not_lt, if_pos h]
  · rw [if_neg h, if_neg h]

section
variable {c c' : CoreState} {l : BitVec 2} {n : Nat} (h : Climbed c l n c')
include h

/-- OCC and PZ where the carry comes to rest in an empty rung. -/
theorem Climbed.occ_placed {k : Nat} (hk : k < 16) : ((c'.ladder l).occ ||| (1#16 <<< n)).getLsbD k =
    if k < n then false else if k = n then true else (c.ladder l).occ.getLsbD k := by
  rw [getLsbD_or_bit hk, h.occ k hk, ite_eq_ite_lt]

theorem Climbed.pz_placed (cp : Bool) {k : Nat} (hk : k < 16) :
    (if cp then (c'.ladder l).pz ||| (1#16 <<< n) else (c'.ladder l).pz &&& ~~~(1#16 <<< n)).getLsbD k =
      if k < n then false else if k = n then cp else (c.ladder l).pz.getLsbD k := by
  cases cp with
  | false => rw [if_neg Bool.false_ne_true, getLsbD_and_not_bit hk, h.pz k hk, ite_eq_ite_lt]
  | true => rw [if_pos rfl, getLsbD_or_bit hk, h.pz k hk, ite_eq_ite_lt]

/-- OCC and PZ where an occupied rung absorbs the carry. -/
theorem Climbed.occ_absorbed (hfull : (c.ladder l).occ.getLsbD n = true) {k : Nat} (hk : k < 16) :
    (c'.ladder l).occ.getLsbD k = if k < n then false else if k = n then true else (c.ladder l).occ.getLsbD k := by
  rw [h.occ k hk, ← ite_eq_ite_lt]
  by_cases hkn : k = n
  · rw [if_pos hkn, hkn, if_neg (Nat.lt_irrefl n), hfull]
  · rw [if_neg hkn]

theorem Climbed.pz_absorbed (cp : Bool) (hn : n < 16) {k : Nat} (hk : k < 16) :
    (if cp || (c'.ladder l).pz.getLsbD n then (c'.ladder l).pz ||| (1#16 <<< n) else (c'.ladder l).pz).getLsbD k =
      if k < n then false else if k = n then cp || (c.ladder l).pz.getLsbD n else (c.ladder l).pz.getLsbD k := by
  have hpz : (c'.ladder l).pz.getLsbD n = (c.ladder l).pz.getLsbD n := (h.pz n hn).trans (if_neg (Nat.lt_irrefl n))
  rw [hpz, ← ite_eq_ite_lt]
  by_cases hbad : (cp || (c.ladder l).pz.getLsbD n) = true
  · rw [if_pos hbad, getLsbD_or_bit hk, h.pz k hk, hbad]
  · rw [if_neg hbad, h.pz k hk]
    by_cases hkn : k = n
    · rw [if_pos hkn, hkn, if_neg (Nat.lt_irrefl n)]
      revert hbad
      cases cp <;> cases (c.ladder l).pz.getLsbD n <;> simp
    · rw [if_neg hkn]

end

theorem climb_merges {c : CoreState} {l : BitVec 2} {t : List AccRow} (ht : t.length = 32) (cp : Bool) (n fuel : Nat)
    (hocc : ∀ k, k < n → (c.ladder l).occ.getLsbD k = true) (hn : n < (c.ladder l).n.toNat) :
    ∃ c' carry f, climb (fuel + n) c l 0 t cp 0 =
        climb fuel c' l n carry (cp || (List.range n).any (c.ladder l).pz.getLsbD) f ∧
      HasCells (carry, f) (mergeCell c (c.ladder l) t n) ∧ Climbed c l n c' := by
  induction n generalizing fuel with
  | zero => exact ⟨c, t, 0, by simp, .start ht, .start c l⟩
  | succ n ih =>
    obtain ⟨c', carry, f, hclimb, hcells, hc'⟩ := ih (fuel + 1) (fun k hk => hocc k (by omega)) (by omega)
    have h16 : n < 16 := BitVec.lt_of_getLsbD (hocc n (by omega))
    have hfull : (c'.ladder l).occ.getLsbD n = true := by rw [hc'.occ n h16, if_neg (by omega), hocc n (by omega)]
    have hlast : ¬(c'.ladder l).n.toNat ≤ n + 1 := by rw [hc'.rungs]; omega
    have hpz : (c'.ladder l).pz.getLsbD n = (c.ladder l).pz.getLsbD n := by rw [hc'.pz n h16, if_neg (by omega)]
    have hany : (cp || (List.range (n + 1)).any (c.ladder l).pz.getLsbD) =
        ((cp || (List.range n).any (c.ladder l).pz.getLsbD) || (c'.ladder l).pz.getLsbD n) := by
      rw [hpz, List.range_succ, List.any_append, Bool.or_assoc, List.any_cons, List.any_nil, Bool.or_false]
    refine ⟨_, _, _, ?_, (hcells.step (addF32 false) (tile_length c' ((c'.ladder l).base.toNat + n))).congr fun i j hi => ?_, hc'.step⟩
    · rw [← addTiles_eq, hany, show fuel + (n + 1) = fuel + 1 + n by omega, hclimb, climb]
      simp only [hfull, hlast, if_true, decide_false, Bool.false_eq_true, if_false]
    · rw [hc'.tile_getD hi, mergeCell_succ]

section
variable {c c' : CoreState} {l : BitVec 2} {n fuel : Nat} {carry : List AccRow} {cp : Bool} {f : Flags}

/-- The carry comes to rest in an empty rung. -/
theorem climb_places (h : (c'.ladder l).occ.getLsbD n = false) : climb (fuel + 1) c' l n carry cp f =
    ((c'.setTile ((c'.ladder l).base.toNat + n) carry).setLadder l
      { c'.ladder l with
        occ := (c'.ladder l).occ ||| (1#16 <<< n)
        pz := if cp then (c'.ladder l).pz ||| (1#16 <<< n) else (c'.ladder l).pz &&& ~~~(1#16 <<< n) }, f) := by
  rw [climb]
  simp only [h, Bool.false_eq_true, if_false]

/-- The top rung absorbs the carry. -/
theorem climb_absorbs (h : (c'.ladder l).occ.getLsbD n = true) (hn : (c'.ladder l).n.toNat ≤ n + 1) :
    climb (fuel + 1) c' l n carry cp f =
      ((c'.setTile ((c'.ladder l).base.toNat + n) (addTiles (c'.tile ((c'.ladder l).base.toNat + n)) carry).1).setLadder l
        { c'.ladder l with
          pz := if cp || (c'.ladder l).pz.getLsbD n then (c'.ladder l).pz ||| (1#16 <<< n) else (c'.ladder l).pz
          sat := true },
        f ||| (addTiles (c'.tile ((c'.ladder l).base.toNat + n)) carry).2) := by
  rw [climb]
  simp only [h, hn, if_true, decide_true]

end

/-! ### The end of a chain (R111) -/

theorem exec_ladderChainEnd {l : BitVec 2} {s : State} (h : (s.core.ladder l).chain ≠ none) :
    exec (.ladderChainEnd l) s = .next { s with core := chainEnd s.core l }.clear := by
  change execLadderChainEnd l s = _
  rw [execLadderChainEnd, if_neg (by simpa using h)]
  rfl

theorem chainEnd_zero {c : CoreState} {l : BitVec 2} (h : (c.ladder l).chain = some .zero) :
    chainEnd c l = (clearRungs c (c.ladder l)).setLadder l { c.ladder l with chain := none } := by
  simp only [chainEnd, h]

/-- The core on which the carry of a step sets out. -/
def stepStart (c : CoreState) (l : BitVec 2) : CoreState :=
  c.setLadder l { c.ladder l with chain := none, c := (c.ladder l).c + 1 }

theorem chainEnd_step {c : CoreState} {l : BitVec 2} {t : List AccRow} {cp : Bool} (h : (c.ladder l).chain = some (.step t cp)) :
    chainEnd c l = (climb 17 (stepStart c l) l 0 t cp 0).1.orFlags (ladderFlags (climb 17 (stepStart c l) l 0 t cp 0).2) := by
  simp only [chainEnd, h]
  rfl

/-- The core once `rows`, raised with the flags `f`, rest in tile `b` and ladder `l` is `y`. -/
def restedIn (c : CoreState) (l : BitVec 2) (b : Nat) (rows : List AccRow) (y : Ladder) (f : Flags) : CoreState :=
  ((c.setTile b rows).setLadder l y).orFlags (ladderFlags f)

theorem restedIn_ladder (c : CoreState) (l : BitVec 2) (b : Nat) (rows : List AccRow) (y : Ladder) (f : Flags) :
    (restedIn c l b rows y f).ladder l = y := ladder_setLadder_same (c.setTile b rows) l y

theorem restedIn_accRow (c : CoreState) (l : BitVec 2) (b : Nat) {rows : List AccRow} (h : rows.length = 32) (y : Ladder) (f : Flags)
    (r : Nat) : (restedIn c l b rows y f).accRow r = if r / 32 = b then rows.getD (r % 32) 0 else c.accRow r :=
  accRow_setTile c b h r

theorem restedIn_flag (c : CoreState) (l : BitVec 2) (b : Nat) (rows : List AccRow) (y : Ladder) (f : Flags) {q : Nat} (hq : q < 32) :
    (restedIn c l b rows y f).fflags.getLsbD q = true ↔ c.fflags.getLsbD q = true ∨ (ladderFlags f).getLsbD q = true := by
  change ((c.setTile b rows).fflags ||| _).getLsbD q = true ↔ _
  rw [setTile_fflags, BitVec.getLsbD_or, Bool.or_eq_true, BitVec.getLsbD_setWidth, decide_eq_true hq, Bool.true_and]

/-- The flags that a ladder lets through, of an accumulated tile. -/
theorem HasCells.ladderFlag {p : List AccRow × Flags} {e : Nat → Nat → BitVec 32 × Flags} (h : HasCells p e) (q : Nat) :
    (ladderFlags p.2).getLsbD q = true ↔ ∃ i j, i < 32 ∧ j < 32 ∧ (ladderFlags (e i j).2).getLsbD q = true := by
  simp only [ladderFlags, BitVec.getLsbD_and, Bool.and_eq_true, h.flag]
  constructor
  · rintro ⟨⟨i, j, hi, hj, hq⟩, hm⟩
    exact ⟨i, j, hi, hj, hq, hm⟩
  · rintro ⟨i, j, hi, hj, hq, hm⟩
    exact ⟨⟨i, j, hi, hj, hq⟩, hm⟩

end Sys2Proof.Machine

namespace Sys2Proof.Rules

open Sys2Proof.Machine

/-- The end of a chain: the rungs are zero, or the carry has climbed to its rung. -/
theorem ladderChains : LadderChains := by
  intro l s t cp m ht c x row
  refine ⟨fun hzero => ?_, fun hstep hocc hm => ?_⟩
  · refine ⟨_, exec_ladderChainEnd (hzero ▸ nofun), rfl, fun k i hk hi => ?_, ?_, fun k hk => ?_⟩
    · change (chainEnd c l).accRow _ = 0
      rw [chainEnd_zero hzero, accRow_setLadder, accRow_clearRungs]
      exact if_pos (by simp only [c, x] at *; omega)
    · change (chainEnd c l).ladder l = _
      rw [chainEnd_zero hzero, ladder_setLadder_same]
    · change (chainEnd c l).ladder k = _
      rw [chainEnd_zero hzero, ladder_setLadder, if_neg (Ne.symm hk), clearRungs_ladder]
  · intro merged ends
    have h16 : m ≤ 16 := by
      by_contra h
      exact absurd (BitVec.lt_of_getLsbD (hocc 16 (by omega))) (by omega)
    have hstart : (stepStart c l).ladder l = { x with chain := none, c := x.c + 1 } := ladder_setLadder_same c l _
    obtain ⟨c', carry, f, hclimb, hcells, hc'⟩ := climb_merges (c := stepStart c l) (l := l) ht cp m (16 - m + 1)
      (hstart ▸ hocc) (hstart ▸ hm)
    rw [show 16 - m + 1 + m = 17 by omega] at hclimb
    obtain ⟨occ, pz, hl⟩ := hc'.ladder
    have hflags := hc'.fflags
    have hrows := hc'.row
    have hmerged : mergeCell (stepStart c l) { x with chain := none, c := x.c + 1 } t = merged := rfl
    rw [hstart] at hclimb hcells hl hrows
    rw [hmerged] at hcells
    have hends {rows : List AccRow} {y : Ladder} {f' : Flags} {n : Nat} {top : Bool}
        (hrest : climb (16 - m + 1) c' l m carry (cp || (List.range m).any x.pz.getLsbD) f =
          ((c'.setTile ((c'.ladder l).base.toNat + m) rows).setLadder l y, f'))
        (hsum : HasCells (rows, f') (merged n)) (hy : y.chain = none ∧ y.c = x.c + 1 ∧ y.sat = (x.sat || top))
        (hocc' : ∀ k, k < 16 → y.occ.getLsbD k = if k < m then false else if k = m then true else x.occ.getLsbD k)
        (hpz' : ∀ k, k < 16 → y.pz.getLsbD k = if k < m then false
          else if k = m then cp || (List.range n).any x.pz.getLsbD else x.pz.getLsbD k) :
        ∃ u, exec (.ladderChainEnd l) s = .next u ∧ ends u n top := by
      have hcore : chainEnd s.core l = restedIn c' l (x.base.toNat + m) rows y f' := by
        rw [chainEnd_step hstep, hclimb, hrest, hl]
        rfl
      have hacc (r : Nat) : (restedIn c' l (x.base.toNat + m) rows y f').accRow r =
          if r / 32 = x.base.toNat + m then rows.getD (r % 32) 0
          else if x.base.toNat ≤ r / 32 ∧ r / 32 < x.base.toNat + m then 0 else c.accRow r :=
        (restedIn_accRow c' l _ hsum.length y f' r).trans (if_congr Iff.rfl rfl (hrows r))
      refine ⟨_, exec_ladderChainEnd (hstep ▸ nofun), ?_⟩
      simp only [ends, State.clear_core, row, hcore, restedIn_ladder]
      obtain ⟨hchain, hcount, hsat⟩ := hy
      refine ⟨hchain, hcount, hsat, hocc', hpz', fun k i hk hi => ?_, fun i j hi hj => ?_, fun q hq => ?_, fun r hr => ?_⟩
      · rw [hacc, if_neg (by omega)]
        exact if_pos (by omega)
      · rw [hacc, if_pos (by omega), show (32 * (x.base.toNat + m) + i) % 32 = i by omega]
        exact hsum.elem i j hi hj
      · rw [restedIn_flag _ _ _ _ _ _ hq, hsum.ladderFlag q, hflags]
        rfl
      · rw [hacc, if_neg (by omega), if_neg (by omega)]
    refine ⟨fun hempty => ?_, fun hfull htop => ?_⟩
    · have hfree : (c'.ladder l).occ.getLsbD m = false := by
        by_cases hlt : m < 16
        · rw [hc'.occ m hlt, hstart, if_neg (Nat.lt_irrefl m)]
          exact hempty
        · exact BitVec.getLsbD_of_ge _ _ (Nat.not_lt.1 hlt)
      have hocc' {k : Nat} (hk : k < 16) := hc'.occ_placed hk
      have hpz' {k : Nat} (hk : k < 16) := hc'.pz_placed (cp || (List.range m).any x.pz.getLsbD) hk
      rw [hstart] at hocc' hpz'
      exact hends (climb_places hfree) hcells (by rw [hl]; exact ⟨rfl, rfl, (Bool.or_false _).symm⟩) (fun _ => hocc') fun _ => hpz'
    · have hlt : m < 16 := BitVec.lt_of_getLsbD hfull
      have hocc' {k : Nat} (hk : k < 16) := hc'.occ_absorbed (hstart ▸ hfull) hk
      have hpz' {k : Nat} (hk : k < 16) := hc'.pz_absorbed (cp || (List.range m).any x.pz.getLsbD) hlt hk
      rw [hstart] at hocc' hpz'
      have hmet : (c'.ladder l).occ.getLsbD m = true := by rw [hocc' hlt, if_neg (Nat.lt_irrefl m), if_pos rfl]
      have hlast : (c'.ladder l).n.toNat ≤ m + 1 := by
        rw [hl]
        exact htop.ge
      have hany : (cp || (List.range (m + 1)).any x.pz.getLsbD) =
          ((cp || (List.range m).any x.pz.getLsbD) || x.pz.getLsbD m) := by
        rw [List.range_succ, List.any_append, Bool.or_assoc, List.any_cons, List.any_nil, Bool.or_false]
      have hsum := (hcells.step (addF32 false) (tile_length c' ((c'.ladder l).base.toNat + m))).congr (e' := merged (m + 1))
        fun i j hi => by
          have hsucc := mergeCell_succ (stepStart c l) { x with chain := none, c := x.c + 1 } t m i j
          rw [hmerged] at hsucc
          rw [hc'.tile_getD hi, hstart]
          exact hsucc.symm
      rw [← addTiles_eq] at hsum
      refine hends (climb_absorbs hmet hlast) hsum (by rw [hl]; exact ⟨rfl, rfl, (Bool.or_true _).symm⟩) (fun _ => hocc')
        fun k hk => ?_
      rw [hany]
      exact hpz' hk

end Sys2Proof.Rules

/-! SUPPORT. Images of ladders (R114): what LDRSAVE stores, which headers LDRLOAD takes, and the rungs that it brings back. -/

namespace Sys2Proof.Machine

open Sys2Proof

/-! ### Bytes and rows -/

@[simp] theorem bytesOfNat_length (n v : Nat) : (bytesOfNat n v).length = n := by
  induction n generalizing v with
  | zero => rfl
  | succ n ih => exact congrArg (· + 1) (ih _)

theorem natOfBytes_lt (l : List Byte) : natOfBytes l < 2 ^ (8 * l.length) := by
  induction l with
  | nil => exact Nat.one_pos
  | cons b r ih =>
    have hb := b.isLt
    rw [List.length_cons, Nat.mul_succ, Nat.pow_add]
    change b.toNat + 256 * natOfBytes r < _
    omega

theorem fieldNat_lt (l : List Byte) (lo : Nat) {n w : Nat} (h : 8 * n ≤ w) : fieldNat l lo n < 2 ^ w :=
  (natOfBytes_lt _).trans_le (Nat.pow_le_pow_right (by decide) ((Nat.mul_le_mul_left 8 (List.length_take_le ..)).trans h))

theorem toNat_ofNat_fieldNat (l : List Byte) (lo : Nat) {n w : Nat} (h : 8 * n ≤ w) :
    (BitVec.ofNat w (fieldNat l lo n)).toNat = fieldNat l lo n := by
  rw [BitVec.toNat_ofNat, Nat.mod_eq_of_lt (fieldNat_lt l lo h)]

/-- A field of a part of a list is one of the list. -/
theorem fieldNat_part (l : List Byte) (a m : Nat) {lo n : Nat} (h : lo + n ≤ m) :
    fieldNat ((l.drop a).take m) lo n = fieldNat l (a + lo) n := by
  rw [fieldNat, fieldNat, List.drop_take, List.take_take, List.drop_drop, Nat.min_eq_left (by omega)]

@[simp] theorem rowsOfBytes_length (bs : List Byte) : (rowsOfBytes bs).length = bs.length / 128 := by simp [rowsOfBytes]

theorem rowsOfBytes_getD {bs : List Byte} {i : Nat} (h : i < bs.length / 128) :
    ((rowsOfBytes bs).getD i 0).toNat = fieldNat bs (128 * i) 128 := by
  have hrow : (rowsOfBytes bs).getD i 0 = BitVec.ofNat 1024 (fieldNat bs (128 * i) 128) := by simp [rowsOfBytes, h]
  rw [hrow, toNat_ofNat_fieldNat _ _ (by decide)]

/-! ### Reads at a bundle (R114) -/

theorem withRead0_readsMarked {s t u : State} {pas : List Nat} {bs : List ReadByte} (h : readsMarked s t pas bs u)
    (k : List ReadByte → State → Res) : withRead0 t pas k = k bs u := by
  obtain ⟨_, hdbg, hb, hr, hread⟩ := h
  simp only [withRead0, withEarly_off hdbg, hb, hr, hread]
  rfl

theorem localBytes_length (s : State) (off len : Nat) : (localBytes s off len).length = len := by simp [localBytes]

theorem coreRead_next {st : BitVec 4} {n : Nat} {pas : List Nat} {s t : State} {bs : List ReadByte}
    (h : coreRead st n pas s = (bs, t)) :
    ∃ own obs ch, t = { s with core := { s.core with own := own, obs := obs }, choice := ch } := by
  have hframe := coreRead_frame st n pas s
  rw [h] at hframe
  exact hframe

/-- Both reads of an LDRLOAD change only the core's record of what it has read, and the free choices spent. -/
theorem readsMarked_frame {s t u : State} {ps pas : List Nat} {hs bs : List ReadByte} (h : readsNow s ps hs t)
    (h' : readsMarked s t pas bs u) :
    ∃ own obs ch, u = { s with core := { s.core with own := own, obs := obs }, choice := ch } := by
  obtain ⟨_, _, _, _, hread, _⟩ := h
  obtain ⟨_, _, _, _, hread'⟩ := h'
  obtain ⟨_, _, _, rfl⟩ := coreRead_next hread
  obtain ⟨own, obs, ch, rfl⟩ := coreRead_next hread'
  exact ⟨own, obs, ch, rfl⟩

theorem readsMarked_length {s t u : State} {pas : List Nat} {bs : List ReadByte} (h : readsMarked s t pas bs u) :
    bs.length = pas.length := by
  obtain ⟨_, _, _, _, hread⟩ := h
  rw [← coreRead_length 0 t.core.seq pas t, hread]

/-! ### LDRSAVE (R114) -/

theorem ladderImage_length (c : CoreState) (x : Ladder) : 16 ≤ (ladderImage c x).length := by
  simp only [ladderImage, List.length_append, List.length_map, bytesOfNat_length, List.length_cons, List.length_nil,
    List.length_replicate]
  omega

/-- The image that LDRSAVE stores: that of the ladder once its chain has ended. -/
def savedImage (c : CoreState) (l : BitVec 2) : List (Byte × Bool) := ladderImage (chainEnd c l) ((chainEnd c l).ladder l)

theorem chainEnd_free {c : CoreState} {l : BitVec 2} (h : (c.ladder l).chain = none) : chainEnd c l = c := by
  simp only [chainEnd, h]

section
variable {l : BitVec 2} {y : BitVec 4} {g : GuardF} {s : State} (hg : s.core.guard g = true)
include hg

theorem exec_ldrsave_outside (h : localOff s (s.core.ra y).toNat (savedImage s.core l).length = none) :
    exec (.ldrsave l y g) s = trap s (ladderTrap s) := by
  change execLdrsave l y g s = _
  rw [savedImage] at h
  simp only [execLdrsave, guarded_on hg, h]

theorem exec_ldrsave_inside {o : Nat} (h : localOff s (s.core.ra y).toNat (savedImage s.core l).length = some o) :
    exec (.ldrsave l y g) s = if (s.core.ra y).toNat % 16 ≠ 0 then trap s (ladderTrap s)
      else withRace s (localBytes s o (savedImage s.core l).length) fun _ => withChain s l fun _ =>
        ok (storeLocal s o (savedImage s.core l)) := by
  change execLdrsave l y g s = _
  rw [savedImage] at h
  simp only [execLdrsave, guarded_on hg, h]
  rfl

end

/-! ### The header of an image (R114) -/

/-- OCC and PZ of a header. -/
def headOcc (h : List Byte) : BitVec 16 := BitVec.ofNat 16 (fieldNat h 4 2)
def headPz (h : List Byte) : BitVec 16 := BitVec.ofNat 16 (fieldNat h 6 2)

/-- The header fits a ladder of `n` rungs. -/
def headFits (h : List Byte) (n : Nat) : Prop :=
  fieldNat h 8 1 = n ∧ fieldNat h 9 1 ≤ 1 ∧ fieldNat h 10 6 = 0 ∧ (headOcc h).toNat < 2 ^ n ∧ (headPz h).toNat < 2 ^ n ∧
    ∀ k, (headPz h).getLsbD k = true → (headOcc h).getLsbD k = true

theorem and_not_eq_zero_iff {w : Nat} (x y : BitVec w) : x &&& ~~~y = 0#w ↔ ∀ k, x.getLsbD k = true → y.getLsbD k = true := by
  rw [BitVec.zero_iff_eq_false]
  refine forall_congr' fun k => ?_
  rw [BitVec.getLsbD_and, BitVec.getLsbD_not]
  by_cases hk : k < w
  · cases x.getLsbD k <;> simp [hk]
  · simp [BitVec.getLsbD_of_ge x k (by omega)]

theorem headFits_iff (h : List Byte) (n : BitVec 5) : headFits h n.toNat ↔
    (decide (fieldNat h 8 1 ≠ n.toNat) || decide (1 < fieldNat h 9 1) || decide (fieldNat h 10 6 ≠ 0) ||
      decide ((headOcc h).toNat >>> n.toNat ≠ 0) || decide ((headPz h).toNat >>> n.toNat ≠ 0) ||
      decide (headPz h &&& ~~~headOcc h ≠ 0)) = false := by
  have hshift (x : Nat) : x >>> n.toNat = 0 ↔ x < 2 ^ n.toNat := by
    rw [Nat.shiftRight_eq_div_pow, Nat.div_eq_zero_iff_lt (Nat.two_pow_pos _)]
  have hbits : headPz h &&& ~~~headOcc h = 0 ↔ _ := and_not_eq_zero_iff (headPz h) (headOcc h)
  have hone : ¬1 < fieldNat h 9 1 ↔ fieldNat h 9 1 ≤ 1 := Nat.not_lt
  simp only [Bool.or_eq_false_iff, decide_eq_false_iff_not, ne_eq, not_not, hone, hshift, hbits, and_assoc, headFits]

theorem imageHead_fits {h : List Byte} {n : BitVec 5} (hfits : headFits h n.toNat) :
    imageHead h n = some (BitVec.ofNat 32 (fieldNat h 0 4), headOcc h, headPz h, decide (fieldNat h 9 1 = 1)) :=
  if_neg (ne_true_of_eq_false ((headFits_iff h n).1 hfits))

theorem imageHead_misfit {h : List Byte} {n : BitVec 5} (hbad : ¬headFits h n.toNat) : imageHead h n = none :=
  if_pos (eq_true_of_ne_false (mt (headFits_iff h n).2 hbad))

/-! ### LDRLOAD (R114) -/

/-- The rungs that OCC names, in ascending order. -/
def occRungs (occ : BitVec 16) : List Nat := (List.range 16).filter fun i => occ.getLsbD i

theorem mem_occRungs (occ : BitVec 16) (k : Nat) : k ∈ occRungs occ ↔ occ.getLsbD k = true := by
  rw [occRungs, List.mem_filter, List.mem_range, and_iff_right_iff_imp]
  exact fun h => BitVec.lt_of_getLsbD h

theorem occRungs_nodup (occ : BitVec 16) : (occRungs occ).Nodup := List.nodup_range.filter _

/-- Each rung stands in the image at its place in the order. -/
theorem imageRungs_eq (occ : BitVec 16) : imageRungs occ = (occRungs occ).map fun k => (k, (occRungs occ).idxOf k) :=
  have himage : imageRungs occ = (occRungs occ).zipIdx := rfl
  himage.trans (List.ext_getElem (by simp) fun i h _ => by
    have hi : i < (occRungs occ).length := by simpa using h
    simp [(occRungs_nodup occ).idxOf_getElem i hi])

/-- The bytes of the `i`th rung of an image. -/
def rungBytes (bs : List ReadByte) (i : Nat) : List ReadByte := (bs.drop (4096 * i)).take 4096

/-- The rungs that an image brings back. -/
def loadedRungs (c : CoreState) (x : Ladder) (occ : BitVec 16) (bs : List ReadByte) : CoreState :=
  writeTiles (clearRungs c x) x.base.toNat (fun k => rowsOfBytes ((rungBytes bs ((occRungs occ).idxOf k)).map (·.val))) (occRungs occ)

@[simp] theorem loadedRungs_ladder (c : CoreState) (x : Ladder) (occ : BitVec 16) (bs : List ReadByte) (l : BitVec 2) :
    (loadedRungs c x occ bs).ladder l = c.ladder l := (writeTiles_ladder _ _ _ _ l).trans (clearRungs_ladder c x l)

/-- PZ of a loaded ladder: a bit more for each rung that reads uncorrectable. -/
def loadedPz (occ pz : BitVec 16) (bs : List ReadByte) : BitVec 16 :=
  (occRungs occ).foldl (fun p k =>
    if (rungBytes bs ((occRungs occ).idxOf k)).any (·.poison) then p ||| (1#16 <<< k) else p) pz

theorem getLsbD_foldl_bits (p : Nat → Bool) (ks : List Nat) (x : BitVec 16) {k : Nat} (hk : k < 16) :
    (ks.foldl (fun x k => if p k then x ||| (1#16 <<< k) else x) x).getLsbD k = true ↔
      x.getLsbD k = true ∨ k ∈ ks ∧ p k = true := by
  induction ks generalizing x with
  | nil => simp
  | cons n ks ih =>
    rw [List.foldl_cons, ih, apply_ite (BitVec.getLsbD · k), getLsbD_or_bit hk, List.mem_cons]
    by_cases hn : k = n
    · subst hn
      cases p k <;> simp
    · simp [hn]

theorem loadedPz_bit (occ pz : BitVec 16) (bs : List ReadByte) {k : Nat} (hk : k < 16) :
    (loadedPz occ pz bs).getLsbD k = true ↔ pz.getLsbD k = true ∨ occ.getLsbD k = true ∧
      ∃ b ∈ rungBytes bs ((occRungs occ).idxOf k), b.poison = true := by
  rw [loadedPz, getLsbD_foldl_bits _ _ _ hk, mem_occRungs, List.any_eq_true]

section
variable {c : CoreState} {x : Ladder} {occ : BitVec 16} {bs : List ReadByte} (hbs : bs.length = 4096 * (occRungs occ).length)
include hbs

theorem rungBytes_length {k : Nat} (hk : k ∈ occRungs occ) : (rungBytes bs ((occRungs occ).idxOf k)).length = 4096 := by
  have := List.idxOf_lt_length_of_mem hk
  rw [rungBytes, List.length_take, List.length_drop, hbs]
  omega

/-- A rung that OCC names takes its bytes; what stood in the other tiles of the ladder is zero. -/
theorem accRow_loadedRungs (r : Nat) : (loadedRungs c x occ bs).accRow r =
    if x.base.toNat ≤ r / 32 ∧ occ.getLsbD (r / 32 - x.base.toNat) = true then
      (rowsOfBytes ((rungBytes bs ((occRungs occ).idxOf (r / 32 - x.base.toNat))).map (·.val))).getD (r % 32) 0
    else if x.base.toNat ≤ r / 32 ∧ r / 32 < x.base.toNat + x.n.toNat then 0 else c.accRow r := by
  refine (accRow_writeTiles _ _ (fun k hk => ?_) r).trans
    (if_congr (and_congr_right' (mem_occRungs occ _)) rfl (accRow_clearRungs c x r))
  rw [rowsOfBytes_length, List.length_map, rungBytes_length hbs hk]

theorem loadedRungs_row {k i : Nat} (hk : k < x.n.toNat) (hi : i < 32) :
    ((loadedRungs c x occ bs).accRow (32 * (x.base.toNat + k) + i)).toNat =
      if occ.getLsbD k then fieldNat (bs.map (·.val)) (4096 * (occRungs occ).idxOf k + 128 * i) 128 else 0 := by
  have htile : (32 * (x.base.toNat + k) + i) / 32 = x.base.toNat + k := by omega
  have hrow : (32 * (x.base.toNat + k) + i) % 32 = i := by omega
  rw [accRow_loadedRungs hbs, htile, hrow, Nat.add_sub_cancel_left]
  cases hocc : occ.getLsbD k with
  | true =>
    have hlen := rungBytes_length hbs ((mem_occRungs occ k).2 hocc)
    rw [if_pos ⟨by omega, rfl⟩, if_pos rfl, rowsOfBytes_getD (by rw [List.length_map, hlen]; omega), rungBytes, List.map_take,
      List.map_drop, fieldNat_part _ _ _ (by omega)]
  | false =>
    rw [if_neg fun h => Bool.false_ne_true h.2, if_pos ⟨by omega, by omega⟩, if_neg Bool.false_ne_true]
    exact BitVec.toNat_zero

theorem loadedRungs_other (hocc : occ.toNat < 2 ^ x.n.toNat) {r : Nat}
    (hr : r / 32 < x.base.toNat ∨ x.base.toNat + x.n.toNat ≤ r / 32) : (loadedRungs c x occ bs).accRow r = c.accRow r := by
  rw [accRow_loadedRungs hbs, if_neg, if_neg (by omega)]
  rintro ⟨hlo, hbit⟩
  refine absurd hbit ?_
  rw [BitVec.getLsbD, Nat.testBit_lt_two_pow (hocc.trans_le (Nat.pow_le_pow_right (by decide) (by omega)))]
  decide

end

/-- The ladder that an image with the header `h` and the bytes `bs` brings back. -/
def loadedLadder (x : Ladder) (h : List Byte) (bs : List ReadByte) : Ladder :=
  { x with
    c := BitVec.ofNat 32 (fieldNat h 0 4)
    occ := headOcc h
    pz := loadedPz (headOcc h) (headPz h) bs
    sat := decide (fieldNat h 9 1 = 1) }

/-- What LDRLOAD does once its header is taken: the rungs are read, and the ladder's chain has ended. -/
def loadRungs (s t : State) (l : BitVec 2) (va o : Nat) (h : List Byte) : Res :=
  match localOff s va (16 + 4096 * (occRungs (headOcc h)).length) with
  | none => trap s (ladderTrap s)
  | some _ =>
    withRace s (localBytes s (o + 16) (4096 * (occRungs (headOcc h)).length)) fun _ =>
      withRead0 t (localBytes s (o + 16) (4096 * (occRungs (headOcc h)).length)) fun bs u => withChain s l fun _ =>
        ok { u with core := (loadedRungs u.core (s.core.ladder l) (headOcc h) bs).setLadder l (loadedLadder (s.core.ladder l) h bs) }

section
variable {l : BitVec 2} {y : BitVec 4} {g : GuardF} {s : State} (hg : s.core.guard g = true)
include hg

theorem exec_ldrload_outside (h : localOff s (s.core.ra y).toNat 16 = none) : exec (.ldrload l y g) s = trap s (ladderTrap s) := by
  change execLdrload l y g s = _
  simp only [execLdrload, guarded_on hg, h]

theorem exec_ldrload_misplaced {o : Nat} (h : localOff s (s.core.ra y).toNat 16 = some o)
    (hbad : (s.core.ra y).toNat % 16 ≠ 0 ∨ (s.core.ladder l).cfg = false) : exec (.ldrload l y g) s = trap s (ladderTrap s) := by
  change execLdrload l y g s = _
  simp only [execLdrload, guarded_on hg, h]
  exact if_pos (by simpa using hbad)

/-- LDRLOAD goes by the header that it reads. -/
theorem exec_ldrload_reads {o : Nat} (h : localOff s (s.core.ra y).toNat 16 = some o) (ha : (s.core.ra y).toNat % 16 = 0)
    (hcfg : (s.core.ladder l).cfg = true) {hs : List ReadByte} {t : State} (hr : readsNow s (localBytes s o 16) hs t) :
    (headFits (hs.map (·.val)) (s.core.ladder l).n.toNat →
      exec (.ldrload l y g) s = loadRungs s t l (s.core.ra y).toNat o (hs.map (·.val))) ∧
    (¬headFits (hs.map (·.val)) (s.core.ladder l).n.toNat → exec (.ldrload l y g) s = trap s (ladderTrap s)) := by
  obtain ⟨_, _, _, _, _, hclean⟩ := id hr
  have hany : hs.any (·.poison) = false := by simpa using hclean
  rw [show exec (.ldrload l y g) s = execLdrload l y g s from rfl, execLdrload, guarded_on hg]
  simp only [h]
  rw [if_neg (by simp [ha, hcfg]), withRace_readsNow hr, withRead0_readsNow hr, hany, if_neg Bool.false_ne_true]
  refine ⟨fun hfits => ?_, fun hbad => ?_⟩
  · rw [imageHead_fits hfits]
    simp only [imageRungs_eq, List.length_map, List.foldl_map]
    rfl
  · rw [imageHead_misfit hbad]

end

end Sys2Proof.Machine

namespace Sys2Proof.Machine

open Sys2Proof

section
variable {s t : State} {l : BitVec 2} {va o : Nat} {h : List Byte}

/-- An image that ends outside the local window takes the ladder fault. -/
theorem loadRungs_outside (hout : localOff s va (16 + 4096 * (occRungs (headOcc h)).length) = none) :
    loadRungs s t l va o h = trap s (ladderTrap s) := by
  simp only [loadRungs, hout]

variable {o' : Nat} (hin : localOff s va (16 + 4096 * (occRungs (headOcc h)).length) = some o') {bs : List ReadByte} {u : State}
  (hr : readsMarked s t (localBytes s (o + 16) (4096 * (occRungs (headOcc h)).length)) bs u)
include hin hr

theorem loadRungs_inside : loadRungs s t l va o h = withChain s l fun _ =>
    ok { u with core := (loadedRungs u.core (s.core.ladder l) (headOcc h) bs).setLadder l (loadedLadder (s.core.ladder l) h bs) } := by
  simp only [loadRungs, hin]
  obtain ⟨hrace, _⟩ := id hr
  rw [withRace_free hrace, withRead0_readsMarked hr]

end

end Sys2Proof.Machine

namespace Sys2Proof.Rules

open Sys2Proof.Machine

/-- LDRSAVE stores the image of its ladder; LDRLOAD takes an image back whose header fits. -/
theorem ladderImages : LadderImages := by
  intro l y g s hg hcore c x va off after img inside
  have hin {n : Nat} (hn : 0 < n) (h : inside n) : localOff s va n = some off :=
    (localOff_eq s hn).trans (if_pos ⟨h.1, h.2, hcore⟩)
  have hout {n : Nat} (hn : 0 < n) (h : ¬inside n) : localOff s va n = none :=
    (localOff_eq s hn).trans (if_neg fun k => h ⟨k.1, k.2.1⟩)
  have himg : 16 ≤ img.length := ladderImage_length _ _
  have hpos : 0 < img.length := Nat.lt_of_lt_of_le (by decide) himg
  have htrap : trapsWith s (trap s (ladderTrap s)) 0x0D := trapsWith_trap s _
  have hsave (h : ¬inside img.length ∨ va % 16 ≠ 0) : trapsWith s (exec (.ldrsave l y g) s) 0x0D := by
    by_cases hw : inside img.length
    · rw [exec_ldrsave_inside hg (hin hpos hw), if_pos (h.resolve_left (not_not.2 hw))]
      exact htrap
    · rw [exec_ldrsave_outside hg (hout hpos hw)]
      exact htrap
  have hload (h : ¬inside 16 ∨ va % 16 ≠ 0 ∨ x.cfg = false) : trapsWith s (exec (.ldrload l y g) s) 0x0D := by
    by_cases hw : inside 16
    · rw [exec_ldrload_misplaced hg (hin (by decide) hw) (h.resolve_left (not_not.2 hw))]
      exact htrap
    · rw [exec_ldrload_outside hg (hout (by decide) hw)]
      exact htrap
  refine ⟨fun h => ⟨hsave (h.imp_left fun h16 hw => h16 ⟨hw.1, by have := hw.2; omega⟩), hload (h.imp_right .inl)⟩,
    fun h => hload (.inr (.inr h)), fun h => hsave (.inl h), fun ha hw hrace => ?_, fun ha hw hcfg hs t hr => ?_⟩
  · have hexec : exec (.ldrsave l y g) s = if va % 16 ≠ 0 then trap s (ladderTrap s)
        else withRace s (localBytes s off img.length) fun _ => withChain s l fun _ => ok (storeLocal s off img) :=
      exec_ldrsave_inside hg (hin hpos hw)
    rw [if_neg (not_not.2 ha), withRace_free (.inr hrace)] at hexec
    rw [hexec]
    exact ⟨fun hbusy => withChain_waits hbusy _, fun hfree => ⟨chainEnd_free hfree, withChain_free hfree _⟩⟩
  · intro field occ pz fits rungs len
    obtain ⟨hgood, hbad⟩ := exec_ldrload_reads hg (hin (by decide) hw) ha hcfg hr
    refine ⟨fun h => ?_, fun hfits hall bs v hbs => ?_⟩
    · by_cases hfits : fits
      · rw [hgood hfits, loadRungs_outside (hout (Nat.add_pos_left (by decide) _) (h.resolve_left (not_not.2 hfits)))]
        exact htrap
      · rw [hbad hfits]
        exact htrap
    · rw [hgood hfits, loadRungs_inside (hin (Nat.add_pos_left (by decide) _) hall) hbs]
      refine ⟨fun hbusy => withChain_waits hbusy _, fun hfree => ?_⟩
      obtain ⟨own, obs, ch, rfl⟩ := readsMarked_frame hr hbs
      have hlen : bs.length = 4096 * (occRungs occ).length := (readsMarked_length hbs).trans (localBytes_length _ _ _)
      obtain ⟨_, _, _, hocc, _, _⟩ := hfits
      refine ⟨_, loadedPz occ pz bs, withChain_free hfree _, rfl, ⟨rfl, rfl, rfl, rfl, rfl⟩, ladder_setLadder_same _ l _,
        fun k hk => ?_, fun k hk => loadedPz_bit occ pz bs hk, fun k i hk hi => loadedRungs_row hlen hk hi,
        fun r hr' => loadedRungs_other hlen hocc hr'⟩
      exact (ladder_setLadder _ l k _).trans ((if_neg hk.symm).trans (loadedRungs_ladder _ x occ bs k))

/-- Settles O41: what the ladder instructions do, how a chain ends, and what images hold. -/
theorem ladders : Obligations.Ladders := ⟨ladderInstructions, ladderChains, ladderImages⟩

end Sys2Proof.Rules

/-! SUPPORT. The order machine's steps, fences and waits (R130, R132, R134, R135, R274, R276): what APPLY and a join mark on the
listed writes, and that neither changes a byte. -/

namespace Sys2Proof.Machine

open Sys2Proof

/-! ### What settling leaves listed (R129) -/

/-- Settling takes writes off the head of the coherence order, and adds or changes none. -/
theorem settleN_writes_suffix (n : Nat) (s : State) : (settleN n s).writes <:+ s.writes := by
  induction n generalizing s with
  | zero => exact List.suffix_rfl
  | succ n ih =>
    simp only [settleN]
    split
    · next w r hw =>
      split
      · exact (ih _).trans (hw ▸ List.suffix_cons w r)
      · exact List.suffix_rfl
    · exact List.suffix_rfl

theorem mem_of_mem_settle_writes {s : State} {w : Write} (h : w ∈ (settle s).writes) : w ∈ s.writes :=
  (settleN_writes_suffix _ s).subset h

@[simp] theorem settle_die (s : State) (d : BitVec 2) : (settle s).die d = s.die d :=
  settle_keeps (·.die d) (fun _ _ _ _ => rfl) s

/-! ### APPLY (R130) -/

/-- A write once it is applied at die `d`: of its bytes it gives the die those of which no write of `ws` gives it a later one. -/
def Write.appliedAt (w : Write) (d : BitVec 2) (ws : List Write) : Write :=
  { w with
    applied := if w.applied.contains d then w.applied else w.applied ++ [d]
    passed := w.passed ++ ((w.bytes.filter fun b => laterHeld d w.id b.pa ws).map fun b => (d, b.pa)) }

theorem appliedAt_contains (w : Write) (d : BitVec 2) (ws : List Write) : (w.appliedAt d ws).applied.contains d = true := by
  simp only [Write.appliedAt]
  split
  · assumption
  · simp

/-- A byte of which the die holds a later write is not taken from a write that is applied there. -/
theorem appliedAt_heldAt_of_later {w y : Write} {d : BitVec 2} {ws : List Write} {b : WByte} (hb : b ∈ w.bytes) (hy : y ∈ ws)
    (hlater : w.id < y.id) (hheld : y.heldAt d b.pa = true) : (w.appliedAt d ws).heldAt d b.pa = false := by
  have hlh : laterHeld d w.id b.pa ws = true := List.any_eq_true.2 ⟨y, hy, by simp [hlater, hheld]⟩
  have hpassed : (d, b.pa) ∈ (w.appliedAt d ws).passed :=
    List.mem_append_right _ (List.mem_map.2 ⟨b, List.mem_filter.2 ⟨hb, hlh⟩, rfl⟩)
  simp [Write.heldAt, hpassed]

theorem applyAt_writes (s : State) (d : BitVec 2) (id : Nat) :
    (applyAt s d id).writes = s.writes.map fun w => if w.id = id then w.appliedAt d s.writes else w := by
  refine List.map_congr_left fun w _ => ?_
  by_cases h : w.id = id
  · subst h
    rfl
  · rw [if_neg h, if_neg h]

/-- APPLY takes the write out of the die's queue and marks it applied there; beside this it may fill granules (R49). -/
theorem applyAt_frame (s : State) (d : BitVec 2) (id : Nat) : ∃ fe, applyAt s d id =
    { s.mapDie d (fun x => { x with iq := x.iq.filter (· != id) }) with
      fe := fe
      writes := s.writes.map fun w => if w.id = id then w.appliedAt d s.writes else w } := by
  rw [← applyAt_writes]
  simp only [applyAt]
  split
  · split <;> exact ⟨_, rfl⟩
  · exact ⟨_, rfl⟩

theorem applyAt_iq (s : State) (d : BitVec 2) (id : Nat) : ((applyAt s d id).die d).iq = (s.die d).iq.filter (· != id) := by
  obtain ⟨_, h⟩ := applyAt_frame s d id
  rw [h]
  exact congrArg (·.iq) (State.die_mapDie_same s d fun x => { x with iq := x.iq.filter (· != id) })

theorem applyAt_byteAt (s : State) (d : BitVec 2) (id pa : Nat) : byteAt (applyAt s d id) pa = byteAt s pa := by
  obtain ⟨_, h⟩ := applyAt_frame s d id
  rw [h]
  exact byteAt_mapWrites s (fun w => by split <;> rfl) pa

theorem drainIq_byteAt (s : State) (d : BitVec 2) (pa : Nat) : byteAt (drainIq s d) pa = byteAt s pa :=
  foldl_keeps (byteAt · pa) _ (fun s id => applyAt_byteAt s d id pa) _ s

/-- After APPLY a write of its number is one of the listed writes as the step marks it. -/
theorem mem_applyAt_writes {s : State} {d : BitVec 2} {x : Write} {id : Nat} (hx : x ∈ (applyAt s d id).writes)
    (hid : x.id = id) : ∃ w ∈ s.writes, w.id = id ∧ x = w.appliedAt d s.writes := by
  rw [applyAt_writes] at hx
  obtain ⟨w, hw, rfl⟩ := List.mem_map.1 hx
  by_cases hwid : w.id = id
  · exact ⟨w, hw, hwid, if_pos hwid⟩
  · exact absurd ((congrArg Write.id (if_neg hwid)).symm.trans hid) hwid

/-! ### Joins (R130, R134) -/

/-- A write once it is joined at die `d` to the paths `ps`. -/
def Write.joinedAt (w : Write) (d : BitVec 2) (ps : List Path) : Write :=
  { w with joined := w.joined ++ ((ps.filter fun q => !w.binds d q).map fun q => (d, q)) }

theorem binds_joinedAt {w : Write} {d e : BitVec 2} {ps : List Path} {q : Path} :
    (w.joinedAt d ps).binds e q = true ↔ w.binds e q = true ∨ d = e ∧ q ∈ ps := by
  simp only [Write.binds, Write.joinedAt, Bool.or_eq_true, beq_iff_eq, List.contains_iff_mem, List.mem_append, List.mem_map,
    List.mem_filter, Prod.mk.injEq, Bool.not_eq_true', Bool.or_eq_false_iff]
  constructor
  · rintro (h | h | ⟨q, ⟨hq, -⟩, hd, rfl⟩)
    · exact .inl (.inl h)
    · exact .inl (.inr h)
    · exact .inr ⟨hd, hq⟩
  · rintro ((h | h) | ⟨rfl, hq⟩)
    · exact .inl h
    · exact .inr (.inl h)
    · by_cases hp : w.path = q
      · exact .inl hp
      · by_cases hj : (d, q) ∈ w.joined
        · exact .inr (.inl hj)
        · exact .inr (.inr ⟨q, ⟨hq, by simpa using hp, by simpa using hj⟩, rfl, rfl⟩)

theorem joinAt_writes (s : State) (d : BitVec 2) (ps : List Path) (sel : Write → Bool) :
    (joinAt s d ps sel).writes = s.writes.map fun w => if w.applied.contains d && sel w then w.joinedAt d ps else w := rfl

/-- Every listed write that `sel` selects and that is applied at die `d` binds the readers of the paths `ps` there. -/
def boundAt (s : State) (d : BitVec 2) (ps : List Path) (sel : Write → Bool) : Prop :=
  ∀ w ∈ s.writes, sel w = true → w.applied.contains d = true → ∀ q ∈ ps, w.binds d q = true

section
variable {s : State} {d : BitVec 2} {ps : List Path} {sel : Write → Bool}

theorem boundAt.settle (h : boundAt s d ps sel) : boundAt (settle s) d ps sel :=
  fun w hw => h w (mem_of_mem_settle_writes hw)

/-- A join binds what it selects. -/
theorem boundAt_joinAt (s : State) (d : BitVec 2) (ps : List Path) (sel : Write → Bool) :
    boundAt (joinAt s d ps sel) d ps sel := by
  intro w hw hs ha q hq
  rw [joinAt_writes] at hw
  obtain ⟨v, -, rfl⟩ := List.mem_map.1 hw
  split
  · exact binds_joinedAt.2 (.inr ⟨rfl, hq⟩)
  · next hv =>
    rw [if_neg hv] at hs ha
    exact absurd (by rw [hs, ha]; rfl) hv

variable (hsel : ∀ w e qs, sel (w.joinedAt e qs) = sel w)
include hsel

/-- A later join takes no binding back, where the selection does not go by joins. -/
theorem boundAt.joinAt (h : boundAt s d ps sel) (e : BitVec 2) (qs : List Path) (pick : Write → Bool) :
    boundAt (joinAt s e qs pick) d ps sel := by
  intro w hw hs ha q hq
  rw [joinAt_writes] at hw
  obtain ⟨v, hv, rfl⟩ := List.mem_map.1 hw
  split at hs
  · next hp =>
    rw [if_pos hp] at ha ⊢
    exact binds_joinedAt.2 (.inl (h v hv (hsel v e qs ▸ hs) ha q hq))
  · next hp =>
    rw [if_neg hp] at ha ⊢
    exact h v hv hs ha q hq

/-- Joins at several dies bind at each of them. -/
theorem boundAt_foldl_joinAt (ps : List Path) {ds : List (BitVec 2)} (hd : d ∈ ds) (s : State) :
    boundAt (ds.foldl (fun s d => Machine.joinAt s d ps sel) s) d ps sel := by
  suffices hfold : ∀ (ds : List (BitVec 2)) (s : State), d ∈ ds ∨ boundAt s d ps sel →
      boundAt (ds.foldl (fun s d => Machine.joinAt s d ps sel) s) d ps sel from hfold ds s (.inl hd)
  intro ds
  induction ds with
  | nil => exact fun s h => h.resolve_left List.not_mem_nil
  | cons e r ih =>
    refine fun s h => ih _ ?_
    rcases h with h | h
    · rcases List.mem_cons.1 h with rfl | hr
      · exact .inr (boundAt_joinAt s d ps sel)
      · exact .inl hr
    · exact .inr (h.joinAt hsel e ps sel)

end

end Sys2Proof.Machine

namespace Sys2Proof.Rules

open Sys2Proof.Machine

/-- ARRIVE moves a write into a queue, APPLY out of it, JOIN marks it: the bytes of no listed write change. -/
theorem orderStep : OrderSteps := by
  intro a b p n w s
  refine ⟨fun hab hw => ?_, fun hready => ?_, fun hw ha hb => ?_⟩
  · have hexec : exec (.arrive a b) s = stepped (s.mapDie b fun d => { d with iq := d.iq ++ [w.id] }) := by
      change execArrive a b s = _
      simp only [execArrive, if_neg hab, hw]
    refine ⟨_, hexec, ?_, settle_byteAt _⟩
    exact congrArg (·.iq) ((settle_die _ b).trans (State.die_mapDie_same s b _))
  · have hexec : exec (.apply a n) s = stepped (applyAt s a n) := if_pos hready
    refine ⟨_, hexec, ?_, fun x hx hid => ?_, fun pa => (settle_byteAt _ pa).trans (applyAt_byteAt s a n pa)⟩
    · exact (congrArg (·.iq) (settle_die _ a)).trans (applyAt_iq s a n)
    · obtain ⟨v, -, rfl, rfl⟩ := mem_applyAt_writes (mem_of_mem_settle_writes hx) hid
      exact ⟨appliedAt_contains v a s.writes, fun y hy hlater c hc hheld => appliedAt_heldAt_of_later hc hy hlater hheld⟩
  · have hexec : exec (.join a n p) s = stepped (joinAt s a [p] fun y => y.id == n) := by
      change execJoin a n p s = _
      simp only [execJoin, hw, ha, hb, Bool.not_false, Bool.and_self, if_true]
    have hbound := (boundAt_joinAt s a [p] fun y => y.id == n).settle
    exact ⟨_, hexec, fun x hx hid hax => hbound x hx (beq_iff_eq.2 hid) hax p (List.mem_singleton.2 rfl),
      fun pa => (settle_byteAt _ pa).trans (joinAt_byteAt s a [p] _ pa)⟩

/-- Settles O19: the three steps do what they say, and no byte's latest value changes. -/
theorem orderSteps : Obligations.OrderSteps := orderStep

end Sys2Proof.Rules

namespace Sys2Proof.Machine

open Sys2Proof

/-! ### FENCE (R134, R274) -/

theorem mem_allDies (d : BitVec 2) : d ∈ allDies := by
  revert d
  decide

section
variable (s : State) (ps : List Path) (sc : Scope)

@[simp] theorem fenceJoin_core : (fenceJoin s ps sc).core = s.core := by
  cases sc with
  | core | cluster | die => rfl
  | package | system => exact (foldl_keeps (·.core) _ (fun _ _ => rfl) allDies _).trans (drainIq_core s s.here)

theorem fenceJoin_byteAt (pa : Nat) : byteAt (fenceJoin s ps sc) pa = byteAt s pa := by
  cases sc with
  | core => rfl
  | cluster | die => exact joinAt_byteAt s s.here ps _ pa
  | package | system =>
    exact (foldl_keeps (byteAt · pa) _ (fun s d => joinAt_byteAt s d ps _ pa) allDies _).trans (drainIq_byteAt s s.here pa)

/-- Beyond core scope a fence binds the readers of its paths at its die to every write of its paths applied there. -/
theorem boundAt_fenceJoin (hsc : sc ≠ .core) : boundAt (fenceJoin s ps sc) s.here ps fun w => ps.contains w.path := by
  cases sc with
  | core => exact absurd rfl hsc
  | cluster | die => exact boundAt_joinAt s s.here ps _
  | package | system => exact boundAt_foldl_joinAt (fun _ _ _ => rfl) ps (mem_allDies s.here) _

end

section
variable {ps : BitVec 6} {sc : Scope} {streams : BitVec 16} {g : GuardF} {s : State} (hg : s.core.guard g = true)
include hg

theorem exec_fence_holds (h : fenceReady s.core streams = false) : exec (.fence ps sc streams g) s = hold s .fence := by
  change execFence ps sc streams g s = _
  simp only [execFence, guarded_on hg, h, Bool.not_false, if_true]

/-- A fence is done once its streams, loads and multicast stores are, and, at package or system scope, once what its core has
observed is applied at every die. -/
theorem exec_fence_passes (h : fenceReady s.core streams = true)
    (happlied : sc = .package ∨ sc = .system → allApplied (drainIq s s.here) s.core.obs = true) :
    exec (.fence ps sc streams g) s = stepped (fenceJoin s (pathsOf ps) sc) := by
  change execFence ps sc streams g s = _
  simp only [execFence, guarded_on hg, h, Bool.not_true, Bool.false_eq_true, if_false]
  cases sc with
  | core | cluster | die => rfl
  | package => exact if_neg (by simp [happlied (.inl rfl)])
  | system => exact if_neg (by simp [happlied (.inr rfl)])

end

/-! ### WAIT (R135, R276) -/

theorem joinCore_byteAt (s : State) (ids : List Nat) (pa : Nat) : byteAt (joinCore s ids) pa = byteAt s pa :=
  joinAt_byteAt s s.here [.core] _ pa

theorem joinCore_core (s : State) (ids : List Nat) :
    (joinCore s ids).core = { s.core with obs := ids.foldl sinsert s.core.obs } := rfl

/-- What a WAIT whose counters have fallen joins: of each class of a path, the writes of the task's retired operations. -/
def waitJoin (s : State) (ps : List Path) : State := ps.foldl (fun s p => joinCore s (retiredWrites s p)) s

theorem waitJoin_core (s : State) (ps : List Path) : ∃ obs, (waitJoin s ps).core = { s.core with obs := obs } := by
  refine List.foldlRecOn (motive := fun t : State => ∃ obs, t.core = { s.core with obs := obs }) ps _ ⟨_, rfl⟩ ?_
  rintro t ⟨obs, ht⟩ p -
  exact ⟨_, by rw [joinCore_core, ht]⟩

theorem waitJoin_byteAt (s : State) (ps : List Path) (pa : Nat) : byteAt (waitJoin s ps) pa = byteAt s pa :=
  foldl_keeps (byteAt · pa) (fun s p => joinCore s (retiredWrites s p)) (fun s _ => joinCore_byteAt s _ pa) ps s

/-- A WAIT goes by whether a counter that it names is above its limit. -/
theorem exec_wait {classes limit : BitVec 6} {g : GuardF} {s : State} (hg : s.core.guard g = true) :
    exec (.wait classes limit g) s =
      if ∀ i ∈ (List.range 6).filter fun i => classes.getLsbD i, (s.core.cnt.get (BitVec.ofNat 3 i)).toNat ≤ limit.toNat then
        stepped (waitJoin s (((List.range 6).filter fun i => classes.getLsbD i).filterMap classPath))
      else hold s .waitCounters := by
  change execWait classes limit g s = _
  simp only [execWait, guarded_on hg, List.all_eq_true, decide_eq_true_eq]
  rfl

end Sys2Proof.Machine

namespace Sys2Proof.Rules

open Sys2Proof.Machine

theorem fences : Fences := by
  intro paths sc streams g s hg
  refine ⟨exec_fence_holds hg, fun hready happlied => ⟨_, exec_fence_passes hg hready happlied, rfl, ?_, fun pa => ?_, ?_⟩⟩
  · exact (settle_core _).trans (fenceJoin_core s _ sc)
  · exact (settle_byteAt _ pa).trans (fenceJoin_byteAt s _ sc pa)
  · exact fun hsc w hw hpath => (boundAt_fenceJoin s _ sc hsc).settle w hw (List.contains_iff_mem.2 hpath)

theorem waits : Waits := by
  intro classes limit g s hg named
  rw [exec_wait hg]
  refine ⟨fun ⟨i, hi, habove⟩ => if_neg fun hall => Nat.not_le.2 habove (hall i hi), fun hall => ?_⟩
  refine ⟨_, (if_pos hall).trans (stepped_next _), rfl, ?_, fun pa => (settle_byteAt _ pa).trans (waitJoin_byteAt s _ pa)⟩
  obtain ⟨obs, hobs⟩ := waitJoin_core s (named.filterMap classPath)
  rw [State.clear_core, settle_core, hobs]

/-- Settles O21: a fence and a wait hold their bundle until their condition holds, and then change no byte. -/
theorem fencesAndWaits : Obligations.FencesAndWaits := ⟨fences, waits⟩

end Sys2Proof.Rules

/-! SUPPORT. Decoding and encoding (R140 to R156). The layout of each format is a bijection between a word and its fields, each
small code between a value and its field; a row of a slot's map is then read in both directions by the same fields. -/

namespace Sys2Proof

open Layout

/-! ### Words and their fields (R142, R148 to R151) -/

theorem extractLsb'_eq_append_iff {k n m : Nat} {w : BitVec k} {lo : Nat} {x : BitVec n} {y : BitVec m} :
    w.extractLsb' lo (n + m) = x ++ y ↔ w.extractLsb' (lo + m) n = x ∧ w.extractLsb' lo m = y := by
  rw [← BitVec.extractLsb'_append_extractLsb'_eq_extractLsb' (x := w) (start₂ := lo + m) rfl]
  constructor
  · intro h
    have hx := congrArg (BitVec.extractLsb' m n) h
    have hy := congrArg (BitVec.extractLsb' 0 m) h
    simp only [BitVec.extractLsb'_append_eq_left, BitVec.extractLsb'_append_eq_right] at hx hy
    exact ⟨hx, hy⟩
  · rintro ⟨rfl, rfl⟩
    rfl

theorem append_eq_iff {n m : Nat} {x : BitVec n} {y : BitVec m} {v : BitVec (n + m)} :
    x ++ y = v ↔ v.extractLsb' m n = x ∧ v.extractLsb' 0 m = y := by
  have h := extractLsb'_eq_append_iff (w := v) (lo := 0) (x := x) (y := y)
  rw [BitVec.extractLsb'_eq_self, Nat.zero_add] at h
  exact eq_comm.trans h

section
variable {o x y z : BitVec 6} {g : BitVec 4} {w : BitVec 32}

theorem common_eq_iff {f : BitVec 4} :
    common o x y z f g = w ↔ ((((op w = o ∧ d w = x) ∧ a w = y) ∧ b w = z) ∧ Layout.f w = f) ∧ Layout.g w = g := by
  refine (append_eq_iff (x := o ++ x ++ y ++ z ++ f) (y := g) (v := w)).trans ?_
  simp only [extractLsb'_eq_append_iff]
  exact Iff.rfl

theorem sw_eq_iff {imm : BitVec 16} :
    sw o x imm g = w ↔ ((op w = o ∧ d w = x) ∧ w.extractLsb' 4 16 = imm) ∧ Layout.g w = g := by
  refine (append_eq_iff (x := o ++ x ++ imm) (y := g) (v := w)).trans ?_
  simp only [extractLsb'_eq_append_iff]
  exact Iff.rfl

theorem sb_eq_iff {disp : BitVec 22} : sb o disp g = w ↔ (op w = o ∧ w.extractLsb' 4 22 = disp) ∧ Layout.g w = g := by
  refine (append_eq_iff (x := o ++ disp) (y := g) (v := w)).trans ?_
  simp only [extractLsb'_eq_append_iff]
  exact Iff.rfl

theorem sl_eq_iff {n : BitVec 12} {disp : BitVec 10} :
    sl o n disp g = w ↔ ((op w = o ∧ w.extractLsb' 14 12 = n) ∧ w.extractLsb' 4 10 = disp) ∧ Layout.g w = g := by
  refine (append_eq_iff (x := o ++ n ++ disp) (y := g) (v := w)).trans ?_
  simp only [extractLsb'_eq_append_iff]
  exact Iff.rfl

/-- LOOP_REG splits the count's field in two. -/
theorem sl_append_eq_iff {disp : BitVec 10} :
    sl o (x ++ y) disp g = w ↔ (((op w = o ∧ d w = x) ∧ a w = y) ∧ w.extractLsb' 4 10 = disp) ∧ Layout.g w = g := by
  refine (append_eq_iff (x := o ++ (x ++ y) ++ disp) (y := g) (v := w)).trans ?_
  simp only [extractLsb'_eq_append_iff, ← and_assoc]
  exact Iff.rfl

theorem aw_eq_iff {r : BitVec 4} {base : BitVec 2} {off : BitVec 16} :
    aw o r base off g = w ↔
      (((op w = o ∧ w.extractLsb' 22 4 = r) ∧ w.extractLsb' 20 2 = base) ∧ w.extractLsb' 4 16 = off) ∧ Layout.g w = g := by
  refine (append_eq_iff (x := o ++ r ++ base ++ off) (y := g) (v := w)).trans ?_
  simp only [extractLsb'_eq_append_iff]
  exact Iff.rfl

theorem af_eq_iff {sc : BitVec 3} {st : BitVec 8} :
    af o x sc st g = w ↔ (((((op w = o ∧ d w = x) ∧ w.extractLsb' 17 3 = sc) ∧ w.extractLsb' 16 1 = 0) ∧
      w.extractLsb' 8 8 = st) ∧ f w = 0) ∧ Layout.g w = g := by
  refine (append_eq_iff (x := o ++ x ++ sc ++ 0#1 ++ st ++ 0#4) (y := g) (v := w)).trans ?_
  simp only [extractLsb'_eq_append_iff]
  exact Iff.rfl

theorem ab_eq_iff {n : BitVec 10} : ab o n z g = w ↔
    ((((op w = o ∧ w.extractLsb' 16 10 = n) ∧ w.extractLsb' 14 2 = 0) ∧ b w = z) ∧ f w = 0) ∧ Layout.g w = g := by
  refine (append_eq_iff (x := o ++ n ++ 0#2 ++ z ++ 0#4) (y := g) (v := w)).trans ?_
  simp only [extractLsb'_eq_append_iff]
  exact Iff.rfl

theorem ae_eq_iff {u v : BitVec 8} :
    ae o u v z g = w ↔ (((op w = o ∧ e0 w = u) ∧ e1 w = v) ∧ e2 w = z) ∧ Layout.g w = g := by
  refine (append_eq_iff (x := o ++ u ++ v ++ z) (y := g) (v := w)).trans ?_
  simp only [extractLsb'_eq_append_iff]
  exact Iff.rfl

theorem ma_eq_iff {p : BitVec 10} : ma o x p g = w ↔ (((((op w = o ∧ d w = x) ∧ w.extractLsb' 19 1 = 0) ∧
    w.extractLsb' 9 10 = p) ∧ w.extractLsb' 8 1 = 0) ∧ f w = 0) ∧ Layout.g w = g := by
  refine (append_eq_iff (x := o ++ x ++ 0#1 ++ p ++ 0#1 ++ 0#4) (y := g) (v := w)).trans ?_
  simp only [extractLsb'_eq_append_iff]
  exact Iff.rfl

end

/-- The function bits of SR and the bit I beside them are the field F. -/
theorem function_eq_iff {v : BitVec 4} {i : Bool} {fn : BitVec 3} :
    BitVec.ofBool i ++ fn = v ↔ v.getLsbD 3 = i ∧ v.extractLsb' 0 3 = fn := by
  decide +revert

theorem srFn_eq (w : BitVec 32) : srFn w = (f w).extractLsb' 0 3 := by
  ext k
  simp [srFn, f]
  omega

theorem getLsbD_seven (w : BitVec 32) : w.getLsbD 7 = (f w).getLsbD 3 := by simp [f]

/-- The number of a system register lies in the fields A and B (R184). -/
theorem sysNumber_eq_iff {w : BitVec 32} {n : BitVec 12} :
    w.extractLsb' 8 12 = n ↔ n.extractLsb' 6 6 = a w ∧ n.extractLsb' 0 6 = b w := by
  rw [show w.extractLsb' 8 12 = a w ++ b w from (extractLsb'_eq_append_iff (n := 6) (m := 6)).2 ⟨rfl, rfl⟩]
  exact append_eq_iff (n := 6)

theorem srWord_eq_iff {o : BitVec 6} {fn : BitVec 3} {x : SR} {w : BitVec 32} :
    srWord o fn x = w ↔ (op w = o ∧ srFn w = fn) ∧ srOf w = x := by
  obtain ⟨d, a, b, i, g⟩ := x
  simp only [srWord, common_eq_iff, eq_comm (a := f w), function_eq_iff, srFn_eq, srOf, getLsbD_seven, SR.mk.injEq]
  tauto

theorem sr3Word_eq_iff {o : BitVec 6} {u : BitVec 4} {x : SR3} {w : BitVec 32} :
    sr3Word o u x = w ↔ (op w = o ∧ f w = u) ∧ sr3Of w = x := by
  obtain ⟨d, a, b, g⟩ := x
  simp only [sr3Word, common_eq_iff, sr3Of, SR3.mk.injEq]
  tauto

/-! ### Small codes -/

theorem eq_z6_iff {v : BitVec 6} {x : BitVec 4} : v = z6 x ↔ v.extractLsb' 4 2 = 0 ∧ v.extractLsb' 0 4 = x :=
  eq_comm.trans (append_eq_iff (n := 2))

theorem eq_z8_iff {v : BitVec 8} {x : BitVec 6} : v = z8 x ↔ v.extractLsb' 6 2 = 0 ∧ v.extractLsb' 0 6 = x :=
  eq_comm.trans (append_eq_iff (n := 2))

theorem eq_l6_iff {v : BitVec 6} {x : BitVec 2} : v = l6 x ↔ v.extractLsb' 2 4 = 0 ∧ v.extractLsb' 0 2 = x :=
  eq_comm.trans (append_eq_iff (n := 4))

@[simp] theorem reg4_eq_some_iff {v : BitVec 6} {x : BitVec 4} : reg4 v = some x ↔ v = z6 x := by
  rw [eq_z6_iff]
  simp [reg4]

@[simp] theorem reg6_eq_some_iff {v : BitVec 8} {x : BitVec 6} : reg6 v = some x ↔ v = z8 x := by
  rw [eq_z8_iff]
  simp [reg6]

@[simp] theorem Scope.ofCode_eq_some_iff {c : BitVec 3} {s : Scope} : Scope.ofCode c = some s ↔ c = s.code := by
  cases s <;> decide +revert

@[simp] theorem CmpCond.ofCode_eq_some_iff {c : BitVec 3} {cc : CmpCond} : CmpCond.ofCode c = some cc ↔ c = cc.code := by
  cases cc <;> decide +revert

@[simp] theorem FCmpCond.ofCode_eq_some_iff {c : BitVec 3} {cc : FCmpCond} : FCmpCond.ofCode c = some cc ↔ c = cc.code := by
  cases cc <;> decide +revert

@[simp] theorem StQual.ofCode_eq_some_iff {c : BitVec 2} {q : StQual} : StQual.ofCode c = some q ↔ c = q.code := by
  cases q <;> decide +revert

@[simp] theorem AleaBase.ofCode_eq_some_iff {c : BitVec 2} {x : AleaBase} : AleaBase.ofCode c = some x ↔ c = x.code := by
  cases x <;> decide +revert

@[simp] theorem RedOp.ofCode_eq_some_iff {c : BitVec 8} {x : RedOp} : RedOp.ofCode c = some x ↔ c = x.code := by
  cases x <;> decide +revert

@[simp] theorem Ty.code_ofCode (c : BitVec 4) : (Ty.ofCode c).code = c := by decide +revert

@[simp] theorem Ty.ofCode_code (t : Ty) : Ty.ofCode t.code = t := by cases t <;> rfl

@[simp] theorem LdQual.code_ofCode (c : BitVec 2) : (LdQual.ofCode c).code = c := by decide +revert

@[simp] theorem LdQual.ofCode_code (q : LdQual) : LdQual.ofCode q.code = q := by cases q <;> rfl

@[simp] theorem AmoOp.code_ofCode (c : BitVec 3) : (AmoOp.ofCode c).code = c := by decide +revert

@[simp] theorem AmoOp.ofCode_code (o : AmoOp) : AmoOp.ofCode o.code = o := by cases o <;> rfl

@[simp] theorem StoredFmt.code_ofCode (c : BitVec 2) : (StoredFmt.ofCode c).code = c := by decide +revert

@[simp] theorem StoredFmt.ofCode_code (x : StoredFmt) : StoredFmt.ofCode x.code = x := by cases x <;> rfl

@[simp] theorem EAddr.ofField_eq_some_iff {v : BitVec 6} {x : EAddr} : EAddr.ofField v = some x ↔ v = x.field := by
  obtain ⟨x, inc⟩ := x
  rw [eq_comm (b := EAddr.field _), EAddr.field, append_eq_iff (n := 4)]
  unfold EAddr.ofField
  generalize v.extractLsb' 0 2 = c
  obtain rfl | rfl | rfl | rfl : c = 0#2 ∨ c = 1#2 ∨ c = 2#2 ∨ c = 3#2 := by decide +revert
  all_goals cases inc <;> simp

@[simp] theorem ScopeStream.ofByte_eq_some_iff {e : Byte} {q : ScopeStream} : ScopeStream.ofByte e = some q ↔ e = q.byte := by
  obtain ⟨sc, st⟩ := q
  rw [eq_comm (b := ScopeStream.byte _), ScopeStream.byte, append_eq_iff (n := 1 + 3), extractLsb'_eq_append_iff]
  simp [ScopeStream.ofByte, and_assoc]

/-! ### The lent byte (R146, R147) -/

/-- An encoding with the lent byte `e`, which needs its header if `needs`, is one that a slot reads with the byte `ext`. -/
def lends (ext : Option Byte) (e : Byte) (needs : Bool) : Prop :=
  match ext with
  | some x => e = x
  | none => needs = false

theorem lends_nonzero_iff {ext : Option Byte} {e : Byte} : lends ext e (e ≠ 0) ↔ ext.getD 0 = e := by
  cases ext with
  | some x => exact eq_comm
  | none => simp [lends, eq_comm (a := e)]

theorem imm14_eq_iff {low : BitVec 6} {ext : Option Byte} {v : BitVec 14} :
    imm14 low ext = v ↔ v.extractLsb' 0 6 = low ∧ lends ext (v.extractLsb' 6 8) (imm14Needs v) := by
  cases ext with
  | none =>
    have hlow : (low.signExtend 14).extractLsb' 0 6 = low := by
      ext k hk
      simp [BitVec.getLsbD_signExtend, hk]
      omega
    simp only [imm14, lends, imm14Needs, decide_eq_false_iff_not, not_not]
    constructor
    · rintro rfl
      exact ⟨hlow, by rw [hlow]⟩
    · rintro ⟨rfl, h⟩
      exact h
  | some e => exact (append_eq_iff (n := 8)).trans and_comm

theorem off24_eq_iff {base : AleaBase} {low : BitVec 16} {ext : Option Byte} {v : BitVec 24} : off24 base low ext = v ↔
    v.extractLsb' 0 16 = low ∧ lends ext (v.extractLsb' 16 8) (off24Needs base v) := by
  cases ext with
  | none =>
    have hlow : (off24 base low none).extractLsb' 0 16 = low := by
      ext k hk
      have hk' : k < 24 := by omega
      cases base <;> simp [off24, BitVec.getElem_signExtend, hk, hk']
    simp only [lends, off24Needs, decide_eq_false_iff_not, not_not]
    constructor
    · rintro rfl
      exact ⟨hlow, by rw [hlow]⟩
    · rintro ⟨rfl, h⟩
      exact h
  | some e => exact (append_eq_iff (n := 8)).trans and_comm

/-- The four modes of format AM (R149). -/
theorem MemOp.ofFields_ok_iff {a b : BitVec 6} {ext : Option Byte} {m : MemOp} :
    MemOp.ofFields a b ext = .ok m ↔ m.aField = a ∧ m.bField = b ∧ lends ext m.ext m.needs := by
  constructor
  · intro h
    unfold MemOp.ofFields at h
    have field {c : BitVec 2} (hc : a.extractLsb' 0 2 = c) : a.extractLsb' 2 4 ++ c = a := append_eq_iff.2 ⟨rfl, hc⟩
    split at h
    case h_1 hc =>
      cases h
      exact ⟨field hc, imm14_eq_iff.1 rfl⟩
    case h_2 q hc hq =>
      rw [ScopeStream.ofByte_eq_some_iff, ← lends_nonzero_iff] at hq
      split at h
      · cases h
        exact ⟨field hc, (‹b = 0›).symm, hq⟩
      · cases h
    case h_3 q hc hq | h_4 q hc hq =>
      rw [ScopeStream.ofByte_eq_some_iff, ← lends_nonzero_iff] at hq
      cases h
      exact ⟨field hc, rfl, hq⟩
    case h_5 => cases h
  · have mode (x : BitVec 4) (c : BitVec 2) : (x ++ c).extractLsb' 0 2 = c := BitVec.extractLsb'_append_eq_right
    have base (x : BitVec 4) (c : BitVec 2) : (x ++ c).extractLsb' 2 4 = x := BitVec.extractLsb'_append_eq_left
    rintro ⟨rfl, rfl, hl⟩
    cases m with
    | imm x off =>
      have hoff : imm14 (off.extractLsb' 0 6) ext = off := imm14_eq_iff.2 ⟨rfl, hl⟩
      simp only [MemOp.ofFields, MemOp.aField, MemOp.bField, mode, base, hoff]
    | inc x q | idx x n q | incIdx x n q =>
      have hq : ScopeStream.ofByte (ext.getD 0) = some q := ScopeStream.ofByte_eq_some_iff.2 (lends_nonzero_iff.1 hl)
      simp only [MemOp.ofFields, MemOp.aField, MemOp.bField, mode, base, hq, if_true]

/-! ### Rows of a slot's map -/

/-- Whatever a decoder gives satisfies `P`. -/
def Yields (x : Except DecodeErr Instr) (P : Instr → Prop) : Prop := ∀ i, x = .ok i → P i

section
variable {P : Instr → Prop} {e : DecodeErr}

@[simp] theorem yields_ok {i : Instr} : Yields (.ok i) P ↔ P i := by simp [Yields]

@[simp] theorem yields_error : Yields (.error e) P := by simp [Yields]

@[simp] theorem yields_demand {c : Bool} {x : Except DecodeErr Instr} :
    Yields (demand c e x) P ↔ (c = true → Yields x P) := by
  cases c <;> simp [demand]

@[simp] theorem yields_take {α : Type} {x : Option α} {k : α → Except DecodeErr Instr} :
    Yields (take x e k) P ↔ ∀ v, x = some v → Yields (k v) P := by
  cases x <;> simp [take]

@[simp] theorem yields_ite {c : Prop} [Decidable c] {x y : Except DecodeErr Instr} :
    Yields (if c then x else y) P ↔ (c → Yields x P) ∧ (¬c → Yields y P) := by
  split <;> simp [*]

end

@[simp] theorem demand_true {α : Type} {c : Bool} (h : c = true) (e : DecodeErr) (x : Except DecodeErr α) :
    demand c e x = x := if_pos h

@[simp] theorem take_some {α β : Type} (v : α) (e : DecodeErr) (k : α → Except DecodeErr β) : take (some v) e k = k v := rfl

theorem eq_seven_of_ne : ∀ c : BitVec 3, c ≠ 0#3 → c ≠ 1#3 → c ≠ 2#3 → c ≠ 3#3 → c ≠ 4#3 → c ≠ 5#3 → c ≠ 6#3 → c = 7#3 := by
  intros
  bv_omega

/-- The field F of an instruction of format SR with I = 0. -/
theorem function_eq {w : BitVec 32} {fn : BitVec 3} (hi : (!w.getLsbD 7) = true) (hfn : srFn w = fn) :
    f w = BitVec.ofBool false ++ fn := by
  have h := function_eq_iff.2 ⟨(getLsbD_seven w).symm, (srFn_eq w).symm⟩
  rw [Bool.not_eq_true'] at hi
  rw [← h, hi, hfn]

theorem enc0_congr {v w : BitVec 32} (h : v = w) : enc0 v = enc0 w := congrArg enc0 h

/-! ### Slot 0 (R152, R160 to R184) -/

theorem decode0_encodes (w : BitVec 32) : Yields (decode0 w) fun i => encode i = enc0 w := by
  simp only [decode0]
  split
  -- opcode 0x00: NOP
  case h_1 =>
    simp only [yields_demand, yields_ok, decide_eq_true_eq]
    rintro rfl
    rfl
  -- 0x01 to 0x03: format SR, whose function bits choose the instruction
  case h_2 hop =>
    split
    all_goals refine yields_ok.2 (enc0_congr (srWord_eq_iff.2 ⟨⟨hop, ?_⟩, rfl⟩))
    case h_8 => exact eq_seven_of_ne _ ‹_› ‹_› ‹_› ‹_› ‹_› ‹_› ‹_›
    all_goals assumption
  case h_3 hop | h_4 hop =>
    split
    all_goals simp only [yields_ok, yields_error]
    all_goals exact enc0_congr (srWord_eq_iff.2 ⟨⟨hop, ‹_›⟩, rfl⟩)
  -- 0x04, 0x0D: functions with I = 0
  case h_5 hop =>
    simp only [yields_demand, Bool.and_eq_true, decide_eq_true_eq]
    rintro ⟨hi, hb⟩
    split
    case h_4 => exact yields_error
    all_goals exact yields_ok.2 (enc0_congr (common_eq_iff.2 ⟨⟨⟨⟨⟨hop, rfl⟩, rfl⟩, hb⟩, function_eq hi ‹_›⟩, rfl⟩))
  case h_14 hop =>
    simp only [yields_demand]
    intro hi
    split
    case h_6 => exact yields_error
    all_goals exact yields_ok.2 (enc0_congr (sr3Word_eq_iff.2 ⟨⟨hop, function_eq hi ‹_›⟩, rfl⟩))
  -- 0x12: operations on guards
  case h_19 hop =>
    simp only [yields_demand, yields_take, reg4_eq_some_iff]
    intro hi x ha y hb
    split
    case h_3 =>
      simp only [yields_demand, yields_ok, decide_eq_true_eq]
      intro hz
      exact enc0_congr (common_eq_iff.2 ⟨⟨⟨⟨⟨hop, rfl⟩, ha⟩, hz⟩, function_eq hi ‹_›⟩, rfl⟩)
    case h_4 => exact yields_error
    all_goals exact yields_ok.2 (enc0_congr (common_eq_iff.2 ⟨⟨⟨⟨⟨hop, rfl⟩, ha⟩, hb⟩, function_eq hi ‹_›⟩, rfl⟩))
  -- 0x10: FCMP
  case h_17 hop =>
    simp only [yields_demand, yields_take, yields_ok, FCmpCond.ofCode_eq_some_iff]
    intro hi cc hfn
    exact enc0_congr (sr3Word_eq_iff.2 ⟨⟨hop, function_eq hi hfn⟩, rfl⟩)
  -- 0x0F: FCVT
  case h_16 hop =>
    simp only [yields_demand, yields_ok, decide_eq_true_eq]
    intro hb
    exact enc0_congr (common_eq_iff.2 ⟨⟨⟨⟨⟨hop, rfl⟩, rfl⟩, by rw [Ty.code_ofCode, ← eq_z6_iff.2 ⟨hb, rfl⟩]⟩, by simp⟩, rfl⟩)
  -- 0x18: LOOP_REG
  case h_25 hop =>
    simp only [yields_demand, yields_ok, decide_eq_true_eq]
    intro hd
    exact enc0_congr (sl_append_eq_iff.2 ⟨⟨⟨⟨hop, hd⟩, rfl⟩, rfl⟩, rfl⟩)
  -- 0x21, 0x22: MFS and MTS
  case h_34 hop | h_35 hop =>
    simp only [yields_demand, yields_ok, decide_eq_true_eq]
    intro hf
    obtain ⟨ha, hb⟩ := sysNumber_eq_iff.1 (Eq.refl (w.extractLsb' 8 12))
    exact enc0_congr (common_eq_iff.2 ⟨⟨⟨⟨⟨hop, rfl⟩, ha.symm⟩, hb.symm⟩, hf⟩, rfl⟩)
  -- every other opcode is one instruction, or none
  case h_37 => exact yields_error
  all_goals
    rename_i hop
    simp only [yields_demand, yields_take, yields_ok, CmpCond.ofCode_eq_some_iff, Bool.and_eq_true, decide_eq_true_eq, and_imp]
    intros
    refine enc0_congr ?_
    simp [common_eq_iff, sw_eq_iff, sb_eq_iff, sl_eq_iff, sr3Word_eq_iff, srWord_eq_iff, *]

theorem enc0_inj {v w : BitVec 32} (h : enc0 v = enc0 w) : v = w := by simpa [enc0] using h

theorem take_of_some {α β : Type} {x : Option α} {v : α} (h : x = some v) (e : DecodeErr) (k : α → Except DecodeErr β) :
    take x e k = k v := by
  rw [h, take]

theorem decode0_encode {i : Instr} {w : BitVec 32} (hwf : i.WellFormed) (h : encode i = enc0 w) : decode0 w = .ok i := by
  cases i with
  | nop =>
    obtain rfl := enc0_inj h
    rfl
  | add o | sub o | and o | or o | xor o | andn o | min o | max o | minu o | maxu o | shl o | shr o | sra o | rol o | mul o
  | mulh o | mulhu o | div o | divu o | rem o | remu o =>
    obtain ⟨⟨hop, hfn⟩, rfl⟩ := srWord_eq_iff.1 (enc0_inj h)
    unfold decode0
    rw [hop, hfn]
    rfl
  | clz d a g | ctz d a g | popc d a g =>
    obtain ⟨⟨⟨⟨⟨hop, rfl⟩, rfl⟩, hb⟩, hf⟩, rfl⟩ := common_eq_iff.1 (enc0_inj h)
    unfold decode0
    rw [hop, srFn_eq, getLsbD_seven, hf, hb]
    rfl
  | sel o c =>
    obtain ⟨⟨hop, rfl⟩, rfl⟩ := sr3Word_eq_iff.1 (enc0_inj h)
    unfold decode0
    rw [hop]
    rfl
  | bfx o | bfi o | ffma o | hops o | fadd o | fsub o | fmul o | fmin o | fmax o =>
    obtain ⟨⟨hop, hf⟩, rfl⟩ := sr3Word_eq_iff.1 (enc0_inj h)
    unfold decode0
    rw [hop, srFn_eq, getLsbD_seven, hf]
    rfl
  | fcmp cc o =>
    obtain ⟨⟨hop, hf⟩, rfl⟩ := sr3Word_eq_iff.1 (enc0_inj h)
    unfold decode0
    rw [hop, srFn_eq, getLsbD_seven, hf]
    cases cc <;> rfl
  | cmp cc o =>
    obtain ⟨⟨hop, hfn⟩, rfl⟩ := srWord_eq_iff.1 (enc0_inj h)
    unfold decode0
    rw [hop, hfn]
    cases cc <;> rfl
  | movi d imm g =>
    obtain ⟨⟨⟨hop, rfl⟩, rfl⟩, rfl⟩ := sw_eq_iff.1 (enc0_inj h)
    unfold decode0
    rw [hop]
    rfl
  | movhi d imm q g =>
    obtain ⟨⟨⟨hop, rfl⟩, rfl⟩, rfl⟩ := sw_eq_iff.1 (enc0_inj h)
    unfold decode0
    rw [hop]
    have hq : q ≠ 0 := of_decide_eq_true hwf
    obtain rfl | rfl | rfl : q = 1 ∨ q = 2 ∨ q = 3 := by bv_omega
    all_goals rfl
  | fcvt d a tt ss g =>
    obtain ⟨⟨⟨⟨⟨hop, rfl⟩, rfl⟩, hb⟩, hf⟩, rfl⟩ := common_eq_iff.1 (enc0_inj h)
    obtain ⟨hz, hss⟩ := eq_z6_iff.1 hb
    unfold decode0
    rw [hop]
    refine (demand_true (decide_eq_true hz) _ _).trans ?_
    rw [hss, hf, Ty.ofCode_code, Ty.ofCode_code]
  | gand d x y g | gor d x y g =>
    obtain ⟨⟨⟨⟨⟨hop, rfl⟩, ha⟩, hb⟩, hf⟩, rfl⟩ := common_eq_iff.1 (enc0_inj h)
    unfold decode0
    rw [hop, srFn_eq, getLsbD_seven, hf]
    exact (demand_true rfl _ _).trans
      ((take_of_some (reg4_eq_some_iff.2 ha) _ _).trans (take_of_some (reg4_eq_some_iff.2 hb) _ _))
  | gnot d x g =>
    obtain ⟨⟨⟨⟨⟨hop, rfl⟩, ha⟩, hb⟩, hf⟩, rfl⟩ := common_eq_iff.1 (enc0_inj h)
    unfold decode0
    rw [hop, srFn_eq, getLsbD_seven, hf, hb]
    exact (demand_true rfl _ _).trans (take_of_some (reg4_eq_some_iff.2 ha) _ _)
  | br disp g | call disp g =>
    obtain ⟨⟨hop, rfl⟩, rfl⟩ := sb_eq_iff.1 (enc0_inj h)
    unfold decode0
    rw [hop]
    rfl
  | ret g | endTask g | drain g | brk g | eret g =>
    obtain ⟨⟨hop, hz⟩, rfl⟩ := sb_eq_iff.1 (enc0_inj h)
    unfold decode0
    rw [hop, hz]
    rfl
  | jmp a g | setfmt a g | fclass d a g | getf d n g | getid d n g | trap code g =>
    obtain ⟨⟨⟨⟨⟨hop, hd⟩, ha⟩, hb⟩, hf⟩, rfl⟩ := common_eq_iff.1 (enc0_inj h)
    unfold decode0
    rw [hop, hd, ha, hb, hf]
    rfl
  | loop n disp g =>
    obtain ⟨⟨⟨hop, rfl⟩, rfl⟩, rfl⟩ := sl_eq_iff.1 (enc0_inj h)
    unfold decode0
    rw [hop]
    rfl
  | loopReg a disp g =>
    obtain ⟨⟨⟨⟨hop, hd⟩, rfl⟩, rfl⟩, rfl⟩ := sl_append_eq_iff.1 (enc0_inj h)
    unfold decode0
    rw [hop, hd]
    rfl
  | mfs d n g | mts d n g =>
    obtain ⟨⟨⟨⟨⟨hop, rfl⟩, ha⟩, hb⟩, hf⟩, rfl⟩ := common_eq_iff.1 (enc0_inj h)
    unfold decode0
    rw [hop, hf, sysNumber_eq_iff.2 ⟨ha.symm, hb.symm⟩]
    rfl
  -- other slots
  | aadd d a b g => cases b <;> cases h
  | copy d s len g => cases len <;> cases h
  | copym d s len m g => cases len <;> cases h
  | _ => cases h

/-! ### Slot 2 (R154, R189) -/

theorem extractLsb'_eq_ofBool_iff {n k : Nat} {x : BitVec n} {c : Bool} :
    x.extractLsb' k 1 = BitVec.ofBool c ↔ x.getLsbD k = c := by
  have hbit : x.extractLsb' k 1 = BitVec.ofBool (x.getLsbD k) := by
    ext j hj
    obtain rfl : j = 0 := by omega
    simp
  rw [hbit, BitVec.ofBool_eq_iff_eq]

/-- Two bits and a field of six: Z, V and C of VR's lent byte, and the destination of COPY. -/
theorem bits_append_eq_iff {i j : Bool} {x : BitVec 6} {v : BitVec 8} : BitVec.ofBool i ++ BitVec.ofBool j ++ x = v ↔
    v.getLsbD 7 = i ∧ v.getLsbD 6 = j ∧ v.extractLsb' 0 6 = x := by
  rw [append_eq_iff (n := 1 + 1), extractLsb'_eq_append_iff, extractLsb'_eq_ofBool_iff, extractLsb'_eq_ofBool_iff, and_assoc]

theorem encV_eq_iff {o : BitVec 6} {x : VOp} {w : BitVec 32} {e : Byte} {n : Bool} :
    encV o x = some ⟨2, w, e, n⟩ ↔ (op w = o ∧ vopOf w e = x) ∧ n = (e ≠ 0 : Bool) := by
  obtain ⟨d, a, b, m, t, z, v, c⟩ := x
  have hty : Layout.g w = t.code ↔ Ty.ofCode (Layout.g w) = t :=
    ⟨fun h => by rw [h, Ty.ofCode_code], fun h => by rw [← h, Ty.code_ofCode]⟩
  simp only [encV, Option.some.injEq, Enc.mk.injEq, common_eq_iff, true_and, hty, vopOf, VOp.mk.injEq]
  constructor
  · rintro ⟨⟨⟨⟨⟨⟨hop, hd⟩, ha⟩, hb⟩, hm⟩, ht⟩, rfl, rfl⟩
    obtain ⟨hz, hv, hc⟩ := bits_append_eq_iff.1 (Eq.refl (VOp.byte ⟨d, a, b, m, t, z, v, c⟩))
    exact ⟨⟨hop, hd, ha, hb, hm, ht, hz, hv, hc⟩, rfl⟩
  · rintro ⟨⟨hop, hd, ha, hb, hm, ht, hz, hv, hc⟩, rfl⟩
    have he : VOp.byte ⟨d, a, b, m, t, z, v, c⟩ = e := bits_append_eq_iff.2 ⟨hz, hv, hc⟩
    exact ⟨⟨⟨⟨⟨⟨hop, hd⟩, ha⟩, hb⟩, hm⟩, ht⟩, he, by rw [he]⟩

theorem decode2_encodes (w : BitVec 32) (e : Byte) :
    Yields (decode2 w e) fun i => i = .nop ∨ encode i = some ⟨2, w, e, (e ≠ 0 : Bool)⟩ := by
  simp only [decode2]
  split
  case h_1 =>
    simp only [yields_demand, yields_ok]
    exact fun _ _ => .inl trivial
  case h_55 => exact yields_error
  all_goals exact yields_ok.2 (.inr (encV_eq_iff.2 ⟨⟨‹_›, rfl⟩, rfl⟩))

theorem decode2_encode {i : Instr} {w : BitVec 32} {e : Byte} {n : Bool} (h : encode i = some ⟨2, w, e, n⟩) :
    decode2 w e = .ok i ∧ n = (e ≠ 0 : Bool) := by
  cases i with
  | aadd d a b g => cases b <;> cases h
  | copy d s len g => cases len <;> cases h
  | copym d s len m g => cases len <;> cases h
  | vadd o | vsub o | vmul o | vfma o | vfms o | vmin o | vmax o | vabs o | vneg o | vrcp o | vrsq o | vfexp2 o | vlog2 o
  | vrndi o | vscale o | vgetexp o | vgetman o | vcvt o | vcvti o | vpackb o | vunpb o | vsat o | vcmp o | vsel o | vand o
  | vor o | vxor o | vnot o | vshl o | vshr o | vsra o | viota o | vbcast o | vmovs o | vins o | vmov o | vperm o | vslide o
  | vredsum o | vredmax o | vdot4 o | vcompr o | vexpnd o | kand o | kor o | kxor o | knot o | kpopc o | kfirst o | kset o
  | sumpin o | sumpout o | sumpcnt o =>
    obtain ⟨⟨hop, rfl⟩, hn⟩ := encV_eq_iff.1 h
    refine ⟨?_, hn⟩
    unfold decode2
    rw [hop]
    rfl
  | _ => cases h

/-! ### Slot 3 (R155, R215, R227) -/

theorem enc3_congr {v w : BitVec 32} {x e : Byte} (h : v = w) (he : x = e) : enc3 v x = enc3 w e := by rw [h, he]

theorem enc3_inj {v w : BitVec 32} {x e : Byte} {n : Bool} (h : enc3 v x = some ⟨3, w, e, n⟩) :
    v = w ∧ x = e ∧ n = (e ≠ 0 : Bool) := by
  simp only [enc3, Option.some.injEq, Enc.mk.injEq, true_and] at h
  obtain ⟨hw, rfl, hn⟩ := h
  exact ⟨hw, rfl, hn.symm⟩

theorem eq_zero_append_row_iff {v : BitVec 6} {r : BitVec 5} : v = 0#1 ++ r ↔ v.extractLsb' 5 1 = 0 ∧ v.extractLsb' 0 5 = r :=
  eq_comm.trans (append_eq_iff (n := 1))

theorem eq_zero_append_guard_iff {v : BitVec 4} {x : BitVec 3} : v = 0#1 ++ x ↔ v.extractLsb' 3 1 = 0 ∧ v.extractLsb' 0 3 = x :=
  eq_comm.trans (append_eq_iff (n := 1))

theorem zero_append_shift_eq_iff {e : Byte} {x : BitVec 5} : 0#3 ++ x = e ↔ e.extractLsb' 5 3 = 0 ∧ e.extractLsb' 0 5 = x :=
  append_eq_iff (n := 3)

theorem zero_append_quarter_eq_iff {e : Byte} {q : BitVec 4} : 0#4 ++ q = e ↔ e.extractLsb' 4 4 = 0 ∧ e.extractLsb' 0 4 = q :=
  append_eq_iff (n := 4)

/-- The function field of MLDB: its format, and whether it swaps. -/
theorem eq_mldbFunction_iff {v : BitVec 4} {sp : Bool} {c : BitVec 2} : v = 0#1 ++ BitVec.ofBool sp ++ c ↔
    v.extractLsb' 3 1 = 0 ∧ v.getLsbD 2 = sp ∧ v.extractLsb' 0 2 = c := by
  rw [eq_comm, append_eq_iff (n := 1 + 1), extractLsb'_eq_append_iff, extractLsb'_eq_ofBool_iff, and_assoc]
  exact Iff.rfl

theorem decode3_encodes (w : BitVec 32) (e : Byte) : Yields (decode3 w e) fun i => encode i = enc3 w e := by
  simp only [decode3]
  split
  -- opcode 0x00: the empty slot
  case h_1 =>
    simp only [yields_demand, yields_ok, decide_eq_true_eq]
    rintro rfl rfl
    rfl
  case h_21 => exact yields_error
  all_goals
    rename_i hop
    simp only [yields_demand, yields_take, yields_ok, yields_ite, yields_error, reg4_eq_some_iff, Bool.and_eq_true,
      decide_eq_true_eq, and_imp, implies_true, and_true]
  -- 0x06: MDRAIN and the swap
  case' h_7 => constructor
  all_goals
    intros
    refine enc3_congr ?_ ?_
  all_goals simp [common_eq_iff, ma_eq_iff, eq_mldbFunction_iff, eq_zero_append_row_iff, eq_zero_append_guard_iff,
    zero_append_shift_eq_iff, zero_append_quarter_eq_iff, eq_l6_iff, *]

theorem decode3_encode {i : Instr} {w : BitVec 32} {e : Byte} {n : Bool} (h : encode i = some ⟨3, w, e, n⟩) :
    decode3 w e = .ok i ∧ n = (e ≠ 0 : Bool) := by
  cases i with
  | mnop =>
    obtain ⟨rfl, rfl, hn⟩ := enc3_inj h
    exact ⟨rfl, hn⟩
  | mldb x sp a g =>
    obtain ⟨hw, rfl, hn⟩ := enc3_inj h
    obtain ⟨⟨⟨⟨⟨hop, hd⟩, rfl⟩, hb⟩, hf⟩, rfl⟩ := common_eq_iff.1 hw
    refine ⟨?_, hn⟩
    unfold decode3
    rw [hop, hd, hb, hf]
    cases sp <;> cases x <;> rfl
  | mpush o | macc o =>
    obtain ⟨hw, rfl, hn⟩ := enc3_inj h
    obtain ⟨⟨⟨⟨⟨hop, hd⟩, ha⟩, hb⟩, hf⟩, hg⟩ := common_eq_iff.1 hw
    obtain ⟨hz, hr⟩ := eq_zero_append_row_iff.1 hb
    refine ⟨?_, hn⟩
    unfold decode3
    rw [hop, hd, ha, hf, hg]
    exact (demand_true rfl _ _).trans (by rw [hz, hr]; rfl)
  | mdrain o =>
    obtain ⟨hw, rfl, hn⟩ := enc3_inj h
    obtain ⟨⟨⟨⟨⟨hop, hd⟩, ha⟩, hb⟩, hf⟩, hg⟩ := common_eq_iff.1 hw
    obtain ⟨hz, hr⟩ := eq_zero_append_row_iff.1 hb
    refine ⟨?_, hn⟩
    unfold decode3
    rw [hop, hd, ha, hf, hg]
    exact (if_neg (by decide)).trans ((demand_true rfl _ _).trans (by rw [hz, hr]; rfl))
  | mshift o m =>
    obtain ⟨hw, he, hn⟩ := enc3_inj h
    obtain ⟨⟨⟨⟨⟨hop, hd⟩, ha⟩, hb⟩, hf⟩, hg⟩ := common_eq_iff.1 hw
    obtain ⟨hz, hr⟩ := eq_zero_append_row_iff.1 hb
    obtain ⟨hez, rfl⟩ := zero_append_shift_eq_iff.1 he
    refine ⟨?_, hn⟩
    unfold decode3
    rw [hop, hd, ha, hf, hg, hez]
    exact (demand_true rfl _ _).trans (by rw [hz, hr]; rfl)
  | mdrainSwap g | mzero t g =>
    obtain ⟨hw, rfl, hn⟩ := enc3_inj h
    obtain ⟨⟨⟨⟨⟨hop, hd⟩, ha⟩, hb⟩, hf⟩, rfl⟩ := common_eq_iff.1 hw
    refine ⟨?_, hn⟩
    unfold decode3
    rw [hop, hd, ha, hb, hf]
    rfl
  | mwbf x r y g | acld x r g | acst x r g =>
    obtain ⟨hw, rfl, hn⟩ := enc3_inj h
    obtain ⟨⟨⟨⟨⟨hop, rfl⟩, ha⟩, hb⟩, hf⟩, rfl⟩ := common_eq_iff.1 hw
    refine ⟨?_, hn⟩
    unfold decode3
    rw [hop, hb, hf]
    exact take_of_some (reg4_eq_some_iff.2 ha) _ _
  | acmovv v p g | acmova v p g =>
    obtain ⟨hw, rfl, hn⟩ := enc3_inj h
    obtain ⟨⟨⟨⟨⟨⟨hop, rfl⟩, hhi⟩, rfl⟩, hlo⟩, hf⟩, rfl⟩ := ma_eq_iff.1 hw
    refine ⟨?_, hn⟩
    unfold decode3
    rw [hop, hhi, hlo, hf]
    rfl
  | ldrcfg l x y g =>
    obtain ⟨hw, rfl, hn⟩ := enc3_inj h
    obtain ⟨⟨⟨⟨⟨hop, hd⟩, rfl⟩, rfl⟩, hf⟩, rfl⟩ := common_eq_iff.1 hw
    obtain ⟨hz, rfl⟩ := eq_l6_iff.1 hd
    refine ⟨?_, hn⟩
    unfold decode3
    rw [hop, hf]
    exact if_pos hz
  | ldrstep l t g | ldrread l t g =>
    obtain ⟨hw, rfl, hn⟩ := enc3_inj h
    obtain ⟨⟨⟨⟨⟨hop, hd⟩, ha⟩, rfl⟩, hf⟩, rfl⟩ := common_eq_iff.1 hw
    obtain ⟨hz, rfl⟩ := eq_l6_iff.1 hd
    refine ⟨?_, hn⟩
    unfold decode3
    rw [hop, ha, hf]
    exact if_pos hz
  | ldrclr l g =>
    obtain ⟨hw, rfl, hn⟩ := enc3_inj h
    obtain ⟨⟨⟨⟨⟨hop, hd⟩, ha⟩, hb⟩, hf⟩, rfl⟩ := common_eq_iff.1 hw
    obtain ⟨hz, rfl⟩ := eq_l6_iff.1 hd
    refine ⟨?_, hn⟩
    unfold decode3
    rw [hop, ha, hb, hf]
    exact if_pos hz
  | ldrcnt d l g =>
    obtain ⟨hw, rfl, hn⟩ := enc3_inj h
    obtain ⟨⟨⟨⟨⟨hop, rfl⟩, ha⟩, hb⟩, hf⟩, rfl⟩ := common_eq_iff.1 hw
    obtain ⟨hz, rfl⟩ := eq_l6_iff.1 ha
    refine ⟨?_, hn⟩
    unfold decode3
    rw [hop, hb, hf]
    exact if_pos hz
  | ldrsave l x g | ldrload l x g =>
    obtain ⟨hw, rfl, hn⟩ := enc3_inj h
    obtain ⟨⟨⟨⟨⟨hop, hd⟩, ha⟩, hb⟩, hf⟩, rfl⟩ := common_eq_iff.1 hw
    obtain ⟨hz, rfl⟩ := eq_l6_iff.1 hd
    refine ⟨?_, hn⟩
    unfold decode3
    rw [hop, hb, hf]
    exact (if_pos hz).trans (take_of_some (reg4_eq_some_iff.2 ha) _ _)
  | ldrrung d gd l lv q g =>
    obtain ⟨hw, he, hn⟩ := enc3_inj h
    obtain ⟨⟨⟨⟨⟨hop, rfl⟩, ha⟩, hb⟩, hf⟩, rfl⟩ := common_eq_iff.1 hw
    obtain ⟨hz, rfl⟩ := eq_l6_iff.1 ha
    obtain ⟨hfz, rfl⟩ := eq_zero_append_guard_iff.1 hf
    obtain ⟨hez, rfl⟩ := zero_append_quarter_eq_iff.1 he
    refine ⟨?_, hn⟩
    unfold decode3
    rw [hop, hez]
    exact (demand_true (decide_eq_true hfz) _ _).trans ((if_pos hz).trans (take_of_some (reg4_eq_some_iff.2 hb) _ _))
  | aadd d a b g => cases b <;> cases h
  | copy d s len g => cases len <;> cases h
  | copym d s len m g => cases len <;> cases h
  | _ => cases h

/-! ### Slot 1: engine commands (R231) -/

theorem enc1_congr {v w : BitVec 32} {x e : Byte} (h : v = w) (he : x = e) : enc1 v x = enc1 w e := by rw [h, he]

theorem enc1_inj {v w : BitVec 32} {x e : Byte} {n : Bool} (h : enc1 v x = some ⟨1, w, e, n⟩) :
    v = w ∧ x = e ∧ n = (e ≠ 0 : Bool) := by
  simp only [enc1, Option.some.injEq, Enc.mk.injEq, true_and] at h
  obtain ⟨hw, rfl, hn⟩ := h
  exact ⟨hw, rfl, hn.symm⟩

theorem relayByte_eq_iff {e : Byte} {lay : BitVec 4} {t : Bool} : lay ++ 0#3 ++ BitVec.ofBool t = e ↔
    (e.extractLsb' 4 4 = lay ∧ e.extractLsb' 1 3 = 0) ∧ e.getLsbD 0 = t := by
  rw [append_eq_iff (n := 4 + 3), extractLsb'_eq_append_iff, extractLsb'_eq_ofBool_iff]
  exact Iff.rfl

theorem overwriteByte_eq_iff {e : Byte} {t : Bool} : 0#7 ++ BitVec.ofBool t = e ↔ e.extractLsb' 1 7 = 0 ∧ e.getLsbD 0 = t := by
  rw [append_eq_iff (n := 7), extractLsb'_eq_ofBool_iff]
  exact Iff.rfl

theorem eq_zero_append_sump_iff {v : BitVec 8} {n : BitVec 2} : v = 0#6 ++ n ↔ v.extractLsb' 2 6 = 0 ∧ v.extractLsb' 0 2 = n :=
  eq_comm.trans (append_eq_iff (n := 6))

theorem eq_zero_append_nb_iff {v : BitVec 8} {k : BitVec 3} : v = 0#5 ++ k ↔ v.extractLsb' 3 5 = 0 ∧ v.extractLsb' 0 3 = k :=
  eq_comm.trans (append_eq_iff (n := 5))

/-- A copy's destination, with a length of bytes, and with a length in a register (R231). -/
theorem eq_copyImm_iff {v : BitVec 8} {x : BitVec 6} :
    v = z8 x ↔ v.getLsbD 7 = false ∧ v.getLsbD 6 = false ∧ v.extractLsb' 0 6 = x := by
  rw [z8, show 0#2 = BitVec.ofBool false ++ BitVec.ofBool false by decide]
  exact eq_comm.trans bits_append_eq_iff

theorem eq_copyReg_iff {v : BitVec 8} {x : BitVec 6} :
    v = 2#2 ++ x ↔ v.getLsbD 7 = true ∧ v.getLsbD 6 = false ∧ v.extractLsb' 0 6 = x := by
  rw [show 2#2 = BitVec.ofBool true ++ BitVec.ofBool false by decide]
  exact eq_comm.trans bits_append_eq_iff

theorem eq_append_low {e : Byte} {x : BitVec 6} : (e ++ x : BitVec 14).extractLsb' 0 6 = x := BitVec.extractLsb'_append_eq_right

theorem eq_append_high {e : Byte} {x : BitVec 6} : (e ++ x : BitVec 14).extractLsb' 6 8 = e := BitVec.extractLsb'_append_eq_left

theorem decodeEngine_encodes (w : BitVec 32) (e : Byte) : Yields (decodeEngine w e) fun i => encode i = enc1 w e := by
  simp only [decodeEngine]
  split
  case h_29 => exact yields_error
  all_goals
    rename_i hop
    simp only [yields_demand, yields_take, yields_ok, yields_ite, reg6_eq_some_iff, EAddr.ofField_eq_some_iff,
      RedOp.ofCode_eq_some_iff, Bool.and_eq_true, Bool.not_eq_true', decide_eq_true_eq, and_imp]
  -- COPY
  case h_1  =>
    intro h6 dst hdst v hv src hsrc
    refine ⟨fun h7 he => ?_, fun h7 => ?_⟩
    · exact enc1_congr (ae_eq_iff.2 ⟨⟨⟨⟨hop, eq_copyReg_iff.2 ⟨h7, h6, hdst⟩⟩, by rw [hv, hsrc]⟩, rfl⟩, rfl⟩) he.symm
    · have h7' := Bool.eq_false_iff.2 h7
      exact enc1_congr (ae_eq_iff.2 ⟨⟨⟨⟨hop, eq_copyImm_iff.2 ⟨h7', h6, hdst⟩⟩, by rw [hv, hsrc]⟩, eq_append_low.symm⟩, rfl⟩)
        eq_append_high
  case h_2 =>
    intro h6 dst hdst v hv src hsrc
    refine ⟨fun h7 l hl => ?_, fun h7 => ?_⟩
    · exact enc1_congr (ae_eq_iff.2 ⟨⟨⟨⟨hop, eq_copyReg_iff.2 ⟨h7, h6, hdst⟩⟩, by rw [hv, hsrc]⟩, rfl⟩, rfl⟩) hl.symm
    · have h7' := Bool.eq_false_iff.2 h7
      exact enc1_congr (ae_eq_iff.2 ⟨⟨⟨⟨hop, eq_copyImm_iff.2 ⟨h7', h6, hdst⟩⟩, by rw [hv, hsrc]⟩, rfl⟩, rfl⟩) rfl
  -- SPLOPEN and its form with a guard
  case h_18 =>
    intro hz he c hc x hx
    refine ⟨fun h1 => ?_, fun h1 => ?_⟩
    · exact enc1_congr (ae_eq_iff.2 ⟨⟨⟨⟨hop, hc⟩, h1⟩, hx⟩, rfl⟩) he.symm
    · exact enc1_congr (ae_eq_iff.2 ⟨⟨⟨⟨hop, hc⟩, eq_zero_append_nb_iff.2 ⟨hz, rfl⟩⟩, hx⟩, rfl⟩) he.symm
  all_goals
    intros
    refine enc1_congr ?_ ?_
  all_goals simp [ae_eq_iff, relayByte_eq_iff, overwriteByte_eq_iff, eq_zero_append_sump_iff, *]

@[simp] theorem reg6_z8 (x : BitVec 6) : reg6 (z8 x) = some x := reg6_eq_some_iff.2 rfl

@[simp] theorem reg4_z6 (x : BitVec 4) : reg4 (z6 x) = some x := reg4_eq_some_iff.2 rfl

@[simp] theorem EAddr.ofField_field (x : EAddr) : EAddr.ofField x.field = some x := EAddr.ofField_eq_some_iff.2 rfl

@[simp] theorem StQual.ofCode_code (q : StQual) : StQual.ofCode q.code = some q := StQual.ofCode_eq_some_iff.2 rfl

@[simp] theorem RedOp.ofCode_code (x : RedOp) : RedOp.ofCode x.code = some x := RedOp.ofCode_eq_some_iff.2 rfl

theorem decode1_engine {w : BitVec 32} (h : 0x20 ≤ (op w).toNat) (ext : Option Byte) :
    decode1 w ext = decodeEngine w (ext.getD 0) := if_neg (Nat.not_lt.2 h)

theorem decode1_addr {w : BitVec 32} (h : (op w).toNat < 0x20) (ext : Option Byte) :
    decode1 w ext = decodeAddr w ext := if_pos h

section
variable {o x y z : BitVec 6} {g : BitVec 4}

theorem op_common {f : BitVec 4} : op (common o x y z f g) = o := (common_eq_iff.1 rfl).1.1.1.1.1

theorem op_sb {disp : BitVec 22} : op (sb o disp g) = o := (sb_eq_iff.1 rfl).1.1

theorem op_aw {r : BitVec 4} {base : BitVec 2} {off : BitVec 16} : op (aw o r base off g) = o := (aw_eq_iff.1 rfl).1.1.1.1

theorem op_af {sc : BitVec 3} {st : BitVec 8} : op (af o x sc st g) = o := (af_eq_iff.1 rfl).1.1.1.1.1.1

theorem op_ab {n : BitVec 10} : op (ab o n z g) = o := (ab_eq_iff.1 rfl).1.1.1.1.1

theorem op_ae {u v : BitVec 8} : op (ae o u v z g) = o := (ae_eq_iff.1 rfl).1.1.1.1

end

theorem decodeEngine_encode {i : Instr} {w : BitVec 32} {e : Byte} {n : Bool} (hwf : i.WellFormed)
    (h : encode i = some ⟨1, w, e, n⟩) (hop : 0x20 ≤ (op w).toNat) : decodeEngine w e = .ok i ∧ n = (e ≠ 0 : Bool) := by
  cases i with
  | ewadd o | ewmul o | ewfma o | ewmax o | gemv o | gemm o =>
    obtain ⟨hw, rfl, hn⟩ := enc1_inj h
    obtain ⟨⟨⟨⟨hop, h0⟩, h1⟩, h2⟩, hg⟩ := ae_eq_iff.1 hw
    refine ⟨?_, hn⟩
    unfold decodeEngine
    rw [hop, h0, h1, h2, hg]
    rfl
  | copy dst src len g =>
    cases len with
    | imm u =>
      obtain ⟨hw, rfl, hn⟩ := enc1_inj h
      obtain ⟨⟨⟨⟨hop, h0⟩, h1⟩, h2⟩, rfl⟩ := ae_eq_iff.1 hw
      obtain ⟨h7, h6, hd⟩ := eq_copyImm_iff.1 h0
      have hu : u.extractLsb' 6 8 ++ e2 w = u := append_eq_iff.2 ⟨rfl, h2.symm⟩
      refine ⟨?_, hn⟩
      unfold decodeEngine
      rw [hop, h1]
      simp only [h7, h6, hd, reg6_z8, EAddr.ofField_field, take_some, hu]
      rfl
    | reg r =>
      obtain ⟨hw, rfl, hn⟩ := enc1_inj h
      obtain ⟨⟨⟨⟨hop, h0⟩, h1⟩, rfl⟩, rfl⟩ := ae_eq_iff.1 hw
      obtain ⟨h7, h6, hd⟩ := eq_copyReg_iff.1 h0
      refine ⟨?_, hn⟩
      unfold decodeEngine
      rw [hop, h1]
      simp only [h7, h6, hd, reg6_z8, EAddr.ofField_field, take_some]
      rfl
  | copym dst src len m g =>
    cases len with
    | imm u =>
      obtain ⟨hw, rfl, hn⟩ := enc1_inj h
      obtain ⟨⟨⟨⟨hop, h0⟩, h1⟩, rfl⟩, rfl⟩ := ae_eq_iff.1 hw
      obtain ⟨h7, h6, hd⟩ := eq_copyImm_iff.1 h0
      refine ⟨?_, hn⟩
      unfold decodeEngine
      rw [hop, h1]
      simp only [h7, h6, hd, reg6_z8, EAddr.ofField_field, take_some]
      rfl
    | reg r =>
      obtain ⟨hw, rfl, hn⟩ := enc1_inj h
      obtain ⟨⟨⟨⟨hop, h0⟩, h1⟩, rfl⟩, rfl⟩ := ae_eq_iff.1 hw
      obtain ⟨h7, h6, hd⟩ := eq_copyReg_iff.1 h0
      refine ⟨?_, hn⟩
      unfold decodeEngine
      rw [hop, h1]
      simp only [h7, h6, hd, reg6_z8, EAddr.ofField_field, take_some]
      rfl
  | relay t d s lay vc g => 
    obtain ⟨hw, he, hn⟩ := enc1_inj h
    obtain ⟨⟨⟨⟨hop, rfl⟩, rfl⟩, rfl⟩, rfl⟩ := ae_eq_iff.1 hw
    obtain ⟨⟨rfl, hz⟩, rfl⟩ := relayByte_eq_iff.1 he
    refine ⟨?_, hn⟩
    unfold decodeEngine
    rw [hop, hz]
    rfl
  | ewcvt ovn d a p g => 
    obtain ⟨hw, he, hn⟩ := enc1_inj h
    obtain ⟨⟨⟨⟨hop, rfl⟩, rfl⟩, rfl⟩, rfl⟩ := ae_eq_iff.1 hw
    obtain ⟨hz, rfl⟩ := overwriteByte_eq_iff.1 he
    refine ⟨?_, hn⟩
    unfold decodeEngine
    rw [hop, hz]
    rfl
  | splopenNb c k x g =>
    obtain ⟨hw, rfl, hn⟩ := enc1_inj h
    obtain ⟨⟨⟨⟨hop, h0⟩, h1⟩, h2⟩, rfl⟩ := ae_eq_iff.1 hw
    obtain ⟨hz, hk⟩ := eq_zero_append_nb_iff.1 h1
    have hne : e1 w ≠ 0 := fun h => of_decide_eq_true (show decide (k ≠ 0) = true from hwf) (by rw [← hk, h]; rfl)
    refine ⟨?_, hn⟩
    unfold decodeEngine
    rw [hop, h0, h2]
    simp only [hz, hk, hne, if_false, reg6_z8, EAddr.ofField_field, take_some]
    rfl
  | sumpcfg m r g =>
    obtain ⟨hw, rfl, hn⟩ := enc1_inj h
    obtain ⟨⟨⟨⟨hop, h0⟩, h1⟩, h2⟩, rfl⟩ := ae_eq_iff.1 hw
    obtain ⟨hz, rfl⟩ := eq_zero_append_sump_iff.1 h0
    refine ⟨?_, hn⟩
    unfold decodeEngine
    rw [hop, h1, h2]
    simp only [hz, reg6_z8, take_some]
    rfl
  | reduce rop d s p g => 
    obtain ⟨hw, rfl, hn⟩ := enc1_inj h
    obtain ⟨⟨⟨⟨hop, rfl⟩, rfl⟩, rfl⟩, rfl⟩ := ae_eq_iff.1 hw
    refine ⟨?_, hn⟩
    unfold decodeEngine
    rw [hop, RedOp.ofCode_code]
    rfl
  | placeq | attn | kvfind | kvapp | kvfree | setband | splopen | splarv | splclose | splstat | nxwr | nxrd | nxamo
  | nxwait | nxstat | launch =>
    obtain ⟨hw, rfl, hn⟩ := enc1_inj h
    obtain ⟨⟨⟨⟨hop, h0⟩, h1⟩, h2⟩, hg⟩ := ae_eq_iff.1 hw
    refine ⟨?_, hn⟩
    unfold decodeEngine
    rw [hop, h0, h1, h2, hg]
    simp only [reg6_z8, EAddr.ofField_field, take_some]
    rfl
  -- opcodes below 0x20
  | amov | ld | st | ldv | stv | ldvs | stvs | ldvx | stvx | pref | amo | cas | fewait | wait =>
    cases h
    rw [op_common] at hop
    exact absurd hop (by decide)
  | asetm m d x inc len g =>
    cases h
    rw [op_common] at hop
    exact absurd hop (by cases m <;> decide)
  | aadd d x b g =>
    cases b
    all_goals
      cases h
      rw [op_common] at hop
      exact absurd hop (by decide)
  | alea =>
    cases h
    rw [op_aw] at hop
    exact absurd hop (by decide)
  | fence =>
    cases h
    rw [op_af] at hop
    exact absurd hop (by decide)
  | barinit | bararv | barwt | bararw =>
    cases h
    rw [op_ab] at hop
    exact absurd hop (by decide)
  | snap =>
    cases h
    rw [op_sb] at hop
    exact absurd hop (by decide)
  | _ => cases h

/-! ### Slot 1: addresses, memory and synchronisation (R153) -/

/-- The word `w` of slot `k` with the lent byte `ext` is the encoding of `i`. -/
def EncodesAs (i : Instr) (k : Nat) (w : BitVec 32) (ext : Option Byte) : Prop :=
  ∃ e n, encode i = some ⟨k, w, e, n⟩ ∧ lends ext e n

theorem EncodesAs.of_word {i : Instr} {k : Nat} {v w : BitVec 32} {ext : Option Byte} {e : Byte} {n : Bool}
    (hi : encode i = some ⟨k, v, e, n⟩) (h : v = w) (hl : lends ext e n) : EncodesAs i k w ext :=
  ⟨e, n, h ▸ hi, hl⟩

theorem EncodesAs.of_enc1 {v w : BitVec 32} {e : Byte} {ext : Option Byte} {i : Instr} (hi : encode i = enc1 v e) (h : v = w)
    (he : ext.getD 0 = e) : EncodesAs i 1 w ext :=
  .of_word hi h (lends_nonzero_iff.2 he)

/-- A row with a memory operand. -/
theorem EncodesAs.of_mem {w : BitVec 32} {ext : Option Byte} {m : MemOp} {i : Instr} {o d : BitVec 6} {f : BitVec 4}
    {g : GuardF} (hi : encode i = encMem o d f m g) (hm : MemOp.ofFields (a w) (b w) ext = .ok m) (hop : op w = o)
    (hd : Layout.d w = d) (hf : Layout.f w = f) (hg : Layout.g w = g) : EncodesAs i 1 w ext := by
  obtain ⟨ha, hb, hl⟩ := MemOp.ofFields_ok_iff.1 hm
  exact .of_word hi (common_eq_iff.2 ⟨⟨⟨⟨⟨hop, hd⟩, ha.symm⟩, hb.symm⟩, hf⟩, hg⟩) hl

/-- A row with an immediate of 6 or 14 bits. -/
theorem EncodesAs.of_imm14 {v w : BitVec 32} {ext : Option Byte} {i : Instr} {x : BitVec 14} 
    (hi : encode i = some ⟨1, v, x.extractLsb' 6 8, imm14Needs x⟩) (hx : imm14 (b w) ext = x)
    (h : b w = x.extractLsb' 0 6 → v = w) : EncodesAs i 1 w ext := by
  obtain ⟨hlow, hl⟩ := imm14_eq_iff.1 hx
  exact .of_word hi (h hlow.symm) hl

theorem eq_pair_iff {v : BitVec 4} {x y : BitVec 2} : v = x ++ y ↔ v.extractLsb' 2 2 = x ∧ v.extractLsb' 0 2 = y :=
  eq_comm.trans (append_eq_iff (n := 2))

theorem eq_append_zero_iff {v : BitVec 6} {x : BitVec 4} : v = x ++ 0#2 ↔ v.extractLsb' 2 4 = x ∧ v.extractLsb' 0 2 = 0 :=
  eq_comm.trans (append_eq_iff (n := 4))

theorem eq_casFunction_iff {v : BitVec 4} {ar wide : Bool} : v = BitVec.ofBool ar ++ 0#2 ++ BitVec.ofBool wide ↔
    (v.getLsbD 3 = ar ∧ v.extractLsb' 1 2 = 0) ∧ v.getLsbD 0 = wide := by
  rw [eq_comm, append_eq_iff (n := 1 + 2), extractLsb'_eq_append_iff, extractLsb'_eq_ofBool_iff, extractLsb'_eq_ofBool_iff]
  exact Iff.rfl

theorem eq_fewaitFunction_iff {v : BitVec 4} {clr : Bool} : v = 0#3 ++ BitVec.ofBool clr ↔
    v.extractLsb' 1 3 = 0 ∧ v.getLsbD 0 = clr := by
  rw [eq_comm, append_eq_iff (n := 3), extractLsb'_eq_ofBool_iff]
  exact Iff.rfl

theorem decodeAddr_encodes (w : BitVec 32) (ext : Option Byte) :
    Yields (decodeAddr w ext) fun i => i = .nop ∨ EncodesAs i 1 w ext := by
  simp only [decodeAddr]
  split
  case h_28 => exact yields_error
  -- opcode 0x00: the empty slot
  case h_1 =>
    simp only [yields_demand, yields_ok]
    exact fun _ _ => .inl trivial
  -- 0x08 to 0x10: a memory operand
  case h_9 hop | h_10 hop | h_11 hop | h_12 hop | h_13 hop | h_14 hop | h_15 hop | h_16 hop | h_17 hop =>
    split
    case h_2 => exact yields_error
    simp only [yields_demand, yields_take, yields_ok, StQual.ofCode_eq_some_iff, Bool.and_eq_true, decide_eq_true_eq, and_imp]
    intros
    refine .inr (.of_mem rfl ‹_› hop ?_ ?_ rfl)
    all_goals simp [eq_pair_iff, *]
  all_goals
    rename_i hop
    simp only [yields_demand, yields_take, yields_ok, reg4_eq_some_iff, Scope.ofCode_eq_some_iff,
      AleaBase.ofCode_eq_some_iff, Bool.and_eq_true, decide_eq_true_eq, and_imp]
  -- 0x01: AMOV
  case h_2 =>
    intro he hb
    split
    case h_4 => exact yields_error
    all_goals exact yields_ok.2 (.inr (.of_enc1 rfl (common_eq_iff.2 ⟨⟨⟨⟨⟨hop, rfl⟩, rfl⟩, hb⟩, ‹_›⟩, rfl⟩) he))
  -- 0x02: AADD
  case h_3 =>
    intro d hd x ha
    split
    case h_1 hf =>
      simp only [yields_demand, yields_ok, decide_eq_true_eq]
      intro he
      exact .inr (.of_enc1 rfl (common_eq_iff.2 ⟨⟨⟨⟨⟨hop, hd⟩, ha⟩, rfl⟩, hf⟩, rfl⟩) he)
    case h_2 hf =>
      exact yields_ok.2 (.inr (.of_imm14 rfl rfl fun hb => common_eq_iff.2 ⟨⟨⟨⟨⟨hop, hd⟩, ha⟩, hb⟩, hf⟩, rfl⟩))
    case h_3 => exact yields_error
  -- 0x03: ALEA
  case h_4 =>
    intro base hbase
    obtain ⟨hlow, hl⟩ := off24_eq_iff.1 (Eq.refl (off24 base (w.extractLsb' 4 16) ext))
    exact .inr (.of_word rfl (aw_eq_iff.2 ⟨⟨⟨⟨hop, rfl⟩, hbase⟩, hlow.symm⟩, rfl⟩) hl)
  -- 0x04 to 0x07: ASETM
  case h_5 | h_6 | h_7 | h_8 =>
    intro d hd x ha
    exact .inr (.of_imm14 rfl rfl fun hb => common_eq_iff.2 ⟨⟨⟨⟨⟨hop, hd⟩, ha⟩, hb⟩, rfl⟩, rfl⟩)
  -- 0x11, 0x12: AMO and CAS
  case h_18 =>
    intro he ha
    refine .inr (.of_enc1 rfl (common_eq_iff.2 ⟨⟨⟨⟨⟨hop, rfl⟩, eq_append_zero_iff.2 ⟨rfl, ha⟩⟩, rfl⟩, ?_⟩, rfl⟩) he)
    exact (function_eq_iff.2 ⟨rfl, (AmoOp.code_ofCode _).symm⟩).symm
  case h_19 =>
    intro he ha hf
    exact .inr (.of_enc1 rfl (common_eq_iff.2
      ⟨⟨⟨⟨⟨hop, rfl⟩, eq_append_zero_iff.2 ⟨rfl, ha⟩⟩, rfl⟩, eq_casFunction_iff.2 ⟨⟨rfl, hf⟩, rfl⟩⟩, rfl⟩) he)
  -- 0x13: FEWAIT
  case h_20 =>
    intro ha hf
    exact .inr (.of_imm14 rfl rfl fun hb => common_eq_iff.2
      ⟨⟨⟨⟨⟨hop, rfl⟩, eq_append_zero_iff.2 ⟨rfl, ha⟩⟩, hb⟩, eq_fewaitFunction_iff.2 ⟨hf, rfl⟩⟩, rfl⟩)
  -- 0x14: FENCE
  case h_21 =>
    intro hz hf sc hsc
    exact .inr (.of_enc1 rfl (af_eq_iff.2 ⟨⟨⟨⟨⟨⟨hop, rfl⟩, hsc⟩, hz⟩, BitVec.extractLsb'_append_eq_right.symm⟩, hf⟩, rfl⟩)
      BitVec.extractLsb'_append_eq_left.symm)
  -- 0x15: WAIT
  case h_22 =>
    intro he hb hf
    exact .inr (.of_enc1 rfl (common_eq_iff.2 ⟨⟨⟨⟨⟨hop, rfl⟩, rfl⟩, hb⟩, hf⟩, rfl⟩) he)
  -- 0x16, 0x17, 0x19: barriers with a count
  case h_23 | h_24 | h_26 =>
    intro hz hf
    exact .inr (.of_enc1 rfl (ab_eq_iff.2 ⟨⟨⟨⟨⟨hop, rfl⟩, hz⟩, BitVec.extractLsb'_append_eq_right.symm⟩, hf⟩, rfl⟩)
      BitVec.extractLsb'_append_eq_left.symm)
  -- 0x18: BARWT
  case h_25 =>
    intro hz hf hc
    obtain ⟨he, hb⟩ := append_eq_iff.1 hc
    exact .inr (.of_enc1 rfl (ab_eq_iff.2 ⟨⟨⟨⟨⟨hop, rfl⟩, hz⟩, hb.symm⟩, hf⟩, rfl⟩) he.symm)
  -- 0x1A: SNAP
  case h_27 =>
    intro he hz
    exact .inr (.of_enc1 rfl (sb_eq_iff.2 ⟨⟨hop, hz⟩, rfl⟩) he)

theorem encMem_inj {o d : BitVec 6} {f : BitVec 4} {m : MemOp} {g : GuardF} {w : BitVec 32} {e : Byte} {n : Bool}
    {ext : Option Byte} (h : encMem o d f m g = some ⟨1, w, e, n⟩) (hl : lends ext e n) :
    ((((op w = o ∧ Layout.d w = d) ∧ MemOp.ofFields (a w) (b w) ext = .ok m) ∧ Layout.f w = f) ∧ Layout.g w = g) := by
  simp only [encMem, Option.some.injEq, Enc.mk.injEq, true_and] at h
  obtain ⟨hw, rfl, rfl⟩ := h
  obtain ⟨⟨⟨⟨⟨hop, hd⟩, ha⟩, hb⟩, hf⟩, hg⟩ := common_eq_iff.1 hw
  exact ⟨⟨⟨⟨hop, hd⟩, MemOp.ofFields_ok_iff.2 ⟨ha.symm, hb.symm, hl⟩⟩, hf⟩, hg⟩

theorem enc_inj {k : Nat} {v w : BitVec 32} {x e : Byte} {m n : Bool} (h : some (Enc.mk k v x m) = some ⟨k, w, e, n⟩) :
    v = w ∧ x = e ∧ m = n := by
  simpa using h

/-- A row with an immediate of 6 or 14 bits. -/
theorem imm14_of_enc {v w : BitVec 32} {x : BitVec 14} {e : Byte} {n : Bool} {ext : Option Byte}
    (h : some (Enc.mk 1 v (x.extractLsb' 6 8) (imm14Needs x)) = some ⟨1, w, e, n⟩) (hl : lends ext e n) :
    v = w ∧ imm14 (x.extractLsb' 0 6) ext = x := by
  obtain ⟨hw, rfl, rfl⟩ := enc_inj h
  exact ⟨hw, imm14_eq_iff.2 ⟨rfl, hl⟩⟩

/-- A barrier's count, and a fence's streams, have their high byte in the header. -/
theorem append_of_getD {m : Nat} {ext : Option Byte} {x : BitVec (8 + m)} (h : ext.getD 0 = x.extractLsb' m 8) :
    ext.getD 0 ++ x.extractLsb' 0 m = x := append_eq_iff.2 ⟨h.symm, rfl⟩

theorem enc1_inj_lent {v w : BitVec 32} {x e : Byte} {n : Bool} {ext : Option Byte} (h : enc1 v x = some ⟨1, w, e, n⟩)
    (hl : lends ext e n) : v = w ∧ ext.getD 0 = x := by
  obtain ⟨hw, rfl, rfl⟩ := enc1_inj h
  exact ⟨hw, lends_nonzero_iff.1 hl⟩

theorem decodeAddr_encode {i : Instr} {w : BitVec 32} {e : Byte} {n : Bool} {ext : Option Byte}
    (h : encode i = some ⟨1, w, e, n⟩) (hl : lends ext e n) (hop : (op w).toNat < 0x20) : decodeAddr w ext = .ok i := by
  cases i with
  | amov k d x g =>
    obtain ⟨hw, he⟩ := enc1_inj_lent h hl
    obtain ⟨⟨⟨⟨⟨hop, rfl⟩, rfl⟩, hb⟩, hf⟩, rfl⟩ := common_eq_iff.1 hw
    unfold decodeAddr
    rw [hop, he, hb, hf]
    cases k <;> rfl
  | aadd d x y g =>
    cases y with
    | reg r =>
      obtain ⟨hw, he⟩ := enc1_inj_lent h hl
      obtain ⟨⟨⟨⟨⟨hop, hd⟩, ha⟩, rfl⟩, hf⟩, rfl⟩ := common_eq_iff.1 hw
      unfold decodeAddr
      rw [hop, he, hd, ha, hf]
      simp only [reg4_z6, take_some]
      rfl
    | imm v =>
      obtain ⟨hw, hv⟩ := imm14_of_enc h hl
      obtain ⟨⟨⟨⟨⟨hop, hd⟩, ha⟩, hb⟩, hf⟩, rfl⟩ := common_eq_iff.1 hw
      unfold decodeAddr
      rw [hop, hd, ha, hb, hf]
      simp only [reg4_z6, take_some, hv]
      rfl
  | alea d base off g =>
    obtain ⟨hw, rfl, rfl⟩ := enc_inj h
    obtain ⟨⟨⟨⟨hop, rfl⟩, hbase⟩, hlow⟩, rfl⟩ := aw_eq_iff.1 hw
    unfold decodeAddr
    rw [hop, hbase]
    exact (take_of_some (AleaBase.ofCode_eq_some_iff.2 rfl) _ _).trans (by rw [off24_eq_iff.2 ⟨hlow.symm, hl⟩])
  | asetm m d x inc len g =>
    obtain ⟨hw, hv⟩ := imm14_of_enc h hl
    obtain ⟨⟨⟨⟨⟨hop, hd⟩, ha⟩, hb⟩, rfl⟩, rfl⟩ := common_eq_iff.1 hw
    unfold decodeAddr
    cases m
    all_goals
      rw [hop, hd, ha, hb]
      simp only [reg4_z6, take_some, hv]
      rfl
  | ld sz q d m g =>
    obtain ⟨⟨⟨⟨hop, rfl⟩, hm⟩, hf⟩, rfl⟩ := encMem_inj h hl
    obtain ⟨hq, rfl⟩ := eq_pair_iff.1 hf
    unfold decodeAddr
    rw [hop]
    simp only [hm, hq, LdQual.ofCode_code]
    rfl
  | st sz q d m g =>
    obtain ⟨⟨⟨⟨hop, rfl⟩, hm⟩, hf⟩, rfl⟩ := encMem_inj h hl
    obtain ⟨hq, rfl⟩ := eq_pair_iff.1 hf
    unfold decodeAddr
    rw [hop]
    simp only [hm, hq, StQual.ofCode_code, take_some]
    rfl
  | ldv q d m g =>
    obtain ⟨⟨⟨⟨hop, rfl⟩, hm⟩, hf⟩, rfl⟩ := encMem_inj h hl
    obtain ⟨hz, hq⟩ := eq_pair_iff.1 hf
    unfold decodeAddr
    rw [hop]
    simp only [hm, hz, hq, LdQual.ofCode_code]
    rfl
  | stv k d m g | ldvx k d m g | stvx k d m g =>
    obtain ⟨⟨⟨⟨hop, rfl⟩, hm⟩, rfl⟩, rfl⟩ := encMem_inj h hl
    unfold decodeAddr
    rw [hop]
    simp only [hm]
    rfl
  | ldvs k d m g | stvs k d m g =>
    obtain ⟨⟨⟨⟨hop, rfl⟩, hm⟩, hf⟩, rfl⟩ := encMem_inj h hl
    obtain ⟨hz, rfl⟩ := eq_pair_iff.1 hf
    unfold decodeAddr
    rw [hop]
    simp only [hm, hz]
    rfl
  | pref m g =>
    obtain ⟨⟨⟨⟨hop, hd⟩, hm⟩, hf⟩, rfl⟩ := encMem_inj h hl
    unfold decodeAddr
    rw [hop, hd, hf]
    simp only [hm]
    rfl
  | amo ar aop d y x g =>
    obtain ⟨hw, he⟩ := enc1_inj_lent h hl
    obtain ⟨⟨⟨⟨⟨hop, rfl⟩, ha⟩, rfl⟩, hf⟩, rfl⟩ := common_eq_iff.1 hw
    obtain ⟨rfl, hz⟩ := eq_append_zero_iff.1 ha
    obtain ⟨rfl, hfn⟩ := function_eq_iff.1 hf.symm
    unfold decodeAddr
    rw [hop, he]
    simp only [hz, hfn, AmoOp.ofCode_code]
    rfl
  | cas ar wide d y x g =>
    obtain ⟨hw, he⟩ := enc1_inj_lent h hl
    obtain ⟨⟨⟨⟨⟨hop, rfl⟩, ha⟩, rfl⟩, hf⟩, rfl⟩ := common_eq_iff.1 hw
    obtain ⟨rfl, hz⟩ := eq_append_zero_iff.1 ha
    obtain ⟨⟨rfl, hfz⟩, rfl⟩ := eq_casFunction_iff.1 hf
    unfold decodeAddr
    rw [hop, he]
    simp only [hz, hfz]
    rfl
  | fewait clr len x off g =>
    obtain ⟨hw, hv⟩ := imm14_of_enc h hl
    obtain ⟨⟨⟨⟨⟨hop, rfl⟩, ha⟩, hb⟩, hf⟩, rfl⟩ := common_eq_iff.1 hw
    obtain ⟨rfl, hz⟩ := eq_append_zero_iff.1 ha
    obtain ⟨hfz, rfl⟩ := eq_fewaitFunction_iff.1 hf
    unfold decodeAddr
    rw [hop, hb]
    simp only [hz, hfz, hv]
    rfl
  | fence p sc st g =>
    obtain ⟨hw, he⟩ := enc1_inj_lent h hl
    obtain ⟨⟨⟨⟨⟨⟨hop, rfl⟩, hsc⟩, hz⟩, hst⟩, hf⟩, rfl⟩ := af_eq_iff.1 hw
    unfold decodeAddr
    rw [hop, hsc, hz, hst, hf]
    exact (take_of_some (Scope.ofCode_eq_some_iff.2 rfl) _ _).trans (by rw [append_of_getD he])
  | wait c l g =>
    obtain ⟨hw, he⟩ := enc1_inj_lent h hl
    obtain ⟨⟨⟨⟨⟨hop, rfl⟩, rfl⟩, hb⟩, hf⟩, rfl⟩ := common_eq_iff.1 hw
    unfold decodeAddr
    rw [hop, he, hb, hf]
    rfl
  | barinit m c g | bararv m c g | bararw m c g =>
    obtain ⟨hw, he⟩ := enc1_inj_lent h hl
    obtain ⟨⟨⟨⟨⟨hop, rfl⟩, hz⟩, hb⟩, hf⟩, rfl⟩ := ab_eq_iff.1 hw
    unfold decodeAddr
    rw [hop, hz, hb, hf]
    exact (demand_true rfl _ _).trans (by rw [append_of_getD he])
  | barwt m g =>
    obtain ⟨hw, he⟩ := enc1_inj_lent h hl
    obtain ⟨⟨⟨⟨⟨hop, rfl⟩, hz⟩, hb⟩, hf⟩, rfl⟩ := ab_eq_iff.1 hw
    unfold decodeAddr
    rw [hop, he, hz, hb, hf]
    rfl
  | snap g =>
    obtain ⟨hw, he⟩ := enc1_inj_lent h hl
    obtain ⟨⟨hop, hz⟩, rfl⟩ := sb_eq_iff.1 hw
    unfold decodeAddr
    rw [hop, he, hz]
    rfl
  | copy dst src len g =>
    cases len
    all_goals
      cases h
      rw [op_ae] at hop
      exact absurd hop (by decide)
  | copym dst src len m g =>
    cases len
    all_goals
      cases h
      rw [op_ae] at hop
      exact absurd hop (by decide)
  | relay | ewadd | ewmul | ewfma | ewmax | gemv | gemm | ewcvt | reduce | placeq | attn | kvfind | kvapp | kvfree | setband
  | splopen | splopenNb | splarv | splclose | splstat | nxwr | nxrd | nxamo | nxwait | nxstat | launch | sumpcfg =>
    cases h
    rw [op_ae] at hop
    exact absurd hop (by decide)
  | _ => cases h

/-! ### Slots and their words -/

theorem decode1_encodes (w : BitVec 32) (ext : Option Byte) :
    Yields (decode1 w ext) fun i => i = .nop ∨ EncodesAs i 1 w ext := by
  by_cases hop : (op w).toNat < 0x20
  · rw [decode1_addr hop]
    exact decodeAddr_encodes w ext
  · rw [decode1_engine (Nat.not_lt.1 hop)]
    exact fun i hi => .inr (.of_enc1 (decodeEngine_encodes w _ i hi) rfl rfl)

theorem decode1_encode {i : Instr} {w : BitVec 32} {e : Byte} {n : Bool} {ext : Option Byte} (hwf : i.WellFormed)
    (h : encode i = some ⟨1, w, e, n⟩) (hl : lends ext e n) : decode1 w ext = .ok i := by
  by_cases hop : (op w).toNat < 0x20
  · rw [decode1_addr hop]
    exact decodeAddr_encode h hl hop
  · have hop := Nat.not_lt.1 hop
    obtain ⟨hi, rfl⟩ := decodeEngine_encode hwf h hop
    rw [decode1_engine hop, lends_nonzero_iff.1 hl]
    exact hi

/-- What a slot decodes to is an instruction of that slot, whose encoding is the word that was read. -/
theorem decodeFields_encodes {k : Nat} (hk : k < 4) (w : BitVec 32) {ext : Option Byte} (h0 : k = 0 → ext = none) :
    Yields (decodeFields k w ext) fun i => i = .nop ∨ EncodesAs i k w ext := by
  intro i hi
  match k with
  | 0 => exact .inr (.of_word (decode0_encodes w i hi) rfl (by rw [h0 rfl]; rfl))
  | 1 => exact decode1_encodes w ext i hi
  | 2 =>
    obtain hnop | h := decode2_encodes w _ i hi
    · exact .inl hnop
    · exact .inr (.of_word h rfl (lends_nonzero_iff.2 rfl))
  | 3 => exact .inr (.of_word (decode3_encodes w _ i hi) rfl (lends_nonzero_iff.2 rfl))

/-- An encoding stands in one of the four slots, and slot 0 is lent no byte. -/
def Enc.fits (e : Enc) : Bool := decide (e.slot < 4) && (e.slot != 0 || (e.ext == 0 && !e.needs))

theorem encode_fits (i : Instr) : (encode i).all Enc.fits = true := by
  cases i with
  | aadd d a b g => cases b <;> rfl
  | copy d s len g => cases len <;> rfl
  | copym d s len m g => cases len <;> rfl
  | _ => rfl

theorem decodeFields_encode {i : Instr} {e : Enc} {ext : Option Byte} (hwf : i.WellFormed) (h : encode i = some e)
    (hl : lends ext e.ext e.needs) : decodeFields e.slot e.word ext = .ok i := by
  have hfits : e.fits = true := by simpa [h] using encode_fits i
  obtain ⟨slot, w, x, n⟩ := e
  simp only [Enc.fits, Bool.and_eq_true, decide_eq_true_eq] at hfits
  obtain ⟨hslot, hzero⟩ := hfits
  match slot with
  | 0 =>
    obtain ⟨rfl, rfl⟩ : x = 0 ∧ n = false := by simpa using hzero
    exact decode0_encode hwf h
  | 1 => exact decode1_encode hwf h hl
  | 2 =>
    obtain ⟨hi, rfl⟩ := decode2_encode h
    exact (congrArg (decode2 w) (lends_nonzero_iff.1 hl)).trans hi
  | 3 =>
    obtain ⟨hi, rfl⟩ := decode3_encode h
    exact (congrArg (decode3 w) (lends_nonzero_iff.1 hl)).trans hi

theorem demand_ok_iff {α : Type} {c : Bool} {e : DecodeErr} {x : Except DecodeErr α} {y : α} :
    demand c e x = .ok y ↔ c = true ∧ x = .ok y := by
  cases c <;> simp [demand]

/-- A slot's word is an instruction if its fields are and the instruction is within its limits. -/
theorem decodeSlot_ok_iff {k : Nat} {w : BitVec 32} {ext : Option Byte} {i : Instr} :
    decodeSlot k w ext = .ok i ↔ decodeFields k w ext = .ok i ∧ i.WellFormed := by
  unfold decodeSlot
  cases decodeFields k w ext with
  | ok j =>
    refine demand_ok_iff.trans ⟨?_, ?_⟩
    · rintro ⟨hwf, ⟨⟩⟩
      exact ⟨rfl, hwf⟩
    · rintro ⟨⟨⟩, hwf⟩
      exact ⟨hwf, rfl⟩
  | error e => simp

/-- Every instruction that a slot decodes has an encoding. -/
theorem decodeFields_isSome (k : Nat) (w : BitVec 32) (ext : Option Byte) :
    Yields (decodeFields k w ext) fun i => (encode i).isSome = true := by
  intro i hi
  match k with
  | 0 =>
    rw [decode0_encodes w i hi]
    rfl
  | 1 =>
    obtain rfl | ⟨_, _, h, _⟩ := decode1_encodes w ext i hi
    · rfl
    · rw [h]
      rfl
  | 2 =>
    obtain rfl | h := decode2_encodes w _ i hi
    · rfl
    · rw [h]
      rfl
  | _ + 3 =>
    rw [decode3_encodes w _ i hi]
    rfl

end Sys2Proof

namespace Sys2Proof.Rules

open Sys2Proof.Machine

theorem decodeEncodeRound : DecodeEncode := fun _ _ hwf h =>
  ⟨decodeSlot_ok_iff.2 ⟨decodeFields_encode hwf h rfl, hwf⟩, fun hn => decodeSlot_ok_iff.2 ⟨decodeFields_encode hwf h hn, hwf⟩⟩

theorem encodeDecodeRound : EncodeDecode := by
  intro k w b i hk h0 h hnop
  obtain ⟨e, n, hi, hl⟩ := (decodeFields_encodes hk w h0 i (decodeSlot_ok_iff.1 h).1).resolve_left hnop
  refine ⟨_, hi, rfl, rfl, ?_, ?_⟩
  · rintro x rfl
    exact hl
  · rintro rfl
    exact hl

/-- Settles O58: a word and its instruction have the same fields, format by format; each small code is a bijection with its
values. -/
theorem decodeEncode : Obligations.DecodeEncode := ⟨decodeEncodeRound, encodeDecodeRound⟩

theorem decodeSampleWords : DecodeWords := by
  unfold DecodeWords
  decide

theorem decodesWellFormed : DecodesWellFormed := by
  intro k w e i h
  obtain ⟨hi, hwf⟩ := decodeSlot_ok_iff.1 h
  exact ⟨hwf, by simp [isEvent, Option.isNone_eq_false_iff, decodeFields_isSome k w e i hi]⟩

/-- Settles O57: the sample words are decoded; what is decoded has passed the check of its limits, and has an encoding. -/
theorem decodeWords : Obligations.DecodeWords := ⟨decodeSampleWords, decodesWellFormed⟩

end Sys2Proof.Rules

/-! SUPPORT. A false guard (R143): every instruction with a guard tests it before anything else. -/

namespace Sys2Proof.Machine

open Sys2Proof

theorem exec_guard_off {i : Instr} {s : State} (h : s.core.guard i.guardF = false) : exec i s = .next s.clear := by
  unfold exec
  cases i with
  -- slot 0
  | add | sub | and | or | xor | andn | min | max | minu | maxu | shl | shr | sra | rol | mul | mulh | mulhu | div | divu | rem
  | remu | clz | ctz | popc | bfx | bfi | sel | movi | movhi | cmp | fadd | fsub | fmul | fmin | fmax | ffma | fcvt | fcmp
  | fclass | gand | gor | gnot | br | jmp | call | ret | loop | loopReg | setfmt | getf | getid | hops | endTask | drain | trap
  | brk | mfs | mts | eret => exact if_neg (ne_true_of_eq_false h)
  -- slot 1
  | amov | aadd | alea | asetm | ld | st | ldv | stv | ldvs | stvs | ldvx | stvx | pref | amo | cas | fewait | fence | wait
  | barinit | bararv | barwt | bararw | snap | copy | copym | relay | ewadd | ewmul | ewfma | ewmax | ewcvt | gemv | gemm
  | reduce | placeq | attn | kvfind | kvapp | kvfree | setband | splopen | splopenNb | splarv | splclose | splstat | nxwr
  | nxrd | nxamo | nxwait | nxstat | launch | sumpcfg => exact if_neg (ne_true_of_eq_false h)
  -- slot 3
  | mldb | mwbf | mpush | mshift | macc | mdrain | mdrainSwap | mzero | acmovv | acmova | acld | acst | ldrcfg | ldrstep
  | ldrread | ldrrung | ldrcnt | ldrsave | ldrload | ldrclr => exact if_neg (ne_true_of_eq_false h)
  -- no guard
  | _ => exact absurd ((guard_always s.core).symm.trans h) Bool.noConfusion

end Sys2Proof.Machine

namespace Sys2Proof.Rules

open Sys2Proof.Machine

/-- Settles O4: an instruction's guard is tested before anything else, and one without a guard has `g0`, which is never false. -/
theorem falseGuardHasNoEffect : Obligations.FalseGuardHasNoEffect := fun _ _ h => exec_guard_off h

end Sys2Proof.Rules

/-! SUPPORT. No slot instruction stops the machine (R157): the operations that the meanings share answer a next state when what
follows them does, and so does each meaning. -/

namespace Sys2Proof.Machine

open Sys2Proof

/-- The answer is a next state. -/
def Answers (r : Res) : Prop := ∃ t, r = .next t

section
variable {s : State}

/-! ### Answers -/

theorem Answers.ok (s : State) : Answers (ok s) := ⟨_, rfl⟩

theorem Answers.trap (s : State) (t : TrapInfo) : Answers (trap s t) := ⟨_, rfl⟩

theorem Answers.hold (s : State) (w : Hold) : Answers (hold s w) := ⟨_, rfl⟩

theorem Answers.holdAts (s : State) (reqs : List (Nat × Nat × Bool)) : Answers (holdAts s reqs) := ⟨_, rfl⟩

theorem Answers.ite {c : Prop} [Decidable c] {a b : Res} (ha : Answers a) (hb : Answers b) : Answers (if c then a else b) := by
  split
  · exact ha
  · exact hb

/-! ### Checks and captures before the effect (R157, R229) -/

theorem Answers.guarded {g : GuardF} {k : State → Res} (hk : Answers (k s)) : Answers (guarded g s k) := .ite hk (.ok _)

theorem Answers.withRnd {k : Env → Res} (hk : ∀ e, Answers (k e)) : Answers (withRnd s k) := .ite (.trap _ _) (hk _)

theorem Answers.withSel {sel : BitVec 3} {k : Env → Res} (hk : ∀ e, Answers (k e)) : Answers (withSel s sel k) :=
  .ite (.withRnd hk) (hk _)

theorem Answers.withChecked {c : Checked} {k : List Seg → Res} (hk : ∀ segs, Answers (k segs)) : Answers (withChecked s c k) := by
  rcases withChecked_cases s c k with ⟨segs, -, e⟩ | ⟨r, -, e⟩ | ⟨t, -, e⟩ <;> rw [e]
  · exact hk segs
  · exact .holdAts _ r
  · exact .trap _ t

theorem Answers.withBytes {n : Need} {rs : List (Nat × Nat × Nat)} {k : List (Nat × Nat) → Res} (hk : ∀ bs, Answers (k bs)) :
    Answers (withBytes s n rs k) := .withChecked fun _ => hk _

theorem Answers.withLanes {w : Nat} {k : Nat × Nat → Checked} {ls : List (Nat × Nat)} {f : Unit → Res} (hf : Answers (f ())) :
    Answers (withLanes s w k ls f) := .withChecked fun _ => hf

theorem Answers.withRace {pas : List Nat} {k : Unit → Res} (hk : Answers (k ())) : Answers (withRace s pas k) := by
  rcases withRace_cases s pas k with e | ⟨t, e⟩ <;> rw [e]
  · exact hk
  · exact .trap _ t

theorem Answers.withEarly {pas : List Nat} {k : Unit → Res} (hk : Answers (k ())) : Answers (withEarly s pas k) := by
  rcases withEarly_cases s pas k with e | ⟨t, e⟩ <;> rw [e]
  · exact hk
  · exact .trap _ t

theorem Answers.withRead0 {pas : List Nat} {k : List ReadByte → State → Res} (hk : ∀ bs t, Answers (k bs t)) :
    Answers (withRead0 s pas k) := by
  rcases withRead0_cases s pas k with e | e | ⟨t, e⟩ <;> rw [e]
  · exact hk _ _
  · exact .hold _ _
  · exact .trap _ t

theorem Answers.withFull {pas : List Nat} {clr : Bool} {k : State → Res} (hk : ∀ t, Answers (k t)) :
    Answers (withFull s pas clr k) := by
  rcases withFull_cases s pas clr k with ⟨t, -, e⟩ | e <;> rw [e]
  · exact hk _
  · exact .hold _ _

theorem Answers.withChain {l : BitVec 2} {k : Unit → Res} (hk : Answers (k ())) : Answers (withChain s l k) := .ite (.hold _ _) hk

theorem Answers.withAccess {m : MemOp} {k : Access → Res} (hk : ∀ x, Answers (k x)) : Answers (withAccess s m k) := by
  rcases withAccess_cases s m k with ⟨x, -, e⟩ | ⟨-, e⟩ <;> rw [e]
  · exact hk x
  · exact .trap _ _

theorem Answers.capture {va len : Nat} {k : List Byte → State → Res} (hk : ∀ b t, Answers (k b t)) :
    Answers (capture s va len k) := by
  refine .withChecked fun segs => .withRead0 fun bs t => ?_
  simp only
  split
  · exact .trap _ _
  · exact hk _ _

theorem Answers.captureHandle {n : BitVec 8} {k : RawRec → State → Res} (hk : ∀ r t, Answers (k r t)) :
    Answers (captureHandle s n k) := .ite (hk _ _) (.capture fun _ _ => .ite (hk _ _) (.capture fun _ _ => hk _ _))

theorem Answers.captureHandles {hs : List (BitVec 8)} {k : List RawRec → State → Res} (hk : ∀ rs t, Answers (k rs t)) :
    Answers (captureHandles hs s k) := by
  induction hs generalizing s k with
  | nil => exact hk [] s
  | cons n hs ih => exact .captureHandle fun r _ => ih fun rs t => hk (r :: rs) t

theorem Answers.withShapes {rs : List RawRec} {k : List Shape → Res} (hk : ∀ xs, Answers (k xs)) :
    Answers (withShapes s rs k) := by
  induction rs generalizing k with
  | nil => exact hk []
  | cons r rs ih =>
    unfold Machine.withShapes
    split
    · exact ih fun _ => hk _
    · exact .trap _ _

theorem Answers.captureLocator {va : Nat} {k : Locator → State → Res} (hk : ∀ l t, Answers (k l t)) :
    Answers (captureLocator s va k) := by
  refine .ite (.trap _ _) (.withChecked fun segs => .capture fun b t => ?_)
  split
  · exact .trap _ _
  · exact hk _ _

theorem Answers.withTable {l : Locator} {n : Need} {ovs : Nat} {k : Locator → Res} (hk : ∀ l, Answers (k l)) :
    Answers (withTable s l n ovs k) := .withChecked fun _ => .withChecked fun _ => hk _

theorem Answers.submit (s : State) (p : Path) (b : CmdBody) (segs : List Seg) (dest : Option (BitVec 6)) (f : Cmd → Cmd)
    (fin : State → State) : Answers (submit s p b segs dest f fin) := .ite (.hold _ _) (.ok _)

theorem Answers.withSources {k : TopKind} {d : Shape} {srcs rest : List Shape} {vc : Option Nat} {i : Nat}
    {f : List Shape → Res} (hf : ∀ xs, Answers (f xs)) : Answers (withSources s k d srcs vc i rest f) := by
  induction rest generalizing i f with
  | nil => exact hf []
  | cons a r ih => exact .withChecked fun _ => ih fun _ => hf _

theorem Answers.withCtxTable {va len : Nat} {k : List Byte → State → Res} (hk : ∀ b t, Answers (k b t)) :
    Answers (withCtxTable s va len k) := .withChecked fun _ => .ite (.trap _ _) (hk _ _)

theorem Answers.withEndpoint {va : Nat} {ep : BitVec 12} {k : Endpoint → State → Res} (hk : ∀ e t, Answers (k e t)) :
    Answers (withEndpoint s va ep k) := by
  unfold Machine.withEndpoint
  split
  · exact .trap _ _
  · refine .ite (.trap _ _) (.withCtxTable fun b t => ?_)
    split
    · exact .trap _ _
    · exact hk _ _

theorem Answers.withEntropy {set : BitVec 6} {k : List (BitVec 16) → State → Res} (hk : ∀ vs t, Answers (k vs t)) :
    Answers (withEntropy s set k) := by
  unfold Machine.withEntropy
  split
  · exact hk _ _
  · exact .withCtxTable fun _ _ => hk _ _

/-! ### Slot 0 (R160 to R184) -/

theorem answers_scalarOut (g : GuardF) (lat : Nat) (d : BitVec 6) (f : CoreState → Word) : Answers (scalarOut g lat d f s) :=
  .guarded (.ok _)

theorem answers_srOut (o : SR) (lat : Nat) (f : Word → Word → Word) : Answers (srOut o lat f s) := answers_scalarOut _ _ _ _

theorem answers_shiftOut (o : SR) (f : Word → Nat → Word) : Answers (shiftOut o f s) := answers_scalarOut _ _ _ _

theorem answers_divOut (o : SR) (f : Word → Word → Word) : Answers (divOut o f s) := .guarded (.ok _)

theorem answers_guardOut (g : GuardF) (d : BitVec 6) (f : CoreState → Bool) : Answers (guardOut g d f s) := .guarded (.ok _)

theorem answers_floatOut (o : SR3) (f : CoreState → Env → Nat × Env) : Answers (floatOut o f s) :=
  .guarded (.withRnd fun _ => .ok _)

theorem answers_fcvt (d a : BitVec 6) (tt ss : Ty) (g : GuardF) : Answers (execFcvt d a tt ss g s) :=
  .guarded (.withRnd fun _ => .ok _)

theorem answers_indirect (x : Word) (pops : Bool) : Answers (indirect s x pops) := .ite (.ok _) (.trap _ _)

theorem answers_openLoop (n : Word) (disp : BitVec 10) : Answers (openLoop s n disp) := .ite (.ok _) (.ite (.trap _ _) (.ok _))

theorem answers_setfmt (a : BitVec 6) (g : GuardF) : Answers (execSetfmt a g s) := .guarded (.ite (.ok _) (.trap _ _))

theorem answers_drain (g : GuardF) : Answers (execDrain g s) := .guarded (.ite (.ok _) (.trap _ _))

theorem answers_mfs (d : BitVec 6) (n : BitVec 12) (g : GuardF) : Answers (execMfs d n g s) :=
  .guarded (.ite (.trap _ _) (.ite (.trap _ _) (.ite (.hold _ _) (.ok _))))

theorem answers_mts (a : BitVec 6) (n : BitVec 12) (g : GuardF) : Answers (execMts a n g s) :=
  .guarded (.ite (.trap _ _) (.ite (.trap _ _) (.ite (.ite (.ok _) (.trap _ _)) (.ite (.trap _ _) (.ok _)))))

theorem answers_eret (g : GuardF) : Answers (execEret g s) := .guarded (.ite (.ok _) (.trap _ _))

/-! ### Slot 1: loads, stores and atomics (R260 to R273) -/

theorem answers_loadOut (q : LdQual) (st : BitVec 4) (sc : Scope) (rs : List (Nat × Nat × Nat)) (ea : Nat) (shape : LoadShape)
    (fin : State → State) : Answers (loadOut s q st sc rs ea shape fin) := by
  refine .withBytes fun bs => ?_
  cases q
  case plain => exact .withRace (.withEarly (.ite (.hold _ _) (.ok _)))
  case acq => exact .withEarly (.ite (.hold _ _) (.ok _))
  case fe | fec =>
    refine .ite (.trap _ _) (.withEarly (.ite (.hold _ _) (.withFull fun _ => .ite (.hold _ _) ?_)))
    simp only
    split
    · exact .trap _ _
    · exact .ok _

theorem answers_ld (sz : BitVec 2) (q : LdQual) (d : BitVec 6) (m : MemOp) (g : GuardF) : Answers (execLd sz q d m g s) :=
  .guarded (.withAccess fun _ => .ite (.trap _ _) (answers_loadOut _ _ _ _ _ _ _))

theorem answers_ldv (q : LdQual) (d : BitVec 6) (m : MemOp) (g : GuardF) : Answers (execLdv q d m g s) :=
  .guarded (.withAccess fun _ => .ite (.trap _ _) (answers_loadOut _ _ _ _ _ _ _))

theorem answers_loadLanes (d : BitVec 6) (w : Nat) (ls : List (Nat × Nat)) (st : BitVec 4) (old : VReg) (x : Access) :
    Answers (loadLanes s d w ls st old x) := .withLanes (answers_loadOut _ _ _ _ _ _ _)

theorem answers_storeOut (cut : Nat → List WByte → List (List WByte)) (st : BitVec 4) (ps : List Piece1) (plain setFe : Bool)
    (rel : Option Scope) (fin : State → State) : Answers (storeOut s cut st ps plain setFe rel fin) := by
  have race {pas : List Nat} {k : Unit → Res} (hk : Answers (k ())) :
      Answers (if plain then withRace s pas k else k ()) := .ite (.withRace hk) hk
  exact .withChecked fun _ => race (.ite (.hold _ _) (.ite (.hold _ _) (.ite (.hold _ _) (.ite (.ok _) (.ok _)))))

theorem answers_st (sz : BitVec 2) (q : StQual) (d : BitVec 6) (m : MemOp) (g : GuardF) : Answers (execSt sz q d m g s) := by
  refine .guarded (.withAccess fun x => .ite (.trap _ _) ?_)
  split
  · exact .ite (answers_storeOut _ _ _ _ _ _ _) (.trap _ _)
  · exact answers_storeOut _ _ _ _ _ _ _
  · exact answers_storeOut _ _ _ _ _ _ _

theorem answers_stv (k : BitVec 4) (d : BitVec 6) (m : MemOp) (g : GuardF) : Answers (execStv k d m g s) :=
  .guarded (.withAccess fun _ => .ite (.trap _ _) (.ite (.trap _ _) (answers_storeOut _ _ _ _ _ _ _)))

theorem answers_storeLanes (v : VReg) (w : Nat) (ls : List (Nat × Nat)) (st : BitVec 4) (x : Access) :
    Answers (storeLanes s v w ls st x) := by
  unfold storeLanes
  exact .withLanes (answers_storeOut _ _ _ _ _ _ _)

theorem answers_pref (m : MemOp) (g : GuardF) : Answers (execPref m g s) := .guarded (.withAccess fun _ => .ok _)

theorem answers_atomicOut (ar : Bool) (op : AtomicOp) (d : BitVec 6) (x : BitVec 4) (n : Nat) :
    Answers (atomicOut s ar op d x n) := by
  refine .ite (.trap _ _) (.withBytes fun bs => ?_)
  split
  · exact .trap _ _
  · exact .withEarly (.ite (.hold _ _) (.ok _))

theorem answers_fewait (clr : Bool) (len : BitVec 6) (x : BitVec 4) (off : BitVec 14) (g : GuardF) :
    Answers (execFewait clr len x off g s) :=
  .guarded (.ite (.trap _ _) (.withBytes fun _ => .ite (.trap _ _) (.ite (.hold _ _) (.withFull fun _ => .ok _))))

/-! ### Slot 1: fences, counters, barriers and snapshots (R134, R135, R274 to R280) -/

theorem answers_fence (ps : BitVec 6) (sc : Scope) (st : BitVec 16) (g : GuardF) : Answers (execFence ps sc st g s) :=
  .guarded (.ite (.hold _ _) (.ite (.hold _ _) (.ok _)))

theorem answers_wait (cl l : BitVec 6) (g : GuardF) : Answers (execWait cl l g s) := .guarded (.ite (.ok _) (.hold _ _))

theorem answers_barinit (n : BitVec 10) (c : BitVec 14) (g : GuardF) : Answers (execBarinit n c g s) :=
  .guarded (.ite (.trap _ _) (.ok _))

theorem answers_bararv (n : BitVec 10) (c : BitVec 14) (g : GuardF) : Answers (execBararv n c g s) :=
  .guarded (.ite (.trap _ _) (.ok _))

theorem answers_bararw (n : BitVec 10) (c : BitVec 14) (g : GuardF) : Answers (execBararw n c g s) :=
  .guarded (.ite (.trap _ _) (.ok _))

theorem answers_barwt (n : BitVec 10) (g : GuardF) : Answers (execBarwt n g s) := by
  refine .guarded (.ite (.trap _ _) ?_)
  split
  · split
    · exact .ok _
    · exact .hold _ _
  · exact .ite (.hold _ _) (.ok _)

theorem answers_snap (g : GuardF) : Answers (execSnap g s) := .guarded (.ite (.ok _) (.ok _))

/-! ### Slot 1: engine commands (R229 to R253) -/

theorem answers_copy (d a : EAddr) (len : CopyLen) (g : GuardF) : Answers (execCopy d a len g s) :=
  .guarded (.withChecked fun _ => .withChecked fun _ => .submit _ _ _ _ _ _ _)

theorem answers_copym (d a : EAddr) (len : CopymLen) (m : BitVec 6) (g : GuardF) : Answers (execCopym d a len m g s) := by
  refine .guarded ?_
  simp only
  split
  · exact .ite (.trap _ _) (.withChecked fun _ => .submit _ _ _ _ _ _ _)
  · exact .trap _ _

theorem answers_relay (t : Bool) (d a : BitVec 8) (lay : BitVec 4) (vc : BitVec 6) (g : GuardF) :
    Answers (execRelay t d a lay vc g s) := by
  refine .guarded (.captureHandles fun raw u => .withShapes fun shs => ?_)
  split
  · exact .ite (.trap _ _) (.withChecked fun _ => .withChecked fun _ => .withChecked fun _ => .submit _ _ _ _ _ _ _)
  · exact .trap _ _

theorem answers_issueTop (x : TopCmd) : Answers (issueTop x s) := by
  refine .ite (.trap _ _) (.captureHandles fun raw u => .withShapes fun shs => ?_)
  split
  · exact .trap _ _
  · exact .ite (.trap _ _) (.ite (.trap _ _) (.withSources fun _ => .withChecked fun _ => .withChecked fun _ =>
      .ite (.submit _ _ _ _ _ _ _) (.submit _ _ _ _ _ _ _)))

theorem answers_top3 (k : TopKind) (o : Top3) : Answers (top3 k o s) := .guarded (answers_issueTop _)

theorem answers_ewcvt (ovn : Bool) (d a : BitVec 8) (p : BitVec 6) (g : GuardF) : Answers (execEwcvt ovn d a p g s) :=
  .guarded (answers_issueTop _)

theorem answers_reduce (op : RedOp) (d a : BitVec 8) (p : BitVec 6) (g : GuardF) : Answers (execReduce op d a p g s) :=
  .guarded (answers_issueTop _)

theorem answers_placeq (w a : BitVec 6) (g : GuardF) : Answers (execPlaceq w a g s) := by
  refine .guarded ?_
  simp only
  split
  · exact .trap _ _
  · exact .ite (.trap _ _) (answers_issueTop _)

theorem answers_kvfind (d q : BitVec 6) (l : EAddr) (g : GuardF) : Answers (execKvfind d q l g s) :=
  .guarded (.captureLocator fun _ _ => .withTable fun _ => .submit _ _ _ _ _ _ _)

theorem answers_kvfree (d q b : BitVec 6) (l : EAddr) (g : GuardF) : Answers (execKvfree d q b l g s) :=
  .guarded (.captureLocator fun _ _ => .ite (.trap _ _) (.ite (.submit _ _ _ _ _ _ _) (.withTable fun _ =>
    .submit _ _ _ _ _ _ _)))

theorem answers_kvapp (d : BitVec 6) (x : EAddr) (vc : BitVec 6) (g : GuardF) : Answers (execKvapp d x vc g s) := by
  refine .guarded (.capture fun b t => .captureHandles fun raw u => .withShapes fun shs => ?_)
  split
  · refine .ite (.trap _ _) (.captureLocator fun loc v => .ite (.trap _ _) (.ite ?_ (.withTable fun _ => ?_))) <;>
    exact .withChecked fun _ => .withChecked fun _ => .withChecked fun _ => .withChecked fun _ => .withChecked fun _ =>
      .submit _ _ _ _ _ _ _
  · exact .trap _ _

theorem answers_setband (b : BitVec 6) (x l : EAddr) (g : GuardF) : Answers (execSetband b x l g s) :=
  .guarded (.captureLocator fun _ _ => .capture fun _ _ => .ite (.trap _ _) (.ite (.trap _ _) (.withChecked fun _ =>
    .submit _ _ _ _ _ _ _)))

theorem answers_issueAttn (xa : Access) (st : Nat) (a : Attn) : Answers (issueAttn s xa st a) :=
  .withChecked fun _ => .withChecked fun _ => .withChecked fun _ => .withChecked fun _ => .withChecked fun _ =>
    .withChecked fun _ => .withChecked fun _ => .withChecked fun _ => .submit _ _ _ _ _ _ _

theorem answers_attn (x : EAddr) (p : BitVec 6) (g : GuardF) : Answers (execAttn x p g s) := by
  refine .guarded (.ite (.trap _ _) (.capture fun b t => .captureHandles fun raw u => .withShapes fun shs => ?_))
  split
  · exact .ite (.trap _ _) (.captureLocator fun loc v => .ite (.trap _ _) (.ite (.trap _ _) (.ite (answers_issueAttn _ _ _)
      (.withTable fun _ => answers_issueAttn _ _ _))))
  · exact .trap _ _

/-! ### Slot 1: splices, messages and launches (R119 to R128, R249 to R254) -/

theorem answers_splarv (d e t : BitVec 6) (x : EAddr) (g : GuardF) : Answers (execSplarv d e t x g s) := by
  refine .guarded ?_
  simp only
  split
  · exact .ite (.hold _ _) (.ok _)
  · exact .ite (.hold _ _) (.ok _)
  · exact .withChecked fun _ => .ite (.hold _ _) (.ok _)

theorem answers_openSplice (nb : Option (BitVec 3)) (c : BitVec 6) (x : EAddr) : Answers (openSplice nb c x s) := by
  refine .ite (.trap _ _) (.capture fun b u => ?_)
  split
  · exact .trap _ _
  · refine .withChecked fun _ => .captureHandles fun raw v => .withChecked fun _ => .withChecked fun _ => ?_
    simp only
    split
    · exact .trap _ _
    · split
      · exact .trap _ _
      · exact .trap _ _
      · exact .trap _ _
      · cases nb
        case none => exact .ite (.trap _ _) (.ite (.hold _ _) (.ite (.hold _ _) (.ok _)))
        case some k => exact .ite (.trap _ _) (.ite (.ok _) (.ite (.hold _ _) (.ok _)))

theorem answers_splclose (d c : BitVec 6) (g : GuardF) : Answers (execSplclose d c g s) := by
  refine .guarded ?_
  simp only
  split
  · exact .ok _
  · exact .ok _

theorem answers_issueMessage (k : NxKind) (d : Option (BitVec 6)) (x : EAddr) : Answers (issueMessage k d x s) := by
  refine .ite (.trap _ _) ?_
  split
  · refine .capture fun b t => ?_
    split
    · exact .trap _ _
    · exact .withEndpoint fun e u => .ite (.trap _ _) (.withEntropy fun vs v => .withChecked fun _ => .submit _ _ _ _ _ _ _)
  · exact .trap _ _
  · exact .trap _ _

theorem answers_nxwait (c v : BitVec 6) (g : GuardF) : Answers (execNxwait c v g s) :=
  .guarded (.ite (.trap _ _) (.ite (.hold _ _) (.ok _)))

theorem answers_nxstat (d p : BitVec 6) (g : GuardF) : Answers (execNxstat d p g s) := by
  refine .guarded (.ite (.trap _ _) ?_)
  simp only
  split
  all_goals exact .ok _

theorem answers_launch (d : BitVec 6) (x : EAddr) (g : GuardF) : Answers (execLaunch d x g s) :=
  .guarded (.ite (.ok _) (.capture fun _ _ => .ite (.hold _ _) (.ok _)))

/-! ### Slot 2: lanes (R186 to R212) -/

theorem answers_laneOut (o : VOp) (lat : Nat) (env : Env) (f : Nat → Env → Nat × Env) : Answers (laneOut o lat env f s) := .ok _

theorem answers_fusedLanes (o : VOp) (f : Num → Num → Num → Env → Nat × Env) : Answers (fusedLanes o f s) :=
  .withRnd fun _ => answers_laneOut _ _ _ _

theorem answers_addLanes (o : VOp) (sub : Bool) : Answers (addLanes o sub s) := .ite (.ok _) (.withSel fun _ => .ok _)

theorem answers_vmul (o : VOp) : Answers (execVmul o s) := .ite (.ok _) (.withRnd fun _ => .ok _)

theorem answers_pickLanes (o : VOp) (fi : Int → Int → Int) (ff : Num → Num → Num) : Answers (pickLanes o fi ff s) :=
  .ite (.ok _) (.ok _)

theorem answers_vrndi (o : VOp) : Answers (execVrndi o s) := .withSel fun _ => .ok _

theorem answers_vcvt (o : VOp) : Answers (execVcvt o s) := .withSel fun _ => .ok _

theorem answers_vcvti (o : VOp) : Answers (execVcvti o s) := .withSel fun _ => .ok _

theorem answers_vpackb (o : VOp) : Answers (execVpackb o s) := .withRnd fun _ => .ok _

theorem answers_vredsum (o : VOp) : Answers (execVredsum o s) := .ite (.ok _) (.ok _)

theorem answers_sumpin (o : VOp) : Answers (execSumpin o s) := .ite (.trap _ _) (.ite (.trap _ _) (.withRace (.ok _)))

theorem answers_sumpout (o : VOp) : Answers (execSumpout o s) := by
  refine .ite (.trap _ _) (.withRace (.withRead0 fun _ u => ?_))
  simp only
  split
  · exact .trap _ _
  · exact .ok _

theorem answers_sumpcfg (n : BitVec 2) (a : BitVec 6) (g : GuardF) : Answers (execSumpcfg n a g s) :=
  .guarded (.ite (.trap _ _) (.ok _))

/-! ### Slot 3: the weight buffer, beats, accumulators and ladders (R213 to R227) -/

theorem answers_mldb (f : StoredFmt) (sp : Bool) (a : BitVec 6) (g : GuardF) : Answers (execMldb f sp a g s) :=
  .guarded (.ite (.trap _ _) (.ite (.trap _ _) (.ite (.trap _ _) (.ite (.hold _ _) (.ok _)))))

theorem answers_mwbf (len : BitVec 6) (x : BitVec 4) (b : BitVec 6) (g : GuardF) : Answers (execMwbf len x b g s) := by
  refine .guarded ?_
  simp only
  split
  · exact .trap _ _
  · refine .ite (.trap _ _) (.ite (.trap _ _) (.withRace (.withRead0 fun _ u => ?_)))
    split
    · exact .trap _ _
    · exact .ok _

theorem answers_beatOut (o : Beat) (push drain : Bool) (shift : Option Nat) : Answers (beatOut o push drain shift s) :=
  .guarded (.ite (.trap _ _) (.ite (.trap _ _) (.ite (.trap _ _) (.ite (.trap _ _) (.ite (.hold _ _) (.ite (.hold _ _)
    (.ok _)))))))

theorem answers_mdrainSwap (g : GuardF) : Answers (execMdrainSwap g s) := .guarded (.ite (.hold _ _) (.ok _))

theorem answers_mzero (t : BitVec 6) (g : GuardF) : Answers (execMzero t g s) := .guarded (.ite (.trap _ _) (.ok _))

theorem answers_acmovv (v : BitVec 6) (p : BitVec 10) (g : GuardF) : Answers (execAcmovv v p g s) :=
  .guarded (.ite (.trap _ _) (.ite (.trap _ _) (.ite (.trap _ _) (.ite (.hold _ _) (.ok _)))))

theorem answers_acmova (v : BitVec 6) (p : BitVec 10) (g : GuardF) : Answers (execAcmova v p g s) :=
  .guarded (.ite (.trap _ _) (.ok _))

theorem answers_acld (t : BitVec 6) (x : BitVec 4) (g : GuardF) : Answers (execAcld t x g s) := by
  refine .guarded ?_
  simp only
  split
  · exact .trap _ _
  · refine .ite (.trap _ _) (.ite (.trap _ _) (.withRace (.withRead0 fun _ u => ?_)))
    split
    · exact .trap _ _
    · exact .ok _

theorem answers_acst (t : BitVec 6) (x : BitVec 4) (g : GuardF) : Answers (execAcst t x g s) := by
  refine .guarded ?_
  simp only
  split
  · exact .trap _ _
  · exact .ite (.trap _ _) (.ite (.trap _ _) (.withRace (.ite (.hold _ _) (.ok _))))

theorem answers_ldrcfg (l : BitVec 2) (a b : BitVec 6) (g : GuardF) : Answers (execLdrcfg l a b g s) :=
  .guarded (.ite (.trap _ _) (.withChain (.ok _)))

theorem answers_ldrclr (l : BitVec 2) (g : GuardF) : Answers (execLdrclr l g s) := .guarded (.withChain (.ite (.ok _) (.ok _)))

theorem answers_ldrstep (l : BitVec 2) (t : BitVec 6) (g : GuardF) : Answers (execLdrstep l t g s) :=
  .guarded (.ite (.trap _ _) (.withChain (.ok _)))

theorem answers_ldrread (l : BitVec 2) (t : BitVec 6) (g : GuardF) : Answers (execLdrread l t g s) :=
  .guarded (.ite (.trap _ _) (.withChain (.ite (.trap _ _) (.ok _))))

theorem answers_ldrrung (d : BitVec 6) (gd : BitVec 3) (l : BitVec 2) (lv q : BitVec 4) (g : GuardF) :
    Answers (execLdrrung d gd l lv q g s) := .guarded (.ite (.trap _ _) (.withChain (.ite (.trap _ _) (.ok _))))

theorem answers_ldrcnt (d : BitVec 6) (l : BitVec 2) (g : GuardF) : Answers (execLdrcnt d l g s) := .guarded (.withChain (.ok _))

theorem answers_ldrsave (l : BitVec 2) (x : BitVec 4) (g : GuardF) : Answers (execLdrsave l x g s) := by
  refine .guarded ?_
  simp only
  split
  · exact .trap _ _
  · exact .ite (.trap _ _) (.withRace (.withChain (.ok _)))

theorem answers_ldrload (l : BitVec 2) (x : BitVec 4) (g : GuardF) : Answers (execLdrload l x g s) := by
  refine .guarded ?_
  simp only
  split
  · exact .trap _ _
  · refine .ite (.trap _ _) (.withRace (.withRead0 fun _ t => .ite (.trap _ _) ?_))
    split
    · exact .trap _ _
    · split
      · exact .trap _ _
      · exact .withRace (.withRead0 fun _ u => .withChain (.ok _))

end

/-! ### Every slot instruction -/

theorem exec_answers (i : Instr) (s : State) (hi : isEvent i = false) : Answers (exec i s) := by
  unfold exec
  cases i with
  -- slot 0
  | nop | mnop => exact .ok s
  | add | sub | and | or | xor | andn | min | max | minu | maxu | mul | mulh | mulhu => exact answers_srOut _ _ _
  | shl | shr | sra | rol => exact answers_shiftOut _ _
  | clz | ctz | popc | bfx | bfi | sel | movi | movhi | fmin | fmax | fclass | getf => exact answers_scalarOut _ _ _ _
  | div | divu | rem | remu => exact answers_divOut _ _
  | cmp | fcmp | gand | gor | gnot => exact answers_guardOut _ _ _
  | br | call | getid | hops | endTask | trap | brk => exact .guarded (.ok _)
  | fadd | fsub | fmul | ffma => exact answers_floatOut _ _
  | fcvt => exact answers_fcvt _ _ _ _ _
  | jmp | ret => exact .guarded (answers_indirect _ _)
  | loop | loopReg => exact .guarded (answers_openLoop _ _)
  | setfmt => exact answers_setfmt _ _
  | drain => exact answers_drain _
  | mfs => exact answers_mfs _ _ _
  | mts => exact answers_mts _ _ _
  | eret => exact answers_eret _
  -- slot 1
  | amov | aadd | alea | asetm => exact .guarded (.ok _)
  | ld => exact answers_ld _ _ _ _ _
  | st => exact answers_st _ _ _ _ _
  | ldv => exact answers_ldv _ _ _ _
  | stv => exact answers_stv _ _ _ _
  | ldvs | ldvx => exact .guarded (answers_loadLanes _ _ _ _ _ _)
  | stvs | stvx => exact .guarded (answers_storeLanes _ _ _ _ _)
  | pref => exact answers_pref _ _
  | amo | cas => exact .guarded (answers_atomicOut _ _ _ _ _)
  | fewait => exact answers_fewait _ _ _ _ _
  | fence => exact answers_fence _ _ _ _
  | wait => exact answers_wait _ _ _
  | barinit => exact answers_barinit _ _ _
  | bararv => exact answers_bararv _ _ _
  | barwt => exact answers_barwt _ _
  | bararw => exact answers_bararw _ _ _
  | snap => exact answers_snap _
  | copy => exact answers_copy _ _ _ _
  | copym => exact answers_copym _ _ _ _ _
  | relay => exact answers_relay _ _ _ _ _ _
  | ewadd | ewmul | ewfma | ewmax | gemv | gemm => exact answers_top3 _ _
  | ewcvt => exact answers_ewcvt _ _ _ _ _
  | reduce => exact answers_reduce _ _ _ _ _
  | placeq => exact answers_placeq _ _ _
  | attn => exact answers_attn _ _ _
  | kvfind => exact answers_kvfind _ _ _ _
  | kvapp => exact answers_kvapp _ _ _ _
  | kvfree => exact answers_kvfree _ _ _ _ _
  | setband => exact answers_setband _ _ _ _
  | splopen | splopenNb => exact .guarded (answers_openSplice _ _ _)
  | splarv => exact answers_splarv _ _ _ _ _
  | splclose => exact answers_splclose _ _ _
  | splstat => exact .guarded (.ok _)
  | nxwr | nxrd | nxamo => exact .guarded (answers_issueMessage _ _ _)
  | nxwait => exact answers_nxwait _ _ _
  | nxstat => exact answers_nxstat _ _ _
  | launch => exact answers_launch _ _ _
  | sumpcfg => exact answers_sumpcfg _ _ _
  -- slot 2
  | vadd | vsub => exact answers_addLanes _ _
  | vmul => exact answers_vmul _
  | vfma | vfms => exact answers_fusedLanes _ _
  | vmin | vmax | vabs | vneg => exact answers_pickLanes _ _ _
  | vrcp | vrsq | vfexp2 | vlog2 | vscale | vgetexp | vgetman | vunpb | vsat | vand | vor | vxor | vnot | vmov | vshl | vshr
  | vsra | viota | vbcast | vperm | vslide => exact answers_laneOut _ _ _ _
  | vrndi => exact answers_vrndi _
  | vcvt => exact answers_vcvt _
  | vcvti => exact answers_vcvti _
  | vpackb => exact answers_vpackb _
  | vcmp | vsel | vmovs | vins | vredmax | vcompr | vexpnd | vdot4 | kand | kor | kxor | knot | kpopc | kfirst | kset | sumpcnt =>
    exact .ok _
  | vredsum => exact answers_vredsum _
  | sumpin => exact answers_sumpin _
  | sumpout => exact answers_sumpout _
  -- slot 3
  | mldb => exact answers_mldb _ _ _ _
  | mwbf => exact answers_mwbf _ _ _ _
  | mpush | mshift | macc | mdrain => exact answers_beatOut _ _ _ _
  | mdrainSwap => exact answers_mdrainSwap _
  | mzero => exact answers_mzero _ _
  | acmovv => exact answers_acmovv _ _ _
  | acmova => exact answers_acmova _ _ _
  | acld => exact answers_acld _ _ _
  | acst => exact answers_acst _ _ _
  | ldrcfg => exact answers_ldrcfg _ _ _ _
  | ldrstep => exact answers_ldrstep _ _ _
  | ldrread => exact answers_ldrread _ _ _
  | ldrrung => exact answers_ldrrung _ _ _ _ _ _
  | ldrcnt => exact answers_ldrcnt _ _ _
  | ldrsave => exact answers_ldrsave _ _ _
  | ldrload => exact answers_ldrload _ _ _
  | ldrclr => exact answers_ldrclr _ _
  -- a row without an encoding is no slot instruction
  | _ => exact absurd (show true = false from hi) Bool.noConfusion

end Sys2Proof.Machine

namespace Sys2Proof.Rules

open Sys2Proof.Machine

/-- Settles O50: each slot instruction goes through checks and captures to an effect, a trap or a hold, and each of these is a
next state. -/
theorem slotsAnswer : Obligations.SlotsAnswer := exec_answers

end Sys2Proof.Rules

/-! SUPPORT. The bytes of a bundle (R140), and what a landing write and the loads that age leave (R52, R275). -/

namespace Sys2Proof

theorem leNat_div_mod (bs : List Byte) (i : Nat) (h : i < bs.length) : leNat bs / 256 ^ i % 256 = (bs[i]).toNat := by
  induction bs generalizing i with
  | nil => exact absurd h (Nat.not_lt_zero i)
  | cons b bs ih =>
    have hb := b.isLt
    cases i with
    | zero =>
      simp only [leNat, List.getElem_cons_zero]
      omega
    | succ i =>
      have hdiv : leNat (b :: bs) / 256 = leNat bs := by
        simp only [leNat]
        omega
      rw [Nat.pow_succ', ← Nat.div_div_eq_div_mul, hdiv]
      exact ih i (Nat.lt_of_succ_lt_succ h)

theorem leNat_lt (bs : List Byte) : leNat bs < 256 ^ bs.length := by
  induction bs with
  | nil => exact Nat.one_pos
  | cons b bs ih =>
    have hb := b.isLt
    rw [List.length_cons, Nat.pow_succ]
    simp only [leNat]
    omega

/-- Byte `i` of a bundle's word is the byte at its address plus `i`. -/
theorem extractLsb'_ofNat_leNat {bs : List Byte} (hlen : bs.length = 16) (i : Nat) (h : i < bs.length) :
    (BitVec.ofNat 128 (leNat bs)).extractLsb' (8 * i) 8 = bs[i] := by
  have hlt : leNat bs < 2 ^ 128 := (leNat_lt bs).trans_eq (by rw [hlen]; norm_num)
  apply BitVec.eq_of_toNat_eq
  rw [BitVec.extractLsb'_toNat, BitVec.toNat_ofNat, Nat.mod_eq_of_lt hlt, Nat.shiftRight_eq_div_pow, Nat.pow_mul]
  exact leNat_div_mod bs i h

end Sys2Proof

namespace Sys2Proof.Machine

open Sys2Proof

/-! ### The next bundle's fetch (R140, R338) -/

theorem fetchAt_ok {s : State} {pa : Nat} (hclean : ∀ i, i < 16 → (byteAt s (pa + i)).2 = false)
    (hreach : reaches s s.here pa = true) :
    ∃ w, fetchAt s pa = .ok w ∧ ∀ i, i < 16 → w.extractLsb' (8 * i) 8 = (byteAt s (pa + i)).1 := by
  have hpoison : ((List.range 16).map fun i => homeByte s (pa + i)).any (·.poison) = false := by
    rw [List.any_eq_false]
    intro b hb
    obtain ⟨i, hi, rfl⟩ := List.mem_map.1 hb
    exact Bool.eq_false_iff.1 (hclean i (List.mem_range.1 hi))
  refine ⟨BitVec.ofNat 128 (leNat (((List.range 16).map fun i => homeByte s (pa + i)).map (·.val))), ?_, fun i hi => ?_⟩
  · simp only [fetchAt, hpoison, hreach]
    rfl
  · rw [extractLsb'_ofNat_leNat (by simp) i (by simpa using hi)]
    simp [byteAt]

/-- The fetch of a die controller from device memory. -/
theorem fetch_controller {s : State} (hc : isController s.coreId = true) (hb : controllerByte s s.core.pc.toNat = none) :
    fetch s = fetchAt s s.core.pc.toNat := by
  simp only [fetch, hc, hb, ite_self]
  rfl

/-- The fetch of a task at an address that its image cache translates. -/
theorem fetch_task {s : State} {e : TlbEntry} (hc : isController s.coreId = false)
    (he : tlbFind (s.die s.here).icache s.pasid s.core.pc.toNat = some e)
    (hf : physFault s true (e.pa + (s.core.pc.toNat - e.va)) = none) :
    fetch s = fetchAt s (e.pa + (s.core.pc.toNat - e.va)) := by
  simp only [fetch, hc, he, hf]
  rfl

end Sys2Proof.Machine

namespace Sys2Proof.Rules

open Sys2Proof.Machine

/-- The bundle at the PC lies little-endian where a route leads to it. -/
theorem fetches : Fetches := by
  rintro s pa hclean hreach (⟨hc, hb, rfl⟩ | ⟨hc, hf, e, he, rfl⟩)
  · rw [fetch_controller hc hb]
    exact fetchAt_ok hclean hreach
  · rw [fetch_task hc he hf]
    exact fetchAt_ok hclean hreach

end Sys2Proof.Rules

namespace Sys2Proof.Machine

open Sys2Proof

/-! ### Ageing and landing -/

/-- Loads that age change what `ld` counts and no more. -/
theorem ageLoads_frame (s : State) : ∃ pend cnt, ageLoads s = { s with core := { s.core with pend := pend, cnt := cnt } } := by
  simp only [ageLoads]
  split
  · exact ⟨s.core.pend, s.core.cnt, rfl⟩
  · exact ⟨_, _, rfl⟩

theorem fetch_ageLoads (s : State) : fetch (ageLoads s) = fetch s := by
  obtain ⟨pend, cnt, h⟩ := ageLoads_frame s
  rw [h]
  rfl

theorem ageLoads_pc (s : State) : (ageLoads s).core.pc = s.core.pc := by
  obtain ⟨pend, cnt, h⟩ := ageLoads_frame s
  rw [h]

theorem ageLoads_bcnt (s : State) : (ageLoads s).core.bcnt = s.core.bcnt := by
  obtain ⟨pend, cnt, h⟩ := ageLoads_frame s
  rw [h]

theorem landOne_pc (s : State) (w : RegWrite) : (landOne s w).core.pc = s.core.pc := by
  cases w with
  | a | m | v | flags => rfl
  | s | k | g => simp only [landOne]; split <;> rfl
  | sys n x => obtain ⟨_, _, _, _, _, _, _, h⟩ := landOne_sys_core s n x; rw [h]

theorem landDue_pc (s : State) (n : Nat) : (landDue s n).core.pc = s.core.pc := by
  rw [landDue_eq]
  exact foldl_keeps (·.core.pc) landOne landOne_pc _ _

/-! ### The agent on turn issues (R24, R157) -/

theorem landMcast_none {s : State} (h : ∀ a ∈ s.agents, mcastDue s a.2 = false) : landMcast s = s := by
  refine if_neg ?_
  rw [Bool.not_eq_true, List.any_eq_false]
  exact fun a ha => Bool.eq_false_iff.1 (h a ha)

theorem issue_of_issuesNext {s : State} (h : issuesNext s) : issue s = issueHere (ageLoads s) := by
  obtain ⟨-, -, -, -, hdeferred, hrun, hafter, hpost, hdrain⟩ := h
  obtain ⟨pend, cnt, hage⟩ := ageLoads_frame s
  simp [issue, issueNext, hage, hdeferred, hrun, hafter, hpost, hdrain, graceOver, diversionOf]

theorem step_of_issuesNext {s : State} (h : issuesNext s) : step s = tick (issueFirst s) := by
  obtain ⟨hpower, hagenda, htime, hmcast, -⟩ := h
  have hturn : s.time % 4 = 0 ∨ s.time % 4 = 2 := by omega
  simp only [step, hpower, hagenda, landMcast_none hmcast, defaultMove]
  rcases hturn with e | e <;> rw [e] <;> rfl

theorem step_of_moved {s t : State} (h : issuesNext s) (ht : issue s = .moved t) :
    step s = .next { t with time := t.time + 1 } := by
  rw [step_of_issuesNext h, issueFirst, ht]
  rfl

/-- The agent on turn issues the bundle that it fetches. -/
theorem issue_of_decodeBundle {s : State} {w : BitVec 128} {b : Bundle} (h : issuesNext s) (hw : fetch s = .ok w)
    (hb : decodeBundle w = .ok b) : issue s = issueBundle (landDue (ageLoads s) s.core.bcnt.toNat) w b := by
  rw [issue_of_issuesNext h, issueHere, fetch_ageLoads, hw]
  simp only [hb, ageLoads_bcnt]

theorem issue_of_error {s : State} {w : BitVec 128} {e : DecodeErr} (h : issuesNext s) (hw : fetch s = .ok w)
    (hb : decodeBundle w = .error e) :
    issue s = trapHere (ageLoads s) (withWords (endTrap (ageLoads s) 0x03 0) w) := by
  rw [issue_of_issuesNext h, issueHere, fetch_ageLoads, hw]
  simp only [hb]

/-! ### The slots in order (R157, R158) -/

theorem any_illegalNumber_eq_false {s : State} {is : List Instr} (h : ∀ i ∈ is, illegalNumber s i = false) :
    is.any (illegalNumber s) = false := by
  rw [List.any_eq_false]
  exact fun i hi => Bool.eq_false_iff.1 (h i hi)

/-- A legal bundle whose registers are ready, and whose slots take effect, goes on to its end. -/
theorem issueBundle_moved {s t : State} {w : BitVec 128} {b : Bundle} {ats : List (Nat × Nat × Bool)}
    (hclash : clash (bundleSlots b) = false) (hlegal : ∀ i ∈ bundleSlots b, illegalNumber s i = false)
    (hready : notReady s.core (bundleSlots b) = false) (hrun : runSlots s (bundleSlots b) = ⟨t, none, none, ats, none⟩) :
    issueBundle s w b = .moved (afterBundle t) := by
  simp [issueBundle, hclash, any_illegalNumber_eq_false hlegal, hready, hrun]

variable {c : CoreState}

theorem runSlot_effect {x : Turn} {i : Instr} {t : State} (hstop : x.stop = none) (hearly : earlyRead c i = false)
    (ht : exec i x.s = .next t) (hsig : t.sig = .none) : runSlot c x i = { x with s := t } := by
  simp [runSlot, hstop, hearly, ht, hsig]

theorem runSlot_trapped {x : Turn} {i : Instr} {t : State} {e : TrapInfo} (hstop : x.stop = none) (hearly : earlyRead c i = false)
    (ht : exec i x.s = .next t) (hsig : t.sig = .trapped e) : runSlot c x i = x.fault e := by
  simp [runSlot, hstop, hearly, ht, hsig]

theorem runSlot_held {x : Turn} {i : Instr} {t : State} {h : Hold} {a : List (Nat × Nat × Bool)} (hstop : x.stop = none)
    (hearly : earlyRead c i = false) (hheld : x.held = none) (ht : exec i x.s = .next t) (hsig : t.sig = .held h a) :
    runSlot c x i = { x with held := some h, ats := x.ats ++ a } := by
  simp [runSlot, hstop, hearly, ht, hsig, hheld]

theorem foldl_runSlot_slotsGive {is : List Instr} {x : Turn} {t : State} (hstop : x.stop = none)
    (hearly : ∀ i ∈ is, earlyRead c i = false) (h : slotsGive is x.s t) : is.foldl (runSlot c) x = { x with s := t } := by
  induction is generalizing x with
  | nil =>
    obtain rfl : t = x.s := h
    rfl
  | cons i r ih =>
    obtain ⟨u, hu, hsig, hr⟩ := h
    rw [List.foldl_cons, runSlot_effect hstop (hearly i List.mem_cons_self) hu hsig]
    exact ih (x := { x with s := u }) hstop (fun j hj => hearly j (List.mem_cons_of_mem i hj)) hr

/-! ### What comes after a bundle -/

theorem forget_frame (s : State) : ∃ dies, forget s = { s with dies := dies } := by
  obtain ⟨d, h⟩ := forgetAsker_frame s s.here (.core s.coreId)
  obtain ⟨d', h'⟩ := forgetAsker_frame { s with dies := d } s.here (.fetch s.coreId)
  exact ⟨d', by rw [forget, h, h']⟩

/-- A bundle without a TRAP or BRK goes on to the next PC. -/
theorem afterBundle_eq {t : State} (h : t.core.post = none) : afterBundle t = { forget t with
    core := { t.core with
      loops := (nextPc t.core).1, pc := (nextPc t.core).2, bcnt := t.core.bcnt + 1, jump := none, frz := 0 }
    sig := .none } := by
  simp only [afterBundle]
  split
  next hpost => exact absurd (h.symm.trans hpost) nofun
  next => rfl

@[simp] theorem pushEvent_time (s : State) (d : BitVec 2) (e : DieEvent) : (pushEvent s d e).1.time = s.time := by
  rcases pushEvent_cases s d e with ⟨_, h⟩ | ⟨_, h⟩ <;> simp [h]

@[simp] theorem takeTrap_time (s : State) (e : TrapInfo) (pc : Word) : (takeTrap s e pc).time = s.time := by
  simp [takeTrap]

@[simp] theorem forget_time (s : State) : (forget s).time = s.time := by
  obtain ⟨dies, h⟩ := forget_frame s
  rw [h]

theorem afterBundle_time (t : State) : (afterBundle t).time = t.time := by
  simp only [afterBundle]
  split
  · rw [takeTrap_time]
    exact forget_time t
  · exact forget_time t

theorem sameStore_forget (s : State) : sameStore s (forget s) := by
  obtain ⟨dies, h⟩ := forget_frame s
  rw [h]
  exact ⟨rfl, rfl, rfl, rfl, rfl⟩

end Sys2Proof.Machine

namespace Sys2Proof.Rules

open Sys2Proof.Machine

/-- Settles O55: what goes before an agent that issues next leaves its fetch, and each slot that takes effect hands its state to
the next one. -/
theorem stepRunsBundle : Obligations.StepRunsBundle := by
  refine ⟨?_, fetches⟩
  intro s w b t hs hw hb hclash s0 hlegal hready hearly hgive
  have hissue : issue s = .moved (afterBundle t) := by
    rw [issue_of_decodeBundle hs hw hb]
    exact issueBundle_moved hclash hlegal hready (foldl_runSlot_slotsGive rfl hearly hgive)
  refine ⟨?_, fun hpost => ?_⟩
  · rw [← afterBundle_time]
    exact step_of_moved hs hissue
  · rw [afterBundle_eq hpost]
    exact ⟨rfl, sameStore_forget t⟩

end Sys2Proof.Rules

/-! SUPPORT. What the slots of a bundle leave of a trap and of a hold before them (R157): the lowest slot that traps stays, and
so does the lowest that holds. -/

namespace Sys2Proof.Machine

open Sys2Proof

/-! ### The slots of a decoded bundle are instructions of the table -/

theorem isEvent_of_decodeSlot {k : Nat} {w : BitVec 32} {e : Option Byte} {i : Instr} (h : decodeSlot k w e = .ok i) :
    isEvent i = false := (Rules.decodesWellFormed k w e i h).2

/-- No slot of a decoded bundle is a row without an encoding. -/
theorem isEvent_of_mem_bundleSlots {w : BitVec 128} {b : Bundle} (hb : decodeBundle w = .ok b) :
    ∀ i ∈ bundleSlots b, isEvent i = false := by
  simp only [decodeBundle] at hb
  split at hb
  · cases hb
  · split at hb
    next i0 i1 i2 i3 h0 h1 h2 h3 =>
      cases hb
      have hfirst : isEvent i0 = false := by
        split at h0
        · cases h0
          rfl
        · exact isEvent_of_decodeSlot h0
      simp only [bundleSlots, List.forall_mem_cons]
      exact ⟨hfirst, isEvent_of_decodeSlot h1, isEvent_of_decodeSlot h2, isEvent_of_decodeSlot h3, List.forall_mem_nil _⟩
    all_goals cases hb

/-! ### One slot -/

variable {c : CoreState} {x : Turn} {i : Instr} {is : List Instr}

/-- All that one slot can do (R157): the trap of an early read, an effect, a trap of its own, or a hold. -/
theorem runSlot_cases (hi : isEvent i = false) (hstop : x.stop = none) :
    (earlyRead c i = true ∧ runSlot c x i = x.fault (earlyTrap x.s)) ∨ earlyRead c i = false ∧
      ((∃ t, runSlot c x i = { x with s := t }) ∨ (∃ e, runSlot c x i = x.fault e) ∨
        ∃ h a, runSlot c x i = { x with held := x.held.or (some h), ats := x.ats ++ a }) := by
  obtain ⟨t, ht⟩ := exec_answers i x.s hi
  cases hearly : earlyRead c i with
  | true => exact .inl ⟨rfl, by simp [runSlot, hstop, hearly]⟩
  | false =>
    refine .inr ⟨rfl, ?_⟩
    cases hsig : t.sig with
    | none => exact .inl ⟨t, runSlot_effect hstop hearly ht hsig⟩
    | trapped e => exact .inr (.inl ⟨e, runSlot_trapped hstop hearly ht hsig⟩)
    | held h a => exact .inr (.inr ⟨h, a, by cases hh : x.held <;> simp [runSlot, hstop, hearly, ht, hsig, hh]⟩)

theorem fault_trap (x : Turn) (e : TrapInfo) : (x.fault e).trap = x.trap.or (some e) := by
  cases h : x.trap <;> simp [Turn.fault, h]

/-- A slot of an encoded instruction does not stop the module, and leaves the trap and the hold that stand. -/
theorem runSlot_keeps (hi : isEvent i = false) (hstop : x.stop = none) :
    (runSlot c x i).stop = none ∧ (∀ e, x.trap = some e → (runSlot c x i).trap = some e) ∧
      ∀ h, x.held = some h → (runSlot c x i).held = some h := by
  rcases runSlot_cases (c := c) hi hstop with ⟨-, h⟩ | ⟨-, ⟨t, h⟩ | ⟨e, h⟩ | ⟨w, a, h⟩⟩ <;> rw [h]
  · exact ⟨hstop, fun e he => by rw [fault_trap, he]; rfl, fun _ hw => hw⟩
  · exact ⟨hstop, fun _ he => he, fun _ hw => hw⟩
  · exact ⟨hstop, fun e he => by rw [fault_trap, he]; rfl, fun _ hw => hw⟩
  · exact ⟨hstop, fun _ he => he, fun _ hw => by simp [hw]⟩

theorem runSlot_early (hi : isEvent i = false) (hstop : x.stop = none) (h : earlyRead c i = true) :
    (runSlot c x i).trap ≠ none := by
  rcases runSlot_cases (c := c) hi hstop with ⟨-, e⟩ | ⟨hno, -⟩
  · rw [e, fault_trap]
    cases x.trap <;> nofun
  · exact absurd (h.symm.trans hno) Bool.noConfusion

/-! ### The slots that follow -/

theorem foldl_runSlot_keeps (his : ∀ i ∈ is, isEvent i = false) (hstop : x.stop = none) :
    (is.foldl (runSlot c) x).stop = none ∧ (∀ e, x.trap = some e → (is.foldl (runSlot c) x).trap = some e) ∧
      ∀ h, x.held = some h → (is.foldl (runSlot c) x).held = some h := by
  induction is generalizing x with
  | nil => exact ⟨hstop, fun _ he => he, fun _ hw => hw⟩
  | cons i r ih =>
    obtain ⟨hi, hr⟩ := List.forall_mem_cons.1 his
    obtain ⟨hs, ht, hh⟩ := runSlot_keeps (c := c) hi hstop
    obtain ⟨hs', ht', hh'⟩ := ih hr hs
    exact ⟨hs', fun e he => ht' e (ht e he), fun w hw => hh' w (hh w hw)⟩

/-- Where no slot has trapped, none has read early. -/
theorem earlyRead_of_no_trap (his : ∀ i ∈ is, isEvent i = false) (hstop : x.stop = none)
    (htrap : (is.foldl (runSlot c) x).trap = none) : ∀ i ∈ is, earlyRead c i = false := by
  induction is generalizing x with
  | nil => exact List.forall_mem_nil _
  | cons i r ih =>
    obtain ⟨hi, hr⟩ := List.forall_mem_cons.1 his
    obtain ⟨hs, -, -⟩ := runSlot_keeps (c := c) hi hstop
    refine List.forall_mem_cons.2 ⟨?_, ih hr hs htrap⟩
    by_contra hearly
    obtain ⟨e, he⟩ := Option.ne_none_iff_exists'.1 (runSlot_early hi hstop (Bool.not_eq_false _ ▸ hearly))
    obtain ⟨-, hkeeps, -⟩ := foldl_runSlot_keeps (c := c) hr hs
    exact Option.some_ne_none e ((hkeeps e he).symm.trans htrap)

/-- The lowest slot that traps gives the bundle's trap. -/
theorem runSlots_trapped {s t u : State} {pre r : List Instr} {e : TrapInfo} (his : ∀ j ∈ pre ++ i :: r, isEvent j = false)
    (hearly : ∀ j ∈ pre ++ [i], earlyRead s.core j = false) (hgive : slotsGive pre s t) (hu : exec i t = .next u)
    (hsig : u.sig = .trapped e) :
    (runSlots s (pre ++ i :: r)).stop = none ∧ (runSlots s (pre ++ i :: r)).trap = some e := by
  have hpre (j) (hj : j ∈ pre) : earlyRead s.core j = false := hearly j (List.mem_append_left _ hj)
  rw [runSlots, List.foldl_append, List.foldl_cons, foldl_runSlot_slotsGive (x := ⟨s, none, none, [], none⟩) rfl hpre hgive,
    runSlot_trapped rfl (hearly i (by simp)) hu hsig]
  obtain ⟨hs, ht, -⟩ := foldl_runSlot_keeps (c := s.core) (x := Turn.fault ⟨t, none, none, [], none⟩ e)
    (fun j hj => his j (List.mem_append_right pre (List.mem_cons_of_mem i hj))) rfl
  exact ⟨hs, ht e rfl⟩

/-- The lowest slot that holds gives the bundle's reason. -/
theorem runSlots_held {s t u : State} {pre r : List Instr} {h : Hold} {a : List (Nat × Nat × Bool)}
    (his : ∀ j ∈ pre ++ i :: r, isEvent j = false) (hgive : slotsGive pre s t) (hu : exec i t = .next u)
    (hsig : u.sig = .held h a) (htrap : (runSlots s (pre ++ i :: r)).trap = none) :
    (runSlots s (pre ++ i :: r)).stop = none ∧ (runSlots s (pre ++ i :: r)).held = some h := by
  have hearly : ∀ j ∈ pre ++ i :: r, earlyRead s.core j = false := earlyRead_of_no_trap his rfl htrap
  have hpre (j) (hj : j ∈ pre) : earlyRead s.core j = false := hearly j (List.mem_append_left _ hj)
  rw [runSlots, List.foldl_append, List.foldl_cons, foldl_runSlot_slotsGive (x := ⟨s, none, none, [], none⟩) rfl hpre hgive,
    runSlot_held rfl (hearly i (by simp)) rfl hu hsig]
  obtain ⟨hs, -, hh⟩ := foldl_runSlot_keeps (c := s.core) (x := ⟨t, none, some h, [] ++ a, none⟩)
    (fun j hj => his j (List.mem_append_right pre (List.mem_cons_of_mem i hj))) rfl
  exact ⟨hs, hh h rfl⟩

/-! ### The bundle -/

theorem issueBundle_illegal {s : State} {w : BitVec 128} {b : Bundle}
    (h : clash (bundleSlots b) = true ∨ ∃ i ∈ bundleSlots b, illegalNumber s i = true) :
    issueBundle s w b = trapHere s (withWords (endTrap s 0x03 0) w) := by
  refine if_pos ?_
  rw [Bool.or_eq_true, List.any_eq_true]
  exact h

theorem issueBundle_trapped {s : State} {w : BitVec 128} {b : Bundle} {e : TrapInfo} (hclash : clash (bundleSlots b) = false)
    (hlegal : ∀ i ∈ bundleSlots b, illegalNumber s i = false) (hready : notReady s.core (bundleSlots b) = false)
    (hstop : (runSlots s (bundleSlots b)).stop = none) (htrap : (runSlots s (bundleSlots b)).trap = some e) :
    issueBundle s w b = trapHere s (withWords e w) := by
  simp [issueBundle, hclash, any_illegalNumber_eq_false hlegal, hready, hstop, htrap]

theorem issueBundle_held {s : State} {w : BitVec 128} {b : Bundle} {h : Hold} (hclash : clash (bundleSlots b) = false)
    (hlegal : ∀ i ∈ bundleSlots b, illegalNumber s i = false) (hready : notReady s.core (bundleSlots b) = false)
    (hstop : (runSlots s (bundleSlots b)).stop = none) (htrap : (runSlots s (bundleSlots b)).trap = none)
    (hheld : (runSlots s (bundleSlots b)).held = some h) :
    issueBundle s w b = freeze (addAts s s.here (.core s.coreId) (runSlots s (bundleSlots b)).ats) h := by
  simp [issueBundle, hclash, any_illegalNumber_eq_false hlegal, hready, hstop, htrap, hheld]

/-- The trap of an illegal bundle names its words. -/
theorem withWords_illegal {s : State} {pc : Word} (h : s.core.pc = pc) (w : BitVec 128) :
    withWords (endTrap s 0x03 0) w = { TrapInfo.mk0 0x03 1 pc 0 with words := w } := by
  rw [endTrap, h]
  rfl

theorem step_of_trapHere {s u : State} {e : TrapInfo} {pc : Word} (hs : issuesNext s) (h : issue s = trapHere u e)
    (hpc : u.core.pc = pc) :
    step s = .next { takeTrap (forget u) e pc with time := (takeTrap (forget u) e pc).time + 1 } := by
  rw [trapHere, hpc] at h
  exact step_of_moved hs h

theorem addAts_sameStore (s : State) (d : BitVec 2) (who : Asker) (reqs : List (Nat × Nat × Bool)) :
    sameStore s (addAts s d who reqs) := by
  unfold addAts
  split <;> exact ⟨rfl, rfl, rfl, rfl, rfl⟩

end Sys2Proof.Machine

namespace Sys2Proof.Rules

open Sys2Proof.Machine

theorem bundleTraps : BundleTraps := by
  intro s w hs hw s1 s0 takes illegal
  have hpc1 : s1.core.pc = s.core.pc := ageLoads_pc s
  have hpc0 : s0.core.pc = s.core.pc := (landDue_pc s1 _).trans hpc1
  refine ⟨fun e he => ?_, fun b hb hill => ?_, fun b pre i r t u e hb hclash hlegal hready heq hearly hgive hu hsig => ?_⟩
  · have hissue := issue_of_error hs hw he
    rw [withWords_illegal hpc1] at hissue
    exact step_of_trapHere hs hissue hpc1
  · have hissue := (issue_of_decodeBundle hs hw hb).trans (issueBundle_illegal hill)
    rw [withWords_illegal hpc0] at hissue
    exact step_of_trapHere hs hissue hpc0
  · obtain ⟨hstop, htrap⟩ := runSlots_trapped (r := r) (heq ▸ isEvent_of_mem_bundleSlots hb) hearly hgive hu hsig
    rw [← heq] at hstop htrap
    exact step_of_trapHere hs ((issue_of_decodeBundle hs hw hb).trans (issueBundle_trapped hclash hlegal hready hstop htrap)) hpc0

theorem bundleHolds : BundleHolds := by
  intro s w b pre r i t u h a hs hw hb hclash s0 hlegal hready heq hgive hu hsig htrap
  have his := isEvent_of_mem_bundleSlots hb
  have htrap' := htrap
  rw [heq] at his htrap'
  obtain ⟨hstop, hheld⟩ := runSlots_held his hgive hu hsig htrap'
  rw [← heq] at hstop hheld
  have hissue := (issue_of_decodeBundle hs hw hb).trans (issueBundle_held hclash hlegal hready hstop htrap hheld)
  refine ⟨_, hissue, ?_, addAts_sameStore _ _ _ _⟩
  rw [← (Quiet.addAts s0 s0.here (.core s0.coreId) (runSlots s0 (bundleSlots b)).ats).core]

/-- Settles O56: a slot answers a next state, so that the trap and the hold of the lowest slot stay to the end of the bundle. -/
theorem bundleTrapsAndHolds : Obligations.BundleTrapsAndHolds := ⟨bundleTraps, bundleHolds⟩

end Sys2Proof.Rules

/-! SUPPORT. Transfers and the loop stack (R140, R173 to R175): the steps allowed for popping the stack suffice for its depth, so
that a pass over it is one entry and then a pass over the rest. -/

namespace Sys2Proof.Machine

open Sys2Proof

/-! ### Targets (R140, R173) -/

theorem dispTarget_eq (pc : Word) (disp : BitVec 22) : dispTarget pc disp = pc + BitVec.ofInt 64 (16 * disp.toInt) := by
  have h : disp.signExtend 64 <<< 4 = BitVec.ofInt 64 (16 * disp.toInt) := by
    rw [BitVec.shiftLeft_eq_mul_twoPow, BitVec.signExtend, ← Int.mul_comm disp.toInt, BitVec.ofInt_mul]
    rfl
  rw [dispTarget, h]

theorem setWidth_shiftLeft_four (disp : BitVec 10) : disp.setWidth 64 <<< 4 = BitVec.ofNat 64 (16 * disp.toNat) := by
  apply BitVec.eq_of_toNat_eq
  have hlt := disp.isLt
  rw [BitVec.toNat_shiftLeft, BitVec.toNat_setWidth, BitVec.toNat_ofNat, Nat.shiftLeft_eq]
  omega

theorem setWidth_eq_ofNat (n : BitVec 12) : n.setWidth 64 = BitVec.ofNat 64 n.toNat := BitVec.eq_of_toNat_eq (by simp)

theorem bundleAddress_iff (x : Word) : x.extractLsb' 0 4 = 0 ↔ x.toNat % 16 = 0 := by
  rw [← BitVec.toNat_inj, BitVec.extractLsb'_toNat]
  rfl

theorem indirect_aligned {s : State} {x : Word} (h : x.toNat % 16 = 0) (pops : Bool) :
    indirect s x pops = .next (jumpTo s x pops).clear := if_pos ((bundleAddress_iff x).2 h)

theorem indirect_unaligned {s : State} {x : Word} (h : x.toNat % 16 ≠ 0) (pops : Bool) :
    trapsWith s (indirect s x pops) 0x03 := by
  rw [indirect, if_neg (mt (bundleAddress_iff x).1 h)]
  exact ⟨_, rfl, rfl⟩

theorem exec_jmp_on {a : BitVec 6} {g : GuardF} {s : State} (hg : s.core.guard g = true) :
    exec (.jmp a g) s = indirect s (s.core.rs a) true := if_pos hg

theorem exec_ret_on {g : GuardF} {s : State} (hg : s.core.guard g = true) : exec (.ret g) s = indirect s (s.core.rs 63) false :=
  if_pos hg

end Sys2Proof.Machine

namespace Sys2Proof.Rules

open Sys2Proof.Machine

theorem transfers : Transfers := by
  intro disp a g s hg
  rw [exec_jmp_on hg, exec_ret_on hg, ← dispTarget_eq]
  exact ⟨if_pos hg, if_pos hg, fun h => indirect_aligned h true, fun h => indirect_unaligned h true,
    fun h => indirect_aligned h false, fun h => indirect_unaligned h false⟩

end Sys2Proof.Rules

namespace Sys2Proof.Machine

open Sys2Proof

/-! ### Opening a loop (R174) -/

theorem exec_loop_on {n : BitVec 12} {disp : BitVec 10} {g : GuardF} {s : State} (hg : s.core.guard g = true) :
    exec (.loop n disp g) s = openLoop s (BitVec.ofNat 64 n.toNat) disp := by
  rw [← setWidth_eq_ofNat]
  exact if_pos hg

theorem exec_loopReg_on {a : BitVec 6} {disp : BitVec 10} {g : GuardF} {s : State} (hg : s.core.guard g = true) :
    exec (.loopReg a disp g) s = openLoop s (s.core.rs a) disp := if_pos hg

theorem passes_ne_zero {n : BitVec 12} (h : n ≠ 0) : BitVec.ofNat 64 n.toNat ≠ 0 := by
  have hn : n.toNat ≠ 0 := fun e => h (BitVec.eq_of_toNat_eq e)
  bv_omega

/-- The last bundle of the innermost body. -/
def atBodyEnd (c : CoreState) : Prop := ∃ j : Fin 4, c.loops.top = some j ∧ c.pc = c.loops.lend.get j - 16

theorem openLoop_zero {s : State} (disp : BitVec 10) :
    openLoop s 0 disp = .next (jumpTo s (s.core.pc + BitVec.ofNat 64 (16 * disp.toNat)) true).clear := by
  rw [← setWidth_shiftLeft_four]
  rfl

theorem openLoop_fault {s : State} {n : Word} (hn : n ≠ 0) (h : s.core.loops.depth = 4 ∨ atBodyEnd s.core) (disp : BitVec 10) :
    trapsWith s (openLoop s n disp) 0x05 := by
  refine ⟨endTrap s 0x05 0, rfl, (if_neg hn).trans (if_pos ?_)⟩
  rw [Bool.or_eq_true]
  rcases h with h | ⟨j, hj, hpc⟩
  · exact .inl (by rw [h]; rfl)
  · exact .inr (by simp [hj, hpc])

theorem openLoop_push {s : State} {n : Word} {i : Fin 4} (hn : n ≠ 0) (hi : s.core.loops.depth.toNat = i.val)
    (h : ¬ atBodyEnd s.core) (disp : BitVec 10) :
    openLoop s n disp = .next { s with
      sig := .none
      core := { s.core with loops := ⟨s.core.loops.depth + 1, s.core.loops.lcnt.set i.val n,
        s.core.loops.lbeg.set i.val (s.core.pc + 16),
        s.core.loops.lend.set i.val (s.core.pc + BitVec.ofNat 64 (16 * disp.toNat))⟩ } } := by
  have hdepth : ¬ 4 ≤ i.val := Nat.not_le.2 i.isLt
  have hmod : i.val % 4 = i.val := Nat.mod_eq_of_lt i.isLt
  cases htop : s.core.loops.top with
  | none =>
    simp only [openLoop, if_neg hn, hi, htop, hdepth, hmod, setWidth_shiftLeft_four]
    rfl
  | some j =>
    have hpc : (s.core.pc == s.core.loops.lend.get j - 16) = false := beq_false_of_ne fun e => h ⟨j, htop, e⟩
    simp only [openLoop, if_neg hn, hi, htop, hpc, hdepth, hmod, setWidth_shiftLeft_four]
    rfl

/-! ### Popping the stack (R175) -/

theorem top_zero {l : LoopStack} (h : l.depth.toNat = 0) : l.top = none := if_pos (BitVec.eq_of_toNat_eq h)

theorem top_succ {l : LoopStack} {i : Fin 4} (h : l.depth.toNat = i.val + 1) : l.top = some i := by
  have hne : l.depth ≠ 0 := fun e => by simp [e] at h
  rw [LoopStack.top, if_neg hne]
  congr 1
  apply Fin.ext
  have hi := i.isLt
  simp only [h]
  omega

theorem depth_sub_one {d : BitVec 3} {n : Nat} (h : d.toNat = n + 1) : d - 1 = BitVec.ofNat 3 n := by
  have hd := d.isLt
  apply BitVec.eq_of_toNat_eq
  rw [BitVec.toNat_sub, BitVec.toNat_ofNat, h]
  simp
  omega

/-- A stack has an innermost entry just when its depth is not 0, and one entry fewer below it. -/
theorem depth_pop_le {l : LoopStack} {j : Fin 4} {n : Nat} (htop : l.top = some j) (h : l.depth.toNat ≤ n + 1) :
    (l.depth - 1).toNat ≤ n := by
  have hne : l.depth.toNat ≠ 0 := fun e => Option.some_ne_none j (htop.symm.trans (top_zero e))
  obtain ⟨m, hm⟩ := Nat.exists_eq_succ_of_ne_zero hne
  rw [depth_sub_one hm, BitVec.toNat_ofNat]
  exact (Nat.mod_le _ _).trans (by omega)

theorem fallThrough_none (n : Nat) {l : LoopStack} (h : l.top = none) (pc next : Word) : fallThrough n l pc next = (l, next) := by
  cases n with
  | zero => rfl
  | succ n => simp only [fallThrough, h]

theorem fallThrough_some {n : Nat} {l : LoopStack} {j : Fin 4} (h : l.top = some j) (pc next : Word) :
    fallThrough (n + 1) l pc next =
      if pc = l.lend.get j - 16 then
        if 1 < (l.lcnt.get j).toNat then ({ l with lcnt := l.lcnt.set j (l.lcnt.get j - 1) }, l.lbeg.get j)
        else fallThrough n { l with depth := l.depth - 1 } pc next
      else (l, next) := by
  simp only [fallThrough, h]

theorem leaveLoops_none (n : Nat) {l : LoopStack} (h : l.top = none) (pc target : Word) : leaveLoops n l pc target = l := by
  cases n with
  | zero => rfl
  | succ n => simp only [leaveLoops, h]

theorem leaveLoops_some {n : Nat} {l : LoopStack} {j : Fin 4} (h : l.top = some j) (pc target : Word) :
    leaveLoops (n + 1) l pc target =
      if inBody l j pc && !inBody l j target then leaveLoops n { l with depth := l.depth - 1 } pc target else l := by
  simp only [leaveLoops, h]

/-- More steps than the stack's depth change nothing. -/
theorem fallThrough_succ {n : Nat} {l : LoopStack} (h : l.depth.toNat ≤ n) (pc next : Word) :
    fallThrough (n + 1) l pc next = fallThrough n l pc next := by
  induction n generalizing l with
  | zero => rw [fallThrough_none _ (top_zero (Nat.le_zero.1 h)), fallThrough]
  | succ n ih =>
    cases htop : l.top with
    | none => rw [fallThrough_none _ htop, fallThrough_none _ htop]
    | some j => rw [fallThrough_some htop, fallThrough_some htop, ih (depth_pop_le htop h)]

theorem leaveLoops_succ {n : Nat} {l : LoopStack} (h : l.depth.toNat ≤ n) (pc target : Word) :
    leaveLoops (n + 1) l pc target = leaveLoops n l pc target := by
  induction n generalizing l with
  | zero => rw [leaveLoops_none _ (top_zero (Nat.le_zero.1 h)), leaveLoops]
  | succ n ih =>
    cases htop : l.top with
    | none => rw [leaveLoops_none _ htop, leaveLoops_none _ htop]
    | some j => rw [leaveLoops_some htop, leaveLoops_some htop, ih (depth_pop_le htop h)]

theorem fallThrough_pop {n : Nat} {l : LoopStack} {i : Fin 4} {pc : Word} (hn : i.val + 1 ≤ n)
    (hdepth : l.depth.toNat = i.val + 1) (hpc : pc = l.lend.get i - 16) (hcnt : (l.lcnt.get i).toNat ≤ 1) (next : Word) :
    fallThrough n l pc next = fallThrough n { l with depth := BitVec.ofNat _ i.val } pc next := by
  obtain ⟨m, rfl⟩ := Nat.exists_eq_add_one_of_ne_zero (by omega : n ≠ 0)
  have hle : (BitVec.ofNat 3 i.val).toNat ≤ m := (Nat.mod_le _ _).trans (by omega)
  rw [fallThrough_succ (l := { l with depth := BitVec.ofNat _ i.val }) hle, fallThrough_some (top_succ hdepth), if_pos hpc,
    if_neg (Nat.not_lt.2 hcnt), depth_sub_one hdepth]

theorem leaveLoops_pop {n : Nat} {l : LoopStack} {i : Fin 4} {pc target : Word} (hn : i.val + 1 ≤ n)
    (hdepth : l.depth.toNat = i.val + 1) (hin : inBody l i pc = true) (hout : inBody l i target = false) :
    leaveLoops n l pc target = leaveLoops n { l with depth := BitVec.ofNat _ i.val } pc target := by
  obtain ⟨m, rfl⟩ := Nat.exists_eq_add_one_of_ne_zero (by omega : n ≠ 0)
  have hle : (BitVec.ofNat 3 i.val).toNat ≤ m := (Nat.mod_le _ _).trans (by omega)
  rw [leaveLoops_succ (l := { l with depth := BitVec.ofNat _ i.val }) hle, leaveLoops_some (top_succ hdepth), hin, hout,
    depth_sub_one hdepth]
  rfl

theorem leaveLoops_stay {n : Nat} {l : LoopStack} {i : Fin 4} {pc target : Word} (hdepth : l.depth.toNat = i.val + 1)
    (h : inBody l i pc = false ∨ inBody l i target = true) : leaveLoops n l pc target = l := by
  cases n with
  | zero => rfl
  | succ n =>
    rw [leaveLoops_some (top_succ hdepth)]
    rcases h with h | h <;> simp [h]

theorem inBody_iff (l : LoopStack) (i : Fin 4) (x : Word) :
    inBody l i x = true ↔ (l.lbeg.get i).toNat ≤ x.toNat ∧ x.toNat < (l.lend.get i).toNat := by
  simp [inBody]

/-- A bundle without a transfer follows the loop rule. -/
theorem nextPc_of_no_jump {c : CoreState} (h : c.jump = none) : nextPc c = fallThrough 8 c.loops c.pc (c.pc + 16) := by
  rw [nextPc, h]

end Sys2Proof.Machine

namespace Sys2Proof.Rules

open Sys2Proof.Machine

theorem loopEntry : LoopEntry := by
  intro n a disp g s i hg hi hend
  have hno : ¬ atBodyEnd s.core := fun ⟨j, hj, hpc⟩ => hend j hj hpc
  rw [exec_loop_on hg, exec_loopReg_on hg]
  refine ⟨fun hn => openLoop_push (passes_ne_zero hn) hi hno disp, fun ha => openLoop_push ha hi hno disp, fun ha => ?_⟩
  rw [ha]
  exact openLoop_zero disp

theorem loopStackFault : LoopStackFault := by
  intro n a disp g s hg h
  rw [exec_loop_on hg, exec_loopReg_on hg]
  refine ⟨fun hn => openLoop_fault (passes_ne_zero hn) h disp, fun ha => openLoop_fault ha h disp, fun ha => ?_⟩
  rw [ha]
  exact openLoop_zero disp

theorem loopEnd : LoopEnd := by
  intro c i hjump
  rw [nextPc_of_no_jump hjump]
  refine ⟨fun hdepth hpc => ⟨fun hcnt => ?_, fun hcnt => ?_⟩, fun hdepth hpc => ?_, fun hdepth => ?_, ?_⟩
  · rw [fallThrough_some (top_succ hdepth), if_pos hpc, if_pos hcnt]
  · rw [nextPc_of_no_jump (c := { c with loops := { c.loops with depth := BitVec.ofNat _ i.val } }) hjump]
    exact fallThrough_pop (by omega) hdepth hpc hcnt _
  · rw [fallThrough_some (top_succ hdepth), if_neg hpc]
  · exact fallThrough_none _ (top_zero (congrArg BitVec.toNat hdepth)) _ _
  · rintro s target rfl
    refine ⟨rfl, rfl, fun hdepth hin hout => ?_, fun hdepth h => ?_, fun hdepth => ?_⟩
    · exact leaveLoops_pop (by omega) hdepth ((inBody_iff _ _ _).2 hin) (Bool.eq_false_iff.2 (mt (inBody_iff _ _ _).1 hout))
    · exact leaveLoops_stay hdepth
        (h.imp (fun h => Bool.eq_false_iff.2 (mt (inBody_iff _ _ _).1 h)) (inBody_iff _ _ _).2)
    · exact leaveLoops_none 8 (top_zero (congrArg BitVec.toNat hdepth)) _ _

/-- Settles O8: a transfer by its target, a LOOP by the count and the stack, and the loop rule and a transfer's pops by one entry
of the stack at a time. -/
theorem transfersAndLoops : Obligations.TransfersAndLoops := ⟨transfers, loopEntry, loopStackFault, loopEnd⟩

end Sys2Proof.Rules

/-! SUPPORT. The fixed registers (R145): the two that an instruction may read but not name as a destination, and the limits of an
entry that keep it from doing so (R144, R188). -/

namespace Sys2Proof.Machine

open Sys2Proof

/-- A guard or mask register with a constant value: `g0` or `k0`. -/
def RegRef.constant : RegRef → Bool
  | .g n => n == 0
  | .k n => n == 0
  | _ => false

/-- No register of a list is `g0` or `k0`. -/
def NoConstant (rs : List RegRef) : Prop := ∀ r ∈ rs, r.constant = false

theorem NoConstant.nil : NoConstant [] := List.forall_mem_nil _

theorem NoConstant.cons {r : RegRef} {rs : List RegRef} (h : r.constant = false) (hs : NoConstant rs) : NoConstant (r :: rs) :=
  List.forall_mem_cons.2 ⟨h, hs⟩

theorem NoConstant.one {r : RegRef} (h : r.constant = false) : NoConstant [r] := .cons h .nil

theorem NoConstant.append {rs ts : List RegRef} (h : NoConstant rs) (k : NoConstant ts) : NoConstant (rs ++ ts) :=
  List.forall_mem_append.2 ⟨h, k⟩

theorem noConstant_memOp (m : MemOp) : NoConstant m.writes := by
  cases m with
  | inc | incIdx => exact .one rfl
  | _ => exact .nil

theorem noConstant_eAddr (x : EAddr) : NoConstant x.writes := by
  unfold EAddr.writes
  split
  · exact .one rfl
  · exact .nil

theorem noConstant_tuple (r : BitVec 6) (n : Nat) : NoConstant (tuple r n) := by
  intro x hx
  obtain ⟨i, -, rfl⟩ := List.mem_map.1 hx
  rfl

theorem constant_g {n : BitVec 3} (h : n ≠ 0) : (RegRef.g n).constant = false := beq_false_of_ne h

theorem constant_k {n : BitVec 4} (h : n ≠ 0) : (RegRef.k n).constant = false := beq_false_of_ne h

/-- A guard destination is `g1` to `g7`. -/
theorem lo3_ne_zero {d : BitVec 6} (h : gdOk d = true) : lo3 d ≠ 0 := by
  simp only [gdOk, Bool.and_eq_true, decide_eq_true_eq] at h
  intro e
  have hlow : d.toNat % 8 = 0 := by simpa [lo3] using congrArg BitVec.toNat e
  omega

/-- A mask destination is `k1` to `k15`. -/
theorem lo4_ne_zero {d : BitVec 6} (h : kdOk d = true) : lo4 d ≠ 0 := by
  simp only [kdOk, Bool.and_eq_true, decide_eq_true_eq] at h
  intro e
  have hlow : d.toNat % 16 = 0 := by simpa [lo4] using congrArg BitVec.toNat e
  omega

/-- The limits of its own entry keep an instruction from naming `g0` or `k0` as a destination. -/
theorem noConstant_writes {i : Instr} (h : i.WellFormed) : NoConstant i.writes := by
  cases i with
  -- guards and masks
  | cmp | fcmp | gand | gor | gnot => exact .one (constant_g (lo3_ne_zero h))
  | vcmp => exact .one (constant_k (by simp_all [Instr.WellFormed, Instr.wf]))
  | kand | kor | kxor | knot | kset => exact .one (constant_k (lo4_ne_zero (by simp_all [Instr.WellFormed, Instr.wf])))
  | splopenNb => exact .cons (constant_g (by simp_all [Instr.WellFormed, Instr.wf])) (noConstant_eAddr _)
  | sumpout => exact .cons rfl (.cons (constant_k (by simp_all [Instr.WellFormed, Instr.wf])) (noConstant_tuple _ _))
  | ldrrung => exact .cons rfl (.one (constant_g (by simp_all [Instr.WellFormed, Instr.wf])))
  -- one register of another class
  | add | sub | and | or | xor | andn | min | max | minu | maxu | shl | shr | sra | rol | mul | mulh | mulhu | div | divu | rem
  | remu | clz | ctz | popc | movi | movhi | fcvt | fclass | getf | getid | mfs | bfx | bfi | sel | fadd | fsub | fmul | fmin
  | fmax | ffma | hops | call | setfmt | mts | aadd | alea | asetm | amo | cas | splclose | splstat | nxstat | vadd | vsub | vmul
  | vfma | vfms | vmin | vmax | vabs | vneg | vrcp | vrsq | vfexp2 | vlog2 | vrndi | vscale | vgetexp | vgetman | vcvt | vcvti
  | vpackb | vunpb | vsat | vsel | vand | vor | vxor | vnot | vshl | vshr | vsra | viota | vbcast | vins | vmov | vperm | vslide
  | vredsum | vredmax | vdot4 | vcompr | vexpnd | vmovs | kpopc | kfirst | sumpcnt | sumpcfg | acmovv | ldrcnt => exact .one rfl
  | amov k => cases k <;> exact .one rfl
  -- post-increments
  | ld | ldv | ldvs | ldvx => exact .cons rfl (noConstant_memOp _)
  | st | stv | stvs | stvx | pref => exact noConstant_memOp _
  | copy | copym | setband => exact .append (noConstant_eAddr _) (noConstant_eAddr _)
  | attn | splopen | nxwr | nxrd => exact noConstant_eAddr _
  | kvfind | kvfree | kvapp | splarv | nxamo | launch => exact .cons rfl (noConstant_eAddr _)
  -- no destination
  | _ => exact .nil

theorem NoConstant.dests {i : Instr} (h : NoConstant i.writes) : RegRef.g 0 ∉ i.dests ∧ RegRef.k 0 ∉ i.dests :=
  ⟨fun hm => Bool.noConfusion (h _ (List.mem_filter.1 hm).1), fun hm => Bool.noConfusion (h _ (List.mem_filter.1 hm).1)⟩

theorem s_zero_notMem_dests (i : Instr) : RegRef.s 0 ∉ i.dests := fun h => by
  simp [Instr.dests] at h

/-- An interlocked result for `s0` makes no register pending. -/
theorem lock_s_zero {s : State} {r : Option (List RegWrite)} {n : Option (BitVec 3)} {l : Lock}
    (h : l ∈ (lock s [.s 0] r n).2.core.locks) : l ∈ s.core.locks ∨ l.regs = [] := by
  rw [lock_eq] at h
  rcases List.mem_append.1 h with h | h
  · exact .inl h
  · rw [List.mem_singleton.1 h]
    exact .inr rfl

theorem sysWrite_g_k (c : CoreState) (n : BitVec 12) (x : Word) : (c.sysWrite n x).g = c.g ∧ (c.sysWrite n x).k = c.k := by
  obtain ⟨_, _, _, _, _, _, h⟩ := sysWrite_frame c n x
  rw [h]
  exact ⟨rfl, rfl⟩

end Sys2Proof.Machine

namespace Sys2Proof.Rules

open Sys2Proof.Machine

/-- Settles O1: the reads and writes of registers single out `s0`, `g0` and `k0`, and the limits of its entry keep a decoded
instruction from a destination `g0` or `k0`. -/
theorem fixedRegisters : Obligations.FixedRegisters := by
  refine ⟨fun s lat x r n => ?_, s_zero_notMem_dests, fun k w e i hi => ?_, fun s k g => ⟨rfl, rfl⟩, sysWrite_g_k⟩
  · exact ⟨rfl, rfl, rfl, later_dropped rfl s lat, rfl, fun l => lock_s_zero⟩
  · exact (noConstant_writes (decodesWellFormed k w e i hi).1).dests

end Sys2Proof.Rules
